-- ==== Sys2Proof/Word.lean ====
section
/-! DEFINITION. Word types of the Q9 (00 R8: bits are numbered from the least significant end) and their plainest arithmetic. -/

namespace Sys2Proof

abbrev Byte := BitVec 8
abbrev Word := BitVec 32
abbrev DWord := BitVec 64
/-- An instruction word (06 R140). -/
abbrev IWord := BitVec 128

/-- The field `[hi:lo]` of a number, as a number (00 R8). -/
def bits (x hi lo : Nat) : Nat := (x >>> lo) % 2 ^ (hi + 1 - lo)

/-- One bit of a number. -/
def bit (x i : Nat) : Bool := x.testBit i

/-- `zext` of R14 is `BitVec.toNat`; `sext(v, n)` of R14. -/
def sextN (n x : Nat) : Int := if x % 2 ^ n < 2 ^ (n - 1) then ((x % 2 ^ n : Nat) : Int) else ((x % 2 ^ n : Nat) : Int) - 2 ^ n

/-- `trunc(x, n)` of R14 as a number. -/
def truncN (n : Nat) (x : Int) : Nat := (x % (2 ^ n : Int)).toNat

end Sys2Proof
end

