-- ==== Sys2Proof/Config.lean ====
section
/-! DEFINITION. What an implementation fixes, and the free values (opaque constants with no body: nothing can evaluate them). -/

namespace Sys2Proof.Config

/-- Cores fenced at manufacture (00 R3). DESIGN CHOICE (log 8): a part without defects. -/
def fencedCores : List Nat := []

/-- Fitted tier-2 capacity in GiB (00, the memory table: 1,024 as fitted; 10 R265). DESIGN CHOICE (log 8). -/
def tier2GiB : Nat := 1024

/-- Power envelope of the board in watts (00 R1, R2). DESIGN CHOICE (log 8): the rated 2,800 W. -/
def boardWatts : Nat := 2800

/-- Registers per slice of a core without repairs (05 R112). -/
def fullCapreg : Nat := 1280

/-! Free values. Each takes the counter `fresh`, or the objects it depends on. -/

/-- A choice the spec leaves to the implementation or to timing (10 R268, 11 R283, R306; 08 R204). -/
opaque choose : Nat → Bool

/-- A byte of a block's scratchpad that nothing has written since its grant (05 R111). -/
opaque staleByte : Nat → Nat → Byte

/-- A word of an accumulator that nothing has written since its grant (12 R310). -/
opaque staleWord : Nat → Nat → Word

/-- A uniform constant of the handler warp, which belongs to no launch (06 R144). -/
opaque handlerConst : Nat → Word

/-- The public key fused into the device (03 R83): a point of P-384. -/
opaque fusedKey : Nat × Nat

/-- The prices, and the step prices, that an image's bytes state for its slots, at places the manual does not give (03 R85; 06 R154; log 95). -/
opaque statedPrices : List Byte → List (Nat × Nat)
opaque statedSteps : List Byte → List (Nat × Nat)

/-- A peer module's firmware refuses the translation of an address in one of its partitions (11 R284). -/
opaque peerRefuses : Nat → Nat → Nat → Bool

/-- Energy of an engine's self-test, and the sub-arrays whose rows differ in it (12 R328). -/
opaque selfTestEnergy : Nat
opaque subArrayFails : Nat → BitVec 16

/-- The depth that RAST interpolates over an AREA of 0, and the level that FILT takes for a LOD that is NaN, from the values divided or taken (13 R346, R353). -/
opaque depthByZero : Int → BitVec 24
opaque levelOfNan : Nat → Nat

/-- Bytes of an AV1 temporal unit (17 R448, R449): the encoding, the base_q_idx that a host-assisted rate control gave it, byte index. -/
opaque unitByte : Nat → Option Nat → Nat → Byte

/-- The tier-1 channel (of 32) that a frame lies on: the spec states no interleaving (03 R70, R79; log 99). -/
opaque channelOf : Nat → Nat

/-- The 2^48-byte region of virtual addresses (of 512) in which firmware maps a partition's root RCB, spill ring, dump region, tables and save area, and the frames it holds ready beside them (03 R70, R80; 16 R431; log 94). -/
opaque regionSlot : Nat → Nat
opaque poolPages : Nat → Nat

/-- What a microcode-extensible slot does where its image defines it (03 R85; 06 R154; log 79): from a free count, the slot and a lane's place (32 × warp slot + lane), the V registers written; the bytes stored, by virtual address; the exception bits raised. -/
opaque slotWrites : Nat → Nat → Nat → List (BitVec 8 × Word)
opaque slotStores : Nat → Nat → List (Nat × Byte)
opaque slotExc : Nat → Nat → BitVec 7

/-- A frame holds code of a tenant's policy plug-in, and the frame of its VCP page (03 R64, R73; log 85). -/
opaque pluginCode : Nat → Nat → Bool
opaque vcpFrame : Nat → Nat

/-- The tenant of a shared partition that a frame serves, and the address ranges, first and past the last, that firmware would enter for a tenant's plug-in (03 R64; log 85). -/
opaque tenantOf : Nat → Nat
opaque pluginRanges : Nat → List (Nat × Nat)

end Sys2Proof.Config
end

