-- ==== Sys2Proof/Machine/Tab.lean ====
section
/-! DEFINITION. Tables: lists of (key, value) pairs with rising keys, the one form in which the machine holds sparse data (registers by lane, warps by slot, memory by address). -/

namespace Sys2Proof.Machine

/-- A table from numbers to values, kept in rising order of key by the operations below. -/
abbrev Tab (α : Type) := List (Nat × α)

/-- The value at a key. -/
def Tab.get? {α : Type} : Tab α → Nat → Option α
  | [], _ => none
  | (k, v) :: r, q => if q = k then some v else Tab.get? r q

/-- The value at a key, or a default. -/
def Tab.get {α : Type} (t : Tab α) (q : Nat) (d : α) : α := (Tab.get? t q).getD d

/-- Stores a value at a key. -/
def Tab.set {α : Type} : Tab α → Nat → α → Tab α
  | [], q, x => [(q, x)]
  | (k, v) :: r, q, x => if q < k then (q, x) :: (k, v) :: r else if q = k then (q, x) :: r else (k, v) :: Tab.set r q x

/-- Removes a key. -/
def Tab.erase {α : Type} (t : Tab α) (q : Nat) : Tab α := t.filter (fun c => c.1 != q)

/-- The table holds the key. -/
def Tab.has {α : Type} (t : Tab α) (q : Nat) : Bool := (Tab.get? t q).isSome

/-- Applies a function to the value at a key, where there is one. -/
def Tab.modify {α : Type} (t : Tab α) (q : Nat) (f : α → α) : Tab α :=
  match Tab.get? t q with
  | none => t
  | some v => Tab.set t q (f v)

/-- Applies a function to every value. -/
def Tab.mapVal {α : Type} (t : Tab α) (f : α → α) : Tab α := t.map (fun c => (c.1, f c.2))

/-- The keys, rising. -/
def Tab.keys {α : Type} (t : Tab α) : List Nat := t.map Prod.fst

/-- Keys strictly rise. -/
def Tab.sorted {α : Type} : Tab α → Bool
  | [] => true
  | [_] => true
  | (a, _) :: (b, y) :: r => a < b && Tab.sorted ((b, y) :: r)

/-- The smallest value a key function takes on a list, with its element; the first of equals. -/
def argmin {α : Type} (f : α → Nat) : List α → Option α
  | [] => none
  | x :: r =>
    match argmin f r with
    | none => some x
    | some y => if f y < f x then some y else some x

/-- Folds a function over a list, updating a state. -/
def forEach {α σ : Type} (xs : List α) (s : σ) (f : σ → α → σ) : σ := xs.foldl f s

/-- Bit `i` of a mask of lanes. -/
def laneBit (m : Word) (l : Nat) : Bool := m.toNat.testBit l

/-- The mask whose set bits are the listed lanes. -/
def maskOf (ls : List Nat) : Word := ls.foldl (fun m l => m ||| BitVec.ofNat 32 (2 ^ l)) 0#32

/-- The lanes of a mask, rising. -/
def lanesOf (m : Word) : List Nat := (List.range 32).filter (fun l => laneBit m l)

/-- The smallest positive element of a list of cause codes; 0 where there is none. -/
def minCause (xs : List Nat) : Nat := xs.foldl (fun m x => if x = 0 then m else if m = 0 then x else min m x) 0

end Sys2Proof.Machine
end

