-- ==== Sys2Proof/Syntax.lean ====
section
/-! DEFINITION. The rows of the Q9's table of operations and events: one constructor of `Instr` per row. An instruction of the Kelfer set carries its decoded operand record `Op` (06 R141 to R148); a step without an instruction word carries what names it. -/

namespace Sys2Proof

/-- A source operand (06 R144). Indices are kept as encoded; `WellFormed` refuses the reserved ones. -/
inductive Src where
  | v (n : BitVec 8)
  | s (n : BitVec 8)
  | latch (n : BitVec 8)
  | const (n : BitVec 8)
  | imm
  deriving DecidableEq, Repr

/-- A destination operand (06 R146). -/
inductive Dst where
  | v (n : BitVec 8)
  | s (n : BitVec 5)
  | p (n : BitVec 3)
  | latch (n : BitVec 2)
  | tile (n : BitVec 4)
  | none
  deriving DecidableEq, Repr

/-- The control word (06 R141) with its reserved bits gone. -/
structure Ctl where
  stall : BitVec 4
  wait : BitVec 12
  setf : BitVec 4
  chain : Bool
  yield : Bool
  lastC : Bool
  lastB : Bool
  lastA : Bool
  wbs : Bool
  deriving DecidableEq, Repr

/-- The operand record of an instruction word (06 R141). -/
structure Op where
  ctl : Ctl
  gneg : Bool
  gpred : BitVec 3
  dst : Dst
  a : Src
  b : Src
  c : Src
  md : BitVec 11
  imm : Word
  deriving DecidableEq, Repr

/-- A register of a firmware core (03 R63): of RV64GC, or its own timer in µs (R64). -/
inductive FwReg where
  | x (n : Nat)
  | f (n : Nat)
  | csr (n : Nat)
  | pc
  | timer
  deriving DecidableEq, Repr

/-- A register the host, a tenant or firmware writes by address (03 R68, R73; 05 R135; 12 R328) or that firmware sets (10 R263, 16 R404, 11 R284). -/
inductive RegTarget where
  | window (off : Nat)
  | vcp (tag : Nat) (off : Nat)
  | power (shard : Nat) (off : Nat)
  | matrix (shard : Nat) (off : Nat)
  | handlerEntry (part : Nat)
  | xlatRoot (part : Nat)
  | linkGroup (part : Nat) (lg : Nat)
  | preempt (blk : Nat)
  | frameOwner (frame : Nat)
  /-- a word of a tier that firmware writes, as when it maps a page (10 R264, R265, R272) -/
  | tierWord (pa : Nat)
  /-- a bundle that firmware launches in its own context (08 R200; 17 R445) -/
  | fwBundle (part : Nat)
  /-- what a firmware core's own instructions leave in one of its registers (03 R63) -/
  | fwCore (core : Nat) (r : FwReg)
  /-- the S-mode scheduler calls a tenant's policy plug-in, and the plug-in returns with the queue that it puts first (03 R64) -/
  | pluginCall (tag : Nat)
  | pluginReturn (tag : Nat)
  deriving DecidableEq, Repr

/-- Life-cycle states (03 R65). -/
inductive LifeState where
  | manufactured | provisioned | deployed | returned | retired
  deriving DecidableEq, Repr

/-- Who commands a life-cycle transition (03 R65). -/
inductive LifeKey where
  | factory | owner
  deriving DecidableEq, Repr

/-- What a wipe covers (03 R66). -/
inductive WipeRes where
  | device
  | core (n : Nat)
  | page (frame : Nat)
  deriving DecidableEq, Repr

/-- A microcode image as firmware core 0 receives it (03 R83): the header's words, 12 of SIG and 16 reserved ones among them, and the bytes after it. -/
structure UcodeImage where
  magic : Word
  version : Word
  statever : Word
  length : Word
  slots : BitVec 128
  sig : List DWord
  rsv : List DWord
  body : List Byte
  deriving DecidableEq, Repr

/-- Internal queue kinds (04 R102). -/
inductive QueueKind where
  | geometry (bin : Nat)
  | tileTask (core : Nat)
  | workGraph (node : Nat)
  | slip
  | copyReq (core : Nat)
  deriving DecidableEq, Repr

/-- The mnemonics of the Kelfer instructions (06 R152), the split opcodes once per row. -/
inductive Mn where
  | nop | bra | brx | call | callx | ret | exit | yield | beat | enrol
  | park | strike | demote | kill | iadd | isub | imul | imulh | imac | imacw
  | idiv | irem | imin | imax | iabs | ineg | iadd64 | isub64 | imul64 | imac64
  | icmp | icmp64 | sel | lea | bcnt | lzc | bitrev | idot4 | and | or
  | xor | not | logic3 | shl | shr | sar | rot | shl64 | shr64 | sar64
  | bfe | bfi | bmsk | bperm | shfn | plop | pmov | p2v | v2p | smov
  | siadd | simul | sand | sor | sxor | sshl | sshr | scmp | v2s | s2v
  | srd | swr | segld | segrd | flagrd | flagclr | cctlIinv | cctlIinvpg | cctlTlbpg | cctlTlball
  | fadd | fsub | fmul | fmac | fmin | fmax | fabs | fneg | fcmp | fclass
  | frnd | frcp | frsq | fsqrt | fdiv | fex2 | flg2 | fsin | fcos | ftanh
  | fdot2 | fdot4 | dadd | dsub | dmul | dmac | dmin | dmax | dabs | dneg
  | dcmp | dclass | drnd | drcp | drsq | dsqrt | ddiv | hadd2 | hsub2 | hmul2
  | hmac2 | hmin2 | hmax2 | habs2 | hneg2 | hcmp2 | hclass2 | hex2 | hrcp2 | cvt
  | cvtsat | pack | unpack | sdenc | sddec | sdhdr | t5pk | t5unpk | lxch | vote
  | ballot | matchl | redux | scan | ddx | ddy | qswz | ld | st | lds
  | sts | ldc | ldl | stl | gath | scat | pref | atom | red | cas128
  | fence | tlrmake | cpy | cpym | cpseal | cpwait | bcinitInit | bcinitArm | bcwait | tilecfg
  | tilest | tilerd | tilewr | tilerst | mma | mmas | ttq | ttqClaim | acalloc | acfree
  | acrd | acwr | aczero | acdrain | rast | attr | trav | filt | oblend | dice
  | samps | bmatch | barSync | barArrive | evset | evsetClr | evwait | evtest | cont | resume
  | wgres | wgcommit | wgcancel | xrd | xwr | eretResume | eretKill | eretFdom | trap
  deriving DecidableEq, Repr

/-- The unit a step without an instruction word concerns (partition, shard, core, slot or sub-unit, block, bundle, launch, numbered object, tenant tag). -/
structure Subj where
  part : Nat
  shard : Nat
  core : Nat
  unit : Nat
  blk : Nat
  bundle : Nat
  launch : Nat
  id : Nat
  tag : Nat
  deriving DecidableEq, Repr

/-- One constructor per row of the table of operations and events. -/
inductive Instr where
  /-- CREATE (R70). -/
  | create (w : DWord)
  /-- RESIZE (R77). -/
  | resize (w : DWord)
  /-- RESIZE_RESUME (R69). -/
  | resizeResume (w : DWord)
  /-- DESTROY (R70). -/
  | destroy (w : DWord)
  /-- BINDVF (R71). -/
  | bindvf (w : DWord)
  /-- UNBINDVF (R71). -/
  | unbindvf (w : DWord)
  /-- DROP_CLEAR (R69). -/
  | dropClear (w : DWord)
  /-- FUNCMODE_WRITE (R81). -/
  | funcmodeWrite (w : DWord)
  /-- REGISTER_WRITE (R12). -/
  | registerWrite (t : RegTarget) (w : DWord)
  /-- DOORBELL (R74). -/
  | doorbell (w : DWord)
  /-- RCB_FLUSH (R76). -/
  | rcbFlush (w : DWord)
  /-- TEMPORAL_UNIT_WRITE (R448). -/
  | temporalUnitWrite (len : Nat)
  /-- LIFECYCLE_TRANSITION (R65). -/
  | lifecycleTransition (target : LifeState) (key : LifeKey) (released : Bool)
  /-- WIPE_COMPLETE (R67). -/
  | wipeComplete (r : WipeRes)
  /-- MICROCODE_LOAD (R84). -/
  | microcodeLoad (img : UcodeImage)
  /-- PAGE_MOVE (R79). -/
  | pageMove (va : Nat) (frame : Nat)
  /-- CONTROL_INTERVAL_BOUNDARY (R191). -/
  | controlIntervalBoundary (temps : List Nat) (chans : List Nat)
  /-- VOTES_WRITE (R125). -/
  | votesWrite (vote : BitVec 4)
  /-- RESERVATION_MARK (R194). -/
  | reservationMark (pc : DWord)
  /-- QUEUE_REFILL (R104). -/
  | queueRefill (k : QueueKind)
  /-- ENGINE_SELF_TEST (R328). -/
  | engineSelfTest (failed : BitVec 16)
  /-- LINK_TRAINED (R68). -/
  | linkTrained (host : Bool) (peer : Nat) (lanes : Nat)
  /-- PEER_COPY_WRITE (R284). -/
  | peerCopyWrite (va : Nat) (data : BitVec 128)
  /-- HOST_ACCESS (R362). -/
  | hostAccess (va : Nat) (size : Nat) (data : Option DWord)
  /-- EXTENSIBLE_OPCODE (R154): slot n = OPC - 0x1A0. -/
  | extensibleOpcode (n : BitVec 7) (o : Op)
  /-- NOP (R201). -/
  | nop (o : Op)
  /-- BRA (R202). -/
  | bra (o : Op)
  /-- BRX (R202). -/
  | brx (o : Op)
  /-- CALL (R202). -/
  | call (o : Op)
  /-- CALLX (R202). -/
  | callx (o : Op)
  /-- RET (R202). -/
  | ret (o : Op)
  /-- EXIT (R206). -/
  | exit (o : Op)
  /-- YIELD (R209). -/
  | yield (o : Op)
  /-- BEAT (R210). -/
  | beat (o : Op)
  /-- ENROL (R211). -/
  | enrol (o : Op)
  /-- PARK (R211). -/
  | park (o : Op)
  /-- STRIKE (R211). -/
  | strike (o : Op)
  /-- DEMOTE (R208). -/
  | demote (o : Op)
  /-- KILL (R207). -/
  | kill (o : Op)
  /-- IADD (R214). -/
  | iadd (o : Op)
  /-- ISUB (R214). -/
  | isub (o : Op)
  /-- IMUL (R214). -/
  | imul (o : Op)
  /-- IMULH (R214). -/
  | imulh (o : Op)
  /-- IMAC (R214). -/
  | imac (o : Op)
  /-- IMACW (R214). -/
  | imacw (o : Op)
  /-- IDIV (R215). -/
  | idiv (o : Op)
  /-- IREM (R215). -/
  | irem (o : Op)
  /-- IMIN (R214). -/
  | imin (o : Op)
  /-- IMAX (R214). -/
  | imax (o : Op)
  /-- IABS (R214). -/
  | iabs (o : Op)
  /-- INEG (R214). -/
  | ineg (o : Op)
  /-- IADD64 (R214). -/
  | iadd64 (o : Op)
  /-- ISUB64 (R214). -/
  | isub64 (o : Op)
  /-- IMUL64 (R214). -/
  | imul64 (o : Op)
  /-- IMAC64 (R214). -/
  | imac64 (o : Op)
  /-- ICMP (R217). -/
  | icmp (o : Op)
  /-- ICMP64 (R217). -/
  | icmp64 (o : Op)
  /-- SEL (R217). -/
  | sel (o : Op)
  /-- LEA (R217). -/
  | lea (o : Op)
  /-- BCNT (R219). -/
  | bcnt (o : Op)
  /-- LZC (R219). -/
  | lzc (o : Op)
  /-- BITREV (R219). -/
  | bitrev (o : Op)
  /-- IDOT4 (R216). -/
  | idot4 (o : Op)
  /-- AND (R219). -/
  | and (o : Op)
  /-- OR (R219). -/
  | or (o : Op)
  /-- XOR (R219). -/
  | xor (o : Op)
  /-- NOT (R219). -/
  | not (o : Op)
  /-- LOGIC3 (R219). -/
  | logic3 (o : Op)
  /-- SHL (R219). -/
  | shl (o : Op)
  /-- SHR (R219). -/
  | shr (o : Op)
  /-- SAR (R219). -/
  | sar (o : Op)
  /-- ROT (R219). -/
  | rot (o : Op)
  /-- SHL64 (R219). -/
  | shl64 (o : Op)
  /-- SHR64 (R219). -/
  | shr64 (o : Op)
  /-- SAR64 (R219). -/
  | sar64 (o : Op)
  /-- BFE (R220). -/
  | bfe (o : Op)
  /-- BFI (R220). -/
  | bfi (o : Op)
  /-- BMSK (R220). -/
  | bmsk (o : Op)
  /-- BPERM (R220). -/
  | bperm (o : Op)
  /-- SHFN (R219). -/
  | shfn (o : Op)
  /-- PLOP (R221). -/
  | plop (o : Op)
  /-- PMOV (R221). -/
  | pmov (o : Op)
  /-- P2V (R221). -/
  | p2v (o : Op)
  /-- V2P (R221). -/
  | v2p (o : Op)
  /-- SMOV (R222). -/
  | smov (o : Op)
  /-- SIADD (R222). -/
  | siadd (o : Op)
  /-- SIMUL (R222). -/
  | simul (o : Op)
  /-- SAND (R222). -/
  | sand (o : Op)
  /-- SOR (R222). -/
  | sor (o : Op)
  /-- SXOR (R222). -/
  | sxor (o : Op)
  /-- SSHL (R222). -/
  | sshl (o : Op)
  /-- SSHR (R222). -/
  | sshr (o : Op)
  /-- SCMP (R222). -/
  | scmp (o : Op)
  /-- V2S (R222). -/
  | v2s (o : Op)
  /-- S2V (R223). -/
  | s2v (o : Op)
  /-- SRD (R225). -/
  | srd (o : Op)
  /-- SWR (R226). -/
  | swr (o : Op)
  /-- SEGLD (R227). -/
  | segld (o : Op)
  /-- SEGRD (R227). -/
  | segrd (o : Op)
  /-- FLAGRD (R228). -/
  | flagrd (o : Op)
  /-- FLAGCLR (R228). -/
  | flagclr (o : Op)
  /-- CCTL.iinv (R229). -/
  | cctlIinv (o : Op)
  /-- CCTL.iinvpg (R229). -/
  | cctlIinvpg (o : Op)
  /-- CCTL.tlbpg (R229). -/
  | cctlTlbpg (o : Op)
  /-- CCTL.tlball (R229). -/
  | cctlTlball (o : Op)
  /-- FADD (R233). -/
  | fadd (o : Op)
  /-- FSUB (R233). -/
  | fsub (o : Op)
  /-- FMUL (R233). -/
  | fmul (o : Op)
  /-- FMAC (R233). -/
  | fmac (o : Op)
  /-- FMIN (R234). -/
  | fmin (o : Op)
  /-- FMAX (R234). -/
  | fmax (o : Op)
  /-- FABS (R235). -/
  | fabs (o : Op)
  /-- FNEG (R235). -/
  | fneg (o : Op)
  /-- FCMP (R236). -/
  | fcmp (o : Op)
  /-- FCLASS (R236). -/
  | fclass (o : Op)
  /-- FRND (R237). -/
  | frnd (o : Op)
  /-- FRCP (R238). -/
  | frcp (o : Op)
  /-- FRSQ (R238). -/
  | frsq (o : Op)
  /-- FSQRT (R238). -/
  | fsqrt (o : Op)
  /-- FDIV (R238). -/
  | fdiv (o : Op)
  /-- FEX2 (R238). -/
  | fex2 (o : Op)
  /-- FLG2 (R238). -/
  | flg2 (o : Op)
  /-- FSIN (R238). -/
  | fsin (o : Op)
  /-- FCOS (R238). -/
  | fcos (o : Op)
  /-- FTANH (R238). -/
  | ftanh (o : Op)
  /-- FDOT2 (R239). -/
  | fdot2 (o : Op)
  /-- FDOT4 (R239). -/
  | fdot4 (o : Op)
  /-- DADD (R240). -/
  | dadd (o : Op)
  /-- DSUB (R240). -/
  | dsub (o : Op)
  /-- DMUL (R240). -/
  | dmul (o : Op)
  /-- DMAC (R240). -/
  | dmac (o : Op)
  /-- DMIN (R240). -/
  | dmin (o : Op)
  /-- DMAX (R240). -/
  | dmax (o : Op)
  /-- DABS (R240). -/
  | dabs (o : Op)
  /-- DNEG (R240). -/
  | dneg (o : Op)
  /-- DCMP (R240). -/
  | dcmp (o : Op)
  /-- DCLASS (R240). -/
  | dclass (o : Op)
  /-- DRND (R240). -/
  | drnd (o : Op)
  /-- DRCP (R240). -/
  | drcp (o : Op)
  /-- DRSQ (R240). -/
  | drsq (o : Op)
  /-- DSQRT (R240). -/
  | dsqrt (o : Op)
  /-- DDIV (R240). -/
  | ddiv (o : Op)
  /-- HADD2 (R241). -/
  | hadd2 (o : Op)
  /-- HSUB2 (R241). -/
  | hsub2 (o : Op)
  /-- HMUL2 (R241). -/
  | hmul2 (o : Op)
  /-- HMAC2 (R241). -/
  | hmac2 (o : Op)
  /-- HMIN2 (R241). -/
  | hmin2 (o : Op)
  /-- HMAX2 (R241). -/
  | hmax2 (o : Op)
  /-- HABS2 (R241). -/
  | habs2 (o : Op)
  /-- HNEG2 (R241). -/
  | hneg2 (o : Op)
  /-- HCMP2 (R241). -/
  | hcmp2 (o : Op)
  /-- HCLASS2 (R241). -/
  | hclass2 (o : Op)
  /-- HEX2 (R241). -/
  | hex2 (o : Op)
  /-- HRCP2 (R241). -/
  | hrcp2 (o : Op)
  /-- CVT (R243). -/
  | cvt (o : Op)
  /-- CVTSAT (R244). -/
  | cvtsat (o : Op)
  /-- PACK (R245). -/
  | pack (o : Op)
  /-- UNPACK (R245). -/
  | unpack (o : Op)
  /-- SDENC (R248). -/
  | sdenc (o : Op)
  /-- SDDEC (R249). -/
  | sddec (o : Op)
  /-- SDHDR (R247). -/
  | sdhdr (o : Op)
  /-- T5PK (R250). -/
  | t5pk (o : Op)
  /-- T5UNPK (R250). -/
  | t5unpk (o : Op)
  /-- LXCH (R252). -/
  | lxch (o : Op)
  /-- VOTE (R253). -/
  | vote (o : Op)
  /-- BALLOT (R253). -/
  | ballot (o : Op)
  /-- MATCH (R253). -/
  | matchl (o : Op)
  /-- REDUX (R254). -/
  | redux (o : Op)
  /-- SCAN (R254). -/
  | scan (o : Op)
  /-- DDX (R255). -/
  | ddx (o : Op)
  /-- DDY (R255). -/
  | ddy (o : Op)
  /-- QSWZ (R256). -/
  | qswz (o : Op)
  /-- LD (R277). -/
  | ld (o : Op)
  /-- ST (R277). -/
  | st (o : Op)
  /-- LDS (R277). -/
  | lds (o : Op)
  /-- STS (R277). -/
  | sts (o : Op)
  /-- LDC (R277). -/
  | ldc (o : Op)
  /-- LDL (R277). -/
  | ldl (o : Op)
  /-- STL (R277). -/
  | stl (o : Op)
  /-- GATH (R280). -/
  | gath (o : Op)
  /-- SCAT (R280). -/
  | scat (o : Op)
  /-- PREF (R281). -/
  | pref (o : Op)
  /-- ATOM (R381). -/
  | atom (o : Op)
  /-- RED (R381). -/
  | red (o : Op)
  /-- CAS128 (R381). -/
  | cas128 (o : Op)
  /-- FENCE (R374). -/
  | fence (o : Op)
  /-- TLRMAKE (R305). -/
  | tlrmake (o : Op)
  /-- CPY (R287). -/
  | cpy (o : Op)
  /-- CPYM (R302). -/
  | cpym (o : Op)
  /-- CPSEAL (R291). -/
  | cpseal (o : Op)
  /-- CPWAIT (R292). -/
  | cpwait (o : Op)
  /-- BCINIT.init (R295). -/
  | bcinitInit (o : Op)
  /-- BCINIT.arm (R295). -/
  | bcinitArm (o : Op)
  /-- BCWAIT (R295). -/
  | bcwait (o : Op)
  /-- TILECFG (R300). -/
  | tilecfg (o : Op)
  /-- TILEST (R301). -/
  | tilest (o : Op)
  /-- TILERD (R301). -/
  | tilerd (o : Op)
  /-- TILEWR (R301). -/
  | tilewr (o : Op)
  /-- TILERST (R301). -/
  | tilerst (o : Op)
  /-- MMA (R317). -/
  | mma (o : Op)
  /-- MMAS (R317). -/
  | mmas (o : Op)
  /-- TTQ (R318). -/
  | ttq (o : Op)
  /-- TTQ.claim (R318). -/
  | ttqClaim (o : Op)
  /-- ACALLOC (R325). -/
  | acalloc (o : Op)
  /-- ACFREE (R325). -/
  | acfree (o : Op)
  /-- ACRD (R325). -/
  | acrd (o : Op)
  /-- ACWR (R325). -/
  | acwr (o : Op)
  /-- ACZERO (R325). -/
  | aczero (o : Op)
  /-- ACDRAIN (R326). -/
  | acdrain (o : Op)
  /-- RAST (R346). -/
  | rast (o : Op)
  /-- ATTR (R347). -/
  | attr (o : Op)
  /-- TRAV (R350). -/
  | trav (o : Op)
  /-- FILT (R353). -/
  | filt (o : Op)
  /-- OBLEND (R355). -/
  | oblend (o : Op)
  /-- DICE (R356). -/
  | dice (o : Op)
  /-- SAMPS (R357). -/
  | samps (o : Op)
  /-- BMATCH (R358). -/
  | bmatch (o : Op)
  /-- BAR.sync (R384). -/
  | barSync (o : Op)
  /-- BAR.arrive (R384). -/
  | barArrive (o : Op)
  /-- EVSET (R386). -/
  | evset (o : Op)
  /-- EVSET.clr (R386). -/
  | evsetClr (o : Op)
  /-- EVWAIT (R386). -/
  | evwait (o : Op)
  /-- EVTEST (R386). -/
  | evtest (o : Op)
  /-- CONT (R392). -/
  | cont (o : Op)
  /-- RESUME (R396). -/
  | resume (o : Op)
  /-- WGRES (R402). -/
  | wgres (o : Op)
  /-- WGCOMMIT (R402). -/
  | wgcommit (o : Op)
  /-- WGCANCEL (R402). -/
  | wgcancel (o : Op)
  /-- XRD (R410). -/
  | xrd (o : Op)
  /-- XWR (R410). -/
  | xwr (o : Op)
  /-- ERET.resume (R411). -/
  | eretResume (o : Op)
  /-- ERET.kill (R411). -/
  | eretKill (o : Op)
  /-- ERET.fdom (R411). -/
  | eretFdom (o : Op)
  /-- TRAP (R412). -/
  | trap (o : Op)
  /-- FDCMD_END (R429); the unit it concerns is `State.subj`. -/
  | fdcmdEnd
  /-- FDCMD_RELEASE (R429); the unit it concerns is `State.subj`. -/
  | fdcmdRelease
  /-- DEFERRED_ENTRY_MOVE (R75); the unit it concerns is `State.subj`. -/
  | deferredEntryMove
  /-- HEAD_REFRESH (R447); the unit it concerns is `State.subj`. -/
  | headRefresh
  /-- FAULT_RESOLVE (R272); the unit it concerns is `State.subj`. -/
  | faultResolve
  /-- FAULT_RECORD_APPEND (R271); the unit it concerns is `State.subj`. -/
  | faultRecordAppend
  /-- FAULT_RECORD_COPY (R82); the unit it concerns is `State.subj`. -/
  | faultRecordCopy
  /-- FAULT_REPLAY (R273); the unit it concerns is `State.subj`. -/
  | faultReplay
  /-- RESET (R66); the unit it concerns is `State.subj`. -/
  | reset
  /-- MICROCODE_APPLY_LIVE (R85); the unit it concerns is `State.subj`. -/
  | microcodeApplyLive
  /-- SEQUENCER_CHECK_FAIL (R84); the unit it concerns is `State.subj`. -/
  | sequencerCheckFail
  /-- PLUGIN_FAULT (R64); the unit it concerns is `State.subj`. -/
  | pluginFault
  /-- PLUGIN_TIMEOUT (R64); the unit it concerns is `State.subj`. -/
  | pluginTimeout
  /-- LINK_DOWN (R86); the unit it concerns is `State.subj`. -/
  | linkDown
  /-- RESIZE_CORE_DEPART (R77); the unit it concerns is `State.subj`. -/
  | resizeCoreDepart
  /-- TIME_SLICE_END (R72); the unit it concerns is `State.subj`. -/
  | timeSliceEnd
  /-- FREQUENCY_FALL (R128); the unit it concerns is `State.subj`. -/
  | frequencyFall
  /-- REGULATOR_SETTLED (R127); the unit it concerns is `State.subj`. -/
  | regulatorSettled
  /-- DROOP_EVENT (R132); the unit it concerns is `State.subj`. -/
  | droopEvent
  /-- THERMAL_TRIP (R139); the unit it concerns is `State.subj`. -/
  | thermalTrip
  /-- REVOLUTION_START (R190); the unit it concerns is `State.subj`. -/
  | revolutionStart
  /-- RING_PASS (R192); the unit it concerns is `State.subj`. -/
  | ringPass
  /-- BUNDLE_START_EVALUATION (R91); the unit it concerns is `State.subj`. -/
  | bundleStartEvaluation
  /-- BUNDLE_ADMIT (R94); the unit it concerns is `State.subj`. -/
  | bundleAdmit
  /-- BUNDLE_RETIRE (R96); the unit it concerns is `State.subj`. -/
  | bundleRetire
  /-- DISPATCHER_STEP (R116); the unit it concerns is `State.subj`. -/
  | dispatcherStep
  /-- COOPERATIVE_SAVE (R415); the unit it concerns is `State.subj`. -/
  | cooperativeSave
  /-- FORCED_SAVE (R416); the unit it concerns is `State.subj`. -/
  | forcedSave
  /-- RESTORE (R422); the unit it concerns is `State.subj`. -/
  | restore
  /-- ACC_DEADLOCK_BREAK (R123); the unit it concerns is `State.subj`. -/
  | accDeadlockBreak
  /-- WATCHDOG_EXPIRY (R427); the unit it concerns is `State.subj`. -/
  | watchdogExpiry
  /-- HANDLER_SERVICE_START (R406); the unit it concerns is `State.subj`. -/
  | handlerServiceStart
  /-- HANDLER_SERVICE_TIMEOUT (R406); the unit it concerns is `State.subj`. -/
  | handlerServiceTimeout
  /-- MEMORY_ACCESS_COMPLETE (R270); the unit it concerns is `State.subj`. -/
  | memoryAccessComplete
  /-- COPY_GRANULE_DELIVER (R296); the unit it concerns is `State.subj`. -/
  | copyGranuleDeliver
  /-- COPY_COMPLETE (R287); the unit it concerns is `State.subj`. -/
  | copyComplete
  /-- COPY_REQUEST_ENTER (R304); the unit it concerns is `State.subj`. -/
  | copyRequestEnter
  /-- MULTICAST_RECEIPT (R302); the unit it concerns is `State.subj`. -/
  | multicastReceipt
  /-- TILE_FILL_COMPLETE (R299); the unit it concerns is `State.subj`. -/
  | tileFillComplete
  /-- TILE_READER_DONE (R299); the unit it concerns is `State.subj`. -/
  | tileReaderDone
  /-- TILE_TASK_DISPATCH (R321); the unit it concerns is `State.subj`. -/
  | tileTaskDispatch
  /-- ENGINE_STEP (R312); the unit it concerns is `State.subj`. -/
  | engineStep
  /-- TILE_TASK_RETIRE (R324); the unit it concerns is `State.subj`. -/
  | tileTaskRetire
  /-- MMA_ADMISSION (R322); the unit it concerns is `State.subj`. -/
  | mmaAdmission
  /-- MACRO_STEP (R334); the unit it concerns is `State.subj`. -/
  | macroStep
  /-- MACRO_RELEASE (R332); the unit it concerns is `State.subj`. -/
  | macroRelease
  /-- DARNING_PASS (R438); the unit it concerns is `State.subj`. -/
  | darningPass
  /-- CRC_ERROR_REPLAY (R68); the unit it concerns is `State.subj`. -/
  | crcErrorReplay
  deriving DecidableEq, Repr

/-- The instruction of a mnemonic and its operand record. -/
def Mn.build (m : Mn) (o : Op) : Instr :=
  match m with
  | .nop => .nop o
  | .bra => .bra o
  | .brx => .brx o
  | .call => .call o
  | .callx => .callx o
  | .ret => .ret o
  | .exit => .exit o
  | .yield => .yield o
  | .beat => .beat o
  | .enrol => .enrol o
  | .park => .park o
  | .strike => .strike o
  | .demote => .demote o
  | .kill => .kill o
  | .iadd => .iadd o
  | .isub => .isub o
  | .imul => .imul o
  | .imulh => .imulh o
  | .imac => .imac o
  | .imacw => .imacw o
  | .idiv => .idiv o
  | .irem => .irem o
  | .imin => .imin o
  | .imax => .imax o
  | .iabs => .iabs o
  | .ineg => .ineg o
  | .iadd64 => .iadd64 o
  | .isub64 => .isub64 o
  | .imul64 => .imul64 o
  | .imac64 => .imac64 o
  | .icmp => .icmp o
  | .icmp64 => .icmp64 o
  | .sel => .sel o
  | .lea => .lea o
  | .bcnt => .bcnt o
  | .lzc => .lzc o
  | .bitrev => .bitrev o
  | .idot4 => .idot4 o
  | .and => .and o
  | .or => .or o
  | .xor => .xor o
  | .not => .not o
  | .logic3 => .logic3 o
  | .shl => .shl o
  | .shr => .shr o
  | .sar => .sar o
  | .rot => .rot o
  | .shl64 => .shl64 o
  | .shr64 => .shr64 o
  | .sar64 => .sar64 o
  | .bfe => .bfe o
  | .bfi => .bfi o
  | .bmsk => .bmsk o
  | .bperm => .bperm o
  | .shfn => .shfn o
  | .plop => .plop o
  | .pmov => .pmov o
  | .p2v => .p2v o
  | .v2p => .v2p o
  | .smov => .smov o
  | .siadd => .siadd o
  | .simul => .simul o
  | .sand => .sand o
  | .sor => .sor o
  | .sxor => .sxor o
  | .sshl => .sshl o
  | .sshr => .sshr o
  | .scmp => .scmp o
  | .v2s => .v2s o
  | .s2v => .s2v o
  | .srd => .srd o
  | .swr => .swr o
  | .segld => .segld o
  | .segrd => .segrd o
  | .flagrd => .flagrd o
  | .flagclr => .flagclr o
  | .cctlIinv => .cctlIinv o
  | .cctlIinvpg => .cctlIinvpg o
  | .cctlTlbpg => .cctlTlbpg o
  | .cctlTlball => .cctlTlball o
  | .fadd => .fadd o
  | .fsub => .fsub o
  | .fmul => .fmul o
  | .fmac => .fmac o
  | .fmin => .fmin o
  | .fmax => .fmax o
  | .fabs => .fabs o
  | .fneg => .fneg o
  | .fcmp => .fcmp o
  | .fclass => .fclass o
  | .frnd => .frnd o
  | .frcp => .frcp o
  | .frsq => .frsq o
  | .fsqrt => .fsqrt o
  | .fdiv => .fdiv o
  | .fex2 => .fex2 o
  | .flg2 => .flg2 o
  | .fsin => .fsin o
  | .fcos => .fcos o
  | .ftanh => .ftanh o
  | .fdot2 => .fdot2 o
  | .fdot4 => .fdot4 o
  | .dadd => .dadd o
  | .dsub => .dsub o
  | .dmul => .dmul o
  | .dmac => .dmac o
  | .dmin => .dmin o
  | .dmax => .dmax o
  | .dabs => .dabs o
  | .dneg => .dneg o
  | .dcmp => .dcmp o
  | .dclass => .dclass o
  | .drnd => .drnd o
  | .drcp => .drcp o
  | .drsq => .drsq o
  | .dsqrt => .dsqrt o
  | .ddiv => .ddiv o
  | .hadd2 => .hadd2 o
  | .hsub2 => .hsub2 o
  | .hmul2 => .hmul2 o
  | .hmac2 => .hmac2 o
  | .hmin2 => .hmin2 o
  | .hmax2 => .hmax2 o
  | .habs2 => .habs2 o
  | .hneg2 => .hneg2 o
  | .hcmp2 => .hcmp2 o
  | .hclass2 => .hclass2 o
  | .hex2 => .hex2 o
  | .hrcp2 => .hrcp2 o
  | .cvt => .cvt o
  | .cvtsat => .cvtsat o
  | .pack => .pack o
  | .unpack => .unpack o
  | .sdenc => .sdenc o
  | .sddec => .sddec o
  | .sdhdr => .sdhdr o
  | .t5pk => .t5pk o
  | .t5unpk => .t5unpk o
  | .lxch => .lxch o
  | .vote => .vote o
  | .ballot => .ballot o
  | .matchl => .matchl o
  | .redux => .redux o
  | .scan => .scan o
  | .ddx => .ddx o
  | .ddy => .ddy o
  | .qswz => .qswz o
  | .ld => .ld o
  | .st => .st o
  | .lds => .lds o
  | .sts => .sts o
  | .ldc => .ldc o
  | .ldl => .ldl o
  | .stl => .stl o
  | .gath => .gath o
  | .scat => .scat o
  | .pref => .pref o
  | .atom => .atom o
  | .red => .red o
  | .cas128 => .cas128 o
  | .fence => .fence o
  | .tlrmake => .tlrmake o
  | .cpy => .cpy o
  | .cpym => .cpym o
  | .cpseal => .cpseal o
  | .cpwait => .cpwait o
  | .bcinitInit => .bcinitInit o
  | .bcinitArm => .bcinitArm o
  | .bcwait => .bcwait o
  | .tilecfg => .tilecfg o
  | .tilest => .tilest o
  | .tilerd => .tilerd o
  | .tilewr => .tilewr o
  | .tilerst => .tilerst o
  | .mma => .mma o
  | .mmas => .mmas o
  | .ttq => .ttq o
  | .ttqClaim => .ttqClaim o
  | .acalloc => .acalloc o
  | .acfree => .acfree o
  | .acrd => .acrd o
  | .acwr => .acwr o
  | .aczero => .aczero o
  | .acdrain => .acdrain o
  | .rast => .rast o
  | .attr => .attr o
  | .trav => .trav o
  | .filt => .filt o
  | .oblend => .oblend o
  | .dice => .dice o
  | .samps => .samps o
  | .bmatch => .bmatch o
  | .barSync => .barSync o
  | .barArrive => .barArrive o
  | .evset => .evset o
  | .evsetClr => .evsetClr o
  | .evwait => .evwait o
  | .evtest => .evtest o
  | .cont => .cont o
  | .resume => .resume o
  | .wgres => .wgres o
  | .wgcommit => .wgcommit o
  | .wgcancel => .wgcancel o
  | .xrd => .xrd o
  | .xwr => .xwr o
  | .eretResume => .eretResume o
  | .eretKill => .eretKill o
  | .eretFdom => .eretFdom o
  | .trap => .trap o

/-- The mnemonic and operand record of an instruction that has a mnemonic of its own. -/
def Instr.mnOp? (i : Instr) : Option (Mn × Op) :=
  match i with
  | .nop o => some (.nop, o)
  | .bra o => some (.bra, o)
  | .brx o => some (.brx, o)
  | .call o => some (.call, o)
  | .callx o => some (.callx, o)
  | .ret o => some (.ret, o)
  | .exit o => some (.exit, o)
  | .yield o => some (.yield, o)
  | .beat o => some (.beat, o)
  | .enrol o => some (.enrol, o)
  | .park o => some (.park, o)
  | .strike o => some (.strike, o)
  | .demote o => some (.demote, o)
  | .kill o => some (.kill, o)
  | .iadd o => some (.iadd, o)
  | .isub o => some (.isub, o)
  | .imul o => some (.imul, o)
  | .imulh o => some (.imulh, o)
  | .imac o => some (.imac, o)
  | .imacw o => some (.imacw, o)
  | .idiv o => some (.idiv, o)
  | .irem o => some (.irem, o)
  | .imin o => some (.imin, o)
  | .imax o => some (.imax, o)
  | .iabs o => some (.iabs, o)
  | .ineg o => some (.ineg, o)
  | .iadd64 o => some (.iadd64, o)
  | .isub64 o => some (.isub64, o)
  | .imul64 o => some (.imul64, o)
  | .imac64 o => some (.imac64, o)
  | .icmp o => some (.icmp, o)
  | .icmp64 o => some (.icmp64, o)
  | .sel o => some (.sel, o)
  | .lea o => some (.lea, o)
  | .bcnt o => some (.bcnt, o)
  | .lzc o => some (.lzc, o)
  | .bitrev o => some (.bitrev, o)
  | .idot4 o => some (.idot4, o)
  | .and o => some (.and, o)
  | .or o => some (.or, o)
  | .xor o => some (.xor, o)
  | .not o => some (.not, o)
  | .logic3 o => some (.logic3, o)
  | .shl o => some (.shl, o)
  | .shr o => some (.shr, o)
  | .sar o => some (.sar, o)
  | .rot o => some (.rot, o)
  | .shl64 o => some (.shl64, o)
  | .shr64 o => some (.shr64, o)
  | .sar64 o => some (.sar64, o)
  | .bfe o => some (.bfe, o)
  | .bfi o => some (.bfi, o)
  | .bmsk o => some (.bmsk, o)
  | .bperm o => some (.bperm, o)
  | .shfn o => some (.shfn, o)
  | .plop o => some (.plop, o)
  | .pmov o => some (.pmov, o)
  | .p2v o => some (.p2v, o)
  | .v2p o => some (.v2p, o)
  | .smov o => some (.smov, o)
  | .siadd o => some (.siadd, o)
  | .simul o => some (.simul, o)
  | .sand o => some (.sand, o)
  | .sor o => some (.sor, o)
  | .sxor o => some (.sxor, o)
  | .sshl o => some (.sshl, o)
  | .sshr o => some (.sshr, o)
  | .scmp o => some (.scmp, o)
  | .v2s o => some (.v2s, o)
  | .s2v o => some (.s2v, o)
  | .srd o => some (.srd, o)
  | .swr o => some (.swr, o)
  | .segld o => some (.segld, o)
  | .segrd o => some (.segrd, o)
  | .flagrd o => some (.flagrd, o)
  | .flagclr o => some (.flagclr, o)
  | .cctlIinv o => some (.cctlIinv, o)
  | .cctlIinvpg o => some (.cctlIinvpg, o)
  | .cctlTlbpg o => some (.cctlTlbpg, o)
  | .cctlTlball o => some (.cctlTlball, o)
  | .fadd o => some (.fadd, o)
  | .fsub o => some (.fsub, o)
  | .fmul o => some (.fmul, o)
  | .fmac o => some (.fmac, o)
  | .fmin o => some (.fmin, o)
  | .fmax o => some (.fmax, o)
  | .fabs o => some (.fabs, o)
  | .fneg o => some (.fneg, o)
  | .fcmp o => some (.fcmp, o)
  | .fclass o => some (.fclass, o)
  | .frnd o => some (.frnd, o)
  | .frcp o => some (.frcp, o)
  | .frsq o => some (.frsq, o)
  | .fsqrt o => some (.fsqrt, o)
  | .fdiv o => some (.fdiv, o)
  | .fex2 o => some (.fex2, o)
  | .flg2 o => some (.flg2, o)
  | .fsin o => some (.fsin, o)
  | .fcos o => some (.fcos, o)
  | .ftanh o => some (.ftanh, o)
  | .fdot2 o => some (.fdot2, o)
  | .fdot4 o => some (.fdot4, o)
  | .dadd o => some (.dadd, o)
  | .dsub o => some (.dsub, o)
  | .dmul o => some (.dmul, o)
  | .dmac o => some (.dmac, o)
  | .dmin o => some (.dmin, o)
  | .dmax o => some (.dmax, o)
  | .dabs o => some (.dabs, o)
  | .dneg o => some (.dneg, o)
  | .dcmp o => some (.dcmp, o)
  | .dclass o => some (.dclass, o)
  | .drnd o => some (.drnd, o)
  | .drcp o => some (.drcp, o)
  | .drsq o => some (.drsq, o)
  | .dsqrt o => some (.dsqrt, o)
  | .ddiv o => some (.ddiv, o)
  | .hadd2 o => some (.hadd2, o)
  | .hsub2 o => some (.hsub2, o)
  | .hmul2 o => some (.hmul2, o)
  | .hmac2 o => some (.hmac2, o)
  | .hmin2 o => some (.hmin2, o)
  | .hmax2 o => some (.hmax2, o)
  | .habs2 o => some (.habs2, o)
  | .hneg2 o => some (.hneg2, o)
  | .hcmp2 o => some (.hcmp2, o)
  | .hclass2 o => some (.hclass2, o)
  | .hex2 o => some (.hex2, o)
  | .hrcp2 o => some (.hrcp2, o)
  | .cvt o => some (.cvt, o)
  | .cvtsat o => some (.cvtsat, o)
  | .pack o => some (.pack, o)
  | .unpack o => some (.unpack, o)
  | .sdenc o => some (.sdenc, o)
  | .sddec o => some (.sddec, o)
  | .sdhdr o => some (.sdhdr, o)
  | .t5pk o => some (.t5pk, o)
  | .t5unpk o => some (.t5unpk, o)
  | .lxch o => some (.lxch, o)
  | .vote o => some (.vote, o)
  | .ballot o => some (.ballot, o)
  | .matchl o => some (.matchl, o)
  | .redux o => some (.redux, o)
  | .scan o => some (.scan, o)
  | .ddx o => some (.ddx, o)
  | .ddy o => some (.ddy, o)
  | .qswz o => some (.qswz, o)
  | .ld o => some (.ld, o)
  | .st o => some (.st, o)
  | .lds o => some (.lds, o)
  | .sts o => some (.sts, o)
  | .ldc o => some (.ldc, o)
  | .ldl o => some (.ldl, o)
  | .stl o => some (.stl, o)
  | .gath o => some (.gath, o)
  | .scat o => some (.scat, o)
  | .pref o => some (.pref, o)
  | .atom o => some (.atom, o)
  | .red o => some (.red, o)
  | .cas128 o => some (.cas128, o)
  | .fence o => some (.fence, o)
  | .tlrmake o => some (.tlrmake, o)
  | .cpy o => some (.cpy, o)
  | .cpym o => some (.cpym, o)
  | .cpseal o => some (.cpseal, o)
  | .cpwait o => some (.cpwait, o)
  | .bcinitInit o => some (.bcinitInit, o)
  | .bcinitArm o => some (.bcinitArm, o)
  | .bcwait o => some (.bcwait, o)
  | .tilecfg o => some (.tilecfg, o)
  | .tilest o => some (.tilest, o)
  | .tilerd o => some (.tilerd, o)
  | .tilewr o => some (.tilewr, o)
  | .tilerst o => some (.tilerst, o)
  | .mma o => some (.mma, o)
  | .mmas o => some (.mmas, o)
  | .ttq o => some (.ttq, o)
  | .ttqClaim o => some (.ttqClaim, o)
  | .acalloc o => some (.acalloc, o)
  | .acfree o => some (.acfree, o)
  | .acrd o => some (.acrd, o)
  | .acwr o => some (.acwr, o)
  | .aczero o => some (.aczero, o)
  | .acdrain o => some (.acdrain, o)
  | .rast o => some (.rast, o)
  | .attr o => some (.attr, o)
  | .trav o => some (.trav, o)
  | .filt o => some (.filt, o)
  | .oblend o => some (.oblend, o)
  | .dice o => some (.dice, o)
  | .samps o => some (.samps, o)
  | .bmatch o => some (.bmatch, o)
  | .barSync o => some (.barSync, o)
  | .barArrive o => some (.barArrive, o)
  | .evset o => some (.evset, o)
  | .evsetClr o => some (.evsetClr, o)
  | .evwait o => some (.evwait, o)
  | .evtest o => some (.evtest, o)
  | .cont o => some (.cont, o)
  | .resume o => some (.resume, o)
  | .wgres o => some (.wgres, o)
  | .wgcommit o => some (.wgcommit, o)
  | .wgcancel o => some (.wgcancel, o)
  | .xrd o => some (.xrd, o)
  | .xwr o => some (.xwr, o)
  | .eretResume o => some (.eretResume, o)
  | .eretKill o => some (.eretKill, o)
  | .eretFdom o => some (.eretFdom, o)
  | .trap o => some (.trap, o)
  | .extensibleOpcode _ _ => none
  | .create _ => none
  | .resize _ => none
  | .resizeResume _ => none
  | .destroy _ => none
  | .bindvf _ => none
  | .unbindvf _ => none
  | .dropClear _ => none
  | .funcmodeWrite _ => none
  | .registerWrite _ _ => none
  | .doorbell _ => none
  | .rcbFlush _ => none
  | .temporalUnitWrite _ => none
  | .lifecycleTransition _ _ _ => none
  | .wipeComplete _ => none
  | .microcodeLoad _ => none
  | .pageMove _ _ => none
  | .controlIntervalBoundary _ _ => none
  | .votesWrite _ => none
  | .reservationMark _ => none
  | .queueRefill _ => none
  | .engineSelfTest _ => none
  | .linkTrained _ _ _ => none
  | .peerCopyWrite _ _ => none
  | .hostAccess _ _ _ => none
  | .fdcmdEnd => none
  | .fdcmdRelease => none
  | .deferredEntryMove => none
  | .headRefresh => none
  | .faultResolve => none
  | .faultRecordAppend => none
  | .faultRecordCopy => none
  | .faultReplay => none
  | .reset => none
  | .microcodeApplyLive => none
  | .sequencerCheckFail => none
  | .pluginFault => none
  | .pluginTimeout => none
  | .linkDown => none
  | .resizeCoreDepart => none
  | .timeSliceEnd => none
  | .frequencyFall => none
  | .regulatorSettled => none
  | .droopEvent => none
  | .thermalTrip => none
  | .revolutionStart => none
  | .ringPass => none
  | .bundleStartEvaluation => none
  | .bundleAdmit => none
  | .bundleRetire => none
  | .dispatcherStep => none
  | .cooperativeSave => none
  | .forcedSave => none
  | .restore => none
  | .accDeadlockBreak => none
  | .watchdogExpiry => none
  | .handlerServiceStart => none
  | .handlerServiceTimeout => none
  | .memoryAccessComplete => none
  | .copyGranuleDeliver => none
  | .copyComplete => none
  | .copyRequestEnter => none
  | .multicastReceipt => none
  | .tileFillComplete => none
  | .tileReaderDone => none
  | .tileTaskDispatch => none
  | .engineStep => none
  | .tileTaskRetire => none
  | .mmaAdmission => none
  | .macroStep => none
  | .macroRelease => none
  | .darningPass => none
  | .crcErrorReplay => none

end Sys2Proof
end

