-- ==== Sys2Proof/Machine/State.lean ====
section
/-! DEFINITION. The state of the device: everything the spec gives it, as plain data. Tables are keyed by number: a warp by 128 × core + slot (slot 96 is the handler's, 16 R404), a slice by 8 × core + slice, a vector register by 32 × name + lane. -/

namespace Sys2Proof.Machine

/-! ### Threads, warps, slices (07) -/

/-- What a BLOCKED thread waits on (07 R168). -/
inductive BlockOn where
  /-- BAR .sync on a barrier, in the phase it arrived in (14 R384) -/
  | bar (n : Nat) (phase : Bool)
  /-- EVWAIT on an event bit (14 R386) -/
  | evwait (bit : Nat)
  /-- CPWAIT on batches; the register that takes the copy status, and whether it is written (11 R292) -/
  | cpwait (n : Nat) (dst : Option (Nat × Bool))
  /-- BCWAIT on a byte-counting barrier at a scratch offset, with the phase it waits for (11 R295) -/
  | bcwait (off : Nat) (phase : Nat)
  /-- ACALLOC for units of accumulator storage (12 R325) -/
  | acalloc (id : Nat)
  /-- FENCE (14 R374) -/
  | fence (id : Nat)
  /-- WGRES waiting for reservations (15 R402) -/
  | wgres (id : Nat)
  /-- RESUME whose words are under way (15 R396) -/
  | resume
  /-- a yield point (08 R209); the program counter is already the next instruction's -/
  | yieldPoint
  /-- MMA or MMAS in progress (12 R317) -/
  | mma (id : Nat)
  /-- a macro-instruction in progress (13 R332) -/
  | macroOp (id : Nat)
  deriving DecidableEq, Repr

/-- Where a thread stands (07 R168). READY and WAITING are told apart by the issue conditions of R170, so both are `atPc`. -/
inductive TState where
  | atPc
  | blocked (w : BlockOn)
  | parked (j : Nat)
  | faultWait
  | exited
  deriving DecidableEq, Repr

/-- A batch of copies (11 R291, R293): its number within the thread, its copies not completed, and the OR of the statuses of those completed. -/
structure Batch where
  no : Nat
  left : Nat
  status : Word
  deriving DecidableEq, Repr

/-- A thread (07 R168, R169; 16 R420). -/
structure Thread where
  pc : DWord
  st : TState
  /-- arrival stamp (R168) -/
  stamp : Nat
  /-- slice cycle at which its previous instruction issued (R170) -/
  lastIssue : Nat
  /-- P0 to P6; P7 is always true (R147) -/
  preds : BitVec 7
  helper : Bool
  /-- $LATTICE (08 R224) -/
  lattice : BitVec 2
  /-- copy status (11 R293) -/
  copyst : Word
  /-- sealed, unfinished batches, oldest first; their number is U (11 R291) -/
  sealedB : List Batch
  /-- the open batch (11 R291) -/
  openB : Batch
  /-- a yield point of the YIELD control bit is due before its next instruction (08 R209) -/
  yieldDue : Bool
  deriving DecidableEq, Repr

/-- Flag k is signalled once every lane of the mask has been released (08 R211). -/
structure Owe where
  flag : Nat
  lanes : Word
  deriving DecidableEq, Repr

/-- A fault record still to be appended (10 R271). -/
structure RecDraft where
  page : Nat
  cause : Nat
  kind : Nat
  core : Nat
  wslot : Nat
  lanes : Word
  tag : Nat
  /-- whether fault service was host-assisted when it was raised, once that has changed (03 R81) -/
  mode : Option Bool := none
  deriving DecidableEq, Repr

/-- An access instruction of a warp that is not complete in every lane (10 R270 to R273, R467). -/
structure FaultRec where
  pc : DWord
  /-- members that have not gone on from it -/
  members : Word
  execs : Word
  /-- flag armed by the original issue; 12 or more: none -/
  flag : Nat
  /-- the instruction was not read, or stands in a chain: it, or the chain, issues again as new (08 R204; R467) -/
  whole : Bool
  /-- delivered to the handler, not to the record queue (R270, R274) -/
  handler : Bool
  /-- an uncorrectable error: ERET.resume acts as ERET.fdom (16 R411) -/
  uncorrectable : Bool
  /-- SEQs of records posted and not resolved -/
  seqs : List Nat
  /-- records waiting for room in the queue (R271) -/
  drafts : List RecDraft
  /-- records that lanes of a TTQ have read (12 R318): lane, record -/
  stash : Tab Nat
  /-- its flag has not been armed: a uniform constant kept the instruction from issuing (R467) -/
  unarmed : Bool := false
  /-- a yield point follows the instruction (08 R209) -/
  yield : Bool := false
  /-- the members of its first issue -/
  all : Word := 0
  deriving DecidableEq, Repr

/-- A warp (07 R169, R177; 16 R420). A vector register's lane is listed in `v` exactly when its live bit is set (R178). -/
structure Warp where
  /-- its block; the handler warp has none and its field is not read -/
  blk : Nat
  num : Nat
  slice : Nat
  peak : Nat
  v : Tab Word
  s : Tab Word
  flags : Tab Nat
  /-- rejoin masks: enrolled, arrived (R186) -/
  jm : Tab (Word × Word)
  /-- segments: base, limit (10 R257) -/
  seg : Tab (DWord × DWord)
  faultmask : Word
  loc : BitVec 7
  summary : BitVec 7
  /-- work-graph reservations R[0..15] (15 R401) -/
  res : Tab Nat
  stopped : Bool
  owes : List Owe
  fault : Option FaultRec
  threads : Tab Thread
  deriving DecidableEq, Repr

/-- A pending write-back (07 R170 to R172, R180; 08 R228). -/
inductive WbWhat where
  /-- vector registers: name, lane, value -/
  | v (cells : List (Nat × Nat × Word))
  | s (cells : List (Nat × Word))
  | p (n : Nat) (cells : List (Nat × Bool))
  /-- a bypass latch: lane, value -/
  | latch (n : Nat) (cells : List (Nat × DWord))
  /-- exception bits, both copies -/
  | exc (b : BitVec 7)
  /-- a completion flag is signalled -/
  | flag (k : Nat)
  deriving DecidableEq, Repr

structure Wb where
  due : Nat
  slot : Nat
  what : WbWhat
  deriving DecidableEq, Repr

/-- A thread named by slot and lane. -/
structure Member where
  slot : Nat
  lane : Nat
  deriving DecidableEq, Repr

/-- A chain in progress on a slice (07 R181, R183). -/
structure Chain where
  first : DWord
  next : DWord
  members : List Member
  count : Nat
  /-- last-read clears held back until the chain ends: slot, name, lanes -/
  clears : List (Nat × Nat × Word)
  deriving DecidableEq, Repr

/-- A reservation mark (07 R194): the candidate's program counter, its oldest member, the marking cycle, and the tokens set aside. -/
structure Mark where
  pc : DWord
  oldest : Member
  cycle : Nat
  price : Nat
  /-- the set-aside has been taken (R192) -/
  set : Bool
  deriving DecidableEq, Repr

/-- An issue slice (07). -/
structure Slice where
  /-- slice cycles begun since reset (05 R139) -/
  cyc : Nat
  /-- shard cycles that `cyc` already accounts for (05 R126; 04 R109) -/
  upto : Nat
  wbs : List Wb
  /-- bypass latches by 32 × latch + lane; listed when valid (R180) -/
  latches : Tab DWord
  chain : Option Chain
  mark : Option Mark
  /-- shard cycle since which a candidate has stayed READY without its tokens, by place and oldest member (R194) -/
  starve : Tab Nat
  /-- first slice cycle at which the slice may issue after an FP64 instruction (09 R231) -/
  fp64 : Nat
  /-- exception bits that write-backs of this slice cycle have set, by slot (08 R228) -/
  newExc : Tab (BitVec 7)
  /-- the instruction word each standing thread has been fetched, with its address, by 32 × slot + lane (08 R229) -/
  held : Tab (DWord × IWord)
  deriving DecidableEq, Repr

/-- The group in issue (07 R173). -/
structure Sel where
  core : Nat
  slice : Nat
  pc : DWord
  members : List Member
  /-- slots whose members replay: they issue only for lanes whose $FAULTMASK bit is 0 (10 R273) -/
  replays : List Nat
  deriving DecidableEq, Repr

/-! ### Traps and the handler (16) -/

/-- A queued trap and its descriptor (16 R405, R406). -/
structure Trap where
  /-- the core cycle it is taken in and the slice it comes from, as 8 × cycle + slice (R405) -/
  at_ : Nat
  cause : Nat
  swnum : Nat
  tpc : DWord
  members : Word
  slots : List Nat
  /-- the bundle of the first warp it names, whose fault domain it may contain (R407, R411) -/
  bundle : Option Nat
  deriving DecidableEq, Repr

/-- The service in hand (16 R406, R410): the trap as it was delivered, the slots whose warps are still stopped for it, the core cycle it began at, and the writes of XWR not yet in effect. -/
structure Service where
  trap : Trap
  slots : List Nat
  began : Nat
  /-- selector, lane, value, oldest first -/
  xwr : List (Word × Nat × Word)
  deriving DecidableEq, Repr

/-! ### Cores and shards (05, 07) -/

/-- A launch share of a core's pool (05 R110): the launch, its granules, and the accumulator units in use. -/
structure Share where
  bundle : Nat
  launch : Nat
  regg : Nat
  accg : Nat
  scrg : Nat
  /-- core cycle since which R123's conditions have held -/
  stall : Option Nat
  deriving DecidableEq, Repr

/-- A held translation (10 R267, R268): page base, page size in bits, frame base, rights, kind. -/
structure Xl where
  va : Nat
  bits : Nat
  pa : Nat
  ord : Nat
  x : Bool
  w : Bool
  rd : Bool
  dirty : Bool
  deriving DecidableEq, Repr

/-- A core (05, 07, 16). -/
structure Core where
  /-- TEMP and DROOP as last sampled, and droop events since (05 R118, R132) -/
  temp : Nat
  droop : Nat
  droopNow : Nat
  /-- second-level translations, and each slice's first level, youngest first (10 R267) -/
  tlb : List Xl
  tlb1 : Tab (List Xl)
  /-- instruction cache: 16-byte lines by virtual address -/
  icache : Tab IWord
  /-- tokens of its partition (07 R190) -/
  bank : Nat
  trapq : List Trap
  service : Option Service
  /-- the handler slot has stopped after a double fault (16 R407) -/
  handlerDead : Bool
  shares : List Share
  /-- matrix engines' FENCE word (12 R328) -/
  fence : DWord
  /-- steps of each engine since its last self-test (12 R328) -/
  engSteps : Tab Nat
  /-- sequencers fenced by MICROCODE_CHECK (03 R84) -/
  seqFence : List Nat
  /-- the accepted image has been swapped in (03 R85) -/
  swapped : Bool
  /-- a block has held its pool since its last wipe (03 R66; 05 R111) -/
  dirty : Bool
  /-- shard cycle of the last task dispatched (12 R321) -/
  dispatchedAt : Option Nat := none
  deriving DecidableEq, Repr

/-- A shard (04 R109; 05 R124 to R139; 07 R190; 12 R328). -/
structure Shard where
  cycle : Nat
  /-- places of the slices 6 × core + slice that this cycle has passed, and the work that the core number of an admission in it bars below (07 R193; 12 R323) -/
  turn : Nat
  adm : Nat
  /-- revolutions begun, the next pass of this one (0: none begun yet; 17: all made), control intervals begun and the cycle of the last boundary (07 R190, R191) -/
  rev : Nat
  pass : Nat
  interval : Nat
  boundary : Nat
  votes : DWord
  supply : Word
  drawcap : BitVec 16
  opnow : Nat
  optarget : Nat
  thstep : Nat
  dsteps : BitVec 48
  lastrise : Nat
  /-- a rise asked of the regulator; it has reported settled -/
  rising : Bool
  settled : Bool
  /-- FC has fallen to this point and the voltage has not -/
  fcop : Nat
  /-- consecutive readings at least 4 °C below the step's threshold (05 R138) -/
  cool : Nat
  /-- the trip has stopped issue (05 R139) -/
  stopped : Bool
  /-- tokens in the packet, the interval account, and the accounts of RCB nodes by address × 16 + partition (07 R190, R191) -/
  packet : Nat
  acct : Nat
  nodes : Tab Nat
  /-- delivery of each partition in this and in the previous interval (05 R131) -/
  deliv : Tab Nat
  delivPrev : Tab Nat
  /-- droop events charged to partitions in this interval (05 R133) -/
  drooped : List Nat
  /-- matrix scheduler block (12 R328) -/
  curcap : BitVec 16
  stlog : BitVec 8
  stfail : Word
  deriving DecidableEq, Repr

/-! ### Memory accesses in flight (10, 14) -/

/-- The spaces an access reaches (10 R257). -/
inductive Space where
  | global | scratch | priv | const
  deriving DecidableEq, Repr

/-- What an access does once carried out. -/
inductive AccOp where
  /-- size code (10 R276) -/
  | load (sz : Nat)
  | store
  /-- OP of 14 R380, width -/
  | atom (op : Nat) (w64 : Bool)
  | cas128
  | tlrmake
  /-- the reading of a tile-task record (12 R318) -/
  | ttq
  /-- the takes of a RESUME; whether one found a record goes to Pk (15 R396) -/
  | resume (k : Nat)
  deriving DecidableEq, Repr

/-- What a lane's RESUME has taken: the words and the program counter of a record, or nothing (15 R396). -/
structure Take where
  slot : Nat
  lane : Nat
  got : Option (List Word × DWord)
  deriving DecidableEq, Repr

/-- One lane's part of an access: linear address, data, and the compare value of `.cas` or the new value of CAS128. -/
structure AccLane where
  slot : Nat
  /-- its block -/
  blk : Nat
  lane : Nat
  space : Space
  addr : Nat
  data : Nat
  cmp : Nat
  helper : Bool
  deriving DecidableEq, Repr

/-- An access instruction in flight (10 R270): its lanes have met memory at its issue, and its results wait for their write-back. -/
structure Access where
  core : Nat
  op : AccOp
  dst : Dst
  wbs : Bool
  /-- flag armed; 12 or more: none -/
  flag : Nat
  /-- members whose lanes it carried out -/
  members : List Member
  /-- results: slot, lane, value -/
  vals : List (Nat × Nat × Nat)
  /-- exception bits raised with them, by slot (08 R228) -/
  excs : Tab (BitVec 7)
  /-- slots whose flag is signalled at the write-back -/
  doneSlots : List Nat
  /-- the takes of a RESUME, in lane order (15 R396) -/
  takes : List Take := []
  deriving DecidableEq, Repr

/-! ### Tiles, barriers, accumulators (11, 12, 14) -/

/-- Who fills a tile (11 R299). -/
inductive Fill where
  | none
  | copy
  | tilewr
  | task (id : Nat)
  /-- every byte of the fill has been written -/
  | written
  deriving DecidableEq, Repr

/-- Tile control registers and the tile's readers (11 R297, R298). -/
structure Tile where
  cols : BitVec 12
  rows : BitVec 8
  fmt : BitVec 8
  sd : Bool
  recv : Bool
  /-- 0 EMPTY, 1 FILLING, 2 READY, 3 DRAINING -/
  st : BitVec 2
  pend : Bool
  wrfill : Bool
  base : BitVec 30
  readers : Nat
  fill : Fill
  deriving DecidableEq, Repr

/-- A block barrier (14 R384). -/
structure Bar where
  arrived : Nat
  expect : Nat
  fixed : Bool
  phase : Bool
  deriving DecidableEq, Repr

/-- An accumulator handle (12 R307 to R309). Words not listed hold what earlier work left, keyed by the grant (R310). -/
structure Acc where
  sat : Bool
  m : Nat
  n : Nat
  fmt : Nat
  data : Tab Word
  grant : Nat
  /-- operations in flight, oldest first -/
  inflight : List Nat
  deriving DecidableEq, Repr

/-- A waiting ACALLOC (05 R121). -/
structure AccWait where
  id : Nat
  slot : Nat
  /-- the handle it has taken, and its configuration word (12 R325) -/
  h : Nat
  units : Nat
  cfg : Nat
  /-- scalar register that takes the handle -/
  dst : Option Nat
  deriving DecidableEq, Repr

/-! ### Copies (11) -/

/-- A receiver of a copy into tiles: the core (by its number within the shard), the block that accepted (none: not offered yet, or refused), and whether its fill is done. -/
structure Rcv where
  core : Nat
  offered : Bool
  blk : Option Nat
  done : Bool
  deriving DecidableEq, Repr

/-- A copy (11 R285 to R306). -/
structure Copy where
  /-- the issuing block; none for a request of a copy sub-launch -/
  blk : Option Nat
  part : Nat
  bundle : Nat
  launch : Nat
  core : Nat
  /-- CPY direction; 7: CPYM -/
  dir : Nat
  warp : Nat
  lane : Nat
  rcd : List Nat
  org : List Int
  b : Nat
  x : Nat
  bar : Option Nat
  /-- destination record of DIR 5 -/
  drec : List Nat
  batch : Nat
  /-- place in the spill ring, or on chip; then started (04 R104; R282) -/
  spill : Option Int
  started : Bool
  /-- next 16-byte granule; bytes subtracted from the barrier -/
  pos : Nat
  sub : Nat
  status : Word
  rcvs : List Rcv
  /-- shard of the receivers -/
  shard : Nat
  /-- its source tile is still being read (R298) -/
  reading : Bool
  /-- the fault record it waits for, posted or still to be posted (R283) -/
  waitSeq : Option Nat
  draft : Option RecDraft
  /-- SEQ of the slip record that counts it (15 R392) -/
  linked : Option Nat
  /-- address of a copy-request record -/
  req : Option Nat
  /-- every granule delivered or the copy ended with an error -/
  ended : Bool
  deriving DecidableEq, Repr

/-! ### Matrix work (12) -/

/-- Where a tile task stands (12 R321, R322). -/
inductive TaskSt where
  | queued
  | running
  /-- stopped at a step boundary, waiting for readmission (01 R42) -/
  | waiting
  deriving DecidableEq, Repr

/-- A tile task (01 R40; 12 R318 to R324). -/
structure Task where
  rcd : List Nat
  blk : Nat
  bundle : Nat
  launch : Nat
  core : Nat
  /-- place in its launch's queue on the core -/
  order : Int
  spill : Option Int
  step : Nat
  st : TaskSt
  reserve : Nat
  interval : Nat
  weight : Nat
  /-- shard cycle at which it began to wait for admission -/
  since : Option Nat
  engine : Nat
  /-- it has begun the fill of TD (R321) -/
  filling : Bool
  /-- warp number, flag and issue whose tasks together hold the flag's count (R318) -/
  owner : Option (Nat × Nat × Nat)
  /-- matrix sub-launch and array index of a claimed record (R318) -/
  claim : Option (Nat × Nat)
  /-- flags of its steps, which join its bundle's at its retirement (17 R435) -/
  exc : BitVec 7 := 0
  deriving DecidableEq, Repr

/-- An MMA, MMAS or ACDRAIN in progress (12 R317, R326). -/
structure MmaOp where
  core : Nat
  slot : Nat
  blk : Nat
  pc : DWord
  flag : Nat
  wbs : Bool
  sp : Nat
  ta : Nat
  tb : Nat
  h : Nat
  mmas : Bool
  step : Nat
  admitted : Bool
  reserve : Nat
  interval : Nat
  since : Option Nat
  weight : Nat
  engine : Nat
  deriving DecidableEq, Repr

/-- A FENCE in flight (14 R374): its kind and scope, its members, and the flag it owes. -/
structure FenceRun where
  kind : Nat
  scope : Nat
  core : Nat
  pc : DWord
  members : List Member
  flag : Nat
  deriving DecidableEq, Repr

/-! ### Macro-instructions (13) -/

/-- How a lane of a macro-instruction has ended (13 R333, R338). -/
inductive MEnd where
  | complete
  | callback
  | stop
  | fault (page cause : Nat)
  | uncorr
  deriving DecidableEq, Repr

/-- One lane of a macro-instruction in progress (13 R332 to R337): its slot and lane, its state block as the finished steps leave it, the steps run in this issue, the flags raised, and its ending once it has one. -/
structure MLane where
  slot : Nat
  lane : Nat
  words : List Word
  steps : Nat
  exc : BitVec 7
  ending : Option MEnd
  /-- bin for which its issue has charged a geometry record not yet appended, and the place charged (04 R104, R106) -/
  emits : Option (Nat × Option Int)
  deriving DecidableEq, Repr

/-- A macro-instruction in progress (13 R332). -/
structure MacroOp where
  core : Nat
  /-- sequencer that runs it -/
  seq : Nat
  mn : Mn
  o : Op
  pc : DWord
  flag : Nat
  /-- slots whose members replay (R337) -/
  replays : List Nat
  members : List Member
  lanes : List MLane
  recs : List (List Nat)
  /-- shard cycle since which the step it wants has been READY without payment (07 R195) -/
  since : Option Nat
  mark : Option Mark
  deriving DecidableEq, Repr

/-! ### Slip and work-graph records (15) -/

structure Slip where
  seq : Nat
  n : Nat
  ev : Bool
  evbit : Nat
  seen : Bool
  pc : DWord
  words : List Word
  cpleft : Nat
  core : Nat
  spill : Option Int
  deriving DecidableEq, Repr

structure WgRec where
  seq : Nat
  node : Nat
  words : List Word
  core : Nat
  spill : Option Int
  deriving DecidableEq, Repr

/-- A waiting WGRES (15 R402). -/
structure WgWait where
  id : Nat
  core : Nat
  slot : Nat
  node : Nat
  k : Nat
  /-- scalar register that takes R[n] -/
  dst : Option Nat
  deriving DecidableEq, Repr

/-- A launch's work graph (15 R399 to R401): node entries D0, D1, free counts, waiters. -/
structure WorkGraph where
  nodes : List (Nat × Nat)
  free : Tab Nat
  waits : List WgWait
  deriving DecidableEq, Repr

/-! ### Bundles, launches, blocks (01, 04, 05, 16, 17) -/

/-- Bundle states (04 R90). -/
inductive BSt where
  | queued | head | admitting | running | draining | retired
  deriving DecidableEq, Repr

/-- Counts and fields of the completion record (17 R433). -/
structure Tally where
  blocks : Nat := 0
  tasks : Nat := 0
  copies : Nat := 0
  nrestf : Nat := 0
  ndisc : Nat := 0
  discseq : Nat := 0
  nuncl : Nat := 0
  nrecd : Nat := 0
  refused : Nat := 0
  cperr : Nat := 0
  rframe : Nat := 0xFFFF
  exc : BitVec 7 := 0
  deriving DecidableEq, Repr

/-- A value with unbounded exponent range: (−1)^neg × n/d × 2^e, and with `sticky` a value strictly between that and the next finer one. `n` and `d` are positive. -/
inductive Val where
  /-- a NaN; signalling or not -/
  | nan (sig : Bool)
  | inf (neg : Bool)
  | zero (neg : Bool)
  | num (neg : Bool) (n d : Nat) (e : Int) (sticky : Bool)
  deriving DecidableEq, Repr

/-- Coverage state of a launch (01 R33; 17 R436 to R444). -/
structure Cov where
  /-- the record's words as checked -/
  rcd : List Nat
  /-- DARNTLR's record as read at the check (01 R35) -/
  tlr : List Nat
  f : Nat
  sum : Nat
  n : Nat
  passes : Nat
  kept : Nat
  skipped : Nat
  audited : Nat
  est : Nat
  nupd : Nat
  /-- blocks whose pass has gone through its points: linear index → its F; values still to be written into SD blocks, by point number (R440) -/
  passed : Tab Nat
  fills : Tab Val
  deriving DecidableEq, Repr

/-- A launch of a bundle. -/
structure Launch where
  rcd : List Nat
  /-- next block in linear order -/
  next : Nat
  /-- placement of a persistent launch has been accepted (05 R119) -/
  accepted : Bool
  /-- no further block is placed (16 R427) -/
  closed : Bool
  /-- blocks placed and not gone -/
  live : Nat
  /-- records or requests taken so far (matrix, copy) -/
  taken : Nat
  slips : List Slip
  slipSeq : Nat
  /-- the fault record that the reading of the next copy request waits for (11 R283), posted or still to be posted -/
  reqWait : Option Nat
  reqDraft : Option RecDraft
  wg : Option WorkGraph
  wgRecs : List WgRec
  /-- records appended to each node's queue so far (15 R389) -/
  wgSeq : Tab Nat
  /-- the node table as the launch's first work-graph instruction read it; empty before (15 R399) -/
  wgTable : List Nat
  cov : Option Cov
  deriving DecidableEq, Repr

/-- A geometry record in a bin (13 R344): a triangle's words 2 to 12, or a grid's four words; the shard that produced it. -/
structure Geo where
  grid : Bool
  words : List Nat
  shard : Nat
  spill : Option Int
  deriving DecidableEq, Repr

/-- A bundle (04 R89, R90). -/
structure Bundle where
  addr : Nat
  tag : Nat
  part : Nat
  queue : Nat
  /-- position in the order firmware moved entries -/
  order : Nat
  st : BSt
  hdr : List Nat
  launches : Tab Launch
  /-- addresses of the RCB chain, the named node first -/
  chain : List Nat
  /-- effective values of each node of the chain, taken at the check (01 R23, R25); the named node's first -/
  effs : List (Tab Nat)
  /-- order of admission -/
  admitted : Nat
  /-- DEPCTR counters held -/
  depctr : Nat
  status : Nat
  tally : Tally
  /-- geometry bins (13 R344): bin → records -/
  bins : Tab (List Geo)
  /-- held in ADMIT by its tenant's counter quota, and counted in DEFER (03 R75) -/
  deferred : Bool := false
  deriving DecidableEq, Repr

/-- A cached RCB (01 R25): its words, and the budgets, by INHERIT bit, that have been set below what was held and that usage has still to fall below. -/
structure Rcb where
  words : List Nat
  lowered : List (Nat × Nat)
  deriving DecidableEq, Repr

/-- Where a block stands (05, 16). -/
inductive BlkSt where
  | resident
  /-- a save waits to begin or to end (16 R416) -/
  | saving
  | saved
  | held
  /-- flushed, to be placed again as if for the first time (16 R425) -/
  | flushed
  | exited
  deriving DecidableEq, Repr

/-- A block. -/
structure Block where
  bundle : Nat
  launch : Nat
  lin : Nat
  core : Nat
  age : Nat
  st : BlkSt
  preempt : Bool
  /-- shard cycle of the pre-emption deadline -/
  deadline : Nat
  /-- why it is saved (16 R419) -/
  why : Nat
  rcause : Nat
  frame : Nat
  flushable : Bool
  /-- cycle of its shard at which WDCNT was 0 while resident; WDCNT while saved (16 R426) -/
  wdbase : Nat
  wdcnt : Nat
  wdexp : Nat
  covf : Nat
  /-- scratchpad bytes; an unlisted byte holds what earlier work left, keyed by the grant, or zero where that is 0 (05 R111; 03 R66) -/
  scratch : Tab Byte
  grant : Nat
  tiles : Tab Tile
  bars : Tab Bar
  accs : Tab Acc
  accWait : List AccWait
  /-- handles that instructions have named, each with the shard cycle of the last one (12 R309) -/
  accUse : Tab Nat := []
  /-- warps by number while saved -/
  warps : Tab Warp
  /-- traps queued and not served at the save, with their warps' numbers in `slots` -/
  traps : List Trap
  /-- its copies cancelled by a save, in issue order (11 R306) -/
  reissue : List Copy
  /-- its tile tasks while saved, by number -/
  tasks : Tab Task
  /-- the save under way began while FLUSHABLE was 1 (16 R425) -/
  flushing : Bool
  /-- a KILL has issued in this core cycle: what is left of the block may issue in it and no later (08 R207) -/
  killed : Bool := false
  deriving DecidableEq, Repr

/-- A Darning pass (17 R438). -/
structure Darn where
  bundle : Nat
  launch : Nat
  lin : Nat
  core : Nat
  f : Nat
  pos : Nat
  waitSeq : Option Nat
  draft : Option RecDraft
  deriving DecidableEq, Repr

/-! ### Partitions and tenants (03, 04, 10, 16) -/

/-- A fault record in the partition's queue (10 R271). -/
structure FRec where
  draft : RecDraft
  seq : Nat
  /-- copied into the tenant's fault ring (03 R82) -/
  copied : Bool
  deriving DecidableEq, Repr

/-- A frame presented on a display head (17 R447 to R449): its PRESENT number, the tenant that presented it, QIDX as read at its present where its rate control is host-assisted, whether LATE has counted it, whether its surface has been read, and the fault record its reading waits for, posted or still to be posted. -/
structure HeadFrame where
  present : Nat
  tag : Nat
  qidx : Option Nat
  late : Bool := false
  read : Bool := false
  waitSeq : Option Nat := none
  draft : Option RecDraft := none
  deriving DecidableEq, Repr

/-- A display head of a partition (17 R445, R446): its RW words as firmware last read them, whether it is in effect, PRESENT as last read, the frame that waits for its refresh, and the frame past it that is not yet encoded. -/
structure Head where
  on : Bool
  words : List DWord
  presented : Nat
  waiting : Option HeadFrame
  encoding : Option HeadFrame
  deriving DecidableEq, Repr

/-- The part of a partition that its own work moves. -/
structure Part where
  age : Nat
  cursor : Nat
  lastQueue : Nat
  admits : Nat
  faultQ : List FRec
  faultSeq : Nat
  /-- the partition error log, oldest first (03 R64, R74, R76) -/
  errlog : List (List Nat)
  /-- tenant that holds the slice, and slices left (03 R72) -/
  turn : Nat
  slicesLeft : Nat
  noAdmit : Bool
  /-- fault domains frozen for the host (16 R429) -/
  frozen : List Nat
  /-- frog dumps asked for and not yet written, oldest first (16 R431), each: core, handler entry, cause of the fetch, cause and TPC of the trap in service, the shards' cycle counts, and the bundle that trap came from -/
  dumps : List (List Nat)
  /-- the head words of its tenants' VCP pages by byte offset, one copy that all of them see, and the heads by number (17 R445, R446) -/
  headW : Tab DWord
  heads : Tab Head
  deriving DecidableEq, Repr

/-- A tenant's VCP page by byte offset, its event vector, and what firmware and the device hold of it (03 R73; 04 R88). -/
structure Tenant where
  vcp : Tab DWord
  ev : BitVec 256
  /-- ring entries deferred by quota are counted once each: ring → CIDX already counted -/
  defer : Tab Nat
  /-- PIDX as the last doorbell of a ring read it -/
  seen : Tab Nat
  /-- fault-ring range error has been logged (03 R82) -/
  flogErr : Bool
  deriving DecidableEq, Repr

/-! ### Firmware's own state (03, 05) -/

/-- The microcode image in force (03 R83 to R85; 06 R154). -/
structure Image where
  version : Word
  statever : Word
  slots : BitVec 128
  /-- by slot: the price, and the price of a step -/
  prices : Tab Nat
  steps : Tab Nat
  deriving DecidableEq, Repr

/-- A LINKn word (03 R68). -/
structure Link where
  up : Bool
  host : Bool
  peer : Nat
  lanes : Nat
  retry : Nat
  deriving DecidableEq, Repr

/-- What the command in progress waits for (03 R69). -/
inductive Cmd where
  | none
  | resize (part : Nat)
  | destroy (part : Nat)
  | unbind (tag : Nat)
  deriving DecidableEq, Repr

/-- A RESIZE in progress (03 R69, R77, R79): new core mask, cores still to depart, the channels and shares that will hold, the mode it was raised in, and whether it is paused. -/
structure Resize where
  mask : Nat
  departing : Nat
  chans : Nat
  t0 : Nat
  t2 : Nat
  host : Bool
  paused : Bool
  deriving DecidableEq, Repr

/-- What a page move concerns: the frames that move, and the entry that names them with its word; none for the translation root (03 R79). -/
structure MoveSrc where
  frame : Nat
  frames : Nat
  entry : Option (Nat × Nat)
  deriving DecidableEq, Repr

/-- A page move that has begun: the virtual address and level it serves, the frames it goes to, and what it moves. -/
structure PageMove where
  va : Nat
  unit : Nat
  frame : Nat
  src : MoveSrc
  deriving DecidableEq, Repr

/-- What firmware holds of a partition (03 R70; 10 R263; 16 R404; 11 R284). -/
structure PartCfg where
  inUse : Bool
  cores : Nat
  chans : Nat
  t0 : Nat
  t2 : Nat
  qslots : Nat
  depctr : Nat
  deadline : Nat
  slice : Nat
  slew : Nat
  /-- TOKENS of its root (R70, R77) -/
  tokens : Nat
  root : Nat
  spill : Nat
  savearea : Nat
  /-- virtual address of the dump region (16 R431) -/
  dump : Nat
  xlat : Nat
  handler : DWord
  /-- link group → peer module, partition there -/
  lg : Tab (Nat × Nat)
  resize : Option Resize
  /-- frames that firmware holds ready to map for the partition (R80) -/
  pool : List Nat
  /-- pages marked not present for a move (R79) -/
  moves : List PageMove := []
  deriving DecidableEq, Repr

/-- A tenant's binding (03 R71). -/
structure Binding where
  part : Nat
  queues : List Nat
  vqslots : Nat
  vdepctr : Nat
  share : Nat
  /-- its policy plug-in has been removed (03 R64) -/
  noPlugin : Bool
  /-- the queue that its plug-in's policy puts first in the tenant's own admission order (03 R64; log 85) -/
  first : Option Nat
  deriving DecidableEq, Repr

/-- The host management window's own registers (03 R68). -/
structure Win where
  psel : DWord
  /-- PCOREM, PCHAN, PSHARE and PTIME of each partition that PSEL has named -/
  corem : Tab (BitVec 256)
  chan : Tab DWord
  share : Tab DWord
  time : Tab DWord
  busy : Bool
  drop : Bool
  result : BitVec 8
  vfsel : DWord
  /-- VFCFG of each tag -/
  vfcfg : Tab DWord
  funcmode : BitVec 6
  /-- words whose last write carried a nonzero reserved field, by offset and bank: no register holds the bits, and a command that takes the word finds it (00 R10; 03 R69) -/
  rsv : List (Nat × Nat)
  cmd : Cmd
  deriving DecidableEq, Repr

/-- Privilege modes of a firmware core (03 R63). -/
inductive FwMode where
  | machine | supervisor | user
  deriving DecidableEq, Repr

/-- A firmware core (03 R63, R64): its mode; its physical memory protection entries by number (0 to 63), each an address range, first and past the last, that U-mode may reach; the tenant whose plug-in it runs, and when on its own timer (in µs) the call began; and the registers of RV64GC, whose use the manual does not describe (log 85). -/
structure FwCore where
  mode : FwMode
  pmp : Tab (Nat × Nat)
  plugin : Option Nat
  timer : Nat
  called : Nat
  pc : DWord
  /-- x1 to x31; x0 reads as zero -/
  x : Tab DWord
  f : Tab DWord
  csr : Tab DWord
  deriving DecidableEq, Repr

/-- Firmware's part of the state: no instruction of the Kelfer set changes it. -/
structure Fw where
  life : LifeState
  rollback : Word
  image : Image
  imageNext : Option Image
  win : Win
  links : Tab Link
  parts : Tab PartCfg
  binds : Tab Binding
  /-- frame number → owning partition (10 R265) -/
  owners : Tab Nat
  /-- cores fenced at manufacture (00 R3) -/
  fenced : List Nat
  /-- registers per slice of repaired cores (05 R112) -/
  capreg : Tab Nat
  /-- band of each LPDDR5X channel (05 R136) -/
  bands : Tab Nat
  /-- wipes under way, each with the partition its resource leaves or enters; 16: none (R67) -/
  wipes : List (WipeRes × Nat)
  /-- power envelope the board declares, in watts (00 R2) -/
  envelope : Nat
  /-- the four RV64GC firmware cores (R63) -/
  fwCores : Tab FwCore
  deriving DecidableEq, Repr

/-! ### The machine -/

/-- One entry of the agenda: an event of the table with the unit it concerns, or a cycle of a slice. -/
inductive Move where
  | event (i : Instr) (x : Subj)
  | slice (core slice : Nat)
  deriving DecidableEq, Repr

/-- Everything the machine's work moves. -/
structure Mach where
  /-- tier memory by physical address: rising addresses, no zero byte listed (03 R66) -/
  mem : Tab Byte
  /-- 16-byte granules whose read finds an uncorrectable error (10 R274) -/
  poison : List Nat
  /-- frames retired after an uncorrectable error (16 R428) -/
  retired : List Nat
  warps : Tab Warp
  slices : Tab Slice
  cores : Tab Core
  shards : Tab Shard
  parts : Tab Part
  tenants : Tab Tenant
  bundles : Tab Bundle
  rcbs : Tab Rcb
  /-- USAGE as the device last wrote or read it, of every node it has walked, by address × 16 + partition (01 R24) -/
  usages : Tab Nat
  blocks : Tab Block
  accesses : Tab Access
  fences : Tab FenceRun
  copies : Tab Copy
  tasks : Tab Task
  mmas : Tab MmaOp
  macros : Tab MacroOp
  darns : Tab Darn
  /-- next number for any of the numbered objects above -/
  nextId : Nat
  /-- counter of free values (MODEL) -/
  fresh : Nat
  sel : Sel
  devlog : List (List Nat)
  /-- MSI-X signals: function tag, vector; oldest first -/
  msi : List (Nat × Nat)
  /-- granules sent to peer modules: module, partition there, virtual address, data; oldest first (11 R284) -/
  sent : List (Nat × Nat × Nat × Nat)
  /-- fault domains awaiting the host's decision: partition, domain, raising bundle (16 R430) -/
  fdq : List (Nat × Nat × Nat)
  deriving DecidableEq, Repr

/-- The state of the device. -/
structure State where
  fw : Fw
  m : Mach
  /-- moves proposed and not yet made (MODEL) -/
  agenda : List Move
  /-- slice whose cycle comes next when nothing is proposed (MODEL) -/
  cursor : Nat
  /-- the unit the event in hand concerns (MODEL) -/
  subj : Subj
  deriving DecidableEq, Repr

/-- Why the machine stops: it never does. The spec gives every condition of the device an outcome (00 R11, R16 to R18). -/
inductive Fault where
  /-- raised by nobody; safe -/
  | none
  deriving DecidableEq, Repr

/-- Why an instruction has no meaning here. -/
inductive Refusal where
  /-- raised by an arm of `exec` that has no meaning yet; safe -/
  | notModelled (mnemonic : String)
  deriving DecidableEq, Repr

/-! ### Reset (03 R66, R68; 05 R135; 12 R328). A unit a table does not list is as the definitions below give it. -/

def Batch.reset : Batch := { no := 0, left := 0, status := 0 }

/-- A lane that holds no thread. -/
def Thread.absent : Thread :=
  { pc := 0, st := .exited, stamp := 0, lastIssue := 0, preds := 0, helper := false, lattice := 1, copyst := 0, sealedB := [], openB := .reset, yieldDue := false }

def Warp.absent : Warp :=
  { blk := 0, num := 0, slice := 0, peak := 256, v := [], s := [], flags := [], jm := [], seg := [], faultmask := 0xFFFFFFFF, loc := 0, summary := 0, res := [],
    stopped := false, owes := [], fault := .none, threads := [] }

def Slice.reset : Slice := { cyc := 0, upto := 0, wbs := [], latches := [], chain := .none, mark := .none, starve := [], fp64 := 0, newExc := [], held := [] }

def Core.reset : Core :=
  { temp := 0, droop := 0, droopNow := 0, tlb := [], tlb1 := [], icache := [], bank := 0, trapq := [], service := .none, handlerDead := false, shares := [], fence := 0, engSteps := [], seqFence := [], swapped := false, dirty := false }

def Shard.reset : Shard :=
  { cycle := 0, turn := 0, adm := 0, rev := 0, pass := 0, interval := 0, boundary := 0, votes := 0, supply := 0, drawcap := 0, opnow := 0, optarget := 0, thstep := 0, dsteps := 0, lastrise := 0, rising := false, settled := false, fcop := 0,
    cool := 0, stopped := false, packet := 0, acct := 0, nodes := [], deliv := [], delivPrev := [], drooped := [], curcap := 0x0400, stlog := 16, stfail := 0 }

/-- The queue rotation of admission begins as if queue 255 had been admitted from last (log 90). -/
def Part.reset : Part :=
  { age := 0, cursor := 0, lastQueue := 255, admits := 0, faultQ := [], faultSeq := 0, errlog := [], turn := 0, slicesLeft := 0, noAdmit := false, frozen := [], dumps := [], headW := [], heads := [] }

def Head.reset : Head := { on := false, words := [], presented := 0, waiting := .none, encoding := .none }

def Tenant.reset : Tenant :=
  { vcp := [], ev := 0, defer := [], seen := [], flogErr := false }

def PartCfg.unused : PartCfg :=
  { inUse := false, cores := 0, chans := 0, t0 := 0, t2 := 0, qslots := 0, depctr := 0, deadline := 0, slice := 0, slew := 0, tokens := 0, root := 0, spill := 0, savearea := 0,
    dump := 0, xlat := 0, handler := 0, lg := [], resize := .none, pool := [] }

def Tile.reset : Tile :=
  { cols := 0, rows := 0, fmt := 0, sd := false, recv := false, st := 0, pend := false, wrfill := false, base := 0, readers := 0, fill := .none }

def Bar.reset : Bar := { arrived := 0, expect := 0, fixed := false, phase := false }

/-- A RISC-V core begins in Machine mode, its entries off (log 85). -/
def FwCore.reset : FwCore := { mode := .machine, pmp := [], plugin := .none, timer := 0, called := 0, pc := 0, x := [], f := [], csr := [] }

def Link.reset : Link := { up := false, host := false, peer := 0, lanes := 0, retry := 0 }

def Win.reset : Win :=
  { psel := 0, corem := [], chan := [], share := [], time := [], busy := true, drop := false, result := 0, vfsel := 0, vfcfg := [], funcmode := 0, rsv := [], cmd := .none }

def Image.reset : Image := { version := 0, statever := 1, slots := 0, prices := [], steps := [] }

def Fw.reset : Fw :=
  { life := .manufactured, rollback := 0, image := .reset, imageNext := .none, win := .reset, links := [], parts := [], binds := [], owners := [],
    fenced := Config.fencedCores, capreg := [], bands := [], wipes := [(.device, 16)], envelope := Config.boardWatts, fwCores := [] }

def Sel.empty : Sel := { core := 0, slice := 0, pc := 0, members := [], replays := [] }

def Mach.reset : Mach :=
  { mem := [], poison := [], retired := [], warps := [], slices := [], cores := [], shards := [], parts := [], tenants := [], bundles := [], rcbs := [], usages := [], blocks := [],
    accesses := [], fences := [], copies := [], tasks := [], mmas := [], macros := [], darns := [], nextId := 1, fresh := 0, sel := .empty, devlog := [], msi := [], sent := [], fdq := [] }

def Subj.zero : Subj := { part := 0, shard := 0, core := 0, unit := 0, blk := 0, bundle := 0, launch := 0, id := 0, tag := 0 }

/-- The device right after reset: every tier wiped and every tier-2 page unassigned, no partition, the reset wipe still in progress (03 R66, R68). -/
def State.reset : State := { fw := .reset, m := .reset, agenda := [], cursor := 0, subj := Subj.zero }

end Sys2Proof.Machine
end

