-- ==== Sys2Proof/Machine/Mem.lean ====
section
/-! DEFINITION. Bytes of the memory tiers by physical address, translation (10 R263 to R268), and the records that software keeps in memory. -/

namespace Sys2Proof.Machine

/-! ### Bytes (00 R8; 03 R66: an unwritten byte reads 0) -/

def memGet (t : Tab Byte) (a : Nat) : Byte := t.get a 0

/-- A write keeps the table without zero bytes. -/
def memPut (t : Tab Byte) (a : Nat) (b : Byte) : Tab Byte := if b = 0 then t.erase a else t.set a b

/-- The `n` bytes from `a`, little-endian. -/
def memRead (t : Tab Byte) (a : Nat) : Nat → Nat
  | 0 => 0
  | n + 1 => (memGet t a).toNat + 256 * memRead t (a + 1) n

/-- Writes the low `n` bytes of `v` from `a`, little-endian. -/
def memWrite (t : Tab Byte) (a : Nat) : Nat → Nat → Tab Byte
  | 0, _ => t
  | n + 1, v => memWrite (memPut t a (BitVec.ofNat 8 v)) (a + 1) n (v / 256)

/-- The canonical form of memory. -/
def memWf (t : Tab Byte) : Bool := Tab.sorted t && t.all (fun c => c.2 != 0)

/-- Words of a record, `n` of 64 bits from `a`. -/
def memWords (t : Tab Byte) (a : Nat) : Nat → List Nat
  | 0 => []
  | n + 1 => memRead t a 8 :: memWords t (a + 8) n

def memPutWords (t : Tab Byte) (a : Nat) : List Nat → Tab Byte
  | [] => t
  | w :: r => memPutWords (memWrite t a 8 w) (a + 8) r

/-- Word `i` of a record. -/
def dw (ws : List Nat) (i : Nat) : Nat := ws.getD i 0

/-- The field `[hi:lo]` of word `i` of a record. -/
def fld (ws : List Nat) (i hi lo : Nat) : Nat := bits (dw ws i) hi lo

/-- A number with its field `[hi:lo]` replaced. -/
def putBits (x hi lo v : Nat) : Nat := x - bits x hi lo * 2 ^ lo + v % 2 ^ (hi + 1 - lo) * 2 ^ lo

/-! ### Physical memory (10 R265) -/

/-- The frame is backed by a tier. -/
def frameBacked (f : Nat) : Bool :=
  let a := f * 4096
  a < 0x400000000 || (0x10000000000 ≤ a && a < 0x18000000000) || (0x20000000000 ≤ a && a < 0x20000000000 + Config.tier2GiB * 2 ^ 30)

/-- The wipe of a resource is under way (03 R66). -/
def Fw.wiping (e : Fw) (r : WipeRes) : Bool := e.wipes.any (fun w => w.1 == r)

/-- The partition may reach the frame: backed, owned by it, no wipe of it under way (10 R265; 03 R66). -/
def frameOk (e : Fw) (part f : Nat) : Bool := frameBacked f && e.owners.get? f == some part && !e.wiping (.page f)

/-- The owner of a firmware-owned frame that a partition may read or execute and never write: its root RCB's page, its spill ring and the pages of its handler (03 R70; 16 R404; log 84). -/
def fwOwner (part : Nat) : Nat := 16 + part

/-! ### Pages and walks (10 R263, R264, R266) -/

/-- Access kinds (10 R266, R271). -/
inductive AKind where
  | load | store | atomic | fetch
  deriving DecidableEq, Repr

/-- KIND of a fault record (10 R271). -/
def AKind.code : AKind → Nat
  | .load => 0
  | .store => 1
  | .atomic => 2
  | .fetch => 3

def causeNotPresent : Nat := 0x10
def causeProtection : Nat := 0x11

/-- The access may reach a leaf's frame (10 R265; log 84). -/
def leafOk (e : Fw) (part : Nat) (k : AKind) (f : Nat) : Bool :=
  frameOk e part f || ((k == .load || k == .fetch) && frameBacked f && e.owners.get? f == some (fwOwner part))

/-- A leaf the walk reached: page base and size, rights, and its entry. -/
structure Leaf where
  pa : Nat
  bits : Nat
  ord : Nat
  x : Bool
  w : Bool
  rd : Bool
  entry : Nat
  word : Nat
  deriving DecidableEq, Repr

/-- Reserved bits of an entry (10 R264). -/
def pteRsv (w : Nat) : Bool := bits w 58 52 != 0 || bits w 11 9 != 0 || bits w 4 1 != 0

def ptePres (w : Nat) : Bool := bit w 0

def pteFrame (w : Nat) : Nat := bits w 51 12

def leafOf (w entry pa size : Nat) : Leaf :=
  { pa, bits := size, ord := bits w 63 62, x := bit w 61, w := bit w 60, rd := bit w 59, entry, word := w }

/-- Sixteen level-0 entries form one 64 KiB page (10 R263). -/
def is64K (mem : Tab Byte) (table i w : Nat) : Bool :=
  let first := memRead mem (table + 8 * (i - i % 16)) 8
  let f0 := pteFrame first
  (f0 % 16 == 0) && (List.range 16).all (fun k =>
    let e := memRead mem (table + 8 * (i - i % 16 + k)) 8
    bit e 8 && ptePres e && bits e 63 59 == bits w 63 59 && pteFrame e == f0 + k)

/-- The walk below the listed levels; `table` is the physical address of the table in hand. -/
def walkFrom (e : Fw) (m : Mach) (part va : Nat) : List Nat → Nat → Except Nat Leaf
  | [], _ => .error causeNotPresent
  | lv :: rest, table =>
    if !frameOk e part (table / 4096) then .error causeProtection
    else
      let i := va / 2 ^ (12 + 9 * lv) % 512
      let entry := table + 8 * i
      let w := memRead m.mem entry 8
      let leaf := lv == 0 || ((lv == 1 || lv == 2) && bit w 7)
      if !ptePres w || pteRsv w || ((lv == 3 || lv == 4) && bit w 7) then .error causeNotPresent
      else if leaf then
        let size := if lv == 0 then (if bit w 8 && is64K m.mem table i w then 16 else 12) else 12 + 9 * lv
        let base := if size == 16 then pteFrame w - pteFrame w % 16 else pteFrame w
        if bits w 63 62 == 3 || (lv != 0 && pteFrame w * 4096 % 2 ^ size != 0) then .error causeNotPresent
        else .ok (leafOf w entry (base * 4096) size)
      else walkFrom e m part va rest (pteFrame w * 4096)

/-- A walk from the partition's root (10 R263). Virtual addresses have 57 bits (log 16). -/
def walk (e : Fw) (m : Mach) (part va : Nat) : Except Nat Leaf :=
  walkFrom e m part (va % 2 ^ 57) [4, 3, 2, 1, 0] (e.parts.get part PartCfg.unused).xlat

/-- The rights an access needs (10 R266). -/
def rightsOk (k : AKind) (x w rd : Bool) : Bool :=
  match k with
  | .load => rd
  | .store => w
  | .atomic => rd && w
  | .fetch => x

def AKind.writes : AKind → Bool
  | .store => true
  | .atomic => true
  | _ => false

/-- The walker sets ACC, and DIRTY for a store (10 R264, R267). -/
def markEntry (mem : Tab Byte) (l : Leaf) (k : AKind) : Tab Byte :=
  memPut mem l.entry (BitVec.ofNat 8 (l.word % 256 ||| 64 ||| (if k.writes then 32 else 0)))

def Xl.covers (x : Xl) (va : Nat) : Bool := va / 2 ^ x.bits == x.va / 2 ^ x.bits

def xlOf (l : Leaf) (va : Nat) (k : AKind) : Xl :=
  { va := va - va % 2 ^ l.bits, bits := l.bits, pa := l.pa, ord := l.ord, x := l.x, w := l.w, rd := l.rd, dirty := k.writes || bit l.word 5 }

/-- What a translation gives: the physical address and the page's ordering kind, or a cause. -/
inductive XlRes where
  | ok (pa ord : Nat)
  | err (cause : Nat)
  deriving DecidableEq, Repr

/-- The walker has a bit of the entry to set. -/
def marks (l : Leaf) (k : AKind) : Bool := !(bit l.word 6 && (!k.writes || bit l.word 5))

/-- The frame of an address in a page. -/
def frameAt (pa size va : Nat) : Nat := (pa + va % 2 ^ size) / 4096

/-! ### Translation buffers (10 R267) -/

def tlb1Size : Nat := 64
def tlb2Size : Nat := 2048

/-- A translation enters a buffer, in place of any it holds of the page; the one that has been there longest makes room (log 12). -/
def enterXl (size : Nat) (x : Xl) (b : List Xl) : List Xl := (x :: b.filter (fun y => !(y.covers x.va || x.covers y.va))).take size

/-- The buffers of a core after a slice's miss; slice 7: of no slice. -/
def Core.enter (c : Core) (slice : Nat) (x : Xl) : Core :=
  { c with tlb := enterXl tlb2Size x c.tlb, tlb1 := if slice < 6 then c.tlb1.set slice (enterXl tlb1Size x (c.tlb1.get slice [])) else c.tlb1 }

/-- What the core holds for an access: the slice's first level, then the second. -/
def Core.heldXl (c : Core) (slice va : Nat) (k : AKind) : Option Xl :=
  (c.tlb1.get slice [] ++ c.tlb).find? (fun x => x.covers va && rightsOk k x.x x.w x.rd && (!k.writes || x.dirty))

/-- Translations leave a core's buffers (10 R268). -/
def Core.dropXl (c : Core) (p : Xl → Bool) : Core := { c with tlb := c.tlb.filter (fun x => !p x), tlb1 := c.tlb1.mapVal (fun b => b.filter (fun x => !p x)) }

/-- The outcome of a fresh walk and its effect on the entry and the core's buffers (10 R265 to R267). `core`: the core and slice whose buffers take it; none for an access that no core's buffer serves. -/
def walkTo (e : Fw) (m : Mach) (part va : Nat) (k : AKind) (core : Option (Nat × Nat)) : Mach × XlRes :=
  match walk e m part va with
  | .error c => (m, .err c)
  | .ok l =>
    if !rightsOk k l.x l.w l.rd || !leafOk e part k (frameAt l.pa l.bits va) then (m, .err causeProtection)
    else
      let m := if marks l k then { m with mem := markEntry m.mem l k } else m
      let m := match core with
        | none => m
        | some c => { m with cores := m.cores.set c.1 ((m.cores.get c.1 Core.reset).enter c.2 (xlOf l (va % 2 ^ 57) k)) }
      (m, .ok (l.pa + va % 2 ^ l.bits) l.ord)

/-- A fresh walk would change nothing and give what the held translation gives. -/
def agrees (e : Fw) (m : Mach) (part va : Nat) (k : AKind) (x : Xl) : Bool :=
  match walk e m part va with
  | .error _ => false
  | .ok l => rightsOk k l.x l.w l.rd && !marks l k && l.pa + va % 2 ^ l.bits == x.pa + va % 2 ^ x.bits && l.ord == x.ord

/-- A translation by a core, for a slice or (7) for none (10 R265, R267, R268): one it still holds may serve, where the partition may reach the frame; whether a held one that no longer agrees with the tables is still held is a free choice. -/
def translate (e : Fw) (m : Mach) (core part va : Nat) (k : AKind) (slice : Nat := 7) : Mach × XlRes :=
  match (m.cores.get core Core.reset).heldXl slice (va % 2 ^ 57) k with
  | none => walkTo e m part va k (some (core, slice))
  | some x =>
    if !leafOk e part k (frameAt x.pa x.bits va) then (m, .err causeProtection)
    else if agrees e m part va k x then (m, .ok (x.pa + va % 2 ^ x.bits) x.ord)
    else if Config.choose m.fresh then ({ m with fresh := m.fresh + 1 }, .ok (x.pa + va % 2 ^ x.bits) x.ord)
    else walkTo e { m with fresh := m.fresh + 1 } part va k (some (core, slice))

/-- A translation that sets no bit and enters no buffer: what a check of a record or firmware uses (01 R29). -/
def peekXl (e : Fw) (m : Mach) (part va : Nat) (k : AKind) : XlRes := (walkTo e m part va k none).2

/-- Words firmware writes in a partition's memory, in pages that may be read-only to it; a page that is not mapped is left (log 94). -/
def firmwarePut (e : Fw) (part : Nat) (m : Mach) (va : Nat) : List Nat → Mach
  | [] => m
  | w :: r =>
    match peekXl e m part va .load with
    | .ok pa _ => firmwarePut e part { m with mem := memWrite m.mem pa 8 w } (va + 8) r
    | .err _ => firmwarePut e part m (va + 8) r

/-! ### Tables that firmware builds (10 R263, R264; 03 R70, R79, R80) -/

/-- A word of an entry that names the next table, or a page with its rights. -/
def tableEntry (f : Nat) : Nat := f * 4096 + 1
def pageEntry (x w rd : Bool) (f : Nat) : Nat := (if x then 2 ^ 61 else 0) + (if w then 2 ^ 60 else 0) + (if rd then 2 ^ 59 else 0) + f * 4096 + 1

/-- A 4 KiB page is entered at a virtual address, in tables of which the missing ones are taken from spare frames; none where those do not suffice. -/
def mapPage (va entry : Nat) : List Nat → Nat → Tab Byte → List Nat → Option (Tab Byte × List Nat)
  | [], _, _, _ => none
  | lv :: rest, table, t, spare =>
    let a := table + 8 * (va / 2 ^ (12 + 9 * lv) % 512)
    let w := memRead t a 8
    if lv = 0 then some (memWrite t a 8 entry, spare)
    else if ptePres w then mapPage va entry rest (pteFrame w * 4096) t spare
    else match spare with
      | [] => none
      | f :: r => mapPage va entry rest (f * 4096) (memWrite t a 8 (tableEntry f)) r

/-- A run of pages: virtual addresses and entries. -/
def mapPages (root : Nat) : List (Nat × Nat) → Tab Byte → List Nat → Option (Tab Byte × List Nat)
  | [], t, spare => some (t, spare)
  | p :: r, t, spare =>
    match mapPage p.1 p.2 [4, 3, 2, 1, 0] root t spare with
    | some (t, spare) => mapPages root r t spare
    | none => none

/-- Entries that a move has marked not present (03 R79). -/
def Fw.marked (e : Fw) (part : Nat) : List Nat := (((e.parts.get? part).map (·.moves)).getD []).filterMap (fun v => v.src.entry.map Prod.fst)

/-- The walk to a virtual address fails only because an entry is not present: no table or page stands in the way, and none is being moved. -/
def mappable (e : Fw) (t : Tab Byte) (part va : Nat) : List Nat → Nat → Bool
  | [], _ => false
  | lv :: rest, table =>
    let a := table + 8 * (va / 2 ^ (12 + 9 * lv) % 512)
    let w := memRead t a 8
    frameOk e part (table / 4096) && ((!ptePres w && !(e.marked part).contains a) || (ptePres w && lv != 0 && !pteRsv w && !bit w 7 && mappable e t part va rest (pteFrame w * 4096)))

/-- The present entry of a level on the walk to a virtual address: where it stands, and its word. -/
def entryAt (t : Tab Byte) (va level : Nat) : List Nat → Nat → Option (Nat × Nat)
  | [], _ => none
  | lv :: rest, table =>
    let a := table + 8 * (va / 2 ^ (12 + 9 * lv) % 512)
    let w := memRead t a 8
    if !ptePres w || pteRsv w then none else if lv = level then some (a, w) else if bit w 7 then none else entryAt t va level rest (pteFrame w * 4096)

/-- A page or a table that a present entry names: a virtual address it serves, the entry's level plus one for a table and 0 for a page, its first frame, and how many it has. -/
structure Slot where
  va : Nat
  unit : Nat
  frame : Nat
  frames : Nat
  deriving DecidableEq, Repr

/-- What the tables from one on name. -/
def tableSlots (t : Tab Byte) (va : Nat) : List Nat → Nat → List Slot
  | [], _ => []
  | lv :: rest, table =>
    (List.range 512).flatMap (fun i =>
      let w := memRead t (table + 8 * i) 8
      let v := va + i * 2 ^ (12 + 9 * lv)
      if !ptePres w || pteRsv w then []
      else if lv == 0 || ((lv == 1 || lv == 2) && bit w 7) then [{ va := v, unit := 0, frame := pteFrame w, frames := 2 ^ (9 * lv) }]
      else { va := v, unit := lv, frame := pteFrame w, frames := 1 } :: tableSlots t v rest (pteFrame w * 4096))

/-- The pages and tables of a partition, the root among them. -/
def Fw.slotsOf (e : Fw) (m : Mach) (part : Nat) : List Slot :=
  let xl := (e.parts.get part PartCfg.unused).xlat
  { va := 0, unit := 5, frame := xl / 4096, frames := 1 } :: tableSlots m.mem 0 [4, 3, 2, 1, 0] xl

/-- The 16-byte granules of `n` bytes at a physical address hold no uncorrectable error. -/
def poisoned (m : Mach) (pa n : Nat) : Bool := m.poison.any (fun g => g / 16 ≥ pa / 16 && g / 16 ≤ (pa + n - 1) / 16)

/-- A record's words read through the partition's tables, `n` words of 64 bits from an 8-byte aligned address: none where a page does not translate or a granule is uncorrectable (01 R29). -/
def readRecord (e : Fw) (m : Mach) (part va : Nat) : Nat → Option (List Nat)
  | 0 => some []
  | n + 1 =>
    match peekXl e m part va .load with
    | .err _ => none
    | .ok pa _ => if poisoned m pa 8 then none else (readRecord e m part (va + 8) n).map (memRead m.mem pa 8 :: ·)

/-- Writes 64-bit words through the partition's tables, word by word; a word that does not translate is not written, and the flag says so. -/
def writeRecord (e : Fw) (m : Mach) (part va : Nat) : List Nat → Mach × Bool
  | [] => (m, true)
  | w :: r =>
    match walkTo e m part va .store none with
    | (m1, .err _) => ((writeRecord e m1 part (va + 8) r).1, false)
    | (m1, .ok pa _) => writeRecord e { m1 with mem := memWrite m1.mem pa 8 w } part (va + 8) r

end Sys2Proof.Machine
end

