-- ==== Sys2Proof/WellFormed.lean ====
section
/-! DEFINITION. Well-formed instructions: the encoding conditions of 06 R142 to R150 and of each opcode's entry, whose breach raises ILLEGAL_OPCODE, and the price, class and chainability of 06 R156. Conditions that depend on the machine's state (chains, the handler slot, a selector's value, a record) are checked by the meanings. -/

namespace Sys2Proof

/-- Latency classes (06 R155). -/
inductive Cls where
  | A | B | C | D | V
  deriving DecidableEq, Repr

/-- Slice cycles from issue to write-back; 0 for the variable class (06 R155). -/
def Cls.latency : Cls → Nat
  | .A => 4
  | .B => 6
  | .C => 8
  | .D => 14
  | .V => 0

/-- What a source field may hold. -/
inductive SrcRule where
  /-- encoded as 0x000 with its LAST bit 0 (06 R149) -/
  | unused
  /-- one of the kinds V, S, L, C, I, read as 32 bits -/
  | w32 (v s l c i : Bool)
  /-- one of the kinds V, S, L, C, I, read as 64 bits (06 R145) -/
  | w64 (v s l c i : Bool)
  /-- a run of `n` vector registers whose first is a multiple of `al` -/
  | vrun (n al : Nat)
  /-- the base of a memory operand: V, S, C of 64 or 32 bits, or the absolute form (06 R159) -/
  | base (wide abs : Bool)
  deriving DecidableEq, Repr

/-- What the destination field may hold: widths in registers of the V and S forms (0: not allowed), and whether P, a latch, a tile or none may stand. -/
structure DstRule where
  v : Nat := 0
  al : Nat := 1
  s : Nat := 0
  p : Bool := false
  l : Bool := false
  t : Bool := false
  n : Bool := false
  deriving DecidableEq, Repr

/-- How IMM is used. -/
inductive ImmRule where
  /-- IMM is 0 unless a source is the immediate (06 R149) -/
  | plain
  /-- IMM is an extension: no source is the immediate, and the flag says whether its value is legal -/
  | ext (ok : Bool)
  deriving DecidableEq, Repr

/-- What an opcode's entry says of its encoding, its price, class and chainability. -/
structure OpSpec where
  price : Nat
  cls : Cls
  chain : Bool
  dst : DstRule
  a : SrcRule := .unused
  b : SrcRule := .unused
  c : SrcRule := .unused
  md : Bool
  imm : ImmRule := .plain

namespace Fmt

/-- Width in bits of a format code (02 R43); 0 for a reserved code and for TERN T5. -/
def width (c : Nat) : Nat :=
  match c with
  | 0x11 => 8 | 0x12 => 16 | 0x13 => 32 | 0x14 => 64
  | 0x20 => 4 | 0x21 => 8 | 0x22 => 16 | 0x23 => 32 | 0x24 => 64
  | 0x40 => 4 | 0x41 => 6 | 0x42 => 6 | 0x43 => 8 | 0x44 => 8
  | 0x45 => 16 | 0x46 => 16 | 0x47 => 32 | 0x48 => 64
  | _ => 0

/-- Elements per 32-bit register word (02 R44); 1 for the 32 and 64-bit formats. -/
def perWord (c : Nat) : Nat := if width c = 0 then 0 else if width c ≥ 32 then 1 else 32 / width c

/-- SD payload element count (02 R57); 0 where the format may not stand in an SD payload (02 R44). -/
def payload (c : Nat) : Nat :=
  match c with
  | 0x45 => 30 | 0x46 => 30 | 0x43 => 60 | 0x44 => 60 | 0x21 => 60
  | 0x41 => 80 | 0x42 => 80 | 0x40 => 120 | 0x20 => 120 | 0x60 => 300
  | _ => 0

/-- Registers SDENC reads (09 R248). -/
def sdRegs (c : Nat) : Nat :=
  match c with
  | 0x45 => 2 | 0x46 => 2 | 0x43 => 4 | 0x44 => 4 | 0x21 => 4
  | 0x41 => 5 | 0x42 => 5 | 0x40 => 8 | 0x20 => 8 | 0x60 => 19
  | _ => 1

end Fmt

/-- MOD holds nothing outside the mask (06 R148). -/
def mdMask (o : Op) (m : Nat) : Bool := o.md.toNat &&& (2047 - m) == 0

/-- The rounding field is one of 0 to 4 (02 R50); code 4 on a non-conversion is ILLEGAL_FORMAT and is not refused here. -/
def rmOk (o : Op) : Bool := o.md.toNat >>> 8 ≤ 4

def Op.mdBits (o : Op) (hi lo : Nat) : Nat := bits o.md.toNat hi lo
def Op.mdBit (o : Op) (i : Nat) : Bool := bit o.md.toNat i
def Op.immN (o : Op) : Nat := o.imm.toNat

def immMask (o : Op) (m : Nat) : Bool := o.immN &&& (0xFFFFFFFF - m) == 0

namespace SrcRule
def any : SrcRule := .w32 true true true true true
def any64 : SrcRule := .w64 true true true true true
def vslc : SrcRule := .w32 true true true true false
def vsc : SrcRule := .w32 true true false true false
def vsc64 : SrcRule := .w64 true true false true false
def sci : SrcRule := .w32 false true false true true
def sci64 : SrcRule := .w64 false true false true true
def sc64 : SrcRule := .w64 false true false true false
def vsci : SrcRule := .w32 true true false true true
end SrcRule

/-- Registers of a load or store size code (10 R276). -/
def szRegs (c : Nat) : Nat := if c = 5 then 2 else if c = 6 then 4 else 1

/-- The data source of a store of size code `c` (10 R278). -/
def stData (c : Nat) : SrcRule := if c = 6 then .vrun 4 4 else if c = 5 then .vsc64 else .vsc

def vl : DstRule := { v := 1, l := true }
def vl64 : DstRule := { v := 2, al := 2, l := true }
def dNone : DstRule := { n := true }

/-- The scope code of a memory operand's MOD field is defined (14 R360). -/
def scopeOk (c : Nat) : Bool := c ≤ 5

/-- A block word run of a macro-instruction (13 R329). -/
def macroSpec (price w : Nat) (ok : Bool) : OpSpec := { price, cls := .V, chain := false, dst := { v := w, al := 8 }, md := ok }

open SrcRule in
/-- The entry of each mnemonic, given its operand record. -/
def Mn.spec (m : Mn) (o : Op) : OpSpec :=
  match m with
  -- row 0 (08 R201, R205, R211)
  | .nop => { price := 0, cls := .A, chain := true, dst := dNone, md := mdMask o 0 }
  | .bra => { price := 1, cls := .A, chain := false, dst := dNone, md := mdMask o 0, imm := .ext true }
  | .brx | .ret => { price := 1, cls := .A, chain := false, dst := dNone, a := vsc64, md := mdMask o 0 }
  | .call => { price := 1, cls := .A, chain := false, dst := { v := 2, al := 2 }, md := mdMask o 0, imm := .ext true }
  | .callx => { price := 1, cls := .A, chain := false, dst := { v := 2, al := 2 }, a := vsc64, md := mdMask o 0 }
  | .exit | .demote | .kill => { price := 1, cls := .A, chain := false, dst := dNone, md := mdMask o 0 }
  | .yield | .beat => { price := 0, cls := .A, chain := false, dst := dNone, md := mdMask o 0 }
  | .enrol | .strike => { price := 1, cls := .A, chain := false, dst := dNone, md := mdMask o 7 }
  | .park => { price := 1, cls := .V, chain := false, dst := dNone, md := mdMask o 7 }
  -- row 1 (08 R213)
  | .iadd | .isub => { price := 1, cls := .A, chain := true, dst := vl, a := any, b := any, md := mdMask o 3 }
  | .imul => { price := 2, cls := .B, chain := true, dst := vl, a := any, b := any, md := mdMask o 0 }
  | .imulh => { price := 2, cls := .B, chain := true, dst := vl, a := any, b := any, md := mdMask o 1 }
  | .imac => { price := 2, cls := .B, chain := true, dst := vl, a := any, b := any, c := any, md := mdMask o 3 }
  | .imacw => { price := 2, cls := .B, chain := true, dst := vl64, a := any, b := any, c := any64, md := mdMask o 1 }
  | .idiv | .irem => { price := 6, cls := .D, chain := true, dst := vl, a := any, b := any, md := mdMask o 1 }
  | .imin | .imax => { price := 1, cls := .A, chain := true, dst := vl, a := any, b := any, md := mdMask o 1 }
  | .iabs | .ineg => { price := 1, cls := .A, chain := true, dst := vl, a := any, md := mdMask o 2 }
  | .iadd64 | .isub64 => { price := 2, cls := .A, chain := true, dst := vl64, a := any64, b := any64, md := mdMask o 3 }
  | .imul64 => { price := 4, cls := .C, chain := true, dst := vl64, a := any64, b := any64, md := mdMask o 0 }
  | .imac64 => { price := 4, cls := .C, chain := true, dst := vl64, a := any64, b := any64, c := any64, md := mdMask o 0 }
  | .idot4 => { price := 3, cls := .B, chain := true, dst := vl, a := any, b := any, c := any, md := mdMask o 0x23 }
  | .icmp => { price := 1, cls := .A, chain := true, dst := { v := 1, l := true, p := true }, a := any, b := any, md := mdMask o 0x1D && o.mdBits 4 2 ≤ 5 }
  | .icmp64 => { price := 2, cls := .A, chain := true, dst := if o.mdBit 5 then vl64 else { v := 1, l := true, p := true }, a := any64, b := any64, md := mdMask o 0x3D && o.mdBits 4 2 ≤ 5 }
  | .sel => { price := 1, cls := .A, chain := true, dst := if o.mdBit 4 then vl64 else vl, a := if o.mdBit 4 then any64 else any, b := if o.mdBit 4 then any64 else any, md := mdMask o 0x1F }
  | .lea => { price := 1, cls := .A, chain := true, dst := vl64, a := vsc64, b := vslc, md := mdMask o 0xF, imm := .ext true }
  | .bcnt | .lzc | .bitrev => { price := 1, cls := .A, chain := true, dst := vl, a := any, md := mdMask o 0 }
  -- row 2 (08 R218)
  | .and | .or | .xor => { price := 1, cls := .A, chain := true, dst := vl, a := any, b := any, md := mdMask o 0 }
  | .not => { price := 1, cls := .A, chain := true, dst := vl, a := any, md := mdMask o 0 }
  | .logic3 => { price := 1, cls := .A, chain := true, dst := vl, a := any, b := any, c := any, md := mdMask o 0xFF }
  | .shl | .shr | .sar => { price := 1, cls := .A, chain := true, dst := vl, a := any, b := any, md := mdMask o 0 }
  | .rot | .bfe => { price := 1, cls := .A, chain := true, dst := vl, a := any, b := any, md := mdMask o 1 }
  | .shl64 | .shr64 | .sar64 => { price := 2, cls := .A, chain := true, dst := vl64, a := any64, b := any, md := mdMask o 0 }
  | .bfi | .bperm => { price := 1, cls := .A, chain := true, dst := vl, a := any, b := any, c := any, md := mdMask o 0 }
  | .bmsk => { price := 1, cls := .A, chain := true, dst := vl, a := any, md := mdMask o 0 }
  | .shfn => { price := 1, cls := .A, chain := true, dst := vl, a := any, b := any, c := any, md := mdMask o 1 }
  -- row 3 (08 R221 to R229)
  | .plop => { price := 1, cls := .A, chain := true, dst := { p := true }, md := mdMask o 0, imm := .ext (immMask o 0x00FF0777) }
  | .pmov => { price := 1, cls := .A, chain := true, dst := { p := true }, md := mdMask o 0, imm := .ext (immMask o 0xF) }
  | .p2v => { price := 1, cls := .A, chain := true, dst := vl, md := mdMask o 0 }
  | .v2p => { price := 1, cls := .A, chain := true, dst := dNone, a := vslc, md := mdMask o 0, imm := .ext (immMask o 0x7F) }
  | .smov => { price := 1, cls := .A, chain := true, dst := { s := if o.mdBit 2 then 2 else 1 }, a := if o.mdBit 2 then sci64 else sci, md := mdMask o 4 }
  | .siadd => { price := 1, cls := .A, chain := true, dst := { s := if o.mdBit 2 then 2 else 1 }, a := if o.mdBit 2 then sci64 else sci, b := if o.mdBit 2 then sci64 else sci, md := mdMask o 0xC }
  | .simul | .sand | .sor | .sxor | .sshl => { price := 1, cls := .A, chain := true, dst := { s := 1 }, a := sci, b := sci, md := mdMask o 0 }
  | .sshr => { price := 1, cls := .A, chain := true, dst := { s := 1 }, a := sci, b := sci, md := mdMask o 1 }
  | .scmp => { price := 1, cls := .A, chain := true, dst := { s := 1, p := true }, a := sci, b := sci, md := mdMask o 0x1D && o.mdBits 4 2 ≤ 5 }
  | .v2s => { price := 1, cls := .A, chain := true, dst := { s := if o.mdBit 2 then 2 else 1 }, a := if o.mdBit 2 then .vrun 2 2 else .vrun 1 1, b := sci, md := mdMask o 4 }
  | .s2v => { price := 1, cls := .A, chain := true, dst := vl, a := sci, b := sci, md := mdMask o 0 }
  | .srd =>
    let ix := bits o.immN 7 0
    let cp := bits o.immN 10 8
    { price := 1, cls := .A, chain := true,
      dst := if ix = 7 then { v := 2, al := 2, s := 2 } else { v := 1, s := if ix = 0 || ix = 0xA then 0 else 1 }, md := mdMask o 0,
      imm := .ext (immMask o 0x7FF && ix ≤ 0xB && (cp = 0 || (ix = 2 && cp ≤ 2) || (ix = 3 && (cp ≤ 2 || (4 ≤ cp && cp ≤ 6))))) }
  | .swr => { price := 1, cls := .A, chain := false, dst := dNone, a := sci, md := o.md.toNat = 8 || o.md.toNat = 0xB }
  | .segld => { price := 2, cls := .A, chain := false, dst := dNone, a := sc64, b := sc64, md := mdMask o 7 }
  | .segrd => { price := 1, cls := .A, chain := true, dst := { s := 2 }, md := mdMask o 0xF }
  | .flagrd => { price := 1, cls := .A, chain := true, dst := { s := 1 }, md := mdMask o 0 }
  | .flagclr => { price := 1, cls := .A, chain := false, dst := dNone, md := mdMask o 0, imm := .ext (immMask o 0x7F) }
  | .cctlIinv | .cctlTlball => { price := 2, cls := .V, chain := false, dst := dNone, md := mdMask o 3 }
  | .cctlIinvpg | .cctlTlbpg => { price := 2, cls := .V, chain := false, dst := dNone, a := sc64, md := mdMask o 3 }
  -- row 4 (09 R232)
  | .fadd | .fsub | .fmul => { price := 2, cls := .B, chain := true, dst := vl, a := any, b := any, md := mdMask o 0x700 && rmOk o }
  | .fmac => { price := 2, cls := .B, chain := true, dst := vl, a := any, b := any, c := any, md := mdMask o 0x700 && rmOk o }
  | .fmin | .fmax => { price := 2, cls := .B, chain := true, dst := vl, a := any, b := any, md := mdMask o 0 }
  | .fabs | .fneg => { price := 1, cls := .A, chain := true, dst := vl, a := any, md := mdMask o 0 }
  | .fcmp => { price := 2, cls := .B, chain := true, dst := { v := 1, l := true, p := true }, a := any, b := any, md := mdMask o 7 }
  | .fclass => { price := 2, cls := .B, chain := true, dst := { v := 1, l := true, p := true }, a := any, md := mdMask o 0, imm := match o.dst with | .p _ => .ext (immMask o 0x3FF) | _ => .plain }
  | .frnd => { price := 2, cls := .B, chain := true, dst := vl, a := any, md := mdMask o 0x700 && rmOk o }
  | .frcp | .frsq | .fsqrt | .fex2 | .flg2 | .fsin | .fcos | .ftanh => { price := 4, cls := .D, chain := true, dst := vl, a := any, md := mdMask o 0x700 && rmOk o }
  | .fdiv => { price := 8, cls := .D, chain := true, dst := vl, a := any, b := any, md := mdMask o 0x700 && rmOk o }
  | .fdot2 => { price := 3, cls := .B, chain := true, dst := vl, a := any, b := any, c := any, md := mdMask o 0x701 && rmOk o }
  | .fdot4 => { price := 3, cls := .B, chain := true, dst := vl, a := any, b := any, c := any, md := mdMask o 0x703 && rmOk o }
  -- row 5 (09 R240)
  | .dadd | .dsub | .dmul => { price := 4, cls := .C, chain := true, dst := vl64, a := any64, b := any64, md := mdMask o 0x700 && rmOk o }
  | .dmac => { price := 4, cls := .C, chain := true, dst := vl64, a := any64, b := any64, c := any64, md := mdMask o 0x700 && rmOk o }
  | .dmin | .dmax => { price := 4, cls := .C, chain := true, dst := vl64, a := any64, b := any64, md := mdMask o 0 }
  | .dabs | .dneg => { price := 1, cls := .A, chain := true, dst := vl64, a := any64, md := mdMask o 0 }
  | .dcmp => { price := 4, cls := .C, chain := true, dst := if o.mdBit 4 then vl64 else { v := 1, l := true, p := true }, a := any64, b := any64, md := mdMask o 0x17 }
  | .dclass => { price := 4, cls := .C, chain := true, dst := { v := 1, l := true, p := true }, a := any64, md := mdMask o 0, imm := match o.dst with | .p _ => .ext (immMask o 0x3FF) | _ => .plain }
  | .drnd => { price := 4, cls := .C, chain := true, dst := vl64, a := any64, md := mdMask o 0x700 && rmOk o }
  | .drcp | .drsq | .dsqrt => { price := 12, cls := .D, chain := true, dst := vl64, a := any64, md := mdMask o 0x700 && rmOk o }
  | .ddiv => { price := 12, cls := .D, chain := true, dst := vl64, a := any64, b := any64, md := mdMask o 0x700 && rmOk o }
  -- row 6 (09 R241)
  | .hadd2 | .hsub2 | .hmul2 => { price := 2, cls := .B, chain := true, dst := vl, a := any, b := any, md := mdMask o 0x701 && rmOk o }
  | .hmac2 => { price := 2, cls := .B, chain := true, dst := vl, a := any, b := any, c := any, md := mdMask o 0x701 && rmOk o }
  | .hmin2 | .hmax2 => { price := 2, cls := .B, chain := true, dst := vl, a := any, b := any, md := mdMask o 1 }
  | .habs2 | .hneg2 => { price := 1, cls := .A, chain := true, dst := vl, a := any, md := mdMask o 1 }
  | .hcmp2 => { price := 2, cls := .B, chain := true, dst := vl, a := any, b := any, md := mdMask o 0x71 }
  | .hclass2 => { price := 2, cls := .B, chain := true, dst := vl, a := any, md := mdMask o 1 }
  | .hex2 | .hrcp2 => { price := 4, cls := .D, chain := true, dst := vl, a := any, md := mdMask o 0x701 && rmOk o }
  -- row 7 (09 R243 to R250)
  | .cvt | .cvtsat =>
    let df := bits o.immN 7 0
    let sf := bits o.immN 15 8
    { price := 2, cls := .B, chain := true, dst := if Fmt.width df = 64 then vl64 else vl,
      a := if Fmt.width sf = 64 then .w64 true true true true false else vslc,
      c := if o.mdBit 0 then vslc else .unused,
      md := mdMask o 0x701 && rmOk o && !(o.mdBit 0 && Fmt.width df ≥ 32),
      imm := .ext (immMask o 0xFFFFFF && (Fmt.width sf = 0 || bits o.immN 19 16 < Fmt.perWord sf) && (Fmt.width df = 0 || bits o.immN 23 20 < Fmt.perWord df)) }
  | .pack => { price := 2, cls := .B, chain := true, dst := vl, a := .vrun (max 1 (Fmt.perWord (bits o.immN 7 0))) 1, md := mdMask o 0x708 && rmOk o, imm := .ext (immMask o 0xFF) }
  | .unpack => { price := 2, cls := .B, chain := true, dst := { v := max 1 (Fmt.perWord (bits o.immN 7 0)) }, a := vslc, md := mdMask o 0, imm := .ext (immMask o 0xFF) }
  | .sdenc => { price := 6, cls := .C, chain := true, dst := vl, a := .vrun (Fmt.sdRegs (bits o.immN 7 0)) 1, md := mdMask o 0x700 && rmOk o, imm := .ext (immMask o 0xFF) }
  | .sddec => { price := 2, cls := .B, chain := true, dst := { v := max 1 (bits o.immN 4 0) }, a := vslc, md := mdMask o 0x700 && rmOk o, imm := .ext (immMask o 0x1F && 1 ≤ o.immN && o.immN ≤ 19) }
  | .sdhdr => { price := 1, cls := .A, chain := true, dst := vl, a := vslc, md := mdMask o 0, imm := .ext (immMask o 0xFF) }
  | .t5pk => { price := 2, cls := .B, chain := true, dst := vl, a := any, b := any, md := mdMask o 0 }
  | .t5unpk => { price := 2, cls := .B, chain := true, dst := vl64, a := any, md := mdMask o 0 }
  -- row 8 (09 R252 to R256)
  | .lxch => { price := 2, cls := .B, chain := true, dst := vl, a := any, b := any, md := mdMask o 0x73 && o.mdBits 6 4 ≤ 5 }
  | .vote => { price := 2, cls := .B, chain := true, dst := { v := 1, l := true, p := true }, md := mdMask o 3 && o.mdBits 1 0 ≤ 2, imm := .ext (immMask o 0xF) }
  | .ballot => { price := 2, cls := .B, chain := true, dst := vl, md := mdMask o 0, imm := .ext (immMask o 0xF) }
  | .matchl => { price := 2, cls := .B, chain := true, dst := vl, a := if o.mdBit 0 then any64 else any, md := mdMask o 1 }
  | .redux => { price := 4, cls := .C, chain := true, dst := vl, a := any, md := mdMask o 0x70F && o.mdBits 3 0 ≤ 11 && rmOk o && (o.mdBits 3 0 = 9 || o.mdBits 10 8 = 0) }
  | .scan => { price := 4, cls := .C, chain := true, dst := vl, a := any, md := mdMask o 0x71F && o.mdBits 3 0 ≤ 11 && rmOk o && (o.mdBits 3 0 = 9 || o.mdBits 10 8 = 0) }
  | .ddx | .ddy => { price := 2, cls := .B, chain := true, dst := vl, a := any, md := mdMask o 0x700 && rmOk o }
  | .qswz => { price := 2, cls := .B, chain := true, dst := vl, a := vslc, md := mdMask o 0, imm := .ext (immMask o 0xFF) }
  -- row 9 (10 R276 to R281, 14 R374, R379)
  | .ld => { price := 4, cls := .V, chain := false, dst := { v := szRegs (o.mdBits 2 0), al := szRegs (o.mdBits 2 0) }, a := .base true true, md := mdMask o 0x1FF && o.mdBits 2 0 ≤ 6 && o.mdBits 4 3 ≤ 1 && scopeOk (o.mdBits 8 6), imm := .ext true }
  | .st => { price := 4, cls := .V, chain := false, dst := dNone, a := .base true true, b := stData (o.mdBits 2 0), md := mdMask o 0x1FF && o.mdBits 2 0 ≤ 6 && o.mdBits 2 0 ≠ 1 && o.mdBits 2 0 ≠ 3 && o.mdBits 4 3 ≤ 1 && scopeOk (o.mdBits 8 6), imm := .ext true }
  | .lds => { price := 4, cls := .V, chain := false, dst := { v := szRegs (o.mdBits 2 0), al := szRegs (o.mdBits 2 0) }, a := .base false true, md := mdMask o 0x1E7 && o.mdBits 2 0 ≤ 6 && scopeOk (o.mdBits 8 6), imm := .ext true }
  | .sts => { price := 4, cls := .V, chain := false, dst := dNone, a := .base false true, b := stData (o.mdBits 2 0), md := mdMask o 0x1E7 && o.mdBits 2 0 ≤ 6 && o.mdBits 2 0 ≠ 1 && o.mdBits 2 0 ≠ 3 && scopeOk (o.mdBits 8 6), imm := .ext true }
  | .ldc =>
    { price := 4, cls := .V, chain := false,
      dst := { v := szRegs (o.mdBits 2 0), al := szRegs (o.mdBits 2 0), s := if o.mdBits 2 0 = 6 then 0 else szRegs (o.mdBits 2 0) }, a := .base false true,
      md := mdMask o 7 && o.mdBits 2 0 ≤ 6 && (match o.dst, o.a with | .s _, .v _ => false | _, _ => true), imm := .ext true }
  | .ldl => { price := 4, cls := .V, chain := false, dst := { v := szRegs (o.mdBits 2 0), al := szRegs (o.mdBits 2 0) }, a := .base false true, md := mdMask o 7 && o.mdBits 2 0 ≤ 6, imm := .ext true }
  | .stl => { price := 4, cls := .V, chain := false, dst := dNone, a := .base false true, b := stData (o.mdBits 2 0), md := mdMask o 7 && o.mdBits 2 0 ≤ 6 && o.mdBits 2 0 ≠ 1 && o.mdBits 2 0 ≠ 3, imm := .ext true }
  | .gath => { price := 8, cls := .V, chain := false, dst := { v := szRegs (o.mdBits 2 0), al := szRegs (o.mdBits 2 0) }, a := .base true false, b := if o.mdBits 6 5 = 3 then .vrun 2 2 else .vrun 1 1, md := o.mdBits 10 8 ≤ 4 && o.mdBits 4 3 ≤ 2 && o.mdBits 2 0 ≤ 6, imm := .ext true }
  | .scat => { price := 8, cls := .V, chain := false, dst := dNone, a := .base true false, b := if o.mdBits 6 5 = 3 then .vrun 2 2 else .vrun 1 1, c := stData (o.mdBits 2 0), md := o.mdBits 10 8 ≤ 4 && o.mdBits 4 3 ≤ 2 && o.mdBits 2 0 ≤ 6 && o.mdBits 2 0 ≠ 1 && o.mdBits 2 0 ≠ 3, imm := .ext true }
  | .pref => { price := 2, cls := .V, chain := false, dst := dNone, a := .base true false, md := mdMask o 3 && o.mdBits 1 0 ≤ 1, imm := .ext true }
  | .atom => { price := 6, cls := .V, chain := false, dst := if o.mdBit 2 then { v := 2, al := 2 } else { v := 1 }, a := .base true true, b := if o.mdBit 2 then vsc64 else vsc, c := if o.mdBits 10 7 = 9 then (if o.mdBit 2 then vsc64 else vsc) else .unused, md := o.mdBits 10 7 ≤ 14 && scopeOk (o.mdBits 6 4) && o.mdBits 1 0 ≤ 2, imm := .ext true }
  | .red => { price := 6, cls := .V, chain := false, dst := dNone, a := .base true true, b := if o.mdBit 2 then vsc64 else vsc, md := o.mdBits 10 7 ≤ 14 && o.mdBits 10 7 ≠ 8 && o.mdBits 10 7 ≠ 9 && scopeOk (o.mdBits 6 4) && o.mdBits 1 0 ≤ 2, imm := .ext true }
  | .cas128 => { price := 8, cls := .V, chain := false, dst := { v := 4, al := 4 }, a := .base true true, b := .vrun 4 4, c := .vrun 4 4, md := mdMask o 0x7B && scopeOk (o.mdBits 6 4) && o.mdBits 1 0 ≤ 2, imm := .ext true }
  | .fence => { price := 1, cls := .V, chain := false, dst := dNone, md := mdMask o 0x1C3 && scopeOk (o.mdBits 8 6) }
  -- row 10 (11 R286 to R305)
  | .tlrmake => { price := 2, cls := .V, chain := false, dst := { v := 1 }, a := .base true false, md := mdMask o 0x18 && o.mdBits 4 3 ≤ 1, imm := .ext true }
  | .cpy =>
    let dir := o.mdBits 10 8
    { price := 8, cls := .V, chain := false, dst := dNone, a := .w32 true true false false false,
      b := if dir ≤ 1 then vsc else if dir = 4 then .w64 true true false false false else .unused,
      c := if bit o.immN 0 then vsc else .unused, md := dir ≤ 5 && (2 ≤ dir || o.mdBits 3 0 = 0), imm := .ext (immMask o 1) }
  | .cpym => { price := 12, cls := .V, chain := false, dst := dNone, a := .w32 true true false false false, b := vsci, md := mdMask o 0xFF }
  | .cpseal => { price := 1, cls := .A, chain := false, dst := dNone, md := mdMask o 0 }
  | .cpwait => { price := 0, cls := .V, chain := false, dst := { v := 1, n := true }, md := mdMask o 0, imm := .ext (immMask o 0xFF) }
  | .bcinitInit => { price := 1, cls := .V, chain := false, dst := dNone, a := .base false false, md := mdMask o 1, imm := .ext true }
  | .bcinitArm => { price := 1, cls := .V, chain := false, dst := dNone, a := .base false false, b := vsc, md := mdMask o 1, imm := .ext true }
  | .bcwait => { price := 0, cls := .V, chain := false, dst := dNone, a := .base false false, b := vsc, md := mdMask o 0, imm := .ext true }
  | .tilecfg => { price := 1, cls := .A, chain := false, dst := { t := true }, a := sci, b := sci, md := mdMask o 7 }
  | .tilest => { price := 1, cls := .A, chain := true, dst := vl, md := mdMask o 0xF }
  | .tilerd => { price := 4, cls := .V, chain := false, dst := { v := 1 }, a := vsc, md := mdMask o 0xF }
  | .tilewr => { price := 4, cls := .V, chain := false, dst := dNone, a := vsc, b := vsc, md := mdMask o 0x1F }
  | .tilerst => { price := 1, cls := .A, chain := false, dst := dNone, md := mdMask o 0xF }
  -- row 11 (12 R315 to R325)
  | .mma | .mmas => { price := 4, cls := .V, chain := false, dst := { s := 1 }, a := sci, md := mdMask o 0xFF }
  | .ttq => { price := 2, cls := .V, chain := false, dst := dNone, a := .base true true, md := mdMask o 0x18 && o.mdBits 4 3 ≤ 2, imm := .ext true }
  | .ttqClaim => { price := 2, cls := .V, chain := false, dst := { s := 1 }, md := o.md.toNat = 0x20 }
  | .acalloc => { price := 1, cls := .V, chain := false, dst := { s := 1 }, a := sci, md := mdMask o 0 }
  | .acfree => { price := 1, cls := .A, chain := false, dst := dNone, a := sci, md := mdMask o 0 }
  | .acrd => { price := 4, cls := .V, chain := false, dst := { v := 1 }, a := sci, b := if o.mdBit 0 then .unused else vsc, md := mdMask o 1 }
  | .acwr => { price := 4, cls := .V, chain := false, dst := dNone, a := sci, b := vsc, c := vsc, md := mdMask o 0 }
  | .aczero => { price := 2, cls := .V, chain := false, dst := dNone, a := sci, md := mdMask o 0 }
  | .acdrain => { price := 4, cls := .V, chain := false, dst := { t := true }, a := sci, md := mdMask o 0x701 && rmOk o }
  -- row 12 (13 R329)
  | .rast => macroSpec 6 32 (mdMask o 3 && o.mdBits 1 0 ≤ 2)
  | .attr => macroSpec 4 16 (mdMask o 0x700 && rmOk o)
  | .trav => macroSpec 6 32 (mdMask o 0x700 && rmOk o)
  | .filt => macroSpec 6 16 (mdMask o 0x7FF && rmOk o)
  | .oblend => macroSpec 4 16 (mdMask o 0x700 && rmOk o)
  | .dice => macroSpec 8 16 (mdMask o 0x700 && rmOk o)
  | .samps => macroSpec 8 16 (mdMask o 3 && o.mdBits 1 0 ≤ 1)
  | .bmatch => macroSpec 8 16 (mdMask o 0xF)
  -- row 16 (14 R383, R386)
  | .barSync | .barArrive => { price := 1, cls := .V, chain := false, dst := dNone, a := sci, md := mdMask o 0x3F }
  | .evset | .evsetClr => { price := 1, cls := .V, chain := false, dst := dNone, a := vsci, md := mdMask o 1 }
  | .evwait => { price := 0, cls := .V, chain := false, dst := dNone, a := vsci, md := mdMask o 0 }
  | .evtest => { price := 1, cls := .V, chain := false, dst := { v := 1, p := true }, a := vsci, md := mdMask o 0 }
  -- row 17 (15 R391, R395, R402)
  | .cont => { price := 4, cls := .V, chain := false, dst := dNone, a := if o.mdBits 4 0 = 0 then .unused else .vrun (o.mdBits 4 0) 1, b := if o.mdBit 5 then vsc else .unused, md := mdMask o 0x3F && o.mdBits 4 0 ≤ 16, imm := .ext true }
  | .resume => { price := 2, cls := .V, chain := false, dst := { v := 16 }, md := mdMask o 0x1F && o.mdBits 2 0 ≤ 6 && o.mdBits 4 3 ≤ 2 }
  | .wgres => { price := 2, cls := .V, chain := false, dst := { s := 1 }, a := sci, b := .w32 false true false true false, md := mdMask o 1 }
  | .wgcommit => { price := 2, cls := .V, chain := false, dst := dNone, a := sci, b := .vrun 1 1, md := mdMask o 0 }
  | .wgcancel => { price := 1, cls := .V, chain := false, dst := { s := 1 }, a := sci, b := .w32 false true false true false, md := mdMask o 0 }
  -- row 18 (16 R408)
  | .xrd => { price := 1, cls := .V, chain := false, dst := { v := 1 }, a := sci, md := mdMask o 0 }
  | .xwr => { price := 1, cls := .V, chain := false, dst := dNone, a := sci, b := vsci, md := mdMask o 0 && !(o.a = .imm && o.b = .imm) }
  | .eretResume | .eretKill | .eretFdom => { price := 1, cls := .A, chain := false, dst := dNone, md := mdMask o 3 }
  | .trap => { price := 1, cls := .A, chain := false, dst := dNone, md := mdMask o 0, imm := .ext (immMask o 0xFF) }

/-- The kinds and indices a source field may hold (06 R144, R145, R149). -/
def SrcRule.ok (r : SrcRule) (x : Src) : Bool :=
  match r, x with
  | .unused, .v n => n = 0
  | .unused, _ => false
  | .w32 v _ _ _ _, .v _ => v
  | .w32 _ s _ _ _, .s n => s && n.toNat < 24
  | .w32 _ _ l _ _, .latch n => l && n.toNat < 4
  | .w32 _ _ _ c _, .const n => c && n.toNat ≠ 255
  | .w32 _ _ _ _ i, .imm => i
  | .w64 v _ _ _ _, .v n => v && n.toNat % 2 = 0
  | .w64 _ s _ _ _, .s n => s && n.toNat < 24 && n.toNat % 2 = 0
  | .w64 _ _ l _ _, .latch n => l && n.toNat < 4
  | .w64 _ _ _ c _, .const n => c && n.toNat % 2 = 0 && n.toNat ≤ 252
  | .w64 _ _ _ _ i, .imm => i
  | .vrun k al, .v n => n.toNat % al = 0 && n.toNat + k ≤ 256
  | .vrun _ _, _ => false
  | .base w _, .v n => !w || n.toNat % 2 = 0
  | .base w _, .s n => n.toNat < 24 && (!w || n.toNat % 2 = 0)
  | .base w _, .const n => n.toNat ≠ 255 && (!w || (n.toNat % 2 = 0 && n.toNat ≤ 252))
  | .base _ ab, .imm => ab
  | .base _ _, .latch _ => false

/-- A LAST bit may stand on a vector source that the opcode uses (06 R149, R150). -/
def SrcRule.lastOk (r : SrcRule) (x : Src) (last : Bool) : Bool :=
  !last || (match r, x with | .unused, _ => false | _, .v _ => true | _, _ => false)

/-- The destinations an entry allows (06 R146, R149). -/
def DstRule.ok (r : DstRule) (d : Dst) : Bool :=
  match d with
  | .v n => 0 < r.v && n.toNat % r.al = 0 && n.toNat + r.v ≤ 256
  | .s n => 0 < r.s && n.toNat < 24 && n.toNat % r.s = 0
  | .p n => r.p && n.toNat ≠ 7
  | .latch _ => r.l
  | .tile _ => r.t
  | .none => r.n

/-- IMM is encoded as the entry says (06 R149): for an extension no source is the immediate, but for an absolute base. -/
def ImmRule.ok (r : ImmRule) (o : Op) (absA : Bool) : Bool :=
  match r with
  | .plain => o.imm = 0 || o.a = .imm || o.b = .imm || o.c = .imm
  | .ext good => good && (absA || o.a ≠ .imm) && o.b ≠ .imm && o.c ≠ .imm

/-- The destination is a register-file register (06 R143). -/
def Dst.isReg : Dst → Bool
  | .v _ => true
  | .s _ => true
  | .p _ => true
  | _ => false

/-- The control word and guard conditions of 06 R143, R147, R150 that need no state. -/
def ctlOk (sp : OpSpec) (o : Op) : Bool :=
  !(o.gneg && o.gpred = 7) &&
  !(o.ctl.chain && o.ctl.yield) && (!o.ctl.chain || sp.chain) &&
  (!o.ctl.wbs || o.dst.isReg) &&
  !(sp.cls = .V && o.dst.isReg && !o.ctl.wbs && o.ctl.setf.toNat ≥ 12) &&
  sp.a.lastOk o.a o.ctl.lastA && sp.b.lastOk o.b o.ctl.lastB && sp.c.lastOk o.c o.ctl.lastC

/-- Macro-instructions carry a flag and no WBS (13 R329, R331). -/
def Mn.isMacro : Mn → Bool
  | .rast | .attr | .trav | .filt | .oblend | .dice | .samps | .bmatch => true
  | _ => false

/-- The record meets its entry (06 R150). -/
def Mn.wf (m : Mn) (o : Op) : Bool :=
  let sp := m.spec o
  ctlOk sp o && sp.dst.ok o.dst && sp.a.ok o.a && sp.b.ok o.b && sp.c.ok o.c && sp.md &&
  sp.imm.ok o (match sp.a with | .base _ ab => ab | _ => false) &&
  (!m.isMacro || (!o.ctl.wbs && o.ctl.setf.toNat < 12))

/-- A microcode-extensible slot: its number, its control word, and nothing of its operand fields, whose rules its image states (06 R154). -/
def extWf (n : BitVec 7) (o : Op) : Bool :=
  n.toNat < 96 && !(o.gneg && o.gpred = 7) && !o.ctl.chain && !(o.ctl.wbs && !o.dst.isReg) &&
  !(o.dst.isReg && !o.ctl.wbs && o.ctl.setf.toNat ≥ 12) &&
  (!o.ctl.lastA || (match o.a with | .v _ => true | _ => false)) && (!o.ctl.lastB || (match o.b with | .v _ => true | _ => false)) &&
  (!o.ctl.lastC || (match o.c with | .v _ => true | _ => false)) &&
  (match o.a with | .s n => n.toNat < 24 | .latch n => n.toNat < 4 | .const n => n.toNat ≠ 255 | _ => true) &&
  (match o.b with | .s n => n.toNat < 24 | .latch n => n.toNat < 4 | .const n => n.toNat ≠ 255 | _ => true) &&
  (match o.c with | .s n => n.toNat < 24 | .latch n => n.toNat < 4 | .const n => n.toNat ≠ 255 | _ => true) &&
  (match o.dst with | .s n => n.toNat < 24 | .p n => n.toNat ≠ 7 | _ => true)

/-- The value of MOD bits that choose among the rows of one opcode (06 R152): mask and value. -/
def Mn.modSel : Mn → Nat × Nat
  | .cctlIinv => (3, 0) | .cctlIinvpg => (3, 1) | .cctlTlbpg => (3, 2) | .cctlTlball => (3, 3)
  | .bcinitInit => (1, 0) | .bcinitArm => (1, 1)
  | .ttq => (0x20, 0) | .ttqClaim => (0x20, 0x20)
  | .barSync => (3, 0) | .barArrive => (3, 1)
  | .evset => (1, 0) | .evsetClr => (1, 1)
  | .eretResume => (3, 0) | .eretKill => (3, 1) | .eretFdom => (3, 2)
  | _ => (0, 0)

/-- The MOD field names this row of its opcode. -/
def Mn.selOk (m : Mn) (o : Op) : Bool := o.md.toNat &&& m.modSel.1 == m.modSel.2

/-- A well-formed instruction: one whose word the decoder reads and whose record meets its entry. Steps without an instruction word have no encoding to check. -/
def wellFormed (i : Instr) : Bool :=
  match i with
  | .extensibleOpcode n o => extWf n o
  | i =>
    match i.mnOp? with
    | some (m, o) => m.selOk o && m.wf o
    | none => true

end Sys2Proof
end

