-- ==== Sys2Proof/Machine/Records.lean ====
section
/-! DEFINITION. Fields of the records software writes: launch records (01 R30), region control blocks (01 R21), layout records (01 R37), and their checks. -/

namespace Sys2Proof.Machine

/-! ### Launch record (01 R30) -/

def Launch.kind (l : Launch) : Nat := fld l.rcd 0 63 62
def Launch.persist (l : Launch) : Bool := fld l.rcd 0 61 61 == 1
def Launch.quad (l : Launch) : Bool := fld l.rcd 0 60 60 == 1
def Launch.idem (l : Launch) : Bool := fld l.rcd 0 59 59 == 1
def Launch.cover (l : Launch) : Bool := fld l.rcd 0 58 58 == 1
def Launch.progress (l : Launch) : Nat := fld l.rcd 0 47 32
def Launch.ntlr (l : Launch) : Nat := fld l.rcd 0 31 27
def Launch.entry (l : Launch) : Nat := fld l.rcd 1 63 4 * 16
def Launch.gridX (l : Launch) : Nat := fld l.rcd 2 63 40
def Launch.gridY (l : Launch) : Nat := fld l.rcd 2 39 24
def Launch.gridZ (l : Launch) : Nat := fld l.rcd 2 23 8
def Launch.blkX (l : Launch) : Nat := fld l.rcd 3 63 53
def Launch.blkY (l : Launch) : Nat := fld l.rcd 3 52 42
def Launch.blkZ (l : Launch) : Nat := fld l.rcd 3 41 31
def Launch.peak (l : Launch) : Nat := fld l.rcd 3 16 8
def Launch.pword (l : Launch) : Nat := fld l.rcd 4 63 32
def Launch.regg (l : Launch) : Nat := bits l.pword 24 18
def Launch.accg (l : Launch) : Nat := bits l.pword 17 11
def Launch.scrg (l : Launch) : Nat := bits l.pword 10 4
/-- Scratchpad bytes of a block. -/
def Launch.scrBytes (l : Launch) : Nat := fld l.rcd 4 31 16 * 256
def Launch.accb (l : Launch) : Nat := fld l.rcd 4 15 8
def Launch.covrec (l : Launch) : Nat := fld l.rcd 5 63 6 * 64
def Launch.constBase (l : Launch) : Nat := fld l.rcd 6 63 8 * 256
def Launch.tlrBase (l : Launch) : Nat := fld l.rcd 7 63 6 * 64
def Launch.waitMask (l : Launch) : Nat := dw l.rcd 8 + dw l.rcd 9 * 2 ^ 64 + dw l.rcd 10 * 2 ^ 128 + dw l.rcd 11 * 2 ^ 192
def Launch.setMask (l : Launch) : Nat := dw l.rcd 12 + dw l.rcd 13 * 2 ^ 64 + dw l.rcd 14 * 2 ^ 128 + dw l.rcd 15 * 2 ^ 192

/-- Threads of a block. -/
def Launch.threads (l : Launch) : Nat := l.blkX * l.blkY * l.blkZ

/-- Warps of a block. -/
def Launch.warps (l : Launch) : Nat := l.threads / 32

/-- Blocks of a vector launch. -/
def Launch.blockCount (l : Launch) : Nat := if l.kind = 0 then l.gridX * l.gridY * l.gridZ else 0

/-- Block index in X, Y, Z of a linear index, x varying fastest (05 R116). -/
def Launch.blockIdx (l : Launch) (lin : Nat) : Nat × Nat × Nat := (lin % l.gridX, lin / l.gridX % l.gridY, lin / (l.gridX * l.gridY))

/-- Thread index in X, Y, Z of a thread number (07 R167). -/
def Launch.threadIdx (l : Launch) (tid : Nat) : Nat × Nat × Nat :=
  if l.quad then
    let tz := tid / (l.blkX * l.blkY)
    let r := tid % (l.blkX * l.blkY)
    let q := r / 4
    let w := l.blkX / 2
    (2 * (q % w) + r % 2, 2 * (q / w) + r / 2 % 2, tz)
  else (tid % l.blkX, tid / l.blkX % l.blkY, tid / (l.blkX * l.blkY))

/-- The reserved fields of a launch record are zero. -/
def launchRsv (ws : List Nat) : Bool :=
  fld ws 0 57 48 == 0 && fld ws 0 26 0 == 0 && fld ws 1 3 0 == 0 && fld ws 2 7 0 == 0 && fld ws 3 30 17 == 0 && fld ws 3 7 0 == 0 &&
  fld ws 4 63 57 == 0 && fld ws 4 35 32 == 0 && fld ws 4 7 0 == 0 && fld ws 5 5 0 == 0 && fld ws 6 7 0 == 0 && fld ws 7 5 0 == 0

/-- 01 R31. -/
def Launch.valid (l : Launch) : Bool :=
  l.kind ≠ 3 && launchRsv l.rcd &&
  (if l.kind = 0 then
    1 ≤ l.gridX && 1 ≤ l.gridY && 1 ≤ l.gridZ && l.threads % 32 = 0 && 32 ≤ l.threads && l.threads ≤ 1024 && 1 ≤ l.peak && l.peak ≤ 256 && 6 ≤ l.regg
  else
    1 ≤ l.gridX && l.gridY = 0 && l.gridZ = 0 && dw l.rcd 3 = 0 && dw l.rcd 4 = 0 && !l.quad && !l.idem && !l.cover) &&
  (!l.quad || (l.blkX % 2 = 0 && l.blkY % 2 = 0)) &&
  (if l.persist then 1 ≤ l.progress else l.progress = 0) &&
  l.regg % 6 = 0 && l.regg + l.accg + l.scrg ≤ 64 && l.scrBytes ≤ l.scrg * 16384 && l.accb * 4096 ≤ l.accg * 16384 &&
  (!l.cover || (l.kind = 0 && l.covrec ≠ 0))

/-! ### Layout record (01 R37, R38) -/

namespace Tlr
def ndim (t : List Nat) : Nat := fld t 0 63 61
def sd (t : List Nat) : Bool := fld t 0 60 60 == 1
def fmt (t : List Nat) : Nat := fld t 0 59 52
def oob (t : List Nat) : Nat := fld t 0 51 49
def valid (t : List Nat) : Bool := fld t 0 48 48 == 1
def status (t : List Nat) : Nat := fld t 0 47 40
def fill (t : List Nat) : Nat := fld t 0 31 0
def base (t : List Nat) : Nat := dw t 1
/-- Extent of dimension `k`. -/
def ext (t : List Nat) (k : Nat) : Nat :=
  match k with
  | 0 => fld t 2 63 32 | 1 => fld t 2 31 0 | 2 => fld t 3 63 32 | 3 => fld t 3 31 0 | _ => fld t 4 63 32
/-- Box extent minus 1 of dimension `k`. -/
def box (t : List Nat) (k : Nat) : Nat :=
  match k with
  | 0 => fld t 4 31 24 | 1 => fld t 4 23 16 | 2 => fld t 4 15 8 | 3 => fld t 4 7 0 | _ => fld t 7 63 56
/-- Stride of dimension `k` ≥ 1, in 16-byte units. -/
def str (t : List Nat) (k : Nat) : Nat :=
  match k with
  | 1 => fld t 5 63 32 | 2 => fld t 5 31 0 | 3 => fld t 6 63 32 | 4 => fld t 6 31 0 | _ => 0
def mcast (t : List Nat) : Nat := fld t 7 55 40
/-- Element width in bits (11 R285). -/
def width (t : List Nat) : Nat := if sd t then 512 else Fmt.width (fmt t)
/-- Bytes of one box row: RB (11 R285). -/
def rowBytes (t : List Nat) : Nat := (box t 0 + 1) * width t / 8
/-- Rows of the box. -/
def rows (t : List Nat) : Nat := (box t 1 + 1) * (box t 2 + 1) * (box t 3 + 1) * (box t 4 + 1)
/-- BB (11 R285). -/
def boxBytes (t : List Nat) : Nat := rowBytes t * rows t

/-- Floating-point formats among the plain element formats (02 R43). -/
def isFloat (c : Nat) : Bool := 0x40 ≤ c && c ≤ 0x48

/-- The check of 01 R38: 0, or the failure listed first. VALID and STATUS take no part. -/
def check (t : List Nat) : Nat :=
  let n := ndim t
  let dims := [0, 1, 2, 3, 4]
  if n = 0 || 6 ≤ n || dims.any (fun k => n ≤ k && (ext t k ≠ 0 || box t k ≠ 0 || str t k ≠ 0)) then 1
  else if (sd t && fmt t ≠ 0) || (!sd t && Fmt.width (fmt t) = 0) then 2
  else if dims.any (fun k => k < n && ext t k = 0) then 3
  else if dims.any (fun k => k < n && ext t k < box t k + 1) then 4
  else if (box t 0 + 1) * width t % 128 ≠ 0 then 5
  else if 4 ≤ oob t || (oob t = 1 && (sd t || !isFloat (fmt t))) then 6
  else if fld t 0 39 32 ≠ 0 || fld t 7 39 0 ≠ 0 then 7
  else 0

/-- Usable by an instruction (01 R38). -/
def usable (t : List Nat) : Bool := valid t && status t = 0 && check t = 0
end Tlr

/-! ### Region control block (01 R21 to R23) -/

namespace RcbW
def valid (w : List Nat) : Bool := fld w 0 63 63 == 1
def level (w : List Nat) : Nat := fld w 0 62 60
def inherits (w : List Nat) (b : Nat) : Bool := !bit (fld w 0 10 0) b
def parent (w : List Nat) : Nat := fld w 1 63 6 * 64
/-- SPILLLOG lies in range. -/
def spillOk (w : List Nat) : Bool := 12 ≤ fld w 4 5 0 && fld w 4 5 0 ≤ 40
def rsv (w : List Nat) : Bool := fld w 0 43 32 == 0 && fld w 0 31 11 == 0 && fld w 1 5 0 == 0 && fld w 2 39 32 == 0 && fld w 4 11 6 == 0 && fld w 5 11 0 == 0 && dw w 7 == 0
/-- The node's own value of field `b`, numbered as its INHERIT bit. -/
def own (w : List Nat) (b : Nat) : Nat :=
  match b with
  | 0 => fld w 0 59 56
  | 1 => fld w 0 55 48
  | 2 => fld w 0 47 44
  | 3 => fld w 2 63 55
  | 4 => fld w 2 54 40
  | 5 => fld w 2 31 0
  | 6 => fld w 3 63 48
  | 7 => fld w 3 47 32
  | 8 => fld w 3 31 0
  | 9 => dw w 4
  | _ => fld w 5 63 12 * 4096
/-- Fields that take the node's own value as it stands. -/
def asIs (b : Nat) : Bool := b == 1 || b == 2 || b == 9 || b == 10
end RcbW

/-- The effective value of field `b` of the first node of a chain, the named node first and the root last; `base` is the partition's value (01 R23). -/
def effective (b base : Nat) : List (List Nat) → Nat
  | [] => base
  | w :: up => let p := effective b base up
    if RcbW.inherits w b then p else if RcbW.asIs b then RcbW.own w b else min (RcbW.own w b) p

end Sys2Proof.Machine
end

