-- ==== Sys2Proof/Machine/Ops.lean ====
section
/-! DEFINITION. The named operations over the machine: units and their lookups, registers, flags, threads and their releases, the end of threads, blocks and bundles, fault records, and the taking of an exception and the return from it (16 R405 to R411). -/

namespace Sys2Proof.Machine

/-! ### Units -/

def wk (core slot : Nat) : Nat := core * 128 + slot
def sk (core slice : Nat) : Nat := core * 8 + slice
def vk (n lane : Nat) : Nat := n * 32 + lane

/-- The handler warp's slot (16 R404). -/
def handlerSlot : Nat := 96

def Mach.warp (m : Mach) (core slot : Nat) : Warp := m.warps.get (wk core slot) Warp.absent
def Mach.slc (m : Mach) (core slice : Nat) : Slice := m.slices.get (sk core slice) Slice.reset
def Mach.core (m : Mach) (c : Nat) : Core := m.cores.get c Core.reset
def Mach.shard (m : Mach) (s : Nat) : Shard := m.shards.get s Shard.reset
def Mach.part (m : Mach) (p : Nat) : Part := m.parts.get p Part.reset
def Mach.tenant (m : Mach) (t : Nat) : Tenant := m.tenants.get t Tenant.reset

def Mach.modWarp (m : Mach) (core slot : Nat) (f : Warp → Warp) : Mach := { m with warps := m.warps.modify (wk core slot) f }
def Mach.modSlc (m : Mach) (core slice : Nat) (f : Slice → Slice) : Mach := { m with slices := m.slices.set (sk core slice) (f (m.slc core slice)) }
def Mach.modCore (m : Mach) (c : Nat) (f : Core → Core) : Mach := { m with cores := m.cores.set c (f (m.core c)) }
def Mach.modShard (m : Mach) (s : Nat) (f : Shard → Shard) : Mach := { m with shards := m.shards.set s (f (m.shard s)) }
def Mach.modPart (m : Mach) (p : Nat) (f : Part → Part) : Mach := { m with parts := m.parts.set p (f (m.part p)) }
def Mach.modTenant (m : Mach) (t : Nat) (f : Tenant → Tenant) : Mach := { m with tenants := m.tenants.set t (f (m.tenant t)) }
def Mach.modBlock (m : Mach) (b : Nat) (f : Block → Block) : Mach := { m with blocks := m.blocks.modify b f }
def Mach.modBundle (m : Mach) (b : Nat) (f : Bundle → Bundle) : Mach := { m with bundles := m.bundles.modify b f }
def Mach.modLaunch (m : Mach) (b l : Nat) (f : Launch → Launch) : Mach := m.modBundle b (fun x => { x with launches := x.launches.modify l f })

def shardOf (core : Nat) : Nat := core / 16

/-- The partition that owns a core. -/
def Fw.ownerOf (e : Fw) (core : Nat) : Option Nat := (e.parts.find? (fun p => p.2.inUse && bit p.2.cores core)).map Prod.fst

/-- The microcode image that runs on a core: the accepted one once it has been swapped in there (03 R85). -/
def Fw.imageOn (e : Fw) (m : Mach) (core : Nat) : Image :=
  match e.imageNext with
  | some i => if (m.cores.get core Core.reset).swapped then i else e.image
  | none => e.image

/-- The running image defines an extensible slot; the price it states (03 R85; 06 R154). -/
def Image.defines (i : Image) (n : Nat) : Bool := i.slots.toNat.testBit n
def Image.price (i : Image) (n : Nat) : Nat := if i.defines n then i.prices.get n 0 else 0
/-- The price of a step of a slot, as the image states it (07 R195). -/
def Image.step (i : Image) (n : Nat) : Nat := if i.defines n then i.steps.get n 0 else 0

def Fw.part (e : Fw) (p : Nat) : PartCfg := e.parts.get p PartCfg.unused

/-- Cores of a mask, rising. -/
def coresOf (mask : Nat) : List Nat := (List.range 256).filter (fun c => bit mask c)

/-- Entries added to the device error log, an error log of a partition, and the MSI-X signals. -/
def Mach.devLog (m : Mach) (x : List Nat) : Mach := { m with devlog := m.devlog ++ [x] }
def Mach.partLog (m : Mach) (p : Nat) (x : List Nat) : Mach := m.modPart p (fun q => { q with errlog := q.errlog ++ [x] })
def Mach.signal (m : Mach) (tag vector : Nat) : Mach := { m with msi := m.msi ++ [(tag, vector)] }

/-- An effective value of a bundle's RCB (01 R23). -/
def Bundle.eff (b : Bundle) (k : Nat) : Nat := (b.effs.headD []).get k 0

/-- The launch of a block. -/
def Mach.launch? (m : Mach) (b : Block) : Option Launch := (m.bundles.get? b.bundle).bind (fun x => x.launches.get? b.launch)

/-- The block of a warp; none for the handler warp. -/
def Mach.blockOf (m : Mach) (core slot : Nat) : Option Block := if slot = handlerSlot then none else m.blocks.get? (m.warp core slot).blk

/-- The launch of a warp. -/
def Mach.launchOf (m : Mach) (core slot : Nat) : Option Launch := (m.blockOf core slot).bind m.launch?

/-- The tenant tag of a block. -/
def Mach.tagOf (m : Mach) (b : Block) : Nat := ((m.bundles.get? b.bundle).map (·.tag)).getD 0

/-- The slice cycle count of a warp's slice. -/
def Mach.cycOf (m : Mach) (core slot : Nat) : Nat := (m.slc core (m.warp core slot).slice).cyc

/-! ### Registers of a warp (07 R169, R177, R178) -/

def Warp.thread (w : Warp) (l : Nat) : Thread := w.threads.get l Thread.absent
def Warp.modThread (w : Warp) (l : Nat) (f : Thread → Thread) : Warp := { w with threads := w.threads.modify l f }

/-- Vn in a lane: 0 where the live bit is clear (R171, R178). -/
def Warp.vreg (w : Warp) (n l : Nat) : Word := w.v.get (vk n l) 0

/-- Base and limit of a segment (10 R257). -/
def Warp.segment (w : Warp) (n : Nat) : DWord × DWord := w.seg.get n (0, 0)

def Warp.sreg (w : Warp) (n : Nat) : Word := w.s.get n 0

/-- Pn in a lane; P7 is true (06 R147). -/
def Warp.preg (w : Warp) (n l : Nat) : Bool := n = 7 || (w.thread l).preds.toNat.testBit n

def setPred (b : BitVec 7) (n : Nat) (v : Bool) : BitVec 7 := if v then b ||| BitVec.ofNat 7 (2 ^ n) else b &&& ~~~(BitVec.ofNat 7 (2 ^ n))

def Warp.setP (w : Warp) (n l : Nat) (v : Bool) : Warp := w.modThread l (fun t => { t with preds := setPred t.preds n v })

def Warp.setS (w : Warp) (n : Nat) (v : Word) : Warp := { w with s := w.s.set n v }

/-- The name is mapped: a lane of it is live (R177). -/
def Warp.mapped (w : Warp) (n : Nat) : Bool := (List.range 32).any (fun l => w.v.has (vk n l))

/-- Names mapped now. -/
def Warp.mappedCount (w : Warp) : Nat := ((List.range 256).filter w.mapped).length

/-- The names of a list of cells, each once. -/
def namesOf (cells : List (Nat × Nat × Word)) : List Nat := (cells.map (fun c => c.1)).eraseDups

/-- The write-back would map more names than PEAK (R179). -/
def Warp.overPeak (w : Warp) (cells : List (Nat × Nat × Word)) : Bool :=
  w.peak < 256 && w.peak < w.mappedCount + ((namesOf cells).filter (fun n => !w.mapped n)).length

def excInvalid : BitVec 7 := 1
def excDivzero : BitVec 7 := 2
def excOverflow : BitVec 7 := 4
def excUnderflow : BitVec 7 := 8
def excInexact : BitVec 7 := 16
def excSaturation : BitVec 7 := 32
def excClamp : BitVec 7 := 64

/-- Exception bits, both copies (08 R228). -/
def Warp.raiseExc (w : Warp) (b : BitVec 7) : Warp := { w with loc := w.loc ||| b, summary := w.summary ||| b }

/-- Cells of vector registers take their values; past PEAK nothing is written (R179). -/
def Warp.putV (w : Warp) (cells : List (Nat × Nat × Word)) : Warp :=
  if w.overPeak cells then w.raiseExc excInvalid else { w with v := cells.foldl (fun t c => t.set (vk c.1 c.2.1) c.2.2) w.v }

/-- A write-back to vector registers: name, lane, value. Results for EXITED lanes are discarded (R206). -/
def Warp.writeV (w : Warp) (cells : List (Nat × Nat × Word)) : Warp := w.putV (cells.filter (fun c => (w.thread c.2.1).st ≠ .exited))

/-- Results reach the vector registers of a warp. Those of the handler warp, which keep their values between traps, are written after an ERET too (16 R404). -/
def Warp.landV (w : Warp) (slot : Nat) (cells : List (Nat × Nat × Word)) : Warp := if slot = handlerSlot then w.putV cells else w.writeV cells

/-- Results reach a predicate: lane, value. Those for EXITED lanes are discarded (R206). -/
def Warp.landP (w : Warp) (slot n : Nat) (cells : List (Nat × Bool)) : Warp :=
  (cells.filter (fun c => slot = handlerSlot || (w.thread c.1).st ≠ .exited)).foldl (fun w c => w.setP n c.1 c.2) w

/-- A last read clears the live bits of the lanes (R178). -/
def Warp.clearLive (w : Warp) (n : Nat) (ls : List Nat) : Warp := { w with v := ls.foldl (fun t l => t.erase (vk n l)) w.v }

/-- The count of a completion flag (06 R142). -/
def Warp.flagCount (w : Warp) (k : Nat) : Nat := w.flags.get k 0

def Warp.arm (w : Warp) (k : Nat) : Warp := if k < 12 then { w with flags := w.flags.set k (w.flagCount k + 1) } else w

/-- One operation armed on the flag completes (06 R142). -/
def Warp.signalFlag (w : Warp) (k : Nat) : Warp := if k < 12 then { w with flags := w.flags.set k (w.flagCount k - 1) } else w

/-- Lanes have been released from an operation that owes a flag; the flag is signalled with the last of them (08 R211). -/
def Warp.releaseOwed (w : Warp) (ls : Word) : Warp :=
  let upd := w.owes.map (fun o => { o with lanes := o.lanes &&& ~~~ls })
  let done := upd.filter (fun o => o.lanes = 0)
  done.foldl (fun w o => w.signalFlag o.flag) { w with owes := upd.filter (fun o => o.lanes ≠ 0) }

/-- A released thread goes on at an address, with the release cycle as its stamp (R168). -/
def Warp.goTo (w : Warp) (l : Nat) (pc : DWord) (cyc : Nat) : Warp := w.modThread l (fun t => { t with st := .atPc, pc := pc, stamp := cyc })

/-- Lanes released to the instruction after the one they stand at. -/
def Warp.releaseNext (w : Warp) (ls : List Nat) (cyc : Nat) : Warp :=
  (ls.foldl (fun w l => w.goTo l ((w.thread l).pc + 16) cyc) w).releaseOwed (maskOf ls)

/-! ### Rejoin masks (07 R186) -/

def Warp.jmask (w : Warp) (j : Nat) : Word × Word := w.jm.get j (0, 0)

/-- The mask releases its parked threads where E ⊆ A (R186). -/
def Warp.checkJ (w : Warp) (cyc j : Nat) : Warp :=
  let (en, ar) := w.jmask j
  if en &&& ~~~ar = 0 then
    let ls := (List.range 32).filter (fun l => (w.thread l).st = .parked j)
    { (w.releaseNext ls cyc) with jm := w.jm.set j (0, 0) }
  else w

def Warp.checkJs (w : Warp) (cyc : Nat) : Warp := (List.range 8).foldl (fun w j => w.checkJ cyc j) w

/-- STRIKE, EXIT and KILL take lanes out of a mask (R186). -/
def Warp.strike (w : Warp) (j : Nat) (ls : Word) : Warp := { w with jm := w.jm.set j ((w.jmask j).1 &&& ~~~ls, (w.jmask j).2 &&& ~~~ls) }

/-! ### The end of threads (08 R206; 07 R178, R186, R188; 14 R384; 15 R401) -/

/-- Lanes become EXITED: live bits cleared, rejoin masks struck. -/
def Warp.exitLanes (w : Warp) (ls : List Nat) (cyc : Nat) : Warp :=
  let w := { w with v := w.v.filter (fun c => !ls.contains (c.1 % 32)) }
  let w := ls.foldl (fun w l => w.modThread l (fun t => { t with st := .exited, yieldDue := false })) w
  let w := (List.range 8).foldl (fun w j => w.strike j (maskOf ls)) w
  (w.checkJs cyc).releaseOwed (maskOf ls)

/-- A helper ends when its quad holds no thread that is neither helper nor EXITED (07 R188). -/
def Warp.endHelpers (w : Warp) (cyc : Nat) : Warp :=
  let dead := (List.range 8).flatMap (fun k =>
    let q := (List.range 4).map (fun i => 4 * k + i)
    if q.any (fun l => (w.thread l).st ≠ .exited && !(w.thread l).helper) then [] else q.filter (fun l => (w.thread l).st ≠ .exited && (w.thread l).helper))
  if dead = [] then w else w.exitLanes dead cyc

def Warp.allExited (w : Warp) : Bool := w.threads.all (fun t => t.2.st = .exited)

def Warp.flagsClear (w : Warp) : Bool := w.flags.all (fun f => f.2 = 0)

/-- Threads of a block that are not EXITED. -/
def Mach.liveThreads (m : Mach) (b : Nat) : Nat :=
  m.warps.foldl (fun n w => if w.1 % 128 ≠ handlerSlot ∧ w.2.blk = b then n + (w.2.threads.filter (fun t => t.2.st ≠ .exited)).length else n) 0

/-- Applies a function to every warp of a block. -/
def Mach.modWarpsOf (m : Mach) (b : Nat) (f : Nat → Warp → Warp) : Mach :=
  { m with warps := m.warps.map (fun w => if w.1 % 128 ≠ handlerSlot ∧ w.2.blk = b then (w.1, f (m.slc (w.1 / 128) w.2.slice).cyc w.2) else w) }

/-- A barrier's phase completes: the phase inverts, arrivals return to 0, `.sync` members are released (14 R384). -/
def Mach.completeBar (m : Mach) (b n : Nat) : Mach :=
  let m := m.modBlock b (fun k => { k with bars := k.bars.set n (let x := k.bars.get n Bar.reset; { x with arrived := 0, fixed := false, phase := !x.phase }) })
  m.modWarpsOf b (fun cyc w => w.releaseNext ((List.range 32).filter (fun l => match (w.thread l).st with | .blocked (.bar k _) => k == n | _ => false)) cyc)

/-- The expected count of a barrier now: a fixed 0 stands for the threads not EXITED. -/
def Mach.barExpect (m : Mach) (b : Nat) (x : Bar) : Nat := if x.expect = 0 then m.liveThreads b else x.expect

/-- The barriers are evaluated again at an EXIT (14 R384). -/
def Mach.recheckBars (m : Mach) (b : Nat) : Mach :=
  (List.range 16).foldl (fun m n =>
    match (m.blocks.get? b).map (fun k => k.bars.get n Bar.reset) with
    | some x => if x.fixed && x.expect = 0 && m.barExpect b x ≤ x.arrived then m.completeBar b n else m
    | none => m) m

/-- A block's warps have all left, its tile tasks are gone, the copies its CONT records count are done, and none that a save has cancelled is still to be issued again (08 R206; 11 R306; 12 R310; 15 R392). -/
def Mach.blockDone (m : Mach) (b : Nat) : Bool :=
  m.warps.all (fun w => w.1 % 128 = handlerSlot ∨ w.2.blk ≠ b) && m.tasks.all (fun t => t.2.blk ≠ b) &&
  m.copies.all (fun c => !(c.2.blk = some b && c.2.linked.isSome)) && ((m.blocks.get? b).map (fun k => k.reissue.isEmpty)).getD true

/-- The launch has no share left on a core once no block of it is there (05 R110). -/
def Mach.dropShare (m : Mach) (core bundle launch : Nat) : Mach :=
  if m.blocks.any (fun b => b.2.core = core ∧ b.2.bundle = bundle ∧ b.2.launch = launch ∧ (b.2.st = .resident ∨ b.2.st = .saving)) then m
  else m.modCore core (fun c => { c with shares := c.shares.filter (fun s => !(s.bundle = bundle ∧ s.launch = launch)) })

/-- Work has left something in a core's pool (05 R111; 12 R310). -/
def Mach.soil (m : Mach) (core : Nat) : Mach := m.modCore core (fun c => { c with dirty := true })

/-- The key of what a new grant finds: 0 in a pool that a wipe left and nothing has been freed in since (03 R66, R67). -/
def Mach.grantKey (m : Mach) (core : Nat) : Nat := if (m.core core).dirty then m.nextId else 0

/-- A darning pass is due for a block of a covered launch (17 R437, R438). -/
def Mach.addDarn (m : Mach) (b : Block) : Mach :=
  match m.launch? b with
  | some l =>
    if l.cover then
      { m with darns := m.darns.set m.nextId { bundle := b.bundle, launch := b.launch, lin := b.lin, core := b.core, f := b.covf, pos := 0, waitSeq := none, draft := none }, nextId := m.nextId + 1 }
    else m
  | none => m

/-- The virtual address of a block's frame in its save area (16 R418). -/
def Mach.frameAddr (m : Mach) (b : Block) : Nat := (((m.bundles.get? b.bundle).map (fun x => x.eff 10)).getD 0) + 0x1000 + b.frame * 0x800000

/-- The partition of a block. -/
def Mach.partOf (m : Mach) (b : Block) : Nat := ((m.bundles.get? b.bundle).map (·.part)).getD 0

/-- FSTATE of a block's frame is written (16 R419); a header that does not translate is left. -/
def Mach.setFstate (e : Fw) (m : Mach) (b : Block) (v : Nat) : Mach :=
  match readRecord e m (m.partOf b) (m.frameAddr b) 1 with
  | some [d0] => (writeRecord e m (m.partOf b) (m.frameAddr b) [putBits d0 63 62 v]).1
  | _ => m

/-- Once the last block of a launch has exited, the records still in its queues are discarded and counted (15 R398). -/
def Mach.endRecords (m : Mach) (bundle launch : Nat) : Mach :=
  match (m.bundles.get? bundle).bind (fun x => x.launches.get? launch) with
  | some l =>
    if l.live = 0 ∧ l.blockCount ≤ l.next then
      (m.modLaunch bundle launch (fun l => { l with slips := [], wgRecs := [], wg := none })).modBundle bundle
        (fun x => { x with tally := { x.tally with nrecd := x.tally.nrecd + l.slips.length + l.wgRecs.length } })
    else m
  | none => m

/-- A block exits: its frame is freed, its share drops, its pass is due, and with the launch's last block its records are discarded (08 R206; 12 R310; 15 R398; 16 R418). -/
def Mach.exitBlock (e : Fw) (m : Mach) (id : Nat) : Mach :=
  match m.blocks.get? id with
  | none => m
  | some b =>
    let m := m.setFstate e b 0
    let m := m.modBlock id (fun k => { k with st := .exited, tiles := [], bars := [], accs := [], accWait := [], accUse := [], scratch := [] })
    let m := m.modBundle b.bundle (fun x => { x with tally := { x.tally with blocks := x.tally.blocks + 1 } })
    let m := m.modLaunch b.bundle b.launch (fun l => { l with live := l.live - 1 })
    (((m.dropShare b.core b.bundle b.launch).soil b.core).addDarn b).endRecords b.bundle b.launch

/-- A block leaves once nothing of it is left. -/
def Mach.settleBlock (e : Fw) (m : Mach) (b : Nat) : Mach :=
  match m.blocks.get? b with
  | some k => if (k.st = .resident ∨ k.st = .saving) ∧ m.blockDone b then m.exitBlock e b else m
  | none => m

/-- Accesses and operations of a warp that have not ended. -/
def Mach.inFlight (m : Mach) (core slot : Nat) : Bool :=
  m.accesses.any (fun a => a.2.core = core ∧ a.2.members.any (fun x => x.slot = slot)) || m.fences.any (fun o => o.2.core = core ∧ o.2.members.any (fun x => x.slot = slot)) ||
  m.macros.any (fun o => o.2.core = core ∧ o.2.members.any (fun x => x.slot = slot)) || m.mmas.any (fun o => o.2.core = core ∧ o.2.slot = slot)

/-! ### Work-graph slots (15 R401, R402) -/

/-- Waiters of WGRES that the free counts now serve, each node's oldest first; a node's first waiter that does not fit holds back its later ones. -/
def grantWaits : List WgWait → Tab Nat → List Nat → List WgWait × List WgWait × Tab Nat
  | [], f, _ => ([], [], f)
  | w :: r, f, held =>
    if held.contains w.node || f.get w.node 0 < w.k then
      let x := grantWaits r f (w.node :: held)
      (x.1, w :: x.2.1, x.2.2)
    else
      let x := grantWaits r (f.set w.node (f.get w.node 0 - w.k)) held
      (w :: x.1, x.2.1, x.2.2)

/-- A waiting WGRES is granted. -/
def Mach.wgServe (m : Mach) (w : WgWait) : Mach :=
  let cyc := m.cycOf w.core w.slot
  m.modWarp w.core w.slot (fun v =>
    let v := { v with res := v.res.set w.node (v.res.get w.node 0 + w.k) }
    let v := match w.dst with
      | some d => v.setS d (BitVec.ofNat 32 (v.res.get w.node 0))
      | none => v
    v.releaseNext ((List.range 32).filter (fun l => (v.thread l).st = .blocked (.wgres w.id))) cyc)

/-- Every WGRES that can be served is. -/
def Mach.grantWg (m : Mach) (b l : Nat) : Mach :=
  match ((m.bundles.get? b).bind (fun x => x.launches.get? l)).bind (·.wg) with
  | none => m
  | some g =>
    let x := grantWaits g.waits g.free []
    if x.1 = [] then m
    else x.1.foldl Mach.wgServe (m.modLaunch b l (fun y => { y with wg := some { g with waits := x.2.1, free := x.2.2 } }))

/-- A WGRES of a warp that waits has been granted nothing, and leaves the waiters. -/
def Mach.dropWaits (m : Mach) (b l core slot : Nat) : Mach :=
  m.modLaunch b l (fun x => { x with wg := x.wg.map (fun g => { g with waits := g.waits.filter (fun w => w.core ≠ core || w.slot ≠ slot) }) })

/-- The waiting WGRES of a block's warps are gone, and those behind them are looked at again (R402). -/
def Mach.endWaits (m : Mach) (b : Nat) (ws : List (Nat × Nat)) : Mach :=
  match m.blocks.get? b with
  | some k => (ws.foldl (fun m w => m.dropWaits k.bundle k.launch w.1 w.2) m).grantWg k.bundle k.launch
  | none => m

def Wb.isLatch (w : Wb) : Bool := match w.what with
  | .latch .. => true
  | _ => false

/-- Exception bits of a warp whose write-back is still due. -/
def Mach.dueExc (m : Mach) (core slice slot : Nat) : BitVec 7 :=
  (m.slc core slice).wbs.foldl (fun b w => match w.what with
    | .exc x => if w.slot = slot then b ||| x else b
    | _ => b) 0

/-- A warp leaves its slice when its threads are EXITED and its flags clear; its reservations return and its summary joins the bundle's (08 R206; 15 R401; 17 R435). -/
def Mach.settleWarp (e : Fw) (m : Mach) (core slot : Nat) : Mach :=
  match m.warps.get? (wk core slot) with
  | none => m
  | some w =>
    if slot ≠ handlerSlot ∧ w.allExited ∧ w.flagsClear ∧ !w.stopped ∧ !m.inFlight core slot then
      match m.blocks.get? w.blk with
      | none => { m with warps := m.warps.erase (wk core slot) }
      | some b =>
        let exc := w.summary ||| m.dueExc core w.slice slot
        let m := { m with warps := m.warps.erase (wk core slot) }
        let m := m.modSlc core w.slice (fun s => { s with wbs := s.wbs.filter (fun x => x.slot ≠ slot || x.isLatch) })
        let m := m.modBundle b.bundle (fun x => { x with tally := { x.tally with exc := x.tally.exc ||| exc } })
        let m := m.modLaunch b.bundle b.launch (fun l => { l with wg := l.wg.map (fun g =>
          { g with free := w.res.foldl (fun t r => t.set r.1 (t.get r.1 0 + r.2)) g.free }) })
        (m.grantWg b.bundle b.launch).settleBlock e w.blk
    else m

/-- The watchdog's count now (16 R426). -/
def Mach.wdNow (m : Mach) (b : Block) : Nat := b.wdcnt + ((m.shard (shardOf b.core)).cycle - b.wdbase)

/-- A progress event of a block (16 R426). -/
def Mach.progress (m : Mach) (b : Nat) : Mach :=
  m.modBlock b (fun k => { k with wdbase := (m.shard (shardOf k.core)).cycle, wdcnt := 0, wdexp := 0 })

/-- An effect that other agents may see: the block is no longer flushable, and it has made progress (16 R424, R426). -/
def Mach.visible (m : Mach) (b : Nat) : Mach := (m.progress b).modBlock b (fun k => { k with flushable := false })

/-- A completion flag of a warp is signalled, and the warp leaves if that was its last duty. -/
def Mach.signalFlag (e : Fw) (m : Mach) (core slot k : Nat) : Mach := (m.modWarp core slot (fun w => w.signalFlag k)).settleWarp e core slot

/-- A slice gives up its mark, and what was set aside for it goes back to the bank (07 R194; log 87). -/
def Mach.giveUpMark (m : Mach) (core slice : Nat) : Mach :=
  match (m.slc core slice).mark with
  | some k =>
    let m := m.modSlc core slice (fun s => { s with mark := none })
    if k.set then m.modCore core (fun c => { c with bank := c.bank + k.price }) else m
  | none => m

/-- The marks of a core whose threads have ended without issuing are given up (log 87). -/
def Mach.endMarks (m : Mach) (core : Nat) : Mach :=
  (List.range 6).foldl (fun m s => match (m.slc core s).mark with
    | some k => if ((m.warp core k.oldest.slot).thread k.oldest.lane).st = .exited then m.giveUpMark core s else m
    | none => m) m

/-- The executing members' threads end (08 R206). -/
def Mach.exitMembers (e : Fw) (m : Mach) (core slot : Nat) (ls : List Nat) : Mach :=
  let cyc := m.cycOf core slot
  let blk := (m.warp core slot).blk
  let m := (m.modWarp core slot (fun w => (w.exitLanes ls cyc).endHelpers cyc)).endMarks core
  let m := if slot = handlerSlot || !m.warps.has (wk core slot) then m else m.recheckBars blk
  m.settleWarp e core slot

/-- Slots of the warps of a block on its core. -/
def Mach.slotsOf (m : Mach) (b : Nat) : List (Nat × Nat) :=
  (m.warps.filter (fun w => w.1 % 128 ≠ handlerSlot ∧ w.2.blk = b)).map (fun w => (w.1 / 128, w.1 % 128))

/-- A warp's slot leaves the traps of its core; a queued trap that named no other is gone. The descriptor of the one in service stands as it was delivered (16 R406). -/
def Mach.forgetTraps (m : Mach) (core slot : Nat) : Mach :=
  let cut (t : Trap) : Trap := { t with slots := t.slots.filter (· ≠ slot) }
  m.modCore core (fun c => { c with trapq := (c.trapq.map cut).filter (fun t => !t.slots.isEmpty), service := c.service.map (fun v => { v with slots := v.slots.filter (· ≠ slot) }) })

/-- A warp's incomplete instruction is given up: its replay is cancelled, and a flag armed for it is signalled (08 R207). -/
def Warp.dropFault (w : Warp) : Warp :=
  match w.fault with
  | some f => { (if f.flag < 12 && !f.whole && !f.unarmed then w.signalFlag f.flag else w) with fault := none }
  | none => w

/-- Threads of a block's warps end, whatever their state; replays are cancelled, and the block waits for no accumulator storage (08 R207). -/
def Mach.killLanes (m : Mach) (b : Nat) (who : Warp → List Nat) : Mach :=
  let ws := m.slotsOf b
  let m := ws.foldl (fun m w => if (m.warp w.1 w.2).stopped then m.forgetTraps w.1 w.2 else m) m
  let m := m.modWarpsOf b (fun cyc w => { (w.dropFault).exitLanes (who w) cyc with stopped := false })
  let m := m.modBlock b (fun k => { k with accWait := [] })
  (ws.map Prod.fst).eraseDups.foldl Mach.endMarks (m.endWaits b ws)

/-- KILL: every thread of the block becomes EXITED (08 R207). Operations already issued complete. -/
def Mach.killBlock (e : Fw) (m : Mach) (b : Nat) : Mach :=
  let m := (m.killLanes b (fun w => w.threads.map Prod.fst)).modBlock b (fun k => { k with killed := false })
  let m := (m.slotsOf b).foldl (fun m w => m.settleWarp e w.1 w.2) m
  m.settleBlock e b

/-- Place of a slice in its shard's cycle: cores and slices in ascending number (07 R193). -/
def placeOf (core slice : Nat) : Nat := 6 * (core % 16) + slice

/-- A warp's slice has its turn of this core cycle still to come. -/
def Mach.turnAhead (m : Mach) (core : Nat) (w : Warp) : Bool := (m.shard (shardOf core)).turn ≤ placeOf core w.slice

/-- Threads that KILL ends at its issue. In a warp that may still issue in this core cycle those that stand at an instruction do so, as they would on the device at that time; they end with the cycle (08 R207). -/
def Mach.killNow (m : Mach) (core : Nat) (w : Warp) : List Nat :=
  (w.threads.filter (fun t => !(m.turnAhead core w && !w.stopped && w.fault.isNone && decide (t.2.st = .atPc)))).map Prod.fst

/-- A KILL of a block issues (08 R207). -/
def Mach.killIssued (e : Fw) (m : Mach) (b : Nat) : Mach :=
  match m.blocks.get? b with
  | some k =>
    if (m.slotsOf b).all (fun w => ((m.warp w.1 w.2).threads.filter (fun t => t.2.st ≠ .exited)).all (fun t => (m.killNow k.core (m.warp w.1 w.2)).contains t.1)) then m.killBlock e b
    else (m.killLanes b (m.killNow k.core)).modBlock b (fun k => { k with killed := true })
  | none => m

/-- With the core cycle, what is left of the blocks killed in it ends. -/
def Mach.endKilled (e : Fw) (m : Mach) (shard : Nat) : Mach :=
  ((m.blocks.filter (fun b => b.2.killed && shardOf b.2.core = shard)).map Prod.fst).foldl (fun m b => m.killBlock e b) m

/-! ### Completion statuses and the end of a bundle (17 R434; 04 R97; 16 R429) -/

/-- Rank in the status table of 17 R434: the higher stands. -/
def statusRank (s : Nat) : Nat :=
  if s = 0x47 then 6 else if s = 0x28 then 5 else if s = 0x46 then 4 else if s = 0x25 then 3 else if 0x41 ≤ s ∧ s ≤ 0x45 then 2 else if s = 0 then 0 else 1

def joinStatus (a b : Nat) : Nat := if statusRank a < statusRank b then b else a

/-- The tile task leaves its handle's in-flight set. -/
def Mach.leaveAcc (m : Mach) (blk h id : Nat) : Mach :=
  m.modBlock blk (fun b => { b with accs := b.accs.modify h (fun a => { a with inflight := a.inflight.filter (· ≠ id) }) })

/-- The core and slot of a block's warp by its number. -/
def Mach.warpByNum (m : Mach) (blk num : Nat) : Option (Nat × Nat) :=
  (m.warps.find? (fun w => w.1 % 128 ≠ handlerSlot ∧ w.2.blk = blk ∧ w.2.num = num)).map (fun w => (w.1 / 128, w.1 % 128))

/-- A task has left: the flag of its TTQ is signalled with the last task of that issue for that warp (12 R318). -/
def Mach.taskFlag (e : Fw) (m : Mach) (t : Task) : Mach :=
  match t.owner with
  | some (num, k, iss) =>
    if m.tasks.any (fun x => x.2.blk = t.blk ∧ x.2.owner = some (num, k, iss)) then m
    else match m.warpByNum t.blk num with
      | some (core, slot) => m.signalFlag e core slot k
      | none => m
  | none => m

/-- A tile task is ended without effect: its flag is signalled, its readers and its place in the set are released. -/
def Mach.dropTask (e : Fw) (m : Mach) (id : Nat) : Mach :=
  match m.tasks.get? id with
  | none => m
  | some t =>
    let m := { m with tasks := m.tasks.erase id }
    let m := m.leaveAcc t.blk (fld t.rcd 1 51 40) id
    m.taskFlag e t

/-- Nothing further of a launch is placed or requested, and a request being read is given up; matrix records still unclaimed are counted at the bundle's retirement (12 R320). -/
def Launch.close (l : Launch) : Launch := { l with next := l.blockCount, closed := true, taken := if l.kind = 2 then l.gridX else l.taken, reqWait := none, reqDraft := none }

/-- A copy joins its bundle's counts (17 R433). -/
def Mach.tallyCopy (m : Mach) (c : Copy) : Mach :=
  m.modBundle c.bundle (fun b => { b with tally := { b.tally with
    copies := b.tally.copies + 1, refused := b.tally.refused ||| c.status.toNat / 65536, cperr := b.tally.cperr ||| c.status.toNat % 16 } })

/-- A block of a bundle that ends: a resident one as by KILL, with nothing issued again; one that is away is gone. -/
def Mach.endUnit (e : Fw) (m : Mach) (b : Nat) : Mach :=
  match (m.blocks.get? b).map (fun (k : Block) => k.st) with
    | some .resident => (m.modBlock b (fun k => { k with reissue := [] })).killBlock e b
    | some .saving => (m.modBlock b (fun k => { k with reissue := [] })).killBlock e b
    | some .saved => (m.modBlock b (fun k => { k with warps := [], tasks := [], reissue := [], traps := [] })).exitBlock e b
    | some .flushed => m.exitBlock e b
    | _ => m

/-- Every unit of a bundle is ended, but for a block that is `kept` to be saved: blocks as by KILL, copies that have not ended cancelled, tile tasks discarded; nothing further of it is placed, and a launch with no block left gives up its records (04 R97; 15 R398; 16 R427, R429). -/
def Mach.endUnits (e : Fw) (m : Mach) (id status : Nat) (kept : Option Nat) : Mach :=
  let ours (b : Option Nat) : Bool := kept.isSome && b = kept
  let m := m.modBundle id (fun x => { x with status := joinStatus x.status status, launches := x.launches.mapVal Launch.close })
  let m := (m.copies.filter (fun c => c.2.bundle = id && c.2.ended && !ours c.2.blk)).foldl (fun m c => m.tallyCopy c.2) m
  let m := { m with copies := m.copies.filter (fun c => c.2.bundle ≠ id || ours c.2.blk) }
  let m := ((m.tasks.filter (fun t => t.2.bundle = id && !ours (some t.2.blk))).map Prod.fst).foldl (Mach.dropTask e) m
  let m := ((m.blocks.filter (fun b => b.2.bundle = id && !ours (some b.1))).map Prod.fst).foldl (Mach.endUnit e) m
  let m := { m with darns := m.darns.filter (fun d => d.2.bundle ≠ id) }
  (((m.bundles.get? id).map (fun x => x.launches.map Prod.fst)).getD []).foldl (fun m l => m.endRecords id l) m

/-- Every unit of a bundle is ended. -/
def Mach.endBundle (e : Fw) (m : Mach) (id status : Nat) : Mach := m.endUnits e id status none

/-- The effective fault domain of a bundle (16 R428). -/
def Bundle.fdom (b : Bundle) : Nat := b.eff 1

/-- Units of a frozen fault domain do not go on (16 R429). -/
def Mach.frozenB (m : Mach) (b : Nat) : Bool :=
  match m.bundles.get? b with
  | some x => (m.part x.part).frozen.any (fun d => d = 0 || d = x.fdom)
  | none => false

/-- Bundles of a domain that containment ends: domain 0 stands for the whole partition. -/
def Mach.domainBundles (m : Mach) (part dom : Nat) : List Nat :=
  (m.bundles.filter (fun b => b.2.part = part ∧ (b.2.st = .running ∨ b.2.st = .draining) ∧ (dom = 0 ∨ b.2.fdom = dom))).map Prod.fst

/-- Pages an uncorrectable error touched are retired, and their translations invalidated (10 R274; 16 R428): no frame of them is given to a partition again. -/
def Mach.retirePages (m : Mach) : Mach :=
  if m.poison = [] then m
  else
    let frames := m.poison.foldl (fun r g => if r.contains (g / 4096) then r else r ++ [g / 4096]) m.retired
    { m with retired := frames, cores := m.cores.mapVal (fun c => c.dropXl (fun x => frames.any (fun f => x.pa ≤ f * 4096 && f * 4096 < x.pa + 2 ^ x.bits))) }

/-- FUNCMODE bit 5. -/
def Fw.hostContain (e : Fw) : Bool := e.win.funcmode.toNat.testBit 5

/-- Containment of a fault domain (16 R428, R429). FUNCMODE bit 5 chooses the mode. `raiser`: the bundle that raised the event. -/
def Mach.contain (e : Fw) (m : Mach) (part dom raiser : Nat) : Mach :=
  let m := m.retirePages
  if e.hostContain then
    let m := (m.domainBundles part dom).foldl (fun m b =>
      { m with warps := m.warps.map (fun w => if w.1 % 128 ≠ handlerSlot ∧ ((m.blocks.get? w.2.blk).map (·.bundle)) = some b then (w.1, { w.2 with stopped := true }) else w) }) m
    ({ m with fdq := m.fdq ++ [(part, dom, raiser)] }.modPart part (fun p => { p with frozen := dom :: p.frozen })).signal 0 0
  else (m.domainBundles part dom).foldl (fun m b => m.endBundle e b 0x47) m

/-! ### Fault records (10 R271) -/

def faultQueueSize : Nat := 4096

/-- A record is appended, with the partition's next number, unless the ring is full. -/
def Mach.postRecord (m : Mach) (part : Nat) (d : RecDraft) : Mach × Option Nat :=
  let p := m.part part
  if p.faultQ.length < faultQueueSize then
    (m.modPart part (fun p => { p with faultQ := p.faultQ ++ [{ draft := d, seq := p.faultSeq, copied := false }], faultSeq := p.faultSeq + 1 }), some p.faultSeq)
  else (m, none)

/-- Records appended in order; those that find no room stay drafts. -/
def Mach.postRecords (m : Mach) (part : Nat) : List RecDraft → Mach × List Nat × List RecDraft
  | [] => (m, [], [])
  | d :: r =>
    match m.postRecord part d with
    | (m1, some q) => let (m2, qs, ds) := m1.postRecords part r; (m2, q :: qs, ds)
    | (m1, none) => (m1, [], d :: r)

/-- The SEQ is still outstanding. -/
def Mach.pending (m : Mach) (part seq : Nat) : Bool := (m.part part).faultQ.any (fun r => r.seq = seq)

/-! ### Taking an exception (16 R405 to R407) -/

/-- The handler's threads have ended; its registers keep their values, and what they waited in is owed no longer (R404). -/
def Mach.endHandler (m : Mach) (core : Nat) : Mach :=
  (m.modWarp core handlerSlot (fun w => { w.releaseOwed (maskOf (List.range 32)) with threads := w.threads.mapVal (fun t => { t with st := .exited }) })).endMarks core

/-- The service in hand is given up: why and the handler's program counter are logged, and the fault domain of the trap being served is contained as by ERET.fdom (R406, R407). `why`: 407 and a cause, or 406 for a timeout. -/
def Mach.abandonService (e : Fw) (m : Mach) (core : Nat) (why : List Nat) (pc : DWord) : Mach :=
  match (m.core core).service, e.ownerOf core with
  | some sv, some p =>
    let m := m.partLog p (why ++ [pc.toNat])
    let m := m.modCore core (fun c => { c with service := none })
    let m := (m.endHandler core).modWarp core handlerSlot (fun w => { w with fault := none, stopped := false })
    match sv.trap.bundle with
    | some b => m.contain e p (((m.bundles.get? b).map Bundle.fdom).getD 0) b
    | none => m
  | _, _ => m

/-- A trap joins a core's queue: after those of earlier cycles, and within a cycle in ascending slice number (R405). -/
def queueTrap (q : List Trap) (t : Trap) : List Trap := q.filter (fun x => x.at_ ≤ t.at_) ++ t :: q.filter (fun x => t.at_ < x.at_)

/-- The cycle and slice that a trap of a warp is queued by. -/
def Mach.trapAt (m : Mach) (core : Nat) (slots : List Nat) : Nat := (m.shard (shardOf core)).cycle * 8 + (m.warp core (slots.headD 0)).slice

/-- TAKING A TRAP (R405): every warp named becomes stopped and the trap joins its core's queue. The resume program counters stand in the threads: the trapping instruction, the first of a broken chain, or the instruction after TRAP. Raised by the handler warp itself, the cause abandons the service (R407). -/
def Mach.takeTrap (e : Fw) (m : Mach) (core cause swnum : Nat) (tpc : DWord) (execs : List Nat) (slots : List Nat) : Mach :=
  if slots.contains handlerSlot then Mach.abandonService e m core [407, cause] tpc
  else
    let m := slots.foldl (fun m s => m.modWarp core s (fun w => { w with stopped := true })) (if cause = 0x14 then m.retirePages else m)
    m.modCore core (fun c => { c with trapq := queueTrap c.trapq { at_ := m.trapAt core slots, cause, swnum, tpc, members := maskOf execs, slots, bundle := (slots.head?).bind (fun s => (m.blockOf core s).map (·.bundle)) } })

/-! ### The return from an exception (16 R410, R411) -/

/-- One write of XWR takes effect in its target (R409, R410). -/
def Warp.applyXwr (w : Warp) (sel : Word) (lane : Nat) (val : Word) : Warp :=
  let ix := bits sel.toNat 11 0
  match bits sel.toNat 24 22 with
  | 0 => if 256 ≤ ix || w.overPeak [(ix, lane, val)] then w else w.writeV [(ix, lane, val)]
  | 1 =>
    match ix with
    | 0 => w.modThread lane (fun t => { t with pc := (t.pc &&& ~~~(0xFFFFFFFF : DWord)) ||| ((val &&& 0xFFFFFFF0).setWidth 64) })
    | 1 => w.modThread lane (fun t => { t with pc := (t.pc &&& 0xFFFFFFFF) ||| (val.setWidth 64 <<< 32) })
    | 2 => w.modThread lane (fun t => { t with preds := val.setWidth 7 })
    | _ => w
  | 2 =>
    if ix = 0 then { w with faultmask := val }
    else if ix = 2 then { w with loc := (val >>> 8).setWidth 7 }
    else if 22 ≤ ix ∧ ix < 46 then w.setS (ix - 22) val
    else w
  | _ => w

/-- The writes of the service in hand take effect. -/
def Mach.applyXwrs (m : Mach) (core : Nat) (xs : List (Word × Nat × Word)) : Mach :=
  xs.foldl (fun m x =>
    let slot := bits x.1.toNat 31 25
    if (m.warp core slot).stopped then m.modWarp core slot (fun w => w.applyXwr x.1 x.2.1 x.2.2) else m) m

/-- A stopped warp goes on: its threads keep their states and take the resume cycle as their stamp; an instruction that met a per-lane cause is complete when $FAULTMASK is all ones, a yield point after it then being due (08 R209), and replays its other lanes otherwise (R411). -/
def Warp.resume (w : Warp) (cyc : Nat) : Warp :=
  let w := { w with stopped := false, threads := w.threads.mapVal (fun (t : Thread) => if t.st = TState.exited then t else { t with stamp := cyc }) }
  match w.fault with
  | some f =>
    if f.handler then
      let here := (lanesOf f.members).filter (fun l => (w.thread l).pc = f.pc && (w.thread l).st ≠ TState.exited)
      if w.faultmask = 0xFFFFFFFF ∨ here = [] then
        { ((here.foldl (fun (w : Warp) l => (w.goTo l (f.pc + 16) cyc).modThread l (fun t => { t with yieldDue := f.yield })) w).signalFlag f.flag) with fault := none }
      else { w with fault := some { f with members := maskOf here, handler := false } }
    else w
  | none => w

/-- The service ends: XWR effects take hold and the handler warp waits for the next trap (R411). -/
def Mach.endService (m : Mach) (core : Nat) (sv : Service) : Mach :=
  let m := m.applyXwrs core sv.xwr
  (m.modCore core (fun c => { c with service := none })).endHandler core

/-- The trap's stopped instruction met an uncorrectable error (R411). -/
def Mach.trapUncorrectable (t : Trap) : Bool := t.cause = 0x14

/-- The warp's bundle is of a frozen domain (R429). -/
def Mach.frozenAt (m : Mach) (core slot : Nat) : Bool := ((m.blockOf core slot).map (fun b => m.frozenB b.bundle)).getD false

/-- ERET `.resume` (R411). A warp that another queued trap names as well stays stopped for it, and one of a frozen domain for the host's decision. -/
def Mach.eretResume (e : Fw) (m : Mach) (core : Nat) : Mach :=
  match (m.core core).service with
  | none => m
  | some sv =>
    if Mach.trapUncorrectable sv.trap then
      let m := m.endService core sv
      match e.ownerOf core, sv.trap.bundle with
      | some p, some b => m.contain e p (((m.bundles.get? b).map Bundle.fdom).getD 0) b
      | _, _ => m
    else
      let m := m.endService core sv
      let m := sv.slots.foldl (fun m s =>
        if (m.core core).trapq.any (fun t => t.slots.contains s) then m else m.modWarp core s (fun w => if w.stopped then { w.resume (m.cycOf core s) with stopped := m.frozenAt core s } else w)) m
      sv.slots.foldl (fun m s => m.settleWarp e core s) m

/-- ERET `.kill` (R411): every block that holds a stopped warp of the trap ends as by KILL, with status HANDLER_END. -/
def Mach.eretKill (e : Fw) (m : Mach) (core : Nat) : Mach :=
  match (m.core core).service with
  | none => m
  | some sv =>
    let m := m.endService core sv
    let blks := ((sv.slots.filter (fun s => (m.warp core s).stopped)).map (fun s => (m.warp core s).blk)).eraseDups
    blks.foldl (fun m b =>
      let m := match m.blocks.get? b with
        | some k => m.modBundle k.bundle (fun x => { x with status := joinStatus x.status 0x46 })
        | none => m
      m.killIssued e b) m

/-- ERET `.fdom` (R411). -/
def Mach.eretFdom (e : Fw) (m : Mach) (core : Nat) : Mach :=
  match (m.core core).service with
  | none => m
  | some sv =>
    let m := m.endService core sv
    match e.ownerOf core, sv.trap.bundle with
    | some p, some b => m.contain e p (((m.bundles.get? b).map Bundle.fdom).getD 0) b
    | _, _ => m

end Sys2Proof.Machine
end

