-- ==== Sys2Proof/Machine/Flags.lean ====
section
/-! DEFINITION. Exception flags of a group's lanes, condition codes and saturation (00 R14; 08 R214, R217, R228). -/

namespace Sys2Proof.Machine

/-- Condition codes 0 EQ to 5 GE on integers (08 R217). -/
def ccInt (cc : Nat) (a b : Int) : Bool :=
  match cc with
  | 0 => a == b
  | 1 => a != b
  | 2 => a < b
  | 3 => a ≤ b
  | 4 => b < a
  | _ => b ≤ a

/-- ext(v) of 08 R214: unsigned when U is 1. -/
def extW {n : Nat} (u : Bool) (v : BitVec n) : Int := if u then (v.toNat : Int) else v.toInt

/-- sat_s(x, n) with its flag (00 R14). -/
def satS (n : Nat) (x : Int) : Int × BitVec 7 :=
  if x < -(2 ^ (n - 1)) then (-(2 ^ (n - 1)), excSaturation) else if 2 ^ (n - 1) - 1 < x then (2 ^ (n - 1) - 1, excSaturation) else (x, 0)

/-- sat_u(x, n) with its flag (00 R14). -/
def satU (n : Nat) (x : Int) : Int × BitVec 7 :=
  if x < 0 then (0, excSaturation) else if 2 ^ n - 1 < x then (2 ^ n - 1, excSaturation) else (x, 0)

/-- The narrowing of 08 R214: wrapping, or saturating by U. -/
def narrow (n : Nat) (sat u : Bool) (x : Int) : DWord × BitVec 7 :=
  if sat then
    let r := if u then satU n x else satS n x
    (BitVec.ofNat 64 (truncN n r.1), r.2)
  else (BitVec.ofNat 64 (truncN n x), 0)

/-- The OR of the flags of lanes. -/
def orExc (xs : List (BitVec 7)) : BitVec 7 := xs.foldl (· ||| ·) 0

end Sys2Proof.Machine
end

