-- ==== Sys2Proof/Machine/Operands.lean ====
section
/-! DEFINITION. The operands of a group at issue: executing members, source values of every kind and width, and the uniform constants (06 R144, R145, R147; 07 R171; 10 R467). -/

namespace Sys2Proof.Machine

/-- A group at its issue: the state it reads, its instruction, its executing members, and the uniform constants its sources name. -/
structure Grp where
  e : Fw
  m : Mach
  mn : Mn
  o : Op
  core : Nat
  slice : Nat
  pc : DWord
  members : List Member
  /-- slots whose members replay an incomplete instruction (10 R273) -/
  replays : List Nat
  execs : List Member
  consts : Tab Word
  /-- the uniform constants could not be read: values taken from them are not known (10 R467) -/
  unread : Bool
  /-- price of an extensible slot, stated by the running image (06 R154) -/
  slotPrice : Nat := 0
  /-- price of one of its steps (07 R195) -/
  slotStep : Nat := 0
  deriving DecidableEq, Repr

/-- Slots of the warps that have one of the members, rising. -/
def slotsOfMembers (ms : List Member) : List Nat := (List.range 97).filter (fun s => ms.any (fun x => x.slot = s))

/-- Lanes of the members of a slot. -/
def lanesIn (ms : List Member) (slot : Nat) : List Nat := (ms.filter (fun x => x.slot = slot)).map (·.lane)

namespace Grp

def slots (g : Grp) : List Nat := slotsOfMembers g.members
def execSlots (g : Grp) : List Nat := slotsOfMembers g.execs
def warp (g : Grp) (x : Member) : Warp := g.m.warp g.core x.slot
def slc (g : Grp) : Slice := g.m.slc g.core g.slice
def cyc (g : Grp) : Nat := g.slc.cyc
def spec (g : Grp) : OpSpec := g.mn.spec g.o
def blockOf (g : Grp) (x : Member) : Option Block := g.m.blockOf g.core x.slot
def blkId (g : Grp) (x : Member) : Nat := (g.warp x).blk
/-- The launch of the group; none for the handler warp. -/
def launch? (g : Grp) : Option Launch := (g.members.head?).bind (fun x => g.m.launchOf g.core x.slot)
def bundleId (g : Grp) : Nat := (((g.members.head?).bind g.blockOf).map (·.bundle)).getD 0
def launchId (g : Grp) : Nat := (((g.members.head?).bind g.blockOf).map (·.launch)).getD 0
def part (g : Grp) : Nat := (g.e.ownerOf g.core).getD 0
def helper (g : Grp) (x : Member) : Bool := ((g.warp x).thread x.lane).helper
/-- The first executing member: the one a scalar-pipe instruction runs for. -/
def lead (g : Grp) : Member := (g.execs.head?).getD { slot := 0, lane := 0 }

/-- The guard is true for the member (06 R147). -/
def guardOf (m : Mach) (core : Nat) (o : Op) (x : Member) : Bool := xor o.gneg ((m.warp core x.slot).preg o.gpred.toNat x.lane)

/-- A latch's 64 bits in a lane; the latches are clear unless the instruction continues the chain in progress (07 R180). -/
def latch (g : Grp) (n l : Nat) : Option DWord := g.slc.latches.get? (vk n l)

/-- A source read as 32 bits (06 R144). -/
def src32 (g : Grp) (x : Member) (s : Src) : Word :=
  match s with
  | .v n => (g.warp x).vreg n.toNat x.lane
  | .s n => (g.warp x).sreg n.toNat
  | .latch n => ((g.latch n.toNat x.lane).getD 0).setWidth 32
  | .const n => g.consts.get n.toNat 0
  | .imm => g.o.imm

/-- Two words as one 64-bit value, the low word first (06 R145). -/
def pair (lo hi : Word) : DWord := hi ++ lo

/-- A source read as a 64-bit integer operand (06 R145). -/
def src64 (g : Grp) (x : Member) (s : Src) : DWord :=
  match s with
  | .v n => pair ((g.warp x).vreg n.toNat x.lane) ((g.warp x).vreg (n.toNat + 1) x.lane)
  | .s n => pair ((g.warp x).sreg n.toNat) ((g.warp x).sreg (n.toNat + 1))
  | .latch n => (g.latch n.toNat x.lane).getD 0
  | .const n => pair (g.consts.get n.toNat 0) (g.consts.get (n.toNat + 1) 0)
  | .imm => g.o.imm.signExtend 64

/-- The values of these sources are known: none of them is a uniform constant that could not be read. -/
def known (g : Grp) (ss : List Src) : Bool := !g.unread || ss.all (fun s => match s with
  | .const _ => false
  | _ => true)

/-- Causes that rest on the values of these sources: one that is not known gives none (00 R17; 10 R467). -/
def valued (g : Grp) (ss : List Src) (cs : List Nat) : List Nat := if g.known ss then cs else []

def a32 (g : Grp) (x : Member) : Word := g.src32 x g.o.a
def b32 (g : Grp) (x : Member) : Word := g.src32 x g.o.b
def c32 (g : Grp) (x : Member) : Word := g.src32 x g.o.c
def a64 (g : Grp) (x : Member) : DWord := g.src64 x g.o.a
def b64 (g : Grp) (x : Member) : DWord := g.src64 x g.o.b
def c64 (g : Grp) (x : Member) : DWord := g.src64 x g.o.c

end Grp

/-- Registers a source reads from its first (06 R145; 09 R248). -/
def srcRegs : SrcRule → Nat
  | .unused => 0
  | .w32 .. => 1
  | .w64 .. => 2
  | .vrun n _ => n
  | .base w _ => if w then 2 else 1

/-- Constant words a source reads. -/
def srcConsts (r : SrcRule) (s : Src) : List Nat :=
  match s with
  | .const n => (List.range (srcRegs r)).map (fun i => n.toNat + i)
  | _ => []

/-- Latches a source reads. -/
def srcLatches (r : SrcRule) (s : Src) : List Nat :=
  match r, s with
  | .unused, _ => []
  | _, .latch n => [n.toNat]
  | _, _ => []

/-- The outcome of reading the uniform constants of a group (10 R467). -/
inductive ConstRes where
  | ok (t : Tab Word)
  | fault (va cause : Nat)
  | poison
  deriving DecidableEq, Repr

/-- Reads constant words through the const space (06 R144; 10 R467). -/
def readConsts (e : Fw) (core slice part base : Nat) : Mach → List Nat → Tab Word → Mach × ConstRes
  | m, [], t => (m, .ok t)
  | m, n :: r, t =>
    match translate e m core part (base + 4 * n) .load slice with
    | (m1, .err c) => (m1, .fault (base + 4 * n) c)
    | (m1, .ok pa _) => if poisoned m1 pa 4 then (m1, .poison) else readConsts e core slice part base m1 r (t.set n (BitVec.ofNat 32 (memRead m1.mem pa 4)))

/-- The uniform constants of the handler warp, which has no launch (log 17). -/
def handlerConsts (ns : List Nat) : Tab Word := ns.foldl (fun t n => t.set n (Config.handlerConst n)) []

end Sys2Proof.Machine
end

