-- ==== Sys2Proof/Machine/Issue.lean ====
section
/-! DEFINITION. The issue of a group as one instruction: causes, uniform constants, price, flags, chains, program counters, last reads, and the scheduling of write-backs (06 R142, R150, R156; 07 R170 to R193; 10 R467; 16 R405). -/

namespace Sys2Proof.Machine

def causeIllegalOpcode : Nat := 0x01
def causeIllegalFormat : Nat := 0x02
def causePrivileged : Nat := 0x03
def causeScalarDiverged : Nat := 0x04
def causeLatchUnset : Nat := 0x05
def causeDerivNoQuad : Nat := 0x06
def causeSegLimit : Nat := 0x08
def causeSegStraddle : Nat := 0x09
def causeMisaligned : Nat := 0x0A
def causeExtent : Nat := 0x0B
def causeTileNever : Nat := 0x0C
def causeUncorrectable : Nat := 0x14
def causeTlrInvalid : Nat := 0x18
def causeQueueQuota : Nat := 0x20
def causeEmitOverrun : Nat := 0x21
def causeAccCapacity : Nat := 0x24
def causeWatchdog : Nat := 0x28
def causeOverprice : Nat := 0x2C

/-! ### Chains (07 R181 to R183) -/

/-- The slice's chain goes on with this group. -/
def Grp.chain? (g : Grp) : Option Chain :=
  match g.slc.chain with
  | some c => if c.next = g.pc ∧ c.members = g.members then some c else none
  | none => none

/-- Program counter at which members stand after a trap or a constant's fault (R183). -/
def Grp.resumePc (g : Grp) : DWord := match g.chain? with
  | some c => c.first
  | none => g.pc

/-- The slice holds no chain and its latches are clear (R180, R183). A result on its way to a latch is written when it is due all the same. -/
def Slice.endChain (s : Slice) : Slice := { s with chain := none, latches := [] }

/-- A broken chain: its members resume at its first instruction (R183). -/
def Mach.breakChain (m : Mach) (core slice : Nat) : Mach :=
  match (m.slc core slice).chain with
  | none => m
  | some c =>
    let m := c.members.foldl (fun m x => m.modWarp core x.slot (fun w => w.modThread x.lane (fun t => if t.st = .atPc then { t with pc := c.first } else t))) m
    m.modSlc core slice Slice.endChain

/-! ### The scalar pipe (07 R185) -/

def Mn.scalarPipe : Mn → Bool
  | .smov | .siadd | .simul | .sand | .sor | .sxor | .sshl | .sshr | .scmp | .v2s | .srd | .swr | .segld | .segrd | .flagrd | .flagclr
  | .cctlIinv | .cctlIinvpg | .cctlTlbpg | .cctlTlball => true
  | _ => false

/-- Runs on the scalar pipe: by its opcode, or because its destination is Sn. -/
def onScalarPipe (k : Mn) (o : Op) : Bool := Mn.scalarPipe k || (match o.dst with
  | .s _ => true
  | _ => false)

/-- A thread of a warp is absent, or the guard differs among the members; a replay does not read guards again (10 R273). -/
def Grp.diverged (g : Grp) : Bool :=
  g.slots.any (fun s => (g.m.warp g.core s).threads.any (fun t => t.2.st ≠ .exited && !(g.members.contains { slot := s, lane := t.1 }))) ||
  (g.replays.isEmpty && !g.execs.isEmpty && g.execs.length != g.members.length)

/-! ### Causes every instruction may meet -/

/-- A warp that may issue privileged forms: the handler's, or one of a launch firmware submits in its own context, which carries no tenant tag (08 R200). -/
def Grp.privileged (g : Grp) : Bool := g.members.all (fun x => x.slot = handlerSlot || ((g.blockOf x).map (fun b => decide (64 ≤ g.m.tagOf b))).getD false)

/-- The entry's price; of an extensible slot what the image states. -/
def Grp.price (g : Grp) : Nat := g.spec.price + g.slotPrice

def Grp.drawcap (g : Grp) : Nat := (g.m.shard (shardOf g.core)).drawcap.toNat

/-- A latch the group reads is not set in an executing lane (07 R182). -/
def Grp.latchUnset (g : Grp) : Bool :=
  (srcLatches g.spec.a g.o.a ++ srcLatches g.spec.b g.o.b ++ srcLatches g.spec.c g.o.c).any (fun n => g.execs.any (fun x => (g.latch n x.lane).isNone))

/-- CHAIN on the eighth instruction of a chain, or an opcode that may not stand in one (06 R150). -/
def Grp.chainIllegal (g : Grp) : Bool := match g.chain? with
  | some c => (g.o.ctl.chain && 7 ≤ c.count) || !g.spec.chain
  | none => false

/-- The step price of a macro-instruction (06 R156). -/
def stepPrice : Mn → Nat
  | .attr => 1
  | .rast | .filt | .oblend => 2
  | .trav | .dice | .samps => 3
  | .bmatch => 4
  | _ => 0

def Grp.commonCauses (g : Grp) : List Nat :=
  [if g.chainIllegal then causeIllegalOpcode else 0,
   if onScalarPipe g.mn g.o && g.diverged then causeScalarDiverged else 0,
   if g.latchUnset then causeLatchUnset else 0,
   if g.drawcap < g.price || g.drawcap < stepPrice g.mn then causeOverprice else 0]

/-! ### Tokens (07 R191, R193) -/

/-- Nodes of a bundle's chain below the root, as account keys. -/
def Bundle.nodeKeys (b : Bundle) : List Nat := (b.chain.dropLast).map (fun a => a * 16 + b.part)

/-- Accounts of the nodes below the root of a group's launch. -/
def Grp.nodeKeys (g : Grp) : List Nat := if (g.launch?).isNone then [] else ((g.m.bundles.get? g.bundleId).map Bundle.nodeKeys).getD []

/-- The member with the smallest arrival stamp and warp number; of one warp the lowest lane. -/
def Mach.oldestMember (m : Mach) (core : Nat) (ms : List Member) : Option Member :=
  argmin (fun x => (((m.warp core x.slot).thread x.lane).stamp * 128 + x.slot) * 32 + x.lane) ms

/-- The slice's mark stands for a candidate: the same program counter and oldest member (07 R194). -/
def Mark.isFor (k : Mark) (pc : DWord) (oldest : Option Member) : Bool := k.pc = pc && oldest = some k.oldest

/-- The group draws its price: from its set-aside, or from its partition's bank and the accounts below the root (07 R191, R193). A mark ends when the thread it names issues; a set-aside whose candidate has since another oldest member goes back to the bank (log 87). -/
def Grp.pay (g : Grp) (m : Mach) : Mach :=
  let mark := (m.slc g.core g.slice).mark
  let aside : Bool := (mark.map (fun k => k.set && k.isFor g.pc (g.m.oldestMember g.core g.members))).getD false
  let ends : Bool := (mark.map (fun k => g.members.contains k.oldest)).getD false
  let back : Nat := if ends && !aside then (mark.map (fun k => if k.set then k.price else 0)).getD 0 else 0
  let m := if ends then m.modSlc g.core g.slice (fun s => { s with mark := none }) else m
  let m := if back = 0 then m else m.modCore g.core (fun c => { c with bank := c.bank + back })
  if aside || g.price == 0 then m
  else
    let m := m.modCore g.core (fun c => { c with bank := c.bank - g.price })
    m.modShard (shardOf g.core) (fun s => { s with nodes := g.nodeKeys.foldl (fun t k => t.set k (t.get k 0 - g.price)) s.nodes })

/-! ### Write-backs (07 R170 to R172, R180) -/

/-- Queued behind every write-back due no later. -/
def enqueueWb : List Wb → Wb → List Wb
  | [], w => [w]
  | x :: r, w => if w.due < x.due then w :: x :: r else x :: enqueueWb r w

def Mach.addWb (m : Mach) (core slice : Nat) (w : Wb) : Mach := m.modSlc core slice (fun s => { s with wbs := enqueueWb s.wbs w })

def Grp.latency (g : Grp) : Nat := g.spec.cls.latency

/-- Cells a value fills: one register, or a pair. -/
def cellsOf (n lane : Nat) (wide : Bool) (v : DWord) : List (Nat × Nat × Word) :=
  if wide then [(n, lane, v.setWidth 32), (n + 1, lane, (v >>> 32).setWidth 32)] else [(n, lane, v.setWidth 32)]

/-- Adds a write-back of a warp at the class latency. -/
def Grp.wbAt (g : Grp) (m : Mach) (slot : Nat) (w : WbWhat) : Mach := m.addWb g.core g.slice { due := g.cyc + g.latency, slot, what := w }

/-- Slice cycles until the result is written: two fewer for a latch, and never fewer than one (07 R180). -/
def Grp.resultLatency (g : Grp) : Nat := match g.o.dst with
  | .latch _ => max 1 (g.latency - 2)
  | _ => g.latency

/-- The exception bits of the group's lanes, warp by warp, at the write-back of its result (08 R228). -/
def Grp.wbExc (g : Grp) (m : Mach) (f : Member → BitVec 7) : Mach :=
  g.execSlots.foldl (fun m s =>
    let b := orExc ((g.execs.filter (fun x => x.slot = s)).map f)
    if b = 0 then m else m.addWb g.core g.slice { due := g.cyc + g.resultLatency, slot := s, what := .exc b }) m

/-- Results of fixed latency, one value per executing lane, to the destination (06 R146; 07 R170, R180). A P destination takes whether the value is nonzero. -/
def Grp.wbLanes (g : Grp) (m : Mach) (wide : Bool) (f : Member → DWord) : Mach :=
  if g.o.ctl.wbs then m
  else match g.o.dst with
  | .v n => g.execSlots.foldl (fun m s => g.wbAt m s (.v ((g.execs.filter (fun x => x.slot = s)).flatMap (fun x => cellsOf n.toNat x.lane wide (f x))))) m
  | .p n => g.execSlots.foldl (fun m s => g.wbAt m s (.p n.toNat ((g.execs.filter (fun x => x.slot = s)).map (fun x => (x.lane, f x != 0))))) m
  | .latch n =>
    let cells := g.execs.map (fun x => (x.lane, if wide then f x else ((f x).setWidth 32).setWidth 64))
    m.addWb g.core g.slice { due := g.cyc + g.resultLatency, slot := (g.lead).slot, what := .latch n.toNat cells }
  | _ => m

/-- Results that fill a run of registers in each executing lane. -/
def Grp.wbRun (g : Grp) (m : Mach) (n : Nat) (f : Member → List Word) : Mach :=
  if g.o.ctl.wbs then m
  else g.execSlots.foldl (fun m s => g.wbAt m s (.v ((g.execs.filter (fun x => x.slot = s)).flatMap (fun x => (f x).mapIdx (fun i v => (n + i, x.lane, v)))))) m

/-- A scalar result, once for the warp (07 R185; 08 R222). -/
def Grp.wbScalar (g : Grp) (m : Mach) (wide : Bool) (v : DWord) : Mach :=
  if g.o.ctl.wbs || g.execs.isEmpty then m
  else match g.o.dst with
  | .s n => g.wbAt m (g.lead).slot (.s (if wide then [(n.toNat, v.setWidth 32), (n.toNat + 1, (v >>> 32).setWidth 32)] else [(n.toNat, v.setWidth 32)]))
  | _ => m

/-- A write-back takes place (07 R171, R172, R178; 08 R228). -/
def Mach.applyWb (e : Fw) (m : Mach) (core slice : Nat) (w : Wb) : Mach :=
  match w.what with
  | .v cells => m.modWarp core w.slot (fun x => x.landV w.slot cells)
  | .s cells => m.modWarp core w.slot (fun x => cells.foldl (fun x c => x.setS c.1 c.2) x)
  | .p n cells => m.modWarp core w.slot (fun x => x.landP w.slot n cells)
  | .latch n cells => m.modSlc core slice (fun s => { s with latches := cells.foldl (fun t c => t.set (vk n c.1) c.2) s.latches })
  | .exc b => (m.modWarp core w.slot (fun x => x.raiseExc b)).modSlc core slice (fun s => { s with newExc := s.newExc.set w.slot (s.newExc.get w.slot 0 ||| b) })
  | .flag k => m.signalFlag e core w.slot k

/-- Every write-back due by the slice's cycle takes place, in order. -/
def Mach.applyWbs (e : Fw) (m : Mach) (core slice : Nat) : Mach :=
  let s := m.slc core slice
  let due := s.wbs.filter (fun w => w.due ≤ s.cyc)
  due.foldl (fun m w => m.applyWb e core slice w) (m.modSlc core slice (fun s => { s with wbs := s.wbs.filter (fun w => s.cyc < w.due) }))

/-! ### Last reads (07 R178, R183) -/

/-- Registers a last read frees: slot, name, lanes. -/
def Grp.lastReads (g : Grp) (lanes : Nat → List Nat) : List (Nat × Nat × Word) :=
  let one (last : Bool) (r : SrcRule) (s : Src) : List Nat := match last, s with
    | true, .v n => (List.range (srcRegs r)).map (fun i => n.toNat + i)
    | _, _ => []
  let ns := one g.o.ctl.lastA g.spec.a g.o.a ++ one g.o.ctl.lastB g.spec.b g.o.b ++ one g.o.ctl.lastC g.spec.c g.o.c
  g.execSlots.flatMap (fun s => ns.map (fun n => (s, n, maskOf (lanes s))))

def Mach.clearReads (m : Mach) (core : Nat) (xs : List (Nat × Nat × Word)) : Mach :=
  xs.foldl (fun m x => m.modWarp core x.1 (fun w => w.clearLive x.2.1 (lanesOf x.2.2))) m

/-! ### Taking a trap at issue, and a constant's fault (16 R405; 10 R467) -/

/-- A cause checked at issue: nothing of the instruction takes effect, every warp with a member stops, a chain in progress is broken. -/
def Grp.trap (g : Grp) (m : Mach) (cause : Nat) : Mach :=
  let m := if (g.chain?).isSome then m.breakChain g.core g.slice else m
  Mach.takeTrap g.e m g.core cause 0 g.pc (g.execs.map (·.lane)) g.slots

/-- What a warp waits with: `f`, for lanes that have issued now, joined to the record of lanes that a replay has left out; one flag is owed for both (10 R273). -/
def Warp.await (w : Warp) (f : FaultRec) : Warp :=
  match w.fault with
  | none => { w with fault := some f }
  | some o => { (if o.unarmed then w else w.signalFlag f.flag) with fault := some { f with
      members := f.members ||| o.members, execs := f.execs ||| o.execs, seqs := o.seqs ++ f.seqs, drafts := o.drafts ++ f.drafts, all := f.all ||| o.all } }

/-- Fault-wait of lanes of a warp at an address, with the records of their instruction (10 R270, R467). A full record queue leaves the rest as drafts. -/
def Mach.faultWait (m : Mach) (core slot part : Nat) (ls : List Nat) (f : FaultRec) (drafts : List RecDraft) : Mach :=
  let (m, qs, ds) := m.postRecords part drafts
  m.modWarp core slot (fun w =>
    (ls.foldl (fun w l => w.modThread l (fun t => { t with st := .faultWait, pc := f.pc, yieldDue := false })) w).await { f with seqs := f.seqs ++ qs, drafts := f.drafts ++ ds })

/-- $FAULTMASK once lanes `bad` of those that executed have still to be done: a replay's bits are ORed into it (10 R270, R273). -/
def Warp.settleMask (w : Warp) (replay : Bool) (execs bad : Word) : Warp := { w with faultmask := if replay then (w.faultmask ||| execs) &&& ~~~bad else ~~~bad }

/-- The record a replaying warp waits with. -/
def Grp.recOf? (g : Grp) (slot : Nat) : Option FaultRec := if g.replays.contains slot then (g.m.warp g.core slot).fault else none

/-- What a warp waits with when a uniform constant does not translate: the instruction for its executing lanes, its flag not armed, or its whole chain; met in a replay, the instruction that it replays (10 R273, R467). -/
def Grp.constRec (g : Grp) (slot : Nat) : FaultRec :=
  match g.recOf? slot with
  | some f => f
  | none =>
    { pc := g.resumePc, members := maskOf (lanesIn g.members slot), execs := maskOf (lanesIn g.execs slot), flag := 15, whole := (g.chain?).isSome, handler := false, uncorrectable := false,
      seqs := [], drafts := [], stash := [], unarmed := true, all := maskOf (lanesIn g.members slot) }

/-- A uniform constant does not translate (10 R467). -/
def Grp.constFault (g : Grp) (m : Mach) (va cause : Nat) : Mach :=
  let tag := ((((g.members.head?).bind g.blockOf)).map g.m.tagOf).getD 0
  let m := if (g.chain?).isSome then m.breakChain g.core g.slice else m
  g.execSlots.foldl (fun m s =>
    let ls := maskOf (lanesIn g.execs s)
    let m := m.modWarp g.core s (fun w => { w.settleMask (g.replays.contains s) 0 ls with fault := none })
    m.faultWait g.core s g.part (lanesIn g.members s) (g.constRec s) [{ page := va / 4096, cause, kind := 0, core := g.core, wslot := s, lanes := ls, tag }]) m

/-! ### The group issues -/

/-- What a replaying warp still waits with: lanes that the group has not taken (07 R174; 10 R273). -/
def Grp.leftRec (g : Grp) (slot : Nat) : Option FaultRec :=
  (g.recOf? slot).bind (fun f => let ls := f.members &&& ~~~maskOf (lanesIn g.members slot); if ls = 0 then none else some { f with members := ls })

/-- A warp's SETF is armed: by an issue that is no replay, by the replay of one that could not issue, and once more where a replay leaves lanes out, whose part of the instruction signals it too (10 R273, R467). -/
def Grp.arms (g : Grp) (slot : Nat) : Bool := match g.recOf? slot with
  | some f => f.unarmed || (g.leftRec slot).isSome
  | none => true

/-- A replay takes up what its warp waited with: its lanes' bits are ORed into $FAULTMASK (10 R273). -/
def Grp.takeUp (g : Grp) (slot : Nat) (w : Warp) : Warp := { w with fault := g.leftRec slot, faultmask := w.faultmask ||| maskOf (lanesIn g.execs slot) }

/-- Effects of issue common to every instruction that does not trap: the price is drawn, SETF armed once in each warp with a member, the chain goes on or ends, a replay takes up what its warp waited with, every member's program counter and stamp advance (07 R176, R180, R181, R193; 10 R273). -/
def Grp.commit (g : Grp) (m : Mach) : Mach :=
  let m := g.pay m
  let m := (g.slots.filter g.arms).foldl (fun m s => m.modWarp g.core s (fun w => w.arm g.o.ctl.setf.toNat)) m
  let m := if g.spec.cls = .V ∨ 12 ≤ g.o.ctl.setf.toNat then m else g.slots.foldl (fun m s => g.wbAt m s (.flag g.o.ctl.setf.toNat)) m
  let m := match g.chain?, g.o.ctl.chain with
    | some c, true => m.modSlc g.core g.slice (fun s => { s with chain := some { c with next := g.pc + 16, count := c.count + 1 } })
    | some _, false => m.modSlc g.core g.slice (fun s => { s with chain := none })
    | none, true => m.modSlc g.core g.slice (fun s => { s.endChain with chain := some { first := g.pc, next := g.pc + 16, members := g.members, count := 1, clears := [] } })
    | none, false => m.modSlc g.core g.slice Slice.endChain
  let m := g.replays.foldl (fun m s => m.modWarp g.core s (g.takeUp s)) m
  g.members.foldl (fun m x => m.modWarp g.core x.slot (fun w => w.modThread x.lane (fun t =>
    { t with pc := g.pc + 16, st := .atPc, lastIssue := g.cyc, stamp := g.cyc + 1, yieldDue := g.o.ctl.yield }))) m

/-- Last reads of the lanes given take effect, or are held until the chain's last instruction issues (07 R178, R183). -/
def Grp.freeReads (g : Grp) (lanes : Nat → List Nat) (m : Mach) : Mach :=
  let now := g.lastReads lanes
  match g.chain?, g.o.ctl.chain with
  | none, false => m.clearReads g.core now
  | some c, false => m.clearReads g.core (c.clears ++ now)
  | _, true => m.modSlc g.core g.slice (fun s => { s with chain := s.chain.map (fun k => { k with clears := k.clears ++ now }) })

def Grp.execLanes (g : Grp) (slot : Nat) : List Nat := lanesIn g.execs slot

/-- The group of a state's selection, for one instruction. The latches are clear unless the chain goes on (07 R180). -/
def groupOf (s : State) (k : Mn) (o : Op) : Grp :=
  let x := s.m.sel
  let cont : Bool := match (s.m.slc x.core x.slice).chain with
    | some c => decide (c.next = x.pc ∧ c.members = x.members)
    | none => false
  let m := if cont then s.m else s.m.modSlc x.core x.slice Slice.endChain
  let execs := x.members.filter (fun y => if x.replays.contains y.slot then !(laneBit (m.warp x.core y.slot).faultmask y.lane) else Grp.guardOf m x.core o y)
  { e := s.fw, m, mn := k, o, core := x.core, slice := x.slice, pc := x.pc, members := x.members, replays := x.replays, execs, consts := [], unread := false }

/-- The lowest cause the group meets at issue; 0: none (00 R17). -/
def Grp.cause (g : Grp) (own : Grp → List Nat) : Nat := minCause (g.commonCauses ++ own g)

/-- Words of the constants that the sources name. -/
def Grp.constNames (g : Grp) : List Nat := (srcConsts g.spec.a g.o.a ++ srcConsts g.spec.b g.o.b ++ srcConsts g.spec.c g.o.c).eraseDups

/-- The uniform constants are read when the operands are fetched (10 R467); with no executing member nothing is fetched. -/
def Grp.fetchConsts (g : Grp) (m : Mach) : Mach × ConstRes :=
  if g.execs.isEmpty then (m, .ok [])
  else match g.launch? with
    | none => (m, .ok (handlerConsts g.constNames))
    | some l => readConsts g.e g.core g.slice g.part l.constBase m g.constNames []

/-- The group with the constants it has read, or marked as not having read them. -/
def Grp.withConsts (g : Grp) : ConstRes → Grp
  | .ok t => { g with consts := t }
  | _ => { g with unread := true }

/-- A GROUP ISSUES: the causes checked at issue compete by lowest code, those too that a constant which could not be read leaves decided; then a constant that does not translate waits; otherwise the common effects and the instruction's own effect take place. `own` gives the entry's causes, `eff` its effect on the committed state; both read operands from `g.m`. A group whose constant does not translate has drawn its price, for which R467 has it drawn again; one whose constant meets an uncorrectable error has too, which is the model's choice (log 105). -/
def issueWith (k : Mn) (o : Op) (own : Grp → List Nat) (eff : Grp → Mach → Mach) (s : State) : State :=
  let g := groupOf s k o
  let r := g.fetchConsts g.m
  let gc := g.withConsts r.2
  let c := gc.cause own
  if c ≠ 0 then { s with m := gc.trap g.m c }
  else match r.2 with
    | .fault va cause => { s with m := gc.constFault (gc.pay r.1) va cause }
    | .poison => { s with m := Mach.takeTrap g.e ((gc.pay r.1).breakChain g.core g.slice) g.core causeUncorrectable 0 g.pc (g.execs.map (·.lane)) g.execSlots }
    | .ok _ => { s with m := eff gc (gc.commit r.1) }

/-- An instruction with results of fixed latency: a value and flags in each executing lane. -/
def laneOp (k : Mn) (o : Op) (own : Grp → List Nat) (wide : Bool) (f : Grp → Member → DWord × BitVec 7) (s : State) : State :=
  issueWith k o own (fun g m =>
    let m := g.wbExc m (fun x => (f g x).2)
    g.freeReads g.execLanes (g.wbLanes m wide (fun x => (f g x).1))) s

/-- A scalar-pipe instruction with a scalar result. -/
def scalarOp (k : Mn) (o : Op) (own : Grp → List Nat) (wide : Bool) (f : Grp → DWord) (s : State) : State :=
  issueWith k o own (fun g m => g.freeReads g.execLanes (g.wbScalar m wide (f g))) s

/-- No cause of its own. -/
def noCauses : Grp → List Nat := fun _ => []

/-- The form is privileged (08 R200). -/
def privCause (g : Grp) : List Nat := [if g.privileged then 0 else causePrivileged]

end Sys2Proof.Machine
end

