-- ==== Sys2Proof/Machine/Control.lean ====
section
/-! DEFINITION. Row 0: control transfer, the end of threads, yield points, progress and rejoin masks (08 R201 to R211). -/

namespace Sys2Proof.Machine

/-- Executing members go to addresses of their own (R202). -/
def Grp.setPcs (g : Grp) (m : Mach) (f : Member → DWord) : Mach :=
  g.execs.foldl (fun m x => m.modWarp g.core x.slot (fun w => w.modThread x.lane (fun t => { t with pc := f x }))) m

/-- Target of a relative transfer (R202). -/
def Grp.relTarget (g : Grp) : DWord := g.pc + 16 + 16 * g.o.imm.signExtend 64

/-- Target of an indirect transfer in a lane (R202). -/
def Grp.absTarget (g : Grp) (x : Member) : DWord := g.a64 x &&& ~~~(15 : DWord)

/-- The number of a rejoin mask (R211). -/
def Grp.jn (g : Grp) : Nat := g.o.mdBits 2 0

/-- Threads of the executing members end (R206). -/
def Grp.exitExecs (g : Grp) (m : Mach) : Mach := g.execSlots.foldl (fun m s => m.exitMembers g.e g.core s (g.execLanes s)) m

/-- Blocks of members, each once; the handler warp has none. -/
def Grp.blocksOf (g : Grp) (ms : List Member) : List Nat := ((ms.filter (fun x => x.slot ≠ handlerSlot)).map g.blkId).eraseDups

def execNop (o : Op) (s : State) : Host.Outcome State Fault Refusal := .next (issueWith .nop o noCauses (fun g m => g.freeReads g.execLanes m) s)

def execBra (o : Op) (s : State) : Host.Outcome State Fault Refusal := .next (issueWith .bra o noCauses (fun g m => g.setPcs m (fun _ => g.relTarget)) s)

def execBrx (o : Op) (s : State) : Host.Outcome State Fault Refusal :=
  .next (issueWith .brx o noCauses (fun g m => g.freeReads g.execLanes (g.setPcs m g.absTarget)) s)

def execCall (o : Op) (s : State) : Host.Outcome State Fault Refusal :=
  .next (issueWith .call o noCauses (fun g m => g.setPcs (g.wbLanes m true (fun _ => g.pc + 16)) (fun _ => g.relTarget)) s)

def execCallx (o : Op) (s : State) : Host.Outcome State Fault Refusal :=
  .next (issueWith .callx o noCauses (fun g m => g.freeReads g.execLanes (g.setPcs (g.wbLanes m true (fun _ => g.pc + 16)) g.absTarget)) s)

/-- RET is BRX (R202). -/
def execRet (o : Op) (s : State) : Host.Outcome State Fault Refusal :=
  .next (issueWith .ret o noCauses (fun g m => g.freeReads g.execLanes (g.setPcs m g.absTarget)) s)

def execExit (o : Op) (s : State) : Host.Outcome State Fault Refusal := .next (issueWith .exit o noCauses Grp.exitExecs s)

/-- A member blocks at a yield point while $PREEMPT of its block is set (R209). -/
def Grp.yieldAt (g : Grp) (m : Mach) : Mach :=
  g.execs.foldl (fun m x =>
    if ((g.blockOf x).map (·.preempt)).getD false then m.modWarp g.core x.slot (fun w => w.modThread x.lane (fun t => { t with st := .blocked .yieldPoint, yieldDue := false })) else m) m

def execYield (o : Op) (s : State) : Host.Outcome State Fault Refusal := .next (issueWith .yield o noCauses Grp.yieldAt s)

/-- R210: a progress event of each block with an executing member that is no helper. -/
def execBeat (o : Op) (s : State) : Host.Outcome State Fault Refusal :=
  .next (issueWith .beat o noCauses (fun g m => (g.blocksOf (g.execs.filter (fun x => !g.helper x))).foldl Mach.progress m) s)

/-- Enrols lanes in a mask (07 R186). -/
def Warp.enrol (w : Warp) (j : Nat) (ls : Word) : Warp := { w with jm := w.jm.set j ((w.jmask j).1 ||| ls, (w.jmask j).2) }

def execEnrol (o : Op) (s : State) : Host.Outcome State Fault Refusal :=
  .next (issueWith .enrol o noCauses (fun g m =>
    g.execSlots.foldl (fun m s => m.modWarp g.core s (fun w => (w.enrol g.jn (maskOf (g.execLanes s))).checkJ g.cyc g.jn)) m) s)

/-- Lanes arrive at a mask and park (07 R186); the mask's flag is owed until they are released (R211). -/
def Warp.park (w : Warp) (j : Nat) (ls : List Nat) (flag : Nat) (pc : DWord) (cyc : Nat) : Warp :=
  let w := ls.foldl (fun w l => w.modThread l (fun t => { t with st := .parked j, pc })) w
  let w := { w with jm := w.jm.set j ((w.jmask j).1, (w.jmask j).2 ||| maskOf ls) }
  let w := if ls = [] then w.signalFlag flag else if flag < 12 then { w with owes := w.owes ++ [{ flag, lanes := maskOf ls }] } else w
  if ls = [] then w else w.checkJ cyc j

def execPark (o : Op) (s : State) : Host.Outcome State Fault Refusal :=
  .next (issueWith .park o noCauses (fun g m =>
    g.slots.foldl (fun m s => m.modWarp g.core s (fun w => w.park g.jn (g.execLanes s) g.o.ctl.setf.toNat g.pc g.cyc)) m) s)

def execStrike (o : Op) (s : State) : Host.Outcome State Fault Refusal :=
  .next (issueWith .strike o noCauses (fun g m =>
    g.execSlots.foldl (fun m s => m.modWarp g.core s (fun w => (w.strike g.jn (maskOf (g.execLanes s))).checkJ g.cyc g.jn)) m) s)

/-- R208; R188: the quad's helpers end when nobody else of it is left. -/
def execDemote (o : Op) (s : State) : Host.Outcome State Fault Refusal :=
  .next (issueWith .demote o noCauses (fun g m =>
    if ((g.launch?).map Launch.quad).getD false then
      let m := g.execs.foldl (fun m x => m.modWarp g.core x.slot (fun w => w.modThread x.lane (fun t => { t with helper := true }))) m
      g.execSlots.foldl (fun m s => m.exitMembers g.e g.core s []) m
    else g.exitExecs m) s)

/-- R207. The handler warp has no block to end (log 19). -/
def execKill (o : Op) (s : State) : Host.Outcome State Fault Refusal :=
  .next (issueWith .kill o noCauses (fun g m =>
    let m := (g.blocksOf (g.execs.filter (fun x => !g.helper x))).foldl (fun m b => m.killIssued g.e b) m
    g.execSlots.foldl (fun m s => m.exitMembers g.e g.core s ((g.execLanes s).filter (fun l => g.helper { slot := s, lane := l }))) m) s)

end Sys2Proof.Machine
end

