-- ==== Sys2Proof/Machine/Integer.lean ====
section
/-! DEFINITION. Row 1: integer arithmetic, comparison, selection and addresses (08 R213 to R217), and the counts of R219. -/

namespace Sys2Proof.Machine

/-- MOD `[0]`: unsigned operands (R213). -/
def Op.u (o : Op) : Bool := o.mdBit 0
/-- MOD `[1]`: saturating result (R213). -/
def Op.sat (o : Op) : Bool := o.mdBit 1

def ofWord (w : Word) : DWord := w.setWidth 64
def ofInt32 (x : Int) : DWord := BitVec.ofNat 64 (truncN 32 x)
def ofInt64 (x : Int) : DWord := BitVec.ofNat 64 (truncN 64 x)

/-- A 32-bit form over ext(a) and ext(b), narrowed by SAT and U (R214). -/
def int32 (k : Mn) (o : Op) (f : Int → Int → Int → Int) (s : State) : State :=
  laneOp k o noCauses false (fun g x => narrow 32 (Op.sat o) (Op.u o) (f (extW (Op.u o) (g.a32 x)) (extW (Op.u o) (g.b32 x)) (extW (Op.u o) (g.c32 x)))) s

/-- A 64-bit form, likewise. -/
def int64 (k : Mn) (o : Op) (f : Int → Int → Int) (s : State) : State :=
  laneOp k o noCauses true (fun g x => narrow 64 (Op.sat o) (Op.u o) (f (extW (Op.u o) (g.a64 x)) (extW (Op.u o) (g.b64 x)))) s

/-- A form that raises no flag. -/
def plain (k : Mn) (o : Op) (wide : Bool) (f : Grp → Member → DWord) (s : State) : State := laneOp k o noCauses wide (fun g x => (f g x, 0)) s

def execIadd (o : Op) (s : State) : Host.Outcome State Fault Refusal := .next (int32 .iadd o (fun a b _ => a + b) s)
def execIsub (o : Op) (s : State) : Host.Outcome State Fault Refusal := .next (int32 .isub o (fun a b _ => a - b) s)
def execImul (o : Op) (s : State) : Host.Outcome State Fault Refusal := .next (plain .imul o false (fun g x => ofWord (g.a32 x * g.b32 x)) s)
/-- The product's high half: a shift right of the exact product (R214). -/
def execImulh (o : Op) (s : State) : Host.Outcome State Fault Refusal :=
  .next (plain .imulh o false (fun g x => ofInt32 (extW (Op.u o) (g.a32 x) * extW (Op.u o) (g.b32 x) / 2 ^ 32)) s)
def execImac (o : Op) (s : State) : Host.Outcome State Fault Refusal := .next (int32 .imac o (fun a b c => a * b + c) s)
def execImacw (o : Op) (s : State) : Host.Outcome State Fault Refusal :=
  .next (plain .imacw o true (fun g x => ofInt64 (extW (Op.u o) (g.a32 x) * extW (Op.u o) (g.b32 x) + extW (Op.u o) (g.c64 x))) s)

/-- Quotient and flags (R215). -/
def idivOf (u : Bool) (a b : Word) : DWord × BitVec 7 :=
  if b = 0 then (0xFFFFFFFF, excDivzero)
  else if u then (ofWord (a / b), 0)
  else if a = 0x80000000 ∧ b = 0xFFFFFFFF then (0x80000000, excOverflow)
  else (ofInt32 (a.toInt.tdiv b.toInt), 0)

/-- Remainder and flags (R215). -/
def iremOf (u : Bool) (a b : Word) : DWord × BitVec 7 :=
  if b = 0 then (ofWord a, excDivzero) else if u then (ofWord (a % b), 0) else (ofInt32 (a.toInt.tmod b.toInt), 0)

def execIdiv (o : Op) (s : State) : Host.Outcome State Fault Refusal := .next (laneOp .idiv o noCauses false (fun g x => idivOf (Op.u o) (g.a32 x) (g.b32 x)) s)
def execIrem (o : Op) (s : State) : Host.Outcome State Fault Refusal := .next (laneOp .irem o noCauses false (fun g x => iremOf (Op.u o) (g.a32 x) (g.b32 x)) s)
def execImin (o : Op) (s : State) : Host.Outcome State Fault Refusal :=
  .next (plain .imin o false (fun g x => ofInt32 (min (extW (Op.u o) (g.a32 x)) (extW (Op.u o) (g.b32 x)))) s)
def execImax (o : Op) (s : State) : Host.Outcome State Fault Refusal :=
  .next (plain .imax o false (fun g x => ofInt32 (max (extW (Op.u o) (g.a32 x)) (extW (Op.u o) (g.b32 x)))) s)
def execIabs (o : Op) (s : State) : Host.Outcome State Fault Refusal :=
  .next (laneOp .iabs o noCauses false (fun g x => narrow 32 (Op.sat o) false ((g.a32 x).toInt.natAbs : Int)) s)
def execIneg (o : Op) (s : State) : Host.Outcome State Fault Refusal :=
  .next (laneOp .ineg o noCauses false (fun g x => narrow 32 (Op.sat o) false (-(g.a32 x).toInt)) s)
def execIadd64 (o : Op) (s : State) : Host.Outcome State Fault Refusal := .next (int64 .iadd64 o (fun a b => a + b) s)
def execIsub64 (o : Op) (s : State) : Host.Outcome State Fault Refusal := .next (int64 .isub64 o (fun a b => a - b) s)
def execImul64 (o : Op) (s : State) : Host.Outcome State Fault Refusal := .next (plain .imul64 o true (fun g x => g.a64 x * g.b64 x) s)
def execImac64 (o : Op) (s : State) : Host.Outcome State Fault Refusal := .next (plain .imac64 o true (fun g x => g.a64 x * g.b64 x + g.c64 x) s)

/-- Byte `i` of a word, signed or not (R216). -/
def byteInt (u : Bool) (w : Word) (i : Nat) : Int := let b : BitVec 8 := (w >>> (8 * i)).setWidth 8; if u then (b.toNat : Int) else b.toInt

/-- R216. U is MOD `[0]`, UB MOD `[5]`. -/
def idot4Of (o : Op) (a b c : Word) : DWord × BitVec 7 :=
  let un := o.mdBit 0 && o.mdBit 5
  let p (i : Nat) : Int := byteInt (o.mdBit 0) a i * byteInt (o.mdBit 5) b i
  narrow 32 (Op.sat o) un (extW un c + p 0 + p 1 + p 2 + p 3)

def execIdot4 (o : Op) (s : State) : Host.Outcome State Fault Refusal := .next (laneOp .idot4 o noCauses false (fun g x => idot4Of o (g.a32 x) (g.b32 x) (g.c32 x)) s)

/-- A compare's result: a predicate, or a mask in one or two words (R217). -/
def maskOut (o : Op) (wide t : Bool) : DWord := match o.dst with
  | .p _ => if t then 1 else 0
  | _ => if !t then 0 else if wide then 0xFFFFFFFFFFFFFFFF else 0xFFFFFFFF

def execIcmp (o : Op) (s : State) : Host.Outcome State Fault Refusal :=
  .next (plain .icmp o false (fun g x => maskOut o false (ccInt (o.mdBits 4 2) (extW (Op.u o) (g.a32 x)) (extW (Op.u o) (g.b32 x)))) s)
/-- MOD `[5]` W: the mask fills 64 bits (R217). -/
def execIcmp64 (o : Op) (s : State) : Host.Outcome State Fault Refusal :=
  .next (plain .icmp64 o (o.mdBit 5) (fun g x => maskOut o (o.mdBit 5) (ccInt (o.mdBits 4 2) (extW (Op.u o) (g.a64 x)) (extW (Op.u o) (g.b64 x)))) s)

/-- The predicate of SEL: MOD `[2:0]` number, `[3]` negate (R217). -/
def Grp.selPred (g : Grp) (x : Member) : Bool := xor (g.o.mdBit 3) ((g.warp x).preg (g.o.mdBits 2 0) x.lane)

def execSel (o : Op) (s : State) : Host.Outcome State Fault Refusal :=
  .next (plain .sel o (o.mdBit 4) (fun g x =>
    if o.mdBit 4 then (if g.selPred x then g.a64 x else g.b64 x) else ofWord (if g.selPred x then g.a32 x else g.b32 x)) s)

/-- MOD `[2:0]` N, `[3]` S (R217). -/
def execLea (o : Op) (s : State) : Host.Outcome State Fault Refusal :=
  .next (plain .lea o true (fun g x =>
    g.a64 x + ((if o.mdBit 3 then (g.b32 x).signExtend 64 else (g.b32 x).setWidth 64) <<< o.mdBits 2 0) + o.imm.signExtend 64) s)

/-- Ones of a word (R219). -/
def countOnes (w : Word) : Nat := ((List.range 32).filter (fun i => w.toNat.testBit i)).length

/-- Leading zeros; 32 for zero (R219). -/
def leadingZeros (w : Word) : Nat := if w = 0 then 32 else 31 - Nat.log2 w.toNat

/-- Bits in reverse order (R219). -/
def reverseBits (w : Word) : Word := (List.range 32).foldl (fun r i => if w.toNat.testBit i then r ||| BitVec.ofNat 32 (2 ^ (31 - i)) else r) 0

def execBcnt (o : Op) (s : State) : Host.Outcome State Fault Refusal := .next (plain .bcnt o false (fun g x => BitVec.ofNat 64 (countOnes (g.a32 x))) s)
def execLzc (o : Op) (s : State) : Host.Outcome State Fault Refusal := .next (plain .lzc o false (fun g x => BitVec.ofNat 64 (leadingZeros (g.a32 x))) s)
def execBitrev (o : Op) (s : State) : Host.Outcome State Fault Refusal := .next (plain .bitrev o false (fun g x => ofWord (reverseBits (g.a32 x))) s)

end Sys2Proof.Machine
end

