-- ==== Sys2Proof/Machine/Real.lean ====
section
/-! DEFINITION. Exact values, the floating-point formats, and the one rounding behind every result (00 R14, R15; 02 R46 to R54). -/

namespace Sys2Proof.Machine

/-! ### Exact values -/

/-- `n × 2^e`. -/
def Val.dyad (neg : Bool) (n : Nat) (e : Int) : Val := if n = 0 then .zero neg else .num neg n 1 e false

def Val.ofInt (x : Int) : Val := .dyad (x < 0) x.natAbs 0

def Val.isNan : Val → Bool
  | .nan _ => true
  | _ => false

/-- A signalling NaN. -/
def Val.sig : Val → Bool
  | .nan s => s
  | _ => false

def Val.isInf : Val → Bool
  | .inf _ => true
  | _ => false

def Val.isZero : Val → Bool
  | .zero _ => true
  | _ => false

def Val.neg? : Val → Bool
  | .nan _ => false
  | .inf s => s
  | .zero s => s
  | .num s _ _ _ _ => s

def Val.flip : Val → Val
  | .nan s => .nan s
  | .inf s => .inf (!s)
  | .zero s => .zero (!s)
  | .num s n d e k => .num (!s) n d e k

def Val.abs (v : Val) : Val := if v.neg? then v.flip else v

/-- `x × 2^k` as a natural number times a power that only rises: shift left, or leave. -/
def shl (x : Nat) (k : Int) : Nat := x * 2 ^ k.toNat

/-- floor(n/d × 2^(e−k)), and whether anything is left over. -/
def floorAt (n d : Nat) (e k : Int) (sticky : Bool) : Nat × Bool :=
  let a := shl n (e - k)
  let b := shl d (k - e)
  (a / b, sticky || a % b != 0)

/-- floor(log2(n/d × 2^e)). -/
def ilog (n d : Nat) (e : Int) : Int :=
  let l : Int := (Nat.log2 n : Int) - Nat.log2 d
  if shl d l ≤ shl n (-l) then l + e else l + e - 1

/-! ### Formats (02 R46) -/

/-- What the exponent field of all ones holds. -/
inductive Specials where
  /-- infinities and NaNs, as IEEE 754 -/
  | ieee
  /-- one NaN, all ones (E4M3) -/
  | oneNan
  | none
  deriving DecidableEq, Repr

structure FFmt where
  eb : Nat
  mb : Nat
  bias : Nat
  sp : Specials
  /-- a NaN whose top mantissa bit is 0 signals (R49) -/
  signals : Bool
  deriving DecidableEq, Repr

def fmtE2M1 : FFmt := ⟨2, 1, 1, .none, false⟩
def fmtE2M3 : FFmt := ⟨2, 3, 1, .none, false⟩
def fmtE3M2 : FFmt := ⟨3, 2, 3, .none, false⟩
def fmtE4M3 : FFmt := ⟨4, 3, 7, .oneNan, false⟩
def fmtE5M2 : FFmt := ⟨5, 2, 15, .ieee, false⟩
def fmtFP16 : FFmt := ⟨5, 10, 15, .ieee, true⟩
def fmtBF16 : FFmt := ⟨8, 7, 127, .ieee, true⟩
def fmtFP32 : FFmt := ⟨8, 23, 127, .ieee, true⟩
def fmtFP64 : FFmt := ⟨11, 52, 1023, .ieee, true⟩

/-- The floating-point format of a code (02 R43). -/
def FFmt.ofCode (c : Nat) : Option FFmt :=
  match c with
  | 0x40 => some fmtE2M1
  | 0x41 => some fmtE2M3
  | 0x42 => some fmtE3M2
  | 0x43 => some fmtE4M3
  | 0x44 => some fmtE5M2
  | 0x45 => some fmtFP16
  | 0x46 => some fmtBF16
  | 0x47 => some fmtFP32
  | 0x48 => some fmtFP64
  | _ => Option.none

namespace FFmt
def width (f : FFmt) : Nat := 1 + f.eb + f.mb
/-- Exponent of the smallest normal. -/
def emin (f : FFmt) : Int := 1 - f.bias
def top (f : FFmt) : Nat := 2 ^ f.eb - 1
/-- The pattern of the largest finite magnitude (R46). -/
def maxBits (f : FFmt) : Nat := match f.sp with
  | .ieee => f.top * 2 ^ f.mb - 1
  | .oneNan => 2 ^ (f.eb + f.mb) - 2
  | .none => 2 ^ (f.eb + f.mb) - 1
def signBit (f : FFmt) (neg : Bool) : Nat := if neg then 2 ^ (f.eb + f.mb) else 0
def infBits (f : FFmt) (neg : Bool) : Nat := f.signBit neg + f.top * 2 ^ f.mb
/-- The canonical NaN (R48); +0 in a format that has none (R53). -/
def nanBits (f : FFmt) : Nat := match f.sp with
  | .ieee => f.top * 2 ^ f.mb + 2 ^ (f.mb - 1)
  | .oneNan => 2 ^ (f.eb + f.mb) - 1
  | .none => 0

/-- `widen` of a pattern (00 R14; 02 R46, R47). -/
def widen (f : FFmt) (x : Nat) : Val :=
  let neg := bit x (f.eb + f.mb)
  let e := x / 2 ^ f.mb % 2 ^ f.eb
  let m := x % 2 ^ f.mb
  if f.sp = .ieee ∧ e = f.top then (if m = 0 then .inf neg else .nan (f.signals && !bit m (f.mb - 1)))
  else if f.sp = .oneNan ∧ e = f.top ∧ m = 2 ^ f.mb - 1 then .nan false
  else if e = 0 then .dyad neg m (f.emin - f.mb)
  else .dyad neg (2 ^ f.mb + m) ((e : Int) - f.bias - f.mb)

/-- The largest finite magnitude. -/
def maxVal (f : FFmt) : Val := f.widen f.maxBits
end FFmt

/-! ### Rounding (02 R50 to R53) -/

/-- The modes of R50. -/
def rmNear : Nat := 0
def rmZero : Nat := 1
def rmUp : Nat := 2
def rmDown : Nat := 3
def rmAway : Nat := 4

/-- Whether a magnitude `sig` with half bit and rest rounds up. -/
def roundsUp (rm : Nat) (neg : Bool) (sig : Nat) (half rest : Bool) : Bool :=
  match rm with
  | 0 => half && (rest || sig % 2 == 1)
  | 1 => false
  | 2 => !neg && (half || rest)
  | 3 => neg && (half || rest)
  | _ => half

/-- A magnitude rounded to a multiple of 2^q: the multiple, and whether it differs. -/
def roundAt (rm : Nat) (neg : Bool) (n d : Nat) (e : Int) (sticky : Bool) (q : Int) : Nat × Bool :=
  let (n2, rest) := floorAt n d e (q - 1) sticky
  let half := n2 % 2 == 1
  (n2 / 2 + (if roundsUp rm neg (n2 / 2) half rest then 1 else 0), half || rest)

/-- The rounding mode gives infinity on overflow (R53). -/
def overflowsToInf (rm : Nat) (neg : Bool) : Bool := rm == 0 || rm == 4 || (rm == 2 && !neg) || (rm == 3 && neg)

/-- A nonzero finite value rounded into a format (R15, R47, R51, R53). -/
def roundNum (f : FFmt) (rm : Nat) (sat : Bool) (neg : Bool) (n d : Nat) (e : Int) (sticky : Bool) : Nat × BitVec 7 :=
  let l := ilog n d e
  let q := max l f.emin - f.mb
  let (sig, inexact) := roundAt rm neg n d e sticky q
  let mag := (q - (f.emin - f.mb)).toNat * 2 ^ f.mb + sig
  if f.maxBits < mag then
    if sat then (f.signBit neg + f.maxBits, excClamp ||| excInexact)
    else if overflowsToInf rm neg then
      (match f.sp with
       | .ieee => f.infBits neg
       | .oneNan => f.nanBits
       | .none => f.signBit neg + f.maxBits, excOverflow ||| excInexact)
    else (f.signBit neg + f.maxBits, excOverflow ||| excInexact)
  else
    let tiny := decide (l < f.emin) && !(decide (l = f.emin - 1) && (roundAt rm neg n d e sticky (l - f.mb)).1 == 2 ^ (f.mb + 1))
    (f.signBit neg + mag, if inexact then (if tiny then excUnderflow ||| excInexact else excInexact) else 0)

/-- round_M and round_sat_M of any value (R51, R53). DESIGN CHOICE (log 102): the saturating variant turns a NaN into +0 with invalid in a format that has none, as the table of R53 does, and maps an infinity to the largest magnitude where source and destination are one format too. -/
def roundF (f : FFmt) (rm : Nat) (sat : Bool) (v : Val) : Nat × BitVec 7 :=
  match v with
  | .nan s => (f.nanBits, if s || f.sp = .none then excInvalid else 0)
  | .inf neg =>
    if sat then (f.signBit neg + f.maxBits, excClamp)
    else match f.sp with
    | .ieee => (f.infBits neg, 0)
    | .oneNan => (f.nanBits, excInvalid)
    | .none => (f.signBit neg + f.maxBits, excInvalid)
  | .zero neg => (f.signBit neg, 0)
  | .num neg n d e k => roundNum f rm sat neg n d e k

/-- A value rounded to an integer: the integer, and whether it differs. -/
def roundInt (rm : Nat) (v : Val) : Int × Bool :=
  match v with
  | .num neg n d e k => let (x, i) := roundAt rm neg n d e k 0; (if neg then -(x : Int) else x, i)
  | _ => (0, false)

/-- Clamps an integer to a range. -/
def clampInt (lo hi x : Int) : Int := if x < lo then lo else if hi < x then hi else x

/-- The range of an integer format of a width (R45). -/
def intLo (signed : Bool) (w : Nat) : Int := if signed then -(2 ^ (w - 1)) else 0
def intHi (signed : Bool) (w : Nat) : Int := if signed then 2 ^ (w - 1) - 1 else 2 ^ w - 1

/-- A conversion of a floating-point value to an integer format (R53, R54). -/
def roundToInt (signed : Bool) (w rm : Nat) (sat : Bool) (v : Val) : Nat × BitVec 7 :=
  let out (x : Int) : Nat := truncN w x
  let outside : BitVec 7 := if sat then excClamp else excInvalid
  match v with
  | .nan _ => (0, excInvalid)
  | .inf neg => (out (if neg then intLo signed w else intHi signed w), outside)
  | .zero _ => (0, 0)
  | v =>
    let (x, i) := roundInt rm v
    let c := clampInt (intLo signed w) (intHi signed w) x
    (out c, if c ≠ x then outside else if i then excInexact else 0)

/-! ### Exact arithmetic (09 R233) -/

/-- A dyadic value as an integer over 2^e. -/
def Val.scaled (v : Val) (e0 : Int) : Int :=
  match v with
  | .num neg n _ e _ => let x : Int := shl n (e - e0); if neg then -x else x
  | _ => 0

def Val.exp? : Val → Option Int
  | .num _ _ _ e _ => some e
  | _ => none

/-- The exact sum of dyadic values, with the zero rules of R233 for the mode. -/
def sumVals (rm : Nat) (ts : List Val) : Val × BitVec 7 :=
  let clash := ts.any (fun t => t = .inf false) && ts.any (fun t => t = .inf true)
  let fl : BitVec 7 := if clash || ts.any Val.sig then excInvalid else 0
  if clash || ts.any Val.isNan then (.nan false, fl)
  else if ts.any Val.isInf then (.inf (ts.any (fun t => t = .inf true)), fl)
  else
    let e0 := (ts.filterMap Val.exp?).foldl min 0
    let s := ts.foldl (fun s t => s + t.scaled e0) (0 : Int)
    if s ≠ 0 then (.num (s < 0) s.natAbs 1 e0 false, fl)
    else if ts.all (fun t => t = .zero true) && !ts.isEmpty then (.zero true, fl)
    else if ts.all (fun t => t = .zero false) then (.zero false, fl)
    else (.zero (rm == rmDown), fl)

/-- The exact product. -/
def prodVal (a b : Val) : Val × BitVec 7 :=
  let neg := xor a.neg? b.neg?
  match a, b with
  | .nan s, b => (.nan false, if s || b.sig then excInvalid else 0)
  | _, .nan s => (.nan false, if s then excInvalid else 0)
  | .inf _, .zero _ => (.nan false, excInvalid)
  | .zero _, .inf _ => (.nan false, excInvalid)
  | .inf _, _ => (.inf neg, 0)
  | _, .inf _ => (.inf neg, 0)
  | .zero _, _ => (.zero neg, 0)
  | _, .zero _ => (.zero neg, 0)
  | .num _ n1 d1 e1 k1, .num _ n2 d2 e2 k2 => (.num neg (n1 * n2) (d1 * d2) (e1 + e2) (k1 || k2), 0)

/-- The exact quotient (R238). -/
def divVal (a b : Val) : Val × BitVec 7 :=
  let neg := xor a.neg? b.neg?
  match a, b with
  | .nan s, b => (.nan false, if s || b.sig then excInvalid else 0)
  | _, .nan s => (.nan false, if s then excInvalid else 0)
  | .inf _, .inf _ => (.nan false, excInvalid)
  | .inf _, _ => (.inf neg, 0)
  | _, .inf _ => (.zero neg, 0)
  | .zero _, .zero _ => (.nan false, excInvalid)
  | _, .zero _ => (.inf neg, excDivzero)
  | .zero _, _ => (.zero neg, 0)
  | .num _ n1 d1 e1 k1, .num _ n2 d2 e2 _ => (.num neg (n1 * d2) (d1 * n2) (e1 - e2) k1, 0)

/-- Order of two values that are not NaN, −0 equal to +0: less, equal, greater as −1, 0, 1. -/
def cmpVal (a b : Val) : Int :=
  match a, b with
  | .inf s, .inf t => if s = t then 0 else if s then -1 else 1
  | .inf s, _ => if s then -1 else 1
  | _, .inf t => if t then 1 else -1
  | a, b =>
    let e0 := ([a, b].filterMap Val.exp?).foldl min 0
    let x := a.scaled e0 - b.scaled e0
    if x < 0 then -1 else if x = 0 then 0 else 1

/-! ### Square roots -/

/-- The largest `r` with `r² ≤ x`, bit by bit downwards from `k`. -/
def isqrtFrom (x : Nat) : Nat → Nat → Nat
  | 0, r => if (r + 1) * (r + 1) ≤ x then r + 1 else r
  | k + 1, r => let t := r + 2 ^ (k + 1); isqrtFrom x k (if t * t ≤ x then t else r)

def isqrt (x : Nat) : Nat := isqrtFrom x (Nat.log2 x / 2) 0

/-- The square root of n/d × 2^e, to more than 100 bits and sticky below them. -/
def sqrtVal (n d : Nat) (e : Int) : Val :=
  let t := 160 - e / 2
  let a := shl n (e + 2 * t)
  let b := shl d (-(e + 2 * t))
  let x := a / b
  let r := isqrt x
  .num false r 1 (-t) (a % b != 0 || r * r != x)

end Sys2Proof.Machine
end

