-- ==== Sys2Proof/Machine/Trans.lean ====
section
/-! DEFINITION. The correctly rounded functions 2^a, log2 a, sin a, cos a and tanh a (09 R238) in fixed point: values carry at least 100 bits beyond their leading bit, and `sticky` says that the exact value, which is irrational, lies just above them (log 20). -/

namespace Sys2Proof.Machine

/-- Σ over k of ± x^(2k+1)/(2k+1) with `t` the current power at a fixed scale, `q` the factor between powers as a quotient. -/
def oddSeries (alt : Bool) (step : Nat → Nat) : Nat → Nat → Nat → Bool → Int → Int
  | 0, _, _, _, acc => acc
  | f + 1, t, k, neg, acc =>
    let x : Int := t / (2 * k + 1)
    oddSeries alt step f (step t) (k + 1) (alt && !neg) (if neg then acc - x else acc + x)

/-- arctan(1/n) at scale 2^p. -/
def arctanInv (p n : Nat) : Int := oddSeries true (fun t => t / (n * n)) p (2 ^ p / n) 0 false 0

/-- π at scale 2^p (Machin). -/
def piFix (p : Nat) : Nat := ((16 * arctanInv (p + 16) 5 - 4 * arctanInv (p + 16) 239) / 2 ^ 16).toNat

/-- artanh(x) for x at scale 2^p. -/
def artanhFix (p x : Nat) : Nat := (oddSeries false (fun t => t * (x * x / 2 ^ p) / 2 ^ p) p x 0 false 0).toNat

/-- ln 2 at scale 2^p. -/
def ln2Fix (p : Nat) : Nat := 2 * (oddSeries false (fun t => t / 9) p (2 ^ p / 3) 0 false 0).toNat

/-- Σ over k of x^k/k! at scale 2^p: `t` is the current term, `k` its index. -/
def expFix (p x : Nat) : Nat → Nat → Nat → Nat → Nat
  | 0, _, _, acc => acc
  | f + 1, t, k, acc => expFix p x f (t * x / 2 ^ p / (k + 1)) (k + 1) (acc + t)

/-- Σ over k of ± x^(2k+i)/(2k+i)!: sine for i = 1, cosine for i = 0. -/
def circFix (p x : Nat) : Nat → Nat → Nat → Bool → Int → Int
  | 0, _, _, _, acc => acc
  | f + 1, t, j, neg, acc => circFix p x f (t * x / 2 ^ p * x / 2 ^ p / ((j + 1) * (j + 2))) (j + 2) (!neg) (if neg then acc - t else acc + t)

/-- Fixed-point bits for an argument of a given size: enough for results near 1 and near the argument itself. -/
def fixBits (l : Int) : Nat := 256 + 3 * (-l).toNat

/-- The magnitude of a value at scale 2^p. -/
def fixOf (p n : Nat) (e : Int) : Nat := shl n (e + p) / 2 ^ (-(e + p)).toNat

/-- 2^(i + r/2^p) with 0 ≤ r < 2^p; nothing is left over when r is 0. -/
def exp2Val (p : Nat) (i : Int) (r : Nat) : Val :=
  if r = 0 then .dyad false 1 i else .num false (expFix p (r * ln2Fix p / 2 ^ p) p (2 ^ p) 0 0) 1 (i - p) true

/-- 2^a (R238). Arguments beyond ±2,048 give a value of the same rounding in every format. -/
def exp2 (v : Val) : Val × BitVec 7 :=
  match v with
  | .nan s => (.nan false, if s then excInvalid else 0)
  | .inf neg => (if neg then .zero false else .inf false, 0)
  | .zero _ => (.dyad false 1 0, 0)
  | .num neg n _ e _ =>
    let l := ilog n 1 e
    if 11 ≤ l then (.num false 1 1 (if neg then -3000 else 3000) true, 0)
    else
      let p := fixBits l
      let a := fixOf p n e
      if neg then (if a % 2 ^ p = 0 then exp2Val p (-((a / 2 ^ p : Nat) : Int)) 0 else exp2Val p (-((a / 2 ^ p : Nat) : Int) - 1) (2 ^ p - a % 2 ^ p), 0)
      else (exp2Val p (a / 2 ^ p : Nat) (a % 2 ^ p), 0)

/-- log2 a (R238). -/
def log2 (v : Val) : Val × BitVec 7 :=
  match v with
  | .nan s => (.nan false, if s then excInvalid else 0)
  | .zero _ => (.inf true, excDivzero)
  | .inf neg => if neg then (.nan false, excInvalid) else (.inf false, 0)
  | .num true _ _ _ _ => (.nan false, excInvalid)
  | .num false n _ e _ =>
    let l := ilog n 1 e
    let lead := 2 ^ (Nat.log2 n)
    if n = lead then (.dyad (l < 0) l.natAbs 0, 0)
    else
      let p := 256
      let x := 2 ^ p * (n - lead) / (n + lead)
      let frac := 2 * artanhFix p x * 2 ^ p / ln2Fix p
      let t : Int := l * 2 ^ p + frac
      (.num (t < 0) t.natAbs 1 (-(p : Int)) true, 0)

/-- The quadrant and the remainder of a magnitude modulo π/2, at scale 2^p, by exact reduction. -/
def reduce (p n : Nat) (e : Int) : Nat × Nat :=
  let l := ilog n 1 e
  let w := p + (max l 0).toNat + 64
  let a := fixOf w n e
  let h := piFix w / 2
  (a / h % 4, a % h / 2 ^ (w - p))

def sinFix (p x : Nat) : Int := circFix p x p x 1 false 0
def cosFix (p x : Nat) : Int := circFix p x p (2 ^ p) 0 false 0

/-- sin or cos of a magnitude: sign and value. -/
def circ (cosine : Bool) (n : Nat) (e : Int) : Val :=
  let p := fixBits (ilog n 1 e)
  let (q, r) := reduce p n e
  let q := if cosine then q + 1 else q
  let v := if q % 2 = 0 then sinFix p r else cosFix p r
  .num (2 ≤ q % 4) v.natAbs 1 (-(p : Int)) true

def sinVal (v : Val) : Val × BitVec 7 :=
  match v with
  | .nan s => (.nan false, if s then excInvalid else 0)
  | .inf _ => (.nan false, excInvalid)
  | .zero s => (.zero s, 0)
  | .num neg n _ e _ => (if neg then (circ false n e).flip else circ false n e, 0)

def cosVal (v : Val) : Val × BitVec 7 :=
  match v with
  | .nan s => (.nan false, if s then excInvalid else 0)
  | .inf _ => (.nan false, excInvalid)
  | .zero _ => (.dyad false 1 0, 0)
  | .num _ n _ e _ => (circ true n e, 0)

/-- tanh a = (1 − u)/(1 + u) with u = e^(−2a) (R238); beyond 32 a value just below 1. -/
def tanhVal (v : Val) : Val × BitVec 7 :=
  match v with
  | .nan s => (.nan false, if s then excInvalid else 0)
  | .inf s => (.dyad s 1 0, 0)
  | .zero s => (.zero s, 0)
  | .num neg n _ e _ =>
    let l := ilog n 1 e
    if 5 ≤ l then (.num neg (2 ^ 80 - 1) 1 (-80) true, 0)
    else
      let p := fixBits l
      let x := 2 * fixOf p n e
      let one := 2 ^ p
      let i := x / one
      let g := expFix p (x % one) p one 0 0
      let e1 := expFix p one p one 0 0
      let big := (List.range i).foldl (fun a _ => a * e1 / one) g
      (.num neg ((big - one) * 2 ^ p / (big + one)) 1 (-(p : Int)) true, 0)

end Sys2Proof.Machine
end

