-- ==== Sys2Proof/Machine/Float.lean ====
section
/-! DEFINITION. Floating-point operations on bit patterns of any format (09 R233 to R239): each gives a pattern and its flags. -/

namespace Sys2Proof.Machine

/-- A pattern with the flags it raises. -/
abbrev FRes := Nat × BitVec 7

/-- One rounding, with the flags of the exact operation. -/
def finish (f : FFmt) (rm : Nat) (r : Val × BitVec 7) : FRes := let q := roundF f rm false r.1; (q.1, q.2 ||| r.2)

def fAdd (f : FFmt) (rm a b : Nat) : FRes := finish f rm (sumVals rm [f.widen a, f.widen b])
def fSub (f : FFmt) (rm a b : Nat) : FRes := finish f rm (sumVals rm [f.widen a, (f.widen b).flip])
def fMul (f : FFmt) (rm a b : Nat) : FRes := finish f rm (prodVal (f.widen a) (f.widen b))

/-- a × b + c with one rounding. -/
def fMac (f : FFmt) (rm a b c : Nat) : FRes :=
  let p := prodVal (f.widen a) (f.widen b)
  let s := sumVals rm [p.1, f.widen c]
  finish f rm (s.1, p.2 ||| s.2)

/-- R234: one of the operands, −0 below +0; the other where one is a NaN. -/
def fMinMax (f : FFmt) (isMax : Bool) (a b : Nat) : FRes :=
  let x := f.widen a
  let y := f.widen b
  let fl : BitVec 7 := if x.sig || y.sig then excInvalid else 0
  if x.isNan && y.isNan then (f.nanBits, fl)
  else if x.isNan then (b, fl)
  else if y.isNan then (a, fl)
  else
    let c := cmpVal x y
    let less := c < 0 || (c = 0 && x.neg? && !y.neg?)
    (if less = isMax then b else a, fl)

/-- R235: sign operations raise no flag. -/
def fAbs (f : FFmt) (a : Nat) : FRes := (if (f.widen a).isNan then f.nanBits else a % 2 ^ (f.eb + f.mb), 0)
def fNeg (f : FFmt) (a : Nat) : FRes := (if (f.widen a).isNan then f.nanBits else if bit a (f.eb + f.mb) then a - 2 ^ (f.eb + f.mb) else a + 2 ^ (f.eb + f.mb), 0)

/-- The conditions of R236. -/
def fCmp (f : FFmt) (cc a b : Nat) : Bool × BitVec 7 :=
  let x := f.widen a
  let y := f.widen b
  let un := x.isNan || y.isNan
  let fl : BitVec 7 := if x.sig || y.sig || (un && 2 ≤ cc && cc ≤ 5) then excInvalid else 0
  let c := cmpVal x y
  let t := match cc with
    | 0 => !un && c == 0
    | 1 => un || c != 0
    | 2 => !un && decide (c < 0)
    | 3 => !un && decide (c ≤ 0)
    | 4 => !un && decide (0 < c)
    | 5 => !un && decide (0 ≤ c)
    | 6 => un
    | _ => !un
  (t, fl)

/-- The class bit of R236. -/
def fClass (f : FFmt) (a : Nat) : Nat :=
  match f.widen a with
  | .nan s => if s then 2 ^ 8 else 2 ^ 9
  | .inf s => if s then 2 ^ 0 else 2 ^ 7
  | .zero s => if s then 2 ^ 3 else 2 ^ 4
  | .num s .. =>
    if a / 2 ^ f.mb % 2 ^ f.eb = 0 then (if s then 2 ^ 2 else 2 ^ 5) else (if s then 2 ^ 1 else 2 ^ 6)

/-- Rounds to an integral value, keeping the sign and raising no inexact (R237). -/
def fRnd (f : FFmt) (rm a : Nat) : FRes :=
  match f.widen a with
  | .num s n d e k =>
    let x := (roundInt rm (.num s n d e k)).1
    ((roundF f rm false (.dyad s x.natAbs 0)).1, 0)
  | v => (if v.isNan then f.nanBits else a, if v.sig then excInvalid else 0)

def fDiv (f : FFmt) (rm a b : Nat) : FRes := finish f rm (divVal (f.widen a) (f.widen b))

/-- 1/a (R238). -/
def fRcp (f : FFmt) (rm a : Nat) : FRes := finish f rm (divVal (.dyad false 1 0) (f.widen a))

/-- √a (R238). -/
def sqrtSpecial (v : Val) : Val × BitVec 7 :=
  match v with
  | .nan s => (.nan false, if s then excInvalid else 0)
  | .zero s => (.zero s, 0)
  | .inf s => if s then (.nan false, excInvalid) else (.inf false, 0)
  | .num s n d e _ => if s then (.nan false, excInvalid) else (sqrtVal n d e, 0)

def fSqrt (f : FFmt) (rm a : Nat) : FRes := finish f rm (sqrtSpecial (f.widen a))

/-- 1/√a (R238): the root of the reciprocal. -/
def rsqSpecial (v : Val) : Val × BitVec 7 :=
  match v with
  | .nan s => (.nan false, if s then excInvalid else 0)
  | .zero s => (.inf s, excDivzero)
  | .inf s => if s then (.nan false, excInvalid) else (.zero false, 0)
  | .num s n d e _ => if s then (.nan false, excInvalid) else (sqrtVal d n (-e), 0)

def fRsq (f : FFmt) (rm a : Nat) : FRes := finish f rm (rsqSpecial (f.widen a))
def fEx2 (f : FFmt) (rm a : Nat) : FRes := finish f rm (exp2 (f.widen a))
def fLg2 (f : FFmt) (rm a : Nat) : FRes := finish f rm (log2 (f.widen a))
def fSin (f : FFmt) (rm a : Nat) : FRes := finish f rm (sinVal (f.widen a))
def fCos (f : FFmt) (rm a : Nat) : FRes := finish f rm (cosVal (f.widen a))
def fTanh (f : FFmt) (rm a : Nat) : FRes := finish f rm (tanhVal (f.widen a))

/-- Element `i` of width `w` of a word. -/
def elem (w x i : Nat) : Nat := x / 2 ^ (w * i) % 2 ^ w

/-- An exact dot product of `k` elements, plus c, rounded once to FP32 (R239). -/
def fDot (fa fb : FFmt) (k rm a b c : Nat) : FRes :=
  let ps := (List.range k).map (fun i => prodVal (fa.widen (elem fa.width a i)) (fb.widen (elem fb.width b i)))
  let s := sumVals rm (ps.map Prod.fst ++ [fmtFP32.widen c])
  finish fmtFP32 rm (s.1, orExc (ps.map Prod.snd) ||| s.2)

/-! ### Instructions over a format -/

/-- The rounding field (R148). -/
def Grp.rm (g : Grp) : Nat := g.o.mdBits 10 8

/-- Code 4 on an instruction that is no conversion (02 R50). -/
def rmCause (g : Grp) : List Nat := [if g.rm = rmAway then causeIllegalFormat else 0]

def ofRes (r : FRes) : DWord × BitVec 7 := (BitVec.ofNat 64 r.1, r.2)

/-- An FP32 form that rounds. -/
def fp32 (k : Mn) (o : Op) (f : Nat → Nat → Nat → Nat → FRes) (s : State) : State :=
  laneOp k o rmCause false (fun g x => ofRes (f g.rm (g.a32 x).toNat (g.b32 x).toNat (g.c32 x).toNat)) s

/-- A 64-bit floating-point source: an immediate is IMM read as FP32 and widened exactly (06 R145). -/
def Grp.srcD (g : Grp) (x : Member) (s : Src) : Nat :=
  match s with
  | .imm => widenImm g.o.imm
  | s => (g.src64 x s).toNat
where
  /-- FP32 to FP64, which is exact; a NaN keeps its kind. -/
  widenImm (w : Word) : Nat :=
    match fmtFP32.widen w.toNat with
    | .nan true => fmtFP64.top * 2 ^ 52 + 1
    | v => (roundF fmtFP64 0 false v).1

/-- An FP64 form that rounds. -/
def fp64 (k : Mn) (o : Op) (f : Nat → Nat → Nat → Nat → FRes) (s : State) : State :=
  laneOp k o rmCause true (fun g x => ofRes (f g.rm (g.srcD x o.a) (g.srcD x o.b) (g.srcD x o.c))) s

/-- The format of a packed form: MOD `[0]` (R241). -/
def halfFmt (o : Op) : FFmt := if o.mdBit 0 then fmtBF16 else fmtFP16

/-- Both elements of packed words (R241). -/
def packed2 (f : Nat → Nat → Nat → FRes) (a b c : Nat) : FRes :=
  let r0 := f (elem 16 a 0) (elem 16 b 0) (elem 16 c 0)
  let r1 := f (elem 16 a 1) (elem 16 b 1) (elem 16 c 1)
  (r0.1 + 65536 * r1.1, r0.2 ||| r1.2)

/-- A packed form, with its causes. -/
def half2 (k : Mn) (o : Op) (own : Grp → List Nat) (f : FFmt → Nat → Nat → Nat → Nat → FRes) (s : State) : State :=
  laneOp k o own false (fun g x => ofRes (packed2 (f (halfFmt o) g.rm) (g.a32 x).toNat (g.b32 x).toNat (g.c32 x).toNat)) s

/-- A class word: the word itself, or whether it meets the mask of a predicate form (R236). -/
def classOut (o : Op) (w : Nat) : DWord := match o.dst with
  | .p _ => if w &&& bits o.immN 9 0 = 0 then 0 else 1
  | _ => BitVec.ofNat 64 w

end Sys2Proof.Machine
end

