-- ==== Sys2Proof/Machine/Convert.lean ====
section
/-! DEFINITION. Row 7: conversions and self-described blocks in registers (02 R51 to R60; 09 R243 to R250). -/

namespace Sys2Proof.Machine

/-! ### One element (02 R52) -/

/-- Signedness of an integer format code; none: not an integer format (02 R43). -/
def intSigned (c : Nat) : Option Bool := if 0x11 ≤ c ∧ c ≤ 0x14 then some false else if 0x20 ≤ c ∧ c ≤ 0x24 then some true else none

/-- The value of an integer pattern. -/
def intVal (signed : Bool) (w x : Nat) : Int := if signed then sextN w x else ((x % 2 ^ w : Nat) : Int)

/-- A conversion between integer formats from width `ws` to `w` (R54): truncated where it narrows, else clamped to the range; clamped in the saturating variant. -/
def intToInt (signed : Bool) (w ws : Nat) (sat : Bool) (x : Int) : Nat × BitVec 7 :=
  let c := clampInt (intLo signed w) (intHi signed w) x
  if sat then (truncN w c, if c = x then 0 else excClamp)
  else if w < ws then (truncN w x, 0)
  else (truncN w c, if c = x then 0 else excInvalid)

/-- One element of format `sf` converted to `df` (R52). -/
def convert (df sf rm : Nat) (sat : Bool) (x : Nat) : Nat × BitVec 7 :=
  match intSigned sf, intSigned df with
  | some us, some ud => intToInt ud (Fmt.width df) (Fmt.width sf) sat (intVal us (Fmt.width sf) x)
  | some us, none => match FFmt.ofCode df with
    | some f => roundF f rm sat (Val.ofInt (intVal us (Fmt.width sf) x))
    | none => (0, 0)
  | none, some ud => match FFmt.ofCode sf with
    | some f => roundToInt ud (Fmt.width df) rm sat (f.widen x)
    | none => (0, 0)
  | none, none => match FFmt.ofCode sf, FFmt.ofCode df with
    | some f, some t => roundF t rm sat (f.widen x)
    | _, _ => (0, 0)

/-- The pair has a saturating variant (R51, R244). -/
def satDefined (df sf : Nat) : Bool :=
  match intSigned df, intSigned sf with
  | none, _ => (FFmt.ofCode df).isSome && Fmt.width df ≤ 8
  | some _, none => true
  | some _, some _ => Fmt.width df < Fmt.width sf

namespace Grp
def df (g : Grp) : Nat := bits g.o.immN 7 0
def sf (g : Grp) : Nat := bits g.o.immN 15 8
end Grp

/-- R243: a reserved format, or one that stands in no register. -/
def cvtCause (g : Grp) : List Nat := [if Fmt.width g.df = 0 || Fmt.width g.sf = 0 then causeIllegalFormat else 0]

/-- R244. -/
def cvtsatCause (g : Grp) : List Nat := cvtCause g ++ [if satDefined g.df g.sf then 0 else causeIllegalFormat]

/-- A word with element `i` of width `w` replaced. -/
def putElem (w x i v : Nat) : Nat := x - elem w x i * 2 ^ (w * i) + v * 2 ^ (w * i)

/-- CVT in a lane (R243). -/
def Grp.cvtLane (g : Grp) (sat : Bool) (x : Member) : DWord × BitVec 7 :=
  let ws := Fmt.width g.sf
  let wd := Fmt.width g.df
  let a := if ws = 64 then (g.a64 x).toNat else elem ws (g.a32 x).toNat (bits g.o.immN 19 16)
  let r := convert g.df g.sf g.rm sat a
  let c := if g.o.mdBit 0 then (g.c32 x).toNat else 0
  (BitVec.ofNat 64 (if 32 ≤ wd then r.1 else putElem wd c (bits g.o.immN 23 20) r.1 % 2 ^ (wd * Fmt.perWord g.df)), r.2)

def execCvt (o : Op) (s : State) : Host.Outcome State Fault Refusal :=
  .next (laneOp .cvt o cvtCause (decide (Fmt.width (bits o.immN 7 0) = 64)) (fun g x => g.cvtLane false x) s)
def execCvtsat (o : Op) (s : State) : Host.Outcome State Fault Refusal :=
  .next (laneOp .cvtsat o cvtsatCause (decide (Fmt.width (bits o.immN 7 0) = 64)) (fun g x => g.cvtLane true x) s)

/-- The register format that PACK reads and UNPACK writes for an element format (R245). -/
def wideOf (c : Nat) : Nat := match intSigned c with
  | some true => 0x23
  | some false => 0x13
  | none => 0x47

/-- A vector register of the member's lane. -/
def Grp.vAt (g : Grp) (x : Member) (n : Nat) : Word := (g.warp x).vreg n x.lane

/-- The first register of a run of vector sources. -/
def Src.first : Src → Nat
  | .v n => n.toNat
  | _ => 0

/-- R245: 16 bits or fewer, in a register; SAT only where R244 allows it. -/
def packCause (g : Grp) : List Nat :=
  [if Fmt.perWord g.df < 2 then causeIllegalFormat else 0, if g.o.mdBit 3 && !satDefined g.df (wideOf g.df) then causeIllegalFormat else 0]
def unpackCause (g : Grp) : List Nat := [if Fmt.perWord g.df < 2 then causeIllegalFormat else 0]

/-- PACK in a lane (R245). -/
def Grp.packLane (g : Grp) (x : Member) : DWord × BitVec 7 :=
  let w := Fmt.width g.df
  let rs := (List.range (Fmt.perWord g.df)).map (fun i => convert g.df (wideOf g.df) g.rm (g.o.mdBit 3) (g.vAt x (Src.first g.o.a + i)).toNat)
  (BitVec.ofNat 64 (rs.foldr (fun r acc => r.1 + acc * 2 ^ w) 0), orExc (rs.map Prod.snd))

/-- The elements UNPACK writes in a lane, with their flags. -/
def Grp.unpackLane (g : Grp) (x : Member) : List Word × BitVec 7 :=
  let rs := (List.range (Fmt.perWord g.df)).map (fun i => convert (wideOf g.df) g.df 0 false (elem (Fmt.width g.df) (g.a32 x).toNat i))
  (rs.map (fun r => BitVec.ofNat 32 r.1), orExc (rs.map Prod.snd))

def execPack (o : Op) (s : State) : Host.Outcome State Fault Refusal := .next (laneOp .pack o packCause false (fun g x => g.packLane x) s)

/-- A form that writes a run of registers in each lane. -/
def runOp (k : Mn) (o : Op) (own : Grp → List Nat) (f : Grp → Member → List Word × BitVec 7) (s : State) : State :=
  issueWith k o own (fun g m =>
    let n := match o.dst with
      | .v n => n.toNat
      | _ => 0
    let m := g.wbExc m (fun x => (f g x).2)
    g.freeReads g.execLanes (g.wbRun m n (fun x => (f g x).1))) s

def execUnpack (o : Op) (s : State) : Host.Outcome State Fault Refusal := .next (runOp .unpack o unpackCause Grp.unpackLane s)

/-! ### Self-described blocks (02 R55 to R60) -/

/-- The largest magnitude of a payload format (R60). -/
def maxG (c : Nat) : Val := match FFmt.ofCode c with
  | some f => f.maxVal
  | none => .dyad false (if c = 0x21 then 127 else if c = 0x20 then 7 else 1) 0

/-- The header word of SE, SM and a format (R55). -/
def sdHeader (se sm c : Nat) : Nat := se * 2 ^ 20 + sm * 2 ^ 8 + c

/-- SE and SM of the scale for a largest magnitude, and the flag of its rounding (00 R15): round_RU(amax / maxG, E8M12) held at 2^−126; none: beyond the largest scale (R60). -/
def sdScale (amax : Val) (c : Nat) : Option (Nat × Nat) × BitVec 7 :=
  match (divVal amax (maxG c)).1 with
  | .num _ n d e k =>
    let q := ilog n d e - 12
    let (sig, inexact) := roundAt rmUp false n d e k q
    let (sig, q) := if sig = 8192 then (4096, q + 1) else (sig, q)
    let se : Int := q + 12 + 127
    (if 254 < se then none else if se < 1 then some (1, 0) else some (se.toNat, sig - 4096), if inexact then excInexact else 0)
  | _ => (some (1, 0), 0)

/-- The scale's value (R56). -/
def scaleVal (se sm : Nat) : Val := .dyad false (4096 + sm) ((se : Int) - 139)

/-- An element of a payload format, rounded (R60). -/
def sdRound (c rm : Nat) (v : Val) : Nat × BitVec 7 :=
  match FFmt.ofCode c with
  | some f => roundF f rm false v
  | none =>
    if c = 0x60 then
      let (x, i) := roundInt rm v
      (if x < 0 then 2 else x.toNat, if i then excInexact else 0)
    else roundToInt true (Fmt.width c) rm false v

/-- Bits of payload element `i` (R57, R58). -/
def sdPlace (c : Nat) (i v : Nat) : Nat := if c = 0x60 then v * 3 ^ (i % 5) * 2 ^ (8 * (i / 5)) else v * 2 ^ (Fmt.width c * i)

/-- The larger of two magnitudes. -/
def maxMag (a b : Val) : Val := if cmpVal a b < 0 then b else a

/-- The block of a list of values: 512 bits (R60). -/
def sdEncode (c rm : Nat) (xs : List Val) : Nat × BitVec 7 :=
  if xs.any (fun x => x.isNan || x.isInf) then (sdHeader 255 0 c, excInvalid)
  else if xs.all Val.isZero then (sdHeader 0 0 c, 0)
  else
    match sdScale (xs.foldl (fun a x => maxMag a x.abs) (.zero false)) c with
    | (none, x) => (sdHeader 255 0 c, excOverflow ||| x)
    | (some (se, sm), x) =>
      let es := xs.map (fun v => sdRound c rm (divVal v (scaleVal se sm)).1)
      (sdHeader se sm c + 2 ^ 32 * (es.mapIdx (fun i e => sdPlace c i e.1)).foldl (· + ·) 0, orExc (es.map Prod.snd) ||| x)

/-- The header is well-formed (R59). -/
def sdHeaderOk (h : Nat) : Bool := bits h 31 28 == 0 && Fmt.payload (bits h 7 0) != 0

/-- Payload byte `j` of a block. -/
def sdByte (blk j : Nat) : Nat := blk / 2 ^ (32 + 8 * j) % 256

/-- Element `i` of a well-formed block, with the flag of an ill-formed T5 byte (R56 to R59). -/
def sdElem (blk i : Nat) : Val × BitVec 7 :=
  let c := bits blk 7 0
  let se := bits blk 27 20
  let sm := bits blk 19 8
  let e : Val × BitVec 7 :=
    if c = 0x60 then
      let b := sdByte blk (i / 5)
      if 243 ≤ b then (.zero false, excInvalid) else (match b / 3 ^ (i % 5) % 3 with
        | 0 => .zero false
        | 1 => .dyad false 1 0
        | _ => .dyad true 1 0, 0)
    else
      let w := Fmt.width c
      let x := blk / 2 ^ (32 + w * i) % 2 ^ w
      (match FFmt.ofCode c with
        | some f => f.widen x
        | none => Val.ofInt (sextN w x), 0)
  if se = 0 then (.zero false, 0)
  else if se = 255 then (.nan false, 0)
  else match e.1 with
    | .nan s => (.nan s, e.2)
    | v => ((prodVal v (scaleVal se sm)).1, e.2)

/-- The word a lane of a half supplies: 0 unless it executes (R246). -/
def Grp.laneWord (g : Grp) (l n : Nat) : Word :=
  match g.execs.find? (fun x => x.lane = l) with
  | some x => g.vAt x n
  | none => 0

/-- R247, R248: a format outside the SD column. -/
def sdCause (g : Grp) : List Nat := [if Fmt.payload g.df = 0 then causeIllegalFormat else 0]

/-- SDHDR in a lane (R247); it raises no flag. -/
def sdHdrOf (c a : Nat) : Nat :=
  match fmtFP32.widen a with
  | .nan _ => sdHeader 255 0 c
  | .inf _ => sdHeader 255 0 c
  | .zero _ => sdHeader 0 0 c
  | v => match (sdScale v.abs c).1 with
    | none => sdHeader 255 0 c
    | some (se, sm) => sdHeader se sm c

def execSdhdr (o : Op) (s : State) : Host.Outcome State Fault Refusal :=
  .next (laneOp .sdhdr o sdCause false (fun g x => (BitVec.ofNat 64 (sdHdrOf g.df (g.a32 x).toNat), 0)) s)

/-- The block a half encodes (R248). -/
def Grp.encodeHalf (g : Grp) (h : Nat) : Nat × BitVec 7 :=
  sdEncode g.df g.rm ((List.range (Fmt.payload g.df)).map (fun i => fmtFP32.widen (g.laneWord (16 * h + i % 16) (Src.first g.o.a + i / 16)).toNat))

/-- Halves with an executing member (R246). -/
def Grp.halves (g : Grp) : List Nat := (List.range 2).filter (fun h => g.execs.any (fun x => x.lane / 16 = h))

def execSdenc (o : Op) (s : State) : Host.Outcome State Fault Refusal :=
  .next (issueWith .sdenc o sdCause (fun g m =>
    let bs := g.halves.map (fun h => (h, g.encodeHalf h))
    let of (x : Member) : Nat × BitVec 7 := ((bs.find? (fun b => b.1 = x.lane / 16)).map Prod.snd).getD (0, 0)
    let m := g.wbExc m (fun x => (of x).2)
    g.freeReads g.execLanes (g.wbLanes m false (fun x => BitVec.ofNat 64 (elem 32 (of x).1 (x.lane % 16))))) s)

/-- The block a half holds (R246). -/
def Grp.blockHalf (g : Grp) (h : Nat) : Nat :=
  (List.range 16).foldr (fun w acc => (match g.execs.find? (fun x => x.lane = 16 * h + w) with
    | some x => (g.a32 x).toNat
    | none => 0) + acc * 2 ^ 32) 0

/-- The flag that the ill-formed bytes of a T5 payload raise, one read whole: R58 calls it for every such byte of a block whose scale is a number; in an all-zero or NaN block, whose elements R56 gives whatever the payload, DESIGN CHOICE (log 80): none. -/
def t5Flag (blk : Nat) : BitVec 7 :=
  if bits blk 7 0 = 0x60 && bits blk 27 20 ≠ 0 && bits blk 27 20 ≠ 255 && (List.range 60).any (fun j => 243 ≤ sdByte blk j) then excInvalid else 0

/-- What SDDEC writes in a lane, with its flags (R249). -/
def Grp.sddecLane (g : Grp) (blk : Nat) (x : Member) : List Word × BitVec 7 :=
  let k := bits g.o.immN 4 0
  if !sdHeaderOk (blk % 2 ^ 32) then (List.replicate k (BitVec.ofNat 32 fmtFP32.nanBits), excInvalid)
  else
    let n := Fmt.payload (bits blk 7 0)
    let rs := (List.range k).map (fun j =>
      let i := 16 * j + x.lane % 16
      if i < n then let e := sdElem blk i; let r := roundF fmtFP32 g.rm false e.1; (BitVec.ofNat 32 r.1, r.2 ||| e.2) else (0, 0))
    (rs.map Prod.fst, orExc (rs.map Prod.snd) ||| t5Flag blk)

def execSddec (o : Op) (s : State) : Host.Outcome State Fault Refusal :=
  .next (runOp .sddec o noCauses (fun g x => g.sddecLane (g.blockHalf (x.lane / 16)) x) s)

/-! ### T5 words (R250) -/

/-- The digit of a 2-bit trit, and whether it is ill-formed. -/
def tritDigit (t : Nat) : Nat × Bool := match t with
  | 0 => (0, false)
  | 1 => (1, false)
  | 3 => (2, false)
  | _ => (0, true)

/-- T5PK in a lane. -/
def t5pkOf (a b : Nat) : DWord × BitVec 7 :=
  let ds := (List.range 20).map (fun i => tritDigit (if i < 16 then elem 2 a i else elem 2 b (i - 16)))
  let v := (ds.mapIdx (fun i d => d.1 * 3 ^ (i % 5) * 2 ^ (8 * (i / 5)))).foldl (· + ·) 0
  (BitVec.ofNat 64 v, if ds.any Prod.snd then excInvalid else 0)

/-- T5UNPK in a lane: 20 trits in 2-bit form. -/
def t5unpkOf (a : Nat) : DWord × BitVec 7 :=
  let ts := (List.range 20).map (fun i => let b := elem 8 a (i / 5); if 243 ≤ b then 0 else match b / 3 ^ (i % 5) % 3 with
    | 0 => 0
    | 1 => 1
    | _ => 3)
  (BitVec.ofNat 64 ((ts.mapIdx (fun i t => t * 2 ^ (2 * i))).foldl (· + ·) 0), if (List.range 4).any (fun j => 243 ≤ elem 8 a j) then excInvalid else 0)

def execT5pk (o : Op) (s : State) : Host.Outcome State Fault Refusal :=
  .next (laneOp .t5pk o noCauses false (fun g x => t5pkOf (g.a32 x).toNat (g.b32 x).toNat) s)
def execT5unpk (o : Op) (s : State) : Host.Outcome State Fault Refusal := .next (laneOp .t5unpk o noCauses true (fun g x => t5unpkOf (g.a32 x).toNat) s)

end Sys2Proof.Machine
end

