-- ==== Sys2Proof/Machine/Access.lean ====
section
/-! DEFINITION. Per-lane memory accesses: classification and checks, their carrying out at issue, faults, and the results that follow (10 R257 to R281; 19 R454), the atomic instructions and FENCE (14 R374, R379 to R382). -/

namespace Sys2Proof.Machine

/-! ### Spaces and segments (10 R257 to R262) -/

/-- The space a form names, or generic. -/
inductive Form where
  | gen | glb | scr | const | priv
  deriving DecidableEq, Repr

/-- Space, offset, and the limit to check it against (R259, R260). -/
def classify (w : Warp) (f : Form) (a : Nat) : Space × Nat × Nat :=
  let lim (n : Nat) : Nat := (w.segment n).2.toNat
  match f with
  | .glb => (.global, a, lim 0)
  | .scr => (.scratch, a, lim 1)
  | .priv => (.priv, a, lim 2)
  | .const => (.const, a, lim 3)
  | .gen =>
    let inW (n : Nat) : Bool := (w.segment n).1.toNat ≤ a && a < (w.segment n).1.toNat + lim n
    if inW 5 then (.scratch, a - (w.segment 5).1.toNat, lim 5)
    else if inW 6 then (.priv, a - (w.segment 6).1.toNat, lim 6)
    else (.global, a, lim 0)

/-- A generic global access whose last byte lies in a window (R260). -/
def intoWindow (w : Warp) (a n : Nat) : Bool :=
  [5, 6].any (fun k => let s := w.seg.get k (0, 0); s.1.toNat ≤ a + n - 1 && a + n - 1 < s.1.toNat + s.2.toNat)

/-- The linear address (R258, R261). -/
def linear (w : Warp) (sp : Space) (lane o : Nat) : Nat :=
  let base (n : Nat) : Nat := (w.seg.get n (0, 0)).1.toNat
  match sp with
  | .global => (base 0 + o) % 2 ^ 64
  | .scratch => (base 1 + o) % 2 ^ 64
  | .priv => (base 2 + o / 16 * 512 + 16 * lane + o % 16) % 2 ^ 64
  | .const => (base 3 + o) % 2 ^ 64

/-- A scratch range against the block's allocation (R262). -/
def allocCause (bytes a n : Nat) : Nat := if bytes ≤ a then causeSegLimit else if bytes < a + n then causeExtent else 0

/-- Scratchpad bytes of a member's block. -/
def Grp.scrBytes (g : Grp) : Nat := ((g.launch?).map Launch.scrBytes).getD 0

/-- The issue checks of one access (R260, R262): causes, space and linear address. -/
def Grp.place (g : Grp) (x : Member) (f : Form) (a n : Nat) : List Nat × Space × Nat :=
  let w := g.warp x
  let (sp, o, lim) := classify w f a
  let lin := linear w sp x.lane o
  let seg := if lim ≤ o then causeSegLimit else if lim < o + n then causeSegStraddle else 0
  let win := if f = .gen && sp = .global && intoWindow w a n then causeSegStraddle else 0
  let al := if sp = .scratch then allocCause g.scrBytes lin n else 0
  ([seg, win, al], sp, lin)

/-! ### Addresses of the forms -/

/-- The address of a memory operand: 64-bit or 32-bit base plus the signed offset; the absolute form's is IMM (06 R159; 10 R277). -/
def Grp.memAddr (g : Grp) (wide : Bool) (x : Member) : Nat :=
  match g.o.a with
  | .imm => g.o.immN
  | s => ((if wide then g.src64 x s else (g.src32 x s).setWidth 64) + g.o.imm.signExtend 64).toNat

/-- Bytes of a size code (R276). -/
def szBytes (c : Nat) : Nat := match c with
  | 0 => 1
  | 1 => 1
  | 2 => 2
  | 3 => 2
  | 4 => 4
  | 5 => 8
  | _ => 16

/-- The data of a store: the low bytes of a register, a pair or a quad. -/
def Grp.storeData (g : Grp) (x : Member) (s : Src) (sz : Nat) : Nat :=
  if sz = 6 then (List.range 4).foldr (fun i acc => (g.vAt x (Src.first s + i)).toNat + acc * 2 ^ 32) 0
  else if sz = 5 then (g.src64 x s).toNat
  else (g.src32 x s).toNat

/-- The space code of LD, ST, atomics and gathers (R276, R280; 14 R379). -/
def spaceForm (c : Nat) : Form := match c with
  | 0 => .gen
  | 1 => .glb
  | _ => .scr

/-! ### Issue -/

/-- The flag of a group. A replay's is the one its original issue armed, since it is the same instruction (R273). -/
def Grp.flag (g : Grp) : Nat := g.o.ctl.setf.toNat

/-- One lane's part of an access, before its check. -/
structure LaneReq where
  x : Member
  form : Form
  addr : Nat
  data : Nat
  cmp : Nat
  deriving DecidableEq, Repr

/-- Causes of a list of lane accesses. -/
def Grp.reqCauses (g : Grp) (n : Nat) (rs : List LaneReq) : List Nat := g.valued [g.o.a] (rs.flatMap (fun r => (g.place r.x r.form r.addr n).1))

/-- The lane as it goes out. -/
def Grp.accLane (g : Grp) (n : Nat) (r : LaneReq) : AccLane :=
  let p := g.place r.x r.form r.addr n
  { slot := r.x.slot, blk := g.blkId r.x, lane := r.x.lane, space := p.2.1, addr := p.2.2, data := r.data, cmp := r.cmp, helper := g.helper r.x }

/-- Members hold at the instruction until what they wait on releases them (07 R168). -/
def Mach.holdMembers (m : Mach) (core : Nat) (pc : DWord) (ms : List Member) (w : BlockOn) : Mach :=
  ms.foldl (fun m x => m.modWarp core x.slot (fun v => v.modThread x.lane (fun t => { t with st := .blocked w, pc }))) m

/-- Signals a flag in each of a list of warps. -/
def Mach.signalSlots (e : Fw) (m : Mach) (core flag : Nat) (slots : List Nat) : Mach := slots.foldl (fun m s => m.signalFlag e core s flag) m

/-- Members of a warp stand at the instruction: it is not past, and a yield point after it is not due (08 R209). -/
def Mach.standAt (m : Mach) (core slot : Nat) (pc : DWord) (ls : List Nat) : Mach :=
  m.modWarp core slot (fun w => ls.foldl (fun w l => w.modThread l (fun t => if t.st = .exited then t else { t with st := .atPc, pc, yieldDue := false })) w)

/-! ### Carrying an access out (10 R270) -/

/-- The new value of an atomic, with its flags (R380): `m` old, `b` operand, `c` compare value. -/
def atomNew (op : Nat) (w64 : Bool) (m b c : Nat) : Nat × BitVec 7 :=
  let w := if w64 then 64 else 32
  let f := if w64 then fmtFP64 else fmtFP32
  match op with
  | 0 => ((m + b) % 2 ^ w, 0)
  | 1 => (if sextN w b < sextN w m then b else m, 0)
  | 2 => (if sextN w m < sextN w b then b else m, 0)
  | 3 => (min m b, 0)
  | 4 => (max m b, 0)
  | 5 => (m &&& b, 0)
  | 6 => (m ||| b, 0)
  | 7 => (m ^^^ b, 0)
  | 8 => (b, 0)
  | 9 => (if m = b then c else m, 0)
  | 10 => (if b ≤ m then 0 else m + 1, 0)
  | 11 => (if m = 0 ∨ b < m then b else m - 1, 0)
  | 12 => fAdd f 0 m b
  | 13 => fMinMax f false m b
  | _ => fMinMax f true m b

/-- A byte of a block's scratchpad: where nothing has been written since its grant, what earlier work left, or zero after a wipe (05 R111; 03 R66). -/
def scrByte (b : Block) (a : Nat) : Byte := (b.scratch.get? a).getD (if b.grant = 0 then 0 else Config.staleByte b.grant a)

/-- `n` bytes of a scratchpad, little-endian. -/
def scrRead (b : Block) (a : Nat) : Nat → Nat
  | 0 => 0
  | n + 1 => (scrByte b a).toNat + 256 * scrRead b (a + 1) n

/-- Writes the low `n` bytes of a value. -/
def scrWrite (t : Tab Byte) (a : Nat) : Nat → Nat → Tab Byte
  | 0, _ => t
  | n + 1, v => scrWrite (t.set a (BitVec.ofNat 8 v)) (a + 1) n (v / 256)

/-- PHASE and PENDING of the byte-counting barrier at a scratch offset (11 R294). -/
def Mach.bcObj (m : Mach) (blk off : Nat) : Nat × Nat :=
  match m.blocks.get? blk with
  | some b => let w := scrRead b off 8; (w / 2 ^ 32, w % 2 ^ 32)
  | none => (0, 0)

/-- Phase `b` has completed (11 R295). -/
def bcPassed (phase b : Nat) : Bool := let d := (phase + 2 ^ 32 - b) % 2 ^ 32; 1 ≤ d && d < 2 ^ 31

/-- BCWAIT members of a block whose phase has completed go on, whatever wrote the object (11 R295). -/
def Mach.bcRelease (m : Mach) (blk : Nat) : Mach :=
  m.modWarpsOf blk (fun cyc w => w.releaseNext ((List.range 32).filter (fun l => match (w.thread l).st with
    | .blocked (.bcwait a b) => bcPassed (m.bcObj blk a).1 b
    | _ => false)) cyc)

/-- The low `n` bytes of a value written into a block's scratchpad. -/
def Mach.scrPut (m : Mach) (blk off n v : Nat) : Mach := (m.modBlock blk (fun b => { b with scratch := scrWrite b.scratch off n v })).bcRelease blk

/-- A write to a tier: granules wholly written lose their uncorrectable error, others are reported (10 R274). -/
def Mach.tierWrite (m : Mach) (pa n v : Nat) : Mach :=
  let m1 := { m with mem := memWrite m.mem pa n v }
  if m.poison = [] then m1
  else
    let m1 := { m1 with poison := m.poison.filter (fun g => !(pa ≤ g && g + 16 ≤ pa + n)) }
    if poisoned m1 pa n then m1.devLog [274, pa] else m1

/-- What a lane's access gives. -/
inductive LaneRes where
  | done (val : Nat) (exc : BitVec 7)
  | fault (cause : Nat)
  | uncorr
  deriving DecidableEq, Repr

/-- The kind of an access (R266, R271). -/
def AccOp.kind : AccOp → AKind
  | .load _ => .load
  | .ttq => .load
  | .store => .store
  | _ => .atomic

/-- The value an operation leaves and the one it gives back, from the bytes it finds (14 R381; 11 R305). -/
def AccOp.apply (op : AccOp) (m : Nat) (l : AccLane) : Option Nat × Nat × BitVec 7 :=
  match op with
  | .load _ => (none, m, 0)
  | .ttq => (none, m, 0)
  | .resume _ => (none, m, 0)
  | .store => (some l.data, 0, 0)
  | .atom k w => let r := atomNew k w m l.data l.cmp; (some r.1, m, r.2)
  | .cas128 => (some (if m = l.data then l.cmp else m), m, 0)
  | .tlrmake =>
    let ws := (List.range 8).map (fun i => m / 2 ^ (64 * i) % 2 ^ 64)
    let st := Tlr.check ws
    (some (putBits (putBits m 48 48 (if st = 0 then 1 else 0)) 47 40 st), st, 0)

/-- The bytes an operation writes back: TLRMAKE rewrites only D0. -/
def AccOp.written (op : AccOp) (size : Nat) : Nat := match op with
  | .tlrmake => 8
  | _ => size

/-- Effects a helper does not have (07 R188). -/
def AccOp.helperless : AccOp → Bool
  | .load _ => false
  | _ => true

/-- One lane's access (R270, R274, R279). -/
def performLane (e : Fw) (m : Mach) (core part : Nat) (op : AccOp) (size : Nat) (l : AccLane) : Mach × LaneRes :=
  if l.helper && op.helperless then (m, .done 0 0)
  else if l.addr % size ≠ 0 then (m, .fault causeMisaligned)
  else if l.space = .scratch then
    match m.blocks.get? l.blk with
    | none => (m, .done 0 0)
    | some b =>
      match op.apply (scrRead b l.addr size) l with
      | (none, v, x) => (m, .done v x)
      | (some n, v, x) => (m.scrPut l.blk l.addr (op.written size) n, .done v x)
  else
    match translate e m core part l.addr op.kind (m.warp core l.slot).slice with
    | (m, .err c) => (m, .fault c)
    | (m, .ok pa _) =>
      if op ≠ .store && poisoned m pa size then (m, .uncorr)
      else match op.apply (memRead m.mem pa size) l with
      | (none, v, x) => (m, .done v x)
      | (some n, v, x) => (m.tierWrite pa (op.written size) n, .done v x)

/-- All lanes, in ascending order. -/
def performLanes (e : Fw) (core part : Nat) (op : AccOp) (size : Nat) : Mach → List AccLane → Mach × List (AccLane × LaneRes)
  | m, [] => (m, [])
  | m, l :: r =>
    let (m1, x) := performLane e m core part op size l
    let (m2, xs) := performLanes e core part op size m1 r
    (m2, (l, x) :: xs)

def LaneRes.isDone : LaneRes → Bool
  | .done _ _ => true
  | _ => false

def LaneRes.cause : LaneRes → Nat
  | .done _ _ => 0
  | .fault c => c
  | .uncorr => causeUncorrectable

/-- Records for a warp's failing lanes: one for each distinct page (R270, R271). -/
def draftsOf (core slot tag : Nat) (kind : AKind) (rs : List (AccLane × LaneRes)) : List RecDraft :=
  let pages := (rs.map (fun r => r.1.addr % 2 ^ 57 / 4096)).eraseDups
  pages.map (fun p =>
    let here := rs.filter (fun r => r.1.addr % 2 ^ 57 / 4096 = p)
    { page := p, cause := minCause (here.map (fun r => r.2.cause)), kind := kind.code, core, wslot := slot, lanes := maskOf (here.map (fun r => r.1.lane)), tag })

/-- A warp's part of an access that does not complete (R270, R273). -/
def Grp.faultRec (g : Grp) (slot : Nat) (handler uncorrectable : Bool) : FaultRec :=
  { pc := g.pc, members := maskOf (lanesIn g.members slot), execs := maskOf (g.execLanes slot), flag := g.flag, whole := false, handler, uncorrectable, seqs := [], drafts := [], stash := [],
    yield := g.o.ctl.yield, all := maskOf (lanesIn g.members slot) }

/-- A warp's access stops at a per-lane cause: its members stand at the instruction and the handler is called (R270, R274). -/
def Grp.laneTrap (g : Grp) (m : Mach) (slot cause : Nat) : Mach :=
  let f := g.faultRec slot true (cause = causeUncorrectable)
  let m := (m.standAt g.core slot g.pc (lanesIn g.members slot)).modWarp g.core slot (fun w => w.await f)
  Mach.takeTrap g.e m g.core cause 0 g.pc (g.execLanes slot) [slot]

/-- The outcome of an access for one warp (R270, R274): complete, trapped, or waiting on fault records; the flag says that it is complete. -/
def Grp.settleSlot (g : Grp) (kind : AKind) (rs : List (AccLane × LaneRes)) (m : Mach) (slot : Nat) : Mach × Bool :=
  let bad := rs.filter (fun r => r.1.slot = slot && !r.2.isDone)
  let m := m.modWarp g.core slot (fun w => w.settleMask (g.replays.contains slot) (maskOf (g.execLanes slot)) (maskOf (bad.map (fun r => r.1.lane))))
  if bad = [] then (m, true)
  else if bad.any (fun r => r.2 = .uncorr) then (g.laneTrap m slot causeUncorrectable, false)
  else if bad.any (fun r => r.2.cause = causeMisaligned) then (g.laneTrap m slot causeMisaligned, false)
  else if slot = handlerSlot then (Mach.abandonService g.e m g.core [407, minCause (bad.map (fun r => r.2.cause))] g.pc, false)
  else
    let tag := ((m.blocks.get? (m.warp g.core slot).blk).map m.tagOf).getD 0
    (m.faultWait g.core slot g.part (lanesIn g.members slot) (g.faultRec slot false false) (draftsOf g.core slot tag kind bad), false)

/-- The warps of an access, in turn; the slots whose part is complete. -/
def Grp.settleSlots (g : Grp) (kind : AKind) (rs : List (AccLane × LaneRes)) : Mach → List Nat → Mach × List Nat
  | m, [] => (m, [])
  | m, s :: r =>
    let x := g.settleSlot kind rs m s
    let y := g.settleSlots kind rs x.1 r
    (y.1, if x.2 then s :: y.2 else y.2)

/-- Last reads take effect in the executing lanes that an issue or a replay completes, not in those it leaves unfinished (19 R454). -/
def Grp.clearDone (g : Grp) (m : Mach) (rs : List (AccLane × LaneRes)) : Mach :=
  g.freeReads (fun s => (g.execLanes s).filter (fun l => !rs.any (fun r => r.1.slot = s && r.1.lane = l && !r.2.isDone))) m

/-- Results of the lanes that completed. A warp that met an uncorrectable error writes no register (R274). -/
def accessVals (rs : List (AccLane × LaneRes)) : List (Nat × Nat × Nat) :=
  rs.filterMap (fun r => match r.2 with
    | .done v _ => if rs.any (fun x => x.1.slot = r.1.slot && x.2 = .uncorr) then none else some (r.1.slot, r.1.lane, v)
    | _ => none)

/-- Exception bits of the lanes that completed, by slot. -/
def accessExcs (rs : List (AccLane × LaneRes)) : Tab (BitVec 7) :=
  rs.foldl (fun (t : Tab (BitVec 7)) r => match r.2 with
    | .done _ x => if x = 0 then t else t.set r.1.slot (t.get r.1.slot 0 ||| x)
    | _ => t) []

/-- THE GROUP'S ACCESS IS CARRIED OUT (R270): its lanes meet memory in ascending order, each warp is decided by its own lanes, and what the completed lanes read is under way to its registers. With no executing member it is complete at once. -/
def Grp.runAccess (g : Grp) (m : Mach) (op : AccOp) (n : Nat) (rs : List LaneReq) : Mach :=
  let r := performLanes g.e g.core g.part op n m (rs.map (g.accLane n))
  let d := g.settleSlots op.kind r.2 r.1 g.slots
  let m := g.clearDone d.1 r.2
  let vals := accessVals r.2
  if vals = [] then m.signalSlots g.e g.core g.flag d.2
  else
    let a : Access := { core := g.core, op, dst := g.o.dst, wbs := g.o.ctl.wbs, flag := g.flag, members := vals.map (fun v => { slot := v.1, lane := v.2.1 }), vals, excs := accessExcs r.2, doneSlots := d.2 }
    { m with accesses := m.accesses.set m.nextId a, nextId := m.nextId + 1 }

/-- Blocks whose lanes make an effect on global memory (16 R424, R426). -/
def Grp.markVisible (g : Grp) (m : Mach) (n : Nat) (rs : List LaneReq) : Mach :=
  (g.blocksOf ((rs.filter (fun r => !g.helper r.x && (g.place r.x r.form r.addr n).2.1 = .global)).map (·.x))).foldl Mach.visible m

/-- An access instruction: its lanes' requests, checked at issue, then carried out. `own`: causes of the form beside those of R260 and R262. -/
def accessWith (k : Mn) (o : Op) (op : AccOp) (n : Nat) (writes : Bool) (own : Grp → List Nat) (reqs : Grp → List LaneReq) (s : State) : State :=
  issueWith k o (fun g => g.reqCauses n (reqs g) ++ own g) (fun g m =>
    let rs := reqs g
    g.runAccess (if writes then g.markVisible m n rs else m) op n rs) s

def accessOp (k : Mn) (o : Op) (op : AccOp) (n : Nat) (writes : Bool) (reqs : Grp → List LaneReq) (s : State) : State := accessWith k o op n writes noCauses reqs s

/-- The requests of a form: an address and data in each executing member. -/
def Grp.reqs (g : Grp) (f : Form) (addr data cmp : Member → Nat) : List LaneReq := g.execs.map (fun x => { x, form := f, addr := addr x, data := data x, cmp := cmp x })

def noData : Member → Nat := fun _ => 0

/-- A load form over a space. -/
def loadOp (k : Mn) (o : Op) (wide : Bool) (f : Form) (s : State) : State :=
  let sz := o.mdBits 2 0
  accessOp k o (.load sz) (szBytes sz) false (fun g => g.reqs f (g.memAddr wide) noData noData) s

/-- A store form over a space; private stores have no effect that others see. -/
def storeOp (k : Mn) (o : Op) (wide : Bool) (f : Form) (s : State) : State :=
  let sz := o.mdBits 2 0
  accessOp k o .store (szBytes sz) true (fun g => g.reqs f (g.memAddr wide) (fun x => g.storeData x o.b sz) noData) s

def execLd (o : Op) (s : State) : Host.Outcome State Fault Refusal := .next (loadOp .ld o true (spaceForm (o.mdBits 4 3)) s)
def execSt (o : Op) (s : State) : Host.Outcome State Fault Refusal := .next (storeOp .st o true (spaceForm (o.mdBits 4 3)) s)
def execLds (o : Op) (s : State) : Host.Outcome State Fault Refusal := .next (loadOp .lds o false .scr s)
def execSts (o : Op) (s : State) : Host.Outcome State Fault Refusal := .next (storeOp .sts o false .scr s)

/-- LDC with a scalar destination runs once, for the warp (R277). -/
def Grp.onceForWarp (g : Grp) (rs : List LaneReq) : List LaneReq := match g.o.dst with
  | .s _ => rs.take 1
  | _ => rs

def execLdc (o : Op) (s : State) : Host.Outcome State Fault Refusal :=
  let sz := o.mdBits 2 0
  .next (accessOp .ldc o (.load sz) (szBytes sz) false (fun g => g.onceForWarp (g.reqs .const (g.memAddr false) noData noData)) s)
def execLdl (o : Op) (s : State) : Host.Outcome State Fault Refusal := .next (loadOp .ldl o false .priv s)
def execStl (o : Op) (s : State) : Host.Outcome State Fault Refusal := .next (storeOp .stl o false .priv s)

/-- The index of a gather or scatter in a lane (R280): IW in MOD `[6:5]`, SIGN in `[7]`. -/
def Grp.gatherIdx (g : Grp) (x : Member) : Int :=
  let w := 8 * 2 ^ g.o.mdBits 6 5
  let v := if w = 64 then (g.b64 x).toNat else (g.b32 x).toNat
  if g.o.mdBit 7 then sextN w v else ((v % 2 ^ w : Nat) : Int)

/-- base + index × 2^SCALE + offset (R280). -/
def Grp.gatherAddr (g : Grp) (x : Member) : Nat :=
  truncN 64 (((g.a64 x).toNat : Int) + g.gatherIdx x * 2 ^ g.o.mdBits 10 8 + g.o.imm.toInt)

/-- A scratch address with a nonzero bit above 31 (R280). -/
def Grp.gatherHigh (g : Grp) : List Nat := g.valued [g.o.a, g.o.b] [if spaceForm (g.o.mdBits 4 3) = .scr && g.execs.any (fun x => 2 ^ 32 ≤ g.gatherAddr x) then causeSegLimit else 0]

def execGath (o : Op) (s : State) : Host.Outcome State Fault Refusal :=
  let sz := o.mdBits 2 0
  .next (accessWith .gath o (.load sz) (szBytes sz) false Grp.gatherHigh (fun g => g.reqs (spaceForm (o.mdBits 4 3)) g.gatherAddr noData noData) s)
def execScat (o : Op) (s : State) : Host.Outcome State Fault Refusal :=
  let sz := o.mdBits 2 0
  .next (accessWith .scat o .store (szBytes sz) true Grp.gatherHigh (fun g => g.reqs (spaceForm (o.mdBits 4 3)) g.gatherAddr (fun x => g.storeData x o.c sz) noData) s)

/-- PREF has no architectural effect: its flag is signalled once its requests are taken or dropped (R281). -/
def execPref (o : Op) (s : State) : Host.Outcome State Fault Refusal :=
  .next (issueWith .pref o noCauses (fun g m => (g.freeReads g.execLanes m).signalSlots g.e g.core g.flag g.slots) s)

/-! ### Atomics (14 R379 to R382) -/

/-- An atomic's requests: operand in `data`, compare or new value in `cmp`. -/
def Grp.atomReqs (g : Grp) : List LaneReq :=
  let val (s : Src) (x : Member) : Nat := if g.o.mdBit 2 then (g.src64 x s).toNat else (g.src32 x s).toNat
  g.reqs (spaceForm (g.o.mdBits 1 0)) (g.memAddr true) (val g.o.b) (if g.o.mdBits 10 7 = 9 then val g.o.c else noData)

def execAtom (o : Op) (s : State) : Host.Outcome State Fault Refusal :=
  .next (accessOp .atom o (.atom (o.mdBits 10 7) (o.mdBit 2)) (if o.mdBit 2 then 8 else 4) true Grp.atomReqs s)
def execRed (o : Op) (s : State) : Host.Outcome State Fault Refusal :=
  .next (accessOp .red o (.atom (o.mdBits 10 7) (o.mdBit 2)) (if o.mdBit 2 then 8 else 4) true Grp.atomReqs s)
def execCas128 (o : Op) (s : State) : Host.Outcome State Fault Refusal :=
  .next (accessOp .cas128 o .cas128 16 true (fun g => g.reqs (spaceForm (o.mdBits 1 0)) (g.memAddr true) (fun x => g.storeData x o.b 6) (fun x => g.storeData x o.c 6)) s)

/-- TLRMAKE also makes an effect on global memory (11 R305; 16 R424). -/
def execTlrmake (o : Op) (s : State) : Host.Outcome State Fault Refusal :=
  .next (accessOp .tlrmake o .tlrmake 64 true (fun g => g.reqs (spaceForm (o.mdBits 4 3)) (g.memAddr true) noData noData) s)

/-- A loaded value as registers (R276). -/
def loadedRegs (sz v : Nat) : List Word :=
  match sz with
  | 0 => [BitVec.ofNat 32 (v % 256)]
  | 1 => [BitVec.ofInt 32 (sextN 8 v)]
  | 2 => [BitVec.ofNat 32 (v % 65536)]
  | 3 => [BitVec.ofInt 32 (sextN 16 v)]
  | 4 => [BitVec.ofNat 32 v]
  | 5 => [BitVec.ofNat 32 v, BitVec.ofNat 32 (v / 2 ^ 32)]
  | _ => (List.range 4).map (fun i => BitVec.ofNat 32 (v / 2 ^ (32 * i)))

/-- The registers an access writes in a lane. -/
def AccOp.regs (op : AccOp) (v : Nat) : List Word :=
  match op with
  | .load sz => loadedRegs sz v
  | .atom _ w64 => loadedRegs (if w64 then 5 else 4) v
  | .cas128 => loadedRegs 6 v
  | .tlrmake => [BitVec.ofNat 32 v]
  | _ => []

/-- Results reach their registers (R273). -/
def Mach.writeResults (m : Mach) (core : Nat) (dst : Dst) (xs : List (Nat × Nat × List Word)) : Mach :=
  match dst with
  | .v n => xs.foldl (fun m x => m.modWarp core x.1 (fun w => w.landV x.1 (x.2.2.mapIdx (fun i v => (n.toNat + i, x.2.1, v))))) m
  | .s n => xs.foldl (fun m x => m.modWarp core x.1 (fun w => (x.2.2.mapIdx (fun i v => (n.toNat + i, v))).foldl (fun w c => w.setS c.1 c.2) w)) m
  | .p n => xs.foldl (fun m x => m.modWarp core x.1 (fun w => w.landP x.1 n.toNat [(x.2.1, x.2.2.any (· ≠ 0))])) m
  | _ => m

/-- Results of one warp's lanes reach their registers together, so that PEAK is checked once for the write-back (07 R179). -/
def Mach.deliver (m : Mach) (core : Nat) (dst : Dst) (slots : List Nat) (xs : List (Nat × Nat × List Word)) : Mach :=
  match dst with
  | .v n => slots.foldl (fun m s => m.modWarp core s (fun w =>
      w.landV s ((xs.filter (fun x => x.1 = s)).flatMap (fun x => x.2.2.mapIdx (fun i v => (n.toNat + i, x.2.1, v)))))) m
  | _ => m.writeResults core dst xs

/-! ### FENCE (14 R374) -/

/-- A thread's own accesses that a fence of a kind waits for: `.acq` (1) for the values of its loads, the others for every access. -/
def Mach.fenceHeld (m : Mach) (core kind : Nat) (x : Member) : Bool :=
  m.accesses.any (fun a => a.2.core = core && a.2.members.contains x && (kind ≠ 1 || a.2.op ≠ .store))

/-- Executing members that wait are held at the instruction, each for its own reason; each warp owes its flag until they go on, and has it signalled at once where none waits. -/
def Grp.holdWhere (g : Grp) (m : Mach) (f : Member → Option BlockOn) : Mach :=
  let held := g.execs.filter (fun x => (f x).isSome)
  let m := held.foldl (fun m x => match f x with
    | some w => m.holdMembers g.core g.pc [x] w
    | none => m) m
  g.slots.foldl (fun m s =>
    let ls := lanesIn held s
    if ls = [] then m.signalFlag g.e g.core s g.flag
    else m.modWarp g.core s (fun v => if g.flag < 12 then { v with owes := v.owes ++ [{ flag := g.flag, lanes := maskOf ls }] } else v)) m

/-- Every executing member is held for one reason. -/
def Grp.hold (g : Grp) (m : Mach) (w : BlockOn) : Mach := g.holdWhere m (fun _ => some w)

/-- FENCE holds each executing member for its own accesses (R374). -/
def execFence (o : Op) (s : State) : Host.Outcome State Fault Refusal :=
  .next (issueWith .fence o noCauses (fun g m =>
    let kind := o.mdBits 1 0
    let held := g.execs.filter (m.fenceHeld g.core kind)
    let r : FenceRun := { kind, scope := o.mdBits 8 6, core := g.core, pc := g.pc, members := held, flag := g.flag }
    let m := if held = [] then m else { m with fences := m.fences.set m.nextId r, nextId := m.nextId + 1 }
    g.holdWhere m (fun x => if held.contains x then some (.fence (m.nextId - 1)) else none)) s)

/-- Members released to the next instruction, warp by warp. -/
def Mach.releaseMembers (e : Fw) (m : Mach) (core : Nat) (ms : List Member) : Mach :=
  (slotsOfMembers ms).foldl (fun m s =>
    let cyc := m.cycOf core s
    (m.modWarp core s (fun w => w.releaseNext ((lanesIn ms s).filter (fun l => (w.thread l).st ≠ .exited)) cyc)).settleWarp e core s) m

/-- One fence lets go the members whose own accesses are done. -/
def Mach.checkFence (e : Fw) (m : Mach) (id : Nat) (r : FenceRun) : Mach :=
  let held := r.members.filter (m.fenceHeld r.core r.kind)
  let m1 := { m with fences := if held = [] then m.fences.erase id else m.fences.set id { r with members := held } }
  m1.releaseMembers e r.core (r.members.filter (fun x => !held.contains x))

/-- Fences whose members' accesses are done let them go on. -/
def Mach.checkFences (e : Fw) (m : Mach) : Mach := m.fences.foldl (fun m r => m.checkFence e r.1 r.2) m

/-- The words that RESUME's lanes have taken are written; the lanes still held go on together, each where its take says (15 R396). -/
def Mach.deliverTakes (m : Mach) (core k : Nat) (dst : Dst) (wbs : Bool) (ts : List Take) : Mach :=
  let on := ts.filter (fun t => ((m.warp core t.slot).thread t.lane).st = .blocked .resume)
  let slots := slotsOfMembers (on.map (fun t => { slot := t.slot, lane := t.lane }))
  let m := if wbs then m else m.deliver core dst slots (on.filterMap (fun t => t.got.map (fun r => (t.slot, t.lane, r.1))))
  slots.foldl (fun m s =>
    let mine := on.filter (fun t => t.slot = s)
    let cyc := m.cycOf core s
    m.modWarp core s (fun w =>
      (mine.foldl (fun (w : Warp) t => (w.setP k t.lane t.got.isSome).goTo t.lane ((t.got.map Prod.snd).getD ((w.thread t.lane).pc + 16)) cyc) w).releaseOwed (maskOf (mine.map (·.lane))))) m

/-- The access's results are written, its flag is signalled in the warps it completed in, and fences are looked at again. -/
def deliverAccess (e : Fw) (m : Mach) (id : Nat) (a : Access) : Mach :=
  let m := match a.op with
    | .resume k => m.deliverTakes a.core k a.dst a.wbs a.takes
    | _ => if a.wbs then m else m.deliver a.core a.dst (slotsOfMembers a.members) (a.vals.map (fun (v : Nat × Nat × Nat) => (v.1, v.2.1, a.op.regs v.2.2)))
  let m := a.excs.foldl (fun m x => m.modWarp a.core x.1 (fun w => w.raiseExc x.2)) m
  let m := { m with accesses := m.accesses.erase id }
  let m := m.signalSlots e a.core a.flag a.doneSlots
  let m := (slotsOfMembers a.members).foldl (fun m s => m.settleWarp e a.core s) m
  m.checkFences e

end Sys2Proof.Machine
end

