-- ==== Sys2Proof/Machine/Clock.lean ====
section
/-! DEFINITION. The clocks of a shard and of its slices: operating points and slice ratios, the cycles a slice has run, and whose turn comes within a shard cycle (04 R109; 05 R124 to R126, R129, R134; 07 R190, R193; log 86). -/

namespace Sys2Proof.Machine

/-! ### Ratios (05 R124, R126, R133) -/

/-- FC of an operating point in units of 100 MHz. -/
def opFc (op : Nat) : Nat :=
  match op with
  | 0 => 5 | 1 => 8 | 2 => 11 | 3 => 14 | 4 => 17 | _ => 20

def voteOf (votes p : Nat) : Nat := votes / 16 ^ p % 16

/-- The eighths of 1, 7/8, 3/4, 1/2 and 1/4. -/
def ratios : List Nat := [8, 7, 6, 4, 2]

/-- The droop step of a partition on a shard. -/
def Shard.dstep (h : Shard) (p : Nat) : Nat := h.dsteps.toNat / 8 ^ p % 8

/-- A partition's slice ratio in eighths (R126, R133): the largest whose clock its own vote allows, lowered by its droop step. Without a valid vote of its own it is held to operating point 0's FC, which is the model's choice (log 103). It alters timing only (R134). -/
def Shard.ratio (h : Shard) (p : Nat) : Nat :=
  let own := if 8 ≤ voteOf h.votes.toNat p then opFc (voteOf h.votes.toNat p % 8) else opFc 0
  let i := (ratios.findIdx? (fun r => r * opFc h.fcop ≤ 8 * own)).getD 4
  ratios.getD (min 4 (i + h.dstep p)) 2

/-- Ratio of the slices of a core: its partition's, or 1 where none owns it. -/
def Mach.ratioOf (e : Fw) (m : Mach) (core : Nat) : Nat := match e.ownerOf core with
  | some p => (m.shard (shardOf core)).ratio p
  | none => 8

/-! ### Slice cycles -/

/-- Slice cycles that a ratio gives before shard cycle `n`. -/
def ticksTo (r n : Nat) : Nat := n * r / 8

/-- A slice cycle begins in shard cycle `n`. -/
def ticksIn (r n : Nat) : Bool := ticksTo r n < ticksTo r (n + 1)

/-- The shard cycle up to which a slice's cycles are past. -/
def Shard.pastOf (h : Shard) (core slice : Nat) : Nat := if placeOf core slice < h.turn then h.cycle + 1 else h.cycle

/-- A slice's count takes in the shard cycles it has gone through without work. -/
def Mach.catchUp (e : Fw) (m : Mach) (core slice : Nat) : Mach :=
  let n := (m.shard (shardOf core)).pastOf core slice
  let r := m.ratioOf e core
  m.modSlc core slice (fun s => if s.upto < n then { s with cyc := s.cyc + (ticksTo r n - ticksTo r s.upto), upto := n } else s)

def Mach.catchCore (e : Fw) (m : Mach) (core : Nat) : Mach := (List.range 6).foldl (fun m k => m.catchUp e core k) m

/-- Every slice of a shard, before a ratio changes. -/
def Mach.catchShard (e : Fw) (m : Mach) (shard : Nat) : Mach := (List.range 16).foldl (fun m k => m.catchCore e (16 * shard + k)) m

/-! ### The ring's times (05 R129; 07 R190) -/

def intervalCycles : Nat := 20000

/-- The next boundary of a shard has been reached. -/
def Shard.boundaryDue (h : Shard) : Bool := intervalCycles * h.interval ≤ h.cycle

/-- One revolution (R190). -/
def revolution : Nat := 32

/-- A revolution begins when the last has made its passes and its cycle has come. -/
def Shard.revDue (h : Shard) : Bool := (h.pass = 0 || h.pass = 17) && revolution * h.rev ≤ h.cycle

/-- The next station's pass has come. -/
def Shard.passDue (h : Shard) : Bool := 1 ≤ h.pass && h.pass ≤ 16 && revolution * (h.rev - 1) + 2 * (h.pass - 1) ≤ h.cycle

/-! ### Turns within a shard cycle (07 R193) -/

/-- The handler warp of a core may issue (16 R404, R407). -/
def Mach.handlerActive (m : Mach) (core : Nat) : Bool := (m.core core).service.isSome && !(m.core core).handlerDead

/-- Slices of a shard with a warp, or with a handler in service. -/
def Mach.busyOn (m : Mach) (shard : Nat) : List (Nat × Nat) :=
  (m.warps.filterMap (fun w =>
    let c := w.1 / 128
    if c / 16 ≠ shard then none
    else if w.1 % 128 = handlerSlot then (if m.handlerActive c then some (c, 0) else none)
    else some (c, w.2.slice))).eraseDups

/-- Busy slices whose slice cycle in this shard cycle has still to come. -/
def Mach.waitingTurns (e : Fw) (m : Mach) (shard : Nat) : List (Nat × Nat) :=
  let h := m.shard shard
  (m.busyOn shard).filter (fun x => h.turn ≤ placeOf x.1 x.2 && ticksIn (m.ratioOf e x.1) h.cycle)

/-- The slice whose turn it is: cores and slices in ascending number. -/
def Mach.turnOf (e : Fw) (m : Mach) (shard : Nat) : Option (Nat × Nat) := argmin (fun x => placeOf x.1 x.2) (m.waitingTurns e shard)

/-- A slice's cycle begins: its count goes on, and its place in the shard cycle is passed. -/
def Mach.beginTurn (e : Fw) (m : Mach) (core slice : Nat) : Mach :=
  let m := m.catchUp e core slice
  let m := m.modSlc core slice (fun s => { s with cyc := s.cyc + 1, upto := s.upto + 1, newExc := [] })
  m.modShard (shardOf core) (fun h => { h with turn := placeOf core slice + 1 })

/-- The next shard cycle begins. -/
def Mach.rollover (m : Mach) (shard : Nat) : Mach := m.modShard shard (fun h => { h with cycle := h.cycle + 1, turn := 0, adm := 0 })

/-- Events of a core that take their place in a shard cycle before its slices are still to be made (11 R299). -/
def Mach.beforeSlices (m : Mach) (core : Nat) : Bool := (m.shard (shardOf core)).turn ≤ placeOf core 0

end Sys2Proof.Machine
end

