-- ==== Sys2Proof/Machine/Queue.lean ====
section
/-! DEFINITION. The internal queues and the overflow engine (04 R102 to R107): queue slots held, spill chunks, and the place a new record takes. -/

namespace Sys2Proof.Machine

/-! ### Stores and chunks (R102, R105) -/

/-- A kind of queue: entries of its on-chip store, and records in a 4 KiB chunk. -/
structure QStore where
  cap : Nat
  per : Nat
  deriving DecidableEq, Repr

def geoStore : QStore := { cap := 8192, per := 64 }
def taskStore : QStore := { cap := 256, per := 128 }
def wgStore : QStore := { cap := 512, per := 32 }
def slipStore : QStore := { cap := 64, per := 32 }
def copyStore : QStore := { cap := 128, per := 64 }

/-- Chunks that a queue's spilled records lie in. -/
def QStore.chunks (k : QStore) (q : List (Option Int)) : Nat := (((q.filterMap id).map (fun i => i / (k.per : Int))).eraseDups).length

/-- Where the next record of a queue goes (R104): on chip, or at the tail of its spilled records. `used`: entries of the store taken. -/
def QStore.place (k : QStore) (used : Nat) (q : List (Option Int)) : Option Int :=
  match (q.filterMap id).max? with
  | some i => some (i + 1)
  | none => if used < k.cap then none else some 0

/-- The places of `n` records appended in order. -/
def QStore.places (k : QStore) : Nat → Nat → List (Option Int) → List (Option Int)
  | 0, _, _ => []
  | n + 1, used, q =>
    let x := k.place used q
    x :: k.places n (if x.isNone then used + 1 else used) (q ++ [x])

/-! ### The queues -/

/-- Requests of a launch's copy queue on a core, oldest first. -/
def Mach.copyQ (m : Mach) (bundle launch core : Nat) : List (Nat × Copy) :=
  m.copies.filter (fun c => c.2.bundle = bundle ∧ c.2.launch = launch ∧ c.2.core = core ∧ !c.2.started)

/-- Insertion by queue order. -/
def insertTask (x : Nat × Task) : List (Nat × Task) → List (Nat × Task)
  | [] => [x]
  | y :: r => if x.2.order < y.2.order then x :: y :: r else y :: insertTask x r

/-- Tasks of a launch's queue on a core, not running, oldest first. -/
def Mach.taskQ (m : Mach) (bundle launch core : Nat) : List (Nat × Task) :=
  (m.tasks.filter (fun t => t.2.bundle = bundle ∧ t.2.launch = launch ∧ t.2.core = core ∧ t.2.st ≠ .running)).foldl (fun q x => insertTask x q) []

/-- The block has left its core: its spilled tasks stay in the ring until it is restored (R107). -/
def Mach.away (m : Mach) (b : Nat) : Bool := ((m.blocks.get? b).map (fun k => decide (k.st = .saved ∨ k.st = .held))).getD false

/-- The queue's tasks whose blocks are on the core. -/
def Mach.liveQ (m : Mach) (bundle launch core : Nat) : List (Nat × Task) := (m.taskQ bundle launch core).filter (fun t => !m.away t.2.blk)

/-- On-chip entries taken on a core. -/
def Mach.copyUsed (m : Mach) (core : Nat) : Nat := (m.copies.filter (fun c => c.2.core = core ∧ !c.2.started ∧ c.2.spill = none)).length
def Mach.taskUsed (m : Mach) (core : Nat) : Nat := (m.tasks.filter (fun t => t.2.core = core ∧ t.2.st = .queued ∧ t.2.spill = none)).length
def Mach.allLaunches (m : Mach) : List Launch := m.bundles.flatMap (fun b => b.2.launches.map Prod.snd)
def Mach.slipUsed (m : Mach) (core : Nat) : Nat := ((m.allLaunches.flatMap (·.slips)).filter (fun s => s.core = core ∧ s.spill = none)).length
def Mach.wgUsed (m : Mach) (core : Nat) : Nat := ((m.allLaunches.flatMap (·.wgRecs)).filter (fun s => s.core = core ∧ s.spill = none)).length
def Mach.geoUsed (m : Mach) (shard : Nat) : Nat := ((m.bundles.flatMap (fun b => b.2.bins.flatMap Prod.snd)).filter (fun g => g.shard = shard ∧ g.spill = none)).length

/-! ### Geometry records charged at issue and not yet appended (R106; 13 R331, R344; log 89) -/

/-- The bin of a lane that still owes its record, and the place the record has there. -/
def MLane.owed (l : MLane) : Option (Nat × Option Int) := if l.ending.isNone && l.steps = 0 then l.emits else none

/-- Bundle, shard, bin and place of every record owed, in the order of issue and lane. -/
def Mach.geoOwed (m : Mach) : List (Nat × Nat × Nat × Option Int) :=
  m.macros.flatMap (fun x => x.2.lanes.filterMap (fun l => l.owed.map (fun n => (((m.blockOf x.2.core l.slot).map (·.bundle)).getD 0, shardOf x.2.core, n))))

/-- Records owed by a bundle: bin and place. -/
def Mach.owedBy (m : Mach) (b : Nat) : List (Nat × Option Int) := (m.geoOwed.filter (fun r => r.1 = b)).map (fun r => r.2.2)

/-- On-chip entries of a shard that records take or are owed. -/
def Mach.geoTaken (m : Mach) (shard : Nat) : Nat := m.geoUsed shard + (m.geoOwed.filter (fun r => r.2.1 = shard && r.2.2.2.isNone)).length

/-- Places taken in a bin of a bundle, those of records it is owed among them. -/
def Mach.binPlaces (m : Mach) (b n : Nat) : List (Option Int) :=
  (((m.bundles.get? b).map (fun x => x.bins.get n [])).getD []).map (·.spill) ++ ((m.owedBy b).filter (fun r => r.1 = n)).map Prod.snd

/-- The places (R104) of records that join bins one after another from a shard; `used`: entries taken, `got`: places given so far, by bin. -/
def Mach.geoPlaces (m : Mach) (b : Nat) : List Nat → Nat → Tab (List (Option Int)) → List (Nat × Option Int)
  | [], _, _ => []
  | n :: r, used, got =>
    let p := geoStore.place used (m.binPlaces b n ++ got.get n [])
    (n, p) :: m.geoPlaces b r (if p.isNone then used + 1 else used) (got.set n (got.get n [] ++ [p]))

/-- Chunks that a bundle's bins hold once the records it owes and some more have joined them. -/
def Mach.geoChunks (m : Mach) (b : Nat) (more : List (Nat × Option Int)) : Nat :=
  (((((m.bundles.get? b).map (fun x => x.bins.map Prod.fst)).getD []) ++ (m.owedBy b ++ more).map Prod.fst).eraseDups.map
    (fun n => geoStore.chunks (m.binPlaces b n ++ (more.filter (fun r => r.1 = n)).map Prod.snd))).sum

/-- Slots of a node entry (15 R399), and the slots and chunks of a work graph (15 R400). -/
def nodeSlots (d : Nat × Nat) : Nat := if bit d.1 63 then bits d.1 43 32 + 1 else 0
def WorkGraph.slots (g : WorkGraph) : Nat := (g.nodes.map nodeSlots).sum
def WorkGraph.chunks (g : WorkGraph) : Nat := (g.nodes.map (fun d => (nodeSlots d + 31) / 32)).sum

/-- Queue slots that a launch's own records hold. -/
def Launch.slotsHeld (l : Launch) : Nat := l.slips.length + ((l.wg.map WorkGraph.slots).getD 0)

/-- Queue slots a bundle holds (R103). -/
def Mach.slotsHeld (m : Mach) (b : Nat) : Nat :=
  (m.copies.filter (fun c => c.2.bundle = b ∧ !c.2.started)).length + (m.tasks.filter (fun t => t.2.bundle = b ∧ t.2.st = .queued)).length +
  (m.blocks.map (fun k => if k.2.bundle = b then (k.2.tasks.filter (fun t => t.2.st = .queued)).length else 0)).sum +
  (match m.bundles.get? b with
   | some x => (x.launches.map (fun l => l.2.slotsHeld)).sum + (x.bins.map (fun q => q.2.length)).sum + (m.owedBy b).length
   | none => 0)

/-- Bundles under a node of a partition (01 R24). -/
def Mach.under (m : Mach) (part node : Nat) : List Nat := (m.bundles.filter (fun b => b.2.part = part ∧ b.2.chain.contains node)).map Prod.fst

def Mach.nodeSlotsHeld (m : Mach) (part node : Nat) : Nat := ((m.under part node).map m.slotsHeld).sum

/-- Every node of a bundle's chain has room for `n` more queue slots. -/
def Mach.slotRoom (m : Mach) (b n : Nat) : Bool :=
  match m.bundles.get? b with
  | none => true
  | some x => (x.chain.zip x.effs).all (fun c => m.nodeSlotsHeld x.part c.1 + n ≤ c.2.get 6 0)

/-- Chunks a bundle's queues hold (R105). -/
def Mach.chunksHeld (m : Mach) (b : Nat) : Nat :=
  match m.bundles.get? b with
  | none => 0
  | some x =>
    let ls := x.launches.map Prod.fst
    let cores := (((m.copies.filter (fun c => c.2.bundle = b)).map (fun c => c.2.core)) ++ ((m.tasks.filter (fun t => t.2.bundle = b)).map (fun t => t.2.core))).eraseDups
    (ls.map (fun l => (cores.map (fun c =>
      copyStore.chunks ((m.copyQ b l c).map (fun y => y.2.spill)) + taskStore.chunks ((m.taskQ b l c).map (fun y => y.2.spill)))).sum)).sum +
    (x.launches.map (fun l => slipStore.chunks (l.2.slips.map (·.spill)) + ((l.2.wg.map WorkGraph.chunks).getD 0))).sum +
    m.geoChunks b []

/-- The ring a bundle spills into: its base, and its chunks (R105). -/
def Bundle.ring (b : Bundle) : Nat := bits (b.eff 9) 63 12
def Bundle.ringChunks (b : Bundle) : Nat := 2 ^ (bits (b.eff 9) 5 0 - 12)

/-- Free chunks of a bundle's ring. -/
def Mach.freeChunks (m : Mach) (b : Nat) : Nat :=
  match m.bundles.get? b with
  | none => 0
  | some x => x.ringChunks - ((m.bundles.filter (fun y => y.2.part = x.part ∧ y.2.ring = x.ring)).map (fun y => m.chunksHeld y.1)).sum

/-- QUEUE_QUOTA (R106): `n` records more in a queue of a bundle would pass a budget or find no chunk. -/
def Mach.quotaCause (m : Mach) (b : Nat) (k : QStore) (used : Nat) (q : List (Option Int)) (n : Nat) : Nat :=
  if n = 0 ∨ (m.slotRoom b n ∧ k.chunks (q ++ k.places n used q) ≤ k.chunks q + m.freeChunks b) then 0 else causeQueueQuota

/-! ### Refill (R104) -/

/-- An on-chip entry of a shard is free, and no record is owed it. -/
def Mach.geoRoom (m : Mach) (shard : Nat) : Bool := m.geoTaken shard < geoStore.cap

/-- The oldest spilled copy request, task or record of a queue comes on chip. -/
def refillFirst {α : Type} (get : α → Option Int) (put : α → α) : List α → List α
  | [] => []
  | x :: r => if (get x).isSome then put x :: r else x :: refillFirst get put r

/-- The key of a queue's oldest spilled record. -/
def firstSpilled {α : Type} (get : α → Option Int) (q : List (Nat × α)) : Option Nat := (q.find? (fun x => (get x.2).isSome)).map Prod.fst

/-- QUEUE_REFILL: the bundle and launch of the subject, the queue named. -/
def Mach.refill (m : Mach) (k : QueueKind) (b l : Nat) : Mach :=
  match k with
  | .copyReq core =>
    match firstSpilled (fun (c : Copy) => c.spill) (m.copyQ b l core) with
    | some id => if m.copyUsed core < copyStore.cap then { m with copies := m.copies.modify id (fun c => { c with spill := none }) } else m
    | none => m
  | .tileTask core =>
    match firstSpilled (fun (t : Task) => t.spill) (m.liveQ b l core) with
    | some id => if m.taskUsed core < taskStore.cap then { m with tasks := m.tasks.modify id (fun t => { t with spill := none }) } else m
    | none => m
  | .slip =>
    m.modLaunch b l (fun x =>
      match x.slips.find? (fun s => s.spill.isSome) with
      | some s => if m.slipUsed s.core < slipStore.cap then { x with slips := refillFirst (fun (s : Slip) => s.spill) (fun s => { s with spill := none }) x.slips } else x
      | none => x)
  | .workGraph node =>
    m.modLaunch b l (fun x =>
      match x.wgRecs.find? (fun s => s.node = node && s.spill.isSome) with
      | some s =>
        if m.wgUsed s.core < wgStore.cap then
          { x with wgRecs := refillFirst (fun (s : WgRec) => if s.node = node then s.spill else none) (fun s => { s with spill := none }) x.wgRecs }
        else x
      | none => x)
  | .geometry bin =>
    m.modBundle b (fun x =>
      match (x.bins.get bin []).find? (fun g => g.spill.isSome) with
      | some g =>
        if m.geoRoom g.shard then { x with bins := x.bins.set bin (refillFirst (fun (g : Geo) => g.spill) (fun g => { g with spill := none }) (x.bins.get bin [])) } else x
      | none => x)

def execQueueRefill (k : QueueKind) (s : State) : Host.Outcome State Fault Refusal := .next { s with m := s.m.refill k s.subj.bundle s.subj.launch }

/-! ### USAGE (01 R21, R24) -/

/-- Cores and granules that bundles hold: cores with a share, and the shares' granules. -/
def Mach.coresHeld (m : Mach) (bs : List Nat) : Nat := (m.cores.filter (fun c => c.2.shares.any (fun s => bs.contains s.bundle))).length
def Mach.granulesHeld (m : Mach) (bs : List Nat) : Nat :=
  (m.cores.map (fun c => ((c.2.shares.filter (fun s => bs.contains s.bundle)).map (fun s => s.regg + s.accg + s.scrg)).sum)).sum

/-- USAGE of a node now: cores `[63:55]`, granules `[54:40]`, queue slots `[31:16]`. -/
def Mach.usageOf (m : Mach) (part node : Nat) : Nat :=
  let bs := m.under part node
  m.coresHeld bs % 512 * 2 ^ 55 + m.granulesHeld bs % 32768 * 2 ^ 40 + (bs.map m.slotsHeld).sum % 65536 * 2 ^ 16

/-- What bundles hold of a budgeted resource, by INHERIT bit: cores, granules or queue slots. -/
def Mach.heldOf (m : Mach) (bs : List Nat) (k : Nat) : Nat :=
  match k with
  | 3 => m.coresHeld bs
  | 4 => m.granulesHeld bs
  | _ => (bs.map m.slotsHeld).sum

/-- A node's usage stands below every budget that was lowered under it (01 R24, R25). -/
def Mach.belowLowered (m : Mach) (part node : Nat) : Bool :=
  (((m.rcbs.get? (node * 16 + part)).map (·.lowered)).getD []).all (fun b => decide (m.heldOf (m.under part node) b.1 < b.2))

/-- The device writes USAGE of each node it has walked whose value has changed, in pages that may be read-only to the partition; a lowered budget that usage has fallen below is met. -/
def Mach.syncUsage (e : Fw) (m : Mach) : Mach :=
  m.usages.foldl (fun m r =>
    let u := m.usageOf (r.1 % 16) (r.1 / 16)
    if u = r.2 then m
    else
      let bs := m.under (r.1 % 16) (r.1 / 16)
      let m := { m with usages := m.usages.set r.1 u, rcbs := m.rcbs.modify r.1 (fun x => { x with lowered := x.lowered.filter (fun b => b.2 ≤ m.heldOf bs b.1) }) }
      firmwarePut e (r.1 % 16) m (r.1 / 16 + 48) [u]) m

end Sys2Proof.Machine
end

