-- ==== Sys2Proof/Machine/Interlock.lean ====
section
/-! DEFINITION. Tiles: their sizes and transitions (11 R297 to R299); and the operand-state conditions of R170: what holds an instruction WAITING for its tile, its accumulator handle or its batches (11 R288, R291, R298 to R300; 12 R309, R327). -/

namespace Sys2Proof.Machine

/-! ### Tiles (11 R297, R299) -/

/-- Formats that may stand in a tile that is not SD (02 R44). -/
def tileFmt (c : Nat) : Bool := c = 0x20 || (c = 0x21) || (0x40 ≤ c && c ≤ 0x48)

namespace Tile

def fmtN (t : Tile) : Nat := t.fmt.toNat
/-- RB_T. -/
def rowBytes (t : Tile) : Nat :=
  if t.sd then (t.cols.toNat + 1) / Fmt.payload t.fmtN * 64 else ((t.cols.toNat + 1) * Fmt.width t.fmtN + 127) / 128 * 16
def bytes (t : Tile) : Nat := (t.rows.toNat + 1) * t.rowBytes
def isEmpty (t : Tile) : Bool := t.st = 0
def isFilling (t : Tile) : Bool := t.st = 1
def isReady (t : Tile) : Bool := t.st = 2
def isDraining (t : Tile) : Bool := t.st = 3
/-- EMPTY with no fill pending. -/
def never (t : Tile) : Bool := t.isEmpty && !t.pend

/-- A fill begins. -/
def beginFill (t : Tile) (f : Fill) : Tile := { t with st := 1, pend := true, wrfill := decide (f = .tilewr), fill := f }

/-- The fill completes. -/
def fillDone (t : Tile) : Tile :=
  if t.isFilling then { t with st := 2, pend := false, wrfill := false, fill := .none }
  else if t.isDraining then { t with st := if t.readers = 0 then 0 else 3, pend := false, wrfill := false, fill := .none }
  else { t with fill := .none }

/-- TILERST. -/
def restore (t : Tile) : Tile :=
  if t.isEmpty then { t with pend := false }
  else if t.isFilling then { t with st := 3 }
  else if t.isReady then { t with st := if t.readers = 0 then 0 else 3 }
  else t

/-- A reader in flight is done. -/
def readerDone (t : Tile) : Tile :=
  { t with readers := t.readers - 1, st := if t.isDraining && t.readers ≤ 1 && t.fill = .none then 0 else t.st }

/-- A naming instruction waits (R298). -/
def nameHeld (t : Tile) : Bool := t.isFilling || t.isDraining || (t.isEmpty && t.pend)

end Tile

def Mach.tile (m : Mach) (blk n : Nat) : Tile := ((m.blocks.get? blk).map (fun b => b.tiles.get n Tile.reset)).getD Tile.reset
def Mach.modTile (m : Mach) (blk n : Nat) (f : Tile → Tile) : Mach := m.modBlock blk (fun b => { b with tiles := b.tiles.set n (f (b.tiles.get n Tile.reset)) })

/-! ### What holds a thread (07 R170) -/

/-- A uniform constant as memory holds it now, for the conditions of readiness. -/
def peekConst (e : Fw) (m : Mach) (core slot n : Nat) : Option Word :=
  match m.launchOf core slot with
  | none => some (Config.handlerConst n)
  | some l =>
    match peekXl e m ((e.ownerOf core).getD 0) (l.constBase + 4 * n) .load with
    | .ok pa _ => some (BitVec.ofNat 32 (memRead m.mem pa 4))
    | .err _ => none

/-- The handle an instruction names through its first source; none where it cannot be read. -/
def handleOf (e : Fw) (m : Mach) (core slot : Nat) (o : Op) : Option Nat :=
  match o.a with
  | .s n => some ((m.warp core slot).sreg n.toNat).toNat
  | .imm => some o.immN
  | .const n => (peekConst e m core slot n.toNat).map BitVec.toNat
  | _ => none

/-- An instruction of this core cycle has named the handle (12 R309). -/
def Block.namedAt (b : Block) (h now : Nat) : Bool := b.accUse.get? h = some now

/-- The handle's in-flight set is not empty, or another instruction of this core cycle has named the handle (12 R309). -/
def handleHeld (e : Fw) (m : Mach) (core slot blk : Nat) (o : Op) : Bool :=
  match handleOf e m core slot o, m.blocks.get? blk with
  | some h, some b => b.namedAt h (m.shard (shardOf core)).cycle || ((b.accs.get? h).map (fun a => !a.inflight.isEmpty)).getD false
  | _, _ => false

def Dst.tileNo (d : Dst) : Nat := match d with
  | .tile n => n.toNat
  | _ => 0

/-- Copies of a block not completed (11 R289). -/
def Mach.copiesOf (m : Mach) (blk : Nat) : Nat := (m.copies.filter (fun c => c.2.blk = some blk)).length

/-! ### Accumulator storage (05 R121 to R123; 12 R307) -/

/-- Element width of an accumulator format. -/
def Acc.width (a : Acc) : Nat := Fmt.width a.fmt

/-- Units of 4 KiB of an M × N array. -/
def accUnits (m n fmt : Nat) : Nat := (m * n * Fmt.width fmt + 32767) / 32768

def Acc.units (a : Acc) : Nat := accUnits a.m a.n a.fmt

def Block.unitsHeld (b : Block) : Nat := (b.accs.map (fun a => a.2.units)).sum
def Block.unitsAwaited (b : Block) : Nat := (b.accWait.map (·.units)).sum

/-- Blocks of a launch that hold storage on a core. -/
def Mach.blocksOn (m : Mach) (core bundle launch : Nat) : List (Nat × Block) :=
  m.blocks.filter (fun b => b.2.core = core ∧ b.2.bundle = bundle ∧ b.2.launch = launch ∧ (b.2.st = .resident ∨ b.2.st = .saving))

/-- Free units of a launch share. -/
def Mach.unitsFree (m : Mach) (core : Nat) (s : Share) : Nat := s.accg * 4 - ((m.blocksOn core s.bundle s.launch).map (fun b => b.2.unitsHeld)).sum

/-- A thread of a stalled holder (05 R122). -/
def TState.stalls : TState → Bool
  | .exited => true
  | .parked _ => true
  | .blocked (.acalloc _) => true
  | .blocked (.bar _ _) => true
  | _ => false

/-- The conditions of R123 hold in a share now. -/
def Mach.shareStalled (m : Mach) (core : Nat) (s : Share) : Bool :=
  let bs := m.blocksOn core s.bundle s.launch
  let ws := bs.flatMap (fun b => b.2.accWait)
  !ws.isEmpty && ws.all (fun w => m.unitsFree core s < w.units) &&
  (bs.filter (fun b => !b.2.accs.isEmpty)).all (fun b =>
    m.warps.all (fun w => w.1 % 128 = handlerSlot || w.2.blk ≠ b.1 || w.2.threads.all (fun t => t.2.st.stalls)))

/-- The core keeps since when the conditions have held in each share. -/
def Mach.syncStall (m : Mach) (core : Nat) : Mach :=
  if (m.core core).shares = [] then m
  else
    let now := (m.shard (shardOf core)).cycle
    m.modCore core (fun c => { c with shares := c.shares.map (fun (s : Share) => { s with stall := if m.shareStalled core s then some (s.stall.getD now) else none }) })

/-! ### The arbiter (05 R121) -/

/-- A waiter is granted: the handle is held, its scalar register takes its number, its thread goes on. -/
def Mach.accServe (m : Mach) (core blk : Nat) (w : AccWait) : Mach :=
  let a : Acc := { sat := false, m := bits w.cfg 23 16 + 1, n := bits w.cfg 15 8 + 1, fmt := bits w.cfg 7 0, data := [], grant := m.grantKey core, inflight := [] }
  let m := { m with nextId := m.nextId + 1 }
  let m := m.modBlock blk (fun b => { b with accs := b.accs.set w.h a, accWait := b.accWait.filter (fun x => x.id ≠ w.id) })
  let cyc := m.cycOf core w.slot
  m.modWarp core w.slot (fun v =>
    let v := match w.dst with
      | some d => v.setS d (BitVec.ofNat 32 w.h)
      | none => v
    v.releaseNext ((List.range 32).filter (fun l => (v.thread l).st = .blocked (.acalloc w.id))) cyc)

/-- Waiters of a launch share, oldest placement age first. -/
def Mach.accWaiters (m : Mach) (core : Nat) (s : Share) : List (Nat × Nat × AccWait) :=
  (m.blocksOn core s.bundle s.launch).flatMap (fun b => (if b.2.st = .resident then b.2.accWait else []).map (fun w => (b.2.age, b.1, w)))

/-- The oldest waiter whose request fits is granted, until none fits: at most `fuel` times. Requests of one block go in the order they issued (log 90). -/
def grantShare (core : Nat) (s : Share) : Nat → Mach → Mach
  | 0, m => m
  | fuel + 1, m =>
    match argmin (fun (w : Nat × Nat × AccWait) => w.1) ((m.accWaiters core s).filter (fun w => w.2.2.units ≤ m.unitsFree core s)) with
    | some w => grantShare core s fuel (m.accServe core w.2.1 w.2.2)
    | none => m

/-- The core's arbiter after units have been freed or asked for. -/
def Mach.grantAcc (m : Mach) (core : Nat) : Mach :=
  (m.core core).shares.foldl (fun m s => grantShare core s (m.accWaiters core s).length m) m

/-! ### The interlocks -/

/-- The instruction's tiles, handle and batches let a thread issue it. -/
def interlockOk (e : Fw) (m : Mach) (core slot : Nat) (t : Thread) (k : Mn) (o : Op) : Bool :=
  if slot = handlerSlot then true
  else
    let blk := (m.warp core slot).blk
    let lo := m.tile blk (o.mdBits 3 0)
    match k with
    | .tilerd => !lo.nameHeld
    | .tilewr => !(lo.isDraining || (lo.isFilling && !lo.wrfill))
    | .tilecfg => let x := m.tile blk (Dst.tileNo o.dst); !(x.isFilling || x.isDraining || (x.isReady && 0 < x.readers))
    | .cpy => if o.mdBits 10 8 = 3 then !lo.nameHeld else if o.mdBits 10 8 = 2 then !(lo.isFilling || lo.isDraining) else true
    | .cpseal => decide (t.sealedB.length < 255)
    | .cont => decide (t.sealedB.length < 255)
    | .mma => !lo.nameHeld && !(m.tile blk (o.mdBits 7 4)).nameHeld && !handleHeld e m core slot blk o
    | .mmas => !lo.nameHeld && !(m.tile blk (o.mdBits 7 4)).nameHeld && !handleHeld e m core slot blk o
    | .acdrain => let x := m.tile blk (Dst.tileNo o.dst); !(x.isFilling || x.isDraining) && !handleHeld e m core slot blk o
    | .acfree => !handleHeld e m core slot blk o
    | .acrd => !handleHeld e m core slot blk o
    | .acwr => !handleHeld e m core slot blk o
    | .aczero => !handleHeld e m core slot blk o
    | _ => true

end Sys2Proof.Machine
end

