-- ==== Sys2Proof/Machine/Copy.lean ====
section
/-! DEFINITION. Row 10: copies, batches, byte-counting barriers, tiles, multicast and copy requests (11 R282 to R305). -/

namespace Sys2Proof.Machine

/-! ### Records an instruction names (01 R39; 10 R270) -/

/-- The outcome of reading an instruction's records. -/
inductive RecRes where
  | ok (rs : List (List Nat))
  | fault (va cause : Nat)
  | poison
  deriving DecidableEq, Repr

/-- Reads records of `n` words, each at its address, as loads of the core. -/
def fetchRecords (e : Fw) (core part n : Nat) : Mach → List Nat → Mach × RecRes
  | m, [] => (m, .ok [])
  | m, va :: r =>
    match translate e m core part va .load with
    | (m1, .err c) => (m1, .fault va c)
    | (m1, .ok pa _) =>
      if poisoned m1 pa (8 * n) then (m1, .poison)
      else match fetchRecords e core part n m1 r with
        | (m2, .ok rs) => (m2, .ok (memWords m1.mem pa n :: rs))
        | x => x

/-- A record's page fault: the members wait at the instruction, to be replayed (R270, R287). -/
def Grp.recFault (g : Grp) (m : Mach) (va cause : Nat) : Mach :=
  g.slots.foldl (fun m s =>
    if g.execLanes s = [] then m.signalFlag g.e g.core s g.flag
    else if s = handlerSlot then Mach.abandonService g.e m g.core [407, cause] g.pc
    else
      let ls := maskOf (g.execLanes s)
      let tag := ((m.blocks.get? (m.warp g.core s).blk).map m.tagOf).getD 0
      let m := m.modWarp g.core s (fun w => w.settleMask (g.replays.contains s) ls ls)
      m.faultWait g.core s g.part (lanesIn g.members s) (g.faultRec s false false)
        [{ page := va % 2 ^ 57 / 4096, cause, kind := 0, core := g.core, wslot := s, lanes := ls, tag }]) m

/-- A record whose data has an uncorrectable error: each warp that reads it traps (R274). -/
def Grp.recPoison (g : Grp) (m : Mach) : Mach :=
  g.slots.foldl (fun m s =>
    if g.execLanes s = [] then m.signalFlag g.e g.core s g.flag
    else
      let ls := maskOf (g.execLanes s)
      let m := m.standAt g.core s g.pc (lanesIn g.members s)
      let m := m.modWarp g.core s (fun w => (w.settleMask (g.replays.contains s) ls ls).await (g.faultRec s true true))
      Mach.takeTrap g.e m g.core causeUncorrectable 0 g.pc (g.execLanes s) [s]) m

/-- A group issues an instruction that reads records at issue: causes that need no record (`pre`), the reading, the causes that rest on the records, and the effect. Where a cause that rests on a record is the one reported, what the reading itself did stays (R399), whatever higher causes stand beside it. -/
def issueRead (k : Mn) (o : Op) (pre : Grp → List Nat) (read : Grp → Mach → Mach × RecRes) (own : Grp → List (List Nat) → List Nat)
    (eff : Grp → List (List Nat) → Mach → Mach) (s : State) : State :=
  let g := groupOf s k o
  let r := g.fetchConsts g.m
  let gc := g.withConsts r.2
  let q := if gc.unread || gc.execs.isEmpty then (r.1, .ok []) else read gc r.1
  let early := gc.commonCauses ++ pre gc
  let c := minCause (early ++ (match q.2 with
    | .ok rs => if gc.execs.isEmpty then [] else own gc rs
    | _ => []))
  if c ≠ 0 then { s with m := gc.trap (if minCause early = c then g.m else q.1) c }
  else match r.2 with
    | .fault va cause => { s with m := gc.constFault (gc.pay r.1) va cause }
    | .poison => { s with m := Mach.takeTrap g.e ((gc.pay r.1).breakChain g.core g.slice) g.core causeUncorrectable 0 g.pc (g.execs.map (·.lane)) g.execSlots }
    | .ok _ => match q.2 with
      | .ok rs => { s with m := eff gc rs (gc.commit q.1) }
      | .fault va cause => { s with m := gc.recFault (gc.commit q.1) va cause }
      | .poison => { s with m := gc.recPoison (gc.commit q.1) }

/-- The records are of `n` words each, at the addresses given. -/
def issueRec (k : Mn) (o : Op) (n : Nat) (pre : Grp → List Nat) (vas : Grp → List Nat) (own : Grp → List (List Nat) → List Nat)
    (eff : Grp → List (List Nat) → Mach → Mach) (s : State) : State :=
  issueRead k o pre (fun g m => fetchRecords g.e g.core g.part n m (vas g)) own eff s

/-! ### Batches (R291 to R293) -/

/-- Sealed batches finish in order: their copy statuses join the thread's, and U falls. -/
def finishBatches : List Batch → Word → List Batch × Word × Bool
  | [], st => ([], st, false)
  | b :: r, st =>
    if b.left = 0 then
      let x := finishBatches r (st ||| b.status)
      (x.1, x.2.1, true)
    else (b :: r, st, false)

def Thread.finish (t : Thread) : Thread × Bool :=
  let x := finishBatches t.sealedB t.copyst
  ({ t with sealedB := x.1, copyst := x.2.1 }, x.2.2)

/-- CPSEAL in a thread. -/
def Thread.sealBatch (t : Thread) : Thread := { t with sealedB := t.sealedB ++ [t.openB], openB := { no := t.openB.no + 1, left := 0, status := 0 } }

/-- The copy status goes to the register that CPWAIT names, and is cleared. -/
def Warp.takeStatus (w : Warp) (l : Nat) (dst : Option (Nat × Bool)) : Warp :=
  match dst with
  | none => w
  | some (n, wr) =>
    let st := (w.thread l).copyst
    let w := w.modThread l (fun t => { t with copyst := 0 })
    if wr then w.writeV [(n, l, st)] else w

/-- A thread in CPWAIT goes on once its U allows. -/
def Mach.checkCpwait (e : Fw) (m : Mach) (core slot l : Nat) : Mach :=
  let t := (m.warp core slot).thread l
  match t.st with
  | .blocked (.cpwait n d) =>
    if t.sealedB.length ≤ n then
      let cyc := m.cycOf core slot
      (m.modWarp core slot (fun w => (w.takeStatus l d).releaseNext [l] cyc)).settleWarp e core slot
    else m
  | _ => m

/-- The batches of a thread are looked at again; a finished batch is a progress event (16 R426). -/
def Mach.settleThread (e : Fw) (m : Mach) (core slot l : Nat) : Mach :=
  let w := m.warp core slot
  let m := if ((w.thread l).finish).2 && slot ≠ handlerSlot then m.progress w.blk else m
  (m.modWarp core slot (fun w => w.modThread l (fun t => t.finish.1))).checkCpwait e core slot l

def execCpseal (o : Op) (s : State) : Host.Outcome State Fault Refusal :=
  .next (issueWith .cpseal o noCauses (fun g m =>
    g.execs.foldl (fun m x => (m.modWarp g.core x.slot (fun w => w.modThread x.lane Thread.sealBatch)).settleThread g.e g.core x.slot x.lane) m) s)

def Op.statusDst (o : Op) : Option (Nat × Bool) := match o.dst with
  | .v n => some (n.toNat, !o.ctl.wbs)
  | _ => none

def execCpwait (o : Op) (s : State) : Host.Outcome State Fault Refusal :=
  .next (issueWith .cpwait o noCauses (fun g m =>
    let n := bits o.immN 7 0
    let u (x : Member) : Nat := ((g.warp x).thread x.lane).sealedB.length
    let m := g.execs.foldl (fun m x => if u x ≤ n then m.modWarp g.core x.slot (fun w => w.takeStatus x.lane (Op.statusDst o)) else m) m
    g.holdWhere m (fun x => if u x ≤ n then none else some (.cpwait n (Op.statusDst o)))) s)

/-! ### Byte-counting barriers (R294 to R296) -/

/-- One update of the object: PENDING moves, and a phase ends when it comes to 0 from elsewhere. -/
def Mach.bcAdd (m : Mach) (blk off : Nat) (d : Int) : Mach :=
  let (phase, pend) := m.bcObj blk off
  let pend' := truncN 32 ((pend : Int) + d)
  let phase' := if pend ≠ 0 ∧ pend' = 0 then (phase + 1) % 2 ^ 32 else phase
  m.scrPut blk off 8 (phase' * 2 ^ 32 + pend')

/-- Bytes that a cancelled copy had taken return to PENDING: neither a BCINIT nor a delivery, so no phase ends (R296, R306). -/
def Mach.bcReturn (m : Mach) (blk off : Nat) (d : Int) : Mach :=
  let (phase, pend) := m.bcObj blk off
  m.scrPut blk off 8 (phase * 2 ^ 32 + truncN 32 ((pend : Int) + d))

/-- The object's offset in a lane, and its checks (R262, R295). -/
def Grp.bcOff (g : Grp) (x : Member) : Nat := g.memAddr false x
def bcCauses (g : Grp) : List Nat :=
  g.valued [g.o.a] <| g.execs.flatMap (fun x => [allocCause g.scrBytes (g.bcOff x) 16, if g.bcOff x % 16 = 0 then 0 else causeMisaligned])

/-- A BCINIT form: its update in each executing lane that is no helper, and then its flag. -/
def bcinit (k : Mn) (o : Op) (f : Grp → Mach → Member → Mach) (s : State) : State :=
  issueWith k o bcCauses (fun g m => ((g.execs.filter (fun x => !g.helper x)).foldl (f g) (g.freeReads g.execLanes m)).signalSlots g.e g.core g.flag g.slots) s

def execBcinitInit (o : Op) (s : State) : Host.Outcome State Fault Refusal :=
  .next (bcinit .bcinitInit o (fun g m x => m.scrPut (g.blkId x) (g.bcOff x) 16 0) s)
def execBcinitArm (o : Op) (s : State) : Host.Outcome State Fault Refusal :=
  .next (bcinit .bcinitArm o (fun g m x => m.bcAdd (g.blkId x) (g.bcOff x) (g.b32 x).toInt) s)

def execBcwait (o : Op) (s : State) : Host.Outcome State Fault Refusal :=
  .next (issueWith .bcwait o bcCauses (fun g m =>
    g.holdWhere (g.freeReads g.execLanes m) (fun x =>
      if bcPassed (m.bcObj (g.blkId x) (g.bcOff x)).1 (g.b32 x).toNat then none else some (.bcwait (g.bcOff x) (g.b32 x).toNat))) s)

/-! ### Tile instructions (R300, R301) -/

/-- The member with the lowest lane of each block that has executing members (R300). -/
def Grp.oncePerBlock (g : Grp) : List Member :=
  (g.blocksOf g.execs).filterMap (fun b => g.execs.find? (fun x => x.slot ≠ handlerSlot && g.blkId x = b))

/-- The registers that TILECFG writes. -/
def tileOf (o : Op) (a b : Word) : Tile :=
  { Tile.reset with cols := a.extractLsb' 20 12, rows := a.extractLsb' 12 8, fmt := a.setWidth 8, sd := o.mdBit 0, recv := o.mdBit 1, pend := o.mdBit 2, base := b.setWidth 30 }

/-- R300. -/
def tilecfgCauses (o : Op) (g : Grp) : List Nat :=
  g.oncePerBlock.flatMap (fun x =>
    let t := tileOf o (g.a32 x) (g.b32 x)
    let base := (g.b32 x).toNat
    let p := Fmt.payload t.fmtN
    let bad := bits (g.a32 x).toNat 11 8 ≠ 0 || (if t.sd then p = 0 || (t.cols.toNat + 1) % p ≠ 0 else !tileFmt t.fmtN)
    g.valued [o.a] [if bad then causeIllegalFormat else 0] ++ g.valued [o.a, o.b] [if bad then 0 else allocCause g.scrBytes base t.bytes] ++
    g.valued [o.b] [if base % 64 = 0 then 0 else causeMisaligned])

def execTilecfg (o : Op) (s : State) : Host.Outcome State Fault Refusal :=
  .next (issueWith .tilecfg o (tilecfgCauses o) (fun g m =>
    g.oncePerBlock.foldl (fun m x => m.modTile (g.blkId x) (Dst.tileNo o.dst) (fun t => { tileOf o (g.a32 x) (g.b32 x) with readers := t.readers })) m) s)

/-- The tile a form names in MOD `[3:0]`, in a member's block. -/
def Grp.tileLo (g : Grp) (x : Member) : Tile := g.m.tile (g.blkId x) (g.o.mdBits 3 0)

/-- The status word of TILEST. -/
def Tile.status (t : Tile) : Nat :=
  t.st.toNat + (if t.pend then 4 else 0) + (if t.recv then 8 else 0) + (if t.sd then 16 else 0) + t.fmtN * 256

def execTilest (o : Op) (s : State) : Host.Outcome State Fault Refusal := .next (laneOp .tilest o noCauses false (fun g x => (BitVec.ofNat 64 (g.tileLo x).status, 0)) s)

/-- The offset checks of TILERD and TILEWR. -/
def tileOffCauses (g : Grp) (x : Member) : List Nat :=
  let a := (g.a32 x).toNat
  g.valued [g.o.a] [if a % 4 = 0 then 0 else causeMisaligned, if a < (g.tileLo x).bytes then 0 else causeExtent]

/-- The word of a tile at an offset. -/
def Grp.tileWord (g : Grp) (m : Mach) (x : Member) : Nat :=
  match m.blocks.get? (g.blkId x) with
  | some b => scrRead b ((g.tileLo x).base.toNat + (g.a32 x).toNat) 4
  | none => 0

/-- TILERD reads the tile and writes its register at once; the flag follows (R298, R301). -/
def execTilerd (o : Op) (s : State) : Host.Outcome State Fault Refusal :=
  .next (issueWith .tilerd o (fun g => g.execs.flatMap (fun x => (if tileFmt (g.tileLo x).fmtN || (g.tileLo x).sd then 0 else causeIllegalFormat) :: (if (g.tileLo x).never then causeTileNever else 0) :: tileOffCauses g x)) (fun g m =>
    let vals := g.execs.map (fun x => (x.slot, x.lane, [BitVec.ofNat 32 (g.tileWord m x)]))
    let m := g.freeReads g.execLanes m
    let m := if o.ctl.wbs then m else m.deliver g.core o.dst g.execSlots vals
    m.signalSlots g.e g.core g.flag g.slots) s)

/-- TILEWR: a first write begins the fill; with FIN every write of the fill has been made (R299, R301). -/
def execTilewr (o : Op) (s : State) : Host.Outcome State Fault Refusal :=
  .next (issueWith .tilewr o (fun g => g.execs.flatMap (fun x => (if (g.tileLo x).isReady then causeTileNever else 0) :: tileOffCauses g x)) (fun g m =>
    let ws := g.execs.filter (fun x => !g.helper x && x.slot ≠ handlerSlot)
    let n := o.mdBits 3 0
    let m := ws.foldl (fun m x =>
      let t := m.tile (g.blkId x) n
      let m := if t.isEmpty then m.modTile (g.blkId x) n (fun t => t.beginFill .tilewr) else m
      m.scrPut (g.blkId x) (t.base.toNat + (g.a32 x).toNat) 4 (g.b32 x).toNat) m
    let m := if o.mdBit 4 then (g.blocksOf ws).foldl (fun m b => m.modTile b n (fun t => { t with fill := .written })) m else m
    (g.freeReads g.execLanes m).signalSlots g.e g.core g.flag g.slots) s)

def execTilerst (o : Op) (s : State) : Host.Outcome State Fault Refusal :=
  .next (issueWith .tilerst o noCauses (fun g m => (g.blocksOf g.execs).foldl (fun m b => m.modTile b (o.mdBits 3 0) Tile.restore) m) s)

/-! ### CPY and CPYM (R286 to R289, R302) -/

namespace Grp
def cpyDir (g : Grp) : Nat := g.o.mdBits 10 8
def cpyX (g : Grp) : Nat := g.o.mdBits 3 0
def cpySlot (g : Grp) : Nat := g.o.mdBits 7 4
def ntlr (g : Grp) : Nat := ((g.launch?).map Launch.ntlr).getD 0
def tlrVa (g : Grp) (slot : Nat) : Nat := ((g.launch?).map Launch.tlrBase).getD 0 + 64 * slot
def bc (g : Grp) : Bool := bit g.o.immN 0
/-- Coordinate `k` in a lane. -/
def coord (g : Grp) (x : Member) (k : Nat) : Int :=
  match g.o.a with
  | .v n => ((g.warp x).vreg (n.toNat + k) x.lane).toInt
  | .s n => ((g.warp x).sreg (n.toNat + k)).toInt
  | _ => 0
def org (g : Grp) (x : Member) (t : List Nat) : List Int := (List.range (Tlr.ndim t)).map (g.coord x)
/-- The coordinate registers run past V255 or S23. -/
def orgRuns (g : Grp) (t : List Nat) : Bool :=
  match g.o.a with
  | .v n => 256 < n.toNat + Tlr.ndim t
  | .s n => 24 < n.toNat + Tlr.ndim t
  | _ => true
/-- Places of the launch's copy queue on the core. -/
def copySpills (g : Grp) (m : Mach) : List (Option Int) := (m.copyQ g.bundleId g.launchId g.core).map (fun c => c.2.spill)
end Grp

/-- A tile and a box agree (R288; 21 R461). -/
def boxMatch (t : Tile) (r : List Nat) : Bool :=
  decide (t.sd = Tlr.sd r) && (t.sd || decide (t.fmtN = Tlr.fmt r)) && decide (t.rowBytes = Tlr.rowBytes r) && decide (t.rows.toNat + 1 = Tlr.rows r)

/-- Records that a DIR 5 copy may join. -/
def sameBox (r d : List Nat) : Bool :=
  decide (Tlr.fmt r = Tlr.fmt d) && decide (Tlr.sd r = Tlr.sd d) && decide (Tlr.ndim r = Tlr.ndim d) && [0, 1, 2, 3, 4].all (fun k => Tlr.box r k = Tlr.box d k)

/-- Alignment of scratch offsets and bases: 64 for SD, otherwise 16. -/
def boxAlign (r : List Nat) : Nat := if Tlr.sd r then 64 else 16

/-- The bases and the origin of a box are aligned. -/
def boxAligned (r d : List Nat) (org : List Int) : Bool :=
  Tlr.base r % boxAlign r = 0 && Tlr.base d % boxAlign r = 0 && (org.headD 0 * (Tlr.width r : Int)) % 128 = 0

/-- Checks of R288 that rest on no record, for one lane: whatever box the copy moves, an offset or a peer address that is no multiple of 16 is misaligned, an offset beyond the allocation leaves the whole range beyond it, and its tile has a format and comes to hold what the direction needs. -/
def cpyFree (g : Grp) (x : Member) : List Nat :=
  let t := g.tileLo x
  if g.cpyDir ≤ 1 then g.valued [g.o.b] [if (g.b32 x).toNat % 16 = 0 then 0 else causeMisaligned, if g.scrBytes ≤ (g.b32 x).toNat then causeSegLimit else 0]
  else if g.cpyDir = 4 then g.valued [g.o.b] [if (g.b64 x).toNat % 16 = 0 then 0 else causeMisaligned]
  else if g.cpyDir = 2 ∨ g.cpyDir = 3 then
    [if tileFmt t.fmtN || t.sd then 0 else causeIllegalFormat, if (g.cpyDir = 3 && t.never) || (g.cpyDir = 2 && t.isReady) then causeTileNever else 0]
  else []

/-- Checks made for executing lanes: with none there is nothing to check (R288). -/
def Grp.forLanes (g : Grp) (cs : List Nat) : List Nat := if g.execs.isEmpty then [] else cs

def cpyPre (g : Grp) : List Nat := g.forLanes <|
  [if g.ntlr ≤ g.cpySlot || (g.cpyDir = 5 && g.ntlr ≤ g.cpyX) then causeTlrInvalid else 0] ++ g.execs.flatMap (cpyFree g) ++
  (if g.bc then g.valued [g.o.c] (g.execs.flatMap (fun x => [allocCause g.scrBytes (g.c32 x).toNat 16, if (g.c32 x).toNat % 16 = 0 then 0 else causeMisaligned])) else [])

/-- The slots a copy names: its source's, and for DIR 5 its destination's. -/
def Grp.cpySlots (g : Grp) : List Nat := g.cpySlot :: (if g.cpyDir = 5 then [g.cpyX] else [])

/-- Records are read of the slots below NTLR. -/
def cpyVas (g : Grp) : List Nat := (g.cpySlots.filter (fun n => n < g.ntlr)).map g.tlrVa

/-- Copies whose executing lane is a helper are not made (07 R188). -/
def Grp.copiers (g : Grp) : List Member := g.execs.filter (fun x => !g.helper x)

/-- Checks of R288 that rest on the records, for one lane. -/
def cpyLane (g : Grp) (r : List Nat) (x : Member) : List Nat :=
  let b := (g.b32 x).toNat
  if g.cpyDir ≤ 1 then g.valued [g.o.b] [allocCause g.scrBytes b (Tlr.boxBytes r), if b % boxAlign r = 0 then 0 else causeMisaligned]
  else if g.cpyDir = 2 ∨ g.cpyDir = 3 then [if boxMatch (g.tileLo x) r then 0 else causeIllegalFormat]
  else []

/-- What every record of a copy is held to, by its words as they stand (R288; 01 R38): it is usable, its rank leaves the coordinates among the registers, and its base and the box's origin are aligned. All of them compete, also in a record that is not usable (00 R17; log 81). -/
def recordChecks (g : Grp) (r : List Nat) : List Nat :=
  (if Tlr.usable r then 0 else causeTlrInvalid) :: (if g.orgRuns r then causeIllegalOpcode else 0) :: g.execs.map (fun x => if boxAligned r r (g.org x r) then 0 else causeMisaligned)

/-- A copy request finds no room (04 R106). -/
def copyRoom (g : Grp) : Nat := g.m.quotaCause g.bundleId copyStore (g.m.copyUsed g.core) (g.copySpills g.m) g.copiers.length

/-- Causes that rest on the records that could be read: each one's own, those of the source and the lanes' operands, and of two records that agree. -/
def cpyOwn (g : Grp) (rs : List (List Nat)) : List Nat :=
  rs.flatMap (recordChecks g) ++
  (if g.ntlr ≤ g.cpySlot then [] else copyRoom g :: g.execs.flatMap (cpyLane g (rs.headD []))) ++
  (match rs with
   | [r, d] => [if sameBox r d then 0 else causeIllegalFormat]
   | _ => [])

/-- A copy request joins its queue (R282; 04 R104). -/
def Mach.addCopy (m : Mach) (c : Copy) : Mach :=
  let spill := copyStore.place (m.copyUsed c.core) ((m.copyQ c.bundle c.launch c.core).map (fun x => x.2.spill))
  { m with copies := m.copies.set m.nextId { c with spill }, nextId := m.nextId + 1 }

/-- The copy of a member, before its direction's own fields. -/
def Grp.copyOf (g : Grp) (x : Member) (r : List Nat) : Copy :=
  { blk := some (g.blkId x), part := g.part, bundle := g.bundleId, launch := g.launchId, core := g.core, dir := g.cpyDir, warp := (g.warp x).num, lane := x.lane, rcd := r, org := g.org x r,
    b := 0, x := g.cpyX, bar := none, drec := r, batch := ((g.warp x).thread x.lane).openB.no, spill := none, started := false, pos := 0, sub := 0, status := 0, rcvs := [], shard := shardOf g.core,
    reading := false, waitSeq := none, draft := none, linked := none, req := none, ended := false }

/-- A copy joins its thread's open batch and its queue. -/
def Grp.sendCopy (g : Grp) (m : Mach) (x : Member) (c : Copy) : Mach :=
  (m.modWarp g.core x.slot (fun w => w.modThread x.lane (fun t => { t with openB := { t.openB with left := t.openB.left + 1 } }))).addCopy c

/-- Last reads of a form whose first source names `n` registers. -/
def Grp.freeCoords (g : Grp) (r : List Nat) (m : Mach) : Mach :=
  let m := g.freeReads g.execLanes m
  match g.o.ctl.lastA, g.o.a with
  | true, .v n => m.clearReads g.core (g.execSlots.flatMap (fun s => (List.range (Tlr.ndim r)).map (fun k => (s, n.toNat + k, maskOf (g.execLanes s)))))
  | _, _ => m

/-- R287, for one member. -/
def Grp.cpyOne (g : Grp) (r d : List Nat) (m : Mach) (x : Member) : Mach :=
  let c := { g.copyOf x r with drec := d, bar := if g.bc then some (g.c32 x).toNat else none, b := if g.cpyDir = 4 then (g.b64 x).toNat else (g.b32 x).toNat }
  if g.cpyDir = 2 then
    (g.sendCopy m x { c with rcvs := [{ core := g.core % 16, offered := true, blk := some (g.blkId x), done := false }] }).modTile (g.blkId x) g.cpyX (fun t => t.beginFill .copy)
  else if g.cpyDir = 3 then (g.sendCopy m x { c with reading := true }).modTile (g.blkId x) g.cpyX (fun t => { t with readers := t.readers + 1 })
  else g.sendCopy m x c

def execCpy (o : Op) (s : State) : Host.Outcome State Fault Refusal :=
  .next (issueRec .cpy o 8 cpyPre cpyVas cpyOwn (fun g rs m =>
    let r := rs.headD []
    let m := g.copiers.foldl (g.cpyOne r ((rs.drop 1).headD r)) m
    let m := if g.cpyDir = 0 ∨ g.cpyDir = 2 then m else (g.blocksOf g.copiers).foldl Mach.visible m
    (g.freeCoords r m).signalSlots g.e g.core g.flag g.slots) s)

def cpymPre (g : Grp) : List Nat := g.forLanes [if g.ntlr ≤ g.cpySlot then causeTlrInvalid else 0]
def cpymVas (g : Grp) : List Nat := if g.ntlr ≤ g.cpySlot then [] else [g.tlrVa g.cpySlot]
def cpymOwn (g : Grp) (rs : List (List Nat)) : List Nat :=
  match rs with
  | [] => []
  | r :: _ =>
    recordChecks g r ++ [if Tlr.mcast r = 0 then causeTlrInvalid else 0, copyRoom g]

/-- The receiving set of a mask. -/
def receivers (mask : Nat) : List Rcv := ((List.range 16).filter (fun k => bit mask k)).map (fun k => { core := k, offered := false, blk := none, done := false })

def execCpym (o : Op) (s : State) : Host.Outcome State Fault Refusal :=
  .next (issueRec .cpym o 8 cpymPre cpymVas cpymOwn (fun g rs m =>
    let r := rs.headD []
    let set (x : Member) : Nat := (g.b32 x).toNat % 65536 &&& Tlr.mcast r
    let m := g.copiers.foldl (fun m x => g.sendCopy m x { g.copyOf x r with dir := 7, b := set x, rcvs := receivers (set x) }) m
    let m := (g.blocksOf (g.copiers.filter (fun x => (receivers (set x)).any (fun r => r.core ≠ g.core % 16)))).foldl Mach.visible m
    (g.freeCoords r m).signalSlots g.e g.core g.flag g.slots) s)

end Sys2Proof.Machine
end

