-- ==== Sys2Proof/Machine/CopyEngine.lean ====
section
/-! DEFINITION. The copy engines at work: taking requests, moving granules, multicasts, completions, and the tile transitions they bring about (11 R282 to R285, R290, R293, R296, R299, R302, R304). -/

namespace Sys2Proof.Machine

/-! ### Accesses of a device unit through a core's translation buffers -/

/-- What such an access gives. -/
inductive MRes where
  | ok (v : Nat)
  | fault (va cause : Nat)
  | uncorr (pa : Nat)
  deriving DecidableEq, Repr

/-- A read within one page. -/
def readPage (e : Fw) (core part : Nat) (m : Mach) (va n : Nat) : Mach × MRes :=
  match translate e m core part va .load with
  | (m1, .err c) => (m1, .fault va c)
  | (m1, .ok pa _) => if poisoned m1 pa n then (m1, .uncorr pa) else (m1, .ok (memRead m1.mem pa n))

/-- A write within one page. -/
def writePage (e : Fw) (core part : Nat) (m : Mach) (va n v : Nat) : Mach × MRes :=
  match translate e m core part va .store with
  | (m1, .err c) => (m1, .fault va c)
  | (m1, .ok pa _) => (m1.tierWrite pa n v, .ok 0)

/-- Bytes of an access before the next page. -/
def inPage (va n : Nat) : Nat := min n (4096 - va % 4096)

/-- A read of at most 4,096 bytes. -/
def readVirt (e : Fw) (core part : Nat) (m : Mach) (va n : Nat) : Mach × MRes :=
  let k := inPage va n
  match readPage e core part m va k with
  | (m, .ok lo) =>
    if k = n then (m, .ok lo)
    else match readPage e core part m (va + k) (n - k) with
      | (m, .ok hi) => (m, .ok (lo + hi * 2 ^ (8 * k)))
      | x => x
  | x => x

/-- A write of at most 4,096 bytes. -/
def writeVirt (e : Fw) (core part : Nat) (m : Mach) (va n v : Nat) : Mach × MRes :=
  let k := inPage va n
  match writePage e core part m va k (v % 2 ^ (8 * k)) with
  | (m, .ok _) => if k = n then (m, .ok 0) else writePage e core part m (va + k) (n - k) (v / 2 ^ (8 * k))
  | x => x

/-! ### Boxes (R285) -/

/-- Index of a row in dimension `k` ≥ 1. -/
def rowIdx (r : List Nat) (row k : Nat) : Nat :=
  match k with
  | 1 => row % (Tlr.box r 1 + 1)
  | 2 => row / (Tlr.box r 1 + 1) % (Tlr.box r 2 + 1)
  | 3 => row / ((Tlr.box r 1 + 1) * (Tlr.box r 2 + 1)) % (Tlr.box r 3 + 1)
  | _ => row / ((Tlr.box r 1 + 1) * (Tlr.box r 2 + 1) * (Tlr.box r 3 + 1))

/-- Coordinates of a row in the dimensions from 1 up. -/
def rowCoords (r : List Nat) (org : List Int) (row : Nat) : List Int := ((List.range (Tlr.ndim r)).drop 1).map (fun k => org.getD k 0 + rowIdx r row k)

def inExt (r : List Nat) (k : Nat) (c : Int) : Bool := 0 ≤ c && c < Tlr.ext r k
def clampExt (r : List Nat) (k : Nat) (c : Int) : Int := if c < 0 then 0 else if (Tlr.ext r k : Int) ≤ c then (Tlr.ext r k : Int) - 1 else c

def rowInside (r : List Nat) (cs : List Int) : Bool := (cs.mapIdx (fun i c => inExt r (i + 1) c)).all id

/-- Address of a row's element 0. -/
def rowAddr (r : List Nat) (cs : List Int) : Int := (Tlr.base r : Int) + ((cs.mapIdx (fun i c => c * (Tlr.str r (i + 1) : Int) * 16)).sum)

/-- The value that fills an element out of bounds. -/
def fillElem (r : List Nat) : Nat :=
  match Tlr.oob r with
  | 1 => ((FFmt.ofCode (Tlr.fmt r)).map FFmt.nanBits).getD 0
  | 2 => if Tlr.sd r then (List.range 16).foldl (fun v i => v + Tlr.fill r * 2 ^ (32 * i)) 0 else Tlr.fill r % 2 ^ Tlr.width r
  | _ => 0

/-- `len` bits of a row from a bit position. -/
def readRowBits (e : Fw) (core part : Nat) (m : Mach) (row pos : Int) (len : Nat) : Mach × MRes :=
  let a := truncN 64 (row + pos / 8)
  let sh := (pos % 8).toNat
  match readVirt e core part m a ((sh + len + 7) / 8) with
  | (m, .ok v) => (m, .ok (v / 2 ^ sh % 2 ^ len))
  | x => x

/-- Bits `lo` to `lo + len − 1` of an element of a row. -/
def readElem (e : Fw) (core part : Nat) (r : List Nat) (cs : List Int) (c0 : Int) (lo len : Nat) (m : Mach) : Mach × MRes :=
  let inside := rowInside r cs && inExt r 0 c0
  if inside || Tlr.oob r = 3 then
    let cs := cs.mapIdx (fun i c => clampExt r (i + 1) c)
    readRowBits e core part m (rowAddr r cs) (clampExt r 0 c0 * (Tlr.width r : Int) + (lo : Int)) len
  else (m, .ok (fillElem r / 2 ^ lo % 2 ^ len))

/-- Bits `p` to `p + 127` of a box row: the elements that meet them, in turn. -/
def readElems (e : Fw) (core part : Nat) (r : List Nat) (cs : List Int) (s0 : Int) (p : Nat) : Mach → List Nat → Mach × MRes
  | m, [] => (m, .ok 0)
  | m, j :: js =>
    let w := Tlr.width r
    let a := max p (j * w)
    let b := min (p + 128) ((j + 1) * w)
    match readElem e core part r cs (s0 + (j : Int)) (a - j * w) (b - a) m with
    | (m, .ok v) =>
      match readElems e core part r cs s0 p m js with
      | (m, .ok u) => (m, .ok (v * 2 ^ (a - p) + u))
      | x => x
    | x => x

/-- Elements that meet bits `p` to `p + 127` of a row. -/
def elemsAt (r : List Nat) (p : Nat) : List Nat :=
  let w := max 1 (Tlr.width r)
  (List.range ((p + 127) / w - p / w + 1)).map (fun i => p / w + i)

/-- Granule `g` of a box: its row, and its first bit in the row. -/
def granRow (r : List Nat) (g : Nat) : Nat := 16 * g / max 1 (Tlr.rowBytes r)
def granBit (r : List Nat) (g : Nat) : Nat := 16 * g % max 1 (Tlr.rowBytes r) * 8

/-- Reads a granule of a box. -/
def readGran (e : Fw) (core part : Nat) (m : Mach) (r : List Nat) (org : List Int) (g : Nat) : Mach × MRes :=
  readElems e core part r (rowCoords r org (granRow r g)) (org.headD 0) (granBit r g) m (elemsAt r (granBit r g))

/-- Writes a granule of a box: only its elements in bounds. -/
def writeGran (e : Fw) (core part : Nat) (m : Mach) (r : List Nat) (org : List Int) (g v : Nat) : Mach × MRes :=
  let cs := rowCoords r org (granRow r g)
  let p := granBit r g
  let w := Tlr.width r
  let js := (elemsAt r p).filter (fun (j : Nat) => rowInside r cs && inExt r 0 (org.headD 0 + (j : Int)))
  match js.head?, js.getLast? with
  | some a, some z =>
    let lo := max p (a * w)
    let len := min (p + 128) ((z + 1) * w) - lo
    let pos := org.headD 0 * (w : Int) + (lo : Int)
    let va := truncN 64 (rowAddr r cs + pos / 8)
    let sh := (pos % 8).toNat
    let n := (sh + len + 7) / 8
    match translate e m core part va .store with
    | (m1, .err c) => (m1, .fault va c)
    | (m1, .ok pa _) =>
      let old := memRead m1.mem pa n
      let new := v / 2 ^ (lo - p) % 2 ^ len
      (m1.tierWrite pa n (old - old / 2 ^ sh % 2 ^ len * 2 ^ sh + new * 2 ^ sh), .ok 0)
  | _, _ => (m, .ok 0)

/-! ### The engine's queue (R282) -/

/-- The request that the engine of a core takes next: of the heads of the launches' queues the one appended first, which is the oldest request that waits. A head that is still spilled is refilled by that taking (log 82). -/
def Mach.copyHead (m : Mach) (core : Nat) : Option Nat :=
  ((m.copies.filter (fun c => c.2.core = core ∧ !c.2.started ∧ !m.frozenB c.2.bundle)).head?).map Prod.fst

def Mach.copyFly (m : Mach) (core : Nat) : Nat := (m.copies.filter (fun c => c.2.core = core ∧ c.2.started)).length

/-- The block lets the engine take its requests. -/
def Mach.blockGoes (m : Mach) (b : Option Nat) : Bool :=
  match b with
  | some k => ((m.blocks.get? k).map (fun x => x.st = .resident || x.st = .exited)).getD false
  | none => true

/-- The copy is under way, or may begin now. -/
def Mach.copyRuns (m : Mach) (id : Nat) (c : Copy) : Bool :=
  !c.ended && !m.frozenB c.bundle && (c.started || (m.copyHead c.core = some id && m.copyFly c.core < 16 && m.blockGoes c.blk))

/-- It waits for a fault record (R283). -/
def Mach.copyWaits (m : Mach) (c : Copy) : Bool := c.draft.isSome || (match c.waitSeq with
  | some q => m.pending c.part q
  | none => false)

def Mach.modCopy (m : Mach) (id : Nat) (f : Copy → Copy) : Mach := { m with copies := m.copies.modify id f }

/-! ### Faults and endings -/

/-- A record of a device unit on a core: KIND 4 or 6, WSLOT 127, no lanes (10 R271). -/
def unitDraft (m : Mach) (core kind bundle va cause : Nat) : RecDraft :=
  { page := va % 2 ^ 57 / 4096, cause, kind, core, wslot := 127, lanes := 0, tag := ((m.bundles.get? bundle).map (·.tag)).getD 0 }

/-- The copy waits for a page (R283). -/
def Mach.copyFault (m : Mach) (id : Nat) (c : Copy) (va cause : Nat) : Mach :=
  let d := unitDraft m c.core 4 c.bundle va cause
  match m.postRecord c.part d with
  | (m, some q) => m.modCopy id (fun c => { c with started := true, waitSeq := some q, draft := none })
  | (m, none) => m.modCopy id (fun c => { c with started := true, draft := some d })

/-- Another copy still fills a tile: one that is under way, or one that a save cancelled and that will be issued again (R306). -/
def Mach.fillsOn (m : Mach) (id b n : Nat) : Bool :=
  let into (c : Copy) : Bool := c.x = n && c.rcvs.any (fun q => q.blk = some b)
  m.copies.any (fun d => d.1 ≠ id && !d.2.ended && into d.2) || (((m.blocks.get? b).map (fun k => k.reissue.any into)).getD false)

/-- The tiles a copy fills hold all it will write, unless another copy still fills them. -/
def Mach.fillsWritten (m : Mach) (id : Nat) (c : Copy) : Mach :=
  c.rcvs.foldl (fun m r =>
    match r.blk with
    | some b =>
      if m.fillsOn id b c.x then m
      else m.modTile b c.x (fun t => if t.fill = .copy then { t with fill := .written } else t)
    | none => m) m

/-- A copy has moved all it will: its barrier takes every byte that remains (R296). -/
def Mach.endCopy (m : Mach) (id : Nat) (c : Copy) (st : Word) : Mach :=
  let m := m.modCopy id (fun c => { c with started := true, ended := true, status := c.status ||| st, waitSeq := none })
  let m := match c.blk, c.bar with
    | some b, some off => if c.sub < Tlr.boxBytes c.rcd then m.bcAdd b off ((c.sub : Int) - (Tlr.boxBytes c.rcd : Int)) else m
    | _, _ => m
  m.fillsWritten id c

def stLink : Word := 1
def stRemote : Word := 2
def stUncorr : Word := 4
def stReq : Word := 8

/-- A source granule with an uncorrectable error (R283; 16 R428). -/
def Mach.copyUncorr (e : Fw) (m : Mach) (id : Nat) (c : Copy) : Mach :=
  let m := m.endCopy id c stUncorr
  m.contain e c.part (((m.bundles.get? c.bundle).map Bundle.fdom).getD 0) c.bundle

/-! ### A granule (R287, R290, R296) -/

/-- The scratch offset of granule `g` of a copy's scratch or tile side. -/
def Mach.copySide (m : Mach) (c : Copy) (b : Nat) : Nat := if c.dir = 0 ∨ c.dir = 1 then c.b else (m.tile b c.x).base.toNat

def Mach.copySource (e : Fw) (m : Mach) (c : Copy) : Mach × MRes :=
  if c.dir = 1 ∨ c.dir = 3 then
    match c.blk.bind (fun b => (m.blocks.get? b).map (fun k => scrRead k (m.copySide c b + 16 * c.pos) 16)) with
    | some v => (m, .ok v)
    | none => (m, .ok 0)
  else readGran e c.core c.part m c.rcd c.org c.pos

/-- Sixteen bytes into a block's scratchpad. -/
def Mach.scrGran (m : Mach) (b off v : Nat) : Mach := m.scrPut b off 16 v

/-- The peer a link group is bound to, and whether a path to it is up (R284). -/
def Fw.peerOf (e : Fw) (part lg : Nat) : Option (Nat × Nat) := (e.part part).lg.get? lg
def Fw.pathUp (e : Fw) (peer : Nat) : Bool := e.links.any (fun l => l.2.up && !l.2.host && l.2.peer = peer)

/-- The granule at its destination; a status where the copy must end instead. -/
def Mach.copyDest (e : Fw) (m : Mach) (c : Copy) (v : Nat) : Mach × MRes × Word :=
  match c.dir with
  | 0 => ((match c.blk with
    | some b => m.scrGran b (c.b + 16 * c.pos) v
    | none => m), .ok 0, 0)
  | 2 => (c.rcvs.foldl (fun m r => match r.blk with
    | some b => m.scrGran b ((m.tile b c.x).base.toNat + 16 * c.pos) v
    | none => m) m, .ok 0, 0)
  | 7 => (c.rcvs.foldl (fun m r => match r.blk with
    | some b => m.scrGran b ((m.tile b c.x).base.toNat + 16 * c.pos) v
    | none => m) m, .ok 0, 0)
  | 4 =>
    match e.peerOf c.part c.x with
    | none => (m, .ok 0, stRemote)
    | some (mo, pt) =>
      if !e.pathUp mo then (m, .ok 0, stLink)
      else if Config.peerRefuses mo pt (c.b + 16 * c.pos) then (m, .ok 0, stRemote)
      else ({ m with sent := m.sent ++ [(mo, pt, (c.b + 16 * c.pos) % 2 ^ 64, v)] }, .ok 0, 0)
  | _ =>
    let r := writeGran e c.core c.part m (if c.dir = 5 then c.drec else c.rcd) c.org c.pos v
    (r.1, r.2, 0)

/-- The granule has been delivered: its bytes leave the barrier, and with the last one the copy has moved all. -/
def Mach.copyAdvance (m : Mach) (id : Nat) (c : Copy) : Mach :=
  let m := m.modCopy id (fun c => { c with started := true, pos := c.pos + 1, sub := c.sub + 16 })
  let m := match c.blk, c.bar with
    | some b, some off => m.bcAdd b off (-16)
    | _, _ => m
  if Tlr.boxBytes c.rcd ≤ 16 * (c.pos + 1) then m.endCopy id { c with sub := c.sub + 16 } 0 else m

def Mach.deliverGranule (e : Fw) (m : Mach) (id : Nat) (c : Copy) : Mach :=
  if c.dir = 7 && c.rcvs.all (fun r => r.blk.isNone) then m.endCopy id c 0
  else match m.copySource e c with
    | (m, .fault va cause) => m.copyFault id c va cause
    | (m, .uncorr _) => m.copyUncorr e id c
    | (m, .ok v) =>
      match m.copyDest e c v with
      | (m, .fault va cause, _) => m.copyFault id c va cause
      | (m, .uncorr _, _) => m
      | (m, .ok _, st) => if st ≠ 0 then m.endCopy id c st else m.copyAdvance id c

/-- A copy may deliver its next granule. -/
def Mach.granuleDue (m : Mach) (id : Nat) (c : Copy) : Bool := m.copyRuns id c && !m.copyWaits c && c.rcvs.all (·.offered)

def execCopyGranuleDeliver (s : State) : Host.Outcome State Fault Refusal :=
  match s.m.copies.get? s.subj.id with
  | some c => if s.m.granuleDue s.subj.id c then .next { s with m := s.m.deliverGranule s.fw s.subj.id c } else .next s
  | none => .next s

/-! ### Multicast receipts (R302) -/

/-- The block that a box is offered to on a core: the oldest of the bundle there. -/
def Mach.oldestBlock (m : Mach) (bundle core : Nat) : Option (Nat × Block) :=
  argmin (fun b => b.2.age) (m.blocks.filter (fun b => b.2.bundle = bundle ∧ b.2.core = core ∧ (b.2.st = .resident ∨ b.2.st = .saving)))

/-- The receiver accepts. -/
def Mach.accepts (m : Mach) (c : Copy) (core : Nat) : Option Nat :=
  match m.oldestBlock c.bundle core with
  | some (b, k) =>
    let t := k.tiles.get c.x Tile.reset
    if k.st = .resident && t.recv && t.isEmpty && boxMatch t c.rcd then some b else none
  | none => none

/-- Receiver `k` of a copy answers. -/
def Mach.receipt (m : Mach) (id k : Nat) (c : Copy) : Mach :=
  let put (b : Option Nat) (c : Copy) : Copy :=
    { c with started := true, rcvs := c.rcvs.map (fun r => if r.core = k then { r with offered := true, blk := b } else r), status := if b.isNone then c.status ||| BitVec.ofNat 32 (2 ^ (16 + k)) else c.status }
  match m.accepts c (16 * c.shard + k) with
  | some b => (m.modCopy id (put (some b))).modTile b c.x (fun t => t.beginFill .copy)
  | none => m.modCopy id (put none)

/-- A tile of a core holds a fill wholly written and not yet complete. -/
def Mach.fillWaits (m : Mach) (core : Nat) : Bool := m.blocks.any (fun b => b.2.core = core && b.2.tiles.any (fun t => t.2.fill = .written))

/-- In a core's cycle receipts come after the fill completions and before the slices (R299). -/
def Mach.receiptTurn (m : Mach) (core : Nat) : Bool := m.beforeSlices core && !m.fillWaits core

def execMulticastReceipt (s : State) : Host.Outcome State Fault Refusal :=
  match s.m.copies.get? s.subj.id with
  | some c =>
    if s.m.copyRuns s.subj.id c && s.m.receiptTurn (16 * c.shard + s.subj.unit) && c.rcvs.any (fun r => r.core = s.subj.unit && !r.offered) then .next { s with m := s.m.receipt s.subj.id s.subj.unit c } else .next s
  | none => .next s

/-! ### Tile transitions by the engines (R299) -/

/-- The fill of a tile completes, and with it the part of each copy that filled it. -/
def Mach.fillComplete (m : Mach) (b n : Nat) : Mach :=
  let m := m.modTile b n Tile.fillDone
  { m with copies := m.copies.mapVal (fun (c : Copy) =>
      if c.ended && c.x = n then { c with rcvs := c.rcvs.map (fun r => if r.blk = some b then { r with done := true } else r) } else c) }

/-- In a core's cycle fill completions come first (R299). -/
def Mach.fillTurn (m : Mach) (b : Nat) : Bool := ((m.blocks.get? b).map (fun k => m.beforeSlices k.core)).getD true

def execTileFillComplete (s : State) : Host.Outcome State Fault Refusal :=
  if (s.m.tile s.subj.blk s.subj.unit).fill = .written && s.m.fillTurn s.subj.blk then .next { s with m := s.m.fillComplete s.subj.blk s.subj.unit } else .next s

def execTileReaderDone (s : State) : Host.Outcome State Fault Refusal :=
  match s.m.copies.get? s.subj.id with
  | some c =>
    if c.reading && c.ended then
      .next { s with m := (s.m.modCopy s.subj.id (fun c => { c with reading := false })).modTile (c.blk.getD 0) c.x Tile.readerDone }
    else .next s
  | none => .next s

/-! ### Completion (R287, R291, R293; 15 R392) -/

/-- Every receiver has its fill, or is gone, or is one whose fill other copies of its block go on with: such a tile waits for them, and the copy does not (R287, R306). -/
def Mach.fillsDone (m : Mach) (id : Nat) (c : Copy) : Bool :=
  c.rcvs.all (fun r => match r.blk with
    | some b => r.done || m.fillsOn id b c.x || ((m.blocks.get? b).map (fun k => decide (k.st = .exited))).getD true
    | none => true)

def Mach.completable (m : Mach) (id : Nat) (c : Copy) : Bool := c.ended && !c.reading && m.fillsDone id c && !m.copyWaits c

/-- The copy leaves its batch with its status. -/
def Thread.copyDone (t : Thread) (no : Nat) (st : Word) : Thread :=
  let f (b : Batch) : Batch := if b.no = no then { b with left := b.left - 1, status := b.status ||| st } else b
  { t with sealedB := t.sealedB.map f, openB := f t.openB }

/-- A linked slip record counts one copy fewer (15 R392). -/
def Mach.slipCopyDone (m : Mach) (b l seq : Nat) : Mach :=
  m.modLaunch b l (fun x => { x with slips := x.slips.map (fun (s : Slip) => if s.seq = seq then { s with cpleft := s.cpleft - 1 } else s) })

/-- The copy is gone: its batch, its counts and what waited for it move. -/
def Mach.copyGone (e : Fw) (m : Mach) (id : Nat) (c : Copy) : Mach :=
  let m := ({ m with copies := m.copies.erase id } : Mach).tallyCopy c
  let m := match c.linked with
    | some q => m.slipCopyDone c.bundle c.launch q
    | none => m
  match c.blk with
  | none => m
  | some b =>
    let m := match m.warpByNum b c.warp with
      | some (core, slot) => (m.modWarp core slot (fun w => w.modThread c.lane (fun t => t.copyDone c.batch c.status))).settleThread e core slot c.lane
      | none => m
    m.settleBlock e b

/-- COPY_COMPLETE; a request's STATUS is written to its record, which may wait for its page (R304). -/
def Mach.completeCopy (e : Fw) (m : Mach) (id : Nat) (c : Copy) : Mach :=
  match c.req with
  | none => m.copyGone e id c
  | some va =>
    match writeVirt e c.core c.part m (va + 56) 8 c.status.toNat with
    | (m, .fault v cause) => m.copyFault id c v cause
    | (m, _) => m.copyGone e id c

def execCopyComplete (s : State) : Host.Outcome State Fault Refusal :=
  match s.m.copies.get? s.subj.id with
  | some c => if s.m.completable s.subj.id c && !s.m.frozenB c.bundle then .next { s with m := s.m.completeCopy s.fw s.subj.id c } else .next s
  | none => .next s

/-! ### Requests of copy sub-launches (R304; 04 R94, R106) -/

/-- The reserved fields of a request are zero and its DIR is one of the three. That DEST counts as reserved where its DIR gives it no meaning, all of it for DIR 2 and bits `[5:0]` for DIR 5, is the model's choice (log 108). -/
def reqOk (w : List Nat) : Bool :=
  let d := fld w 0 63 61
  (d = 2 || d = 4 || d = 5) && fld w 0 60 56 = 0 && fld w 0 27 0 = 0 && fld w 1 5 0 = 0 && fld w 4 31 0 = 0 && dw w 6 = 0 && fld w 7 63 32 = 0 &&
  (d = 4 || d = 5 || dw w 5 = 0) && (d ≠ 5 || fld w 5 5 0 = 0)

def reqOrg (w r : List Nat) : List Int :=
  ([fld w 2 63 32, fld w 2 31 0, fld w 3 63 32, fld w 3 31 0, fld w 4 63 32].map (sextN 32)).take (Tlr.ndim r)

/-- The checks of R288 on a request's records. -/
def reqChecks (w r d : List Nat) : Bool :=
  Tlr.check r = 0 && Tlr.usable r && Tlr.usable d && sameBox r d && boxAligned r d (reqOrg w r) && (fld w 0 63 61 ≠ 4 || dw w 5 % 16 = 0)

/-- The engine that takes a request: of the receivers' shard for DIR 2, otherwise the one proposed, or the lowest of the partition's. -/
def reqCore (e : Fw) (part want : Nat) (w : List Nat) : Option Nat :=
  let cs := coresOf (e.part part).cores
  if fld w 0 63 61 = 2 then cs.find? (fun c => shardOf c = fld w 0 51 48)
  else if cs.contains want then some want else cs.head?

/-- The request as a copy; one that fails its checks has ended with REQ. -/
def reqCopy (part b l core : Nat) (va : Nat) (w r d : List Nat) (ok : Bool) : Copy :=
  let dir := fld w 0 63 61
  { blk := none, part, bundle := b, launch := l, core, dir := if dir = 2 then 7 else dir, warp := 0, lane := 0, rcd := r, org := reqOrg w r,
    b := if dir = 4 then dw w 5 else 0, x := if dir = 4 then fld w 0 31 28 else fld w 0 55 52, bar := none, drec := d, batch := 0, spill := none, started := !ok, pos := 0, sub := 0,
    status := if ok then 0 else stReq, rcvs := if ok && dir = 2 then receivers (fld w 0 47 32) else [], shard := fld w 0 51 48, reading := false, waitSeq := none, draft := none, linked := none,
    req := some va, ended := !ok }

/-- The reading of a request waits for a page. -/
def Mach.reqFault (m : Mach) (part b l core va cause : Nat) : Mach :=
  let d := unitDraft m core 4 b va cause
  match m.postRecord part d with
  | (m, some q) => m.modLaunch b l (fun x => { x with reqWait := some q, reqDraft := none })
  | (m, none) => m.modLaunch b l (fun x => { x with reqDraft := some d })

/-- The request joins its queue; one that has ended only waits to complete. -/
def Mach.reqEnter (m : Mach) (b l : Nat) (c : Copy) : Mach :=
  let m := m.modLaunch b l (fun x => { x with taken := x.taken + 1, reqWait := none })
  if c.ended then { m with copies := m.copies.set m.nextId c, nextId := m.nextId + 1 } else m.addCopy c

/-- The next request of a copy sub-launch enters an engine. -/
def Mach.enterRequest (e : Fw) (m : Mach) (part b l core : Nat) (x : Launch) : Mach :=
  let va := x.entry + 64 * x.taken
  match readVirt e core part m va 64 with
  | (m, .fault a c) => m.reqFault part b l core a c
  | (m, .uncorr _) => (m.reqEnter b l { reqCopy part b l core va [] [] [] false with status := stUncorr }).contain e part (((m.bundles.get? b).map Bundle.fdom).getD 0) b
  | (m, .ok v) =>
    let w := (List.range 8).map (fun i => v / 2 ^ (64 * i) % 2 ^ 64)
    match reqOk w, reqCore e part core w with
    | true, some c =>
      let src := fld w 1 63 6 * 64
      let dst := if fld w 0 63 61 = 5 then [fld w 5 63 6 * 64] else []
      match fetchRecords e c part 8 m (src :: dst) with
      | (m, .fault a cause) => m.reqFault part b l c a cause
      | (m, .poison) => (m.reqEnter b l { reqCopy part b l c va w [] [] false with status := stUncorr }).contain e part (((m.bundles.get? b).map Bundle.fdom).getD 0) b
      | (m, .ok rs) =>
        let r := rs.headD []
        let d := (rs.drop 1).headD r
        if !reqChecks w r d then m.reqEnter b l (reqCopy part b l c va w r d false)
        else if m.quotaCause b copyStore (m.copyUsed c) ((m.copyQ b l c).map (fun y => y.2.spill)) 1 = 0 then m.reqEnter b l (reqCopy part b l c va w r d true)
        else m
    | _, _ => m.reqEnter b l (reqCopy part b l core va w [] [] false)

/-- A request may enter now. -/
def Mach.requestDue (m : Mach) (b : Nat) (x : Bundle) (l : Launch) : Bool :=
  x.st = .running && l.kind = 2 && l.taken < l.gridX && l.reqDraft.isNone && !m.frozenB b && (match l.reqWait with
    | some q => !m.pending x.part q
    | none => true)

def execCopyRequestEnter (s : State) : Host.Outcome State Fault Refusal :=
  match s.m.bundles.get? s.subj.bundle with
  | some x =>
    match x.launches.get? s.subj.launch with
    | some l =>
      if s.m.requestDue s.subj.bundle x l && bit (s.fw.part x.part).cores s.subj.core then
        .next { s with m := s.m.enterRequest s.fw x.part s.subj.bundle s.subj.launch s.subj.core l }
      else .next s
    | none => .next s
  | none => .next s

end Sys2Proof.Machine
end

