-- ==== Sys2Proof/Machine/Sync.lean ====
section
/-! DEFINITION. Row 16: block barriers (14 R383, R384) and events (14 R386; 04 R99, R100). -/

namespace Sys2Proof.Machine

/-! ### Barriers (14 R384) -/

/-- The count that an arrival gives, held to the block's thread count, and the flag of an oversized one. -/
def barCount (threads count : Nat) : Nat × BitVec 7 := if threads < count then (threads, excInvalid) else (count, 0)

/-- The barrier after an arrival, and the flag of a count that differs from the fixed one. `live`: threads of the block that are not EXITED. -/
def barArrival (live count : Nat) (b : Bar) : Bar × BitVec 7 :=
  let num (c : Nat) : Nat := if c = 0 then live else c
  if b.fixed then ({ b with arrived := b.arrived + 1 }, if num count = num b.expect then 0 else excInvalid)
  else ({ b with arrived := 1, expect := count, fixed := true }, 0)

/-- Threads of a block's launch. -/
def Mach.blockThreads (m : Mach) (blk : Nat) : Nat := (((m.blocks.get? blk).bind m.launch?).map Launch.threads).getD 0

/-- One member arrives on barrier `n`; a `.sync` member is held unless its arrival completes the phase. -/
def Grp.arriveOne (g : Grp) (n : Nat) (sync : Bool) (m : Mach) (x : Member) : Mach :=
  match m.blocks.get? (g.blkId x) with
  | none => m
  | some k =>
    let live := m.liveThreads (g.blkId x)
    let c := barCount (m.blockThreads (g.blkId x)) (g.a32 x).toNat
    let r := barArrival live c.1 (k.bars.get n Bar.reset)
    let m := m.modWarp g.core x.slot (fun w => w.raiseExc (c.2 ||| r.2))
    let m := m.modBlock (g.blkId x) (fun k => { k with bars := k.bars.set n r.1 })
    if m.barExpect (g.blkId x) r.1 ≤ r.1.arrived then m.completeBar (g.blkId x) n
    else if sync then m.holdMembers g.core g.pc [x] (.bar n r.1.phase)
    else m

/-- Members still held at the instruction owe the flag; the others' warps have it signalled. -/
def Grp.oweHeld (g : Grp) (m : Mach) : Mach :=
  g.slots.foldl (fun m s =>
    let ls := (g.execLanes s).filter (fun l => ((m.warp g.core s).thread l).pc = g.pc && (match ((m.warp g.core s).thread l).st with
      | .blocked _ => true
      | _ => false))
    if ls = [] then m.signalFlag g.e g.core s g.flag
    else m.modWarp g.core s (fun v => if g.flag < 12 then { v with owes := v.owes ++ [{ flag := g.flag, lanes := maskOf ls }] } else v)) m

/-- Executing members by rising lane. -/
def Grp.byLane (g : Grp) : List Member := (List.range 32).flatMap (fun l => g.execs.filter (fun x => x.lane = l))

def Grp.bar (g : Grp) (sync : Bool) (m : Mach) : Mach :=
  g.oweHeld ((g.byLane.filter (fun x => x.slot ≠ handlerSlot)).foldl (g.arriveOne (g.o.mdBits 5 2) sync) m)

def execBarSync (o : Op) (s : State) : Host.Outcome State Fault Refusal := .next (issueWith .barSync o noCauses (fun g m => g.bar true m) s)
def execBarArrive (o : Op) (s : State) : Host.Outcome State Fault Refusal := .next (issueWith .barArrive o noCauses (fun g m => g.bar false m) s)

/-! ### Events (04 R99, R100; 14 R386) -/

/-- The tag of a warp's block. -/
def Mach.warpTag (m : Mach) (w : Warp) : Option Nat := (m.blocks.get? w.blk).map m.tagOf

/-- Threads of a warp that wait for a bit of the mask go on. -/
def Warp.releaseEv (w : Warp) (mask : BitVec 256) (cyc : Nat) : Warp :=
  let ls := (List.range 32).filter (fun l => match (w.thread l).st with
    | .blocked (.evwait b) => mask.toNat.testBit b
    | _ => false)
  if ls = [] then w else w.releaseNext ls cyc

/-- Slip records whose bit the mask holds have found it set (15 R393). -/
def Launch.seeEv (l : Launch) (mask : BitVec 256) : Launch :=
  { l with slips := l.slips.map (fun (s : Slip) => if s.ev && mask.toNat.testBit s.evbit then { s with seen := true } else s) }

/-- Bits of a context's vector are set: what waits for one of them finds it set. -/
def Mach.setEvents (m : Mach) (tag : Nat) (mask : BitVec 256) : Mach :=
  if mask = 0 then m
  else
    let m := m.modTenant tag (fun t => { t with ev := t.ev ||| mask })
    let m := { m with warps := m.warps.map (fun (w : Nat × Warp) =>
      if w.1 % 128 ≠ handlerSlot ∧ m.warpTag w.2 = some tag then (w.1, w.2.releaseEv mask (m.slc (w.1 / 128) w.2.slice).cyc) else w) }
    { m with bundles := m.bundles.mapVal (fun (b : Bundle) => if b.tag = tag then { b with launches := b.launches.mapVal (fun l => l.seeEv mask) } else b) }

def Mach.clearEvents (m : Mach) (tag : Nat) (mask : BitVec 256) : Mach := m.modTenant tag (fun t => { t with ev := t.ev &&& ~~~mask })

def evMask (n : Nat) : BitVec 256 := BitVec.ofNat 256 (2 ^ n)

/-- A bit of a context's vector. -/
def Mach.evBit (m : Mach) (tag n : Nat) : Bool := (m.tenant tag).ev.toNat.testBit n

/-- The bit a lane names. -/
def Grp.evNo (g : Grp) (x : Member) : Nat := (g.a32 x).toNat % 256

/-- The context of a member; the handler warp has none (log 19). -/
def Grp.tagOf? (g : Grp) (x : Member) : Option Nat := (g.blockOf x).map g.m.tagOf

/-- EVSET's changes, lane by lane; a helper's has no effect. -/
def Grp.evChange (g : Grp) (f : Mach → Nat → BitVec 256 → Mach) (m : Mach) : Mach :=
  let xs := g.byLane.filter (fun x => !g.helper x)
  let m := xs.foldl (fun m x => match g.tagOf? x with
    | some t => f m t (evMask (g.evNo x))
    | none => m) m
  ((g.blocksOf xs).foldl Mach.visible (g.freeReads g.execLanes m)).signalSlots g.e g.core g.flag g.slots

def execEvset (o : Op) (s : State) : Host.Outcome State Fault Refusal := .next (issueWith .evset o noCauses (fun g m => g.evChange Mach.setEvents m) s)
def execEvsetClr (o : Op) (s : State) : Host.Outcome State Fault Refusal := .next (issueWith .evsetClr o noCauses (fun g m => g.evChange Mach.clearEvents m) s)

/-- The member's bit is set; for the handler warp no bit is waited for. -/
def Grp.evFound (g : Grp) (m : Mach) (x : Member) (dflt : Bool) : Bool := match g.tagOf? x with
  | some t => m.evBit t (g.evNo x)
  | none => dflt

def execEvwait (o : Op) (s : State) : Host.Outcome State Fault Refusal :=
  .next (issueWith .evwait o noCauses (fun g m =>
    g.holdWhere (g.freeReads g.execLanes m) (fun x => if g.evFound m x true then none else some (.evwait (g.evNo x)))) s)

def execEvtest (o : Op) (s : State) : Host.Outcome State Fault Refusal :=
  .next (issueWith .evtest o noCauses (fun g m =>
    let vals := g.execs.map (fun x => (x.slot, x.lane, [if g.evFound m x false then (1 : Word) else 0]))
    let m := g.freeReads g.execLanes m
    let m := if o.ctl.wbs then m else m.deliver g.core o.dst g.execSlots vals
    m.signalSlots g.e g.core g.flag g.slots) s)

end Sys2Proof.Machine
end

