-- ==== Sys2Proof/Machine/Product.lean ====
section
/-! DEFINITION. Tile-level products: pairings, engine steps and their arithmetic, and the drain of an accumulator into a tile (12 R311 to R314, R326; 21 R462). -/

namespace Sys2Proof.Machine

/-! ### Pairings (R311) -/

structure Pairing where
  g : Nat
  energy : Nat
  cls : Nat
  tern : Bool
  deriving DecidableEq, Repr

def isFp8 (c : Nat) : Bool := c = 0x43 || c = 0x44

/-- FP6 and FP4 formats. -/
def isSub8 (c : Nat) : Bool := c = 0x40 || c = 0x41 || c = 0x42

/-- The row of the pairings table for A's, B's and C's formats. -/
def pairing (a : Nat) (sa : Bool) (b : Nat) (sb : Bool) (c : Nat) : Option Pairing :=
  if a = 0x48 ∧ b = 0x48 ∧ c = 0x48 then some ⟨1, 16, 6, false⟩
  else if c = 0x47 then
    if a = 0x47 ∧ b = 0x47 then some ⟨2, 3, 4, false⟩
    else if (a = 0x45 ∧ b = 0x45) ∨ (a = 0x46 ∧ b = 0x46) then some ⟨8, 4, 8, false⟩
    else if isFp8 a && isFp8 b then some ⟨16, 5, 10, false⟩
    else if (isFp8 a && isSub8 b) || (isSub8 a && isFp8 b) then some ⟨16, 5, 10, false⟩
    else if isSub8 a && isSub8 b then some ⟨32, 6, 12, false⟩
    else none
  else if c = 0x23 then
    if a = 0x60 ∧ sa ∧ b = 0x21 ∧ !sb then some ⟨64, 3, 7, true⟩
    else if sa || sb then none
    else if (a = 0x21 ∧ b = 0x21) ∨ (a = 0x20 ∧ b = 0x21) ∨ (a = 0x21 ∧ b = 0x20) then some ⟨16, 4, 9, false⟩
    else if a = 0x20 ∧ b = 0x20 then some ⟨32, 4, 9, false⟩
    else none
  else none

def tilePairing (ta tb : Tile) (c : Nat) : Option Pairing := pairing ta.fmtN ta.sd tb.fmtN tb.sd c

/-- K of a product. -/
def Tile.k (t : Tile) : Nat := t.cols.toNat + 1
def Tile.m (t : Tile) : Nat := t.rows.toNat + 1

/-- The tiles agree with each other and with C. -/
def shapesAgree (ta tb : Tile) (a : Acc) : Bool := ta.m = a.m && tb.m = a.n && ta.k = tb.k

/-- The product's pairing, where formats and shapes are allowed; without an accumulator, where some accumulator would allow them. -/
def productOf (ta tb : Tile) (a : Option Acc) (tern : Bool) : Option Pairing :=
  match a with
  | some c => ((tilePairing ta tb c.fmt).filter (fun p => p.tern = tern)).filter (fun _ => shapesAgree ta tb c)
  | none => if ta.k = tb.k then ([0x23, 0x47, 0x48].filterMap (fun c => tilePairing ta tb c)).find? (fun p => p.tern = tern) else none

/-! ### Steps (R312) -/

def Acc.subBlocks (a : Acc) : Nat := (a.m / 16) * (a.n / 16)

/-- NB × q. -/
def productSteps (a : Acc) (k : Nat) (p : Pairing) : Nat := a.subBlocks * ((k + p.g - 1) / p.g)

/-! ### Accumulator words (R307, R310) -/

/-- Word `i` of an accumulator: where nothing has been written since the grant, what earlier work left, or zero after a wipe (12 R310). -/
def Acc.word (a : Acc) (i : Nat) : Nat := ((a.data.get? i).getD (if a.grant = 0 then 0 else Config.staleWord a.grant i)).toNat

/-- Element (i, j). -/
def Acc.elem (a : Acc) (i j : Nat) : Nat :=
  let e := i * a.n + j
  if a.fmt = 0x48 then a.word (2 * e) + a.word (2 * e + 1) * 2 ^ 32 else a.word e

def Acc.setElem (a : Acc) (i j v : Nat) : Acc :=
  let e := i * a.n + j
  if a.fmt = 0x48 then { a with data := (a.data.set (2 * e) (BitVec.ofNat 32 v)).set (2 * e + 1) (BitVec.ofNat 32 (v / 2 ^ 32)) }
  else { a with data := a.data.set e (BitVec.ofNat 32 v) }

/-- Words of the array. -/
def Acc.words (a : Acc) : Nat := a.m * a.n * a.width / 32

/-! ### Elements of tiles -/

/-- Bits `[w(k+1)−1 : wk]` of row `r` of a plain tile. -/
def plainElem (b : Block) (t : Tile) (r k : Nat) : Nat :=
  let w := Fmt.width t.fmtN
  let p := k * w
  scrRead b (t.base.toNat + r * t.rowBytes + p / 8) ((p % 8 + w + 7) / 8) / 2 ^ (p % 8) % 2 ^ w

/-- The SD block that holds element `k` of row `r`, and the element's number in it. -/
def sdBlockOf (b : Block) (t : Tile) (r k : Nat) : Nat × Nat :=
  let p := max 1 (Fmt.payload t.fmtN)
  (scrRead b (t.base.toNat + r * t.rowBytes + k / p * 64) 64, k % p)

/-- The block is well-formed for its tile (R462). -/
def sdFits (blk fmt : Nat) : Bool := sdHeaderOk (blk % 2 ^ 32) && bits blk 7 0 = fmt

/-- A floating-point element with its flags (R59, R462). -/
def fpElem (b : Block) (t : Tile) (r k : Nat) : Val × BitVec 7 :=
  if t.sd then
    let x := sdBlockOf b t r k
    if sdFits x.1 t.fmtN then sdElem x.1 x.2 else (.nan false, excInvalid)
  else (((FFmt.ofCode t.fmtN).map (fun f => f.widen (plainElem b t r k))).getD (.zero false), 0)

/-- A trit with its flags (R314). -/
def tritElem (b : Block) (t : Tile) (r k : Nat) : Int × BitVec 7 :=
  let x := sdBlockOf b t r k
  if !sdFits x.1 t.fmtN || bits x.1 27 20 = 255 then (0, excInvalid)
  else if bits x.1 27 20 = 0 then (0, 0)
  else
    let v := sdByte x.1 (x.2 / 5)
    if 243 ≤ v then (0, excInvalid) else (match v / 3 ^ (x.2 % 5) % 3 with
      | 0 => 0
      | 1 => 1
      | _ => -1, 0)

/-- An integer element with its flags. -/
def intElem (b : Block) (t : Tile) (r k : Nat) : Int × BitVec 7 :=
  if t.sd then tritElem b t r k else (sextN (Fmt.width t.fmtN) (plainElem b t r k), 0)

/-! ### One engine step (R313, R314) -/

/-- C + Σ in floating point: one rounding. -/
def fpUpdate (f : FFmt) (c : Nat) (xs ys : List (Val × BitVec 7)) : FRes :=
  let ps := xs.zipWith (fun x y => prodVal x.1 y.1) ys
  let s := sumVals 0 (f.widen c :: ps.map Prod.fst)
  finish f 0 (s.1, orExc (ps.map Prod.snd) ||| s.2)

/-- C + Σ in INT32: one saturation; the flag says it clamped. -/
def intUpdate (c : Nat) (xs ys : List (Int × BitVec 7)) : Nat × Bool :=
  let v := sextN 32 c + (xs.zipWith (fun x y => x.1 * y.1) ys).sum
  let w := clampInt (intLo true 32) (intHi true 32) v
  (truncN 32 w, v ≠ w)

/-- An accumulator and the flags raised so far. -/
abbrev AccRes := Acc × BitVec 7

/-- The update of element (i, j). -/
def updateElem (f : Option FFmt) (xs ys : List (Val × BitVec 7)) (us vs : List (Int × BitVec 7)) (i j : Nat) (a : AccRes) : AccRes :=
  match f with
  | some f => let r := fpUpdate f (a.1.elem i j) xs ys; (a.1.setElem i j r.1, a.2 ||| r.2)
  | none =>
    let r := intUpdate (a.1.elem i j) us vs
    ({ a.1.setElem i j r.1 with sat := a.1.sat || r.2 }, a.2 ||| (if r.2 then excSaturation else 0))

/-- Step `s` of a product of tiles A and B of a block into an accumulator. -/
def productStep (b : Block) (ta tb : Tile) (p : Pairing) (s : Nat) (a : Acc) : AccRes :=
  let nb := a.subBlocks
  let t := s / max 1 nb
  let q := s % max 1 nb
  let i0 := 16 * (q / max 1 (a.n / 16))
  let j0 := 16 * (q % max 1 (a.n / 16))
  let ks := (List.range (min p.g (ta.k - t * p.g))).map (fun x => t * p.g + x)
  let f := if a.fmt = 0x23 then none else FFmt.ofCode a.fmt
  let fpA (r : Nat) := if f.isSome then ks.map (fpElem b ta r) else []
  let fpB (r : Nat) := if f.isSome then ks.map (fpElem b tb r) else []
  let inA (r : Nat) := if f.isSome then [] else ks.map (intElem b ta r)
  let inB (r : Nat) := if f.isSome then [] else ks.map (intElem b tb r)
  let is := (List.range 16).map (i0 + ·)
  let js := (List.range 16).map (j0 + ·)
  let colsB := js.map (fun j => (j, fpB j, inB j))
  let rowsA := is.map (fun i => (i, fpA i, inA i))
  let fl := orExc (rowsA.map (fun r => orExc (r.2.1.map Prod.snd) ||| orExc (r.2.2.map Prod.snd)) ++ colsB.map (fun r => orExc (r.2.1.map Prod.snd) ||| orExc (r.2.2.map Prod.snd)))
  rowsA.foldl (fun x r => colsB.foldl (fun x c => updateElem f r.2.1 c.2.1 r.2.2 c.2.2 r.1 c.1 x) x) (a, fl)

/-! ### Draining (R326) -/

/-- The drain of an accumulator into a tile is not allowed (R327). -/
def drainBad (t : Tile) (a : Acc) (sat : Bool) : Bool :=
  !(t.m = a.m && t.k = a.n) || (if t.sd then Fmt.payload t.fmtN = 0 else !tileFmt t.fmtN) || (sat && !satDefined t.fmtN a.fmt)

/-- An accumulator element as a value. -/
def Acc.val (a : Acc) (i j : Nat) : Val := match FFmt.ofCode a.fmt with
  | some f => f.widen (a.elem i j)
  | none => Val.ofInt (sextN 32 (a.elem i j))

/-- A scratchpad and the flags raised so far. -/
abbrev ScrRes := Tab Byte × BitVec 7

/-- Columns `j0` to `j0 + 15` of row `i` go to a plain tile. -/
def drainPlain (t : Tile) (a : Acc) (rm : Nat) (sat : Bool) (j0 i : Nat) (x : ScrRes) : ScrRes :=
  let w := Fmt.width t.fmtN
  let rs := (List.range 16).map (fun k => convert t.fmtN a.fmt rm sat (a.elem i (j0 + k)))
  (scrWrite x.1 (t.base.toNat + i * t.rowBytes + j0 * w / 8) (2 * w) (rs.foldr (fun r acc => r.1 + acc * 2 ^ w) 0), x.2 ||| orExc (rs.map Prod.snd))

/-- The SD block of row `i` whose last element lies in columns `j0` to `j0 + 15`, if there is one, is encoded. -/
def drainSd (t : Tile) (a : Acc) (rm j0 i : Nat) (x : ScrRes) : ScrRes :=
  let p := max 1 (Fmt.payload t.fmtN)
  let j := (j0 + 16) / p
  if j0 < j * p then
    let r := sdEncode t.fmtN rm ((List.range p).map (fun k => a.val i ((j - 1) * p + k)))
    (scrWrite x.1 (t.base.toNat + i * t.rowBytes + (j - 1) * 64) 64 r.1, x.2 ||| r.2)
  else x

/-- The part of a drain that sub-block `s` is. -/
def drainStep (t : Tile) (a : Acc) (rm : Nat) (sat : Bool) (x : ScrRes) (s : Nat) : ScrRes :=
  let i0 := 16 * (s / max 1 (a.n / 16))
  let j0 := 16 * (s % max 1 (a.n / 16))
  (List.range 16).foldl (fun x i => if t.sd then drainSd t a rm j0 (i0 + i) x else drainPlain t a rm sat j0 (i0 + i) x) x

/-! ### Lookups -/

def Mach.acc? (m : Mach) (blk h : Nat) : Option Acc := (m.blocks.get? blk).bind (fun b => if h < 16 then b.accs.get? h else none)

def Mach.modAcc (m : Mach) (blk h : Nat) (f : Acc → Acc) : Mach := m.modBlock blk (fun b => { b with accs := b.accs.modify h f })

end Sys2Proof.Machine
end

