-- ==== Sys2Proof/Machine/Accum.lean ====
section
/-! DEFINITION. The accumulator instructions of row 11 (12 R307 to R310, R325 to R327; 05 R121). They act at their issue and are in their handle's in-flight set for that core cycle, at whose end they retire. -/

namespace Sys2Proof.Machine

/-! ### ACALLOC (R325, R327) -/

def accFmt (c : Nat) : Bool := c = 0x23 || c = 0x47 || c = 0x48

def cfgOk (c : Nat) : Bool := bits c 31 24 = 0 && accFmt (bits c 7 0) && (bits c 23 16 + 1) % 16 = 0 && (bits c 15 8 + 1) % 16 = 0

def cfgUnits (c : Nat) : Nat := accUnits (bits c 23 16 + 1) (bits c 15 8 + 1) (bits c 7 0)

/-- The lowest handle that is neither held nor taken by a waiting ACALLOC. -/
def Block.freeHandle (b : Block) : Option Nat := (List.range 16).find? (fun h => !(b.accs.has h) && b.accWait.all (fun w => w.h ≠ h))

def acallocCauses (g : Grp) : List Nat :=
  if g.execs = [] then []
  else
    let c := (g.a32 g.lead).toNat
    let full : Bool := match g.blockOf g.lead with
      | some b => b.freeHandle.isNone
      | none => true
    let beyond : Bool := match g.blockOf g.lead with
      | some b => decide (((g.launch?).map Launch.accb).getD 0 < b.unitsHeld + b.unitsAwaited + cfgUnits c)
      | none => false
    [if full then causeAccCapacity else 0] ++ g.valued [g.o.a] [if cfgOk c then 0 else causeIllegalFormat, if beyond then causeAccCapacity else 0]

def execAcalloc (o : Op) (s : State) : Host.Outcome State Fault Refusal :=
  .next (issueWith .acalloc o acallocCauses (fun g m =>
    match (if g.execs = [] then none else (m.blocks.get? (g.blkId g.lead)).bind Block.freeHandle) with
    | none => m.signalSlots g.e g.core g.flag g.slots
    | some h =>
      let c := (g.a32 g.lead).toNat
      let w : AccWait := { id := m.nextId, slot := g.lead.slot, h, units := cfgUnits c, cfg := c, dst := match o.dst with
        | .s n => if o.ctl.wbs then none else some n.toNat
        | _ => none }
      let m := { m with nextId := m.nextId + 1 }.modBlock (g.blkId g.lead) (fun b => { b with accWait := b.accWait ++ [w] })
      (g.hold m (.acalloc w.id)).grantAcc g.core) s)

/-! ### The other forms -/

/-- The handle in a lane. -/
def Grp.handle (g : Grp) (x : Member) : Nat := (g.a32 x).toNat

/-- The accumulator a member's handle names; none where it is not held. -/
def Grp.acc? (g : Grp) (x : Member) : Option Acc := if x.slot = handlerSlot then none else g.m.acc? (g.blkId x) (g.handle x)

/-- The handles that an instruction names, in the cycle of its issue (R309). -/
def Grp.nameHandles (g : Grp) (m : Mach) : Mach :=
  (g.execs.filter (fun x => x.slot ≠ handlerSlot)).foldl (fun m x => m.modBlock (g.blkId x) (fun b => { b with accUse := b.accUse.set (g.handle x) (m.shard (shardOf g.core)).cycle })) m

/-- Once for each block, with the lowest executing lane's handle; the handler warp, which has no block, counts as a block that holds none. -/
def Grp.accDoers (g : Grp) : List Member := g.oncePerBlock ++ g.execs.filter (fun x => x.slot = handlerSlot)

def heldCauses (xs : Grp → List Member) (g : Grp) : List Nat := g.valued [g.o.a] ((xs g).map (fun x => if (g.acc? x).isNone then causeAccCapacity else 0))

def execAcfree (o : Op) (s : State) : Host.Outcome State Fault Refusal :=
  .next (issueWith .acfree o (heldCauses Grp.accDoers) (fun g m =>
    let m := g.nameHandles m
    (g.oncePerBlock.foldl (fun m x => (m.modBlock (g.blkId x) (fun b => { b with accs := b.accs.erase (g.handle x) })).soil g.core) m).grantAcc g.core) s)

/-- The status word of R308. -/
def Acc.status (a : Acc) : Nat := (if a.sat then 2 ^ 31 else 0) + 2 ^ 30 + (a.m - 1) * 2 ^ 16 + (a.n - 1) * 2 ^ 8 + a.fmt

/-- The offset checks of ACRD and ACWR. -/
def accOffCauses (g : Grp) : List Nat :=
  g.execs.flatMap (fun x =>
    g.valued [g.o.b] [if (g.b32 x).toNat % 4 = 0 then 0 else causeMisaligned] ++ g.valued [g.o.a] (match g.acc? x with
      | some a => g.valued [g.o.b] [if (g.b32 x).toNat < a.words * 4 then 0 else causeExtent]
      | none => [causeAccCapacity]))

/-- What ACRD reads in a lane. -/
def Grp.acrdVal (g : Grp) (x : Member) : Nat := match g.acc? x with
  | some a => if g.o.mdBit 0 then a.status else a.word ((g.b32 x).toNat / 4)
  | none => 0

def execAcrd (o : Op) (s : State) : Host.Outcome State Fault Refusal :=
  .next (issueWith .acrd o (fun g => if o.mdBit 0 then heldCauses (·.execs) g else accOffCauses g) (fun g m =>
    let vals := g.execs.map (fun x => (x.slot, x.lane, [BitVec.ofNat 32 (g.acrdVal x)]))
    let m := g.freeReads g.execLanes (g.nameHandles m)
    let m := if o.ctl.wbs then m else m.deliver g.core o.dst g.execSlots vals
    m.signalSlots g.e g.core g.flag g.slots) s)

/-- A helper's ACWR is no store to memory, and takes effect (07 R188; log 21). -/
def execAcwr (o : Op) (s : State) : Host.Outcome State Fault Refusal :=
  .next (issueWith .acwr o accOffCauses (fun g m =>
    let m := g.byLane.foldl (fun m x => m.modAcc (g.blkId x) (g.handle x) (fun a => { a with data := a.data.set ((g.b32 x).toNat / 4) (g.c32 x) })) (g.nameHandles m)
    (g.freeReads g.execLanes m).signalSlots g.e g.core g.flag g.slots) s)

/-- Every element 0, SAT 0. -/
def Acc.zero (a : Acc) : Acc := { a with data := (List.range a.words).map (fun i => (i, 0)), sat := false }

def execAczero (o : Op) (s : State) : Host.Outcome State Fault Refusal :=
  .next (issueWith .aczero o (heldCauses Grp.accDoers) (fun g m =>
    (g.oncePerBlock.foldl (fun m x => m.modAcc (g.blkId x) (g.handle x) Acc.zero) (g.nameHandles m)).signalSlots g.e g.core g.flag g.slots) s)

/-! ### ACDRAIN (R326) -/

/-- Every element of an accumulator converted into a tile, which is a whole fill of it; the flags raised. -/
def Mach.drainAll (m : Mach) (blk n h rm : Nat) (sat : Bool) : Mach × BitVec 7 :=
  match m.blocks.get? blk, m.acc? blk h with
  | some b, some a =>
    let t := b.tiles.get n Tile.reset
    let r := (List.range a.subBlocks).foldl (drainStep t a rm sat) (b.scratch, 0)
    let m := m.modTile blk n (fun t => t.beginFill .written)
    (((m.modBlock blk (fun b => { b with scratch := r.1 })).bcRelease blk).fillComplete blk n, r.2)
  | _, _ => (m, 0)

def acdrainCauses (g : Grp) : List Nat :=
  g.valued [g.o.a] <| g.accDoers.flatMap (fun x => match g.acc? x with
    | some a =>
      let t := g.m.tile (g.blkId x) (Dst.tileNo g.o.dst)
      let bad := drainBad t a (g.o.mdBit 0)
      [if bad then causeIllegalFormat else 0, if !bad && t.isReady then causeTileNever else 0]
    | none => [causeAccCapacity])

def execAcdrain (o : Op) (s : State) : Host.Outcome State Fault Refusal :=
  .next (issueWith .acdrain o acdrainCauses (fun g m =>
    let m := g.oncePerBlock.foldl (fun m x =>
      let r := m.drainAll (g.blkId x) (Dst.tileNo o.dst) (g.handle x) (o.mdBits 10 8) (o.mdBit 0)
      r.1.modWarp g.core x.slot (fun w => w.raiseExc r.2)) (g.nameHandles m)
    m.signalSlots g.e g.core g.flag g.slots) s)

end Sys2Proof.Machine
end

