-- ==== Sys2Proof/Machine/Cont.lean ====
section
/-! DEFINITION. Row 17: continuations and work graphs (15 R389 to R403). An instruction of the handler warp finds no launch: it appends nothing, takes nothing, and its nodes own no slots (log 19). -/

namespace Sys2Proof.Machine

def Grp.modLaunch (g : Grp) (m : Mach) (f : Launch → Launch) : Mach := m.modLaunch g.bundleId g.launchId f

/-- The group's launch as it stands in `m`. -/
def Grp.launchIn (g : Grp) (m : Mach) : Option Launch := (m.bundles.get? g.bundleId).bind (fun b => b.launches.get? g.launchId)

/-! ### CONT (R391 to R394) -/

/-- Executing members that are no helper, by rising lane. -/
def Grp.doers (g : Grp) : List Member := g.byLane.filter (fun x => !g.helper x)

def Grp.slipSpills (g : Grp) (m : Mach) : List (Option Int) := ((g.launchIn m).map (fun l => l.slips.map (·.spill))).getD []

/-- Copies of a thread's sealed batches that a new record counts. -/
def linkable (t : Thread) (blk num lane : Nat) (c : Copy) : Bool :=
  c.blk = some blk && c.warp = num && c.lane = lane && c.linked.isNone && t.sealedB.any (fun b => b.no = c.batch)

/-- One lane's record is appended. -/
def Grp.contOne (g : Grp) (m : Mach) (x : Member) : Mach :=
  let m := (m.modWarp g.core x.slot (fun w => w.modThread x.lane Thread.sealBatch)).settleThread g.e g.core x.slot x.lane
  match g.launchIn m with
  | none => m
  | some l =>
    let w := m.warp g.core x.slot
    let mine := linkable (w.thread x.lane) w.blk w.num x.lane
    let n := g.o.mdBits 4 0
    let bitNo := (g.b32 x).toNat % 256
    let ev := g.o.mdBit 5
    let r : Slip :=
      { seq := l.slipSeq, n, ev, evbit := if ev then bitNo else 0, seen := ev && ((g.tagOf? x).map (fun t => m.evBit t bitNo)).getD false,
        pc := g.relTarget, words := (List.range n).map (fun i => g.vAt x (Src.first g.o.a + i)), cpleft := (m.copies.filter (fun c => mine c.2)).length, core := g.core,
        spill := slipStore.place (m.slipUsed g.core) (g.slipSpills m) }
    let m := { m with copies := m.copies.mapVal (fun (c : Copy) => if mine c then { c with linked := some l.slipSeq } else c) }
    g.modLaunch m (fun l => { l with slips := l.slips ++ [r], slipSeq := l.slipSeq + 1 })

def execCont (o : Op) (s : State) : Host.Outcome State Fault Refusal :=
  .next (issueWith .cont o (fun g => [g.m.quotaCause g.bundleId slipStore (g.m.slipUsed g.core) (g.slipSpills g.m) (g.doers.filter (fun x => x.slot ≠ handlerSlot)).length]) (fun g m =>
    let m := (g.doers.filter (fun x => x.slot ≠ handlerSlot)).foldl g.contOne m
    let m := (g.blocksOf g.doers).foldl Mach.visible m
    g.exitExecs (m.signalSlots g.e g.core g.flag g.slots)) s)

/-! ### The node table (R399, R400) -/

/-- The address of the table, and the table's words: read at the launch's first work-graph instruction, and kept from that read on, whatever becomes of the instruction. -/
def Grp.readGraph (needs : Bool) (g : Grp) (m : Mach) : Mach × RecRes :=
  match g.launch? with
  | none => (m, .ok [])
  | some l =>
    if !needs || l.wg.isSome then (m, .ok [])
    else if l.wgTable ≠ [] then (m, .ok [[], l.wgTable])
    else match readVirt g.e g.core g.part m (l.constBase + 1008) 8 with
      | (m, .fault va c) => (m, .fault va c)
      | (m, .uncorr _) => (m, .poison)
      | (m, .ok a) =>
        if a = 0 ∨ a % 64 ≠ 0 then (m, .ok [[a]])
        else match readVirt g.e g.core g.part m a 512 with
          | (m, .fault va c) => (m, .fault va c)
          | (m, .uncorr _) => (m, .poison)
          | (m, .ok v) =>
            let t := (List.range 64).map (fun i => v / 2 ^ (64 * i) % 2 ^ 64)
            (g.modLaunch m (fun y => { y with wgTable := t }), .ok [[a], t])

/-- R399: reserved fields zero and NREG in range. -/
def graphOk (t : List Nat) : Bool :=
  (List.range 16).all (fun i =>
    fld t (4 * i) 62 60 = 0 && fld t (4 * i) 55 53 = 0 && fld t (4 * i) 47 44 = 0 && fld t (4 * i) 31 0 = 0 && fld t (4 * i + 1) 3 0 = 0 && dw t (4 * i + 2) = 0 && dw t (4 * i + 3) = 0 &&
    (fld t (4 * i) 63 63 = 0 || (1 ≤ fld t (4 * i) 52 48 && fld t (4 * i) 52 48 ≤ 16)))

def graphOf (t : List Nat) : WorkGraph :=
  let ns := (List.range 16).map (fun i => (dw t (4 * i), dw t (4 * i + 1)))
  { nodes := ns, free := ns.mapIdx (fun i d => (i, nodeSlots d)), waits := [] }

namespace WorkGraph
def node (g : WorkGraph) (n : Nat) : Nat × Nat := g.nodes.getD n (0, 0)
def nreg (g : WorkGraph) (n : Nat) : Nat := bits (g.node n).1 52 48
def depth (g : WorkGraph) (n : Nat) : Nat := bits (g.node n).1 59 56
def entry (g : WorkGraph) (n : Nat) : Nat := bits (g.node n).2 63 4 * 16
end WorkGraph

/-- Causes of the first read (R399, R400). -/
def Grp.graphCauses (g : Grp) (rs : List (List Nat)) : List Nat :=
  match rs with
  | [] => []
  | [_] => [causeIllegalFormat]
  | _ :: t :: _ =>
    if !graphOk t then [causeIllegalFormat]
    else if g.m.slotRoom g.bundleId (graphOf t).slots && decide ((graphOf t).chunks ≤ g.m.freeChunks g.bundleId) then [] else [causeQueueQuota]

/-- The graph that the instruction uses: the launch's, or the one it has just read. -/
def Grp.graph (g : Grp) (rs : List (List Nat)) : WorkGraph :=
  match (g.launch?).bind (·.wg), rs with
  | some w, _ => w
  | none, _ :: t :: _ => graphOf t
  | none, _ => { nodes := [], free := [], waits := [] }

/-- The slots and chunks are taken. -/
def Grp.keepGraph (g : Grp) (rs : List (List Nat)) (m : Mach) : Mach := g.modLaunch m (fun l => { l with wg := some (g.graph rs) })

def Grp.node (g : Grp) (x : Member) : Nat := (g.a32 x).toNat % 16
def Grp.resOf (g : Grp) (m : Mach) (x : Member) (n : Nat) : Nat := (m.warp g.core x.slot).res.get n 0

/-! ### WGRES, WGCANCEL, WGCOMMIT (R402, R403) -/

/-- The scalar result R[n], and the flag. -/
def Grp.giveRes (g : Grp) (m : Mach) (n : Nat) : Mach :=
  let x := g.lead
  let m := if g.o.ctl.wbs then m else m.deliver g.core g.o.dst [x.slot] [(x.slot, x.lane, [BitVec.ofNat 32 (g.resOf m x n)])]
  m.signalSlots g.e g.core g.flag g.slots

def Grp.modRes (g : Grp) (m : Mach) (x : Member) (n : Nat) (f : Nat → Nat) : Mach := m.modWarp g.core x.slot (fun w => { w with res := w.res.set n (f (w.res.get n 0)) })

def Grp.modGraph (g : Grp) (m : Mach) (f : WorkGraph → WorkGraph) : Mach := g.modLaunch m (fun l => { l with wg := l.wg.map f })

def Op.scalarDst (o : Op) : Option Nat := match o.dst with
  | .s n => if o.ctl.wbs then none else some n.toNat
  | _ => none

def wgresCauses (g : Grp) (rs : List (List Nat)) : List Nat :=
  let k := (g.b32 g.lead).toNat
  g.graphCauses rs ++ g.valued [g.o.a, g.o.b] [if 4096 < k ∨ nodeSlots ((g.graph rs).node (g.node g.lead)) < k then causeQueueQuota else 0]

def execWgres (o : Op) (s : State) : Host.Outcome State Fault Refusal :=
  .next (issueRead .wgres o noCauses (Grp.readGraph true) wgresCauses (fun g rs m =>
    if g.execs = [] then m.signalSlots g.e g.core g.flag g.slots
    else
      let x := g.lead
      let n := g.node x
      let k := (g.b32 x).toNat
      let gr := g.graph rs
      let m := g.keepGraph rs (g.freeReads g.execLanes m)
      if k = 0 then g.giveRes m n
      else if k ≤ gr.free.get n 0 && gr.waits.all (fun w => w.node ≠ n) then
        g.giveRes (g.modRes (g.modGraph m (fun w => { w with free := w.free.set n (w.free.get n 0 - k) })) x n (· + k)) n
      else if o.mdBit 0 || (m.warp g.core x.slot).res.any (fun r => r.2 ≠ 0) then g.giveRes m n
      else
        let w : WgWait := { id := m.nextId, core := g.core, slot := x.slot, node := n, k, dst := Op.scalarDst o }
        g.hold (g.modGraph { m with nextId := m.nextId + 1 } (fun v => { v with waits := v.waits ++ [w] })) (.wgres w.id)) s)

def execWgcancel (o : Op) (s : State) : Host.Outcome State Fault Refusal :=
  .next (issueRead .wgcancel o noCauses (Grp.readGraph true) Grp.graphCauses (fun g rs m =>
    if g.execs = [] then m.signalSlots g.e g.core g.flag g.slots
    else
      let x := g.lead
      let n := g.node x
      let m := g.keepGraph rs (g.freeReads g.execLanes m)
      let j := min (g.b32 x).toNat (g.resOf m x n)
      let m := g.modGraph (g.modRes m x n (· - j)) (fun w => { w with free := w.free.set n (w.free.get n 0 + j) })
      (g.giveRes m n).grantWg g.bundleId g.launchId) s)

/-- The node a warp names: its own scalar, or the immediate. -/
def Grp.nodeAt (g : Grp) (slot : Nat) : Nat := g.node { slot, lane := 0 }

def wgcommitCauses (g : Grp) (rs : List (List Nat)) : List Nat :=
  g.graphCauses rs ++ g.valued [g.o.a] (g.execSlots.flatMap (fun s =>
    let xs := g.doers.filter (fun x => x.slot = s)
    let n := g.nodeAt s
    [if 256 < Src.first g.o.b + (g.graph rs).nreg n then causeIllegalOpcode else 0, if g.resOf g.m { slot := s, lane := 0 } n < xs.length then causeEmitOverrun else 0]))

/-- One lane's record, in its producer's slot; SEQ is its append number within the node's queue (R389). -/
def Grp.commitOne (g : Grp) (gr : WorkGraph) (m : Mach) (x : Member) : Mach :=
  match g.launchIn m with
  | none => m
  | some l =>
    let n := g.nodeAt x.slot
    let r : WgRec :=
      { seq := l.wgSeq.get n 0, node := n, words := (List.range (gr.nreg n)).map (fun i => g.vAt x (Src.first g.o.b + i)), core := g.core,
        spill := wgStore.place (m.wgUsed g.core) ((l.wgRecs.filter (fun r => r.node = n)).map (·.spill)) }
    g.modLaunch (g.modRes m x n (· - 1)) (fun l => { l with wgRecs := l.wgRecs ++ [r], wgSeq := l.wgSeq.set n (l.wgSeq.get n 0 + 1) })

def execWgcommit (o : Op) (s : State) : Host.Outcome State Fault Refusal :=
  .next (issueRead .wgcommit o noCauses (Grp.readGraph true) wgcommitCauses (fun g rs m =>
    if g.execs = [] then m.signalSlots g.e g.core g.flag g.slots
    else
      let m := g.doers.foldl (g.commitOne (g.graph rs)) (g.keepGraph rs m)
      let m := (g.blocksOf g.doers).foldl Mach.visible m
      let m := m.clearReads g.core (if o.ctl.lastB then g.execSlots.flatMap (fun s => (List.range ((g.graph rs).nreg (g.nodeAt s))).map (fun i => (s, Src.first o.b + i, maskOf (g.execLanes s)))) else [])
      (g.freeReads g.execLanes m).signalSlots g.e g.core g.flag g.slots) s)

/-! ### RESUME (R393, R396) -/

def Slip.ready (s : Slip) : Bool := s.cpleft = 0 && (!s.ev || s.seen)

/-- The launch's next ready slip record is taken. -/
def Launch.takeSlip (l : Launch) : Option (Slip × Launch) :=
  (l.slips.find? Slip.ready).map (fun s => (s, { l with slips := l.slips.filter (fun x => x.seq ≠ s.seq) }))

/-- The next work-graph record: of the deepest node that holds any, the oldest. -/
def Launch.takeWg (l : Launch) : Option (WgRec × Launch) :=
  match l.wg with
  | none => none
  | some g =>
    (argmin (fun (r : WgRec) => (15 - g.depth r.node) * 16 + r.node) l.wgRecs).map (fun r =>
      (r, { l with wgRecs := l.wgRecs.filter (fun x => x.seq ≠ r.seq || x.node ≠ r.node), wg := some { g with free := g.free.set r.node (g.free.get r.node 0 + 1) } }))

/-- What a lane's RESUME takes: its words and its program counter. `src`: 0 any, 1 slip, 2 work graph. -/
def Launch.takeRec (l : Launch) (src : Nat) : Option (List Word × DWord × Launch) :=
  match (if src = 2 then none else l.takeSlip) with
  | some (s, l') => some (s.words, s.pc, l')
  | none =>
    if src = 1 then none
    else (l.takeWg).map (fun r => (r.1.words, BitVec.ofNat 64 (((l.wg.map (fun g => g.entry r.1.node))).getD 0), r.2))

/-- The lanes take records one after another, by rising lane; a helper takes none. -/
def Grp.resumeTakes (g : Grp) (src : Nat) : Mach → List Member → Mach × List Take
  | m, [] => (m, [])
  | m, x :: r =>
    let got := if g.helper x || x.slot = handlerSlot then none else (g.launchIn m).bind (fun l => l.takeRec src)
    let y := g.resumeTakes src (match got with
      | some t => g.modLaunch m (fun _ => t.2.2)
      | none => m) r
    (y.1, { slot := x.slot, lane := x.lane, got := got.map (fun t => (t.1, t.2.1)) } :: y.2)

/-- RESUME takes its records at issue; its members are held until their words are written (R396; log 23). -/
def execResume (o : Op) (s : State) : Host.Outcome State Fault Refusal :=
  .next (issueRead .resume o noCauses (Grp.readGraph (o.mdBits 4 3 = 2)) Grp.graphCauses (fun g rs m =>
    if g.execs = [] then m.signalSlots g.e g.core g.flag g.slots
    else
      let t := g.resumeTakes (o.mdBits 4 3) (if rs = [] then m else g.keepGraph rs m) g.byLane
      let m := t.1.grantWg g.bundleId g.launchId
      let a : Access := { core := g.core, op := .resume (o.mdBits 2 0), dst := o.dst, wbs := o.ctl.wbs, flag := 15, members := g.execs, vals := [], excs := [], doneSlots := [], takes := t.2 }
      g.hold { m with accesses := m.accesses.set m.nextId a, nextId := m.nextId + 1 } .resume) s)

end Sys2Proof.Machine
end

