-- ==== Sys2Proof/Machine/Cover.lean ====
section
/-! DEFINITION. Coverage: the Lace patterns, the coverage record and its check (01 R33 to R35), and the classes of a block's iteration points (17 R436, R437). -/

namespace Sys2Proof.Machine

/-! ### The record (R33) -/

namespace CovW
def f (w : List Nat) : Nat := fld w 0 63 55
def lace (w : List Nat) : Nat := fld w 0 54 51
def darn (w : List Nat) : Nat := fld w 0 50 49
def audit (w : List Nat) : Bool := fld w 0 48 48 == 1
def uexp (w : List Nat) : Nat := fld w 0 47 44
def step (w : List Nat) : Nat := fld w 0 43 36
def fmin (w : List Nat) : Nat := fld w 0 35 27
def fmax (w : List Nat) : Nat := fld w 0 26 18
def seed (w : List Nat) : Nat := fld w 1 63 32
def target (w : List Nat) : Nat := fld w 1 31 16
def tlr (w : List Nat) : Nat := fld w 2 63 6 * 64
def fnow (w : List Nat) : Nat := fld w 3 63 55
def rsv (w : List Nat) : Bool := fld w 0 17 0 == 0 && fld w 1 15 0 == 0 && fld w 2 5 0 == 0 && fld w 3 54 0 == 0
end CovW

/-! ### Patterns (R34) -/

def ditherMatrix4 : List Nat := [0, 8, 2, 10, 12, 4, 14, 6, 3, 11, 1, 9, 15, 7, 13, 5]

def ditherMatrix8 : List Nat :=
  [0, 32, 8, 40, 2, 34, 10, 42] ++ [48, 16, 56, 24, 50, 18, 58, 26] ++ [12, 44, 4, 36, 14, 46, 6, 38] ++ [60, 28, 52, 20, 62, 30, 54, 22] ++
  [3, 35, 11, 43, 1, 33, 9, 41] ++ [51, 19, 59, 27, 49, 17, 57, 25] ++ [15, 47, 7, 39, 13, 45, 5, 37] ++ [63, 31, 55, 23, 61, 29, 53, 21]

def b4At (row col : Nat) : Nat := ditherMatrix4.getD (row % 4 * 4 + col % 4) 0
def b8At (row col : Nat) : Nat := ditherMatrix8.getD (row % 8 * 8 + col % 8) 0

/-- The hash of an iteration point. -/
def laceHash (x y z seed : Nat) : Word :=
  let w (n : Nat) : Word := BitVec.ofNat 32 n
  let h := (w x * 0x9E3779B1) ^^^ (w y * 0x85EBCA77) ^^^ (w z * 0xC2B2AE3D) ^^^ w seed
  let h := h ^^^ (h >>> 15)
  let h := h * 0x2C1B3C6D
  h ^^^ (h >>> 12)

/-- The point is kept. -/
def laceKept (lace f seed x y z : Nat) : Bool :=
  match lace with
  | 0 => true
  | 1 => (x + y) % 2 = 0
  | 2 => x % 2 = 0 && y % 2 = 0 && (x + y) % 4 = 0
  | 3 => b4At y x < f / 16
  | 4 => b8At y x < f / 4
  | 5 => y * f / 256 < (y + 1) * f / 256
  | 6 => ((laceHash x y z seed) >>> 24).toNat < f
  | 7 => b4At (y / 8) (x / 8) < f / 16
  | _ => true

/-- Least and greatest F of a pattern. -/
def laceLow (lace : Nat) : Nat :=
  match lace with
  | 0 => 256 | 1 => 128 | 2 => 32 | 3 => 16 | 4 => 4 | 7 => 16 | _ => 1
def laceHigh (lace : Nat) : Nat :=
  match lace with
  | 1 => 128 | 2 => 32 | _ => 256

/-- Patterns whose F is fixed. -/
def laceFixed (lace : Nat) : Bool := lace ≤ 2

/-- The coverage record and its tensor record are valid (R35). -/
def coverOk (w t : List Nat) : Bool :=
  CovW.rsv w && CovW.lace w ≤ 7 && laceLow (CovW.lace w) ≤ CovW.f w && CovW.f w ≤ laceHigh (CovW.lace w) &&
  1 ≤ CovW.fmin w && CovW.fmin w ≤ CovW.f w && CovW.f w ≤ CovW.fmax w && CovW.fmax w ≤ 256 &&
  (!laceFixed (CovW.lace w) || (CovW.fmin w = CovW.f w && CovW.fmax w = CovW.f w && !CovW.audit w)) &&
  Tlr.usable t && (match CovW.darn w with
    | 0 => true
    | 3 => !Tlr.sd t && !Tlr.isFloat (Tlr.fmt t)
    | _ => Tlr.sd t || Tlr.isFloat (Tlr.fmt t))

/-! ### Classes of points (R436) -/

/-- 0 kept, 1 audit, 2 skipped. -/
def pointClass (w : List Nat) (f x y z : Nat) : Nat :=
  if laceKept (CovW.lace w) f (CovW.seed w) x y z then 0
  else if CovW.audit w && ((laceHash x y z (CovW.seed w)) >>> 8).toNat % 64 = 0 then 1
  else 2

/-- The iteration point of thread `tid` of block `lin` (R34). -/
def Launch.point (l : Launch) (lin tid : Nat) : Nat × Nat × Nat :=
  let b := l.blockIdx lin
  let t := l.threadIdx tid
  (b.1 * l.blkX + t.1, b.2.1 * l.blkY + t.2.1, b.2.2 * l.blkZ + t.2.2)

/-- The class of a thread of a block whose F is `f`; without COVER every thread is kept. -/
def Launch.threadClass (l : Launch) (f lin tid : Nat) : Nat :=
  match l.cov with
  | some c => let p := l.point lin tid; pointClass c.rcd f p.1 p.2.1 p.2.2
  | none => 0

/-- The thread starts as a helper: skipped, and its quad holds one that runs (R437). -/
def Launch.startsHelper (l : Launch) (f lin tid : Nat) : Bool :=
  l.quad && l.threadClass f lin tid = 2 && (List.range 4).any (fun i => l.threadClass f lin (tid - tid % 4 + i) ≠ 2)

/-- The thread starts at all. -/
def Launch.starts (l : Launch) (f lin tid : Nat) : Bool := l.threadClass f lin tid ≠ 2 || l.startsHelper f lin tid

/-- Warps of a block that hold a thread to start. -/
def Launch.startWarps (l : Launch) (f lin : Nat) : List Nat := (List.range l.warps).filter (fun n => (List.range 32).any (fun i => l.starts f lin (32 * n + i)))

/-- Points of a block by class. -/
def Launch.points (l : Launch) (f lin : Nat) (p : Nat → Bool) : Nat := ((List.range l.threads).filter (fun t => p (l.threadClass f lin t))).length

end Sys2Proof.Machine
end

