-- ==== Sys2Proof/Machine/Darn.lean ====
section
/-! DEFINITION. The Darning Unit and the Swatch loop (17 R438 to R444; 01 R36). -/

namespace Sys2Proof.Machine

/-- What a pass works on: its core and partition, the launch, its coverage state, the block and its F. -/
structure Pass where
  core : Nat
  part : Nat
  l : Launch
  c : Cov
  lin : Nat
  f : Nat
  deriving DecidableEq, Repr

/-! ### Elements (R438) -/

/-- Coordinates of a point in the dimensions from 1 up. -/
def Pass.row (p : Pass) (y z : Nat) : List Int := ([(y : Int), (z : Int), 0, 0] : List Int).take (Tlr.ndim p.c.tlr - 1)

/-- The element lies within the extents; a coordinate that the tensor has no dimension for must be 0. -/
def Pass.inside (p : Pass) (c0 y z : Nat) : Bool :=
  let n := Tlr.ndim p.c.tlr
  c0 < Tlr.ext p.c.tlr 0 && (if 2 ≤ n then y < Tlr.ext p.c.tlr 1 else y = 0) && (if 3 ≤ n then z < Tlr.ext p.c.tlr 2 else z = 0)

/-- Bits of a row from a bit position. -/
def Pass.readBits (p : Pass) (e : Fw) (m : Mach) (y z pos len : Nat) : Mach × Except MRes Nat :=
  match readRowBits e p.core p.part m (rowAddr p.c.tlr (p.row y z)) pos len with
  | (m, .ok v) => (m, .ok v)
  | (m, r) => (m, .error r)

/-- Payload format of a row of SD blocks, from the header of its first block; 0 where it names none. -/
def Pass.rowFmt (p : Pass) (e : Fw) (m : Mach) (y z : Nat) : Mach × Except MRes Nat :=
  match p.readBits e m y z 0 32 with
  | (m, .ok h) => (m, .ok (if sdHeaderOk h then bits h 7 0 else 0))
  | x => x

/-- Elements of the tensor's rows per block; the format of the row. A plain tensor has one of each. -/
def Pass.per (p : Pass) (e : Fw) (m : Mach) (y z : Nat) : Mach × Except MRes (Nat × Nat) :=
  if Tlr.sd p.c.tlr then
    match p.rowFmt e m y z with
    | (m, .ok c) => (m, .ok (Fmt.payload c, c))
    | (m, .error r) => (m, .error r)
  else (m, .ok (1, Tlr.fmt p.c.tlr))

/-- Value of a plain element: integers stand for themselves. -/
def plainVal (c x : Nat) : Val :=
  match FFmt.ofCode c with
  | some f => f.widen x
  | none => Val.ofInt (intVal ((intSigned c).getD true) (Fmt.width c) x)

/-- Element `i` of an SD block of a row of format `c`; the block of an ill-formed header is NaN throughout (R59). -/
def sdVal (c blk i : Nat) : Val × BitVec 7 := if sdFits blk c then sdElem blk i else (.nan false, excInvalid)

/-- A point as the tensor holds it: its pattern and its value. -/
def Pass.read (p : Pass) (e : Fw) (m : Mach) (per c x y z : Nat) : Mach × Except MRes (Nat × Val) :=
  let w := Tlr.width p.c.tlr
  match p.readBits e m y z (x / per * w) w with
  | (m, .ok v) => (m, .ok (v, if Tlr.sd p.c.tlr then (sdVal c v (x % per)).1 else plainVal c v))
  | (m, .error r) => (m, .error r)

/-- Values of points, in turn. -/
def Pass.readAll (p : Pass) (e : Fw) (per c z : Nat) : Mach → List (Nat × Nat) → Mach × Except MRes (List (Nat × Val))
  | m, [] => (m, .ok [])
  | m, q :: r =>
    match p.read e m per c q.1 q.2 z with
    | (m, .ok v) =>
      match p.readAll e per c z m r with
      | (m, .ok vs) => (m, .ok (v :: vs))
      | x => x
    | (m, .error r) => (m, .error r)

/-! ### Kernels (R439) -/

/-- A neighbour that counts as kept: of the same block, within the extents, kept or audit. -/
def Pass.kept (p : Pass) (per z : Nat) (x y : Int) : Option (Nat × Nat) :=
  let b := p.l.blockIdx p.lin
  let x0 : Int := b.1 * p.l.blkX
  let y0 : Int := b.2.1 * p.l.blkY
  if x0 ≤ x && x < x0 + p.l.blkX && y0 ≤ y && y < y0 + p.l.blkY && p.inside (x.toNat / per) y.toNat z && pointClass p.c.rcd p.f x.toNat y.toNat z ≠ 2 then
    some (x.toNat, y.toNat)
  else none

/-- Offsets of the NEAREST search, in its order: distance, then dy, then dx. -/
def nearOffsets : List (Int × Int) :=
  let all : List (Int × Int) := (List.range 9).flatMap (fun (j : Nat) => (List.range 9).map (fun (i : Nat) => (((i : Nat) : Int) - 4, ((j : Nat) : Int) - 4)))
  (List.range 33).flatMap (fun (d : Nat) => all.filter (fun o => decide (o.1 * o.1 + o.2 * o.2 = ((d : Nat) : Int)) && decide (d ≠ 0)))

/-- What a kernel gives: the pattern of one point, or a value still to be rounded. -/
inductive Fill1 where
  | copy (x : Nat) (v : Val)
  | value (v : Val) (fl : BitVec 7)
  deriving DecidableEq, Repr

def Pass.nearest (p : Pass) (e : Fw) (m : Mach) (per c x y z : Nat) : Mach × Except MRes Fill1 :=
  match nearOffsets.findSome? (fun o => p.kept per z ((x : Int) + o.1) ((y : Int) + o.2)) with
  | some q =>
    match p.read e m per c q.1 q.2 z with
    | (m, .ok v) => (m, .ok (.copy v.1 v.2))
    | (m, .error r) => (m, .error r)
  | none => (m, .ok (.copy 0 (.zero false)))

/-- The sum of values over their number, exact. -/
def meanVal (vs : List Val) (n : Nat) : Fill1 :=
  let s := sumVals rmNear vs
  let q := divVal s.1 (Val.ofInt n)
  .value q.1 (s.2 ||| q.2)

def Pass.mean4 (p : Pass) (e : Fw) (m : Mach) (per c x y z : Nat) : Mach × Except MRes Fill1 :=
  let ns := ([((-1 : Int), (0 : Int)), (1, 0), (0, -1), (0, 1)] : List (Int × Int)).filterMap (fun o => p.kept per z ((x : Int) + o.1) ((y : Int) + o.2))
  if ns = [] then p.nearest e m per c x y z
  else match p.readAll e per c z m ns with
    | (m, .ok vs) => (m, .ok (meanVal (vs.map Prod.snd) ns.length))
    | (m, .error r) => (m, .error r)

/-- |a − b|, exact. -/
def gapVal (a b : Val) : Val := (sumVals rmNear [a, b.flip]).1.abs

/-- GRAD of its four neighbours. -/
def gradVal (l r u d : Val) : Fill1 :=
  let gx := gapVal l r
  let gy := gapVal u d
  if gx.isNan || gy.isNan || cmpVal gx gy = 0 then meanVal [l, r, u, d] 4
  else if cmpVal gx gy < 0 then meanVal [l, r] 2 else meanVal [u, d] 2

def Pass.grad (p : Pass) (e : Fw) (m : Mach) (per c x y z : Nat) : Mach × Except MRes Fill1 :=
  let ns := ([((-1 : Int), (0 : Int)), (1, 0), (0, -1), (0, 1)] : List (Int × Int)).filterMap (fun o => p.kept per z ((x : Int) + o.1) ((y : Int) + o.2))
  if ns.length < 4 then p.mean4 e m per c x y z
  else match p.readAll e per c z m ns with
    | (m, .ok [l, r, u, d]) => (m, .ok (gradVal l.2 r.2 u.2 d.2))
    | (m, .ok _) => (m, .ok (.copy 0 (.zero false)))
    | (m, .error r) => (m, .error r)

/-- The value held most often; of equals the smallest. -/
def majority (c : Nat) (vs : List (Nat × Val)) : Fill1 :=
  let key (x : Nat) : Int := intVal ((intSigned c).getD true) (Fmt.width c) x
  let count (x : Nat) : Nat := (vs.filter (fun v => v.1 = x)).length
  match vs.foldl (fun (b : Option (Nat × Val)) v => match b with
    | none => some v
    | some u => if count u.1 < count v.1 ∨ (count u.1 = count v.1 ∧ key v.1 < key u.1) then some v else some u) none with
  | some v => .copy v.1 v.2
  | none => .copy 0 (.zero false)

def Pass.maj (p : Pass) (e : Fw) (m : Mach) (per c x y z : Nat) : Mach × Except MRes Fill1 :=
  let ns := (nearOffsets.filter (fun o => o.1.natAbs ≤ 1 && o.2.natAbs ≤ 1)).filterMap (fun o => p.kept per z ((x : Int) + o.1) ((y : Int) + o.2))
  if ns = [] then p.nearest e m per c x y z
  else match p.readAll e per c z m ns with
    | (m, .ok vs) => (m, .ok (majority c vs))
    | (m, .error r) => (m, .error r)

/-- The value of a point by the launch's kernel. -/
def Pass.kernel (p : Pass) (e : Fw) (m : Mach) (per c x y z : Nat) : Mach × Except MRes Fill1 :=
  match CovW.darn p.c.rcd with
  | 0 => p.nearest e m per c x y z
  | 1 => p.mean4 e m per c x y z
  | 2 => p.grad e m per c x y z
  | _ => p.maj e m per c x y z

/-- The pattern of a filled plain element, and its flags (R440). -/
def Fill1.pattern (k : Fill1) (c : Nat) : Nat × BitVec 7 :=
  match k with
  | .copy x _ => (x, 0)
  | .value v fl =>
    match FFmt.ofCode c with
    | some f => let r := roundF f rmNear false v; (r.1, r.2 ||| fl)
    | none => (0, fl)

def Fill1.val (k : Fill1) : Val :=
  match k with
  | .copy _ v => v
  | .value v _ => v

def Fill1.flags (k : Fill1) : BitVec 7 :=
  match k with
  | .copy _ _ => 0
  | .value _ fl => fl

/-! ### Writes (R440) -/

/-- Bits of a row are replaced, in whole 16-byte granules. -/
def Pass.writeBits (p : Pass) (e : Fw) (m : Mach) (y z pos len v : Nat) : Mach × Except MRes Unit :=
  let a := truncN 64 (rowAddr p.c.tlr (p.row y z)) + pos / 8
  let g := a / 16 * 16
  let n := ((a - g) * 8 + pos % 8 + len + 127) / 128 * 16
  match readVirt e p.core p.part m g n with
  | (m, .ok old) =>
    let sh := (a - g) * 8 + pos % 8
    match writeVirt e p.core p.part m g n (old - old / 2 ^ sh % 2 ^ len * 2 ^ sh + v % 2 ^ len * 2 ^ sh) with
    | (m, .ok _) => (m, .ok ())
    | (m, r) => (m, .error r)
  | (m, r) => (m, .error r)

/-! ### One point of a pass -/

/-- d of an audit point (R442). -/
def auditError (a b : Val) : Nat :=
  match gapVal a b with
  | .num _ n d ex st => min 0xFFFF (floorAt n d ex (-12) st).1
  | .zero _ => 0
  | _ => 0xFFFF

/-- What a point gives: nothing, an audit's error, or a value to be written into its SD block; with flags. -/
inductive PtRes where
  | none
  | audit (d : Nat)
  | fill (v : Val)
  deriving DecidableEq, Repr

/-- The number of a point among those of its launch. -/
def Launch.pointNo (l : Launch) (x y z : Nat) : Nat := (z * (l.gridY * l.blkY) + y) * (l.gridX * l.blkX) + x

/-- A skipped point of a plain tensor is filled; an audit point is compared (R438, R442). -/
def Pass.plainPoint (p : Pass) (e : Fw) (m : Mach) (x y z cls : Nat) : Mach × Except MRes (PtRes × BitVec 7) :=
  let c := Tlr.fmt p.c.tlr
  match p.kernel e m 1 c x y z with
  | (m, .error r) => (m, .error r)
  | (m, .ok k) =>
    let q := k.pattern c
    if cls = 2 then
      match p.writeBits e m y z (x * Tlr.width p.c.tlr) (Tlr.width p.c.tlr) q.1 with
      | (m, .ok _) => (m, .ok (.none, q.2))
      | (m, .error r) => (m, .error r)
    else match p.read e m 1 c x y z with
      | (m, .ok v) => (m, .ok (.audit (auditError v.2 (plainVal c q.1)), q.2))
      | (m, .error r) => (m, .error r)

/-- The value an SD block would hold for element `i` if it were filled with `v`. -/
def sdRefill (c blk i : Nat) (v : Val) : Val × BitVec 7 :=
  let r := sdEncode c rmNear ((List.range (Fmt.payload c)).map (fun j => if j = i then v else (sdVal c blk j).1))
  ((sdVal c r.1 i).1, r.2)

/-- A point of an SD tensor: a skipped one keeps its value for its block, an audit one is compared. -/
def Pass.sdPoint (p : Pass) (e : Fw) (m : Mach) (per c x y z cls : Nat) : Mach × Except MRes (PtRes × BitVec 7) :=
  match p.kernel e m per c x y z with
  | (m, .error r) => (m, .error r)
  | (m, .ok k) =>
    if cls = 2 then (m, .ok (.fill k.val, k.flags))
    else match p.read e m per c x y z with
      | (m, .ok v) => let r := sdRefill c v.1 (x % per) k.val; (m, .ok (.audit (auditError v.2 r.1), k.flags ||| r.2))
      | (m, .error r) => (m, .error r)

/-- Point `tid` of the block. -/
def Pass.point (p : Pass) (e : Fw) (m : Mach) (tid : Nat) : Mach × Except MRes (PtRes × BitVec 7) :=
  let q := p.l.point p.lin tid
  let cls := pointClass p.c.rcd p.f q.1 q.2.1 q.2.2
  if cls = 0 || !p.inside 0 q.2.1 q.2.2 then (m, .ok (.none, 0))
  else match p.per e m q.2.1 q.2.2 with
    | (m, .error r) => (m, .error r)
    | (m, .ok (per, c)) =>
      if per = 0 || !p.inside (q.1 / per) q.2.1 q.2.2 then (m, .ok (.none, 0))
      else if Tlr.sd p.c.tlr then p.sdPoint e m per c q.1 q.2.1 q.2.2 cls
      else p.plainPoint e m q.1 q.2.1 q.2.2 cls

/-! ### SD blocks (R440) -/

/-- The launch block that holds a point, where the grid reaches it. -/
def Launch.linOf (l : Launch) (x y z : Nat) : Option Nat :=
  let b := (x / max 1 l.blkX, y / max 1 l.blkY, z / max 1 l.blkZ)
  if b.1 < l.gridX ∧ b.2.1 < l.gridY ∧ b.2.2 < l.gridZ then some ((b.2.2 * l.gridY + b.2.1) * l.gridX + b.1) else none

/-- Every launch block with points in the SD block has passed. -/
def Pass.allPassed (p : Pass) (per cx y z : Nat) : Bool :=
  (List.range per).all (fun i => match p.l.linOf (cx * per + i) y z with
    | some b => p.c.passed.has b
    | none => true)

/-- The values kept for an SD block, by element. -/
def Pass.fillsOf (p : Pass) (per cx y z : Nat) : Tab Val :=
  (List.range per).filterMap (fun i => match p.l.linOf (cx * per + i) y z with
    | some _ => (p.c.fills.get? (p.l.pointNo (cx * per + i) y z)).map (fun v => (i, v))
    | none => none)

/-- The SD block of point `tid` is darned, unless an earlier point of the pass lies in it, launch blocks with points in it have still to pass, or another pass has darned it; with the numbers of the points it held. The last launch block that passes finds them all passed, so that each SD block is darned once. -/
def Pass.sdBlock (p : Pass) (e : Fw) (m : Mach) (tid : Nat) : Mach × Except MRes (List Nat × BitVec 7) :=
  let q := p.l.point p.lin tid
  if !p.inside 0 q.2.1 q.2.2 then (m, .ok ([], 0))
  else match p.per e m q.2.1 q.2.2 with
    | (m, .error r) => (m, .error r)
    | (m, .ok (per, c)) =>
      let cx := q.1 / max 1 per
      let fs := p.fillsOf per cx q.2.1 q.2.2
      let first := (List.range p.l.blkX).find? (fun i => ((p.l.blockIdx p.lin).1 * p.l.blkX + i) / max 1 per = cx)
      if per = 0 || !p.inside cx q.2.1 q.2.2 || fs.isEmpty || !p.allPassed per cx q.2.1 q.2.2 || first ≠ some (q.1 - (p.l.blockIdx p.lin).1 * p.l.blkX) then (m, .ok ([], 0))
      else match p.readBits e m q.2.1 q.2.2 (512 * cx) 512 with
        | (m, .error r) => (m, .error r)
        | (m, .ok blk) =>
          let old := (List.range per).map (fun i => sdVal c blk i)
          let new := sdEncode c rmNear (old.mapIdx (fun i v => fs.get i v.1))
          match p.writeBits e m q.2.1 q.2.2 (512 * cx) 512 new.1 with
          | (m, .ok _) => (m, .ok (fs.map (fun v => p.l.pointNo (cx * per + v.1) q.2.1 q.2.2), orExc (old.map Prod.snd) ||| new.2))
          | (m, .error r) => (m, .error r)

/-! ### The Swatch loop (R443, R444; R36) -/

/-- The device writes FNOW of a launch's coverage record; a page that does not translate is left. -/
def Mach.writeFnow (e : Fw) (m : Mach) (part : Nat) (l : Launch) (f : Nat) : Mach := (writeRecord e m part (l.covrec + 24) [f * 2 ^ 55]).1

/-- FNOW lies within FMIN to FMAX and its pattern's range. -/
def fnowOk (w : List Nat) (f : Nat) : Bool := CovW.fmin w ≤ f && f ≤ CovW.fmax w && laceLow (CovW.lace w) ≤ f && f ≤ laceHigh (CovW.lace w)

/-- The next F of an update in hardware mode. -/
def swatchNext (w : List Nat) (f est : Nat) : Nat :=
  let delta : Int := Int.tdiv (((est : Int) - CovW.target w) * 64) (max (CovW.target w) 1 : Nat)
  let delta := clampInt (-(CovW.step w : Int)) (CovW.step w) delta
  (min (max (max ((f : Int) + delta) (CovW.fmin w)) (laceLow (CovW.lace w))) (CovW.fmax w)).toNat

/-- FUNCMODE bit 3. -/
def Fw.hostCover (e : Fw) : Bool := e.win.funcmode.toNat.testBit 3

/-- In host-assisted mode the device takes FNOW as the host left it, or keeps its own and logs the rejection. -/
def Mach.takeFnow (e : Fw) (m : Mach) (b lid : Nat) (x : Bundle) (l : Launch) (c : Cov) : Mach :=
  match readRecord e m x.part (l.covrec + 24) 1 with
  | some [w] =>
    if bits w 63 55 = c.f then m
    else if fnowOk c.rcd (bits w 63 55) then m.modLaunch b lid (fun l => { l with cov := l.cov.map (fun c => { c with f := bits w 63 55 }) })
    else m.partLog x.part [444, bits w 63 55]
  | _ => m

/-- SWATCH_UPDATE: an update instant of a launch with AUDIT = 1. -/
def Mach.swatch (e : Fw) (m : Mach) (b lid : Nat) : Mach :=
  match m.bundles.get? b with
  | none => m
  | some x =>
    match x.launches.get? lid with
    | none => m
    | some l =>
      match l.cov with
      | none => m
      | some c =>
        if !CovW.audit c.rcd then m
        else
          let m := if e.hostCover then m.takeFnow e b lid x l c else m
          if c.n = 0 then m
          else
            let est := c.sum / c.n
            if e.hostCover then
              let m := m.modLaunch b lid (fun l => { l with cov := l.cov.map (fun c => { c with sum := 0, n := 0, est, nupd := c.nupd + 1 }) })
              (m.modTenant x.tag (fun t => { t with vcp := t.vcp.set 0x30 (BitVec.ofNat 64 (est % 2 ^ 16 * 2 ^ 48 + min 0xFFFF c.n * 2 ^ 32 + bits l.covrec 37 6)) })).signal x.tag 2
            else
              let f := swatchNext c.rcd c.f est
              let m := m.modLaunch b lid (fun l => { l with cov := l.cov.map (fun c => { c with f, sum := 0, n := 0, est, nupd := c.nupd + 1 }) })
              m.writeFnow e x.part l f

/-! ### The pass (R438) -/

/-- The core through whose buffers a pass reads: the block's, or where that has left the partition its first. -/
def Fw.unitCore (e : Fw) (part core : Nat) : Nat := if e.ownerOf core = some part then core else (coresOf (e.part part).cores).headD core

/-- A result of a point joins the launch's coverage state. -/
def Cov.take (c : Cov) (no : Nat) (r : PtRes) : Cov :=
  match r with
  | .none => c
  | .audit d => { c with sum := c.sum + d, n := c.n + 1, audited := c.audited + 1 }
  | .fill v => { c with fills := c.fills.set no v }

def Mach.modCov (m : Mach) (b lid : Nat) (f : Cov → Cov) : Mach := m.modLaunch b lid (fun l => { l with cov := l.cov.map f })

def Mach.bundleExc (m : Mach) (b : Nat) (fl : BitVec 7) : Mach := m.modBundle b (fun x => { x with tally := { x.tally with exc := x.tally.exc ||| fl } })

/-- The pass stops at an access: it waits for its fault record, or the error contains its bundle's domain. -/
def Mach.darnStop (e : Fw) (m : Mach) (id : Nat) (d : Darn) (part : Nat) (r : MRes) : Mach :=
  match r with
  | .fault va cause =>
    let x := unitDraft m d.core 6 d.bundle va cause
    match m.postRecord part x with
    | (m, some q) => { m with darns := m.darns.modify id (fun y => { y with waitSeq := some q, draft := none }) }
    | (m, none) => { m with darns := m.darns.modify id (fun y => { y with draft := some x }) }
  | _ => ({ m with darns := m.darns.erase id }).contain e part (((m.bundles.get? d.bundle).map Bundle.fdom).getD 0) d.bundle

/-- The copies that a block issued are still under way. -/
def Mach.blockCopies (m : Mach) (bundle launch lin : Nat) : Bool :=
  m.copies.any (fun c => match c.2.blk.bind m.blocks.get? with
    | some k => k.bundle = bundle && k.launch = launch && k.lin = lin
    | none => false)

/-- A pass may go on. -/
def Mach.darnDue (m : Mach) (d : Darn) : Bool :=
  d.draft.isNone && (match m.bundles.get? d.bundle, d.waitSeq with
    | some x, some q => !m.pending x.part q
    | _, _ => true) && !m.frozenB d.bundle && !m.blockCopies d.bundle d.launch d.lin

/-- The pass has gone through its block. -/
def Mach.darnEnd (e : Fw) (m : Mach) (id : Nat) (d : Darn) (c : Cov) : Mach :=
  let m := { m with darns := m.darns.erase id }
  let m := m.modCov d.bundle d.launch (fun c => { c with passes := c.passes + 1, passed := c.passed.set d.lin d.f })
  if (c.passes + 1) % 2 ^ CovW.uexp c.rcd = 0 then m.swatch e d.bundle d.launch else m

/-- Positions `pos` up, `n` of them: every point in turn, then for an SD tensor every SD block the block's points lie in. -/
def darnRun (e : Fw) (id part : Nat) (d : Darn) : Nat → Nat → Mach → Mach
  | 0, _, m => m
  | n + 1, pos, m =>
    match (m.bundles.get? d.bundle).bind (fun x => x.launches.get? d.launch) with
    | none => { m with darns := m.darns.erase id }
    | some l =>
      match l.cov with
      | none => { m with darns := m.darns.erase id }
      | some c =>
        let p : Pass := { core := e.unitCore part d.core, part, l, c, lin := d.lin, f := d.f }
        let stopAt (m : Mach) (r : MRes) : Mach := ({ m with darns := m.darns.modify id (fun y => { y with pos }) }).darnStop e id d part r
        if pos < l.threads then
          match p.point e m pos with
          | (m, .ok (r, fl)) =>
            let q := l.point d.lin pos
            darnRun e id part d n (pos + 1) ((m.modCov d.bundle d.launch (fun c => c.take (l.pointNo q.1 q.2.1 q.2.2) r)).bundleExc d.bundle fl)
          | (m, .error r) => stopAt m r
        else if Tlr.sd c.tlr && pos < 2 * l.threads then
          let p := { p with c := { c with passed := c.passed.set d.lin d.f } }
          match p.sdBlock e (m.modCov d.bundle d.launch (fun c => { c with passed := c.passed.set d.lin d.f })) (pos - l.threads) with
          | (m, .ok (done, fl)) => darnRun e id part d n (pos + 1) ((m.modCov d.bundle d.launch (fun c => { c with fills := done.foldl (fun t k => t.erase k) c.fills })).bundleExc d.bundle fl)
          | (m, .error r) => stopAt m r
        else m.darnEnd e id d c

/-- DARNING_PASS: a block's pass runs, from where it stopped. -/
def execDarningPass (s : State) : Host.Outcome State Fault Refusal :=
  match s.m.darns.get? s.subj.id with
  | some d =>
    if s.m.darnDue d then
      .next { s with m := darnRun s.fw s.subj.id (((s.m.bundles.get? d.bundle).map (·.part)).getD 0) d 2049 d.pos { s.m with darns := s.m.darns.modify s.subj.id (fun y => { y with waitSeq := none }) } }
    else .next s
  | none => .next s

end Sys2Proof.Machine
end

