-- ==== Sys2Proof/Machine/MacroBase.lean ====
section
/-! DEFINITION. What every macro-instruction shares: state-block words, exact dyadic numbers, sequencer accesses, geometry bins, and the result of a step (13 R330, R334, R337 to R344). -/

namespace Sys2Proof.Machine

/-! ### State-block words (R330) -/

/-- Word `i` of a block. -/
def wN (b : List Word) (i : Nat) : Nat := (b.getD i 0).toNat
def wInt (b : List Word) (i : Nat) : Int := (b.getD i 0).toInt
/-- The field `[hi:lo]` of word `i`. -/
def wF (b : List Word) (i hi lo : Nat) : Nat := bits (wN b i) hi lo
/-- Words `i` and `i + 1`, low first. -/
def wD (b : List Word) (i : Nat) : Nat := wN b i + 2 ^ 32 * wN b (i + 1)
/-- Word `i` as FP32. -/
def wV (b : List Word) (i : Nat) : Val := fmtFP32.widen (wN b i)

def putW (b : List Word) (i v : Nat) : List Word := b.set i (BitVec.ofNat 32 v)
def putI (b : List Word) (i : Nat) (v : Int) : List Word := b.set i (BitVec.ofInt 32 v)
def putD (b : List Word) (i v : Nat) : List Word := putW (putW b i v) (i + 1) (v / 2 ^ 32)
/-- Words from `i` on are replaced. -/
def putRun (b : List Word) (i : Nat) : List Nat → List Word
  | [] => b
  | v :: r => putRun (putW b i v) (i + 1) r

def blkPhase (b : List Word) : Nat := wF b 0 31 28
def blkAns (b : List Word) : Nat := wF b 0 19 18
def blkProg (b : List Word) : Nat := wF b 0 15 8
def blkCap (b : List Word) : Nat := wF b 0 7 0
def setPhase (b : List Word) (v : Nat) : List Word := putW b 0 (putBits (wN b 0) 31 28 v)
def setReason (b : List Word) (v : Nat) : List Word := putW b 0 (putBits (wN b 0) 27 20 v)
def setProg (b : List Word) (v : Nat) : List Word := putW b 0 (putBits (wN b 0) 15 8 v)

/-- The header's reserved bits are not zero. -/
def hdrRsv (b : List Word) : Bool := wF b 0 17 16 ≠ 0

/-! ### The result of a step (R333 to R339) -/

inductive StepRes where
  /-- the step has finished and work remains -/
  | go (b : List Word) (x : BitVec 7)
  | complete (b : List Word) (x : BitVec 7)
  /-- PHASE stands in the block -/
  | callback (b : List Word) (reason : Nat) (x : BitVec 7)
  | ill
  | fault (va cause : Nat)
  | uncorr
  deriving DecidableEq, Repr

/-- What a step of a lane works with. -/
structure MCtx where
  e : Fw
  core : Nat
  part : Nat
  o : Op
  bundle : Nat
  slot : Nat
  lane : Nat
  blk : Nat
  helper : Bool
  recs : List (List Nat)
  /-- place that the issue charged for the record the lane appends (04 R104, R106) -/
  place : Option Int
  deriving DecidableEq, Repr

/-- The rounding mode (R329). -/
def MCtx.rm (c : MCtx) : Nat := c.o.mdBits 10 8

/-- Goes on with what an access gives (R337, R338). -/
def withMem (r : Mach × MRes) (k : Mach → Nat → Mach × StepRes) : Mach × StepRes :=
  match r with
  | (m, .fault va cause) => (m, .fault va cause)
  | (m, .uncorr _) => (m, .uncorr)
  | (m, .ok v) => k m v

def MCtx.read (c : MCtx) (m : Mach) (va n : Nat) : Mach × MRes := readVirt c.e c.core c.part m (va % 2 ^ 64) n

/-- A helper's writes have no effect (R332). -/
def MCtx.write (c : MCtx) (m : Mach) (va n v : Nat) : Mach × MRes := if c.helper then (m, .ok 0) else writeVirt c.e c.core c.part m (va % 2 ^ 64) n v

/-- Bytes of the block's scratchpad. -/
def MCtx.scr (c : MCtx) (m : Mach) (a n : Nat) : Nat := ((m.blocks.get? c.blk).map (fun b => scrRead b a n)).getD 0

def MCtx.putScr (c : MCtx) (m : Mach) (a n v : Nat) : Mach := if c.helper then m else m.scrPut c.blk a n v

/-- The visibility word at an offset takes the minimum of its old and a new value; whether that lowered it (R342). -/
def MCtx.lower (c : MCtx) (m : Mach) (a v : Nat) : Mach × Bool := if v < c.scr m a 8 && !c.helper then (c.putScr m a 8 v, true) else (m, false)

/-! ### Geometry bins (R344) -/

def Mach.bin (m : Mach) (bundle n : Nat) : List Geo := ((m.bundles.get? bundle).map (fun b => b.bins.get n [])).getD []

/-- A record is appended by a core of a shard, in the place its issue charged: a visible effect of its block (16 R424). -/
def MCtx.emit (c : MCtx) (m : Mach) (n : Nat) (grid : Bool) (ws : List Nat) : Mach :=
  if c.helper then m
  else
    let g : Geo := { grid, words := ws, shard := shardOf c.core, spill := c.place }
    (m.modBundle c.bundle (fun b => { b with bins := b.bins.set n (b.bins.get n [] ++ [g]) })).visible c.blk

/-- The head of a bin is taken; a helper reads it and leaves it. -/
def MCtx.drop (c : MCtx) (m : Mach) (n : Nat) : Mach := if c.helper then m else m.modBundle c.bundle (fun b => { b with bins := b.bins.set n ((b.bins.get n []).drop 1) })

/-! ### Exact dyadic numbers -/

/-- `n × 2^e`. -/
structure Dy where
  n : Int
  e : Int
  deriving DecidableEq, Repr

namespace Dy
def ofInt (x : Int) : Dy := { n := x, e := 0 }
/-- `x × 2^k`. -/
def scale (x : Dy) (k : Int) : Dy := { x with e := x.e + k }
def upTo (x : Dy) (e : Int) : Int := x.n * 2 ^ (x.e - e).toNat
def add (x y : Dy) : Dy := let e := min x.e y.e; { n := x.upTo e + y.upTo e, e }
def neg (x : Dy) : Dy := { x with n := -x.n }
def sub (x y : Dy) : Dy := x.add y.neg
def mul (x y : Dy) : Dy := { n := x.n * y.n, e := x.e + y.e }
def le (x y : Dy) : Bool := (x.sub y).n ≤ 0
def floor (x : Dy) : Int := if 0 ≤ x.e then x.n * 2 ^ x.e.toNat else x.n / 2 ^ (-x.e).toNat
def toVal (x : Dy) : Val := Val.dyad (x.n < 0) x.n.natAbs x.e
/-- floor(x / y) for a positive `y`. -/
def floorDiv (x y : Dy) : Int := let e := min x.e y.e; x.upTo e / y.upTo e
/-- x / y for a `y` that is not 0, as a value; 0 is +0. -/
def quot (x y : Dy) : Val := if x.n = 0 then .zero false else .num (decide (x.n < 0) != decide (y.n < 0)) x.n.natAbs y.n.natAbs (x.e - y.e) false
end Dy

/-- A finite FP32 value. -/
def dyOf (w : Nat) : Option Dy :=
  match fmtFP32.widen w with
  | .zero _ => some { n := 0, e := 0 }
  | .num s n _ e _ => some { n := if s then -(n : Int) else n, e }
  | _ => none

/-- All of a list of FP32 words, where every one is finite. -/
def dysOf (ws : List Nat) : Option (List Dy) := ws.mapM dyOf

def dyAt (ds : List Dy) (i : Nat) : Dy := ds.getD i { n := 0, e := 0 }

def isFin (v : Val) : Bool := !v.isNan && !v.isInf

/-- Order of values; false where one is a NaN. -/
def leV (a b : Val) : Bool := !a.isNan && !b.isNan && decide (cmpVal a b ≤ 0)
def ltV (a b : Val) : Bool := !a.isNan && !b.isNan && decide (cmpVal a b < 0)

/-- A value rounded to FP32. -/
def toFp32 (rm : Nat) (v : Val × BitVec 7) : FRes := finish fmtFP32 rm v

/-- 32-bit words of a number, low first. -/
def words32 (v n : Nat) : List Nat := (List.range n).map (fun i => v / 2 ^ (32 * i) % 2 ^ 32)

end Sys2Proof.Machine
end

