-- ==== Sys2Proof/Machine/Raster.lean ====
section
/-! DEFINITION. The steps of RAST, ATTR and OBLEND (13 R345 to R347, R354, R355). -/

namespace Sys2Proof.Machine

/-! ### RAST (R345, R346) -/

def coordOk (x : Int) : Bool := -(2 ^ 22) ≤ x && x < 2 ^ 22

/-- Words 2 to 12: coordinates, depths and indices in range. -/
def rastRecOk (b : List Word) : Bool :=
  ((List.range 6).all (fun i => coordOk (wInt b (2 + i)))) && ((List.range 3).all (fun i => wN b (8 + i) < 2 ^ 24)) && wN b 11 < 2 ^ 20 && wN b 12 < 2 ^ 20

/-- The block is ill-formed; what `.q` is about to write is not looked at. -/
def rastBad (q : Bool) (b : List Word) : Bool :=
  1 < blkPhase b || (blkPhase b = 1 && 7 < blkProg b) || hdrRsv b || 2047 < wF b 13 15 0 || 2047 < wF b 13 31 16 || 256 ≤ wN b 15 || (!(q && blkPhase b = 0) && !rastRecOk b)

/-- Vertex `i` of words 2 to 7. -/
def rastX (b : List Word) (i : Nat) : Int := wInt b (2 + 2 * i)
def rastY (b : List Word) (i : Nat) : Int := wInt b (3 + 2 * i)

/-- Twice the signed area. -/
def rastA (b : List Word) : Int :=
  (rastX b 1 - rastX b 0) * (rastY b 2 - rastY b 0) - (rastY b 1 - rastY b 0) * (rastX b 2 - rastX b 0)

/-- Edge `i` at a point, before the sign. -/
def rastE (b : List Word) (i : Nat) (px py : Int) : Int :=
  let j := (i + 1) % 3
  (rastX b j - rastX b i) * (py - rastY b i) - (rastY b j - rastY b i) * (px - rastX b i)

/-- PHASE 0: edges, area, empty coverage. -/
def rastSetup (b : List Word) : List Word :=
  let sg : Int := if rastA b < 0 then -1 else 1
  let px : Int := 2048 * (wF b 13 15 0 : Int) + 128
  let py : Int := 2048 * (wF b 13 31 16 : Int) + 128
  let b' := (List.range 3).foldl (fun (w : List Word) i =>
    let j := (i + 1) % 3
    let w := putI w (20 + 4 * i) (-sg * 256 * (rastY b j - rastY b i))
    let w := putI w (21 + 4 * i) (sg * 256 * (rastX b j - rastX b i))
    putD w (22 + 4 * i) (truncN 64 (sg * rastE b i px py))) b
  putD (putD b' 18 (rastA b).natAbs) 16 0

/-- The edge and tie rule. -/
def insideEdge (e dx dy : Int) : Bool := 0 < e || (e = 0 && (0 < dx || (dx = 0 && 0 < dy)))

/-- One pixel of a row. -/
def rastPixel (c : MCtx) (b : List Word) (y : Nat) (s : Mach × Nat) (x : Nat) : Mach × Nat :=
  let e (i : Nat) : Int := sextN 64 (wD b (22 + 4 * i)) + wInt b (20 + 4 * i) * x + wInt b (21 + 4 * i) * y
  if (List.range 3).all (fun i => insideEdge (e i) (wInt b (20 + 4 * i)) (wInt b (21 + 4 * i))) then
    let n := e 1 * wN b 8 + e 2 * wN b 9 + e 0 * wN b 10
    let z : Int := if wD b 18 = 0 then ((Config.depthByZero n).toNat : Int) else clampInt 0 0xFFFFFF (n / (wD b 18 : Int))
    let p := 8 * y + x
    ((c.lower s.1 (wN b 14 + 8 * p) (z.toNat * 2 ^ 40 + wN b 12 * 2 ^ 20 + wN b 11)).1, s.2 ||| 2 ^ p)
  else s

def rastRow (c : MCtx) (m : Mach) (b : List Word) : Mach × StepRes :=
  let y := blkProg b
  let r := (List.range 8).foldl (rastPixel c b y) (m, wD b 16)
  let b := setProg (putD b 16 r.2) (y + 1)
  (r.1, if y = 7 then .complete b 0 else .go b 0)

def rastStep (c : MCtx) (m : Mach) (b : List Word) : Mach × StepRes :=
  let mode := c.o.mdBits 1 0
  if rastBad (mode = 1) b then (m, .ill)
  else if mode = 2 then (c.emit m (wN b 15) false ((List.range 11).map (fun i => wN b (2 + i))), .complete b 0)
  else if blkPhase b = 1 then rastRow c m b
  else
    let begin1 (m : Mach) (b : List Word) : Mach × StepRes :=
      let b := rastSetup b
      (m, if wD b 18 = 0 then .complete b 0 else .go (setProg (setPhase b 1) 0) 0)
    if mode = 1 then
      match m.bin c.bundle (wN b 15) with
      | [] => (m, .callback b 0x06 0)
      | g :: _ => if g.grid then (m, .ill) else begin1 (c.drop m (wN b 15)) (putRun b 2 g.words)
    else begin1 m b

/-! ### ATTR (R347) -/

def attrBad (b : List Word) : Bool := blkPhase b ≠ 0 || hdrRsv b || 4 ≤ wN b 13 || wN b 14 ≠ 0 || wN b 15 ≠ 0

/-- Weights and interpolants from a triangle record of fifteen words. -/
def attrOut (rm : Nat) (b : List Word) (t : List Nat) : List Word × BitVec 7 :=
  -- the record's coordinates at the places of words 2 to 7 of a RAST block
  let r : List Word := [0, 0] ++ t.map (BitVec.ofNat 32)
  let px : Int := 256 * (wF b 4 15 0 : Int) + 128
  let py : Int := 256 * (wF b 4 31 16 : Int) + 128
  let a := rastA r
  let sg : Int := if a < 0 then -1 else 1
  let e (i : Nat) : Val := Val.ofInt (sg * rastE r i px py)
  let d := Val.ofInt a.natAbs
  let lam (i : Nat) : FRes := toFp32 rm (divVal (e i) d)
  let att (k : Nat) : FRes :=
    let ps := [(1, 0), (2, 1), (0, 2)].map (fun (i, v) => prodVal (e i) (fmtFP32.widen (t.getD (6 + 3 * k + v) 0)))
    let s := sumVals rm (ps.map Prod.fst)
    let q := divVal s.1 d
    toFp32 rm (q.1, orExc (ps.map Prod.snd) ||| s.2 ||| q.2)
  let outs := [lam 1, lam 2, lam 0] ++ (List.range 3).map (fun k => if k < wN b 13 then att k else (0, 0))
  (putRun b 7 (outs.map Prod.fst), orExc (outs.map Prod.snd))

def attrStep (c : MCtx) (m : Mach) (b : List Word) : Mach × StepRes :=
  if attrBad b then (m, .ill)
  else if wD b 2 = 0xFFFFFFFFFFFFFFFF then (m, .complete (putRun b 7 [0, 0, 0, 0, 0, 0]) 0)
  else withMem (c.read m (wD b 5 + 64 * bits (wD b 2) 19 0) 60) (fun m v =>
    let t := words32 v 15
    let r : List Word := [0, 0] ++ t.map (BitVec.ofNat 32)
    if rastA r = 0 || !((List.range 6).all (fun i => coordOk (wInt r (2 + i)))) then (m, .ill)
    else let x := attrOut c.rm b t; (m, .complete x.1 x.2))

/-! ### OBLEND (R354, R355) -/

def oblendBad (b : List Word) : Bool := blkPhase b ≠ 0

/-- NEXT of the colour tile's order object. -/
def MCtx.next (c : MCtx) (m : Mach) (b : List Word) : Nat := c.scr m (wN b 4 + 1024) 4

/-- One channel after the blend. -/
def blendOne (rm mode s p alpha : Nat) : FRes :=
  let vs := fmtFP32.widen s
  let vp := fmtFP32.widen p
  match mode with
  | 0 => toFp32 rm (vs, if vs.sig then excInvalid else 0)
  | 1 =>
    let k := sumVals rm [.dyad false 1 0, (fmtFP32.widen alpha).flip]
    let q := prodVal vp k.1
    let t := sumVals rm [vs, q.1]
    toFp32 rm (t.1, k.2 ||| q.2 ||| t.2)
  | 2 => toFp32 rm (sumVals rm [vs, vp])
  | _ => toFp32 rm (prodVal vs vp)

/-- One fragment: the pixel and the block after it. -/
def blendLane (c : MCtx) (m : Mach) (b : List Word) : Mach × List Word × BitVec 7 :=
  let at_ (k : Nat) : Nat := wN b 4 + 16 * wF b 3 5 0 + 4 * k
  if wF b 3 6 6 = 1 then
    let rs := (List.range 4).map (fun k => blendOne c.rm (wF b 3 9 8) (wN b (5 + k)) (c.scr m (at_ k) 4) (wN b 8))
    let m := (List.range 4).foldl (fun (m : Mach) k => c.putScr m (at_ k) 4 ((rs.getD k (0, 0)).1)) m
    (m, putRun b 9 (rs.map Prod.fst), orExc (rs.map Prod.snd))
  else (m, putRun b 9 ((List.range 4).map (fun k => c.scr m (at_ k) 4)), 0)

end Sys2Proof.Machine
end

