-- ==== Sys2Proof/Machine/Dice.lean ====
section
/-! DEFINITION. The steps of DICE and SAMPS (13 R356, R357). -/

namespace Sys2Proof.Machine

/-! ### DICE (R356) -/

def diceSU (b : List Word) : Nat := wF b 6 19 16 + 1
def diceSV (b : List Word) : Nat := wF b 6 23 20 + 1
def diceNU (b : List Word) : Nat := wF b 6 7 0
def diceNV (b : List Word) : Nat := wF b 6 15 8
def diceBin (b : List Word) : Nat := wF b 8 7 0
/-- G_k. -/
def diceGrid (b : List Word) (k : Nat) : Nat := (wD b 4 + 32 * k * (diceNU b + 1) * (diceNV b + 1)) % 2 ^ 64

def gridDims (nu nv : Nat) : Bool := 1 ≤ nu && nu ≤ 16 && 1 ≤ nv && nv ≤ 16

def diceBad (b : List Word) : Bool :=
  !gridDims (diceNU b) (diceNV b) || 0xFFFFF < wF b 7 19 0 + diceSU b * diceSV b || wD b 2 % 64 ≠ 0 || wD b 4 % 64 ≠ 0 || 3 ≤ blkPhase b ||
  diceSU b * diceSV b ≤ blkProg b

/-- The four Bernstein numerators of p/q, over q³. -/
def bern (p q : Nat) : List Nat := [(q - p) ^ 3, 3 * p * (q - p) ^ 2, 3 * p ^ 2 * (q - p), p ^ 3]

/-- Coordinate `x` of a vertex at (pu/qu, pv/qv): `ctl` holds the control points' words. -/
def diceCoord (rm : Nat) (ctl : List Nat) (pu qu pv qv x : Nat) : FRes :=
  let ps := (List.range 4).flatMap (fun a => (List.range 4).map (fun k =>
    prodVal (Val.ofInt (((bern pu qu).getD a 0 * (bern pv qv).getD k 0 : Nat) : Int)) (fmtFP32.widen (ctl.getD (6 * (4 * k + a) + x) 0))))
  let s := sumVals rm (ps.map Prod.fst)
  let q := divVal s.1 (Val.ofInt ((qu ^ 3 * qv ^ 3 : Nat) : Int))
  toFp32 rm (q.1, orExc (ps.map Prod.snd) ||| s.2 ||| q.2)

/-- A vertex: its 32 bytes as a number, and flags. -/
def diceVertex (rm : Nat) (b : List Word) (ctl : List Nat) (k i j : Nat) : Nat × BitVec 7 :=
  let su := k % diceSU b
  let sv := k / diceSU b
  let cs := (List.range 6).map (diceCoord rm ctl (su * diceNU b + i) (diceNU b * diceSU b) (sv * diceNV b + j) (diceNV b * diceSV b))
  ((List.range 6).foldl (fun v x => v + (cs.getD x (0, 0)).1 * 2 ^ (32 * x)) 0, orExc (cs.map Prod.snd))

/-- Vertices written in turn. -/
def diceWrite (c : MCtx) (b : List Word) (ctl : List Nat) (k : Nat) : Mach → BitVec 7 → List Nat → Mach × Except StepRes (BitVec 7)
  | m, x, [] => (m, .ok x)
  | m, x, n :: r =>
    let v := diceVertex c.rm b ctl k (n % (diceNU b + 1)) (n / (diceNU b + 1))
    match c.write m (diceGrid b k + 32 * n) 32 v.1 with
    | (m, .fault va cause) => (m, .error (.fault va cause))
    | (m, .uncorr _) => (m, .error .uncorr)
    | (m, .ok _) => diceWrite c b ctl k m (x ||| v.2) r

/-- A dicing step: grid `k` of the block, whose PROG is `k`. -/
def diceGridStep (c : MCtx) (m : Mach) (b : List Word) : Mach × StepRes :=
  let k := blkProg b
  withMem (c.read m (wD b 2) 384) (fun m v =>
    match diceWrite c b (words32 v 96) k (if c.helper then m else m.visible c.blk) 0 (List.range ((diceNU b + 1) * (diceNV b + 1))) with
    | (m, .error x) => (m, x)
    | (m, .ok x) => (m, .callback (setPhase b 2) 0x07 x))

def diceEmit (c : MCtx) (m : Mach) (b : List Word) : Mach × StepRes :=
  let k := blkProg b
  let g := diceGrid b k
  let m := c.emit m (diceBin b) true [g % 2 ^ 32, g / 2 ^ 32, diceNV b * 256 + diceNU b, wF b 7 19 0 + k]
  (m, if k + 1 = diceSU b * diceSV b then .complete b 0 else .go (setPhase (setProg b (k + 1)) 1) 0)

def diceStep (c : MCtx) (m : Mach) (b : List Word) : Mach × StepRes :=
  if diceBad b then (m, .ill)
  else match blkPhase b with
    | 0 => diceGridStep c m (setProg b 0)
    | 1 => diceGridStep c m b
    | _ => diceEmit c m b

/-! ### SAMPS (R357) -/

/-- S of a code. -/
def sampsS (code : Nat) : Nat := match code with
  | 0 => 1
  | 1 => 4
  | _ => 16

def sampsBad (b : List Word) : Bool := 1 < blkPhase b || wF b 10 1 0 = 3
def sampsNU (b : List Word) : Nat := wF b 5 7 0
def sampsNV (b : List Word) : Nat := wF b 5 15 8
/-- What the grid's own words show. -/
def sampsGridBad (b : List Word) : Bool := !gridDims (sampsNU b) (sampsNV b) || (blkPhase b = 1 && sampsNU b * sampsNV b ≤ blkProg b)

/-- A vertex's six words, all finite. -/
abbrev GVert := Option (List Dy)

/-- Place of a vertex for a sample's time and lens: (x, y, z). -/
def lensPlace (t lx ly lk fz : Dy) (v : List Dy) : Dy × Dy × Dy :=
  let at_ (k : Nat) : Dy := (((Dy.ofInt 1).sub t).mul (dyAt v k)).add (t.mul (dyAt v (3 + k)))
  let z := at_ 2
  let d := z.sub fz
  ((at_ 0).add ((lx.mul lk).mul d), (at_ 1).add ((ly.mul lk).mul d), z)

/-- Edge from vertex `p` to vertex `q` at a point. -/
def dyEdge (p q : Dy × Dy × Dy) (x y : Dy) : Dy :=
  ((q.1.sub p.1).mul (y.sub p.2.1)).sub ((q.2.1.sub p.2.1).mul (x.sub p.1))

/-- The depth of a covered point of a triangle. -/
def sampleDepth (v0 v1 v2 : Dy × Dy × Dy) (x y : Dy) : Option Nat :=
  let a := dyEdge v0 v1 v2.1 v2.2.1
  if a.n = 0 then none
  else
    let s (d : Dy) : Dy := if a.n < 0 then d.neg else d
    let inside (p q : Dy × Dy × Dy) : Bool := insideEdge (s (dyEdge p q x y)).n (s (p.2.1.sub q.2.1)).n (s (q.1.sub p.1)).n
    if inside v0 v1 && inside v1 v2 && inside v2 v0 then
      let n := ((s (dyEdge v1 v2 x y)).mul v0.2.2).add (((s (dyEdge v2 v0 x y)).mul v1.2.2).add ((s (dyEdge v0 v1 x y)).mul v2.2.2))
      if 0 ≤ n.n && n.le (s a) then some ((n.mul (Dy.ofInt 16777215)).floorDiv (s a)).toNat else none
    else none

/-- One sample against one triangle of vertices. -/
def sampsTest (c : MCtx) (b : List Word) (vs : List GVert) (prim : Nat) (lk fz : Dy) (s : Nat) (st : Mach × List Word) : Mach × List Word :=
  let sS := sampsS (wF b 10 1 0)
  let row := c.scr st.1 (wN b 9 + 16 * s) 16
  match vs, dysOf ((words32 row 4).drop 1) with
  | [some v0, some v1, some v2], some [t, lx, ly] =>
    let p := s / sS
    let x := (Dy.ofInt (((8 * wF b 7 15 0 + p % 8 : Nat)) : Int)).add { n := ((bits row 15 0 : Nat) : Int), e := -8 }
    let y := (Dy.ofInt (((8 * wF b 7 31 16 + p / 8 : Nat)) : Int)).add { n := ((bits row 31 16 : Nat) : Int), e := -8 }
    let f := lensPlace t lx ly lk fz
    match sampleDepth (f v0) (f v1) (f v2) x y with
    | none => st
    | some z =>
      let r := c.lower st.1 (wN b 8 + 8 * s) (z * 2 ^ 40 + wF b 6 19 0 * 2 ^ 20 + prim)
      (r.1, if r.2 then putW st.2 13 (wN st.2 13 + 1) else st.2)
  | _, _ => st

/-- One micropolygon: both triangles against every sample of the tile. -/
def sampsPoly (c : MCtx) (m : Mach) (b : List Word) (vs : List (List Nat)) : Mach × List Word :=
  let g (i : Nat) : GVert := dysOf (vs.getD i [])
  let poly := blkProg b
  match dyOf (wN b 11), dyOf (wN b 12) with
  | some lk, some fz =>
    let ss := List.range (64 * sampsS (wF b 10 1 0))
    let st := ss.foldl (fun st s => sampsTest c b [g 0, g 1, g 3] (2 * poly) lk fz s st) (m, b)
    ss.foldl (fun st s => sampsTest c b [g 0, g 3, g 2] (2 * poly + 1) lk fz s st) st
  | _, _ => (m, b)

/-- Vertices (i, j), (i+1, j), (i, j+1), (i+1, j+1) of a micropolygon, read in turn. -/
def readVerts (c : MCtx) (b : List Word) : Mach → List Nat → Mach × Except StepRes (List (List Nat))
  | m, [] => (m, .ok [])
  | m, n :: r =>
    match c.read m (wD b 3 + 32 * n) 24 with
    | (m, .fault va cause) => (m, .error (.fault va cause))
    | (m, .uncorr _) => (m, .error .uncorr)
    | (m, .ok v) =>
      match readVerts c b m r with
      | (m, .ok vs) => (m, .ok (words32 v 6 :: vs))
      | x => x

def sampsOne (c : MCtx) (m : Mach) (b : List Word) : Mach × StepRes :=
  let nu := sampsNU b
  let k := blkProg b
  let n0 := k / nu * (nu + 1) + k % nu
  match readVerts c b m [n0, n0 + 1, n0 + nu + 1, n0 + nu + 2] with
  | (m, .error x) => (m, x)
  | (m, .ok vs) =>
    let r := sampsPoly c m b vs
    let b := setProg r.2 (k + 1)
    (r.1, if k + 1 = nu * sampsNV b then .complete b 0 else .go b 0)

def sampsStep (c : MCtx) (m : Mach) (b : List Word) : Mach × StepRes :=
  let fresh (b : List Word) : List Word := putW (setProg (setPhase b 1) 0) 13 0
  if sampsBad b then (m, .ill)
  else if blkPhase b = 1 then (if sampsGridBad b then (m, .ill) else sampsOne c m b)
  else if c.o.mdBits 1 0 = 1 then
    match m.bin c.bundle (wF b 2 7 0) with
    | [] => (m, .callback b 0x06 0)
    | g :: _ =>
      let b' := putRun b 3 g.words
      if !g.grid || sampsGridBad (fresh b') then (m, .ill)
      else match sampsOne c m (fresh b') with
        | (m, .fault va cause) => (m, .fault va cause)
        | (m, .uncorr) => (m, .uncorr)
        | (m, r) => (c.drop m (wF b 2 7 0), r)
  else if sampsGridBad (fresh b) then (m, .ill) else sampsOne c m (fresh b)

end Sys2Proof.Machine
end

