-- ==== Sys2Proof/Machine/Filter.lean ====
section
/-! DEFINITION. The steps of FILT (13 R352, R353). -/

namespace Sys2Proof.Machine

/-- Levels and first slot of the form. -/
def filtLevels (o : Op) : Nat := o.mdBits 7 4 + 1
def filtSlot (o : Op) : Nat := o.mdBits 3 0

/-- The records allow filtering (R352). -/
def filtRecsOk (rs : List (List Nat)) : Bool :=
  rs.all (fun t => Tlr.ndim t = 3 && !Tlr.sd t && Tlr.ext t 0 ≤ 4 && Fmt.width (Tlr.fmt t) ≤ 32 && Tlr.fmt t = Tlr.fmt (rs.headD []) && Tlr.ext t 0 = Tlr.ext (rs.headD []) 0)

def filtMode (b : List Word) : Nat := wF b 8 2 0

def filtBad (b : List Word) : Bool := 2 < blkPhase b || (List.range 6).any (fun i => !isFin (wV b (2 + i))) || 4 ≤ filtMode b

/-- A level's extents. -/
def levW (c : MCtx) (l : Nat) : Dy := Dy.ofInt (Tlr.ext (c.recs.getD l []) 1)
def levH (c : MCtx) (l : Nat) : Dy := Dy.ofInt (Tlr.ext (c.recs.getD l []) 2)

def wDy (b : List Word) (i : Nat) : Dy := (dyOf (wN b i)).getD { n := 0, e := 0 }

/-- ρ², exact. -/
def rhoSq (c : MCtx) (b : List Word) : Dy :=
  let sq (i : Nat) (l : Dy) : Dy := let x := (wDy b i).mul l; x.mul x
  let p := (sq 4 (levW c 0)).add (sq 5 (levH c 0))
  let q := (sq 6 (levW c 0)).add (sq 7 (levH c 0))
  if p.le q then q else p

/-- ½ log2 s + bias/16, for a positive s. -/
def lodVal (s : Dy) (bias : Int) : Val :=
  let n := s.n.natAbs
  let l := ilog n 1 s.e
  let lead := 2 ^ Nat.log2 n
  if n = lead then Val.dyad (8 * l + bias < 0) (8 * l + bias).natAbs (-4)
  else
    let p := 256 + 2 * Nat.log2 n
    let x := 2 ^ p * (n - lead) / (n + lead)
    let frac := 2 * artanhFix p x * 2 ^ p / ln2Fix p
    let t : Int := 8 * (l * 2 ^ p + frac) + bias * 2 ^ p
    if t = 0 then .zero false else .num (t < 0) t.natAbs 1 (-(p : Int) - 4) true

def lodOf (c : MCtx) (b : List Word) : FRes :=
  let s := rhoSq c b
  if s.n = 0 then (fmtFP32.infBits true, 0) else roundF fmtFP32 0 false (lodVal s (sextN 8 (wF b 8 15 8)))

/-- L, as a dyadic number between 0 and K − 1. -/
def levelOf (c : MCtx) (lod : Nat) : Dy :=
  let top : Int := (filtLevels c.o : Int) - 1
  match fmtFP32.widen lod with
  | .nan _ => Dy.ofInt ((Config.levelOfNan lod % filtLevels c.o : Nat) : Int)
  | .inf s => Dy.ofInt (if s then 0 else top)
  | _ => let x := (dyOf lod).getD (Dy.ofInt 0); if x.n ≤ 0 then Dy.ofInt 0 else if x.le (Dy.ofInt top) then x else Dy.ofInt top

/-- Nearest integer, ties to even. -/
def nearEven (x : Dy) : Int := (roundInt rmNear x.toVal).1

/-- x − 1/2 coordinates of a level: U·W − 1/2. -/
def texPos (u w : Dy) : Dy := (u.mul w).sub { n := 1, e := -1 }

def fracOf (x : Dy) : Dy := x.sub (Dy.ofInt x.floor)

/-- Step 1. -/
def filtSetup (c : MCtx) (b : List Word) : List Word × BitVec 7 :=
  let lod := lodOf c b
  let l := levelOf c lod.1
  let lm := if filtMode b = 2 then l.floor.toNat else (nearEven l).toNat
  let fx := toFp32 0 ((fracOf (texPos (wDy b 2) (levW c lm))).toVal, 0)
  let fy := toFp32 0 ((fracOf (texPos (wDy b 3) (levH c lm))).toVal, 0)
  (putRun b 9 [lod.1, fx.1, fy.1], lod.2 ||| fx.2 ||| fy.2)

/-- The exact value of an element. -/
def texVal (fmt v : Nat) : Val :=
  match FFmt.ofCode fmt with
  | some f => f.widen v
  | none => Val.ofInt (if 0x20 ≤ fmt then sextN (Fmt.width fmt) v else (v : Int))

/-- A term of a sum: its weight, and the texel it takes. -/
structure Tap where
  wt : Dy
  lev : Nat
  i : Int
  j : Int
  deriving DecidableEq, Repr

/-- The four taps of B_l, each weight times `f`. -/
def taps (c : MCtx) (b : List Word) (l : Nat) (f : Dy) : List Tap :=
  let x := texPos (wDy b 2) (levW c l)
  let y := texPos (wDy b 3) (levH c l)
  let fx := fracOf x
  let fy := fracOf y
  let one := Dy.ofInt 1
  [(one.sub fx, one.sub fy, (0 : Int), (0 : Int)), (fx, one.sub fy, 1, 0), (one.sub fx, fy, 0, 1), (fx, fy, 1, 1)].map
    (fun (wa, wc, a, k) => { wt := (wa.mul wc).mul f, lev := l, i := x.floor + a, j := y.floor + k })

/-- The taps of step 2. -/
def filtTaps (c : MCtx) (b : List Word) : List Tap :=
  let l := levelOf c (wN b 9)
  match filtMode b with
  | 0 =>
    let n := (nearEven l).toNat
    [{ wt := Dy.ofInt 1, lev := n, i := ((wDy b 2).mul (levW c n)).floor, j := ((wDy b 3).mul (levH c n)).floor }]
  | 1 => taps c b (nearEven l).toNat (Dy.ofInt 1)
  | _ =>
    let f := fracOf l
    let n := l.floor.toNat
    taps c b n ((Dy.ofInt 1).sub f) ++ taps c b (min (n + 1) (filtLevels c.o - 1)) f

/-- Texels of a channel, tap by tap. -/
def readTaps (c : MCtx) (k : Nat) : Mach → List Tap → Mach × Except StepRes (List (Val × Val))
  | m, [] => (m, .ok [])
  | m, t :: r =>
    let rec_ := c.recs.getD t.lev []
    match readElem c.e c.core c.part rec_ [t.i, t.j] k 0 (Tlr.width rec_) m with
    | (m, .fault va cause) => (m, .error (.fault va cause))
    | (m, .uncorr _) => (m, .error .uncorr)
    | (m, .ok v) =>
      match readTaps c k m r with
      | (m, .ok xs) => (m, .ok ((t.wt.toVal, texVal (Tlr.fmt rec_) v) :: xs))
      | x => x

/-- Channels from `k` on. -/
def filtChannels (c : MCtx) (ts : List Tap) : Mach → List Nat → Mach × Except StepRes (List FRes)
  | m, [] => (m, .ok [])
  | m, k :: r =>
    if Tlr.ext (c.recs.headD []) 0 ≤ k then
      match filtChannels c ts m r with
      | (m, .ok xs) => (m, .ok ((if k = 3 then 0x3F800000 else 0, 0) :: xs))
      | x => x
    else match readTaps c k m ts with
      | (m, .error x) => (m, .error x)
      | (m, .ok ps) =>
        let qs := ps.map (fun p => prodVal p.1 p.2)
        let s := sumVals c.rm (qs.map Prod.fst)
        let v := toFp32 c.rm (s.1, s.2 ||| orExc (qs.map Prod.snd))
        match filtChannels c ts m r with
        | (m, .ok xs) => (m, .ok (v :: xs))
        | x => x

def filtStep (c : MCtx) (m : Mach) (b : List Word) : Mach × StepRes :=
  if filtBad b then (m, .ill)
  else match blkPhase b with
    | 0 =>
      let x := filtSetup c b
      (m, if filtMode b = 3 then .callback (setPhase x.1 2) 0x03 x.2 else .go (setPhase x.1 1) x.2)
    | 1 =>
      match filtChannels c (filtTaps c b) m [0, 1, 2, 3] with
      | (m, .error x) => (m, x)
      | (m, .ok vs) => (m, .complete (putRun b 12 (vs.map Prod.fst)) (orExc (vs.map Prod.snd)))
    | _ => (m, .complete b 0)

end Sys2Proof.Machine
end

