-- ==== Sys2Proof/Machine/Match.lean ====
section
/-! DEFINITION. The steps of BMATCH (13 R358). -/

namespace Sys2Proof.Machine

/-- The record allows a search. -/
def bmatchRecOk (t : List Nat) : Bool := Tlr.ndim t = 2 && !Tlr.sd t && (Tlr.fmt t = 0x11 || Tlr.fmt t = 0x12)

def bmRng (b : List Word) : Nat := wF b 4 7 0
def bmSize (b : List Word) : Nat := if wF b 4 8 8 = 1 then 16 else 8
def half (b : List Word) (i hi lo : Nat) : Int := sextN 16 (wF b i hi lo)

def bmatchBad (b : List Word) : Bool :=
  32 < bmRng b || wF b 4 15 9 ≠ 0 || hdrRsv b || (List.range 8).any (fun i => wN b (8 + i) ≠ 0) || 1 < blkPhase b || 2 * bmRng b < blkProg b

def bmRec (c : MCtx) : List Nat := c.recs.headD []

/-- Element (x, y) of the current block. -/
def bmCur (c : MCtx) (m : Mach) (b : List Word) (x y : Nat) : Nat := let n := Tlr.width (bmRec c) / 8; c.scr m (wN b 2 + n * (y * bmSize b + x)) n

/-- A run of reference elements of a row. -/
def refRun (c : MCtx) (y : Int) : Mach → List Int → Mach × Except StepRes (List Nat)
  | m, [] => (m, .ok [])
  | m, x :: r =>
    match readElem c.e c.core c.part (bmRec c) [y] x 0 (Tlr.width (bmRec c)) m with
    | (m, .fault va cause) => (m, .error (.fault va cause))
    | (m, .uncorr _) => (m, .error .uncorr)
    | (m, .ok v) =>
      match refRun c y m r with
      | (m, .ok vs) => (m, .ok (v :: vs))
      | x => x

/-- The reference rows that a step's candidates meet. -/
def refRows (c : MCtx) (x0 : Int) (n : Nat) : Mach → List Int → Mach × Except StepRes (List (List Nat))
  | m, [] => (m, .ok [])
  | m, y :: r =>
    match refRun c y m ((List.range n).map (fun (i : Nat) => x0 + (i : Int))) with
    | (m, .error x) => (m, .error x)
    | (m, .ok v) =>
      match refRows c x0 n m r with
      | (m, .ok vs) => (m, .ok (v :: vs))
      | x => x

/-- The cost of candidate `i`, counted from −RNG. -/
def bmCost (b : List Word) (cur ref : List (List Nat)) (i : Nat) (j : Int) : Nat :=
  let sad := ((List.range (bmSize b)).map (fun y => ((List.range (bmSize b)).map (fun x =>
    (((cur.getD y []).getD x 0 : Int) - ((ref.getD y []).getD (i + x) 0 : Int)).natAbs)).sum)).sum
  sad + wF b 4 31 16 * (((i : Int) - (bmRng b : Int)).natAbs + j.natAbs)

/-- (|i| + |j|, j, i) lexicographically smaller. -/
def lexLess (i j bi bj : Int) : Bool :=
  let s := i.natAbs + j.natAbs
  let t := bi.natAbs + bj.natAbs
  s < t || (s = t && (j < bj || (j = bj && i < bi)))

/-- A candidate against the best of the block. -/
def bmTry (b0 : List Word) (cost : Nat) (i j : Int) (b : List Word) : List Word :=
  let pdx := half b0 5 15 0
  let pdy := half b0 5 31 16
  if cost < wN b 7 || (cost = wN b 7 && lexLess i j (half b 6 15 0 - pdx) (half b 6 31 16 - pdy)) then
    putW (putW b 7 cost) 6 (truncN 16 (pdy + j) * 65536 + truncN 16 (pdx + i))
  else b

/-- One row of candidates. -/
def bmRow (c : MCtx) (m : Mach) (b : List Word) : Mach × StepRes :=
  let r := bmRng b
  let n := bmSize b
  let j : Int := (blkProg b : Int) - (r : Int)
  let x0 := half b 3 15 0 + half b 5 15 0 - (r : Int)
  let y0 := half b 3 31 16 + half b 5 31 16 + j
  match refRows c x0 (2 * r + n) m ((List.range n).map (fun (y : Nat) => y0 + (y : Int))) with
  | (m, .error x) => (m, x)
  | (m, .ok ref) =>
    let cur := (List.range n).map (fun y => (List.range n).map (fun x => bmCur c m b x y))
    let b' := (List.range (2 * r + 1)).foldl (fun w i => bmTry b (bmCost b cur ref i j) ((i : Int) - (r : Int)) j w) b
    let b' := setProg b' (blkProg b + 1)
    (m, if blkProg b = 2 * r then .complete b' 0 else .go b' 0)

def bmatchStep (c : MCtx) (m : Mach) (b : List Word) : Mach × StepRes :=
  if bmatchBad b then (m, .ill)
  else if blkPhase b = 1 then bmRow c m b
  else bmRow c m (setProg (setPhase (putW (putW b 6 (wN b 5)) 7 0xFFFFFFFF) 1) 0)

end Sys2Proof.Machine
end

