-- ==== Sys2Proof/Machine/Traverse.lean ====
section
/-! DEFINITION. The steps of TRAV (13 R348 to R351). -/

namespace Sys2Proof.Machine

/-! ### Nodes (R348) -/

def nodeVa (b : List Word) (n : Nat) : Nat := wD b 10 + 64 * n

def nodeKind (d0 : Nat) : Nat := bits d0 63 62
def nodePrim (d0 : Nat) : Nat := bits d0 19 0
def nodeInst (d0 : Nat) : Nat := bits d0 51 32

/-- KIND 3, a reserved field, or a second child past the last index. -/
def nodeBad (d0 : Nat) : Bool :=
  nodeKind d0 = 3 || bits d0 60 52 ≠ 0 || (nodeKind d0 ≠ 0 && bits d0 31 20 ≠ 0) || (nodeKind d0 = 0 && bits d0 31 0 = 2 ^ 32 - 1)

/-- D0 of a node, then what follows. -/
def MCtx.node (c : MCtx) (m : Mach) (b : List Word) (n : Nat) (k : Mach → Nat → Mach × StepRes) : Mach × StepRes :=
  withMem (c.read m (nodeVa b n) 8) (fun m d0 => if nodeBad d0 then (m, .ill) else k m d0)

/-! ### The stack (R350) -/

def travSP (b : List Word) : Nat := wF b 13 3 0
def travSpilled (b : List Word) : Nat := wF b 13 31 16
def setSP (b : List Word) (v : Nat) : List Word := putW b 13 (putBits (wN b 13) 3 0 v)
def setSpilled (b : List Word) (v : Nat) : List Word := putW b 13 (putBits (wN b 13) 31 16 v)

/-- The linear address of a spilled entry; none past SG2's limit. -/
def MCtx.spillVa (c : MCtx) (m : Mach) (b : List Word) (i : Nat) : Option Nat :=
  let w := m.warp c.core c.slot
  let o := wN b 23 + 4 * i
  if (w.segment 2).2.toNat < o + 4 then none else some (((w.segment 2).1.toNat + o / 16 * 512 + 16 * c.lane + o % 16) % 2 ^ 64)

def travPush (c : MCtx) (m : Mach) (b : List Word) (x : Nat) (k : Mach → List Word → Mach × StepRes) : Mach × StepRes :=
  let sp := travSP b
  if sp < 8 then k m (setSP (putW b (24 + sp) x) (sp + 1))
  else match c.spillVa m b (travSpilled b) with
    | none => (m, .ill)
    | some va => withMem (c.write m va 4 (wN b 24)) (fun m _ =>
        k m (putRun (setSpilled b (travSpilled b + 1)) 24 ((List.range 7).map (fun i => wN b (25 + i)) ++ [x])))

/-- `x`: flags of the step so far. -/
def travAdvance (c : MCtx) (m : Mach) (b : List Word) (x : BitVec 7) : Mach × StepRes :=
  let sp := travSP b
  if 0 < sp then (m, .go (setSP (putW b 12 (wN b (24 + sp - 1))) (sp - 1)) x)
  else if 0 < travSpilled b then
    match c.spillVa m b (travSpilled b - 1) with
    | none => (m, .ill)
    | some va => withMem (c.read m va 4) (fun m v => (m, .go (setSpilled (putW b 12 v) (travSpilled b - 1)) x))
  else (m, .complete b x)

/-! ### Hits (R350) -/

/-- record (t, u, v, leaf). -/
def travRecord (b : List Word) (t u v d0 : Nat) : List Word :=
  putRun (putW b 14 t) 15 [nodePrim d0, nodeInst d0, u, v]

/-- better(t, leaf). -/
def travBetter (b : List Word) (t d0 : Nat) : Bool :=
  let vt := fmtFP32.widen t
  leV (wV b 8) vt && (ltV vt (wV b 14) ||
    (leV vt (wV b 14) && leV (wV b 14) vt && decide (nodeInst d0 * 2 ^ 32 + nodePrim d0 < wF b 16 19 0 * 2 ^ 32 + wF b 15 19 0)))

/-- 1/D to nearest, no flags; ±0 gives ±∞. -/
def travInv (d : Val) : Val := fmtFP32.widen (roundF fmtFP32 0 false (divVal (.dyad false 1 0) d).1).1

def minV (a b : Val) : Val := if ltV b a then b else a
def maxV (a b : Val) : Val := if a.isNan then a else if b.isNan then b else if ltV a b then b else a
def minN (a b : Val) : Val := if a.isNan then a else if b.isNan then b else if ltV b a then b else a

/-- lo and hi of one axis. -/
def slabAxis (lo hi org inv : Val) : Val × Val :=
  let p (x : Val) : Val := (prodVal (sumVals 0 [x, org.flip]).1 inv).1
  let asLo (v : Val) : Val := if v.isNan then .inf true else v
  let asHi (v : Val) : Val := if v.isNan then .inf false else v
  (minV (asLo (p lo)) (asLo (p hi)), maxV (asHi (p lo)) (asHi (p hi)))

/-- A signalling NaN among a box's words, which are inputs of its arithmetic (02 R49); the rounding of 1/D raises nothing. -/
def slabExc (box : List Nat) : BitVec 7 := if (List.range 6).any (fun i => (fmtFP32.widen (box.getD i 0)).sig) then excInvalid else 0

/-- The slab test of a box of six words: hit, and tn. -/
def slab (b : List Word) (box : List Nat) : Bool × Val :=
  let v (i : Nat) : Val := fmtFP32.widen (box.getD i 0)
  let ax (k : Nat) : Val × Val := slabAxis (v k) (v (k + 3)) (wV b (2 + k)) (travInv (wV b (5 + k)))
  let tn := maxV (maxV (maxV (ax 0).1 (ax 1).1) (ax 2).1) (wV b 8)
  let tf := minN (minN (minN (ax 0).2 (ax 1).2) (ax 2).2) (wV b 14)
  (leV tn tf, tn)

def dyCross (a b : Dy × Dy × Dy) : Dy × Dy × Dy :=
  ((a.2.1.mul b.2.2).sub (a.2.2.mul b.2.1), (a.2.2.mul b.1).sub (a.1.mul b.2.2), (a.1.mul b.2.1).sub (a.2.1.mul b.1))
def dyDot (a b : Dy × Dy × Dy) : Dy := ((a.1.mul b.1).add (a.2.1.mul b.2.1)).add (a.2.2.mul b.2.2)
def dySub (a b : Dy × Dy × Dy) : Dy × Dy × Dy := (a.1.sub b.1, a.2.1.sub b.2.1, a.2.2.sub b.2.2)
def dyVec (ds : List Dy) (i : Nat) : Dy × Dy × Dy := (dyAt ds i, dyAt ds (i + 1), dyAt ds (i + 2))

/-- The triangle test: t, u and v rounded once each, with the flags of their rounding. `tri`: nine words. -/
def triHit (rm : Nat) (b : List Word) (tri : List Nat) : Option (FRes × FRes × FRes) :=
  match dysOf tri, dysOf ((List.range 6).map (fun i => wN b (2 + i))) with
  | some ps, some r =>
    let o := dyVec r 0
    let d := dyVec r 3
    let e1 := dySub (dyVec ps 3) (dyVec ps 0)
    let e2 := dySub (dyVec ps 6) (dyVec ps 0)
    let p := dyCross d e2
    let det := dyDot e1 p
    if det.n = 0 then none
    else
      let s (x : Dy) : Dy := if det.n < 0 then x.neg else x
      let tv := dySub o (dyVec ps 0)
      let q := dyCross tv e1
      let u := s (dyDot tv p)
      let v := s (dyDot d q)
      let t := s (dyDot e2 q)
      if 0 ≤ u.n && 0 ≤ v.n && (u.add v).le (s det) then
        let f (x : Dy) : FRes := toFp32 rm (x.quot (s det), 0)
        some (f t, f u, f v)
      else none
  | _, _ => none

/-! ### A visit (R350) -/

def travInternal (c : MCtx) (m : Mach) (b : List Word) (d0 : Nat) : Mach × StepRes :=
  withMem (c.read m (nodeVa b (wN b 12) + 8) 56) (fun m v =>
    if v / 2 ^ 384 ≠ 0 then (m, .ill)
    else
      let ch := bits d0 31 0
      let l := slab b (words32 v 6)
      let r := slab b (words32 (v / 2 ^ 192) 6)
      let x := slabExc (words32 v 6) ||| slabExc (words32 (v / 2 ^ 192) 6)
      match l.1, r.1 with
      | true, true =>
        let far := if ltV r.2 l.2 then ch else ch + 1
        travPush c m b far (fun m b => (m, .go (putW b 12 (2 * ch + 1 - far)) x))
      | true, false => (m, .go (putW b 12 ch) x)
      | false, true => (m, .go (putW b 12 (ch + 1)) x)
      | false, false => travAdvance c m b x)

def travTriangle (c : MCtx) (m : Mach) (b : List Word) (d0 : Nat) : Mach × StepRes :=
  withMem (c.read m (nodeVa b (wN b 12) + 8) 36) (fun m v =>
    match triHit c.rm b (words32 v 9) with
    | none => travAdvance c m b 0
    | some (t, u, w) =>
      let x := t.2 ||| u.2 ||| w.2
      if travBetter b t.1 d0 then
        if bit d0 61 then travAdvance c m (travRecord b t.1 u.1 w.1 d0) x
        else (m, .callback (setPhase (putRun b 19 [wN b 12, t.1, u.1, w.1]) 2) 0x01 x)
      else travAdvance c m b x)

def travVisit (c : MCtx) (m : Mach) (b : List Word) : Mach × StepRes :=
  c.node m b (wN b 12) (fun m d0 =>
    match nodeKind d0 with
    | 0 => travInternal c m b d0
    | 1 => travTriangle c m b d0
    | _ => (m, .callback (setPhase (putW b 19 (wN b 12)) 3) 0x02 0))

/-- PHASE 0. -/
def travBegin (b : List Word) : List Word :=
  let b := putRun (putW b 14 (wN b 9)) 15 [0xFFFFF, 0xFFFFF, 0, 0]
  setPhase (putW (setSpilled (setSP b 0) 0) 12 0) 1

/-- PHASE 2: the answer to ALPHA. -/
def travAlpha (c : MCtx) (m : Mach) (b : List Word) : Mach × StepRes :=
  let b1 := setPhase b 1
  if blkAns b = 0 then travAdvance c m b1 0
  else c.node m b (wN b 19) (fun m d0 =>
    let b2 := travRecord b1 (wN b 20) (wN b 21) (wN b 22) d0
    if blkAns b = 1 then travAdvance c m b2 0 else (m, .complete b2 0))

/-- PHASE 3: the answer to PROC. -/
def travProc (c : MCtx) (m : Mach) (b : List Word) : Mach × StepRes :=
  let b1 := setPhase b 1
  if blkAns b = 0 then travAdvance c m b1 0
  else c.node m b (wN b 19) (fun m d0 =>
    let b2 := if travBetter b (wN b 20) d0 then travRecord b1 (wN b 20) (wN b 21) (wN b 22) d0 else b1
    if blkAns b = 1 then travAdvance c m b2 0 else (m, .complete b2 0))

/-- R351, what the block itself shows. -/
def travBad (b : List Word) : Bool :=
  wN b 10 % 64 ≠ 0 || (List.range 6).any (fun i => !isFin (wV b (2 + i))) || 8 < travSP b || 3 < blkPhase b || (2 ≤ blkPhase b && blkAns b = 3)

def travStep (c : MCtx) (m : Mach) (b : List Word) : Mach × StepRes :=
  if travBad b then (m, .ill)
  else match blkPhase b with
    | 0 => travVisit c m (travBegin b)
    | 1 => travVisit c m b
    | 2 => travAlpha c m b
    | _ => travProc c m b

end Sys2Proof.Machine
end

