-- ==== Sys2Proof/Machine/Macro.lean ====
section
/-! DEFINITION. Row 12: the macro-instructions at issue, their steps on the sequencers and their release (13 R329 to R341; 07 R195). -/

namespace Sys2Proof.Machine

/-! ### Issue (R331, R332) -/

/-- Words of the state block (R329). -/
def blockWords : Mn → Nat
  | .rast => 32
  | .trav => 32
  | _ => 16

/-- The number of Vb. -/
def Op.vb (o : Op) : Nat := match o.dst with
  | .v n => n.toNat
  | _ => 0

/-- A member's state block. -/
def Grp.block (g : Grp) (x : Member) : List Word := (List.range (blockWords g.mn)).map (fun i => g.vAt x (Op.vb g.o + i))

/-- A scratch range that a block names: offset, size, alignment. -/
def scrCauses (bytes : Nat) (r : Nat × Nat × Nat) : List Nat := [allocCause bytes r.1 r.2.1, if r.1 % r.2.2 = 0 then 0 else causeMisaligned]

/-- The scratch ranges of a block; BMATCH's element width is in bytes. -/
def blockRanges (k : Mn) (width : Nat) (b : List Word) : List (Nat × Nat × Nat) :=
  match k with
  | .rast => [(wN b 14, 512, 64)]
  | .oblend => [(wN b 4, 1040, 64)]
  | .samps => let s := if wF b 10 1 0 = 3 then 0 else sampsS (wF b 10 1 0); [(wN b 8, 512 * s, 64), (wN b 9, 1024 * s, 64)]
  | .bmatch => [(wN b 2, bmSize b * bmSize b * width, 16)]
  | _ => []

/-- The bin to which this issue appends a record of a lane. -/
def emitsTo (k : Mn) (o : Op) (b : List Word) : Option Nat :=
  match k with
  | .rast => if o.mdBits 1 0 = 2 then some (wN b 15) else none
  | .dice => if blkPhase b = 2 then some (diceBin b) else none
  | _ => none

/-- The bin for which a member's issue charges a record; helpers and the handler append none. -/
def Grp.emitBin (g : Grp) (x : Member) : Option Nat := if g.helper x || x.slot = handlerSlot then none else emitsTo g.mn g.o (g.block x)

/-- The records that the issue appends, in lane order: each lane's bin and its place there (04 R104). -/
def Grp.emitPlaces (g : Grp) : List (Nat × Option Int) := g.m.geoPlaces g.bundleId (g.byLane.filterMap g.emitBin) (g.m.geoTaken (shardOf g.core)) []

/-- What a member's record is charged: the place of its turn among those that append. -/
def Grp.emitAt (g : Grp) (x : Member) : Option (Nat × Option Int) :=
  let ys := g.byLane.filter (fun y => (g.emitBin y).isSome)
  (ys.zip g.emitPlaces).find? (fun z => z.1 = x) |>.map Prod.snd

/-- QUEUE_QUOTA of the records that the issue appends (04 R106). -/
def Grp.emitCause (g : Grp) : Nat :=
  let rs := g.emitPlaces
  if rs = [] || (g.m.slotRoom g.bundleId rs.length && decide (g.m.geoChunks g.bundleId rs ≤ g.m.geoChunks g.bundleId [] + g.m.freeChunks g.bundleId)) then 0 else causeQueueQuota

/-- Layout slots that the form reads. -/
def macroSlots (k : Mn) (o : Op) : List Nat :=
  match k with
  | .filt => (List.range (filtLevels o)).map (fun i => filtSlot o + i)
  | .bmatch => [o.mdBits 3 0]
  | _ => []

def Grp.slotsOk (g : Grp) : Bool := (macroSlots g.mn g.o).all (fun n => decide (n < g.ntlr))

/-- Causes that need no record. BMATCH's current block takes at least a byte for each element, whatever its record says. -/
def macroPre (g : Grp) : List Nat :=
  rmCause g ++ g.forLanes ((if g.slotsOk then [] else [causeTlrInvalid]) ++ [g.emitCause]) ++
  g.execs.flatMap (fun x => (blockRanges g.mn 1 (g.block x)).flatMap (scrCauses g.scrBytes))

/-- Records are read of the slots below NTLR. -/
def macroVas (g : Grp) : List Nat := ((macroSlots g.mn g.o).filter (fun n => n < g.ntlr)).map g.tlrVa

/-- Causes that rest on the records that could be read: each is held to the form's formats by its words as they stand, whatever the others are and whether it is usable (00 R17; log 81). -/
def macroOwn (g : Grp) (rs : List (List Nat)) : List Nat :=
  (if rs.all Tlr.usable then 0 else causeTlrInvalid) ::
  (if g.mn = .bmatch then
    rs.flatMap (fun r => (if bmatchRecOk r then 0 else causeIllegalFormat) ::
      g.execs.flatMap (fun x => (blockRanges .bmatch (Tlr.width r / 8) (g.block x)).flatMap (scrCauses g.scrBytes)))
  else [if filtRecsOk rs then 0 else causeIllegalFormat])

/-- The sequencer that takes a new macro-instruction: of those not fenced the one with the fewest in progress (03 R84). -/
def Mach.seqFor (m : Mach) (core : Nat) : Nat :=
  let n (k : Nat) : Nat := (m.macros.filter (fun x => x.2.core = core ∧ x.2.seq = k)).length
  (argmin n ([0, 1].filter (fun k => !(m.core core).seqFence.contains k))).getD 0

/-- The form appends geometry records or writes global memory: its block is no longer flushable from its issue (16 R424). -/
def macroShows (k : Mn) (o : Op) : Bool := k = .dice || (k = .rast && o.mdBits 1 0 = 2)

/-- A macro-instruction issues; with no executing member it is complete at once. -/
def macroIssue (k : Mn) (o : Op) (s : State) : State :=
  issueRec k o 8 macroPre macroVas macroOwn (fun g rs m =>
    if g.execs = [] then m.signalSlots g.e g.core g.flag g.slots
    else
      let x : MacroOp :=
        { core := g.core, seq := m.seqFor g.core, mn := k, o, pc := g.pc, flag := g.flag, replays := g.replays, members := g.members,
          lanes := g.byLane.map (fun y => { slot := y.slot, lane := y.lane, words := g.block y, steps := 0, exc := 0, ending := none, emits := g.emitAt y }), recs := rs, since := none, mark := none }
      let id := m.nextId
      let m := if macroShows k o then (g.blocksOf (g.execs.filter (fun x => !g.helper x))).foldl (fun m b => m.modBlock b (fun k => { k with flushable := false })) m else m
      ({ m with macros := m.macros.set id x, nextId := id + 1 }).holdMembers g.core g.pc g.execs (.macroOp id)) s

def execRast (o : Op) (s : State) : Host.Outcome State Fault Refusal := .next (macroIssue .rast o s)
def execAttr (o : Op) (s : State) : Host.Outcome State Fault Refusal := .next (macroIssue .attr o s)
def execTrav (o : Op) (s : State) : Host.Outcome State Fault Refusal := .next (macroIssue .trav o s)
def execFilt (o : Op) (s : State) : Host.Outcome State Fault Refusal := .next (macroIssue .filt o s)
def execOblend (o : Op) (s : State) : Host.Outcome State Fault Refusal := .next (macroIssue .oblend o s)
def execDice (o : Op) (s : State) : Host.Outcome State Fault Refusal := .next (macroIssue .dice o s)
def execSamps (o : Op) (s : State) : Host.Outcome State Fault Refusal := .next (macroIssue .samps o s)
def execBmatch (o : Op) (s : State) : Host.Outcome State Fault Refusal := .next (macroIssue .bmatch o s)

/-! ### Steps (R333 to R339) -/

/-- The step of each macro-instruction that works lane by lane. -/
def stepOf (k : Mn) (c : MCtx) (m : Mach) (b : List Word) : Mach × StepRes :=
  match k with
  | .rast => rastStep c m b
  | .attr => attrStep c m b
  | .trav => travStep c m b
  | .filt => filtStep c m b
  | .dice => diceStep c m b
  | .samps => sampsStep c m b
  | .bmatch => bmatchStep c m b
  | _ => (m, .ill)

/-- A lane after a step. -/
def MLane.after (l : MLane) (r : StepRes) : MLane :=
  match r with
  | .go b x => { l with words := b, steps := l.steps + 1, exc := l.exc ||| x }
  | .complete b x => { l with words := setProg (setReason (setPhase b 0) 0) 0, steps := l.steps + 1, exc := l.exc ||| x, ending := some .complete }
  | .callback b reason x => { l with words := setReason b reason, steps := l.steps + 1, exc := l.exc ||| x, ending := some .callback }
  | .ill => { l with words := setReason (setPhase l.words 0) 0xFF, exc := l.exc ||| excInvalid, ending := some .callback }
  | .fault va cause => { l with ending := some (.fault (va % 2 ^ 57 / 4096) cause) }
  | .uncorr => { l with ending := some .uncorr }

def Mach.modMacro (m : Mach) (id : Nat) (f : MacroOp → MacroOp) : Mach := { m with macros := m.macros.modify id f }

/-- The context of a lane's steps. -/
def Mach.macroCtx (e : Fw) (m : Mach) (x : MacroOp) (l : MLane) : MCtx :=
  let w := m.warp x.core l.slot
  { e, core := x.core, part := (e.ownerOf x.core).getD 0, o := x.o, bundle := ((m.blockOf x.core l.slot).map (·.bundle)).getD 0, slot := l.slot, lane := l.lane,
    blk := if l.slot = handlerSlot then 0 else w.blk, helper := (w.thread l.lane).helper, recs := x.recs, place := l.emits.bind Prod.snd }

/-- The lane is still held by this macro-instruction. -/
def Mach.macroHeld (m : Mach) (core id : Nat) (l : MLane) : Bool := ((m.warp core l.slot).thread l.lane).st = .blocked (.macroOp id)

/-- A save of the lane's block has begun, or $PREEMPT is set (R336). -/
def Mach.macroStops (m : Mach) (core : Nat) (l : MLane) : Bool :=
  ((m.blockOf core l.slot).map (fun b => b.preempt || decide (b.st ≠ .resident))).getD false

/-- The lane whose step comes next: the first in lane order that has not ended, and of an OBLEND has not paid. -/
def MacroOp.current (x : MacroOp) : Option MLane := x.lanes.find? (fun l => l.ending.isNone && (x.mn ≠ .oblend || l.steps = 0))

def MacroOp.putLane (x : MacroOp) (l : MLane) : MacroOp := { x with lanes := x.lanes.map (fun y => if y.slot = l.slot ∧ y.lane = l.lane then l else y), since := none }

/-- A lane takes what its step left; at its ending every word of its block is written (R334). -/
def Mach.putLane (m : Mach) (id : Nat) (l : MLane) : Mach :=
  let m := m.modMacro id (fun x => x.putLane l)
  match m.macros.get? id with
  | some x =>
    if l.ending.isSome && m.macroHeld x.core id l then m.modWarp x.core l.slot (fun w => w.writeV (l.words.mapIdx (fun i v => (Op.vb x.o + i, l.lane, v)))) else m
  | none => m

/-- Accounts that a step of the macro-instruction is charged to (07 R195). -/
def Mach.macroKeys (m : Mach) (x : MacroOp) : List Nat :=
  (((x.members.head?).bind (fun y => m.blockOf x.core y.slot)).bind (fun b => (m.bundles.get? b.bundle).map Bundle.nodeKeys)).getD []

def MacroOp.aside (x : MacroOp) : Bool := (x.mark.map (·.set)).getD false

def Mach.macroPays (m : Mach) (x : MacroOp) : Bool :=
  x.aside || (decide (stepPrice x.mn ≤ (m.core x.core).bank) && (m.macroKeys x).all (fun k => stepPrice x.mn ≤ (m.shard (shardOf x.core)).nodes.get k 0))

/-- The step's price leaves the set-aside, or the bank and the accounts below the root. -/
def Mach.macroPay (m : Mach) (id : Nat) (x : MacroOp) : Mach :=
  let m := m.modMacro id (fun x => { x with mark := none })
  if x.aside then m
  else
    let m := m.modCore x.core (fun c => { c with bank := c.bank - stepPrice x.mn })
    m.modShard (shardOf x.core) (fun s => { s with nodes := (m.macroKeys x).foldl (fun t k => t.set k (t.get k 0 - stepPrice x.mn)) s.nodes })

/-! ### OBLEND's sequence (R355) -/

/-- Colour tiles that a macro-instruction's lanes name: block and offset. -/
def Mach.blendTiles (m : Mach) (x : MacroOp) : List (Nat × Nat) := x.lanes.map (fun l => ((m.warp x.core l.slot).blk, wN l.words 4))

/-- An OBLEND that issued earlier names one of the same tiles. -/
def Mach.blendWaits (m : Mach) (id : Nat) (x : MacroOp) : Bool :=
  x.mn = .oblend && m.macros.any (fun y => y.1 < id && y.2.core = x.core && y.2.mn = .oblend && y.2.lanes.any (fun l => l.ending.isNone) &&
    (m.blendTiles x).any (fun t => (m.blendTiles y.2).contains t))

/-- The lanes of a tile whose turn it is blend, in order; then NEXT moves if one of them is a last fragment. -/
def blendRound (e : Fw) (id : Nat) (tile : Nat × Nat) (m : Mach) : Mach :=
  match m.macros.get? id with
  | none => m
  | some x =>
    let mine (l : MLane) : Bool := l.ending.isNone && (m.warp x.core l.slot).blk = tile.1 && wN l.words 4 = tile.2
    let g := x.lanes.filter (fun l => mine l && wN l.words 2 = (m.macroCtx e x l).next m l.words)
    let m := g.foldl (fun m l =>
      let r := blendLane (m.macroCtx e x l) m l.words
      r.1.putLane id { l.after (.complete r.2.1 r.2.2) with steps := 1 }) m
    match g.find? (fun l => wF l.words 3 7 7 = 1 && !(m.macroCtx e x l).helper) with
    | some l => let c := m.macroCtx e x l; c.putScr m (wN l.words 4 + 1024) 4 ((c.next m l.words + 1) % 2 ^ 32)
    | none => m

/-- Rounds until no lane's turn has come. -/
def blendRounds (e : Fw) (id : Nat) (tile : Nat × Nat) : Nat → Mach → Mach
  | 0, m => m
  | n + 1, m => blendRounds e id tile n (blendRound e id tile m)

/-- The whole sequence, tile by tile; then every lane left over takes ORDER or is ill-formed. -/
def blendAll (e : Fw) (m : Mach) (id : Nat) : Mach :=
  match m.macros.get? id with
  | none => m
  | some x =>
    let m := ((m.blendTiles x).eraseDups).foldl (fun m t => blendRounds e id t x.lanes.length m) m
    (((m.macros.get? id).map (·.lanes)).getD []).foldl (fun m l =>
      if l.ending.isSome then m
      else
        let d := (wN l.words 2 + 2 ^ 32 - (m.macroCtx e x l).next m l.words) % 2 ^ 32
        m.putLane id (if d < 2 ^ 31 then l.after (.callback l.words 0x05 0) else l.after .ill)) m

/-! ### MACRO_STEP -/

/-- FILT's answer phase completes at once, without a step (R340, R353). -/
def MLane.answered (k : Mn) (l : MLane) : Bool := k = .filt && l.steps = 0 && blkPhase l.words = 2 && !filtBad l.words

/-- A lane that runs no further step: stopped, or at its limit. One whose thread a KILL has ended goes on (08 R207). -/
def Mach.macroCut (m : Mach) (x : MacroOp) (l : MLane) : Option MLane :=
  if m.macroStops x.core l then some { l with ending := some .stop }
  else if blkCap l.words ≠ 0 && blkCap l.words ≤ l.steps then some { l.after (.callback l.words 0x04 0) with steps := l.steps }
  else if l.answered x.mn then some (l.after (.complete l.words 0))
  else none

/-- The paid step of a lane. -/
def Mach.macroRun (e : Fw) (m : Mach) (id : Nat) (x : MacroOp) (l : MLane) : Mach :=
  if x.mn = .oblend then
    let l' := if oblendBad l.words then l.after .ill else { l with steps := 1 }
    let m := m.putLane id l'
    if (x.putLane l').current.isNone then blendAll e m id else m
  else
    let r := stepOf x.mn (m.macroCtx e x l) m l.words
    r.1.putLane id (l.after r.2)

/-- The next lane's cut, its payment and its step. -/
def Mach.macroStep (e : Fw) (m : Mach) (id : Nat) (x : MacroOp) : Mach :=
  match x.current with
  | none => m
  | some l =>
    match m.macroCut x l with
    | some l' =>
      let m := (m.putLane id l').modMacro id (fun x => { x with mark := none })
      if x.mn = .oblend && (x.putLane l').current.isNone then blendAll e m id else m
    | none =>
      if m.macroPays x then (m.macroPay id x).macroRun e id x l
      else m.modMacro id (fun x => { x with since := some (x.since.getD ((m.shard (shardOf x.core)).cycle)) })

/-- The macro-instruction is its sequencer's first, and may go on. -/
def Mach.macroGoes (m : Mach) (id : Nat) (x : MacroOp) : Bool :=
  !(m.core x.core).seqFence.contains x.seq && x.current.isSome && m.macros.all (fun y => id ≤ y.1 || y.2.core ≠ x.core || y.2.seq ≠ x.seq) && !m.blendWaits id x &&
  x.members.all (fun y => !(((m.blockOf x.core y.slot).map (fun b => m.frozenB b.bundle)).getD false))

def execMacroStep (s : State) : Host.Outcome State Fault Refusal :=
  match s.m.macros.get? s.subj.id with
  | some x => if s.m.macroGoes s.subj.id x then .next { s with m := s.m.macroStep s.fw s.subj.id x } else .next s
  | none => .next s

/-! ### MACRO_RELEASE (R332, R333, R337, R338) -/

def MLane.waits (l : MLane) : Bool := match l.ending with
  | some (.fault _ _) => true
  | some .uncorr => true
  | _ => false

/-- The program counter that a lane's ending gives. -/
def MacroOp.nextPc (x : MacroOp) (l : MLane) : DWord :=
  let off : DWord := (l.words.getD 1 0).signExtend 64
  match l.ending with
  | some .complete => x.pc + 16
  | some .callback => if off = 0 then x.pc + 16 else x.pc + 16 * off
  | _ => x.pc

/-- One record for each page that faulted, in the order of its lowest lane (R337; 10 R271). -/
def macroDrafts (core slot tag : Nat) (ls : List MLane) : List RecDraft :=
  let pf : List (Nat × Nat × Nat) := ls.filterMap (fun l => match l.ending with
    | some (.fault p c) => some (l.lane, p, c)
    | _ => none)
  ((pf.map (fun f => f.2.1)).eraseDups).map (fun p =>
    let fs := pf.filter (fun f => f.2.1 = p)
    { page := p, cause := minCause (fs.map (fun f => f.2.2)), kind := 5, core, wslot := slot, lanes := maskOf (fs.map (fun f => f.1)), tag })

/-- What a warp's lanes that must wait leave it with. -/
def MacroOp.faultRec (x : MacroOp) (ls : Word) (uncorrectable : Bool) : FaultRec :=
  { pc := x.pc, members := ls, execs := ls, flag := x.flag, whole := false, handler := uncorrectable, uncorrectable, seqs := [], drafts := [], stash := [], yield := x.o.ctl.yield, all := ls }

/-- One warp's lanes: those that have ended at another instruction are released, FAULT lanes wait with their records, an uncorrectable error traps, and a warp that has none of either has its flag signalled. -/
def Mach.macroSlot (e : Fw) (id : Nat) (x : MacroOp) (m : Mach) (slot : Nat) : Mach :=
  let ls := x.lanes.filter (fun l => l.slot = slot && m.macroHeld x.core id l)
  let ws := ls.filter MLane.waits
  let un := ws.filter (fun l => l.ending = some .uncorr)
  let cyc := m.cycOf x.core slot
  let m := m.modWarp x.core slot (fun w => w.raiseExc (orExc (ls.map (·.exc))))
  let m := m.modWarp x.core slot (fun w => (ls.filter (fun l => !l.waits)).foldl (fun w l =>
    (w.goTo l.lane (x.nextPc l) cyc).modThread l.lane (fun t => { t with yieldDue := t.yieldDue && l.ending ≠ some .stop })) w)
  let waiting := maskOf (ws.map (·.lane))
  let m := if ws ≠ [] || x.replays.contains slot then m.modWarp x.core slot (fun w => w.settleMask (x.replays.contains slot) (maskOf ((x.lanes.filter (fun l => l.slot = slot)).map (·.lane))) waiting) else m
  if ws = [] then m.signalFlag e x.core slot x.flag
  else if slot = handlerSlot then Mach.abandonService e m x.core [407, minCause (ws.map (fun l => match l.ending with
    | some (.fault _ c) => c
    | _ => causeUncorrectable))] x.pc
  else
    let m := m.faultWait x.core slot ((e.ownerOf x.core).getD 0) (ws.map (·.lane)) (x.faultRec waiting (un ≠ [])) (macroDrafts x.core slot (((m.blocks.get? (m.warp x.core slot).blk).map m.tagOf).getD 0) ws)
    if un = [] then m else Mach.takeTrap e (m.standAt x.core slot x.pc (un.map (·.lane))) x.core causeUncorrectable 0 x.pc (un.map (·.lane)) [slot]

/-- A warp waits with nothing, or with lanes that the replay this operation is has left out. -/
def Mach.macroMayWait (m : Mach) (x : MacroOp) (slot : Nat) : Bool :=
  match (m.warp x.core slot).fault with
  | some f => x.replays.contains slot && f.pc = x.pc && !f.handler
  | none => true

/-- Every lane has ended, and no warp with a lane that must wait has another fault outstanding. -/
def Mach.macroDone (m : Mach) (x : MacroOp) : Bool :=
  x.lanes.all (fun l => l.ending.isSome) && x.lanes.all (fun l => !l.waits || m.macroMayWait x l.slot)

def Mach.macroRelease (e : Fw) (m : Mach) (id : Nat) (x : MacroOp) : Mach :=
  let slots := slotsOfMembers x.members
  let m := slots.foldl (Mach.macroSlot e id x) m
  let m := { m with macros := m.macros.erase id }
  slots.foldl (fun m s => m.settleWarp e x.core s) m

def execMacroRelease (s : State) : Host.Outcome State Fault Refusal :=
  match s.m.macros.get? s.subj.id with
  | some x => if s.m.macroDone x then .next { s with m := s.m.macroRelease s.fw s.subj.id x } else .next s
  | none => .next s

end Sys2Proof.Machine
end

