-- ==== Sys2Proof/Machine/Task.lean ====
section
/-! DEFINITION. Tile tasks, MMA and MMAS: their queueing, admission, steps, stops and retirement (01 R40 to R42; 12 R315 to R324), and the engines' self-test (R328). -/

namespace Sys2Proof.Machine

/-! ### Task records (01 R40; 12 R319) -/

namespace TaskW
def energy (w : List Nat) : Nat := fld w 0 63 32
def cls (w : List Nat) : Nat := fld w 0 31 28
def top (w : List Nat) : Nat := fld w 0 27 20
def ta (w : List Nat) : Nat := fld w 1 63 60
def tb (w : List Nat) : Nat := fld w 1 59 56
def td (w : List Nat) : Nat := fld w 1 55 52
def h (w : List Nat) : Nat := fld w 1 51 40
def evbit (w : List Nat) : Nat := fld w 1 39 32
def even (w : List Nat) : Bool := fld w 1 31 31 = 1
def seq (w : List Nat) : Nat := fld w 2 63 32
def stepno (w : List Nat) : Nat := fld w 3 63 32
def rsv (w : List Nat) : Bool := fld w 0 19 0 = 0 && fld w 1 30 0 = 0 && fld w 2 31 0 = 0 && fld w 3 31 0 = 0
/-- MAC or MACT. -/
def isMac (w : List Nat) : Bool := top w = 1 || top w = 2
/-- DRAIN or DRAINSAT. -/
def isDrain (w : List Nat) : Bool := top w = 0x11 || top w = 0x12
def isZero (w : List Nat) : Bool := top w = 0x10
def topOk (w : List Nat) : Bool := isMac w || isDrain w || isZero w
end TaskW

/-- Steps, energy per step and pairing class of a piece of work. -/
structure WorkInfo where
  steps : Nat
  energy : Nat
  cls : Nat
  deriving DecidableEq, Repr

/-- The product that MAC, MACT, MMA and MMAS name. -/
def Mach.prod (m : Mach) (blk ta tb h : Nat) (tern : Bool) : Option (Acc × Pairing) :=
  (m.acc? blk h).bind (fun a => (productOf (m.tile blk ta) (m.tile blk tb) (some a) tern).map (fun p => (a, p)))

def Mach.prodInfo (m : Mach) (blk ta tb h : Nat) (tern : Bool) : WorkInfo :=
  match m.prod blk ta tb h tern with
  | some (a, p) => { steps := productSteps a (m.tile blk ta).k p, energy := p.energy, cls := p.cls }
  | none => { steps := 0, energy := 0, cls := 0 }

/-- What a record asks for (the table of R319). -/
def Mach.taskInfo (m : Mach) (blk : Nat) (w : List Nat) : WorkInfo :=
  if TaskW.isMac w then m.prodInfo blk (TaskW.ta w) (TaskW.tb w) (TaskW.h w) (TaskW.top w = 2)
  else match m.acc? blk (TaskW.h w) with
    | none => { steps := 0, energy := 0, cls := 0 }
    | some a => if TaskW.isZero w then { steps := a.units, energy := 1, cls := 0 } else { steps := a.subBlocks, energy := 2, cls := 1 }

/-! ### Accounts and admission (R322, R323) -/

/-- Nodes of a bundle's chain as account keys, root included. -/
def Bundle.allKeys (b : Bundle) : List Nat := b.chain.map (fun a => a * 16 + b.part)

/-- Cores of a partition on a shard, and in all (05 R130). -/
def Fw.coresOn (e : Fw) (part shard : Nat) : Nat := ((coresOf (e.part part).cores).filter (fun c => shardOf c = shard)).length
def Fw.coreCount (e : Fw) (part : Nat) : Nat := (coresOf (e.part part).cores).length

/-- T_s of an effective TOKENS value. -/
def Fw.shareOf (e : Fw) (part shard tokens : Nat) : Nat := tokens * e.coresOn part shard / max 1 (e.coreCount part)

/-- The smallest full-interval value of the accounts that a bundle's work is charged to. -/
def Mach.fullInterval (e : Fw) (m : Mach) (shard bundle : Nat) : Nat :=
  let s := (m.shard shard).supply.toNat * 625
  match m.bundles.get? bundle with
  | some b => (b.effs.map (fun f => e.shareOf b.part shard (f.get 5 0))).foldl min s
  | none => s

def Mach.accountsHold (m : Mach) (shard bundle en : Nat) : Bool :=
  let sh := m.shard shard
  en ≤ sh.acct && (match m.bundles.get? bundle with
    | some b => b.allKeys.all (fun k => en ≤ sh.nodes.get k 0)
    | none => true)

/-- Every account of a bundle's work moves. -/
def Mach.modAccounts (m : Mach) (shard bundle : Nat) (f : Nat → Nat) : Mach :=
  let ks := ((m.bundles.get? bundle).map Bundle.allKeys).getD []
  m.modShard shard (fun s => { s with acct := f s.acct, nodes := ks.foldl (fun t k => t.set k (f (t.get k 0))) s.nodes })

/-- Class weights running on a shard's engines. -/
def Mach.running (m : Mach) (shard : Nat) : Nat :=
  ((m.mmas.filter (fun x => x.2.admitted && shardOf x.2.core = shard)).map (fun x => x.2.weight)).sum +
  ((m.tasks.filter (fun t => t.2.st = .running && shardOf t.2.core = shard)).map (fun t => t.2.weight)).sum

/-- Sub-arrays of an engine that are fenced; more than 8 fence it whole (R328). -/
def Mach.fencedRows (m : Mach) (core eng : Nat) : Nat := ((List.range 16).filter (fun i => bit (m.core core).fence.toNat (16 * eng + i))).length

/-- The engine's next step waits for its self-test. -/
def Mach.testDue (m : Mach) (core eng : Nat) : Bool := 2 ^ (m.shard (shardOf core)).stlog.toNat ≤ (m.core core).engSteps.get eng 0

/-- The lowest-numbered free engine of a core: neither fenced whole, nor at work, nor due a self-test. -/
def Mach.freeEngine (m : Mach) (core : Nat) : Option Nat :=
  (List.range 4).find? (fun k => m.fencedRows core k ≤ 8 && !m.testDue core k && !(m.mmas.any (fun x => x.2.core = core && x.2.admitted && x.2.engine = k)) &&
    !(m.tasks.any (fun t => t.2.core = core && t.2.st = .running && t.2.engine = k)))

def Mach.countStep (m : Mach) (core eng : Nat) : Mach := m.modCore core (fun c => { c with engSteps := c.engSteps.set eng (c.engSteps.get eng 0 + 1) })

/-- The block lets its tasks run. -/
def Mach.taskGoes (m : Mach) (t : Task) : Bool := !m.frozenB t.bundle && ((m.blocks.get? t.blk).map (fun b => decide (b.st = .resident))).getD false

def Task.h (t : Task) : Nat := TaskW.h t.rcd

/-- Launches of a core's task queues, in the order they were admitted. -/
def Mach.taskLaunches (m : Mach) (core : Nat) : List (Nat × Nat) :=
  let ls := ((m.tasks.filter (fun t => t.2.core = core && t.2.st ≠ .running)).map (fun t => (t.2.bundle, t.2.launch))).eraseDups
  let key (x : Nat × Nat) : Nat := (((m.bundles.get? x.1).map (·.admitted)).getD 0) * 16 + x.2
  ls.foldl (fun q x => q.filter (fun y => key y ≤ key x) ++ x :: q.filter (fun y => key x < key y)) []

/-- The heads of the queues that are on chip and whose blocks let them run; what a saved block has left in the ring is passed over. -/
def Mach.taskHeads (m : Mach) (core : Nat) : List (Nat × Task) :=
  (m.taskLaunches core).filterMap (fun l => ((m.liveQ l.1 l.2 core).head?).filter (fun t => t.2.spill = none && m.taskGoes t.2))

/-- Items 1 to 3 of R321. -/
def Mach.taskReady (m : Mach) (id : Nat) (t : Task) : Bool :=
  (((m.acc? t.blk t.h).map (fun a => decide (a.inflight.head? = some id))).getD false) &&
  !(((m.blocks.get? t.blk).map (fun b => b.namedAt t.h (m.shard (shardOf t.core)).cycle)).getD false) &&
  (if TaskW.isMac t.rcd then t.st = .waiting || ((m.tile t.blk (TaskW.ta t.rcd)).isReady && (m.tile t.blk (TaskW.tb t.rcd)).isReady)
   else if TaskW.isDrain t.rcd then t.filling || (m.tile t.blk (TaskW.td t.rcd)).isEmpty
   else true)

def Mach.mmaBundle (m : Mach) (x : MmaOp) : Nat := ((m.blocks.get? x.blk).map (·.bundle)).getD 0

/-- An MMA or MMAS must stop: a save, or $PREEMPT (R317). One whose threads a KILL has ended completes (08 R207). -/
def Mach.mmaHalts (m : Mach) (x : MmaOp) : Bool :=
  match m.blocks.get? x.blk with
  | some b => b.preempt || b.st ≠ .resident
  | none => true

/-- An MMA or MMAS waits for its admission, and an engine is free for it. -/
def Mach.mmaWaits (m : Mach) (x : MmaOp) : Bool := !x.admitted && !m.mmaHalts x && !m.frozenB (m.mmaBundle x) && (m.freeEngine x.core).isSome

/-- The head of a queue waits for nothing but its admission. -/
def Mach.taskWaits (m : Mach) (id : Nat) (t : Task) : Bool := (m.taskHeads t.core).any (fun h => h.1 = id) && m.taskReady id t && (m.freeEngine t.core).isSome

/-- Work that waits for its admission on a shard: since when, core, number. -/
def Mach.admWaiters (m : Mach) (shard : Nat) : List (Nat × Nat × Nat) :=
  (m.mmas.filterMap (fun x => if shardOf x.2.core = shard && m.mmaWaits x.2 then x.2.since.map (fun c => (c, x.2.core, x.1)) else none)) ++
  (m.tasks.filterMap (fun t => if shardOf t.2.core = shard && m.taskWaits t.1 t.2 then t.2.since.map (fun c => (c, t.2.core, t.1)) else none))

/-- R323: while work that began to wait before the boundary still waits, only the first of it may be admitted. -/
def Mach.turnOk (m : Mach) (shard id : Nat) : Bool :=
  let ws := (m.admWaiters shard).filter (fun w => w.1 < (m.shard shard).boundary)
  match argmin (fun (w : Nat × Nat × Nat) => (w.1 * 256 + w.2.1) * 2 ^ 64 + w.2.2) ws with
  | some w => w.2.2 = id
  | none => true

/-- R322. `earliest`: the interval before which it is not readmitted. Within one core cycle a core admits nothing once a higher one has (R323). -/
def Mach.admits (m : Mach) (core bundle id en weight earliest : Nat) : Bool :=
  let shard := shardOf core
  m.running shard + weight ≤ (m.shard shard).curcap.toNat && m.accountsHold shard bundle en && m.turnOk shard id && earliest ≤ (m.shard shard).interval && (m.shard shard).adm ≤ core % 16

/-- A core has admitted work in this cycle (R323). -/
def Mach.admitOn (m : Mach) (core : Nat) : Mach := m.modShard (shardOf core) (fun h => { h with adm := max h.adm (core % 16) })

/-! ### TTQ (R318, R319) -/

/-- Causes of one record, for a block. -/
def recordCauses (e : Fw) (m : Mach) (core bundle blk : Nat) (w : List Nat) : List Nat :=
  if !TaskW.topOk w || !TaskW.rsv w then [causeIllegalFormat]
  else
    let a := m.acc? blk (TaskW.h w)
    let ta := m.tile blk (TaskW.ta w)
    let tb := m.tile blk (TaskW.tb w)
    let badShape := if TaskW.isMac w then (productOf ta tb a (TaskW.top w = 2)).isNone else if TaskW.isDrain w then (a.map (fun a => drainBad (m.tile blk (TaskW.td w)) a (TaskW.top w = 0x12))).getD false else false
    let i := m.taskInfo blk w
    let dear := a.isSome && !badShape && (decide (TaskW.energy w < i.energy) || decide ((m.shard (shardOf core)).curcap.toNat < max (TaskW.cls w) i.cls + 1))
    [if badShape then causeIllegalFormat else 0, if a.isNone then causeAccCapacity else 0, if TaskW.isMac w && (ta.never || tb.never) then causeTileNever else 0,
     if dear || decide (m.fullInterval e (shardOf core) bundle < TaskW.energy w) then causeOverprice else 0]

def Mach.taskSpills (m : Mach) (bundle launch core : Nat) : List (Option Int) := (m.taskQ bundle launch core).map (fun t => t.2.spill)

/-- A task joins its launch's queue on the core and its handle's in-flight set. -/
def Mach.addTask (m : Mach) (bundle launch core blk : Nat) (w : List Nat) (owner : Option (Nat × Nat × Nat)) (claim : Option (Nat × Nat)) : Mach :=
  let i := m.taskInfo blk w
  let id := m.nextId
  let t : Task :=
    { rcd := w, blk, bundle, launch, core, order := id, spill := taskStore.place (m.taskUsed core) (m.taskSpills bundle launch core), step := TaskW.stepno w, st := .queued, reserve := 0,
      interval := 0, weight := max (TaskW.cls w) i.cls + 1, since := none, engine := 0, filling := false, owner, claim }
  ({ m with tasks := m.tasks.set id t, nextId := id + 1 }).modAcc blk (TaskW.h w) (fun a => { a with inflight := a.inflight ++ [id] })

/-- Words of a record held as one number. -/
def recWords (v : Nat) : List Nat := (List.range 4).map (fun i => v / 2 ^ (64 * i) % 2 ^ 64)

/-- Causes of a warp's records, checked together (R319). A record in the handler warp, which has no block and so no handle, meets ACC_CAPACITY unless its own fields are wrong. -/
def Grp.ttqCause (g : Grp) (m : Mach) (slot : Nat) (recs : List (List Nat)) : Nat :=
  match m.blockOf g.core slot with
  | none => minCause (recs.map (fun w => if !TaskW.topOk w || !TaskW.rsv w then causeIllegalFormat else causeAccCapacity))
  | some b => minCause (recs.flatMap (recordCauses g.e m g.core b.bundle (m.warp g.core slot).blk) ++
      [m.quotaCause b.bundle taskStore (m.taskUsed g.core) (m.taskSpills b.bundle b.launch g.core) recs.length])

/-- A warp's records are queued in lane order; the flag waits for their tasks (R318). -/
def Grp.queueRecords (g : Grp) (m : Mach) (slot : Nat) (recs : List (List Nat)) : Mach :=
  match m.blockOf g.core slot with
  | none => m.signalFlag g.e g.core slot g.flag
  | some b =>
    if recs = [] then m.signalFlag g.e g.core slot g.flag
    else
      let w := m.warp g.core slot
      recs.foldl (fun k r => k.addTask b.bundle b.launch g.core w.blk r (some (w.num, g.flag, m.nextId)) none) { m with nextId := m.nextId + 1 }

/-- A warp's records fail their check: the trap is precise, so its members stand at the instruction, those too that a replay has taken on before, its flag is not armed, and $FAULTMASK and the sources of the lanes read now are as before (R319). -/
def Grp.ttqTrap (g : Grp) (m : Mach) (slot cause : Nat) : Mach :=
  let ls := ((g.recOf? slot).map (fun f => lanesOf f.all)).getD (lanesIn g.members slot)
  let m := (m.standAt g.core slot g.pc ls).modWarp g.core slot (fun w =>
    { ((match w.fault with
      | some o => if o.unarmed then w else w.signalFlag g.flag
      | none => w).signalFlag g.flag) with fault := none, faultmask := (g.m.warp g.core slot).faultmask })
  Mach.takeTrap g.e m g.core cause 0 g.pc (g.execLanes slot) [slot]

/-- What the lanes of a warp have read: at earlier issues of the instruction, and now. Helpers queue nothing (07 R188). -/
def Grp.ttqRead (g : Grp) (rs : List (AccLane × LaneRes)) (slot : Nat) : Tab Nat :=
  let old := if g.replays.contains slot then ((g.m.warp g.core slot).fault.map (·.stash)).getD [] else []
  (rs.filter (fun r => r.1.slot = slot)).foldl (fun (t : Tab Nat) r => match r.2 with
    | .done v _ => if r.1.helper then t else t.set r.1.lane v
    | _ => t) old

/-- Lanes that a replay has left out have still to read their records. -/
def Grp.ttqRest (g : Grp) (slot : Nat) : Bool := match g.leftRec slot with
  | some f => f.members &&& ~~~(g.m.warp g.core slot).faultmask ≠ 0
  | none => false

/-- The records read now are kept for those lanes, which owe the flag (R318). -/
def Warp.keepStash (w : Warp) (flag : Nat) (got : Tab Nat) : Warp :=
  match w.fault with
  | some o => { (if o.unarmed then w else w.signalFlag flag) with fault := some { o with flag, unarmed := false, stash := got } }
  | none => w

/-- One warp's part of a TTQ once its lanes have met memory: queued, trapped, or waiting with what it has read kept; the flag says that its lanes' last reads stand. A replay that finds every lane's record read has nothing left to queue. -/
def Grp.ttqSlot (g : Grp) (rs : List (AccLane × LaneRes)) (m : Mach) (slot : Nat) : Mach × Bool :=
  let mine := rs.filter (fun r => r.1.slot = slot)
  let got := g.ttqRead rs slot
  let recs := got.map (fun r => recWords r.2)
  if mine = [] then (m.signalFlag g.e g.core slot g.flag, true)
  else if mine.all (fun r => r.2.isDone) then
    let cause := g.ttqCause m slot recs
    if g.ttqRest slot then (m.modWarp g.core slot (fun w => w.keepStash g.flag got), true)
    else if cause ≠ 0 then (g.ttqTrap m slot cause, false)
    else (g.queueRecords (m.modWarp g.core slot (fun w => { w with faultmask := 0xFFFFFFFF })) slot recs, true)
  else (((g.settleSlot .load rs m slot).1).modWarp g.core slot (fun w => { w with fault := w.fault.map (fun f => { f with stash := got }) }), true)

/-- The warps of a TTQ, in turn; the slots whose lanes' last reads stand. -/
def Grp.ttqSlots (g : Grp) (rs : List (AccLane × LaneRes)) : Mach → List Nat → Mach × List Nat
  | m, [] => (m, [])
  | m, s :: r =>
    let x := g.ttqSlot rs m s
    let y := g.ttqSlots rs x.1 r
    (y.1, if x.2 then s :: y.2 else y.2)

/-- TTQ, queue form: its lanes read their records at the issue, and each warp whose lanes have all read is checked and queued at once, so that its tasks join their handles' sets with the issue (R309, R318). -/
def execTtq (o : Op) (s : State) : Host.Outcome State Fault Refusal :=
  let reqs (g : Grp) : List LaneReq := g.reqs (spaceForm (o.mdBits 4 3)) (g.memAddr true) noData noData
  .next (issueWith .ttq o (fun g => g.reqCauses 32 (reqs g)) (fun g m =>
    let r := performLanes g.e g.core g.part .ttq 32 m ((reqs g).map (g.accLane 32))
    let d := g.ttqSlots r.2 r.1 g.slots
    { g with execs := g.execs.filter (fun x => d.2.contains x.slot) }.clearDone d.1 r.2) s)

/-! ### TTQ.claim (R318, R320) -/

/-- The matrix sub-launch whose next record is claimed, with its number. -/
def Mach.claimFrom (m : Mach) (bundle : Nat) : Option (Nat × Launch) :=
  (m.bundles.get? bundle).bind (fun b => b.launches.find? (fun l => l.2.kind = 1 && decide (l.2.taken < l.2.gridX)))

def claimVas (g : Grp) : List Nat := match g.m.claimFrom g.bundleId with
  | some (_, l) => [l.entry + 32 * l.taken]
  | none => []

def claimOwn (g : Grp) (rs : List (List Nat)) : List Nat :=
  match rs with
  | [] => []
  | w :: _ => recordCauses g.e g.m g.core g.bundleId (g.blkId g.lead) w ++ [g.m.quotaCause g.bundleId taskStore (g.m.taskUsed g.core) (g.m.taskSpills g.bundleId g.launchId g.core) 1]

def execTtqClaim (o : Op) (s : State) : Host.Outcome State Fault Refusal :=
  .next (issueRec .ttqClaim o 4 noCauses claimVas claimOwn (fun g rs m =>
    if g.execs = [] then m.signalSlots g.e g.core g.flag g.slots
    else
      let give (m : Mach) (v : Nat) : Mach := if o.ctl.wbs then m else m.deliver g.core o.dst [g.lead.slot] [(g.lead.slot, g.lead.lane, [BitVec.ofNat 32 v])]
      let m := match rs, g.m.claimFrom g.bundleId with
        | w :: _, some (k, l) =>
          let m := m.addTask g.bundleId g.launchId g.core (g.blkId g.lead) w none (some (k, l.taken))
          give (m.modLaunch g.bundleId k (fun l => { l with taken := l.taken + 1 })) l.taken
        | _, _ => give m 0xFFFFFFFF
      m.signalSlots g.e g.core g.flag g.slots) s)

/-! ### MMA and MMAS (R315 to R317) -/

def Grp.ta (g : Grp) : Nat := g.o.mdBits 3 0
def Grp.tb (g : Grp) : Nat := g.o.mdBits 7 4

def mmaCauses (tern : Bool) (g : Grp) : List Nat :=
  if g.execs = [] then []
  else if g.lead.slot = handlerSlot then [causeAccCapacity]
  else
    let blk := g.blkId g.lead
    let a := if g.known [g.o.a] then g.acc? g.lead else none
    let ta := g.m.tile blk g.ta
    let tb := g.m.tile blk g.tb
    [if (productOf ta tb a tern).isNone then causeIllegalFormat else 0, if ta.never || tb.never then causeTileNever else 0] ++ g.valued [g.o.a] [if a.isNone then causeAccCapacity else 0]

def Mach.modMma (m : Mach) (id : Nat) (f : MmaOp → MmaOp) : Mach := { m with mmas := m.mmas.modify id f }

/-- A scalar register of a warp takes the progress. -/
def Mach.putProgress (m : Mach) (x : MmaOp) (v : Nat) : Mach := if x.wbs then m else m.modWarp x.core x.slot (fun w => w.setS x.sp (BitVec.ofNat 32 v))

def Mach.shardCycle (m : Mach) (core : Nat) : Nat := (m.shard (shardOf core)).cycle

/-- An MMA or MMAS issues: both tiles gain a reader, the handle's set gains the operation, the warp is held. -/
def mmaIssue (k : Mn) (tern : Bool) (o : Op) (s : State) : State :=
  issueWith k o (mmaCauses tern) (fun g m =>
    if g.execs = [] then m.signalSlots g.e g.core g.flag g.slots
    else
      let blk := g.blkId g.lead
      let h := g.handle g.lead
      let sp := (match o.dst with
        | .s n => n.toNat
        | _ => 0)
      let i := m.prodInfo blk g.ta g.tb h tern
      let id := m.nextId
      let x : MmaOp :=
        { core := g.core, slot := g.lead.slot, blk, pc := g.pc, flag := g.flag, wbs := o.ctl.wbs, sp, ta := g.ta, tb := g.tb, h, mmas := tern,
          step := ((g.warp g.lead).sreg sp).toNat, admitted := false, reserve := 0, interval := 0, since := some (m.shardCycle g.core), weight := i.cls + 1, engine := 0 }
      let m := g.nameHandles { m with nextId := id + 1 }
      if i.steps ≤ x.step then (m.putProgress x 0).signalSlots g.e g.core g.flag g.slots
      else
        let m := { m with mmas := m.mmas.set id x }
        let m := (m.modTile blk g.ta (fun t => { t with readers := t.readers + 1 })).modTile blk g.tb (fun t => { t with readers := t.readers + 1 })
        let m := m.modAcc blk h (fun a => { a with inflight := a.inflight ++ [id] })
        g.hold m (.mma id)) s

def execMma (o : Op) (s : State) : Host.Outcome State Fault Refusal := .next (mmaIssue .mma false o s)
def execMmas (o : Op) (s : State) : Host.Outcome State Fault Refusal := .next (mmaIssue .mmas true o s)

/-- Threads held by an operation. -/
def Mach.mmaLanes (m : Mach) (x : MmaOp) (id : Nat) : List Nat := (List.range 32).filter (fun l => ((m.warp x.core x.slot).thread l).st = .blocked (.mma id))

/-- The operation is over: its readers, its place in the handle's set and its number are released. -/
def Mach.mmaGone (m : Mach) (id : Nat) (x : MmaOp) : Mach :=
  let m := { m with mmas := m.mmas.erase id }
  ((m.modTile x.blk x.ta Tile.readerDone).modTile x.blk x.tb Tile.readerDone).leaveAcc x.blk x.h id

/-- The unspent part of a reservation returns when the work retires within the interval it was admitted in (R322). -/
def Mach.refund (m : Mach) (core bundle reserve interval : Nat) : Mach :=
  if interval = (m.shard (shardOf core)).interval then m.modAccounts (shardOf core) bundle (· + reserve) else m

/-- The product is complete (R317). -/
def Mach.mmaComplete (e : Fw) (m : Mach) (id : Nat) (x : MmaOp) : Mach :=
  let ls := m.mmaLanes x id
  let m := (m.refund x.core (m.mmaBundle x) x.reserve x.interval).mmaGone id x
  let m := (m.putProgress x 0).modWarp x.core x.slot (fun w => w.releaseNext ls (m.cycOf x.core x.slot))
  m.settleWarp e x.core x.slot

/-- It stops: the progress is kept in Sp, and the members stand at the instruction (R317). -/
def Mach.mmaStop (e : Fw) (m : Mach) (id : Nat) (x : MmaOp) : Mach :=
  let ls := m.mmaLanes x id
  let cyc := m.cycOf x.core x.slot
  let m := (m.mmaGone id x).putProgress x x.step
  let m := m.modWarp x.core x.slot (fun w => (ls.foldl (fun (w : Warp) l => (w.goTo l x.pc cyc).modThread l (fun t => { t with yieldDue := false })) w).releaseOwed (maskOf ls))
  m.settleWarp e x.core x.slot

/-- E of an MMA or MMAS: the energy of its remaining steps, in whole steps of the smallest full interval (R322). -/
def Mach.mmaNeed (e : Fw) (m : Mach) (x : MmaOp) (i : WorkInfo) : Nat :=
  min ((i.steps - x.step) * i.energy) (m.fullInterval e (shardOf x.core) (m.mmaBundle x) / max 1 i.energy * i.energy)

def Mach.mmaInfo (m : Mach) (x : MmaOp) : WorkInfo := m.prodInfo x.blk x.ta x.tb x.h x.mmas

/-- MMA_ADMISSION is due. -/
def Mach.mmaAdmissible (e : Fw) (m : Mach) (id : Nat) (x : MmaOp) : Bool :=
  m.mmaWaits x && m.admits x.core (m.mmaBundle x) id (m.mmaNeed e x (m.mmaInfo x)) x.weight x.interval

def Mach.mmaAdmit (e : Fw) (m : Mach) (id : Nat) (x : MmaOp) : Mach :=
  let need := m.mmaNeed e x (m.mmaInfo x)
  ((m.modAccounts (shardOf x.core) (m.mmaBundle x) (· - need)).admitOn x.core).modMma id (fun x =>
    { x with admitted := true, reserve := need, interval := (m.shard (shardOf x.core)).interval, since := none, engine := (m.freeEngine x.core).getD 0 })

def execMmaAdmission (s : State) : Host.Outcome State Fault Refusal :=
  match s.m.mmas.get? s.subj.id with
  | some x => if s.m.mmaAdmissible s.fw s.subj.id x then .next { s with m := s.m.mmaAdmit s.fw s.subj.id x } else .next s
  | none => .next s

/-- One step of an admitted operation: it stops, gives up its engine until it is admitted again, or runs the step; with the last it is complete. -/
def Mach.mmaStep (e : Fw) (m : Mach) (id : Nat) (x : MmaOp) : Mach :=
  let i := m.mmaInfo x
  if m.mmaHalts x then m.mmaStop e id x
  else if x.reserve < i.energy then
    m.modMma id (fun x => { x with admitted := false, reserve := 0, interval := x.interval + 1, since := some (m.shardCycle x.core) })
  else match m.blocks.get? x.blk, m.prod x.blk x.ta x.tb x.h x.mmas with
    | some b, some (a, p) =>
      let r := productStep b (m.tile x.blk x.ta) (m.tile x.blk x.tb) p x.step a
      let m := ((m.modAcc x.blk x.h (fun _ => r.1)).modWarp x.core x.slot (fun w => w.raiseExc r.2)).countStep x.core x.engine
      let y := { x with step := x.step + 1, reserve := x.reserve - i.energy }
      if i.steps ≤ y.step then m.mmaComplete e id y else m.modMma id (fun _ => y)
    | _, _ => m.mmaStop e id x

/-! ### Tile tasks at work (R321, R324) -/

def Mach.modTask (m : Mach) (id : Nat) (f : Task → Task) : Mach := { m with tasks := m.tasks.modify id f }

/-- STEPNO in a task's record, and back in the array it was claimed from (R324). -/
def Mach.writeStepno (e : Fw) (m : Mach) (id : Nat) (t : Task) : Mach :=
  let m := m.modTask id (fun t => { t with rcd := t.rcd.set 3 (t.step * 2 ^ 32) })
  match t.claim, m.bundles.get? t.bundle with
  | some (k, i), some b =>
    match b.launches.get? k with
    | some l => (writeRecord e m b.part (l.entry + 32 * i + 24) [t.step * 2 ^ 32]).1
    | none => m
  | _, _ => m

/-- What retirement and discard have in common: the handle's set, EVBIT, the flag, and the block's end. -/
def Mach.taskGone (e : Fw) (m : Mach) (id : Nat) (t : Task) : Mach :=
  let m := { m with tasks := m.tasks.erase id }.leaveAcc t.blk t.h id
  let m := match m.bundles.get? t.bundle with
    | some b => if TaskW.even t.rcd then m.setEvents b.tag (evMask (TaskW.evbit t.rcd)) else m
    | none => m
  (m.taskFlag e t).settleBlock e t.blk

/-- A head that can never run (R321): no effect but its event and its flag. -/
def Mach.taskDiscard (e : Fw) (m : Mach) (id : Nat) (t : Task) : Mach :=
  let m := if TaskW.isMac t.rcd && t.st = .waiting then (m.modTile t.blk (TaskW.ta t.rcd) Tile.readerDone).modTile t.blk (TaskW.tb t.rcd) Tile.readerDone else m
  let m := m.modBundle t.bundle (fun b => { b with tally := { b.tally with ndisc := b.tally.ndisc + 1, discseq := if b.tally.ndisc = 0 then TaskW.seq t.rcd else b.tally.discseq } })
  m.taskGone e id t

/-- TILE_TASK_RETIRE (R324): its flags join the bundle's with it (17 R435). -/
def Mach.taskRetire (e : Fw) (m : Mach) (id : Nat) (t : Task) : Mach :=
  let m := m.refund t.core t.bundle t.reserve t.interval
  let m := if TaskW.isMac t.rcd then (m.modTile t.blk (TaskW.ta t.rcd) Tile.readerDone).modTile t.blk (TaskW.tb t.rcd) Tile.readerDone
    else if TaskW.isDrain t.rcd then m.fillComplete t.blk (TaskW.td t.rcd)
    else m.modAcc t.blk t.h (fun a => { a with sat := false })
  let m := m.modBundle t.bundle (fun b => { b with tally := { b.tally with tasks := b.tally.tasks + 1, exc := b.tally.exc ||| t.exc } })
  (m.progress t.blk).taskGone e id t

/-- One unit of ZERO. -/
def Acc.zeroUnit (a : Acc) (u : Nat) : Acc :=
  let hi := min (1024 * u + 1024) a.words
  { a with data := a.data.filter (fun w => w.1 < 1024 * u) ++ (List.range (hi - 1024 * u)).map (fun i => (1024 * u + i, 0)) ++ a.data.filter (fun w => hi ≤ w.1) }

/-- The effect of one step of a task, and its flags. -/
def Mach.taskEffect (m : Mach) (t : Task) : Mach × BitVec 7 :=
  match m.blocks.get? t.blk, m.acc? t.blk t.h with
  | some b, some a =>
    if TaskW.isMac t.rcd then
      match m.prod t.blk (TaskW.ta t.rcd) (TaskW.tb t.rcd) t.h (TaskW.top t.rcd = 2) with
      | some (_, p) =>
        let r := productStep b (m.tile t.blk (TaskW.ta t.rcd)) (m.tile t.blk (TaskW.tb t.rcd)) p t.step a
        (m.modAcc t.blk t.h (fun _ => r.1), r.2)
      | none => (m, 0)
    else if TaskW.isZero t.rcd then (m.modAcc t.blk t.h (fun a => a.zeroUnit t.step), 0)
    else
      let r := drainStep (m.tile t.blk (TaskW.td t.rcd)) a 0 (TaskW.top t.rcd = 0x12) (b.scratch, 0) t.step
      ((m.modBlock t.blk (fun b => { b with scratch := r.1 })).bcRelease t.blk, r.2)
  | _, _ => (m, 0)

/-- One step of a running task, or its stop for want of energy (01 R42): it is readmitted in an interval later than that of its admission. -/
def Mach.taskStep (e : Fw) (m : Mach) (id : Nat) (t : Task) : Mach :=
  let i := m.taskInfo t.blk t.rcd
  if i.steps ≤ t.step then m
  else if t.reserve < i.energy then
    let t := { t with st := .waiting, reserve := 0, interval := t.interval + 1, since := some (m.shardCycle t.core) }
    (m.modTask id (fun _ => t)).writeStepno e id t
  else
    let r := m.taskEffect t
    (r.1.countStep t.core t.engine).modTask id (fun t => { t with step := t.step + 1, reserve := t.reserve - i.energy, exc := t.exc ||| r.2 })

/-- ENGINE_STEP concerns a running task or an admitted MMA; an MMA that must stop does so even while it waits. -/
def Mach.engineStep (e : Fw) (m : Mach) (id : Nat) : Mach :=
  match m.mmas.get? id with
  | some x =>
    if !x.admitted then (if m.mmaHalts x then m.mmaStop e id x else m)
    else if m.frozenB (m.mmaBundle x) || (m.testDue x.core x.engine && !m.mmaHalts x) then m
    else m.mmaStep e id x
  | none =>
    match m.tasks.get? id with
    | some t => if t.st = .running && m.taskGoes t && !m.testDue t.core t.engine then m.taskStep e id t else m
    | none => m

def execEngineStep (s : State) : Host.Outcome State Fault Refusal := .next { s with m := s.m.engineStep s.fw s.subj.id }

def Mach.taskEnded (m : Mach) (t : Task) : Bool := t.st = .running && m.taskGoes t && decide ((m.taskInfo t.blk t.rcd).steps ≤ t.step)

def execTileTaskRetire (s : State) : Host.Outcome State Fault Refusal :=
  match s.m.tasks.get? s.subj.id with
  | some t => if s.m.taskEnded t then .next { s with m := s.m.taskRetire s.fw s.subj.id t } else .next s
  | none => .next s

/-! ### Dispatch (R321) -/

/-- A head that is to be discarded. -/
def Mach.taskLost (m : Mach) (id : Nat) (t : Task) : Bool :=
  let ta := m.tile t.blk (TaskW.ta t.rcd)
  let tb := m.tile t.blk (TaskW.tb t.rcd)
  let td := m.tile t.blk (TaskW.td t.rcd)
  if TaskW.isMac t.rcd then t.st = .queued && (ta.never || tb.never)
  else if TaskW.isDrain t.rcd then (if t.filling then !(td.isFilling && td.fill = .task id) else td.isReady)
  else false

/-- The core's scheduler has dispatched a task in this cycle. -/
def Mach.dispatchedNow (m : Mach) (core : Nat) : Bool := (m.core core).dispatchedAt = some (m.shardCycle core)

def Mach.taskAdmits (m : Mach) (id : Nat) (t : Task) : Bool :=
  !m.dispatchedNow t.core && (m.freeEngine t.core).isSome && m.admits t.core t.bundle id (TaskW.energy t.rcd) t.weight t.interval

/-- The task begins, or goes on: an engine, its reservation, its readers or its fill; with no step left it retires at once (R318). -/
def Mach.taskDispatch (e : Fw) (m : Mach) (id : Nat) (t : Task) : Mach :=
  let eng := (m.freeEngine t.core).getD 0
  let t' := { t with st := .running, reserve := TaskW.energy t.rcd, interval := (m.shard (shardOf t.core)).interval, since := none, engine := eng, filling := TaskW.isDrain t.rcd }
  let m := ((m.modAccounts (shardOf t.core) t.bundle (· - TaskW.energy t.rcd)).admitOn t.core).modTask id (fun _ => t')
  let m := m.modCore t.core (fun c => { c with dispatchedAt := some (m.shardCycle t.core) })
  let rd (x : Tile) : Tile := { x with readers := x.readers + 1 }
  let m := if TaskW.isMac t.rcd && t.st = .queued then (m.modTile t.blk (TaskW.ta t.rcd) rd).modTile t.blk (TaskW.tb t.rcd) rd else m
  let m := if TaskW.isDrain t.rcd && !t.filling then m.modTile t.blk (TaskW.td t.rcd) (fun x => x.beginFill (.task id)) else m
  if (m.taskInfo t.blk t.rcd).steps ≤ t.step then m.taskRetire e id t' else m

/-- What the matrix scheduler can do on a core: discard a head, dispatch one, or let one begin, or cease, to wait for admission. -/
inductive SchedAct where
  | discard (id : Nat) (t : Task)
  | dispatch (id : Nat) (t : Task)
  | await (id : Nat)
  | cease (id : Nat)
  deriving DecidableEq, Repr

def Mach.schedAct (m : Mach) (core : Nat) : Option SchedAct :=
  (m.taskHeads core).findSome? (fun h =>
    if m.taskLost h.1 h.2 then some (.discard h.1 h.2)
    else if m.taskReady h.1 h.2 then
      if m.taskAdmits h.1 h.2 then some (.dispatch h.1 h.2) else if h.2.since.isNone then some (.await h.1) else none
    else if h.2.since.isSome then some (.cease h.1)
    else none)

def Mach.sched (e : Fw) (m : Mach) (core : Nat) : Mach :=
  match m.schedAct core with
  | some (.discard id t) => m.taskDiscard e id t
  | some (.dispatch id t) => m.taskDispatch e id t
  | some (.await id) => m.modTask id (fun t => { t with since := some (m.shardCycle core) })
  | some (.cease id) => m.modTask id (fun t => { t with since := none })
  | none => m

def execTileTaskDispatch (s : State) : Host.Outcome State Fault Refusal := .next { s with m := s.m.sched s.fw s.subj.core }

/-! ### Self-test (R328) -/

/-- The work on an engine stops at its step boundary with its progress kept, and waits to be admitted again: a self-test falls between a stop and a resumption, never inside a product. What its reservation still held is spent with the stop (log 83). -/
def Mach.stopEngine (e : Fw) (m : Mach) (core eng : Nat) : Mach :=
  let now := some (m.shardCycle core)
  let m := (m.mmas.filter (fun x => x.2.core = core && x.2.admitted && x.2.engine = eng)).foldl (fun m x => m.modMma x.1 (fun y => { y with admitted := false, reserve := 0, since := now })) m
  (m.tasks.filter (fun t => t.2.core = core && t.2.st = .running && t.2.engine = eng)).foldl (fun m t =>
    (m.modTask t.1 (fun y => { y with st := .waiting, reserve := 0, since := now })).writeStepno e t.1 t.2) m

/-- Rows found different are fenced, and each is logged; the test's energy is charged to A. -/
def Mach.selfTest (m : Mach) (core eng : Nat) (failed : BitVec 16) : Mach :=
  let m := m.modCore core (fun c => { c with fence := c.fence ||| BitVec.ofNat 64 (failed.toNat * 2 ^ (16 * eng)), engSteps := c.engSteps.set eng 0 })
  let m := m.modShard (shardOf core) (fun s =>
    { s with acct := s.acct - Config.selfTestEnergy, stfail := if failed = 0 then s.stfail else if s.stfail = 0xFFFFFFFF then s.stfail else s.stfail + 1 })
  ((List.range 16).filter (fun i => bit failed.toNat i)).foldl (fun m i => m.devLog [328, core, eng, i]) m

def execEngineSelfTest (failed : BitVec 16) (s : State) : Host.Outcome State Fault Refusal :=
  .next (if s.subj.core < 256 ∧ s.subj.unit < 4 then { s with m := ({ s.m with fresh := s.m.fresh + 1 }.stopEngine s.fw s.subj.core s.subj.unit).selfTest s.subj.core s.subj.unit failed } else s)

end Sys2Proof.Machine
end

