-- ==== Sys2Proof/Machine/Faults.lean ====
section
/-! DEFINITION. The results of memory accesses, and the service of fault records: appended, copied to a tenant, resolved, and the replay that follows (10 R270 to R273, R467; 03 R82). -/

namespace Sys2Proof.Machine

/-! ### Accesses (10 R270) -/

def execMemoryAccessComplete (s : State) : Host.Outcome State Fault Refusal :=
  match s.m.accesses.get? s.subj.id with
  | some a => .next { s with m := deliverAccess s.fw s.m s.subj.id a }
  | none => .next s

/-! ### Records waiting for room (10 R271, R283; 17 R438, R447) -/

/-- The partition of a warp in a slot. -/
def Mach.partOfWarp (m : Mach) (w : Warp) : Option Nat := ((m.blocks.get? w.blk).bind (fun b => m.bundles.get? b.bundle)).map (·.part)

def FaultRec.posted (f : FaultRec) (q : Nat) : FaultRec := { f with drafts := f.drafts.drop 1, seqs := f.seqs ++ [q] }

/-- The next record of a warp. -/
def Warp.nextDraft (w : Warp) : Option RecDraft := w.fault.bind (fun f => f.drafts.head?)

/-- A warp of the partition that waits to append, resident or saved: its record. -/
def Mach.warpDraft (m : Mach) (part : Nat) : Option (Nat × RecDraft) :=
  m.warps.findSome? (fun w => if m.partOfWarp w.2 = some part ∧ w.1 % 128 ≠ handlerSlot then w.2.nextDraft.map (fun d => (w.1, d)) else none)

def Mach.savedDraft (m : Mach) (part : Nat) : Option (Nat × Nat × RecDraft) :=
  m.blocks.findSome? (fun b => if m.partOf b.2 = part then b.2.warps.findSome? (fun w => w.2.nextDraft.map (fun d => (b.1, w.1, d))) else none)

def Mach.copyDraft (m : Mach) (part : Nat) : Option (Nat × RecDraft) :=
  m.copies.findSome? (fun c => if c.2.part = part then c.2.draft.map (fun d => (c.1, d)) else none)

def Mach.reqDraft (m : Mach) (part : Nat) : Option (Nat × Nat × RecDraft) :=
  m.bundles.findSome? (fun b => if b.2.part = part then b.2.launches.findSome? (fun l => l.2.reqDraft.map (fun d => (b.1, l.1, d))) else none)

def Mach.darnDraft (m : Mach) (part : Nat) : Option (Nat × RecDraft) :=
  m.darns.findSome? (fun d => if ((m.bundles.get? d.2.bundle).map (·.part)) = some part then d.2.draft.map (fun r => (d.1, r)) else none)

def Mach.headDraft (m : Mach) (part : Nat) : Option (Nat × RecDraft) :=
  (m.part part).heads.findSome? (fun h => (h.2.encoding.bind (·.draft)).map (fun d => (h.1, d)))

/-- The first record that waits in a partition, and how its owner learns its number. -/
def Mach.waitingDraft (m : Mach) (part : Nat) : Option (RecDraft × (Mach → Nat → Mach)) :=
  match m.warpDraft part with
  | some (k, d) => some (d, fun m q => { m with warps := m.warps.modify k (fun w => { w with fault := w.fault.map (fun f => f.posted q) }) })
  | none => match m.savedDraft part with
    | some (b, n, d) => some (d, fun m q => m.modBlock b (fun k => { k with warps := k.warps.modify n (fun w => { w with fault := w.fault.map (fun f => f.posted q) }) }))
    | none => match m.copyDraft part with
      | some (id, d) => some (d, fun m q => m.modCopy id (fun c => { c with draft := none, waitSeq := some q }))
      | none => match m.reqDraft part with
        | some (b, l, d) => some (d, fun m q => m.modLaunch b l (fun x => { x with reqDraft := none, reqWait := some q }))
        | none => match m.darnDraft part with
          | some (id, d) => some (d, fun m q => { m with darns := m.darns.modify id (fun x => { x with draft := none, waitSeq := some q }) })
          | none => match m.headDraft part with
            | some (k, d) => some (d, fun m q => m.modPart part (fun p => { p with heads := p.heads.modify k (fun h => { h with encoding := h.encoding.map (fun x => { x with draft := none, waitSeq := some q }) }) }))
            | none => none

/-- FAULT_RECORD_APPEND: a waiting record takes the room that has come free. -/
def Mach.appendRecord (m : Mach) (part : Nat) : Mach :=
  match m.waitingDraft part with
  | none => m
  | some (d, give) =>
    match m.postRecord part d with
    | (m1, some q) => give m1 q
    | (m1, none) => m1

def execFaultRecordAppend (s : State) : Host.Outcome State Fault Refusal := .next { s with m := s.m.appendRecord s.subj.part }

/-! ### Resolution and replay (10 R272, R273, R467) -/

/-- The page of a record translates for its KIND now.
The record of an engine, a macro-instruction or a Darning pass does not tell its reads from its writes: after PAGE_NOT_PRESENT either right serves, after PAGE_PROTECTION both are needed. -/
def recordTranslates (e : Fw) (m : Mach) (part : Nat) (d : RecDraft) : Bool :=
  let ok (k : AKind) : Bool := match peekXl e m part (d.page * 4096) k with
    | .ok _ _ => true
    | .err _ => false
  match d.kind with
  | 0 => ok .load
  | 1 => ok .store
  | 2 => ok .atomic
  | 3 => ok .fetch
  | _ => if d.cause = causeProtection then ok .load && ok .store else ok .load || ok .store

def FaultRec.resolved (f : FaultRec) (q : Nat) : FaultRec := { f with seqs := f.seqs.filter (· ≠ q) }

def Warp.resolved (w : Warp) (q : Nat) : Warp := { w with fault := w.fault.map (fun f => f.resolved q) }

/-- The incomplete instruction of a warp with threads in FAULTWAIT, all of whose records are resolved. A warp that a trap has stopped keeps its threads' states, and they go on with it. -/
def Warp.replayDue (w : Warp) : Option FaultRec :=
  match w.fault with
  | some f => if !w.stopped && !f.handler && f.seqs = [] && f.drafts = [] && (lanesOf f.members).any (fun l => (w.thread l).st = .faultWait) then some f else none
  | none => none

/-- Its threads stand at the instruction again, with the resolve cycle as their stamp; an instruction that has not been read, or a chain, is issued as new, and the lanes that a constant held back count as complete. -/
def Warp.replay (w : Warp) (f : FaultRec) (cyc : Nat) : Warp :=
  let w := (lanesOf f.members).foldl (fun (w : Warp) l => if (w.thread l).st = .faultWait then w.goTo l f.pc cyc else w) w
  if f.whole then { w with fault := none, faultmask := w.faultmask ||| f.execs } else w

/-- The warp replays once nothing of its instruction is outstanding. -/
def Warp.replayNow (w : Warp) (cyc : Nat) : Warp :=
  match w.replayDue with
  | some f => w.replay f cyc
  | none => w

/-- The record leaves the queue and every warp of the partition that waits for it, resident or saved; a resident warp with no record left is ready in that cycle. -/
def Mach.resolveSeq (m : Mach) (part q : Nat) : Mach :=
  let m := m.modPart part (fun p => { p with faultQ := p.faultQ.filter (fun r => r.seq ≠ q) })
  { m with
    warps := m.warps.map (fun w => if m.partOfWarp w.2 = some part && (w.2.fault.map (fun f => f.seqs.contains q)).getD false then (w.1, (w.2.resolved q).replayNow (m.slc (w.1 / 128) w.2.slice).cyc) else w),
    blocks := m.blocks.mapVal (fun b => if m.partOf b = part then { b with warps := b.warps.mapVal (fun w => w.resolved q) } else b) }

/-- FUNCMODE bit 0. -/
def Fw.hostFaults (e : Fw) : Bool := e.win.funcmode.toNat.testBit 0

/-- The record is served in host-assisted mode: by the mode it was raised in (03 R81). -/
def FRec.host (r : FRec) (e : Fw) : Bool := r.draft.mode.getD e.hostFaults

/-! Pages that firmware maps itself (03 R80): from the partition's pool, in hardware mode. -/

/-- The scheduler maps a page for a record with rights for its access: the page and the tables it lacks are frames of the pool, wiped; left where the pool does not suffice, or something is mapped there already (log 94). -/
def mapPool (s : State) (part : Nat) (d : RecDraft) : State :=
  let c := s.fw.part part
  let va := d.page * 4096 % 2 ^ 57
  let entry := pageEntry (d.kind = 3) (d.kind ≠ 3) true (c.pool.headD 0)
  if c.pool = [] || !mappable s.fw s.m.mem part va [4, 3, 2, 1, 0] c.xlat then s
  else match mapPage va entry [4, 3, 2, 1, 0] c.xlat (s.m.mem.filter (fun x => !c.pool.contains (x.1 / 4096))) (c.pool.drop 1) with
    | some (mem, pool) => { s with fw := { s.fw with parts := s.fw.parts.set part { c with pool } }, m := { s.m with mem } }
    | none => s

/-- A record is resolved once its page translates. -/
def Mach.resolve (e : Fw) (m : Mach) (part : Nat) (r : FRec) : Mach := if recordTranslates e m part r.draft then m.resolveSeq part r.seq else m

/-- FAULT_RESOLVE: in hardware mode the scheduler first maps what is missing. -/
def execFaultResolve (s : State) : Host.Outcome State Fault Refusal :=
  match (s.m.part s.subj.part).faultQ.find? (fun r => r.seq = s.subj.id) with
  | some r =>
    let s1 := if r.host s.fw || recordTranslates s.fw s.m s.subj.part r.draft then s else mapPool s s.subj.part r.draft
    .next { s1 with m := Mach.resolve s1.fw s1.m s.subj.part r }
  | none => .next s

/-- Every outstanding record of a tenant that is served in host-assisted mode is looked at (R80, R272). -/
def Mach.resolveTenant (e : Fw) (m : Mach) (part tag : Nat) : Mach :=
  ((m.part part).faultQ.filter (fun r => r.draft.tag = tag && r.host e)).foldl (fun m r => Mach.resolve e m part r) m

/-! ### The tenant's fault ring (03 R82) -/

/-- A word of a tenant's VCP page by byte offset. -/
def Tenant.word (t : Tenant) (off : Nat) : Nat := (t.vcp.get off 0).toNat
def Tenant.setWord (t : Tenant) (off v : Nat) : Tenant := { t with vcp := t.vcp.set off (BitVec.ofNat 64 v) }
/-- A field of a word is replaced. -/
def Tenant.setField (t : Tenant) (off hi lo v : Nat) : Tenant := t.setWord off (putBits (t.word off) hi lo v)

/-- A fault record's words (10 R271). -/
def FRec.words (r : FRec) : List Nat :=
  [r.draft.page * 4096, r.draft.cause * 2 ^ 56 + r.draft.kind * 2 ^ 52 + r.draft.core * 2 ^ 44 + r.draft.wslot * 2 ^ 37 + r.draft.lanes.toNat, r.seq % 2 ^ 64, r.draft.tag]

def Tenant.ringLog (t : Tenant) : Nat := bits (t.word 0x40) 5 0
def Tenant.fwidx (t : Tenant) : Nat := bits (t.word 0x48) 31 0
def Tenant.fridx (t : Tenant) : Nat := bits (t.word 0x50) 31 0
def Tenant.ringOk (t : Tenant) : Bool := 12 ≤ t.ringLog && t.ringLog ≤ 20
def Tenant.ringFull (t : Tenant) : Bool := (t.fwidx + 2 ^ 32 - t.fridx) % 2 ^ 32 = 2 ^ (t.ringLog - 5)

/-- The next record of a tenant to be copied. -/
def Mach.uncopied (e : Fw) (m : Mach) (part tag : Nat) : Option FRec := (m.part part).faultQ.find? (fun r => r.draft.tag = tag && !r.copied && r.host e)

/-- FAULT_RECORD_COPY: one record goes into the tenant's ring, or the ring's fault is logged once. -/
def Mach.copyRecord (e : Fw) (m : Mach) (part tag : Nat) : Mach :=
  let t := m.tenant tag
  match m.uncopied e part tag with
  | none => m
  | some r =>
    if !t.ringOk then
      if t.flogErr then m else (m.partLog part [82, tag, t.ringLog]).modTenant tag (fun t => { t with flogErr := true })
    else if t.ringFull then m
    else match writeRecord e m part (bits (t.word 0x40) 63 12 * 4096 + 32 * (t.fwidx % 2 ^ (t.ringLog - 5))) r.words with
      | (_, false) => m
      | (m, true) =>
        let m := m.modPart part (fun p => { p with faultQ := p.faultQ.map (fun x => if x.seq = r.seq then { x with copied := true } else x) })
        (m.modTenant tag (fun t => t.setField 0x48 31 0 ((t.fwidx + 1) % 2 ^ 32))).signal tag 1

def execFaultRecordCopy (s : State) : Host.Outcome State Fault Refusal := .next { s with m := Mach.copyRecord s.fw s.m s.subj.part s.subj.tag }

/-! ### FAULT_REPLAY (10 R272): of a warp restored after its records were resolved. -/

def Mach.replayWarp (m : Mach) (core slot : Nat) : Mach :=
  m.modWarp core slot (fun w => w.replayNow (m.cycOf core slot))

def execFaultReplay (s : State) : Host.Outcome State Fault Refusal := .next { s with m := s.m.replayWarp s.subj.core s.subj.unit }

end Sys2Proof.Machine
end

