-- ==== Sys2Proof/Machine/Display.lean ====
section
/-! DEFINITION. The virtual display heads (17 R445 to R450). -/

namespace Sys2Proof.Machine

/-! ### A head's record (R446) -/

/-- Byte offset of head `k` in the VCP page. -/
def headOff (k : Nat) : Nat := 0x100 + 0x40 * k

/-- A head of a partition. -/
def Part.head (q : Part) (k : Nat) : Head := q.heads.get k Head.reset
def Part.modHead (q : Part) (k : Nat) (f : Head → Head) : Part := { q with heads := q.heads.set k (f (q.head k)) }

/-- A head word of a partition's tenants' pages by byte offset, one copy that all of them see (R445). -/
def Part.headWord (q : Part) (off : Nat) : Nat := (q.headW.get off 0).toNat
def Part.setHeadWord (q : Part) (off v : Nat) : Part := { q with headW := q.headW.set off (BitVec.ofNat 64 v) }
def Part.setHeadField (q : Part) (off hi lo v : Nat) : Part := q.setHeadWord off (putBits (q.headWord off) hi lo v)

namespace Head
/-- A word of the tenants' as firmware last read it (R445). -/
def word (q : Part) (k off : Nat) : Nat := ((q.head k).words.getD (off / 8) 0).toNat
/-- A word that firmware itself writes. -/
def out (q : Part) (k off : Nat) : Nat := q.headWord (headOff k + off)
def en (q : Part) (k : Nat) : Bool := bit (word q k 0) 63
def ten (q : Part) (k : Nat) : Bool := bit (word q k 0) 62
def fps (q : Part) (k : Nat) : Nat := bits (word q k 0) 61 54
def width (q : Part) (k : Nat) : Nat := bits (word q k 0) 53 40 + 1
def height (q : Part) (k : Nat) : Nat := bits (word q k 0) 39 26 + 1
def qidx (q : Part) (k : Nat) : Nat := bits (word q k 0) 19 12
def surf (q : Part) (k : Nat) : Nat := bits (word q k 8) 63 6 * 64
def pitch (q : Part) (k : Nat) : Nat := bits (word q k 0x10) 31 0
def bsBase (q : Part) (k : Nat) : Nat := bits (word q k 0x18) 63 12 * 4096
def bsLog (q : Part) (k : Nat) : Nat := bits (word q k 0x18) 5 0
def ridx (q : Part) (k : Nat) : Nat := bits (word q k 0x20) 63 32
def present (q : Part) (k : Nat) : Nat := bits (word q k 0x20) 31 0
def done (q : Part) (k : Nat) : Nat := bits (out q k 0x28) 63 32
def widx (q : Part) (k : Nat) : Nat := bits (out q k 0x28) 31 0
def dropped (q : Part) (k : Nat) : Nat := bits (out q k 0x30) 63 48
def late (q : Part) (k : Nat) : Nat := bits (out q k 0x30) 47 32
def err (q : Part) (k : Nat) : Nat := bits (out q k 0x30) 31 24
/-- Samples a second. -/
def rate (q : Part) (k : Nat) : Nat := width q k * height q k * fps q k
/-- The head's own checks. -/
def sizeOk (q : Part) (k : Nat) : Bool :=
  1 ≤ fps q k && fps q k ≤ 240 && width q k ≤ 16384 && height q k ≤ 8704 && width q k * height q k ≤ 35651584 && rate q k ≤ 1069547520
end Head

def Part.headErr (q : Part) (k v : Nat) : Part := q.setHeadField (headOff k + 0x30) 31 24 v

/-- Tags bound to a partition. -/
def Fw.tagsOf (e : Fw) (part : Nat) : List Nat := (e.binds.filter (fun b => b.2.part = part)).map Prod.fst

/-- Rate of the partition's heads in effect, but for one. -/
def Part.othersRate (q : Part) (k : Nat) : Nat := ((List.range 4).map (fun j => if (q.head j).on && j ≠ k then Head.rate q j else 0)).sum

/-- The checks of enabling a head. -/
def Part.headFits (q : Part) (k : Nat) : Bool := Head.sizeOk q k && decide (Head.rate q k + q.othersRate k ≤ 1990656000)

/-! ### Presents (R445, R447) -/

/-- FUNCMODE bit 4: rate control takes the host's quantiser (03 R80; R449). -/
def Fw.hostRate (e : Fw) : Bool := e.win.funcmode.toNat.testBit 4

/-- The head's words as they stand; one that was in effect and is still enabled counts as such until it is checked again. -/
def Part.seeHead (q : Part) (k : Nat) : Part :=
  let q := q.modHead k (fun h => { h with words := (List.range 5).map (fun i => BitVec.ofNat 64 (q.headWord (headOff k + 8 * i))) })
  q.modHead k (fun h => { h with on := h.on && Head.en q k })

/-- An enabled head is checked, and a failed check sets ERR 1 and leaves it out of effect. -/
def Part.enableHead (q : Part) (k : Nat) : Part :=
  if !Head.en q k then q
  else if q.headFits k then let q := q.modHead k (fun h => { h with on := true }); if Head.err q k = 1 then q.headErr k 0 else q
  else (q.modHead k (fun h => { h with on := false })).headErr k 1

/-- A new PRESENT of a head in effect waits for the refresh, in place of one that waits already. -/
def Part.presentHead (e : Fw) (q : Part) (tag k : Nat) : Part :=
  let h := q.head k
  let n := Head.present q k
  if !h.on || n = h.presented then q
  else
    let q := if h.waiting.isSome then q.setHeadField (headOff k + 0x30) 63 48 (min 0xFFFF (Head.dropped q k + 1)) else q
    q.modHead k (fun h => { h with waiting := some { present := n, tag, qidx := if e.hostRate then some (Head.qidx q k) else none }, presented := n })

/-- The heads as firmware reads them at a NOTIFY of a tenant: all their words first, then the checks and the presents, head by head. -/
def Part.readHeads (e : Fw) (q : Part) (tag : Nat) : Part :=
  (List.range 4).foldl (fun q k => q.presentHead e tag k) ((List.range 4).foldl Part.enableHead ((List.range 4).foldl Part.seeHead q))

def Mach.readHeads (e : Fw) (m : Mach) (tag : Nat) : Mach := match e.binds.get? tag with
  | some b => m.modPart b.part (fun q => q.readHeads e tag)
  | none => m

/-! ### The refresh (R447) -/

/-- Pages that rows of `n` bytes lie in. -/
def rowPages (base pitch n rows : Nat) : List Nat :=
  (List.range rows).flatMap (fun r => let a := base + pitch * r; (List.range ((a + n - 1) / 4096 - a / 4096 + 1)).map (fun i => a / 4096 + i))

/-- Pages of a head's surface, in row order: luma, then chroma. -/
def Head.pages (q : Part) (k : Nat) : List Nat :=
  let n := width q k * (if ten q k then 2 else 1)
  let c := (width q k + 1) / 2 * 2 * (if ten q k then 2 else 1)
  (rowPages (surf q k) (pitch q k) n (height q k) ++ rowPages (surf q k + pitch q k * height q k) (pitch q k) c ((height q k + 1) / 2)).eraseDups

/-- The first page that a unit outside the cores cannot read or write, with its cause. -/
def firstFault (e : Fw) (part : Nat) (k : AKind) : Mach → List Nat → Mach × Option (Nat × Nat)
  | m, [] => (m, none)
  | m, p :: r =>
    match walkTo e m part (p * 4096) k none with
    | (m, .err c) => (m, some (p, c))
    | (m, .ok _ _) => firstFault e part k m r

/-- The frame past its refresh changes. -/
def Mach.modEncoding (m : Mach) (part k : Nat) (f : HeadFrame → HeadFrame) : Mach := m.modPart part (fun q => q.modHead k (fun h => { h with encoding := h.encoding.map f }))

/-- A frame waits for a fault record: one still to be posted, or one not yet resolved (10 R272). -/
def Mach.frameWaits (m : Mach) (part : Nat) (x : HeadFrame) : Bool :=
  x.draft.isSome || (match x.waitSeq with
    | some n => m.pending part n
    | none => false)

/-- The KIND 4 record of a frame whose surface read faults: posted, or waiting for room (11 R283). -/
def Mach.headFault (e : Fw) (m : Mach) (part tag k page cause : Nat) : Mach :=
  let d : RecDraft := { page, cause, kind := 4, core := (coresOf (e.part part).cores).headD 0, wslot := 127, lanes := 0, tag }
  match (m.modPart part (fun q => q.headErr k 3)).postRecord part d with
  | (m, some n) => m.modEncoding part k (fun x => { x with waitSeq := some n, draft := none })
  | (m, none) => m.modEncoding part k (fun x => { x with draft := some d })

/-- The surface of the frame past its refresh is read, or it waits for a page. -/
def Mach.readSurface (e : Fw) (m : Mach) (part k : Nat) (x : HeadFrame) : Mach :=
  match firstFault e part .load m (Head.pages (m.part part) k) with
  | (m, some (p, c)) => m.headFault e part x.tag k p c
  | (m, none) => (m.modPart part (fun q => if Head.err q k = 3 then q.headErr k 0 else q)).modEncoding part k (fun x => { x with read := true, waitSeq := none })

/-- HEAD_REFRESH of head `k` of a partition: at the refresh instant the waiting frame's turn comes, and its surface is read; a frame that has waited on a fault goes on once its record is resolved. -/
def Mach.refresh (e : Fw) (m : Mach) (part k : Nat) : Mach :=
  let h := (m.part part).head k
  match h.encoding with
  | some x => if x.read || m.frameWaits part x then m else m.readSurface e part k x
  | none => match h.waiting with
    | some x => if h.on then (m.modPart part (fun q => q.modHead k (fun h => { h with waiting := none, encoding := some x }))).readSurface e part k x else m
    | none => m

def execHeadRefresh (s : State) : Host.Outcome State Fault Refusal := .next { s with m := s.m.refresh s.fw s.subj.part s.subj.unit }

/-! ### Temporal units (R448) -/

/-- Bytes of a unit: its word, its bytes, which are an encoder's own, and the padding to 16. -/
def unitBytes (free : Nat) (x : HeadFrame) (len : Nat) : List Byte :=
  let head : List Byte := (List.range 8).map (fun i => BitVec.ofNat 8 ((len % 2 ^ 32 + x.present % 2 ^ 32 * 2 ^ 32) / 2 ^ (8 * i)))
  let body : List Byte := (List.range len).map (Config.unitByte free x.qidx)
  head ++ body ++ List.replicate ((16 - (8 + len) % 16) % 16) 0#8

/-- Bytes into a ring of 2^log bytes, from an index that wraps. -/
def ringPut (e : Fw) (part base log : Nat) : Mach → Nat → List Byte → Mach
  | m, _, [] => m
  | m, i, b :: r =>
    match walkTo e m part (base + i % 2 ^ log) .store none with
    | (m, .ok pa _) => ringPut e part base log { m with mem := memPut m.mem pa b } (i + 1) r
    | (m, .err _) => ringPut e part base log m (i + 1) r

/-- Pages of the ring that `n` bytes from an index lie in. -/
def ringPages (base log i n : Nat) : List Nat := ((List.range n).map (fun j => (base + (i + j) % 2 ^ log) / 4096)).eraseDups

/-- TEMPORAL_UNIT_WRITE of head `k`: the encoded frame goes into the ring, or waits for room. -/
def Mach.unitWrite (e : Fw) (m : Mach) (part k len : Nat) : Mach :=
  match ((m.part part).head k).encoding with
  | none => m
  | some x =>
    if !x.read then m
    else
      let q := m.part part
      let bs := unitBytes m.fresh x len
      let m := { m with fresh := m.fresh + 1 }
      let used := (Head.widx q k + 2 ^ 32 - Head.ridx q k) % 2 ^ 32
      if !(12 ≤ Head.bsLog q k && Head.bsLog q k ≤ 30) then m.modPart part (fun q => q.headErr k 2)
      else if 2 ^ Head.bsLog q k < used + bs.length then
        if x.late then m
        else (m.modPart part (fun q => q.setHeadField (headOff k + 0x30) 47 32 (min 0xFFFF (Head.late q k + 1)))).modEncoding part k (fun x => { x with late := true })
      else match firstFault e part .store m (ringPages (Head.bsBase q k) (Head.bsLog q k) (Head.widx q k) bs.length) with
        | (m, some _) => m.modPart part (fun q => q.headErr k 2)
        | (m, none) =>
          let m := ringPut e part (Head.bsBase q k) (Head.bsLog q k) m (Head.widx q k) bs
          m.modPart part (fun q =>
            let q := (q.setHeadField (headOff k + 0x28) 31 0 (Head.widx q k + bs.length)).setHeadField (headOff k + 0x28) 63 32 (Head.done q k + 1)
            (if Head.err q k = 2 then q.headErr k 0 else q).modHead k (fun h => { h with encoding := none }))

def execTemporalUnitWrite (len : Nat) (s : State) : Host.Outcome State Fault Refusal := .next { s with m := s.m.unitWrite s.fw s.subj.part s.subj.unit len }

end Sys2Proof.Machine
end

