-- ==== Sys2Proof/Machine/Logic.lean ====
section
/-! DEFINITION. Row 2: logic, shifts and bit fields (08 R218 to R220). -/

namespace Sys2Proof.Machine

/-- A bitwise form of two sources. -/
def logic2 (k : Mn) (o : Op) (f : Word → Word → Word) (s : State) : State := plain k o false (fun g x => ofWord (f (g.a32 x) (g.b32 x))) s

def execAnd (o : Op) (s : State) : Host.Outcome State Fault Refusal := .next (logic2 .and o (fun a b => a &&& b) s)
def execOr (o : Op) (s : State) : Host.Outcome State Fault Refusal := .next (logic2 .or o (fun a b => a ||| b) s)
def execXor (o : Op) (s : State) : Host.Outcome State Fault Refusal := .next (logic2 .xor o (fun a b => a ^^^ b) s)
def execNot (o : Op) (s : State) : Host.Outcome State Fault Refusal := .next (plain .not o false (fun g x => ofWord (~~~(g.a32 x))) s)

/-- Bit (a + 2b + 4c) of a table (R219, R221). -/
def tableBit (tt : Nat) (a b c : Bool) : Bool := tt.testBit (a.toNat + 2 * b.toNat + 4 * c.toNat)

/-- Result bit `j` is the table's bit for the sources' bits `j` (R219). -/
def logic3Of (tt : Nat) (a b c : Word) : Word :=
  (List.range 32).foldl (fun r j => if tableBit tt (a.toNat.testBit j) (b.toNat.testBit j) (c.toNat.testBit j) then r ||| BitVec.ofNat 32 (2 ^ j) else r) 0

def execLogic3 (o : Op) (s : State) : Host.Outcome State Fault Refusal :=
  .next (plain .logic3 o false (fun g x => ofWord (logic3Of (o.mdBits 7 0) (g.a32 x) (g.b32 x) (g.c32 x))) s)

/-- The shift amount: b `[7:0]` (R219). -/
def shAmt (b : Word) : Nat := b.toNat % 256

def execShl (o : Op) (s : State) : Host.Outcome State Fault Refusal := .next (logic2 .shl o (fun a b => a <<< shAmt b) s)
def execShr (o : Op) (s : State) : Host.Outcome State Fault Refusal := .next (logic2 .shr o (fun a b => a >>> shAmt b) s)
def execSar (o : Op) (s : State) : Host.Outcome State Fault Refusal := .next (logic2 .sar o (fun a b => a.sshiftRight (shAmt b)) s)
/-- MOD `[0]`: right (R219). -/
def execRot (o : Op) (s : State) : Host.Outcome State Fault Refusal :=
  .next (logic2 .rot o (fun a b => if o.mdBit 0 then a.rotateRight (b.toNat % 32) else a.rotateLeft (b.toNat % 32)) s)
def execShl64 (o : Op) (s : State) : Host.Outcome State Fault Refusal := .next (plain .shl64 o true (fun g x => g.a64 x <<< shAmt (g.b32 x)) s)
def execShr64 (o : Op) (s : State) : Host.Outcome State Fault Refusal := .next (plain .shr64 o true (fun g x => g.a64 x >>> shAmt (g.b32 x)) s)
def execSar64 (o : Op) (s : State) : Host.Outcome State Fault Refusal := .next (plain .sar64 o true (fun g x => (g.a64 x).sshiftRight (shAmt (g.b32 x))) s)

/-- Position and length of a field control word (R220). -/
def fieldOf (ctl : Word) : Nat × Nat := let p := min (ctl.toNat % 256) 32; (p, min (bits ctl.toNat 15 8) (32 - p))

/-- BFE (R220); a field of no bits is 0. -/
def bfeOf (signed : Bool) (a ctl : Word) : Word :=
  let (p, n) := fieldOf ctl
  let f := a.toNat / 2 ^ p % 2 ^ n
  if signed ∧ n ≠ 0 then BitVec.ofInt 32 (sextN n f) else BitVec.ofNat 32 f

/-- The mask of a field (R220). -/
def fieldMask (ctl : Word) : Word := let (p, n) := fieldOf ctl; BitVec.ofNat 32 ((2 ^ n - 1) * 2 ^ p)

/-- BFI (R220). -/
def bfiOf (a ctl c : Word) : Word := (c &&& ~~~(fieldMask ctl)) ||| ((a <<< (fieldOf ctl).1) &&& fieldMask ctl)

/-- BPERM (R220). -/
def bpermOf (a b c : Word) : Word :=
  let src (i : Nat) : Nat := let q := bits c.toNat (3 * i + 2) (3 * i); if q < 4 then bits a.toNat (8 * q + 7) (8 * q) else bits b.toNat (8 * q - 25) (8 * q - 32)
  let byte (i : Nat) : Nat := if bit c.toNat (12 + i) then 0 else if bit c.toNat (16 + i) then (if bit (src i) 7 then 255 else 0) else src i
  BitVec.ofNat 32 (byte 0 + 256 * byte 1 + 65536 * byte 2 + 16777216 * byte 3)

/-- SHFN (R219): b and a as one value, b high. MOD `[0]`: left. -/
def shfnOf (left : Bool) (a b c : Word) : Word :=
  let v : DWord := b ++ a
  let n := c.toNat % 64
  if left then ((v <<< n) >>> 32).setWidth 32 else (v >>> n).setWidth 32

def execBfe (o : Op) (s : State) : Host.Outcome State Fault Refusal := .next (logic2 .bfe o (bfeOf (o.mdBit 0)) s)
def execBfi (o : Op) (s : State) : Host.Outcome State Fault Refusal := .next (plain .bfi o false (fun g x => ofWord (bfiOf (g.a32 x) (g.b32 x) (g.c32 x))) s)
def execBmsk (o : Op) (s : State) : Host.Outcome State Fault Refusal := .next (plain .bmsk o false (fun g x => ofWord (fieldMask (g.a32 x))) s)
def execBperm (o : Op) (s : State) : Host.Outcome State Fault Refusal := .next (plain .bperm o false (fun g x => ofWord (bpermOf (g.a32 x) (g.b32 x) (g.c32 x))) s)
def execShfn (o : Op) (s : State) : Host.Outcome State Fault Refusal :=
  .next (plain .shfn o false (fun g x => ofWord (shfnOf (o.mdBit 0) (g.a32 x) (g.b32 x) (g.c32 x))) s)

end Sys2Proof.Machine
end

