-- ==== Sys2Proof/Machine/Scalar.lean ====
section
/-! DEFINITION. Row 3: predicates, the scalar pipe, special registers, segments, exception bits and cache control (08 R221 to R229). -/

namespace Sys2Proof.Machine

/-! ### Predicates (R221) -/

/-- A predicate of a lane by a field of IMM. -/
def Grp.immPred (g : Grp) (x : Member) (lo : Nat) : Bool := (g.warp x).preg (bits g.o.immN (lo + 2) lo) x.lane

def ofBool (b : Bool) : DWord := if b then 1 else 0

def execPlop (o : Op) (s : State) : Host.Outcome State Fault Refusal :=
  .next (plain .plop o false (fun g x => ofBool (tableBit (bits o.immN 23 16) (g.immPred x 0) (g.immPred x 4) (g.immPred x 8))) s)
def execPmov (o : Op) (s : State) : Host.Outcome State Fault Refusal := .next (plain .pmov o false (fun g x => ofBool (xor (bit o.immN 3) (g.immPred x 0))) s)
/-- P0 to P7 as a byte; bit 7 is 1. -/
def execP2v (o : Op) (s : State) : Host.Outcome State Fault Refusal :=
  .next (plain .p2v o false (fun g x => BitVec.ofNat 64 (128 + ((g.warp x).thread x.lane).preds.toNat)) s)
/-- Each masked predicate takes its bit of a, at the class latency. -/
def execV2p (o : Op) (s : State) : Host.Outcome State Fault Refusal :=
  .next (issueWith .v2p o noCauses (fun g m =>
    let ks := (List.range 7).filter (fun k => bit o.immN k)
    let put (m : Mach) (sl k : Nat) : Mach := g.wbAt m sl (.p k ((g.execs.filter (fun x => x.slot = sl)).map (fun x => (x.lane, bit (g.a32 x).toNat k))))
    g.freeReads g.execLanes (g.execSlots.foldl (fun m sl => ks.foldl (fun m k => put m sl k) m) m)) s)

/-! ### The scalar pipe (R222, R223) -/

def Grp.sa32 (g : Grp) : Word := g.a32 g.lead
def Grp.sb32 (g : Grp) : Word := g.b32 g.lead
def Grp.sa64 (g : Grp) : DWord := g.a64 g.lead
def Grp.sb64 (g : Grp) : DWord := g.b64 g.lead

/-- MOD `[2]` W: 64-bit. -/
def Op.w64 (o : Op) : Bool := o.mdBit 2

/-- A scalar form of two 32-bit sources. -/
def scalar2 (k : Mn) (o : Op) (f : Word → Word → Word) (s : State) : State := scalarOp k o noCauses false (fun g => ofWord (f g.sa32 g.sb32)) s

def execSmov (o : Op) (s : State) : Host.Outcome State Fault Refusal :=
  .next (scalarOp .smov o noCauses (Op.w64 o) (fun g => if Op.w64 o then g.sa64 else ofWord g.sa32) s)
/-- MOD `[3]` SUB. -/
def execSiadd (o : Op) (s : State) : Host.Outcome State Fault Refusal :=
  .next (scalarOp .siadd o noCauses (Op.w64 o) (fun g =>
    if Op.w64 o then (if o.mdBit 3 then g.sa64 - g.sb64 else g.sa64 + g.sb64) else ofWord (if o.mdBit 3 then g.sa32 - g.sb32 else g.sa32 + g.sb32)) s)
def execSimul (o : Op) (s : State) : Host.Outcome State Fault Refusal := .next (scalar2 .simul o (fun a b => a * b) s)
def execSand (o : Op) (s : State) : Host.Outcome State Fault Refusal := .next (scalar2 .sand o (fun a b => a &&& b) s)
def execSor (o : Op) (s : State) : Host.Outcome State Fault Refusal := .next (scalar2 .sor o (fun a b => a ||| b) s)
def execSxor (o : Op) (s : State) : Host.Outcome State Fault Refusal := .next (scalar2 .sxor o (fun a b => a ^^^ b) s)
def execSshl (o : Op) (s : State) : Host.Outcome State Fault Refusal := .next (scalar2 .sshl o (fun a b => a <<< shAmt b) s)
def execSshr (o : Op) (s : State) : Host.Outcome State Fault Refusal :=
  .next (scalar2 .sshr o (fun a b => if o.mdBit 0 then a.sshiftRight (shAmt b) else a >>> shAmt b) s)

/-- Lanes of a warp that are not EXITED. -/
def Warp.liveLanes (w : Warp) : List Nat := (w.threads.filter (fun t => t.2.st ≠ TState.exited)).map Prod.fst

/-- A predicate written in every thread of the warp that is not EXITED (R222). -/
def Grp.wbWarpPred (g : Grp) (m : Mach) (v : Bool) : Mach :=
  if g.o.ctl.wbs || g.execs.isEmpty then m
  else match g.o.dst with
  | .p n => g.wbAt m g.lead.slot (.p n.toNat ((g.warp g.lead).liveLanes.map (fun l => (l, v))))
  | _ => g.wbScalar m false (ofBool v)

def execScmp (o : Op) (s : State) : Host.Outcome State Fault Refusal :=
  .next (issueWith .scmp o noCauses (fun g m => g.freeReads g.execLanes (g.wbWarpPred m (ccInt (o.mdBits 4 2) (extW (o.mdBit 0) g.sa32) (extW (o.mdBit 0) g.sb32)))) s)

/-- V[a] of lane b `[4:0]` (R222). -/
def Grp.v2sVal (g : Grp) : DWord :=
  let x : Member := { slot := g.lead.slot, lane := g.sb32.toNat % 32 }
  if Op.w64 g.o then g.a64 x else ofWord (g.a32 x)

def execV2s (o : Op) (s : State) : Host.Outcome State Fault Refusal := .next (scalarOp .v2s o noCauses (Op.w64 o) Grp.v2sVal s)

/-- Executing members restricted to those whose lane's bit of b is set (R223). -/
def Grp.picked (g : Grp) : Grp := { g with execs := g.execs.filter (fun x => laneBit (g.b32 x) x.lane) }

def execS2v (o : Op) (s : State) : Host.Outcome State Fault Refusal :=
  .next (issueWith .s2v o noCauses (fun g m => g.freeReads g.execLanes (g.picked.wbLanes m false (fun x => ofWord (g.a32 x)))) s)

/-! ### Special registers (R224 to R226) -/

/-- The value of a special register in a lane (R224). -/
def Grp.special (g : Grp) (x : Member) (ix cp : Nat) : DWord :=
  let w := g.warp x
  let b := g.blockOf x
  let l := b.bind g.m.launch?
  let idx := match b, l with
    | some b, some l => l.blockIdx b.lin
    | _, _ => (0, 0, 0)
  let lget (f : Launch → Nat) : Nat := (l.map f).getD 0
  match ix with
  | 0 => BitVec.ofNat 64 x.lane
  | 1 => BitVec.ofNat 64 w.num
  | 2 => BitVec.ofNat 64 (if cp = 0 then idx.1 else if cp = 1 then idx.2.1 else idx.2.2)
  | 3 => BitVec.ofNat 64 (match cp with
    | 0 => lget Launch.gridX
    | 1 => lget Launch.gridY
    | 2 => lget Launch.gridZ
    | 4 => lget Launch.blkX
    | 5 => lget Launch.blkY
    | _ => lget Launch.blkZ)
  | 4 => BitVec.ofNat 64 g.core
  | 5 => BitVec.ofNat 64 g.slice
  | 6 => BitVec.ofNat 64 (shardOf g.core)
  | 7 => BitVec.ofNat 64 (g.m.shard (shardOf g.core)).cycle
  | 8 => ofBool ((b.map (·.preempt)).getD false)
  | 9 => BitVec.ofNat 64 (match b, l with
    | some b, some l => if l.cover then b.covf + (match l.cov with
        | some c => fld c.rcd 0 54 51
        | none => 0) * 512 else 0
    | _, _ => 0)
  | 10 => ((w.thread x.lane).lattice).setWidth 64
  | _ => ofWord w.faultmask

/-- SRD (R225): once for the warp into Sn, or in every executing lane into Vn; taken at issue. -/
def execSrd (o : Op) (s : State) : Host.Outcome State Fault Refusal :=
  .next (issueWith .srd o noCauses (fun g m =>
    let ix := bits o.immN 7 0
    let cp := bits o.immN 10 8
    g.freeReads g.execLanes (match o.dst with
    | .s _ => g.wbScalar m (decide (ix = 7)) (g.special g.lead ix cp)
    | _ => g.wbLanes m (decide (ix = 7)) (fun x => g.special x ix cp))) s)

/-- $PREEMPT of a block takes a value; clearing it releases the members at yield points (R209, R226). -/
def Mach.setPreempt (m : Mach) (b : Nat) (v : Bool) : Mach :=
  let m := m.modBlock b (fun k => if k.st = .resident then { k with preempt := v } else k)
  if v || ((m.blocks.get? b).map (·.preempt)).getD true then m
  else m.modWarpsOf b (fun cyc w => { w with threads := w.threads.mapVal (fun (t : Thread) => if t.st = TState.blocked .yieldPoint then { t with st := TState.atPc, stamp := cyc } else t) })

/-- The deadline of a block's pre-emption from now (16 R414). -/
def Mach.setDeadline (m : Mach) (b : Nat) : Mach :=
  m.modBlock b (fun k => { k with deadline := (m.shard (shardOf k.core)).cycle + ((m.bundles.get? k.bundle).map (fun x => x.eff 8)).getD 0 })

/-- SWR: $PREEMPT of the block, $FAULTMASK of the warp (R226). -/
def execSwr (o : Op) (s : State) : Host.Outcome State Fault Refusal :=
  .next (issueWith .swr o privCause (fun g m =>
    if g.execs.isEmpty then m
    else if o.md.toNat = 8 then
      if g.lead.slot = handlerSlot then m
      else (m.setDeadline (g.blkId g.lead)).setPreempt (g.blkId g.lead) (bit g.sa32.toNat 0)
    else m.modWarp g.core g.lead.slot (fun w => { w with faultmask := g.sa32 })) s)

/-! ### Segments, exception bits, cache control (R227 to R229) -/

def execSegld (o : Op) (s : State) : Host.Outcome State Fault Refusal :=
  .next (issueWith .segld o privCause (fun g m =>
    if g.execs.isEmpty then m else m.modWarp g.core g.lead.slot (fun w => { w with seg := w.seg.set (o.mdBits 2 0) (g.sa64, g.sb64) })) s)

def execSegrd (o : Op) (s : State) : Host.Outcome State Fault Refusal :=
  .next (scalarOp .segrd o noCauses true (fun g => let r := (g.warp g.lead).segment (o.mdBits 2 0); if o.mdBit 3 then r.2 else r.1) s)

def execFlagrd (o : Op) (s : State) : Host.Outcome State Fault Refusal :=
  .next (scalarOp .flagrd o noCauses false (fun g => (g.warp g.lead).loc.setWidth 64) s)

/-- FLAGCLR; a bit that a write-back has set in this slice cycle stays set (R228). -/
def execFlagclr (o : Op) (s : State) : Host.Outcome State Fault Refusal :=
  .next (issueWith .flagclr o noCauses (fun g m =>
    if g.execs.isEmpty then m else m.modWarp g.core g.lead.slot (fun w => { w with loc := w.loc &&& (~~~(BitVec.ofNat 7 o.immN) ||| g.slc.newExc.get g.lead.slot 0) })) s)

/-- A CCTL: its invalidation is done on its core, and then its flag is signalled (R229). -/
def cctl (k : Mn) (o : Op) (own : Grp → List Nat) (f : Grp → Core → Core) (s : State) : State :=
  issueWith k o own (fun g m =>
    let m := if g.execs.isEmpty then m else m.modCore g.core (f g)
    g.freeReads g.execLanes (g.slots.foldl (fun m sl => m.modWarp g.core sl (fun w => w.signalFlag o.ctl.setf.toNat)) m)) s

/-- The address an operation names, as 57 bits. -/
def Grp.cctlVa (g : Grp) : Nat := g.sa64.toNat % 2 ^ 57

def execCctlIinv (o : Op) (s : State) : Host.Outcome State Fault Refusal := .next (cctl .cctlIinv o noCauses (fun _ c => { c with icache := [] }) s)
def execCctlIinvpg (o : Op) (s : State) : Host.Outcome State Fault Refusal :=
  .next (cctl .cctlIinvpg o noCauses (fun g c => { c with icache := c.icache.filter (fun l => l.1 / 4096 ≠ g.cctlVa / 4096) }) s)
def execCctlTlbpg (o : Op) (s : State) : Host.Outcome State Fault Refusal :=
  .next (cctl .cctlTlbpg o privCause (fun g c => c.dropXl (fun x => x.covers g.cctlVa)) s)
def execCctlTlball (o : Op) (s : State) : Host.Outcome State Fault Refusal := .next (cctl .cctlTlball o privCause (fun _ c => c.dropXl (fun _ => true)) s)

end Sys2Proof.Machine
end

