-- ==== Sys2Proof/Machine/Exchange.lean ====
section
/-! DEFINITION. Row 8: exchange among the lanes of a group, reductions and derivatives (07 R189; 09 R251 to R256). -/

namespace Sys2Proof.Machine

/-- The executing member in a lane. -/
def Grp.execAt (g : Grp) (l : Nat) : Option Member := g.execs.find? (fun x => x.lane = l)

/-- The source lane of LXCH (R252). -/
def lxchSrc (o : Op) (l off : Nat) : Nat :=
  let w := 2 ^ o.mdBits 6 4
  let base := l - l % w
  match o.mdBits 1 0 with
  | 0 => base + off % w
  | 1 => if l < base + off then l else l - off
  | 2 => if base + w ≤ l + off then l else l + off
  | _ => l ^^^ (off % w)

/-- a of the executing member in a lane, or the lane's own. -/
def Grp.fromLane (g : Grp) (src : Nat) (x : Member) : DWord := ofWord (match g.execAt src with
  | some y => g.a32 y
  | none => g.a32 x)

def execLxch (o : Op) (s : State) : Host.Outcome State Fault Refusal :=
  .next (plain .lxch o false (fun g x => g.fromLane (lxchSrc o x.lane ((g.b32 x).toNat % 32)) x) s)

/-- The predicate a VOTE or BALLOT names, in a lane (R253). -/
def Grp.votePred (g : Grp) (x : Member) : Bool := xor (bit g.o.immN 3) (g.immPred x 0)

/-- The truth of a VOTE (R253). -/
def Grp.voteTruth (g : Grp) : Bool :=
  let qs := g.execs.map g.votePred
  match g.o.mdBits 1 0 with
  | 0 => qs.all id
  | 1 => qs.any id
  | _ => qs.all id || !qs.any id

def execVote (o : Op) (s : State) : Host.Outcome State Fault Refusal := .next (plain .vote o false (fun g _ => maskOut o false g.voteTruth) s)
def execBallot (o : Op) (s : State) : Host.Outcome State Fault Refusal :=
  .next (plain .ballot o false (fun g _ => ofWord (maskOf ((g.execs.filter g.votePred).map (·.lane)))) s)
/-- MOD `[0]`: 64-bit (R253). -/
def execMatchl (o : Op) (s : State) : Host.Outcome State Fault Refusal :=
  .next (plain .matchl o false (fun g x =>
    ofWord (maskOf ((g.execs.filter (fun y => if o.mdBit 0 then g.a64 y = g.a64 x else g.a32 y = g.a32 x)).map (·.lane)))) s)

/-- The combination of terms by R254; with no term, the exclusive identity. -/
def reduceOf (op rm : Nat) (ts : List Word) : DWord × BitVec 7 :=
  let ss := ts.map BitVec.toInt
  let us := ts.map BitVec.toNat
  match op with
  | 0 => (ofWord (ts.foldl (· + ·) 0), 0)
  | 1 => let r := satS 32 (ss.foldl (· + ·) 0); (ofInt32 r.1, r.2)
  | 2 => (ofInt32 (ss.foldl min 0x7FFFFFFF), 0)
  | 3 => (ofInt32 (ss.foldl max (-0x80000000)), 0)
  | 4 => (BitVec.ofNat 64 (us.foldl min 0xFFFFFFFF), 0)
  | 5 => (BitVec.ofNat 64 (us.foldl max 0), 0)
  | 6 => (ofWord (ts.foldl (· &&& ·) 0xFFFFFFFF), 0)
  | 7 => (ofWord (ts.foldl (· ||| ·) 0), 0)
  | 8 => (ofWord (ts.foldl (· ^^^ ·) 0), 0)
  | 9 => if ts = [] then (0, 0) else ofRes (finish fmtFP32 rm (sumVals rm (us.map fmtFP32.widen)))
  | _ =>
    match us with
    | [] => (BitVec.ofNat 64 (fmtFP32.infBits (op != 10)), 0)
    | u :: r =>
      let v := fmtFP32.widen u
      let first : FRes := (if v.isNan then fmtFP32.nanBits else u, if v.sig then excInvalid else 0)
      ofRes (r.foldl (fun acc y => let z := fMinMax fmtFP32 (op != 10) acc.1 y; (z.1, acc.2 ||| z.2)) first)

/-- R254: a rounding field of 4 is illegal here (02 R50). -/
def execRedux (o : Op) (s : State) : Host.Outcome State Fault Refusal :=
  .next (laneOp .redux o rmCause false (fun g _ => reduceOf (o.mdBits 3 0) g.rm (g.execs.map g.a32)) s)
/-- MOD `[4]`: exclusive (R254). -/
def execScan (o : Op) (s : State) : Host.Outcome State Fault Refusal :=
  .next (laneOp .scan o rmCause false (fun g x =>
    reduceOf (o.mdBits 3 0) g.rm ((g.execs.filter (fun y => y.lane < x.lane || (y.lane = x.lane && !o.mdBit 4))).map g.a32)) s)

/-- The pair of R189 along an axis of `step` lanes (1: DDX, 2: DDY): the lane's own, the opposite where that has an EXITED lane, or none. -/
def derivPair (alive : Nat → Bool) (step l : Nat) : Option (Nat × Nat) :=
  let base := l - l % 4
  let other := 3 - step
  let row := l % 4 / other % 2
  let p1 := base + row * other
  let p2 := base + (1 - row) * other
  if alive p1 && alive (p1 + step) then some (p1, p1 + step)
  else if alive p2 && alive (p2 + step) then some (p2, p2 + step)
  else none

/-- DDX or DDY in a lane (R255). -/
def Grp.deriv (g : Grp) (step : Nat) (x : Member) : DWord × BitVec 7 :=
  match derivPair (fun l => ((g.warp x).thread l).st ≠ TState.exited) step x.lane with
  | none => (0, 0)
  | some (p, q) => ofRes (fSub fmtFP32 g.rm (g.a32 { x with lane := q }).toNat (g.a32 { x with lane := p }).toNat)

/-- R255: a launch without quads has no derivatives. -/
def derivCause (g : Grp) : List Nat := rmCause g ++ [if ((g.launch?).map Launch.quad).getD false then 0 else causeDerivNoQuad]

def execDdx (o : Op) (s : State) : Host.Outcome State Fault Refusal := .next (laneOp .ddx o derivCause false (fun g x => g.deriv 1 x) s)
def execDdy (o : Op) (s : State) : Host.Outcome State Fault Refusal := .next (laneOp .ddy o derivCause false (fun g x => g.deriv 2 x) s)
def execQswz (o : Op) (s : State) : Host.Outcome State Fault Refusal :=
  .next (plain .qswz o false (fun g x => g.fromLane (x.lane - x.lane % 4 + bits o.immN (2 * (x.lane % 4) + 1) (2 * (x.lane % 4))) x) s)

end Sys2Proof.Machine
end

