-- ==== Sys2Proof/Machine/Float32.lean ====
section
/-! DEFINITION. Row 4: FP32 arithmetic (09 R232 to R239). -/

namespace Sys2Proof.Machine

def execFadd (o : Op) (s : State) : Host.Outcome State Fault Refusal := .next (fp32 .fadd o (fun rm a b _ => fAdd fmtFP32 rm a b) s)
def execFsub (o : Op) (s : State) : Host.Outcome State Fault Refusal := .next (fp32 .fsub o (fun rm a b _ => fSub fmtFP32 rm a b) s)
def execFmul (o : Op) (s : State) : Host.Outcome State Fault Refusal := .next (fp32 .fmul o (fun rm a b _ => fMul fmtFP32 rm a b) s)
def execFmac (o : Op) (s : State) : Host.Outcome State Fault Refusal := .next (fp32 .fmac o (fMac fmtFP32) s)
def execFmin (o : Op) (s : State) : Host.Outcome State Fault Refusal := .next (fp32 .fmin o (fun _ a b _ => fMinMax fmtFP32 false a b) s)
def execFmax (o : Op) (s : State) : Host.Outcome State Fault Refusal := .next (fp32 .fmax o (fun _ a b _ => fMinMax fmtFP32 true a b) s)
def execFabs (o : Op) (s : State) : Host.Outcome State Fault Refusal := .next (fp32 .fabs o (fun _ a _ _ => fAbs fmtFP32 a) s)
def execFneg (o : Op) (s : State) : Host.Outcome State Fault Refusal := .next (fp32 .fneg o (fun _ a _ _ => fNeg fmtFP32 a) s)
def execFcmp (o : Op) (s : State) : Host.Outcome State Fault Refusal :=
  .next (laneOp .fcmp o noCauses false (fun g x => let r := fCmp fmtFP32 (o.mdBits 3 0) (g.a32 x).toNat (g.b32 x).toNat; (maskOut o false r.1, r.2)) s)
def execFclass (o : Op) (s : State) : Host.Outcome State Fault Refusal :=
  .next (laneOp .fclass o noCauses false (fun g x => (classOut o (fClass fmtFP32 (g.a32 x).toNat), 0)) s)
def execFrnd (o : Op) (s : State) : Host.Outcome State Fault Refusal := .next (fp32 .frnd o (fun rm a _ _ => fRnd fmtFP32 rm a) s)
def execFrcp (o : Op) (s : State) : Host.Outcome State Fault Refusal := .next (fp32 .frcp o (fun rm a _ _ => fRcp fmtFP32 rm a) s)
def execFrsq (o : Op) (s : State) : Host.Outcome State Fault Refusal := .next (fp32 .frsq o (fun rm a _ _ => fRsq fmtFP32 rm a) s)
def execFsqrt (o : Op) (s : State) : Host.Outcome State Fault Refusal := .next (fp32 .fsqrt o (fun rm a _ _ => fSqrt fmtFP32 rm a) s)
def execFdiv (o : Op) (s : State) : Host.Outcome State Fault Refusal := .next (fp32 .fdiv o (fun rm a b _ => fDiv fmtFP32 rm a b) s)
def execFex2 (o : Op) (s : State) : Host.Outcome State Fault Refusal := .next (fp32 .fex2 o (fun rm a _ _ => fEx2 fmtFP32 rm a) s)
def execFlg2 (o : Op) (s : State) : Host.Outcome State Fault Refusal := .next (fp32 .flg2 o (fun rm a _ _ => fLg2 fmtFP32 rm a) s)
def execFsin (o : Op) (s : State) : Host.Outcome State Fault Refusal := .next (fp32 .fsin o (fun rm a _ _ => fSin fmtFP32 rm a) s)
def execFcos (o : Op) (s : State) : Host.Outcome State Fault Refusal := .next (fp32 .fcos o (fun rm a _ _ => fCos fmtFP32 rm a) s)
def execFtanh (o : Op) (s : State) : Host.Outcome State Fault Refusal := .next (fp32 .ftanh o (fun rm a _ _ => fTanh fmtFP32 rm a) s)
/-- MOD `[0]`: BF16 elements (R239). -/
def execFdot2 (o : Op) (s : State) : Host.Outcome State Fault Refusal :=
  .next (fp32 .fdot2 o (fun rm a b c => fDot (halfFmt o) (halfFmt o) 2 rm a b c) s)
/-- MOD `[0]`, `[1]`: E5M2 elements of a, of b (R239). -/
def execFdot4 (o : Op) (s : State) : Host.Outcome State Fault Refusal :=
  .next (fp32 .fdot4 o (fun rm a b c => fDot (if o.mdBit 0 then fmtE5M2 else fmtE4M3) (if o.mdBit 1 then fmtE5M2 else fmtE4M3) 4 rm a b c) s)

end Sys2Proof.Machine
end

