-- ==== Sys2Proof/Machine/Float64.lean ====
section
/-! DEFINITION. Row 5: FP64 arithmetic (09 R240). -/

namespace Sys2Proof.Machine

def execDadd (o : Op) (s : State) : Host.Outcome State Fault Refusal := .next (fp64 .dadd o (fun rm a b _ => fAdd fmtFP64 rm a b) s)
def execDsub (o : Op) (s : State) : Host.Outcome State Fault Refusal := .next (fp64 .dsub o (fun rm a b _ => fSub fmtFP64 rm a b) s)
def execDmul (o : Op) (s : State) : Host.Outcome State Fault Refusal := .next (fp64 .dmul o (fun rm a b _ => fMul fmtFP64 rm a b) s)
def execDmac (o : Op) (s : State) : Host.Outcome State Fault Refusal := .next (fp64 .dmac o (fMac fmtFP64) s)
def execDmin (o : Op) (s : State) : Host.Outcome State Fault Refusal := .next (fp64 .dmin o (fun _ a b _ => fMinMax fmtFP64 false a b) s)
def execDmax (o : Op) (s : State) : Host.Outcome State Fault Refusal := .next (fp64 .dmax o (fun _ a b _ => fMinMax fmtFP64 true a b) s)
def execDabs (o : Op) (s : State) : Host.Outcome State Fault Refusal := .next (fp64 .dabs o (fun _ a _ _ => fAbs fmtFP64 a) s)
def execDneg (o : Op) (s : State) : Host.Outcome State Fault Refusal := .next (fp64 .dneg o (fun _ a _ _ => fNeg fmtFP64 a) s)
/-- MOD `[4]`: the mask fills 64 bits (R240). -/
def execDcmp (o : Op) (s : State) : Host.Outcome State Fault Refusal :=
  .next (laneOp .dcmp o noCauses (o.mdBit 4) (fun g x => let r := fCmp fmtFP64 (o.mdBits 3 0) (g.srcD x o.a) (g.srcD x o.b); (maskOut o (o.mdBit 4) r.1, r.2)) s)
def execDclass (o : Op) (s : State) : Host.Outcome State Fault Refusal :=
  .next (laneOp .dclass o noCauses false (fun g x => (classOut o (fClass fmtFP64 (g.srcD x o.a)), 0)) s)
def execDrnd (o : Op) (s : State) : Host.Outcome State Fault Refusal := .next (fp64 .drnd o (fun rm a _ _ => fRnd fmtFP64 rm a) s)
def execDrcp (o : Op) (s : State) : Host.Outcome State Fault Refusal := .next (fp64 .drcp o (fun rm a _ _ => fRcp fmtFP64 rm a) s)
def execDrsq (o : Op) (s : State) : Host.Outcome State Fault Refusal := .next (fp64 .drsq o (fun rm a _ _ => fRsq fmtFP64 rm a) s)
def execDsqrt (o : Op) (s : State) : Host.Outcome State Fault Refusal := .next (fp64 .dsqrt o (fun rm a _ _ => fSqrt fmtFP64 rm a) s)
def execDdiv (o : Op) (s : State) : Host.Outcome State Fault Refusal := .next (fp64 .ddiv o (fun rm a b _ => fDiv fmtFP64 rm a b) s)

end Sys2Proof.Machine
end

