-- ==== Sys2Proof/Decode.lean ====
section
/-! DEFINITION. The decoder of the 128-bit instruction word, total on any bytes and rejecting by name, and after it the encoder written from the same tables (06 R140 to R154). -/

namespace Sys2Proof

/-- Why a word names no instruction. Each of them raises ILLEGAL_OPCODE at issue (06 R150, R153). -/
inductive DecodeError where
  /-- fewer or more than 16 bytes were given -/
  | length
  /-- nonzero bits [101:96] -/
  | reservedControl
  /-- a reserved destination encoding -/
  | reservedDst
  /-- opcode 0x000 or an opcode of row 31 (06 R153) -/
  | permanentlyIllegal
  /-- a slot of no row, or a MOD value that selects no row of its opcode -/
  | reservedOpcode
  /-- a field that its opcode's entry does not allow (06 R150) -/
  | illFormed
  deriving DecidableEq, Repr

/-- Cuts a number into fields of the given widths, least significant first. -/
def unpack : List Nat → Nat → List Nat
  | [], _ => []
  | w :: ws, x => x % 2 ^ w :: unpack ws (x / 2 ^ w)

/-- Joins fields of the given widths, least significant first. -/
def pack : List (Nat × Nat) → Nat
  | [] => 0
  | (w, v) :: r => v % 2 ^ w + 2 ^ w * pack r

/-- The widths of the fields of an instruction word, from bit 0 upwards (06 R141): IMM, MOD, SRCC, SRCB, SRCA, DST, GPRED, GNEG, OPC, reserved, WBS, LASTA, LASTB, LASTC, YIELD, CHAIN, SETF, WAIT, STALL. -/
def wordWidths : List Nat := [32, 11, 10, 10, 10, 9, 3, 1, 10, 6, 1, 1, 1, 1, 1, 1, 4, 12, 4]

/-- A source field (06 R144). -/
def decodeSrc (x : Nat) : Src :=
  let n := BitVec.ofNat 8 x
  match x / 256 % 4 with
  | 0 => .v n
  | 1 => .s n
  | 2 => .latch n
  | _ => if n = 255#8 then .imm else .const n

/-- A source field (06 R144). -/
def encodeSrc : Src → Nat
  | .v n => n.toNat
  | .s n => 256 + n.toNat
  | .latch n => 512 + n.toNat
  | .const n => 768 + n.toNat
  | .imm => 1023

/-- A destination field (06 R146). -/
def decodeDst (x : Nat) : Option Dst :=
  if x < 0x100 then some (.v (BitVec.ofNat 8 x))
  else if x < 0x120 then some (.s (BitVec.ofNat 5 x))
  else if x < 0x128 then some (.p (BitVec.ofNat 3 x))
  else if 0x140 ≤ x ∧ x < 0x144 then some (.latch (BitVec.ofNat 2 x))
  else if 0x160 ≤ x ∧ x < 0x170 then some (.tile (BitVec.ofNat 4 x))
  else if x = 0x1FF then some .none
  else none

/-- A destination field (06 R146). -/
def encodeDst : Dst → Nat
  | .v n => n.toNat
  | .s n => 0x100 + n.toNat
  | .p n => 0x120 + n.toNat
  | .latch n => 0x140 + n.toNat
  | .tile n => 0x160 + n.toNat
  | .none => 0x1FF

/-- The slot (row, column) of each mnemonic (06 R152). -/
def Mn.slot : Mn → Nat × Nat
  | .nop => (0, 1)
  | .bra => (0, 2)
  | .brx => (0, 3)
  | .call => (0, 4)
  | .callx => (0, 5)
  | .ret => (0, 6)
  | .exit => (0, 7)
  | .yield => (0, 8)
  | .beat => (0, 9)
  | .enrol => (0, 10)
  | .park => (0, 11)
  | .strike => (0, 12)
  | .demote => (0, 13)
  | .kill => (0, 14)
  | .iadd => (1, 0)
  | .isub => (1, 1)
  | .imul => (1, 2)
  | .imulh => (1, 3)
  | .imac => (1, 4)
  | .imacw => (1, 5)
  | .idiv => (1, 6)
  | .irem => (1, 7)
  | .imin => (1, 8)
  | .imax => (1, 9)
  | .iabs => (1, 10)
  | .ineg => (1, 11)
  | .iadd64 => (1, 12)
  | .isub64 => (1, 13)
  | .imul64 => (1, 14)
  | .imac64 => (1, 15)
  | .icmp => (1, 16)
  | .icmp64 => (1, 17)
  | .sel => (1, 18)
  | .lea => (1, 19)
  | .bcnt => (1, 20)
  | .lzc => (1, 21)
  | .bitrev => (1, 22)
  | .idot4 => (1, 23)
  | .and => (2, 0)
  | .or => (2, 1)
  | .xor => (2, 2)
  | .not => (2, 3)
  | .logic3 => (2, 4)
  | .shl => (2, 5)
  | .shr => (2, 6)
  | .sar => (2, 7)
  | .rot => (2, 8)
  | .shl64 => (2, 9)
  | .shr64 => (2, 10)
  | .sar64 => (2, 11)
  | .bfe => (2, 12)
  | .bfi => (2, 13)
  | .bmsk => (2, 14)
  | .bperm => (2, 15)
  | .shfn => (2, 16)
  | .plop => (3, 0)
  | .pmov => (3, 1)
  | .p2v => (3, 2)
  | .v2p => (3, 3)
  | .smov => (3, 4)
  | .siadd => (3, 5)
  | .simul => (3, 6)
  | .sand => (3, 7)
  | .sor => (3, 8)
  | .sxor => (3, 9)
  | .sshl => (3, 10)
  | .sshr => (3, 11)
  | .scmp => (3, 12)
  | .v2s => (3, 13)
  | .s2v => (3, 14)
  | .srd => (3, 15)
  | .swr => (3, 16)
  | .segld => (3, 17)
  | .segrd => (3, 18)
  | .flagrd => (3, 19)
  | .flagclr => (3, 20)
  | .cctlIinv => (3, 21)
  | .cctlIinvpg => (3, 21)
  | .cctlTlbpg => (3, 21)
  | .cctlTlball => (3, 21)
  | .fadd => (4, 0)
  | .fsub => (4, 1)
  | .fmul => (4, 2)
  | .fmac => (4, 3)
  | .fmin => (4, 4)
  | .fmax => (4, 5)
  | .fabs => (4, 6)
  | .fneg => (4, 7)
  | .fcmp => (4, 8)
  | .fclass => (4, 9)
  | .frnd => (4, 10)
  | .frcp => (4, 11)
  | .frsq => (4, 12)
  | .fsqrt => (4, 13)
  | .fdiv => (4, 14)
  | .fex2 => (4, 15)
  | .flg2 => (4, 16)
  | .fsin => (4, 17)
  | .fcos => (4, 18)
  | .ftanh => (4, 19)
  | .fdot2 => (4, 20)
  | .fdot4 => (4, 21)
  | .dadd => (5, 0)
  | .dsub => (5, 1)
  | .dmul => (5, 2)
  | .dmac => (5, 3)
  | .dmin => (5, 4)
  | .dmax => (5, 5)
  | .dabs => (5, 6)
  | .dneg => (5, 7)
  | .dcmp => (5, 8)
  | .dclass => (5, 9)
  | .drnd => (5, 10)
  | .drcp => (5, 11)
  | .drsq => (5, 12)
  | .dsqrt => (5, 13)
  | .ddiv => (5, 14)
  | .hadd2 => (6, 0)
  | .hsub2 => (6, 1)
  | .hmul2 => (6, 2)
  | .hmac2 => (6, 3)
  | .hmin2 => (6, 4)
  | .hmax2 => (6, 5)
  | .habs2 => (6, 6)
  | .hneg2 => (6, 7)
  | .hcmp2 => (6, 8)
  | .hclass2 => (6, 9)
  | .hex2 => (6, 10)
  | .hrcp2 => (6, 11)
  | .cvt => (7, 0)
  | .cvtsat => (7, 1)
  | .pack => (7, 2)
  | .unpack => (7, 3)
  | .sdenc => (7, 4)
  | .sddec => (7, 5)
  | .sdhdr => (7, 6)
  | .t5pk => (7, 7)
  | .t5unpk => (7, 8)
  | .lxch => (8, 0)
  | .vote => (8, 1)
  | .ballot => (8, 2)
  | .matchl => (8, 3)
  | .redux => (8, 4)
  | .scan => (8, 5)
  | .ddx => (8, 6)
  | .ddy => (8, 7)
  | .qswz => (8, 8)
  | .ld => (9, 0)
  | .st => (9, 1)
  | .lds => (9, 2)
  | .sts => (9, 3)
  | .ldc => (9, 4)
  | .ldl => (9, 5)
  | .stl => (9, 6)
  | .gath => (9, 7)
  | .scat => (9, 8)
  | .pref => (9, 9)
  | .atom => (9, 10)
  | .red => (9, 11)
  | .cas128 => (9, 12)
  | .fence => (9, 13)
  | .tlrmake => (10, 0)
  | .cpy => (10, 1)
  | .cpym => (10, 2)
  | .cpseal => (10, 3)
  | .cpwait => (10, 4)
  | .bcinitInit => (10, 5)
  | .bcinitArm => (10, 5)
  | .bcwait => (10, 6)
  | .tilecfg => (10, 7)
  | .tilest => (10, 8)
  | .tilerd => (10, 9)
  | .tilewr => (10, 10)
  | .tilerst => (10, 11)
  | .mma => (11, 0)
  | .mmas => (11, 1)
  | .ttq => (11, 2)
  | .ttqClaim => (11, 2)
  | .acalloc => (11, 3)
  | .acfree => (11, 4)
  | .acrd => (11, 5)
  | .acwr => (11, 6)
  | .aczero => (11, 7)
  | .acdrain => (11, 8)
  | .rast => (12, 0)
  | .attr => (12, 1)
  | .trav => (12, 2)
  | .filt => (12, 3)
  | .oblend => (12, 4)
  | .dice => (12, 5)
  | .samps => (12, 6)
  | .bmatch => (12, 7)
  | .barSync => (16, 0)
  | .barArrive => (16, 0)
  | .evset => (16, 1)
  | .evsetClr => (16, 1)
  | .evwait => (16, 2)
  | .evtest => (16, 3)
  | .cont => (17, 0)
  | .resume => (17, 1)
  | .wgres => (17, 2)
  | .wgcommit => (17, 3)
  | .wgcancel => (17, 4)
  | .xrd => (18, 0)
  | .xwr => (18, 1)
  | .eretResume => (18, 2)
  | .eretKill => (18, 2)
  | .eretFdom => (18, 2)
  | .trap => (18, 3)

/-- Row 0 of the opcode map, columns from 0 (06 R152). -/
def opRow0 : List (List Mn) :=
  [[], [.nop], [.bra], [.brx], [.call], [.callx], [.ret], [.exit], [.yield], [.beat], [.enrol], [.park], [.strike], [.demote], [.kill]]

/-- Row 1 of the opcode map, columns from 0 (06 R152). -/
def opRow1 : List (List Mn) :=
  [[.iadd], [.isub], [.imul], [.imulh], [.imac], [.imacw], [.idiv], [.irem], [.imin], [.imax], [.iabs], [.ineg], [.iadd64], [.isub64], [.imul64], [.imac64], [.icmp], [.icmp64], [.sel], [.lea], [.bcnt], [.lzc], [.bitrev], [.idot4]]

/-- Row 2 of the opcode map, columns from 0 (06 R152). -/
def opRow2 : List (List Mn) :=
  [[.and], [.or], [.xor], [.not], [.logic3], [.shl], [.shr], [.sar], [.rot], [.shl64], [.shr64], [.sar64], [.bfe], [.bfi], [.bmsk], [.bperm], [.shfn]]

/-- Row 3 of the opcode map, columns from 0 (06 R152). -/
def opRow3 : List (List Mn) :=
  [[.plop], [.pmov], [.p2v], [.v2p], [.smov], [.siadd], [.simul], [.sand], [.sor], [.sxor], [.sshl], [.sshr], [.scmp], [.v2s], [.s2v], [.srd], [.swr], [.segld], [.segrd], [.flagrd], [.flagclr], [.cctlIinv, .cctlIinvpg, .cctlTlbpg, .cctlTlball]]

/-- Row 4 of the opcode map, columns from 0 (06 R152). -/
def opRow4 : List (List Mn) :=
  [[.fadd], [.fsub], [.fmul], [.fmac], [.fmin], [.fmax], [.fabs], [.fneg], [.fcmp], [.fclass], [.frnd], [.frcp], [.frsq], [.fsqrt], [.fdiv], [.fex2], [.flg2], [.fsin], [.fcos], [.ftanh], [.fdot2], [.fdot4]]

/-- Row 5 of the opcode map, columns from 0 (06 R152). -/
def opRow5 : List (List Mn) :=
  [[.dadd], [.dsub], [.dmul], [.dmac], [.dmin], [.dmax], [.dabs], [.dneg], [.dcmp], [.dclass], [.drnd], [.drcp], [.drsq], [.dsqrt], [.ddiv]]

/-- Row 6 of the opcode map, columns from 0 (06 R152). -/
def opRow6 : List (List Mn) :=
  [[.hadd2], [.hsub2], [.hmul2], [.hmac2], [.hmin2], [.hmax2], [.habs2], [.hneg2], [.hcmp2], [.hclass2], [.hex2], [.hrcp2]]

/-- Row 7 of the opcode map, columns from 0 (06 R152). -/
def opRow7 : List (List Mn) :=
  [[.cvt], [.cvtsat], [.pack], [.unpack], [.sdenc], [.sddec], [.sdhdr], [.t5pk], [.t5unpk]]

/-- Row 8 of the opcode map, columns from 0 (06 R152). -/
def opRow8 : List (List Mn) :=
  [[.lxch], [.vote], [.ballot], [.matchl], [.redux], [.scan], [.ddx], [.ddy], [.qswz]]

/-- Row 9 of the opcode map, columns from 0 (06 R152). -/
def opRow9 : List (List Mn) :=
  [[.ld], [.st], [.lds], [.sts], [.ldc], [.ldl], [.stl], [.gath], [.scat], [.pref], [.atom], [.red], [.cas128], [.fence]]

/-- Row 10 of the opcode map, columns from 0 (06 R152). -/
def opRow10 : List (List Mn) :=
  [[.tlrmake], [.cpy], [.cpym], [.cpseal], [.cpwait], [.bcinitInit, .bcinitArm], [.bcwait], [.tilecfg], [.tilest], [.tilerd], [.tilewr], [.tilerst]]

/-- Row 11 of the opcode map, columns from 0 (06 R152). -/
def opRow11 : List (List Mn) :=
  [[.mma], [.mmas], [.ttq, .ttqClaim], [.acalloc], [.acfree], [.acrd], [.acwr], [.aczero], [.acdrain]]

/-- Row 12 of the opcode map, columns from 0 (06 R152). -/
def opRow12 : List (List Mn) :=
  [[.rast], [.attr], [.trav], [.filt], [.oblend], [.dice], [.samps], [.bmatch]]

/-- Row 16 of the opcode map, columns from 0 (06 R152). -/
def opRow16 : List (List Mn) :=
  [[.barSync, .barArrive], [.evset, .evsetClr], [.evwait], [.evtest]]

/-- Row 17 of the opcode map, columns from 0 (06 R152). -/
def opRow17 : List (List Mn) :=
  [[.cont], [.resume], [.wgres], [.wgcommit], [.wgcancel]]

/-- Row 18 of the opcode map, columns from 0 (06 R152). -/
def opRow18 : List (List Mn) :=
  [[.xrd], [.xwr], [.eretResume, .eretKill, .eretFdom], [.trap]]
/-- The map's rows that hold instructions (06 R152). -/
def opRow (r : Nat) : List (List Mn) :=
  match r with
  | 0 => opRow0 | 1 => opRow1 | 2 => opRow2 | 3 => opRow3 | 4 => opRow4 | 5 => opRow5 | 6 => opRow6 | 7 => opRow7
  | 8 => opRow8 | 9 => opRow9 | 10 => opRow10 | 11 => opRow11 | 12 => opRow12 | 16 => opRow16 | 17 => opRow17 | 18 => opRow18
  | _ => []

/-- The rows of one opcode that its MOD value selects: at most one (06 R152). -/
def selectMn (opc : Nat) (o : Op) : Option Mn :=
  (((opRow (opc / 32))[opc % 32]?).getD []).find? (fun m => m.selOk o)

/-- The opcode number of a mnemonic (06 R151). -/
def Mn.opc (m : Mn) : Nat := 32 * m.slot.1 + m.slot.2

/-- The operand record of a word's fields. -/
def opOfFields (imm md c b a dst gp gn wbs la lb lc yl ch setf wait stall : Nat) : Option Op :=
  match decodeDst dst with
  | none => none
  | some d =>
    some { ctl := { stall := BitVec.ofNat 4 stall, wait := BitVec.ofNat 12 wait, setf := BitVec.ofNat 4 setf, chain := ch == 1, yield := yl == 1,
                    lastC := lc == 1, lastB := lb == 1, lastA := la == 1, wbs := wbs == 1 },
           gneg := gn == 1, gpred := BitVec.ofNat 3 gp, dst := d, a := decodeSrc a, b := decodeSrc b, c := decodeSrc c,
           md := BitVec.ofNat 11 md, imm := BitVec.ofNat 32 imm }

/-- The instruction of an opcode and a record. -/
def instrOf (opc : Nat) (o : Op) : Except DecodeError Instr :=
  if opc = 0 ∨ 992 ≤ opc then .error .permanentlyIllegal
  else if 0x1A0 ≤ opc ∧ opc < 0x200 then
    let i := Instr.extensibleOpcode (BitVec.ofNat 7 (opc - 0x1A0)) o
    if wellFormed i then .ok i else .error .illFormed
  else
    match selectMn opc o with
    | none => .error .reservedOpcode
    | some m => if wellFormed (m.build o) then .ok (m.build o) else .error .illFormed

/-- The decoder of an instruction word (06 R141 to R153). -/
def decodeWord (w : IWord) : Except DecodeError Instr :=
  match unpack wordWidths w.toNat with
  | [imm, md, c, b, a, dst, gp, gn, opc, rsv, wbs, la, lb, lc, yl, ch, setf, wait, stall] =>
    if rsv ≠ 0 then .error .reservedControl
    else
      match opOfFields imm md c b a dst gp gn wbs la lb lc yl ch setf wait stall with
      | none => .error .reservedDst
      | some o => instrOf opc o
  | _ => .error .length

/-- Sixteen bytes, the lowest address first, as a word (06 R140). -/
def wordOfBytes : List Byte → Nat
  | [] => 0
  | b :: r => b.toNat + 256 * wordOfBytes r

/-- The `n` bytes of a number, the lowest first (00 R8). -/
def bytesOfNat : Nat → Nat → List Byte
  | 0, _ => []
  | n + 1, x => BitVec.ofNat 8 x :: bytesOfNat n (x / 256)

/-- The decoder on bytes (06 R140). -/
def decodeBytes (bs : List Byte) : Except DecodeError Instr :=
  if bs.length = 16 then decodeWord (BitVec.ofNat 128 (wordOfBytes bs)) else .error .length

/-- The word of an opcode and a record (06 R141). -/
def encodeOp (opc : Nat) (o : Op) : IWord :=
  BitVec.ofNat 128 (pack
    [(32, o.imm.toNat), (11, o.md.toNat), (10, encodeSrc o.c), (10, encodeSrc o.b), (10, encodeSrc o.a), (9, encodeDst o.dst), (3, o.gpred.toNat), (1, o.gneg.toNat),
     (10, opc), (6, 0), (1, o.ctl.wbs.toNat), (1, o.ctl.lastA.toNat), (1, o.ctl.lastB.toNat), (1, o.ctl.lastC.toNat), (1, o.ctl.yield.toNat), (1, o.ctl.chain.toNat),
     (4, o.ctl.setf.toNat), (12, o.ctl.wait.toNat), (4, o.ctl.stall.toNat)])

/-- The word of an instruction; none for a step that has no instruction word. -/
def encode (i : Instr) : Option IWord :=
  match i with
  | .extensibleOpcode n o => some (encodeOp (0x1A0 + n.toNat) o)
  | i => i.mnOp?.map (fun p => encodeOp p.1.opc p.2)

/-- The bytes of a well-formed instruction, the lowest address first (06 R140). -/
def encodeBytes (i : Instr) : Option (List Byte) := (encode i).map (fun w => bytesOfNat 16 w.toNat)

/-- The host's question: what the decoder reads from the bits of a table row. -/
def decodeTableWord (nbits w : Nat) : Option Instr :=
  match decodeBytes (bytesOfNat 16 (w % 2 ^ nbits)) with
  | .ok i => some i
  | .error _ => none

end Sys2Proof
end

