-- ==== Sys2Proof/Machine/Frame.lean ====
section
/-! DEFINITION. The words of the records a block leaves in its frame: warp control records and lane records (16 R420), which XRD and XWR see as well, and trap descriptors (R406). -/

namespace Sys2Proof.Machine

/-- STATE of a lane record. -/
def TState.code (t : TState) : Nat := match t with
  | .blocked (.bar _ _) => 1
  | .parked _ => 2
  | .faultWait => 3
  | .exited => 4
  | _ => 0

/-- Word `i` of a lane record. -/
def Thread.recWord (t : Thread) (i : Nat) : Word :=
  match i with
  | 0 => t.pc.setWidth 32
  | 1 => (t.pc >>> 32).setWidth 32
  | 2 =>
    let j := match t.st with
      | .parked j => j
      | _ => 0
    let b := match t.st with
      | .blocked (.bar n _) => n
      | _ => 0
    BitVec.ofNat 32 (j * 2 ^ 16 + b * 2 ^ 12 + (if t.helper then 2 ^ 11 else 0) + t.st.code * 2 ^ 8 + 2 ^ 7 + t.preds.toNat)
  | 3 => t.copyst
  | 4 => BitVec.ofNat 32 t.sealedB.length
  | _ => 0

/-- The live mask of a name (07 R178). -/
def Warp.liveMask (w : Warp) (n : Nat) : Word := maskOf ((List.range 32).filter (fun l => w.v.has (vk n l)))

/-- Half `i` of a 64-bit value. -/
def halfOf (v : DWord) (hi : Bool) : Word := if hi then (v >>> 32).setWidth 32 else v.setWidth 32

/-- SEQs a warp waits for. -/
def Warp.faultSeqs (w : Warp) : List Nat := (w.fault.map (·.seqs)).getD []

/-- Word `i` of the warp control record; `t`: a trap queued for the warp and not yet served. -/
def Warp.ctlWord (w : Warp) (t : Option Trap) (i : Nat) : Word :=
  if i = 0 then w.faultmask
  else if i = 1 then BitVec.ofNat 32 (2 ^ 31 + (match t with
    | some t => 2 ^ 30 + t.cause * 2 ^ 16 + t.swnum * 2 ^ 8
    | none => 0))
  else if i = 2 then BitVec.ofNat 32 (w.loc.toNat * 2 ^ 8 + w.summary.toNat)
  else if i = 4 then BitVec.ofNat 32 ((List.range 8).foldl (fun v k => v + w.flagCount k * 2 ^ (4 * k)) 0)
  else if i = 5 then BitVec.ofNat 32 ((List.range 4).foldl (fun v k => v + w.flagCount (8 + k) * 2 ^ (4 * k)) 0)
  else if 6 ≤ i ∧ i < 22 then (if i % 2 = 0 then (w.jmask ((i - 6) / 2)).2 else (w.jmask ((i - 6) / 2)).1)
  else if 22 ≤ i ∧ i < 46 then w.sreg (i - 22)
  else if 46 ≤ i ∧ i < 78 then
    let s := w.segment ((i - 46) / 4)
    halfOf (if (i - 46) / 2 % 2 = 0 then s.1 else s.2) (i % 2 = 1)
  else if 78 ≤ i ∧ i < 86 then BitVec.ofNat 32 (w.res.get (2 * (i - 78)) 0 + w.res.get (2 * (i - 78) + 1) 0 * 2 ^ 16)
  else if i = 86 then BitVec.ofNat 32 w.faultSeqs.length
  else if 88 ≤ i ∧ i < 256 then halfOf (BitVec.ofNat 64 (w.faultSeqs.getD ((i - 88) / 2) 0)) (i % 2 = 1)
  else if 256 ≤ i ∧ i < 512 then (w.thread ((i - 256) / 8)).recWord ((i - 256) % 8)
  else if 512 ≤ i ∧ i < 768 then w.liveMask (i - 512)
  else 0

/-- The trap of a warp that waits in its core's queue. -/
def Mach.queuedTrap (m : Mach) (core slot : Nat) : Option Trap := (m.core core).trapq.find? (fun t => t.slots.contains slot)

/-- Word `i` of the descriptor of a trap (R406). -/
def Trap.word (t : Trap) (i : Nat) : Word :=
  match i with
  | 0 => BitVec.ofNat 32 (t.cause * 2 ^ 24 + t.swnum * 2 ^ 16 + t.slots.length % 64)
  | 1 => t.tpc.setWidth 32
  | 2 => (t.tpc >>> 32).setWidth 32
  | 3 => t.members
  | _ => if 16 ≤ i then BitVec.ofNat 32 (t.slots.getD (i - 16) 0) else 0

/-! ### Writing words in turn -/

/-- 32-bit words paired into 64-bit ones. -/
def pairUp : List Word → List Nat
  | a :: b :: r => (a.toNat + b.toNat * 2 ^ 32) :: pairUp r
  | [a] => [a.toNat]
  | [] => []

/-- The warp control record. -/
def Warp.ctlRecord (w : Warp) (t : Option Trap) : List Nat := pairUp ((List.range 768).map (w.ctlWord t))

/-- The vector image: lane 0 to 31 of a name, at 128 bytes a name. -/
def Warp.vecWords (w : Warp) (n : Nat) : List Nat := pairUp ((List.range 32).map (fun l => w.vreg n l))

end Sys2Proof.Machine
end

