-- ==== Sys2Proof/Machine/Dump.lean ====
section
/-! DEFINITION. The double fault and the frog dump (16 R407, R431). -/

namespace Sys2Proof.Machine

/-- Blocks of a partition in some state. -/
def Mach.blocksIn (m : Mach) (part : Nat) (p : Block → Bool) : List (Nat × Block) := m.blocks.filter (fun b => m.partOf b.2 = part && p b.2)

/-! ### The dump (R431) -/

/-- The header: what the entry of `Part.dumps` recorded at the double fault, and the counts. -/
def dumpHeader (e : Fw) (part nframe ncore : Nat) (d : List Nat) : List Nat :=
  [0x46524F47 * 2 ^ 32 + 1, e.image.statever.toNat * 2 ^ 32 + part * 2 ^ 12 + dw d 0, dw d 1, dw d 2 * 2 ^ 56 + dw d 3 * 2 ^ 48, dw d 4, nframe * 2 ^ 32 + ncore,
   0x1000, 0x1000 + 0x10000 * ncore] ++ (List.range 16).map (fun s => dw d (5 + s))

/-- A sequencer's record: its image, and the macro-instruction it runs. -/
def seqRecord (e : Fw) (m : Mach) (core seq : Nat) : List Nat :=
  let i := e.imageOn m core
  let fenced := if (m.core core).seqFence.contains seq then 2 ^ 63 else 0
  let d2 := match m.macros.find? (fun x => x.2.core = core && x.2.seq = seq) with
    | some x =>
      let l := x.2.lanes.find? (fun l => l.ending.isNone)
      (x.2.mn.slot.1 * 32 + x.2.mn.slot.2) * 2 ^ 32 + ((l.map (·.slot)).getD 0) * 2 ^ 16 + ((l.map (·.lane)).getD 0) * 2 ^ 8 + ((l.map (·.steps)).getD 0) % 256
    | none => 0
  [i.version.toNat, i.statever.toNat, fenced + d2]

/-- A core's section, in a partition's dump region. -/
def Mach.putCore (e : Fw) (m : Mach) (part base core : Nat) : Mach :=
  let w := m.warp core handlerSlot
  let m1 := firmwarePut e part m base (w.ctlRecord none)
  let m1 := (List.range 256).foldl (fun t n => firmwarePut e part t (base + 0x1000 + 128 * n) (w.vecWords n)) m1
  let m1 := firmwarePut e part m1 (base + 0x9000) ((m.core core).trapq.flatMap (fun q => pairUp ((List.range 4).map q.word)))
  let m1 := firmwarePut e part m1 (base + 0x9800) (seqRecord e m core 0)
  let m1 := firmwarePut e part m1 (base + 0x9840) (seqRecord e m core 1)
  firmwarePut e part m1 (base + 0x9C00) [(m.core core).fence.toNat]

/-- A dump of a partition is written; the list names the frames held by its saves. -/
def Mach.writeDump (e : Fw) (m : Mach) (part : Nat) (d : List Nat) : Mach :=
  let cs := coresOf (e.part part).cores
  let held := m.blocksIn part (fun b => b.st = .held && b.why = 4)
  let base := (e.part part).dump
  let m := firmwarePut e part m base (dumpHeader e part held.length cs.length d)
  let m := (cs.mapIdx (fun i c => (i, c))).foldl (fun m c => m.putCore e part (base + 0x1000 + 0x10000 * c.1) c.2) m
  firmwarePut e part m (base + 0x1000 + 0x10000 * cs.length) (held.map (fun b => m.frameAddr b.2))

/-- Once every save the dump asked for has ended, and with it the quiescing of the blocks' copies, the oldest dump asked for is written, domain 0 is contained, and the slot of its core serves again: from the writing to the containment no engine moves. No rule starts the partition's admission again. -/
def Mach.goOnDump (e : Fw) (m : Mach) (part : Nat) : Mach :=
  match (m.part part).dumps with
  | [] => m
  | d :: r =>
    if !(m.blocksIn part (fun b => (b.st = .resident || b.st = .saving) && b.why = 4)).isEmpty then m
    else
      let m := (m.writeDump e part d).modPart part (fun p => { p with dumps := r })
      let m := m.contain e part 0 (dw d 21)
      m.modCore (dw d 0) (fun c => { c with handlerDead := false })

/-! ### The double fault (R407) -/

/-- The first fetch of a service met a cause: the slot stops, HANDLER_FETCH is logged, admission stops and every resident block is to be saved with WHY 4. -/
def Mach.doubleFault (e : Fw) (m : Mach) (core cause : Nat) : Mach :=
  match e.ownerOf core with
  | none => m
  | some part =>
    let entry := (e.part part).handler.toNat
    let tr := (m.core core).service.map (·.trap)
    let m := m.partLog part [431, 0x30, core, entry, cause, (e.part part).dump]
    let m := m.modPart part (fun p => { p with
      noAdmit := true,
      dumps := p.dumps ++ [[core, entry, cause, (tr.map (fun (t : Trap) => t.cause)).getD 0, ((tr.map (fun (t : Trap) => t.tpc)).getD 0).toNat] ++ (List.range 16).map (fun s => (m.shard s).cycle) ++ [(tr.bind (fun t => t.bundle)).getD 0]] })
    let m := m.modCore core (fun c => { c with handlerDead := true, service := none })
    let m := (m.endHandler core).modWarp core handlerSlot (fun w => { w with fault := none })
    let m := { m with blocks := m.blocks.mapVal (fun (b : Block) =>
      if decide (m.partOf b = part ∧ b.st = BlkSt.resident) then { b with preempt := true, why := 4, deadline := (m.shard (shardOf b.core)).cycle } else b) }
    m.goOnDump e part

end Sys2Proof.Machine
end

