-- ==== Sys2Proof/Machine/Group.lean ====
section
/-! DEFINITION. Fetching, the building and choosing of groups, and a cycle of a slice (07 R170 to R176, R181, R185, R187, R193, R194; 08 R204, R209; 16 R404, R407). -/

namespace Sys2Proof.Machine

/-! ### Fetch (08 R204) -/

/-- What a fetch gives: a word, or a cause. -/
inductive Fetched where
  | word (w : IWord)
  | fault (cause : Nat)
  deriving DecidableEq, Repr

def pcKey (pc : DWord) : Nat := pc.toNat % 2 ^ 57

/-- A fetch through memory; the line enters the core's instruction cache. -/
def fetchMem (e : Fw) (m : Mach) (core slice part : Nat) (pc : DWord) : Mach × Fetched :=
  match translate e m core part pc.toNat .fetch slice with
  | (m1, .err c) => (m1, .fault c)
  | (m1, .ok pa _) =>
    let w := BitVec.ofNat 128 (memRead m1.mem pa 16)
    (m1.modCore core (fun c => { c with icache := c.icache.set (pcKey pc) w }), .word w)

/-- The word memory holds at an address now. -/
def wordNow (e : Fw) (m : Mach) (part : Nat) (pc : DWord) : Option IWord :=
  match peekXl e m part pc.toNat .fetch with
  | .ok pa _ => some (BitVec.ofNat 128 (memRead m.mem pa 16))
  | .err _ => none

/-- A fetch (R204): a line the core's cache still holds may serve although memory has changed; whether it is still held is a free choice. -/
def fetch (e : Fw) (m : Mach) (core slice part : Nat) (pc : DWord) : Mach × Fetched :=
  match (m.core core).icache.get? (pcKey pc) with
  | none => fetchMem e m core slice part pc
  | some w =>
    if wordNow e m part pc = some w then (m, .word w)
    else if Config.choose m.fresh then ({ m with fresh := m.fresh + 1 }, .word w)
    else fetchMem e { m with fresh := m.fresh + 1 } core slice part pc

/-! ### Readiness (07 R170) -/

/-- Fields of the control word that bear on readiness, whatever the rest of the word holds (06 R141). -/
def wordStall (w : IWord) : Nat := bits w.toNat 127 124
def wordWait (w : IWord) : Nat := bits w.toNat 123 112
def wordSetf (w : IWord) : Nat := bits w.toNat 111 108

/-- Mnemonic and operands of a word, where it has them. -/
def wordMn (w : IWord) : Option (Mn × Op) :=
  match decodeWord w with
  | .ok i => i.mnOp?
  | .error _ => none

/-- The price of a word: its entry's, or what the running image states for an extensible slot (06 R154, R156; 03 R85). -/
def wordPrice (e : Fw) (m : Mach) (core : Nat) (w : IWord) : Nat :=
  match decodeWord w with
  | .ok (.extensibleOpcode n _) => (e.imageOn m core).price n.toNat
  | .ok i => (i.mnOp?.map (fun k => (k.1.spec k.2).price)).getD 0
  | .error _ => 0

/-- Stall and wait (R170). -/
def Thread.timed (t : Thread) (cyc : Nat) (w : IWord) : Bool := t.lastIssue = 0 || t.lastIssue + max (wordStall w) 1 ≤ cyc

def Warp.flagsOk (w : Warp) (x : IWord) : Bool :=
  (List.range 12).all (fun k => !bit (wordWait x) k || w.flagCount k = 0) && (12 ≤ wordSetf x || w.flagCount (wordSetf x) < 15)

/-- MMA, MMAS and macro-instructions are not issued under $PREEMPT (R170). -/
def heldByPreempt (k : Mn) : Bool := k.isMacro || k = .mma || k = .mmas

/-- The block's state lets its threads issue. -/
def blockOk (m : Mach) (core slot : Nat) (k : Option (Mn × Op)) : Bool :=
  slot = handlerSlot ||
  (match m.blocks.get? (m.warp core slot).blk with
   | some b => b.st = .resident && b.reissue.isEmpty && !(b.preempt && (match k with
     | some (n, _) => heldByPreempt n
     | none => false))
   | none => false)

/-- An instruction that is to be replayed by a warp, by those of its threads that are no longer in FAULTWAIT for it: its records resolved, or returned from the handler (10 R272, R273; 16 R411). -/
def Warp.replayable (w : Warp) : Option FaultRec :=
  match w.fault with
  | some f => if !w.stopped && !f.handler && !f.whole then some f else none
  | none => none

/-- A warp none of whose instructions is incomplete, not stopped (16 R405; log 18). -/
def Warp.free (w : Warp) : Bool := !w.stopped && w.fault = none

/-- The lane's thread replays the instruction at its program counter. -/
def Warp.replays (w : Warp) (l : Nat) : Bool := match w.replayable with
  | some f => laneBit f.members l && (w.thread l).pc = f.pc
  | none => false

/-- The thread may issue the word at its program counter (R170). A replay's flag is armed already (10 R273). -/
def readyThread (e : Fw) (m : Mach) (core slot : Nat) (w : Warp) (cyc : Nat) (x : IWord) (k : Option (Mn × Op)) (l : Nat) : Bool :=
  let t := w.thread l
  t.st = .atPc && ((w.free && t.timed cyc x && w.flagsOk x) || w.replays l) && blockOk m core slot k &&
  (match k with
   | some (n, o) => interlockOk e m core slot t n o
   | none => true)

/-! ### Candidates (07 R173, R174, R185, R187) -/

/-- A candidate group: its place, its word, its members by rising lane, the key of its oldest member, and the slots whose members replay. -/
structure Cand where
  pc : DWord
  got : Fetched
  members : List Member
  stamp : Nat
  oldest : Member
  replays : List Nat
  price : Nat := 0
  deriving DecidableEq, Repr

/-- A thread with its place and stamp. -/
structure Stand where
  x : Member
  stamp : Nat
  pc : DWord
  launch : Nat × Nat
  replay : Bool
  deriving DecidableEq, Repr

/-- The key (arrival stamp, warp number) as one number. The warp number is the slot on the core, by which no two warps of a slice are equal, as two of different blocks may be by $WARP (08 R224): the model's choice (log 106). -/
def Stand.key (s : Stand) : Nat := s.stamp * 128 + s.x.slot

/-- Warps of a slice, the handler's aside. -/
def Mach.warpsOn (m : Mach) (core slice : Nat) : List (Nat × Warp) :=
  (List.range handlerSlot).filterMap (fun slot => ((m.warps.get? (wk core slot)).filter (fun w => w.slice = slice)).map (fun w => (slot, w)))

/-- Threads of a slice at a program counter that may issue or replay there, whatever their readiness. -/
def Mach.stands (m : Mach) (core slice : Nat) : List Stand :=
  (m.warpsOn core slice).flatMap (fun w =>
    let l := match m.blocks.get? w.2.blk with
      | some b => (b.bundle, b.launch)
      | none => (0, 0)
    (w.2.threads.filter (fun t => t.2.st = .atPc && (w.2.free || w.2.replays t.1))).map (fun t =>
      { x := { slot := w.1, lane := t.1 }, stamp := t.2.stamp, pc := t.2.pc, launch := l, replay := w.2.replays t.1 }))

/-- The oldest of a list of stands. -/
def oldestOf (ss : List Stand) : Option Stand := argmin (fun s => s.key * 32 + s.x.lane) ss

/-- The candidate of a list of chosen stands. -/
def candOf (pc : DWord) (got : Fetched) (ss : List Stand) : Option Cand :=
  (oldestOf ss).map (fun o => { pc, got, members := ss.map (·.x), stamp := o.stamp, oldest := o.x, replays := ((ss.filter (·.replay)).map (·.x.slot)).eraseDups })

/-- By lane: the smallest key in each (R174). -/
def takeLanes (ready : List Stand) : List Stand :=
  (List.range 32).filterMap (fun l => argmin Stand.key (ready.filter (fun s => s.x.lane = l)))

/-- The slots in which a quad's threads at the place are READY every one; for a derivative every thread of the quad not EXITED must be there (R187). -/
def quadSlots (m : Mach) (core : Nat) (deriv : Bool) (here ready : List Stand) (k : Nat) : List Nat :=
  let inQ (s : Stand) : Bool := s.x.lane / 4 = k
  (((here.filter inQ).map (·.x.slot)).eraseDups).filter (fun sl =>
    let hs := here.filter (fun s => inQ s && s.x.slot = sl)
    hs.all (fun s => ready.contains s) &&
    (!deriv || (List.range 4).all (fun i => ((m.warp core sl).thread (4 * k + i)).st = .exited || hs.any (fun s => s.x.lane = 4 * k + i))))

/-- By quad: among the warps that qualify the one with the smallest key (R187). -/
def takeQuads (m : Mach) (core : Nat) (deriv : Bool) (here ready : List Stand) : List Stand :=
  (List.range 8).flatMap (fun k =>
    let of (sl : Nat) : List Stand := ready.filter (fun s => s.x.lane / 4 = k && s.x.slot = sl)
    match argmin (fun sl => (((of sl).map Stand.key).min?).getD 0) (quadSlots m core deriv here ready k) with
    | some sl => of sl
    | none => [])

/-- By warp: every thread of one warp at the place, READY every one; among the warps the smallest key (R185). -/
def takeWarp (here ready : List Stand) : List Stand :=
  let ok := ((here.map (·.x.slot)).eraseDups).filter (fun sl => (here.filter (fun s => s.x.slot = sl)).all (fun s => ready.contains s))
  match argmin (fun sl => (((ready.filter (fun s => s.x.slot = sl)).map Stand.key).min?).getD 0) ok with
  | some sl => ready.filter (fun s => s.x.slot = sl)
  | none => []

/-- Instructions through which lanes exchange values, and whose group is of one warp (09 R251). -/
def exchanges : Mn → Bool
  | .lxch | .vote | .ballot | .matchl | .redux | .scan | .qswz | .sdenc | .sddec => true
  | _ => false

/-- READY threads of the warp whose thread has the smallest key (09 R251). -/
def oneWarp (ss : List Stand) : List Stand :=
  match oldestOf ss with
  | some o => ss.filter (fun s => s.x.slot = o.x.slot)
  | none => []

/-- The threads that the candidate of one place takes. In a quad launch only whole quads are READY for it. -/
def takeFor (m : Mach) (core : Nat) (quad : Bool) (k : Option (Mn × Op)) (here ready : List Stand) : List Stand :=
  let deriv : Bool := match k with
    | some (n, _) => n = .ddx || n = .ddy
    | none => false
  let able := if quad then ready.filter (fun s => (quadSlots m core deriv here ready (s.x.lane / 4)).contains s.x.slot) else ready
  match k with
  | some (n, o) =>
    if onScalarPipe n o then takeWarp here ready
    else if exchanges n then oneWarp able
    else if quad then takeQuads m core deriv here ready
    else takeLanes ready
  | none => if quad then takeQuads m core false here ready else takeLanes ready

/-- The candidate of one place. -/
def candAt (e : Fw) (m : Mach) (core slice : Nat) (pc : DWord) (quad : Bool) (here : List Stand) (got : Fetched) : Option Cand :=
  match got with
  | .fault _ => candOf pc got (takeLanes (here.filter (fun s => blockOk m core s.x.slot none)))
  | .word w =>
    let k := wordMn w
    let cyc := (m.slc core slice).cyc
    let ready := here.filter (fun s => readyThread e m core s.x.slot (m.warp core s.x.slot) cyc w k s.x.lane)
    (candOf pc got (takeFor m core quad k here ready)).map (fun c => { c with price := wordPrice e m core w })

/-- The places of a list of stands: launch and program counter. -/
def places (ss : List Stand) : List ((Nat × Nat) × DWord) := (ss.map (fun s => (s.launch, s.pc))).eraseDups

def isQuad (m : Mach) (l : Nat × Nat) : Bool := (((m.bundles.get? l.1).bind (fun b => b.launches.get? l.2)).map Launch.quad).getD false

/-- The word that a standing thread has been fetched already (08 R229). -/
def Mach.heldWord (m : Mach) (core slice : Nat) (s : Stand) : Option IWord :=
  ((m.slc core slice).held.get? (vk s.x.slot s.x.lane)).bind (fun h => if h.1 = s.pc then some h.2 else none)

/-- The word of a place: the threads that hold none are fetched one together. Where threads hold different words, the place goes by its oldest thread's, and the others wait (log 88). -/
def fetchPlace (e : Fw) (m : Mach) (core slice part : Nat) (pc : DWord) (here : List Stand) : Mach × List Stand × Fetched :=
  let bare := here.filter (fun s => (m.heldWord core slice s).isNone)
  let r := if bare = [] then (m, .fault 0) else fetch e m core slice part pc
  let word (s : Stand) : Fetched := match m.heldWord core slice s with
    | some w => .word w
    | none => r.2
  let got := ((oldestOf here).map word).getD r.2
  let m1 := match r.2 with
    | .word w => if bare = [] then r.1 else r.1.modSlc core slice (fun x => { x with held := bare.foldl (fun t s => t.set (vk s.x.slot s.x.lane) (pc, w)) x.held })
    | .fault _ => r.1
  (m1, here.filter (fun s => word s = got), got)

/-- Candidates of the places, in order, each fetched. -/
def placeCands (e : Fw) (core slice part : Nat) (ss : List Stand) : Mach → List ((Nat × Nat) × DWord) → Mach × List Cand
  | m, [] => (m, [])
  | m, p :: r =>
    let f := fetchPlace e m core slice part p.2 (ss.filter (fun s => s.launch = p.1 && s.pc = p.2))
    let (m2, cs) := placeCands e core slice part ss f.1 r
    (m2, (candAt e f.1 core slice p.2 (isQuad f.1 p.1) f.2.1 f.2.2).toList ++ cs)

/-! ### The handler's candidates (16 R404) -/

def Mach.handlerStands (m : Mach) (core : Nat) : List Stand :=
  if !m.handlerActive core then []
  else ((m.warp core handlerSlot).threads.filter (fun t => t.2.st = .atPc)).map (fun t => { x := { slot := handlerSlot, lane := t.1 }, stamp := t.2.stamp, pc := t.2.pc, launch := (0, 0), replay := false })

/-! ### Tokens and the choice (07 R175, R193, R194) -/

def Cand.mnOp (c : Cand) : Option (Mn × Op) := match c.got with
  | .word w => wordMn w
  | .fault _ => none

/-- The candidate has a set-aside (R194). -/
def Cand.setAside (c : Cand) (s : Slice) : Bool := match s.mark with
  | some k => k.isFor c.pc (some c.oldest) && k.set
  | none => false

/-- Accounts below the root that the candidate's launch charges. -/
def Cand.nodeKeys (c : Cand) (m : Mach) (core : Nat) : List Nat :=
  match (m.blockOf core c.oldest.slot).bind (fun b => m.bundles.get? b.bundle) with
  | some b => b.nodeKeys
  | none => []

/-- R193. -/
def Cand.holds (c : Cand) (m : Mach) (core slice : Nat) : Bool :=
  let cap := (m.shard (shardOf core)).drawcap.toNat
  c.price = 0 || cap < c.price || c.setAside (m.slc core slice) ||
  (c.price ≤ (m.core core).bank && (c.nodeKeys m core).all (fun k => c.price ≤ (m.shard (shardOf core)).nodes.get k 0))

/-- FP64 instructions that occupy the slice for two cycles (09 R231). -/
def isFp64 (k : Mn) : Bool := k.slot.1 = 5 && k ≠ .dabs && k ≠ .dneg

def Cand.key (c : Cand) : Nat := c.stamp * 128 + c.oldest.slot

/-- A key for the time a candidate has waited for tokens. -/
def Cand.starveKey (c : Cand) : Nat := pcKey c.pc * 4096 + c.oldest.slot * 32 + c.oldest.lane

/-- Candidates that are READY without their tokens are noted with the shard cycle since which they have been (R194). -/
def countStarve (m : Mach) (core slice : Nat) (cs : List Cand) : Mach :=
  let poor := cs.filter (fun c => !c.holds m core slice)
  let now := (m.shard (shardOf core)).cycle
  m.modSlc core slice (fun s => { s with starve := poor.foldl (fun t c => t.set c.starveKey (s.starve.get c.starveKey now)) [] })

/-- The slice's choice: a group with a set-aside first, then the smallest key (R175, R194). -/
def choose (m : Mach) (core slice : Nat) (cs : List Cand) : Option Cand :=
  let s := m.slc core slice
  let able := cs.filter (fun c => c.holds m core slice)
  match argmin Cand.key (able.filter (fun c => c.setAside s)) with
  | some c => some c
  | none => argmin Cand.key able

/-! ### A cycle of a slice -/

/-- Issue cycles allowed in every 8, by throttle step (05 R138). -/
def throttleAllows (step : Nat) : Nat :=
  match step with
  | 0 => 8
  | 1 => 7
  | 2 => 6
  | 3 => 4
  | _ => 2

/-- The yield point of a YIELD control bit (08 R209). -/
def Mach.yieldPoints (m : Mach) (core slice : Nat) : Mach :=
  (m.warpsOn core slice).foldl (fun m w =>
    let pre := ((m.blocks.get? w.2.blk).map (·.preempt)).getD false
    if w.2.threads.any (fun t => t.2.yieldDue && t.2.st = .atPc) then
      m.modWarp core w.1 (fun x => { x with threads := x.threads.mapVal (fun (t : Thread) =>
        if t.yieldDue && t.st = TState.atPc then { t with yieldDue := false, st := if pre then TState.blocked .yieldPoint else t.st } else t) })
    else m) m

/-- The candidate is the next group of the chain. -/
def Cand.ofChain (c : Cand) (k : Chain) : Bool := c.pc = k.next && c.members = k.members

/-- The members of a chain all stand where it goes on. -/
def Mach.chainWhole (m : Mach) (core : Nat) (c : Chain) : Bool :=
  c.members.all (fun x => x.slot ≤ handlerSlot && ((m.warp core x.slot).thread x.lane).st = .atPc && ((m.warp core x.slot).thread x.lane).pc = c.next && !(m.warp core x.slot).stopped)

/-- The chain's next group: its members, every one of them READY (R181); an exchange instruction that continues a chain keeps them all, of however many warps (log 107). -/
def chainCand (e : Fw) (m : Mach) (core slice part : Nat) (c : Chain) : Mach × Option Cand :=
  let ss := c.members.map (fun x => { x, stamp := ((m.warp core x.slot).thread x.lane).stamp, pc := c.next, launch := (0, 0), replay := false : Stand })
  let f := fetchPlace e m core slice part c.next ss
  let ok := match f.2.2 with
    | .fault _ => true
    | .word w => c.members.all (fun x => readyThread e f.1 core x.slot (f.1.warp core x.slot) (f.1.slc core slice).cyc w (wordMn w) x.lane)
  let price := match f.2.2 with
    | .word w => wordPrice e f.1 core w
    | .fault _ => 0
  (f.1, if ok then (candOf c.next f.2.2 ss).map (fun k => { k with members := c.members, price }) else none)

/-- CPY and CPYM wait while their executing members would take a block above 256 copies (11 R289). -/
def Cand.copyHeld (c : Cand) (m : Mach) (core : Nat) : Bool :=
  match c.mnOp with
  | some (k, o) =>
    (k = .cpy || k = .cpym) &&
    (let ms := c.members.filter (fun x => if c.replays.contains x.slot then !(laneBit (m.warp core x.slot).faultmask x.lane) else Grp.guardOf m core o x)
     ((ms.map (fun x => (m.warp core x.slot).blk)).eraseDups).any (fun b => 256 < m.copiesOf b + (ms.filter (fun x => (m.warp core x.slot).blk = b)).length))
  | none => false

/-- All the slice's candidates (R174; 16 R404). -/
def candidates (e : Fw) (m : Mach) (core slice part : Nat) : Mach × List Cand :=
  let hs := if slice = 0 then m.handlerStands core else []
  let h := placeCands e core slice part hs m (places hs)
  let ss := h.1.stands core slice
  let a := placeCands e core slice part ss h.1 (places ss)
  (a.1, h.2 ++ a.2.filter (fun c => !c.copyHeld a.1 core))

/-- The candidate belongs to the handler warp. -/
def Cand.isHandler (c : Cand) : Bool := c.oldest.slot = handlerSlot

/-- The slice's cycle begins, and write-backs due take place. -/
def Mach.tick (e : Fw) (m : Mach) (core slice : Nat) : Mach :=
  (((((m.beginTurn e core slice).syncUsage e).applyWbs e core slice).yieldPoints core slice).grantAcc core).syncStall core

/-- The slice may issue in this cycle (05 R139; 09 R231). The index of a slice cycle is the count of those before it. -/
def Mach.mayIssue (m : Mach) (core slice : Nat) : Bool :=
  let sh := m.shard (shardOf core)
  !sh.stopped && (m.slc core slice).fp64 ≤ (m.slc core slice).cyc && ((m.slc core slice).cyc - 1) % 8 < throttleAllows sh.thstep

/-- The candidates of this cycle, the chain's among them, and those from which the choice is made: only the chain's while it holds the slice (R181). -/
def Mach.consider (e : Fw) (m : Mach) (core slice part : Nat) : Mach × List Cand × List Cand :=
  match (m.slc core slice).chain with
  | none => let r := candidates e m core slice part; (r.1, r.2, r.2)
  | some c =>
    if m.chainWhole core c then
      let k := chainCand e m core slice part c
      let r := candidates e k.1 core slice part
      (r.1, k.2.toList ++ r.2.filter (fun x => !x.members.any c.members.contains), k.2.toList)
    else let r := candidates e (m.breakChain core slice) core slice part; (r.1, r.2, r.2)

/-- The group chosen in this cycle, with the machine after the fetches. Candidates that lack their tokens are noted whether or not the slice may issue (R194). -/
def Mach.pick (e : Fw) (m : Mach) (core slice : Nat) : Mach × Option Cand :=
  match e.ownerOf core with
  | none => (m, none)
  | some part =>
    let r := m.consider e core slice part
    let m1 := countStarve r.1 core slice r.2.1
    if !m1.mayIssue core slice then (m1, none)
    else match choose m1 core slice (r.2.2.filter Cand.isHandler) with
      | some c => (m1, some c)
      | none => (m1, choose m1 core slice r.2.2)

/-- The candidates that have waited one revolution and may be marked (R194). -/
def Mach.markable (m : Mach) (core slice : Nat) : List Nat :=
  let s := m.slc core slice
  if s.mark.isSome then [] else (s.starve.filter (fun c => c.2 + revolution ≤ (m.shard (shardOf core)).cycle)).map Prod.fst

/-- Of those that have waited a revolution, the one that has waited longest; of several that reached the point together the one with the smallest key (R194). -/
def Mach.markPick (m : Mach) (core slice : Nat) : Option Nat :=
  let ks := m.markable core slice
  let since (k : Nat) : Nat := (m.slc core slice).starve.get k 0
  let first := ((ks.map since).min?).getD 0
  argmin (fun (k : Nat) => ((m.warp core (k / 32 % 128)).thread (k % 32)).stamp * 128 + k / 32 % 128) (ks.filter (fun k => since k = first))

end Sys2Proof.Machine
end

