-- ==== Sys2Proof/Machine/Save.lean ====
section
/-! DEFINITION. Pre-emption and saves: the raise, the two ways a save begins, what it waits for, the frame it writes, and the flush (16 R414 to R421, R424, R425; 11 R306, R459; 12 R310, R324; 04 R107). -/

namespace Sys2Proof.Machine

/-! ### The raise (R414) -/

/-- PREEMPT_RAISE: firmware sets $PREEMPT of a block, and the deadline runs from now. -/
def Mach.raisePreempt (m : Mach) (b : Nat) : Mach := (m.setDeadline b).setPreempt b true

/-- A forced save with no deadline (R416; 05 R123): the reason it carries is WHY. -/
def Mach.askSave (m : Mach) (b why : Nat) : Mach :=
  (m.setPreempt b true).modBlock b (fun k => { k with why, deadline := (m.shard (shardOf k.core)).cycle })

/-! ### When a save begins (R406, R415, R416) -/

/-- A warp of the block is being served by the handler of its core. -/
def Mach.inService (m : Mach) (b : Nat) : Bool :=
  m.warps.any (fun w => w.1 % 128 ≠ handlerSlot && w.2.blk = b && (match (m.core (w.1 / 128)).service with
    | some v => v.slots.contains (w.1 % 128)
    | none => false))

/-- The word a thread stands at: the one it has been fetched, or what a fetch brings. -/
def Mach.wordAt (e : Fw) (m : Mach) (core slice part slot lane : Nat) (pc : DWord) : Option IWord :=
  match m.heldWord core slice { x := { slot, lane }, stamp := 0, pc, launch := (0, 0), replay := false } with
  | some w => some w
  | none => match (fetch e m core slice part pc).2 with
    | .word w => some w
    | .fault _ => none

/-- A thread that lets its block save itself. -/
def threadQuiet (e : Fw) (m : Mach) (core slice part slot lane : Nat) (t : Thread) : Bool :=
  match t.st with
  | .atPc => (((m.wordAt e core slice part slot lane t.pc).bind wordMn).map (fun k => heldByPreempt k.1)).getD false
  | _ => true

/-- A chain that holds threads of the block holds a slice. -/
def Mach.chained (m : Mach) (b core slice : Nat) : Bool :=
  match (m.slc core slice).chain with
  | some c => c.members.any (fun x => (m.warp core x.slot).blk = b && x.slot ≠ handlerSlot)
  | none => false

def slicesOf : List Nat := List.range 6

/-- The block saves itself now. -/
def Mach.coopDue (e : Fw) (m : Mach) (b : Nat) : Bool :=
  match m.blocks.get? b with
  | some k =>
    k.st = .resident && k.preempt && !m.inService b && !slicesOf.any (m.chained b k.core) &&
    m.warps.all (fun w => w.1 % 128 = handlerSlot || w.2.blk ≠ b || w.2.threads.all (fun t => threadQuiet e m k.core w.2.slice ((e.ownerOf k.core).getD 0) (w.1 % 128) t.1 t.2))
  | none => false

/-- Its deadline has passed. -/
def Mach.forcedDue (m : Mach) (b : Nat) : Bool :=
  match m.blocks.get? b with
  | some k => k.st = .resident && k.preempt && k.deadline ≤ (m.shard (shardOf k.core)).cycle && !m.inService b
  | none => false

/-! ### Copies of the block (11 R306, R459) -/

/-- The engine has begun it and must complete it (R306). -/
def Copy.mustEnd (c : Copy) : Bool := c.ended || (c.started && (c.dir = 4 || (c.dir = 7 && c.rcvs.any (fun r => r.blk.isSome))))

/-- The copy as a reissue finds it: from its start. -/
def Copy.again (c : Copy) : Copy :=
  { c with spill := none, started := false, pos := 0, sub := 0, status := 0, waitSeq := none, draft := none, ended := false, rcvs := if c.dir = 7 then c.rcvs.map (fun r => { r with offered := false, blk := none, done := false }) else c.rcvs }

/-- A cancelled copy: its bytes return to its barrier's COUNT and it joins the reissue list, in issue order, ahead of the `kept` copies that were waiting to be issued again. -/
def Mach.cancelCopy (m : Mach) (b kept id : Nat) (c : Copy) : Mach :=
  let m := { m with copies := m.copies.erase id }
  let m := match c.bar with
    | some off => if c.sub = 0 then m else m.bcReturn b off (c.sub : Int)
    | none => m
  m.modBlock b (fun k => { k with reissue := k.reissue.take (k.reissue.length - kept) ++ c.again :: k.reissue.drop (k.reissue.length - kept) })

/-- Each copy of the block at the save: one not started is cancelled, a started one as its engine chooses. -/
def Mach.quiesceCopies (m : Mach) (b : Nat) : Mach :=
  let kept := ((m.blocks.get? b).map (fun k => k.reissue.length)).getD 0
  (m.copies.filter (fun c => c.2.blk = some b)).foldl (fun m c =>
    if c.2.mustEnd then m
    else if !c.2.started || m.copyWaits c.2 then m.cancelCopy b kept c.1 c.2
    else
      let m1 := { m with fresh := m.fresh + 1 }
      if Config.choose m.fresh then m1 else m1.cancelCopy b kept c.1 c.2) m

/-- A flush cancels the block's copies without a list (16 R425). -/
def Mach.flushCopies (m : Mach) (b : Nat) : Mach := { m with copies := m.copies.filter (fun c => c.2.blk ≠ some b) }

/-! ### The beginning (R416) -/

/-- Results of fixed latency that a warp still has due are written. -/
def Mach.flushWbs (e : Fw) (m : Mach) (core slot : Nat) : Mach :=
  let slice := (m.warp core slot).slice
  let mine := (m.slc core slice).wbs.filter (fun w => w.slot = slot && !w.isLatch)
  mine.foldl (fun m w => m.applyWb e core slice w) (m.modSlc core slice (fun s => { s with wbs := s.wbs.filter (fun w => w.slot ≠ slot || w.isLatch) }))

/-- A slice's mark is lost with the warp it marks (07 R194). -/
def Mach.dropMark (m : Mach) (b core slice : Nat) : Mach :=
  match (m.slc core slice).mark with
  | some k => if (m.warp core k.oldest.slot).blk = b ∧ k.oldest.slot ≠ handlerSlot then m.giveUpMark core slice else m
  | none => m

/-- The state a save leaves the block in: held after a watchdog's or a dump's (R427, R431). -/
def heldWhy (why : Nat) : Bool := why = 3 || why = 4

/-- A save of the block begins: none of its groups issues any more, its chains are broken, its results are written, its matrix operations stop, its copies quiesce; a save that begins while FLUSHABLE is 1 is a flush (R425). A block that has thereby come to its end has nothing to save. -/
def Mach.beginSave (e : Fw) (m : Mach) (b core why : Nat) : Mach :=
  let m := slicesOf.foldl (fun m s => if m.chained b core s then m.breakChain core s else m) m
  let m := slicesOf.foldl (fun m s => m.dropMark b core s) m
  let m := (m.slotsOf b).foldl (fun m x => m.flushWbs e x.1 x.2) m
  let m := (m.mmas.filter (fun x => x.2.blk = b)).foldl (fun m x => m.mmaStop e x.1 x.2) m
  match (m.blocks.get? b).filter (fun k => k.st = .resident) with
  | none => m
  | some k =>
    let y := if k.why = 0 then why else k.why
    let flushing := k.flushable && !heldWhy y
    let m := m.modBlock b (fun k => { k with st := .saving, why := y, flushing })
    if flushing then m.flushCopies b else m.quiesceCopies b

/-- Nothing of the block is in flight, and the fills it accepted are done. -/
def Mach.drained (m : Mach) (b : Nat) : Bool :=
  (m.slotsOf b).all (fun x => !m.inFlight x.1 x.2) && m.copies.all (fun c => c.2.blk ≠ some b && c.2.rcvs.all (fun r => r.blk ≠ some b || r.done))

/-! ### Threads and tasks at the save (R417; 12 R324) -/

/-- A thread that waits inside an instruction it will issue again. -/
def TState.reissues : TState → Bool
  | .blocked (.bar _ _) => false
  | .blocked .yieldPoint => false
  | .blocked _ => true
  | _ => false

/-- A warp's threads take their save states; what they issue again has armed no flag. -/
def Warp.forSave (w : Warp) : Warp :=
  let again := (w.threads.filter (fun t => t.2.st.reissues)).map Prod.fst
  { w with threads := w.threads.mapVal (fun (t : Thread) => if t.st.reissues || t.st = TState.blocked .yieldPoint then { t with st := TState.atPc, yieldDue := false } else t) }.releaseOwed (maskOf again)

/-- The block's tile tasks that its frame takes: those on chip, with the progress of those that ran. Tasks that lie spilled stay in the ring (04 R107). -/
def Mach.takeTasks (e : Fw) (m : Mach) (b : Nat) : Mach :=
  let mine := m.tasks.filter (fun t => t.2.blk = b)
  let m := mine.foldl (fun m t => if t.2.st = .running then
      (m.modTask t.1 (fun x => { x with st := .waiting, reserve := 0, since := none })).writeStepno e t.1 t.2 else m) m
  let kept := m.tasks.filter (fun t => t.2.blk = b && t.2.spill.isNone)
  { m with tasks := m.tasks.filter (fun t => t.2.blk ≠ b || t.2.spill.isSome) }.modBlock b (fun k => { k with tasks := kept })

/-- What a context that is not restored still has in the ring is given up. -/
def Mach.dropSpilled (m : Mach) (b : Nat) : Mach := { m with tasks := m.tasks.filter (fun t => t.2.blk ≠ b) }

/-- Traps that name warps of the block and are not yet served, with the warps' numbers. -/
def Mach.takeTraps (m : Mach) (b core : Nat) : List Trap :=
  let mine (s : Nat) : Bool := (m.warp core s).blk = b && m.warps.has (wk core s)
  ((m.core core).trapq.map (fun t => { t with slots := (t.slots.filter mine).map (fun s => (m.warp core s).num) })).filter (fun t => !t.slots.isEmpty)

/-! ### The frame (R418 to R421) -/

/-- Words written in the partition's memory; those that do not translate are left. -/
def Mach.putWords (e : Fw) (part : Nat) (m : Mach) (va : Nat) (ws : List Nat) : Mach := (writeRecord e m part va ws).1

def Tile.controlWord (t : Tile) : Nat :=
  t.cols.toNat * 2 ^ 52 + t.rows.toNat * 2 ^ 44 + t.fmtN * 2 ^ 36 + (if t.sd then 2 ^ 35 else 0) + (if t.recv then 2 ^ 34 else 0) + t.st.toNat * 2 ^ 32 +
  (if t.pend then 2 ^ 31 else 0) + (if t.wrfill then 2 ^ 30 else 0) + t.base.toNat

def Bar.word (b : Bar) : Nat := (if b.phase then 2 ^ 63 else 0) + (if b.fixed then 2 ^ 62 else 0) + b.arrived * 2 ^ 32 + b.expect

/-- First unit of a handle in the accumulator image. -/
def Block.accOffset (b : Block) (h : Nat) : Nat := ((b.accs.filter (fun a => a.1 < h)).map (fun a => a.2.units)).sum

def Block.accWord (b : Block) (h : Nat) : Nat :=
  match b.accs.get? h with
  | some a => 2 ^ 63 + (if a.sat then 2 ^ 62 else 0) + ((a.m - 1) * 256 + (a.n - 1)) * 2 ^ 32 + a.fmt * 2 ^ 24 + a.units * 2 ^ 16 + b.accOffset h
  | none => 0

/-- Address of a launch record. -/
def launchAddr (x : Bundle) (l : Nat) : Nat := x.addr + 64 + 128 * l

/-- The frame header (R419). -/
def headerWords (x : Bundle) (l : Launch) (b : Block) (fstate : Nat) : List Nat :=
  let i := l.blockIdx b.lin
  [fstate * 2 ^ 62 + (if b.flushable then 2 ^ 61 else 0) + (l.warps - 1) * 2 ^ 56 + l.peak * 2 ^ 47 + b.reissue.length * 2 ^ 32 + b.tasks.length * 2 ^ 16,
   b.age % 2 ^ 64, launchAddr x b.launch, i.1 * 2 ^ 40 + i.2.1 * 2 ^ 24 + i.2.2 * 2 ^ 8, dw l.rcd 4, b.why * 2 ^ 56 + b.rcause * 2 ^ 48 + b.covf * 2 ^ 32,
   b.wdexp * 2 ^ 32 + b.wdcnt % 2 ^ 32, 0] ++
  (List.range 16).map (fun n => (b.bars.get n Bar.reset).word) ++ (List.range 16).map (fun n => (b.tiles.get n Tile.reset).controlWord) ++ (List.range 16).map b.accWord

def Mach.putHeader (e : Fw) (m : Mach) (b fstate : Nat) : Mach :=
  match m.blocks.get? b with
  | some k =>
    match m.bundles.get? k.bundle, m.launch? k with
    | some x, some l => m.putWords e x.part (m.frameAddr k) (headerWords x l k fstate)
    | _, _ => m
  | none => m

/-- Batch distance of a copy: 0 for the open batch, k for the k-th most recently sealed (R421). -/
def Thread.batchDistance (t : Thread) (no : Nat) : Nat := ((t.sealedB.reverse.findIdx? (fun (x : Batch) => x.no = no)).map (· + 1)).getD 0

/-- A 32-bit component of an origin. -/
def orgWord (o : List Int) (k : Nat) : Nat := truncN 32 (o.getD k 0)

/-- An entry of the reissue list. -/
def Copy.entryWords (c : Copy) (t : Thread) : List Nat :=
  (List.range 8).map (dw c.rcd) ++
  [c.dir * 2 ^ 61 + c.lane * 2 ^ 56 + c.warp * 2 ^ 51 + (if c.bar.isSome then 2 ^ 50 else 0) + c.x % 16 * 2 ^ 46,
   if c.dir = 7 then (c.rcvs.map (fun r => 2 ^ r.core)).sum else c.b % 2 ^ 64, c.bar.getD 0, t.batchDistance c.batch,
   orgWord c.org 0 * 2 ^ 32 + orgWord c.org 1, orgWord c.org 2 * 2 ^ 32 + orgWord c.org 3, orgWord c.org 4 * 2 ^ 32,
   match c.linked with
   | some q => 2 ^ 63 + q % 2 ^ 63
   | none => 0]

/-- A warp's record and vector image in the frame. -/
def Mach.putWarp (e : Fw) (part frame : Nat) (m : Mach) (num : Nat) (w : Warp) (t : Option Trap) : Mach :=
  let m := m.putWords e part (frame + 0x10000 + 0x1000 * num) (w.ctlRecord t)
  ((List.range 256).filter w.mapped).foldl (fun m n => m.putWords e part (frame + 0x200000 + 0x8000 * num + 128 * n) (w.vecWords n)) m

/-- The frame of a block whose warps, tasks and copies it keeps. -/
def Mach.putFrame (e : Fw) (m : Mach) (b fstate : Nat) : Mach :=
  match m.blocks.get? b with
  | none => m
  | some k =>
    match m.launch? k with
    | none => m
    | some l =>
      let part := m.partOf k
      let frame := m.frameAddr k
      let m := m.putHeader e b fstate
      let m := (k.tasks.mapIdx (fun i t => (i, t.2.rcd))).foldl (fun m t => m.putWords e part (frame + 0x3000 + 32 * t.1) t.2) m
      let m := (List.range l.warps).foldl (fun m n => match k.warps.get? n with
        | some w => m.putWarp e part frame n w (k.traps.find? (fun t => t.slots.contains n))
        | none => m.putWords e part (frame + 0x10000 + 0x1000 * n) [0]) m
      let m := (k.reissue.mapIdx (fun i c => (i, c))).foldl (fun m c =>
        let m := m.putWords e part (frame + 0x30000 + 128 * c.1) (c.2.entryWords ((k.warps.get c.2.warp Warp.absent).thread c.2.lane))
        if c.2.dir = 5 then m.putWords e part (frame + 0x38000 + 64 * c.1) ((List.range 8).map (dw c.2.drec)) else m) m
      let m := m.putWords e part (frame + 0x300000) ((List.range (l.scrBytes / 8)).map (fun i => scrRead k (8 * i) 8))
      k.accs.foldl (fun m a => m.putWords e part (frame + 0x400000 + 4096 * k.accOffset a.1) (pairUp ((List.range a.2.words).map (fun i => BitVec.ofNat 32 (a.2.word i))))) m

/-! ### The end of a save -/

/-- The block's warps leave their slots. -/
def Mach.liftWarps (m : Mach) (b : Nat) : Mach :=
  let mine := m.warps.filter (fun w => w.1 % 128 ≠ handlerSlot ∧ w.2.blk = b)
  let m := mine.foldl (fun m w => m.forgetTraps (w.1 / 128) (w.1 % 128)) m
  { m with warps := m.warps.filter (fun w => w.1 % 128 = handlerSlot ∨ w.2.blk ≠ b) }.modBlock b (fun k =>
    { k with warps := mine.foldl (fun (t : Tab Warp) (w : Nat × Warp) => t.set w.2.num w.2.forSave) [] })

/-- A FLUSHABLE block is discarded, to be placed again (R425). -/
def Mach.flushBlock (e : Fw) (m : Mach) (b : Nat) (k : Block) : Mach :=
  let m := { m with tasks := m.tasks.filter (fun t => t.2.blk ≠ b), warps := m.warps.filter (fun w => w.1 % 128 = handlerSlot ∨ w.2.blk ≠ b) }
  let m := m.modBlock b (fun k => { k with
    st := .flushed, preempt := false, why := 0, scratch := [], tiles := [], bars := [], accs := [], accWait := [], accUse := [], reissue := [], tasks := [], traps := [], warps := [], wdcnt := 0, wdexp := 0, flushing := false })
  ((m.putHeader e b 1).dropShare k.core k.bundle k.launch).soil k.core

/-- A flushed block's slots of the work graph return, and its traps are forgotten. -/
def Mach.returnRes (m : Mach) (b : Nat) (k : Block) : Mach :=
  (m.slotsOf b).foldl (fun m x =>
    let w := m.warp x.1 x.2
    ((m.forgetTraps x.1 x.2).modLaunch k.bundle k.launch (fun l => { l with wg := l.wg.map (fun g =>
      { g with free := w.res.foldl (fun t r => t.set r.1 (t.get r.1 0 + r.2)) g.free }) })).grantWg k.bundle k.launch) m

/-- The summaries of a block's warps join the bundle's: each is taken as its warp leaves its slice (17 R435). -/
def Mach.takeSummaries (m : Mach) (b bundle : Nat) : Mach :=
  m.modBundle bundle (fun x => { x with tally := { x.tally with exc := (m.slotsOf b).foldl (fun a s => a ||| (m.warp s.1 s.2).summary) x.tally.exc } })

/-- A drained block leaves its core. -/
def Mach.finishSave (e : Fw) (m : Mach) (b : Nat) (k : Block) : Mach :=
  let m := m.endWaits b (m.slotsOf b)
  if k.flushing then (m.returnRes b k).flushBlock e b k
  else
    let traps := m.takeTraps b k.core
    let m := ((m.takeSummaries b k.bundle).takeTasks e b).liftWarps b
    let m := m.modBlock b (fun x => { x with
      st := if heldWhy k.why then .held else .saved, preempt := false, accWait := [], accUse := [], traps, wdcnt := m.wdNow k, rcause := if k.why = 3 then 0x28 else 0 })
    let m := ((m.putFrame e b (if heldWhy k.why then 3 else 2)).dropShare k.core k.bundle k.launch).soil k.core
    if heldWhy k.why then
      ((m.dropSpilled b).modLaunch k.bundle k.launch (fun l => { l with live := l.live - 1 })).endRecords k.bundle k.launch
    else m

/-- A save under way ends once the block is drained. -/
def Mach.goOnSave (e : Fw) (m : Mach) (b : Nat) : Mach :=
  match m.blocks.get? b with
  | some k => if k.st = .saving && m.drained b && !m.inService b then (m.finishSave e b k).goOnDump e (m.partOf k) else m
  | none => m

/-- COOPERATIVE_SAVE: WHY 0. -/
def Mach.coopSave (e : Fw) (m : Mach) (b : Nat) : Mach :=
  match m.blocks.get? b with
  | some k => (if m.coopDue e b then m.beginSave e b k.core 0 else m).goOnSave e b
  | none => m

def execCooperativeSave (s : State) : Host.Outcome State Fault Refusal := .next { s with m := s.m.coopSave s.fw s.subj.blk }

/-- FORCED_SAVE: WHY 1, or the reason it was asked for. -/
def Mach.forcedSave (e : Fw) (m : Mach) (b : Nat) : Mach :=
  match m.blocks.get? b with
  | some k => (if m.forcedDue b then m.beginSave e b k.core 1 else m).goOnSave e b
  | none => m

def execForcedSave (s : State) : Host.Outcome State Fault Refusal := .next { s with m := s.m.forcedSave s.fw s.subj.blk }

/-! ### The watchdog (R426, R427) -/

/-- The window of a block's watchdog. -/
def Launch.window (l : Launch) : Nat := if l.persist then l.progress * 4096 else 2 ^ 28

def Mach.watchdogDue (m : Mach) (k : Block) : Bool :=
  match m.launch? k with
  | some l => k.st = .resident && l.window ≤ m.wdNow k
  | none => false

/-- The lowest lane of the block's lowest warp that has not EXITED: where it stands. -/
def Mach.lowestPc (m : Mach) (b : Nat) : DWord :=
  match argmin (fun x => (m.warp x.1 x.2).num) (m.slotsOf b) with
  | some x => (((m.warp x.1 x.2).threads.find? (fun t => t.2.st ≠ .exited)).map (fun t => t.2.pc)).getD 0
  | none => 0

/-- WATCHDOG_EXPIRY: the first delivers WATCHDOG to the handler; the second gives the bundle its status, has the block saved and held, and ends the bundle's other units. -/
def Mach.expire (e : Fw) (m : Mach) (b : Nat) (k : Block) : Mach :=
  let m := m.modBlock b (fun x => { x with wdcnt := 0, wdbase := (m.shard (shardOf k.core)).cycle, wdexp := x.wdexp + 1 })
  if k.wdexp = 0 then
    let m := slicesOf.foldl (fun m s => if m.chained b k.core s then m.breakChain k.core s else m) m
    Mach.takeTrap e m k.core causeWatchdog 0 (m.lowestPc b) [] ((m.slotsOf b).map Prod.snd)
  else (m.endUnits e k.bundle 0x28 (some b)).askSave b 3

def execWatchdogExpiry (s : State) : Host.Outcome State Fault Refusal :=
  match s.m.blocks.get? s.subj.blk with
  | some k => if s.m.watchdogDue k then .next { s with m := s.m.expire s.fw s.subj.blk k } else .next s
  | none => .next s

end Sys2Proof.Machine
end

