-- ==== Sys2Proof/Machine/Place.lean ====
section
/-! DEFINITION. The dispatcher: shares, what fits a core, the window and the score, new blocks, restored contexts, persistent launches, and the accumulator arbiter's pre-emption (05 R110 to R123; 16 R418, R422; 11 R457; 17 R436, R437; 04 R107). -/

namespace Sys2Proof.Machine

/-! ### Shares and slices (R110 to R114) -/

def Share.granules (s : Share) : Nat := s.regg + s.accg + s.scrg
def Launch.granules (l : Launch) : Nat := l.regg + l.accg + l.scrg

def Mach.share? (m : Mach) (core bundle launch : Nat) : Option Share := (m.core core).shares.find? (fun s => s.bundle = bundle ∧ s.launch = launch)
def Mach.granulesFree (m : Mach) (core : Nat) : Nat := 64 - (((m.core core).shares.map Share.granules).sum)

/-- Registers that each slice of a core offers (R112). -/
def Fw.capregOf (e : Fw) (core : Nat) : Nat := e.capreg.get core Config.fullCapreg

/-- What a slice has left for a launch: the slice, warps resident, registers of the launch's share, registers under CAPREG. -/
structure Room where
  slice : Nat
  warps : Nat
  share : Nat
  cap : Nat
  deriving DecidableEq, Repr

def Mach.room (e : Fw) (m : Mach) (core bundle launch regg slice : Nat) : Room :=
  let ws := m.warpsOn core slice
  let own := ws.filter (fun w => match m.blocks.get? w.2.blk with
    | some b => b.bundle = bundle && b.launch = launch
    | none => false)
  { slice, warps := ws.length, share := regg / 6 * 128 - (own.map (fun w => w.2.peak)).sum, cap := e.capregOf core - (ws.map (fun w => w.2.peak)).sum }

/-- The slice with the most free registers of the share that can take a warp; of equals the lowest. -/
def pickRoom (peak : Nat) (rs : List Room) : Option Room :=
  argmin (fun (r : Room) => (8192 - r.share) * 8 + r.slice) (rs.filter (fun r => r.warps < 16 && peak ≤ r.share && peak ≤ r.cap))

/-- Slices for warps in ascending order (R114). -/
def pickSlices (peak : Nat) : List Room → List Nat → Option (List (Nat × Nat))
  | _, [] => some []
  | rs, n :: ns =>
    match pickRoom peak rs with
    | none => none
    | some r =>
      (pickSlices peak (rs.map (fun q => if q.slice = r.slice then { q with warps := q.warps + 1, share := q.share - peak, cap := q.cap - peak } else q)) ns).map ((n, r.slice) :: ·)

/-- The budgets of the chain admitting another share on the core (01 R24). -/
def Mach.capsAdmit (m : Mach) (x : Bundle) (core need : Nat) : Bool :=
  (x.chain.zip x.effs).all (fun c =>
    let bs := m.under x.part c.1
    m.granulesHeld bs + need ≤ c.2.get 4 0 && ((m.core core).shares.any (fun s => bs.contains s.bundle) || m.coresHeld bs + 1 ≤ c.2.get 3 0))

/-- Cores of a partition that take blocks: neither departing nor fenced. -/
def Fw.placeable (e : Fw) (part : Nat) : List Nat :=
  let p := e.part part
  (coresOf p.cores).filter (fun c => !e.fenced.contains c && (match p.resize with
    | some r => !bit r.departing c
    | none => true))

/-- Scratchpad of a launch in use on a core. -/
def Mach.scratchUsed (m : Mach) (core bundle launch bytes : Nat) : Nat := (m.blocksOn core bundle launch).length * bytes

/-- The warps of a block fit a core: their slices (R113, R120). `units`: accumulator units that a saved context holds. A trial on an empty partition asks only whether the core could hold them, not whether the budgets allow it now. -/
def Mach.fits (e : Fw) (m : Mach) (bid : Nat) (x : Bundle) (lid : Nat) (l : Launch) (nums : List Nat) (units : Nat) (trial : Bool) (core : Nat) : Option (List (Nat × Nat)) :=
  let ok := match m.share? core bid lid with
    | some s => units ≤ m.unitsFree core s
    | none => l.granules ≤ m.granulesFree core && (trial || m.capsAdmit x core l.granules)
  if ok && m.scratchUsed core bid lid l.scrBytes + l.scrBytes ≤ l.scrg * 16384 then pickSlices l.peak ((List.range 6).map (m.room e core bid lid l.regg)) nums else none

/-! ### Window, score and cursor (R117) -/

/-- The partition's ring from its cursor. -/
def ringFrom (cs : List Nat) (cursor : Nat) : List Nat := cs.filter (fun c => cursor ≤ c) ++ cs.filter (fun c => c < cursor)

def Mach.score (m : Mach) (core : Nat) : Nat := ((m.core core).temp - 60) + 8 * (m.core core).droop

/-- The core chosen, with its slices, and the round-robin position. -/
def Mach.chooseCore (e : Fw) (m : Mach) (bid : Nat) (x : Bundle) (lid : Nat) (l : Launch) (nums : List Nat) (units : Nat) (trial : Bool) : Option (Nat × List (Nat × Nat) × Nat) :=
  let fit := (ringFrom (e.placeable x.part) (m.part x.part).cursor).filterMap (fun c => (m.fits e bid x lid l nums units trial c).map (fun s => (c, s)))
  let win := fit.take (x.eff 2 + 1)
  match argmin (fun (c : Nat × List (Nat × Nat)) => m.score c.1) win, win.head? with
  | some c, some r => some (c.1, c.2, r.1)
  | _, _ => none

/-- The core after one in the partition's ring. -/
def afterCore (cs : List Nat) (c : Nat) : Nat := ((cs.find? (fun d => c < d)).getD (cs.headD 0))

def Mach.moveCursor (e : Fw) (m : Mach) (part rr : Nat) : Mach := m.modPart part (fun p => { p with cursor := afterCore (coresOf (e.part part).cores) rr })

/-- The launch has its share on the core. -/
def Mach.claimShare (m : Mach) (core bid lid : Nat) (l : Launch) : Mach :=
  if (m.share? core bid lid).isSome then m
  else m.modCore core (fun c => { c with shares := c.shares ++ [{ bundle := bid, launch := lid, regg := l.regg, accg := l.accg, scrg := l.scrg, stall := none }] })

/-- The lowest free slot of a slice. -/
def Mach.freeSlot (m : Mach) (core slice : Nat) : Nat := (((List.range 16).map (· + 16 * slice)).find? (fun s => !m.warps.has (wk core s))).getD (16 * slice)

/-! ### Frames (16 R418) -/

/-- NFRAMES of a save area; 0 where its header cannot be read. Nonzero reserved bits of the header, for which R418 states no consequence, are not looked at (log 91). -/
def nframes (e : Fw) (m : Mach) (part area : Nat) : Nat :=
  match readRecord e m part area 1 with
  | some [d] => bits d 31 0
  | _ => 0

/-- The lowest free frame. In a trial on an empty partition (R119, R120), frames are taken in turn. -/
def freeFrame (e : Fw) (m : Mach) (part area : Nat) (trial : Bool) : Option Nat :=
  if trial then (if m.blocks.length < nframes e m part area then some m.blocks.length else none)
  else (List.range (min 32768 (nframes e m part area))).find? (fun k => match readRecord e m part (area + 0x1000 + k * 0x800000) 1 with
    | some [d] => bits d 63 62 = 0
    | _ => false)

/-! ### A new block (R115, R116; 10 R257; 17 R436, R437) -/

/-- Segment registers at placement. -/
def placeSegs (l : Launch) (frame num : Nat) : Tab (DWord × DWord) :=
  let w (n : Nat) : DWord := BitVec.ofNat 64 n
  [(0, (0, w (2 ^ 57))), (1, (0, w l.scrBytes)), (2, (w (frame + 0x100000 + 0x8000 * num), 1024)), (3, (w l.constBase, 65536)), (4, (0, 0x10000000)),
   (5, (0x200000000000000, w l.scrBytes)), (6, (0x300000000000000, 1024)), (7, (0, 0))]

def placeThread (l : Launch) (f lin tid cyc : Nat) : Thread :=
  let c := l.threadClass f lin tid
  { Thread.absent with
    pc := BitVec.ofNat 64 l.entry, st := if l.starts f lin tid then .atPc else .exited, stamp := cyc, helper := l.startsHelper f lin tid,
    lattice := if c = 0 then 1 else if c = 1 then 2 else 0 }

def placeWarp (l : Launch) (blk f lin frame num slice cyc : Nat) : Warp :=
  { Warp.absent with blk, num, slice, peak := l.peak, seg := placeSegs l frame num, threads := (List.range 32).map (fun i => (i, placeThread l f lin (32 * num + i) cyc)) }

/-- Words fetched for threads that a slot held before are forgotten. -/
def Slice.clearHeld (s : Slice) (slot : Nat) : Slice := { s with held := s.held.filter (fun h => h.1 / 32 ≠ slot) }

/-- Warps of a block in slots of their slices. -/
def Mach.seatWarps (m : Mach) (core : Nat) (mk : Nat → Nat → Nat → Warp) : List (Nat × Nat) → Mach
  | [] => m
  | (num, slice) :: r =>
    let slot := m.freeSlot core slice
    (({ m with warps := m.warps.set (wk core slot) (mk num slice ((m.slc core slice).cyc + 1)) }).modSlc core slice (fun s => s.clearHeld slot)).seatWarps core mk r

/-- A block as its first placement makes it. -/
def freshBlock (m : Mach) (bid lid : Nat) (l : Launch) (lin core age frame f : Nat) : Block :=
  { bundle := bid, launch := lid, lin, core, age, st := .resident, preempt := false, deadline := 0, why := 0, rcause := 0, frame, flushable := l.idem,
    wdbase := (m.shard (shardOf core)).cycle, wdcnt := 0, wdexp := 0, covf := f, scratch := [], grant := m.grantKey core, tiles := [], bars := [], accs := [], accWait := [], warps := [], traps := [],
    reissue := [], tasks := [], flushing := false }

/-- The block is on its core. -/
def Mach.seatBlock (e : Fw) (m : Mach) (id : Nat) (b : Block) (l : Launch) (seats : List (Nat × Nat)) : Mach :=
  let m := (({ m with blocks := m.blocks.set id b, nextId := m.nextId + 1 }).catchCore e b.core).claimShare b.core b.bundle b.launch l
  let m := m.seatWarps b.core (fun num slice cyc => placeWarp l id b.covf b.lin (m.frameAddr b) num slice cyc) seats
  m.putHeader e id 1

/-- F in force for a launch. -/
def Launch.fNow (l : Launch) : Nat := ((l.cov).map (·.f)).getD 0

/-- The launch's next block leaves the walk, and its points are counted. -/
def Mach.walkOn (m : Mach) (bid lid : Nat) (l : Launch) (placed : Bool) : Mach :=
  m.modLaunch bid lid (fun y => { y with
    next := l.next + 1, live := if placed then y.live + 1 else y.live,
    cov := y.cov.map (fun c => { c with kept := c.kept + l.points c.f l.next (· = 0), skipped := c.skipped + l.points c.f l.next (· ≠ 0) }) })

/-- The next block of a launch finds a core and a frame. A block with no thread to start counts as exited at once. -/
def Mach.placeNext (e : Fw) (m : Mach) (bid : Nat) (x : Bundle) (lid : Nat) (l : Launch) (trial : Bool) : Option Mach :=
  let f := l.fNow
  let nums := l.startWarps f l.next
  if nums = [] then
    let m := (m.walkOn bid lid l false).modBundle bid (fun y => { y with tally := { y.tally with blocks := y.tally.blocks + 1 } })
    some ((m.addDarn (freshBlock m bid lid l l.next 0 0 0 f)).endRecords bid lid)
  else
    match m.chooseCore e bid x lid l nums 0 trial, freeFrame e m x.part (x.eff 10) trial with
    | some (core, seats, rr), some fr =>
      let b := freshBlock m bid lid l l.next core (m.part x.part).age fr f
      let m := (m.moveCursor e x.part rr).modPart x.part (fun p => { p with age := p.age + 1 })
      some ((m.seatBlock e m.nextId b l seats).walkOn bid lid l true)
    | _, _ => none

/-- A flushed block is placed as if for the first time, with its age, its frame and its F. -/
def Mach.placeAgain (e : Fw) (m : Mach) (id : Nat) (k : Block) (x : Bundle) (l : Launch) : Option Mach :=
  match m.chooseCore e k.bundle x k.launch l (l.startWarps k.covf k.lin) 0 false with
  | some (core, seats, rr) => some ((m.moveCursor e x.part rr).seatBlock e id (freshBlock m k.bundle k.launch l k.lin core k.age k.frame k.covf) l seats)
  | none => none

/-! ### A restored context (R120; 16 R422; 04 R107) -/

/-- Insertion of block numbers by age. -/
def insertAge (x : Nat × Block) : List (Nat × Block) → List (Nat × Block)
  | [] => [x]
  | y :: r => if x.2.age < y.2.age then x :: y :: r else y :: insertAge x r

/-- Chunks that `n` records of a queue fill. -/
def QStore.need (k : QStore) (n : Nat) : Nat := (n + k.per - 1) / k.per

/-- The lowest chunk of a queue's spilled records. -/
def QStore.firstChunk (k : QStore) (q : List (Option Int)) : Int := (((q.filterMap id).map (fun i => i / (k.per : Int))).min?).getD 0

/-- Places of `n` tasks put back at the head of a spilled queue: in chunks of their own, ahead of the queue's. -/
def headPlaces (n : Nat) (q : List (Option Int)) : List (Option Int) :=
  let first := (taskStore.firstChunk q - (taskStore.need n : Int)) * (taskStore.per : Int)
  (List.range n).map (fun (i : Nat) => some (first + (i : Int)))

/-- Tasks of a context that are to be queued again, and how many of them find a free on-chip entry. -/
def Block.queuedTasks (k : Block) : Nat := (k.tasks.filter (fun t => t.2.st = .queued)).length
def Mach.taskOnChip (m : Mach) (k : Block) (core : Nat) : Nat := min k.queuedTasks (taskStore.cap - m.taskUsed core)

/-- The queue places of a context's tasks on a core: those queued take free entries, then chunks ahead of the queue's. -/
def Mach.taskPlaces (m : Mach) (k : Block) (core : Nat) : List (Option Int) :=
  (List.range (m.taskOnChip k core)).map (fun _ => none) ++ headPlaces (k.queuedTasks - m.taskOnChip k core) (m.taskSpills k.bundle k.launch core)

/-- The order of the first task of a launch's queue on a core. -/
def Mach.headOrder (m : Mach) (bundle launch core : Nat) : Int := (((m.taskQ bundle launch core).map (fun t => t.2.order)).min?).getD 0

/-- What a context has left in the ring on another core goes, in its order, to the head of its launch's queue on the core it comes to, in chunks of its own ahead of those there (log 97). -/
def Mach.moveSpilled (m : Mach) (id : Nat) (k : Block) (core : Nat) : Mach :=
  let mine := (m.tasks.filter (fun t => t.2.blk = id && t.2.core ≠ core)).foldl (fun q x => insertTask x q) []
  let first := m.headOrder k.bundle k.launch core - (mine.length : Int)
  let ps := headPlaces mine.length (m.taskSpills k.bundle k.launch core)
  (mine.mapIdx (fun (i : Nat) t => (t.1, { t.2 with core, order := first + (i : Int), spill := ps.getD i none : Task }))).foldl (fun m t => { m with tasks := m.tasks.set t.1 t.2 }) m

/-- The saved tasks go back to the head of their queue, in their order. -/
def Mach.returnTasks (m : Mach) (k : Block) (core : Nat) : Mach :=
  let first := m.headOrder k.bundle k.launch core
  let saved := k.tasks.foldl (fun q x => insertTask x q) []
  let n := saved.length
  let ps := m.taskPlaces k core
  (saved.foldl (fun (a : Mach × Nat × Nat) (t : Nat × Task) =>
    let queued := t.2.st = TaskSt.queued
    let t' : Task := { t.2 with core, order := first - (n : Int) + (a.2.1 : Int), spill := if queued then (ps.getD a.2.2 none) else none, interval := 0, since := none }
    ({ a.1 with tasks := a.1.tasks.set t.1 t' }, a.2.1 + 1, if queued then a.2.2 + 1 else a.2.2)) (m, 0, 0)).1

/-- A context's tasks are queued on a core again, those left in the ring and those its frame holds. -/
def Mach.queueAgain (m : Mach) (id : Nat) (k : Block) (core : Nat) : Mach := (m.moveSpilled id k core).returnTasks k core

/-- The ring has the chunks that this takes (R107). -/
def Mach.taskRoom (m : Mach) (id : Nat) (k : Block) (core : Nat) : Bool := decide ((m.queueAgain id k core).chunksHeld k.bundle ≤ m.chunksHeld k.bundle + m.freeChunks k.bundle)

/-- A warp back on a slice: threads at their program counters take the restore cycle as their stamp. -/
def Warp.restored (w : Warp) (slice cyc : Nat) : Warp :=
  { w with slice, threads := w.threads.mapVal (fun (t : Thread) => if t.st = TState.atPc then { t with stamp := cyc, lastIssue := 0 } else t) }

/-- Queued traps of a context, naming its warps' new slots. -/
def Mach.requeueTraps (m : Mach) (id : Nat) (k : Block) (core : Nat) : Mach :=
  k.traps.foldl (fun m t =>
    let found := t.slots.filterMap (fun n => (m.warpByNum id n).map Prod.snd)
    let slots := (List.range 96).filter found.contains
    m.modCore core (fun c => { c with trapq := queueTrap c.trapq { t with slots, at_ := m.trapAt core slots } })) m

/-- The listed copies are issued again, in order, while the budgets have a slot for them (R457). -/
def reissueFrom (id core : Nat) : List Copy → Mach → Mach
  | [], m => m
  | c :: r, m =>
    if m.quotaCause c.bundle copyStore (m.copyUsed core) ((m.copyQ c.bundle c.launch core).map (fun y => y.2.spill)) 1 = 0 then
      reissueFrom id core r ((m.addCopy { c with core, shard := shardOf core }).modBlock id (fun k => { k with reissue := r }))
    else m

def Mach.reissueCopies (m : Mach) (id : Nat) : Mach :=
  match m.blocks.get? id with
  | some k => reissueFrom id k.core k.reissue m
  | none => m

/-- The context is back on a core. -/
def Mach.seatContext (e : Fw) (m : Mach) (id : Nat) (k : Block) (l : Launch) (core : Nat) (seats : List (Nat × Nat)) : Mach :=
  let m := (m.catchCore e core).claimShare core k.bundle k.launch l
  let m := m.seatWarps core (fun num slice cyc => (k.warps.get num Warp.absent).restored slice cyc) seats
  let m := m.queueAgain id k core
  let m := m.requeueTraps id k core
  let m := { m with blocks := m.blocks.set id { k with
    core, st := .resident, preempt := false, why := 0, rcause := 0, wdbase := (m.shard (shardOf core)).cycle, warps := [], tasks := [], traps := [] } }
  (m.setFstate e { k with core } 1).reissueCopies id

/-- A saved context finds a core (R120), and its ring the chunks that its tasks need (04 R107). A trial asks only for the core. -/
def Mach.restoreOne (e : Fw) (m : Mach) (id : Nat) (k : Block) (x : Bundle) (l : Launch) (trial : Bool) : Option Mach :=
  match m.chooseCore e k.bundle x k.launch l k.warps.keys k.unitsHeld trial with
  | some (core, seats, rr) => if trial || m.taskRoom id k core then some ((m.moveCursor e x.part rr).seatContext e id k l core seats) else none
  | none => none

/-- Contexts restored together, in order. -/
def restoreAll (e : Fw) (x : Bundle) (l : Launch) (trial : Bool) : Mach → List (Nat × Block) → Option Mach
  | m, [] => some m
  | m, (id, k) :: r =>
    match m.restoreOne e id k x l trial with
    | some m1 => restoreAll e x l trial m1 r
    | none => none

/-- The contexts that are restored with one: all of a persistent launch's (03 R78), otherwise itself. -/
def Mach.together (m : Mach) (id : Nat) (k : Block) (l : Launch) : List (Nat × Block) :=
  if l.persist then (m.blocks.filter (fun b => b.2.bundle = k.bundle ∧ b.2.launch = k.launch ∧ b.2.st = .saved)).foldl (fun q x => insertAge x q) [] else [(id, k)]

/-- The machine with nothing resident in a partition. -/
def Mach.emptied (e : Fw) (m : Mach) (part : Nat) : Mach :=
  let cs := coresOf (e.part part).cores
  { m with warps := m.warps.filter (fun w => !cs.contains (w.1 / 128)), cores := cs.foldl (fun t c => t.modify c (fun (k : Core) => { k with shares := [] })) m.cores, tasks := [], blocks := [] }

/-- A context that no core could hold is left held (R120; 16 R422). -/
def Mach.holdContext (e : Fw) (m : Mach) (id : Nat) (k : Block) : Mach :=
  let m := m.modBlock id (fun b => { b with st := .held, rcause := 0x25 })
  let m := (m.dropSpilled id).modLaunch k.bundle k.launch (fun l => { l with live := l.live - 1 })
  let m := m.modBundle k.bundle (fun x => { x with status := joinStatus x.status 0x25, tally := { x.tally with
    nrestf := x.tally.nrestf + 1, rframe := if x.tally.rframe = 0xFFFF then k.frame else x.tally.rframe } })
  (m.endRecords k.bundle k.launch).putHeader e id 3

/-! ### The dispatcher's choice (R116, R119) -/

inductive Choice where
  /-- every block of a persistent launch -/
  | persist (bundle launch : Nat)
  /-- a saved context, with those restored together with it -/
  | restore (blk : Nat)
  /-- a saved context that could fit no core -/
  | hold (blk : Nat)
  /-- a flushed block -/
  | again (blk : Nat)
  /-- the next block of a launch -/
  | next (bundle launch : Nat)
  deriving DecidableEq, Repr

/-- Blocks of a running bundle that is not frozen are eligible. -/
def Mach.eligible (m : Mach) (part : Nat) (b : Nat) (x : Bundle) : Bool := x.part = part && x.st = .running && !m.frozenB b

/-- Saved contexts of a partition, oldest placement age first. -/
def Mach.savedOf (m : Mach) (part : Nat) : List (Nat × Block) :=
  (m.blocks.filter (fun b => b.2.st = .saved && ((m.bundles.get? b.2.bundle).map (m.eligible part b.2.bundle)).getD false)).foldl (fun q x => insertAge x q) []

/-- A launch's place in the order of choice: priority, admission, and of one bundle's launches, which are admitted together, the number (log 90). -/
def launchKey (x : Bundle) (l : Nat) : Nat := ((15 - min 15 (x.eff 0)) * 2 ^ 64 + x.admitted) * 16 + l

/-- Launches of a partition with a block to place: bundle, launch, the launch record, key, rising by key. -/
def Mach.openLaunches (m : Mach) (part : Nat) : List (Nat × Nat × Launch × Nat) :=
  let ls := m.bundles.flatMap (fun b => if m.eligible part b.1 b.2 then (b.2.launches.filter (fun l => l.2.kind = 0 && !l.2.closed)).map (fun l => (b.1, l.1, l.2, launchKey b.2 l.1)) else [])
  ls.foldl (fun q x => q.filter (fun y => y.2.2.2 ≤ x.2.2.2) ++ x :: q.filter (fun y => x.2.2.2 < y.2.2.2)) []

/-- The flushed block of a launch with the lowest index. -/
def Mach.flushedOf (m : Mach) (b l : Nat) : Option (Nat × Block) := argmin (fun (k : Nat × Block) => k.2.lin) (m.blocks.filter (fun k => k.2.bundle = b ∧ k.2.launch = l ∧ k.2.st = .flushed))

/-- A persistent launch whose blocks are being saved together is placed again only when all of them are (03 R78). -/
def Mach.stillLeaving (m : Mach) (k : Block) : Bool :=
  ((m.launch? k).map Launch.persist).getD false && m.blocks.any (fun b => b.2.bundle = k.bundle && b.2.launch = k.launch && (b.2.st = .saving || (b.2.st = .resident && b.2.preempt)))

/-- The first saved context that can be placed or can never be, and the launches whose contexts wait. -/
def firstSaved (e : Fw) (m : Mach) (part : Nat) : List (Nat × Block) → List (Nat × Nat) → Option Choice × List (Nat × Nat)
  | [], held => (none, held)
  | (id, k) :: r, held =>
    if held.contains (k.bundle, k.launch) || m.stillLeaving k then firstSaved e m part r held
    else match m.bundles.get? k.bundle, m.launch? k with
      | some x, some l =>
        let ks := m.together id k l
        if (restoreAll e x l false m ks).isSome then (some (.restore id), held)
        else if (restoreAll e x l true (m.emptied e part) ks).isNone then (some (.hold id), held)
        else firstSaved e m part r ((k.bundle, k.launch) :: held)
      | _, _ => firstSaved e m part r held

/-- The first launch whose next block can be placed. -/
def firstNew (e : Fw) (m : Mach) (held : List (Nat × Nat)) : List (Nat × Nat × Launch × Nat) → Option Choice
  | [] => none
  | (b, i, l, _) :: r =>
    if held.contains (b, i) then firstNew e m held r
    else match m.bundles.get? b with
      | none => firstNew e m held r
      | some x =>
        match m.flushedOf b i with
        | some (id, k) => if (m.placeAgain e id k x l).isSome then some (.again id) else firstNew e m held r
        | none => if l.next < l.blockCount && !l.persist && (m.placeNext e b x i l false).isSome then some (.next b i) else firstNew e m held r

/-- A persistent launch whose blocks are still to be placed (R119). -/
def Mach.persistDue (m : Mach) (part : Nat) : Option (Nat × Nat) :=
  ((m.openLaunches part).find? (fun x => x.2.2.1.persist && x.2.2.1.accepted && decide (x.2.2.1.next < x.2.2.1.blockCount))).map (fun x => (x.1, x.2.1))

/-- What the dispatcher does next. -/
def Mach.dispatch (e : Fw) (m : Mach) (part : Nat) : Option Choice :=
  match m.persistDue part with
  | some (b, l) => some (.persist b l)
  | none =>
    match firstSaved e m part (m.savedOf part) [] with
    | (some c, _) => some c
    | (none, held) => firstNew e m held (m.openLaunches part)

/-- Every block of a persistent launch is placed, against the occupancy the earlier ones leave. -/
def placeAll (e : Fw) (bid lid : Nat) (trial : Bool) : Nat → Mach → Option Mach
  | 0, m => some m
  | n + 1, m =>
    match m.bundles.get? bid with
    | some x =>
      match x.launches.get? lid with
      | some l => if l.blockCount ≤ l.next then some m else (m.placeNext e bid x lid l trial).bind (placeAll e bid lid trial n)
      | none => none
    | none => none

def Mach.runChoice (e : Fw) (m : Mach) (c : Choice) : Mach :=
  match c with
  | .persist b l =>
    match (m.bundles.get? b).bind (fun x => x.launches.get? l) with
    | some y => (placeAll e b l false y.blockCount m).getD m
    | none => m
  | .restore id =>
    match m.blocks.get? id with
    | some k =>
      match m.bundles.get? k.bundle, m.launch? k with
      | some x, some l => (restoreAll e x l false m (m.together id k l)).getD m
      | _, _ => m
    | none => m
  | .hold id =>
    match m.blocks.get? id with
    | some k => match m.launch? k with
      | some l => (m.together id k l).foldl (fun m b => m.holdContext e b.1 b.2) m
      | none => m
    | none => m
  | .again id =>
    match m.blocks.get? id with
    | some k =>
      match m.bundles.get? k.bundle, m.launch? k with
      | some x, some l => (m.placeAgain e id k x l).getD m
      | _, _ => m
    | none => m
  | .next b l =>
    match m.bundles.get? b with
    | some x => match x.launches.get? l with
      | some y => (m.placeNext e b x l y false).getD m
      | none => m
    | none => m

def Choice.isRestore : Choice → Bool
  | .restore _ => true
  | .hold _ => true
  | _ => false

/-- DISPATCHER_STEP of a partition: a block is placed. Where a saved context comes first, RESTORE places it. -/
def execDispatcherStep (s : State) : Host.Outcome State Fault Refusal :=
  match s.m.dispatch s.fw s.subj.part with
  | some c => .next (if c.isRestore then s else { s with m := s.m.runChoice s.fw c })
  | none => .next s

/-- RESTORE of a block: the dispatcher's choice, or the rest of its copies. -/
def Mach.restore (e : Fw) (m : Mach) (id : Nat) : Mach :=
  match m.blocks.get? id with
  | some k =>
    if k.st = .resident then m.reissueCopies id
    else match m.dispatch e (m.partOf k) with
      | some (.restore j) => if j = id then m.runChoice e (.restore j) else m
      | some (.hold j) => if j = id then m.runChoice e (.hold j) else m
      | _ => m
  | none => m

def execRestore (s : State) : Host.Outcome State Fault Refusal := .next { s with m := s.m.restore s.fw s.subj.blk }

/-! ### The deadlock rule (R123) -/

/-- The oldest waiter's block of a share. -/
def Mach.oldestWaiter (m : Mach) (core : Nat) (s : Share) : Option Nat := (argmin (fun (w : Nat × Nat × AccWait) => w.1) (m.accWaiters core s)).map (fun w => w.2.1)

/-- The youngest holder other than the oldest waiter. -/
def Mach.victim (m : Mach) (core : Nat) (s : Share) : Option Nat :=
  let hs := (m.blocksOn core s.bundle s.launch).filter (fun b => b.2.st = .resident && !b.2.accs.isEmpty && some b.1 ≠ m.oldestWaiter core s)
  (argmin (fun (b : Nat × Block) => 2 ^ 64 - b.2.age) hs).map Prod.fst

/-- A share in which the conditions have held for 256 core cycles. While a holder is being saved its units are still to come free, and no other is chosen. -/
def Mach.stalledShare (m : Mach) (core : Nat) : Option Share :=
  (m.core core).shares.find? (fun s => (match s.stall with
    | some c => c + 256 ≤ (m.shard (shardOf core)).cycle
    | none => false) && m.shareStalled core s && (m.blocksOn core s.bundle s.launch).all (fun b => b.2.st ≠ .saving) && (m.victim core s).isSome)

/-- ACC_DEADLOCK_BREAK: the victim is saved; with its units free the arbiter looks at the waiters again. -/
def Mach.breakDeadlock (e : Fw) (m : Mach) (core : Nat) : Mach :=
  match (m.stalledShare core).bind (m.victim core) with
  | some b => ((m.askSave b 2).forcedSave e b).grantAcc core
  | none => m

def execAccDeadlockBreak (s : State) : Host.Outcome State Fault Refusal := .next { s with m := s.m.breakDeadlock s.fw s.subj.core }

end Sys2Proof.Machine
end

