-- ==== Sys2Proof/Machine/Launch.lean ====
section
/-! DEFINITION. The life of a bundle: its start evaluation and check, its admission, and its retirement (01 R23 to R29, R31, R35, R36; 04 R90 to R101; 05 R119; 12 R320; 17 R432 to R435). -/

namespace Sys2Proof.Machine

/-! ### Reading a bundle (01 R27, R28) -/

namespace Hdr
def nrec (h : List Nat) : Nat := fld h 0 63 60
def seq (h : List Nat) : Nat := fld h 0 31 0
def rcb (h : List Nat) : Nat := fld h 1 63 6 * 64
def compl (h : List Nat) : Nat := fld h 2 63 6 * 64
def ok (h : List Nat) : Bool :=
  1 ≤ nrec h && nrec h ≤ 8 && fld h 0 59 32 == 0 && fld h 1 5 0 == 0 && fld h 2 5 0 == 0 && dw h 3 == 0 && dw h 4 == 0 && dw h 5 == 0 && dw h 6 == 0 && dw h 7 == 0
end Hdr

/-- A launch as its record describes it, before anything of it has started. -/
def Launch.ofRecord (rcd : List Nat) : Launch :=
  { rcd, next := 0, accepted := false, closed := false, live := 0, taken := 0, slips := [], slipSeq := 0, reqWait := none, reqDraft := none, wg := none, wgRecs := [], wgSeq := [], wgTable := [], cov := none }

/-- The records of a bundle as memory holds them: the header, and each launch record that can be read. -/
def readBundle (e : Fw) (m : Mach) (part addr : Nat) : Option (List Nat × List (Option (List Nat))) :=
  (readRecord e m part addr 8).map (fun h => (h, (List.range (Hdr.nrec h)).map (fun i => readRecord e m part (addr + 64 + 128 * i) 16)))

/-- Wait and set masks: the OR over the records that can be read. -/
def orMask (f : Launch → Nat) (ls : List (Option (List Nat))) : Nat := (ls.filterMap id).foldl (fun a r => a ||| f (Launch.ofRecord r)) 0

/-- The wait mask as memory holds it at each evaluation; the check reads the records once more (log 93). -/
def Mach.waitMask (e : Fw) (m : Mach) (x : Bundle) : Nat := ((readBundle e m x.part x.addr).map (fun r => orMask Launch.waitMask r.2)).getD 0

/-- Every bit of the wait mask is set (04 R91). -/
def Mach.startDue (e : Fw) (m : Mach) (x : Bundle) : Bool :=
  x.st = .head && (let w := m.waitMask e x; (m.tenant x.tag).ev.toNat &&& w = w)

/-! ### Queues (04 R90, R91) -/

/-- The oldest entry of a queue not yet started becomes HEAD. -/
def Mach.promote (m : Mach) (queue : Nat) : Mach :=
  let qs := m.bundles.filter (fun b => b.2.queue = queue ∧ (b.2.st = .queued ∨ b.2.st = .head ∨ b.2.st = .admitting))
  if qs.any (fun b => b.2.st ≠ .queued) then m
  else match argmin (fun (b : Nat × Bundle) => b.2.order) qs with
    | some b => m.modBundle b.1 (fun x => { x with st := .head })
    | none => m

/-! ### The completion record (17 R432 to R434) -/

def satF (w v : Nat) : Nat := min (2 ^ w - 1) v

/-- The record's words. -/
def complWords (x : Bundle) : List Nat :=
  let t := x.tally
  let cs := (x.launches.filterMap (fun l => l.2.cov))
  let sum (f : Cov → Nat) : Nat := (cs.map f).sum % 2 ^ 32
  let first := cs.head?
  [x.status * 2 ^ 56 + (if t.ndisc = 0 then 0 else 0x0C) * 2 ^ 48 + t.exc.toNat * 2 ^ 32 + Hdr.seq x.hdr,
   t.blocks % 2 ^ 32 * 2 ^ 32 + t.tasks % 2 ^ 32,
   t.copies % 2 ^ 32 * 2 ^ 32 + satF 16 t.nrestf * 2 ^ 16 + satF 16 t.ndisc,
   t.discseq * 2 ^ 32 + satF 16 t.nuncl * 2 ^ 16 + satF 16 t.nrecd,
   t.refused % 2 ^ 16 * 2 ^ 48 + t.cperr % 16 * 2 ^ 32 + t.rframe,
   sum (·.kept) * 2 ^ 32 + sum (·.skipped),
   sum (·.audited) * 2 ^ 32 + ((first.map (·.est)).getD 0) * 2 ^ 16 + ((first.map (·.f)).getD 0) * 2 ^ 7,
   sum (·.nupd) * 2 ^ 32]

/-- The words as one number, the first lowest. -/
def packWords (ws : List Nat) : Nat := ws.foldr (fun w a => w % 2 ^ 64 + 2 ^ 64 * a) 0

/-- The record is written at COMPL, whole; where it cannot be, SEQ and the status are logged (01 R29). -/
def Mach.putCompl (e : Fw) (m : Mach) (x : Bundle) : Mach :=
  let bad (m : Mach) : Mach := m.partLog x.part [29, Hdr.seq x.hdr, x.status]
  if x.hdr = [] then bad m
  else match walkTo e m x.part (Hdr.compl x.hdr) .store none with
    | (m, .ok pa _) => m.tierWrite pa 64 (packWords (complWords x))
    | (m, .err _) => bad m

/-- The bundle leaves: its set mask is applied, its command-store slot, counters and blocks are released, and its queue goes on. -/
def Mach.dropBundle (m : Mach) (id : Nat) (x : Bundle) (set : Nat) : Mach :=
  let m := { m with bundles := m.bundles.erase id, blocks := m.blocks.filter (fun b => b.2.bundle ≠ id) }
  (m.setEvents x.tag (BitVec.ofNat 256 set)).promote x.queue

/-- A refused bundle: no unit ran, every count is 0 (01 R29; 05 R119). -/
def Mach.refuse (e : Fw) (m : Mach) (id : Nat) (x : Bundle) (hdr : List Nat) (set status : Nat) : Mach :=
  let x := { x with hdr, status, launches := [], tally := {} }
  (m.putCompl e x).dropBundle id x set

/-! ### The check (01 R23 to R26, R29) -/

/-- An RCB through the cache, and the machine with the copy it now holds (R25). -/
def Mach.rcbAt (e : Fw) (m : Mach) (part addr : Nat) : Mach × Option (List Nat) :=
  match m.rcbs.get? (addr * 16 + part) with
  | some r => (m, some r.words)
  | none =>
    match readRecord e m part addr 8 with
    | some ws =>
      let k := addr * 16 + part
      ({ m with rcbs := m.rcbs.set k { words := ws, lowered := [] }, usages := if m.usages.has k then m.usages else m.usages.set k (dw ws 6) }, some ws)
    | none => (m, none)

/-- The chain from a node to the root, `n` nodes at most; `child`: the LEVEL of the node below. None where a check of R26 on a node alone fails. -/
def walkChain (e : Fw) (part : Nat) : Nat → Mach → Nat → Option Nat → Mach × Option (List (Nat × List Nat))
  | 0, m, _, _ => (m, none)
  | n + 1, m, addr, child =>
    match m.rcbAt e part addr with
    | (m, none) => (m, none)
    | (m, some w) =>
      let lv := RcbW.level w
      if !RcbW.valid w || RcbW.rsv w = false || !RcbW.spillOk w || (match child with
          | some c => lv + 1 ≠ c
          | none => false) then (m, none)
      else if lv = 0 then (m, if addr = (e.part part).root then some [(addr, w)] else none)
      else match walkChain e part n m (RcbW.parent w) (some lv) with
        | (m, some up) => (m, some ((addr, w) :: up))
        | x => x

/-- Effective values of the first node of a chain. -/
def effsOf (ws : List (List Nat)) : Tab Nat := (List.range 11).map (fun k => (k, effective k (RcbW.own (ws.getLastD []) k) ws))

/-- Effective values of each node of a chain. -/
def effsAll : List (List Nat) → List (Tab Nat)
  | [] => []
  | w :: r => effsOf (w :: r) :: effsAll r

/-- An effective DEADLINE is not 0 (R26). -/
def effOk (t : Tab Nat) : Bool := t.get 8 0 ≠ 0

/-- Budgets of a chain's nodes that now stand below what is held under the node (R24, R25). -/
def Mach.noteLowered (m : Mach) (part : Nat) (chain : List Nat) (effs : List (Tab Nat)) : Mach :=
  (chain.zip effs).foldl (fun m c =>
    let bs := m.under part c.1
    let now := ([3, 4, 6].map (fun k => (k, c.2.get k 0))).filter (fun b => b.2 < m.heldOf bs b.1)
    { m with rcbs := m.rcbs.modify (c.1 * 16 + part) (fun r => { r with lowered := r.lowered.filter (fun b => now.all (fun n => n.1 ≠ b.1)) ++ now }) }) m

/-- The chain that a bundle's header names, resolved: the nodes and the effective values of each, where every check of R26 holds. -/
def Mach.resolveChain (e : Fw) (m : Mach) (part : Nat) (hdr : List Nat) : Mach × Option (List Nat × List (Tab Nat)) :=
  match walkChain e part 8 m (Hdr.rcb hdr) none with
  | (m, none) => (m, none)
  | (m, some ch) =>
    let effs := effsAll (ch.map Prod.snd)
    if effs.all effOk then (m.noteLowered part (ch.map Prod.fst) effs, some (ch.map Prod.fst, effs)) else (m, none)

/-- The coverage state of a launch whose coverage record and tensor record pass (01 R35). -/
def readCov (e : Fw) (m : Mach) (part : Nat) (l : Launch) : Option Cov :=
  match readRecord e m part l.covrec 4 with
  | none => none
  | some w =>
    match readRecord e m part (CovW.tlr w) 8 with
    | none => none
    | some t => if coverOk w t then some { rcd := w, tlr := t, f := CovW.f w, sum := 0, n := 0, passes := 0, kept := 0, skipped := 0, audited := 0, est := 0, nupd := 0, passed := [], fills := [] } else none

/-- Launches with their coverage states; none where a coverage record fails. -/
def withCovs (e : Fw) (m : Mach) (part : Nat) : List Launch → Option (List Launch)
  | [] => some []
  | l :: r =>
    let l' := if l.cover then (readCov e m part l).map (fun c => { l with cov := some c }) else some l
    match l', withCovs e m part r with
    | some a, some b => some (a :: b)
    | _, _ => none

/-- The bundle is checked in R29's order: the machine, and the bundle ready for admission or the refusal's status. -/
def Mach.check (e : Fw) (m : Mach) (x : Bundle) : Mach × (Except Nat Bundle) :=
  match readBundle e m x.part x.addr with
  | none => (m, .error 0x42)
  | some (h, rs) =>
    if !Hdr.ok h then (m, .error 0x42)
    else match m.resolveChain e x.part h with
      | (m, none) => (m, .error 0x41)
      | (m, some (chain, effs)) =>
        let ls := (rs.filterMap id).map Launch.ofRecord
        if ls.length ≠ rs.length || !ls.all Launch.valid then (m, .error 0x43)
        else match withCovs e m x.part ls with
          | none => (m, .error 0x44)
          | some ls => (m, .ok { x with st := .admitting, hdr := h, launches := ls.mapIdx (fun i l => (i, { l with accepted := !l.persist })), chain, effs })

/-- BUNDLE_START_EVALUATION: a bundle at HEAD whose wait mask is satisfied leaves it and is checked (04 R91; 01 R29). -/
def Mach.startEval (e : Fw) (m : Mach) (id : Nat) (x : Bundle) : Mach :=
  if !m.startDue e x then m
  else match m.check e x with
    | (m, .ok y) => { m with bundles := m.bundles.set id y }
    | (m, .error st) =>
      let r := readBundle e m x.part x.addr
      m.refuse e id x ((r.map Prod.fst).getD []) ((r.map (fun r => orMask Launch.setMask r.2)).getD 0) st

/-! ### The end of a command (03 R69, R71) -/

/-- The command ends: BUSY clears, RESULT is written and vector 0 of the PF is signalled. -/
def State.endCmd (s : State) (result : Nat) : State :=
  { s with fw := { s.fw with win := { s.fw.win with busy := false, result := BitVec.ofNat 8 result, cmd := .none } }, m := s.m.signal 0 0 }

/-- An UNBINDVF ends once no bundle of its tenant is left, whether the last retired or was refused: the queues and quotas return and the event vector is discarded (04 R88). -/
def State.settleUnbind (s : State) : State :=
  match s.fw.win.cmd with
  | .unbind tag =>
    if s.m.bundles.any (fun b => b.2.tag = tag) then s
    else
      ({ s with
        fw := { s.fw with binds := s.fw.binds.erase tag, win := { s.fw.win with vfcfg := s.fw.win.vfcfg.set tag ((s.fw.win.vfcfg.get tag 0) &&& 0x7FFFFFFFFFFFFFFF) } },
        m := { s.m with tenants := s.m.tenants.erase tag } } : State).endCmd 0
  | _ => s

def execBundleStartEvaluation (s : State) : Host.Outcome State Fault Refusal :=
  match s.m.bundles.get? s.subj.bundle with
  | some x => .next ({ s with m := s.m.startEval s.fw s.subj.bundle x } : State).settleUnbind
  | none => .next s

/-- A node of a partition has been flushed: a bundle in ADMIT under it has not started, and takes the new values (R25; 04 R92, R94; log 96). -/
def Mach.reevaluate (e : Fw) (m : Mach) (part node : Nat) : Mach :=
  (m.bundles.filter (fun b => b.2.part = part && b.2.st = .admitting && b.2.chain.contains node)).foldl (fun m b =>
    match m.resolveChain e part b.2.hdr with
    | (m, some (chain, effs)) => m.modBundle b.1 (fun x => { x with chain, effs })
    | (m, none) => m.refuse e b.1 b.2 b.2.hdr (b.2.launches.foldl (fun a l => a ||| l.2.setMask) 0) 0x41) m

/-! ### Admission (04 R92 to R94) -/

/-- Dependence counters held by bundles. -/
def Mach.depHeld (m : Mach) (bs : List Nat) : Nat := (bs.map (fun b => ((m.bundles.get? b).map (·.depctr)).getD 0)).sum

/-- What would be held of a budget once the bundle had begun: one core at least, which it may share with bundles that hold it, and beside what is held the largest share of its vector sub-launches (log 96). -/
def Bundle.wouldHold (x : Bundle) (k held : Nat) : Nat :=
  let vs := x.launches.filter (fun l => l.2.kind = 0)
  match k with
  | 3 => if vs.isEmpty then held else max held 1
  | 4 => held + (vs.map (fun l => l.2.granules)).foldl max 0
  | _ => held

/-- Every node of the chain has room for the bundle, and no budget lowered below usage is still to be fallen below (01 R24, R25; 04 R92). -/
def Mach.budgetsAdmit (m : Mach) (x : Bundle) : Bool :=
  (x.chain.zip x.effs).all (fun c =>
    let bs := m.under x.part c.1
    [3, 4, 6].all (fun k => decide (x.wouldHold k (m.heldOf bs k) ≤ c.2.get k 0)) && decide (m.depHeld bs + x.launches.length ≤ c.2.get 7 0) && m.belowLowered x.part c.1)

/-- The tenant's counter quota has room (03 R75). -/
def Mach.quotaAdmits (e : Fw) (m : Mach) (x : Bundle) : Bool :=
  m.depHeld ((m.bundles.filter (fun b => b.2.tag = x.tag)).map Prod.fst) + x.launches.length ≤ ((e.binds.get? x.tag).map (·.vdepctr)).getD 65536

/-- A partition whose bindings have SHARE ≥ 1 (03 R71). -/
def Fw.shared (e : Fw) (part : Nat) : Bool := e.binds.any (fun b => b.2.part = part && b.2.share ≠ 0)

/-- The bundle's persistent launches, placed one after another on a machine. -/
def Mach.placePersist (e : Fw) (m : Mach) (id : Nat) (x : Bundle) (trial : Bool) : Option Mach :=
  (x.launches.filter (fun l => l.2.kind = 0 && l.2.persist)).foldl (fun m l => m.bind (placeAll e id l.1 trial l.2.blockCount)) (some m)

/-- Bundles that firmware itself launched are bound to no tenant (17 R445). -/
def Mach.turnAdmits (e : Fw) (m : Mach) (x : Bundle) : Bool := !e.shared x.part || x.tag ≥ 64 || (m.part x.part).turn = x.tag

def Mach.admissible (e : Fw) (m : Mach) (id : Nat) (x : Bundle) : Bool :=
  x.st = .admitting && !m.frozenB id && !(m.part x.part).noAdmit && m.turnAdmits e x && m.budgetsAdmit x && m.quotaAdmits e x && (m.placePersist e id x false).isSome

/-- Place of a bundle in the order of admission: priority, then its queue after the last. -/
def Mach.admitKey (m : Mach) (x : Bundle) : Nat := (15 - min 15 (x.eff 0)) * 256 + (x.queue + 255 - (m.part x.part).lastQueue % 256) % 256

/-- The bundle of a partition that is admitted next. -/
def Mach.admitNext (e : Fw) (m : Mach) (part : Nat) : Option (Nat × Bundle) :=
  argmin (fun (b : Nat × Bundle) => m.admitKey b.2) (m.bundles.filter (fun b => b.2.part = part && m.admissible e b.1 b.2))

/-- A persistent launch that would not fit the partition even with nothing else resident. -/
def Mach.persistRefused (e : Fw) (m : Mach) (id : Nat) (x : Bundle) : Bool := x.st = .admitting && ((m.emptied e x.part).placePersist e id x true).isNone

/-- Accounts of the nodes of a chain that this interval has not seen yet. -/
def Mach.openAccounts (e : Fw) (m : Mach) (part : Nat) (nodes : List (Nat × Nat)) : Mach :=
  (List.range 16).foldl (fun m s =>
    if e.coresOn part s = 0 then m
    else m.modShard s (fun h => { h with nodes := nodes.foldl (fun t c => if t.has (c.1 * 16 + part) then t else t.set (c.1 * 16 + part) (e.shareOf part s c.2)) h.nodes })) m

/-- A bundle without a vector sub-launch retires its matrix records at once (12 R320). -/
def Bundle.dropClaims (x : Bundle) : Bundle :=
  { x with
    tally := { x.tally with nuncl := x.tally.nuncl + ((x.launches.filter (fun l => l.2.kind = 1)).map (fun l => l.2.gridX - l.2.taken)).sum },
    launches := x.launches.mapVal (fun l => if l.kind = 1 then { l with taken := l.gridX } else l) }

/-- BUNDLE_ADMIT: the start instant (04 R94). -/
def Mach.admitting (e : Fw) (m : Mach) (id : Nat) (x : Bundle) : Mach :=
  let m := m.openAccounts e x.part (x.chain.zip (x.effs.map (fun t => t.get 5 0)))
  let y := { x with st := .running, admitted := (m.part x.part).admits, depctr := x.launches.length, launches := x.launches.mapVal (fun l => { l with accepted := true }) }
  let y := if y.launches.any (fun l => l.2.kind = 0) then y else y.dropClaims
  let m := { m with bundles := m.bundles.set id y }
  let m := m.modPart x.part (fun p => { p with admits := p.admits + 1, lastQueue := x.queue })
  let m := x.launches.foldl (fun m l => match l.2.cov with
    | some c => m.writeFnow e x.part l.2 c.f
    | none => m) m
  m.promote x.queue

/-- An entry of the tenant has been held back by quota (03 R75). -/
def Mach.raiseDefer (m : Mach) (tag : Nat) : Mach := m.modTenant tag (fun t => t.setField 0x20 31 0 (bits (t.word 0x20) 31 0 + 1))

/-- A bundle in ADMIT that the counter quota holds back, and that is not counted yet (log 98). -/
def Mach.deferDue (e : Fw) (m : Mach) (x : Bundle) : Bool := x.st = .admitting && !x.deferred && !m.quotaAdmits e x

def Mach.countDefer (m : Mach) (id : Nat) (x : Bundle) : Mach := (m.raiseDefer x.tag).modBundle id (fun y => { y with deferred := true })

/-- BUNDLE_ADMIT: refused, counted as deferred, or admitted in its turn. -/
def Mach.admitStep (e : Fw) (m : Mach) (id : Nat) (x : Bundle) : Mach :=
  if m.persistRefused e id x then m.refuse e id x x.hdr (x.launches.foldl (fun a l => a ||| l.2.setMask) 0) 0x45
  else if m.deferDue e x then m.countDefer id x
  else match m.admitNext e x.part with
    | some b => if b.1 = id then m.admitting e id x else m
    | none => m

def execBundleAdmit (s : State) : Host.Outcome State Fault Refusal :=
  match s.m.bundles.get? s.subj.bundle with
  | some x => .next (if x.st = .admitting then ({ s with m := s.m.admitStep s.fw s.subj.bundle x } : State).settleUnbind else s)
  | none => .next s

/-! ### Retirement (04 R96) -/

/-- A vector sub-launch has no block left to place, and none of its blocks is anywhere. -/
def Mach.vectorDone (m : Mach) (id : Nat) (x : Bundle) : Bool :=
  x.launches.all (fun l => l.2.kind ≠ 0 || l.2.blockCount ≤ l.2.next) &&
  m.blocks.all (fun b => b.2.bundle ≠ id || b.2.st = .exited || b.2.st = .held)

/-- Every unit of the bundle has finished. -/
def Mach.retireDue (m : Mach) (id : Nat) (x : Bundle) : Bool :=
  (x.st = .running || x.st = .draining) && m.vectorDone id x && m.darns.all (fun d => d.2.bundle ≠ id) && m.copies.all (fun c => c.2.bundle ≠ id) && m.tasks.all (fun t => t.2.bundle ≠ id) &&
  x.launches.all (fun l => l.2.kind ≠ 2 || (l.2.gridX ≤ l.2.taken && l.2.reqDraft.isNone))

/-- The last update instant of each covered launch (17 R443). -/
def Mach.lastSwatch (e : Fw) (m : Mach) (id : Nat) (x : Bundle) : Mach := x.launches.foldl (fun m l => if l.2.cov.isSome then m.swatch e id l.1 else m) m

/-- BUNDLE_RETIRE: unclaimed records retire, the last updates are made, the completion record is written and the set mask applied. -/
def Mach.retire (e : Fw) (m : Mach) (id : Nat) (x : Bundle) : Mach :=
  if !m.retireDue id x then m
  else
    let m := (m.modBundle id (fun y => { y.dropClaims with st := .draining })).lastSwatch e id x
    let m := x.launches.foldl (fun m l => m.endRecords id l.1) m
    match m.bundles.get? id with
    | none => m
    | some y => (m.putCompl e y).dropBundle id y (y.launches.foldl (fun a l => a ||| l.2.setMask) 0)

def execBundleRetire (s : State) : Host.Outcome State Fault Refusal :=
  match s.m.bundles.get? s.subj.bundle with
  | some x => .next ({ s with m := s.m.retire s.fw s.subj.bundle x } : State).settleUnbind
  | none => .next s

end Sys2Proof.Machine
end

