-- ==== Sys2Proof/Machine/Power.lean ====
section
/-! DEFINITION. Rails, votes and operating points, the control-interval boundary, droop and thermal steps, memory temperature, and reset (05 R118, R124 to R139; 07 R191; 03 R66; 12 R323). -/

namespace Sys2Proof.Machine

/-! ### Operating points and votes (R124, R125) -/

/-- The highest valid vote; OP 0 with none. A vote above the table's last point counts as that point. -/
def targetOf (votes : Nat) : Nat := (List.range 16).foldl (fun t p => if 8 ≤ voteOf votes p then max t (min 5 (voteOf votes p % 8)) else t) 0

/-- The target is formed again: a rise, the cancelling of a fall, or a fall (R127 to R129). -/
def Shard.retarget (s : Shard) : Shard :=
  let t := targetOf s.votes.toNat
  if t = s.optarget then s
  else if s.opnow < t then { s with optarget := t, rising := true, settled := false }
  else if s.opnow = t then { s with optarget := t, rising := decide (s.fcop < t), settled := decide (s.fcop < t) }
  else { s with optarget := t, rising := false, settled := false }

/-- A shard's timing changes: every slice has gone through its cycles so far at the old ratio. -/
def Mach.retime (e : Fw) (m : Mach) (shard : Nat) (f : Shard → Shard) : Mach := (m.catchShard e shard).modShard shard f

def Shard.setVote (s : Shard) (p v : Nat) : Shard := { s with votes := BitVec.ofNat 64 (putBits s.votes.toNat (4 * p + 3) (4 * p) v) }.retarget

def execVotesWrite (vote : BitVec 4) (s : State) : Host.Outcome State Fault Refusal :=
  .next (if s.subj.part < 16 then { s with m := s.m.retime s.fw s.subj.shard (fun h => h.setVote s.subj.part vote.toNat) } else s)

/-- A partition with no core left on a shard has no valid vote there (R125). -/
def Mach.dropVotes (e : Fw) (m : Mach) (part : Nat) : Mach :=
  (List.range 16).foldl (fun m s => if e.coresOn part s = 0 then m.retime e s (fun h => if 8 ≤ voteOf h.votes.toNat part then h.setVote part (voteOf h.votes.toNat part - 8) else h) else m) m

/-- The regulator reports settled (R127). -/
def execRegulatorSettled (s : State) : Host.Outcome State Fault Refusal :=
  .next { s with m := s.m.modShard s.subj.shard (fun h => if h.rising then { h with settled := true } else h) }

/-- Below the point in force, FC goes to the target's (R128), from a lower one too where the fall in hand has been replaced (R129). -/
def Shard.fallDue (h : Shard) : Bool := h.optarget < h.opnow && h.optarget ≠ h.fcop
def execFrequencyFall (s : State) : Host.Outcome State Fault Refusal :=
  .next (if (s.m.shard s.subj.shard).fallDue then { s with m := s.m.retime s.fw s.subj.shard (fun h => { h with fcop := h.optarget }) } else s)

/-! ### Droop (R132, R133) -/

def Shard.setDstep (h : Shard) (p v : Nat) : Shard := { h with dsteps := BitVec.ofNat 48 (putBits h.dsteps.toNat (3 * p + 2) (3 * p) v) }

/-- Partitions with cores on a shard. -/
def Fw.partsOn (e : Fw) (shard : Nat) : List Nat := (e.parts.filter (fun p => p.2.inUse && e.coresOn p.1 shard ≠ 0)).map Prod.fst

/-- Partitions that a droop event is charged to. -/
def Shard.charged (h : Shard) (ps : List Nat) : List Nat :=
  let rose := ps.filter (fun p => h.delivPrev.get p 0 < h.deliv.get p 0)
  if rose = [] then ps else rose

/-- DROOP_EVENT on a shard; the subject names the core nearest the sensor. -/
def Mach.droopEvent (e : Fw) (m : Mach) (shard core : Nat) : Mach :=
  let m := m.retime e shard (fun h =>
    let ps := h.charged (e.partsOn shard)
    { ps.foldl (fun (h : Shard) p => h.setDstep p (min 4 (h.dstep p + 1))) h with drooped := (h.drooped ++ ps).eraseDups })
  m.modCore core (fun c => { c with droopNow := c.droopNow + 1 })

def execDroopEvent (s : State) : Host.Outcome State Fault Refusal :=
  .next (if shardOf s.subj.core = s.subj.shard then { s with m := s.m.droopEvent s.fw s.subj.shard s.subj.core } else s)

/-! ### The boundary (07 R191; 05 R118, R127, R128, R133, R136 to R138) -/

/-- TOKENS of a partition's root as firmware last wrote it: while a RESIZE runs it is that of the cores before it (03 R70, R77). -/
def Fw.rootTokens (e : Fw) (part : Nat) : Nat := (e.part part).tokens

/-- The shard accounts of every node whose bundle runs, and of the roots. -/
def Mach.nodeShares (e : Fw) (m : Mach) (shard : Nat) : Tab Nat :=
  let roots := (e.partsOn shard).foldl (fun (t : Tab Nat) p => t.set ((e.part p).root * 16 + p) (e.shareOf p shard (e.rootTokens p))) []
  m.bundles.foldl (fun t b =>
    if b.2.st = .running ∨ b.2.st = .draining then (b.2.chain.dropLast.zip b.2.effs).foldl (fun (t : Tab Nat) c => t.set (c.1 * 16 + b.2.part) (e.shareOf b.2.part shard (c.2.get 5 0))) t
    else t) roots

/-- Rails at a boundary: a settled rise takes hold; a fall's voltage follows once R128 allows. -/
def Shard.railStep (h : Shard) (now : Nat) : Shard :=
  if h.rising && h.settled then { h with opnow := h.optarget, fcop := h.optarget, lastrise := now, rising := false, settled := false }
  else if !h.rising && h.optarget < h.opnow && h.fcop = h.optarget && h.lastrise + 40000 ≤ now then { h with opnow := h.optarget }
  else h

/-- Partitions charged nothing fall by one step. -/
def Shard.droopDecay (h : Shard) : Shard :=
  { (List.range 16).foldl (fun (h : Shard) p => if h.drooped.contains p then h else h.setDstep p (h.dstep p - 1)) h with drooped := [] }

/-- Entry temperature of a throttle step. -/
def stepEntry (k : Nat) : Nat :=
  match k with
  | 0 => 0 | 1 => 95 | 2 => 100 | 3 => 103 | _ => 106

def stepReached (t : Nat) : Nat := if 106 ≤ t then 4 else if 103 ≤ t then 3 else if 100 ≤ t then 2 else if 95 ≤ t then 1 else 0

/-- The temperature of the trip (R138, R139). -/
def tripAt : Nat := 110

/-- The trip, without firmware: issue stops on the shard, and its rail goes to OP 0 (R139). -/
def Shard.trip (h : Shard) : Shard := { h with stopped := true, opnow := 0, optarget := 0, fcop := 0, rising := false, settled := false }

/-- THSTEP after a reading of the hottest core (R138), or the trip. -/
def Shard.thermalStep (h : Shard) (t : Nat) : Shard :=
  if tripAt ≤ t then { h with thstep := 4, cool := 0 }.trip
  else if h.thstep < stepReached t then { h with thstep := stepReached t, cool := 0 }
  else if h.thstep ≠ 0 && t + 4 ≤ stepEntry h.thstep then (if h.cool = 3 then { h with thstep := h.thstep - 1, cool := 0 } else { h with cool := h.cool + 1 })
  else { h with cool := 0 }

/-- The samples of a core: TEMP and DROOP are 8 bits wide (R135). -/
def Mach.sampleCores (m : Mach) (shard : Nat) (temps : List Nat) : Mach :=
  (List.range 16).foldl (fun m k => m.modCore (16 * shard + k) (fun c => { c with temp := min 255 (temps.getD k c.temp), droop := min 255 c.droopNow, droopNow := 0, bank := 0 })) m

def Mach.hottest (m : Mach) (shard : Nat) : Nat := (List.range 16).foldl (fun t k => max t (m.core (16 * shard + k)).temp) 0

/-- Set-asides are lost; their marks stay. -/
def Mach.loseAsides (m : Mach) (shard : Nat) : Mach :=
  { m with
    slices := m.slices.map (fun s => if s.1 / 128 = shard then (s.1, { s.2 with mark := s.2.mark.map (fun k => { k with set := false }) }) else s),
    macros := m.macros.mapVal (fun x => if shardOf x.core = shard then { x with mark := x.mark.map (fun k => { k with set := false }) } else x) }

/-- What reservations have left is lost with the interval: the work they were for stops at its next step boundary (12 R322; log 109). -/
def Mach.loseReserves (m : Mach) (shard : Nat) : Mach :=
  { m with
    mmas := m.mmas.mapVal (fun x => if shardOf x.core = shard then { x with reserve := 0 } else x),
    tasks := m.tasks.mapVal (fun (t : Task) => if shardOf t.core = shard then { t with reserve := 0 } else t) }

/-- The boundary's effects on a shard. -/
def Mach.boundary (e : Fw) (m : Mach) (shard : Nat) (temps : List Nat) : Mach :=
  let h := m.shard shard
  let now := intervalCycles * h.interval
  let m := (((m.catchShard e shard).sampleCores shard temps).loseAsides shard).loseReserves shard
  let nodes := m.nodeShares e shard
  let t := m.hottest shard
  let m := m.modShard shard (fun h =>
    { ((h.railStep now).droopDecay).thermalStep t with
      interval := h.interval + 1, boundary := now, acct := h.supply.toNat * 625, nodes, delivPrev := h.deliv, deliv := [] })
  if (m.shard shard).thstep = h.thstep then m
  else (e.partsOn shard).foldl (fun m p => m.partLog p [138, shard, (m.shard shard).thstep, t]) (m.devLog [138, shard, (m.shard shard).thstep, t])

/-- Band entered at a temperature. -/
def bandReached (t : Nat) : Nat := if 105 ≤ t then 3 else if 95 ≤ t then 2 else if 85 ≤ t then 1 else 0
def bandEntry (b : Nat) : Nat :=
  match b with
  | 0 => 0 | 1 => 85 | 2 => 95 | _ => 105
/-- A channel leaves its band, and those below, 3 °C below each one's threshold. -/
def bandFall (t : Nat) : Nat → Nat
  | 0 => 0
  | b + 1 => if t + 3 ≤ bandEntry (b + 1) then bandFall t b else b + 1
def bandNext (b t : Nat) : Nat := if b < bandReached t then bandReached t else bandFall t b
/-- Available bandwidth in 1/64. -/
def bandWidth (b : Nat) : Nat :=
  match b with
  | 0 => 64 | 1 => 60 | 2 => 44 | _ => 16

def chansOf (mask : Nat) : List Nat := (List.range 32).filter (fun c => bit mask c)

/-- BWFRAC of a partition (R137). -/
def Fw.bwfrac (e : Fw) (part : Nat) : Nat :=
  let cs := chansOf (e.part part).chans
  (cs.map (fun c => bandWidth (e.bands.get c 0))).sum / max 1 cs.length

/-- PCORES and BWFRAC in the VCP page of every bound tenant (03 R73). -/
def Mach.postCapacity (e : Fw) (m : Mach) : Mach :=
  e.binds.foldl (fun m b => m.modTenant b.1 (fun t => t.setWord 0x28 (e.coreCount b.2.part * 2 ^ 55 + e.bwfrac b.2.part * 2 ^ 48))) m

/-- Memory temperatures, read at shard 0's boundary (R136). -/
def Fw.setBands (e : Fw) (chans : List Nat) : Fw :=
  { e with bands := (chans.mapIdx (fun i t => (i, t))).foldl (fun (b : Tab Nat) (c : Nat × Nat) => b.set c.1 (bandNext (b.get c.1 0) c.2)) e.bands }

/-- CONTROL_INTERVAL_BOUNDARY of a shard, with the temperatures of its cores and, on shard 0, of the channels. -/
def execControlIntervalBoundary (temps chans : List Nat) (s : State) : Host.Outcome State Fault Refusal :=
  if 16 ≤ s.subj.shard || !(s.m.shard s.subj.shard).boundaryDue then .next s
  else
    let m := s.m.boundary s.fw s.subj.shard temps
    if s.subj.shard = 0 then
      let fw := s.fw.setBands (chans.take 32)
      .next { s with fw, m := if fw.bands = s.fw.bands then m else m.postCapacity fw }
    else .next { s with m }

/-! ### Reset (03 R66, R84, R85) and the trip (05 R139) -/

/-- The image that a reset leaves in force: an accepted one that waited for it. -/
def Fw.nextImage (e : Fw) : Image := e.imageNext.getD e.image

/-- The device after a reset: fuses, the image in flash, the board's envelope and the device error log stay (log 22). -/
def State.afterReset (s : State) (life : LifeState) : State :=
  let i := s.fw.nextImage
  { s with
    fw := { Fw.reset with life, image := i, rollback := if s.fw.rollback < i.version then i.version else s.fw.rollback, fenced := s.fw.fenced, capreg := s.fw.capreg, envelope := s.fw.envelope },
    m := { Mach.reset with devlog := s.m.devlog, fresh := s.m.fresh } }

def execReset (s : State) : Host.Outcome State Fault Refusal := .next (s.afterReset s.fw.life)

/-- The trip has stopped a shard. -/
def Mach.tripped (m : Mach) (shard : Nat) : Bool := (m.shard shard).stopped

/-- THERMAL_TRIP of a shard that has tripped: logged, and the device is reset. -/
def execThermalTrip (s : State) : Host.Outcome State Fault Refusal :=
  .next (if s.m.tripped s.subj.shard then ({ s with m := s.m.devLog [139, s.subj.shard] } : State).afterReset s.fw.life else s)

/-- Transitions of the life cycle, and who commands them (03 R65). -/
def lifeMove (a b : LifeState) (k : LifeKey) (released : Bool) : Bool :=
  match a, b with
  | .manufactured, .provisioned => k = .factory
  | .provisioned, .deployed => k = .owner
  | .deployed, .returned => k = .owner || released
  | .returned, .provisioned => k = .factory
  | .retired, .retired => false
  | _, .retired => true
  | _, _ => false

/-- LIFECYCLE_TRANSITION: the state moves, and the device is wiped as at reset. -/
def execLifecycleTransition (target : LifeState) (key : LifeKey) (released : Bool) (s : State) : Host.Outcome State Fault Refusal :=
  .next (if lifeMove s.fw.life target key released then s.afterReset target else s)

end Sys2Proof.Machine
end

