-- ==== Sys2Proof/Machine/Ring.lean ====
section
/-! DEFINITION. The Tension Ring: revolutions, passes, reservations and refills (07 R190 to R195; 05 R131). -/

namespace Sys2Proof.Machine

/-! ### Reservations (R192, R194, R195) -/

/-- A reservation at a station: its marking cycle, its place within the cycle, who holds it (a slice, or a macro-instruction), its price and the bundle whose nodes it is charged to. -/
structure Reserve where
  cycle : Nat
  rank : Nat
  who : Nat ⊕ Nat
  price : Nat
  bundle : Option Nat
  deriving DecidableEq, Repr

def Reserve.key (r : Reserve) : Nat := r.cycle * 8 + r.rank

/-- The reservations of a core that are still outstanding. -/
def Mach.reserves (m : Mach) (core : Nat) : List Reserve :=
  let ss : List Reserve := (List.range 6).filterMap (fun k => match (m.slc core k).mark with
    | some x => if x.set then none else some { cycle := x.cycle, rank := k, who := .inl k, price := x.price, bundle := (m.blockOf core x.oldest.slot).map (·.bundle) }
    | none => none)
  let ms : List Reserve := (m.macros.filter (fun x => x.2.core = core)).filterMap (fun x => match x.2.mark with
    | some y => if y.set then none else some { cycle := y.cycle, rank := 6 + x.2.seq, who := .inr x.1, price := y.price, bundle := (m.blockOf core y.oldest.slot).map (·.bundle) }
    | none => none)
  (ss ++ ms).foldl (fun (q : List Reserve) (x : Reserve) => q.filter (fun (y : Reserve) => y.key ≤ x.key) ++ x :: q.filter (fun (y : Reserve) => x.key < y.key)) []

/-- Tokens set aside at a core. -/
def Mach.asides (m : Mach) (core : Nat) : Nat :=
  ((List.range 6).map (fun k => match (m.slc core k).mark with
    | some x => if x.set then x.price else 0
    | none => 0)).sum +
  ((m.macros.filter (fun x => x.2.core = core)).map (fun x => match x.2.mark with
    | some y => if y.set then y.price else 0
    | none => 0)).sum

/-- Prices outstanding at the stations after a pass. -/
def Mach.owedLater (m : Mach) (shard pass : Nat) : Nat := (((List.range 16).filter (fun k => pass < k)).map (fun k => ((m.reserves (16 * shard + k)).map (·.price)).sum)).sum

/-! ### Limits of a take (R131, R192) -/

def Fw.rootKey (e : Fw) (part : Nat) : Nat := (e.part part).root * 16 + part

/-- What the slew limit still allows a partition in this interval. -/
def Mach.slewRoom (e : Fw) (m : Mach) (part shard : Nat) : Nat :=
  let h := m.shard shard
  if (e.part part).slew = 0 then 2 ^ 32
  else h.delivPrev.get part 0 + (e.part part).slew * e.shareOf part shard (e.rootTokens part) / 64 - h.deliv.get part 0

/-- Accounts of a reserved group: every node of its chain, root included. -/
def Mach.reserveKeys (e : Fw) (m : Mach) (part : Nat) (r : Reserve) : List Nat :=
  match r.bundle.bind (fun b => m.bundles.get? b) with
  | some b => b.nodeKeys ++ [e.rootKey part]
  | none => [e.rootKey part]

/-- Tokens leave the packet, the interval account and the nodes' accounts. -/
def Mach.takeTokens (m : Mach) (shard part n : Nat) (keys : List Nat) : Mach :=
  m.modShard shard (fun h => { h with
    packet := h.packet - n, acct := h.acct - n, nodes := keys.foldl (fun t k => t.set k (t.get k 0 - n)) h.nodes, deliv := h.deliv.set part (h.deliv.get part 0 + n) })

/-- A reservation is served when its price can be taken whole. -/
def Mach.serve (e : Fw) (shard pass part : Nat) (m : Mach) (r : Reserve) : Mach :=
  let h := m.shard shard
  let keys := m.reserveKeys e part r
  if r.price + m.owedLater shard pass ≤ h.packet && r.price ≤ h.acct && keys.all (fun k => r.price ≤ h.nodes.get k 0) && r.price ≤ m.slewRoom e part shard then
    let m := m.takeTokens shard part r.price keys
    match r.who with
    | .inl k => m.modSlc (16 * shard + pass) k (fun s => { s with mark := s.mark.map (fun x => { x with set := true }) })
    | .inr id => m.modMacro id (fun x => { x with mark := x.mark.map (fun y => { y with set := true }) })
  else m

/-- The bank is refilled up to DRAWCAP. -/
def Mach.refillBank (e : Fw) (m : Mach) (shard pass part : Nat) : Mach :=
  let core := 16 * shard + pass
  let h := m.shard shard
  let want := h.drawcap.toNat - m.asides core - (m.core core).bank
  let n := min (min want (h.packet - m.owedLater shard pass)) (min (min h.acct (h.nodes.get (e.rootKey part) 0)) (m.slewRoom e part shard))
  if n = 0 then m else (m.takeTokens shard part n [e.rootKey part]).modCore core (fun c => { c with bank := c.bank + n })

/-! ### Revolutions and passes (R190) -/

def execRevolutionStart (s : State) : Host.Outcome State Fault Refusal :=
  .next (if s.subj.shard < 16 && (s.m.shard s.subj.shard).revDue && !(s.m.shard s.subj.shard).boundaryDue then
    { s with m := s.m.modShard s.subj.shard (fun h => { h with rev := h.rev + 1, pass := 1, packet := min h.supply.toNat h.acct }) } else s)

/-- A station keeps a bank for a partition with blocks on its core, and serves the handler in hand there (R192; 16 R404). -/
def Mach.stationActive (m : Mach) (core part : Nat) : Bool :=
  m.handlerActive core || m.blocks.any (fun b => b.2.core = core && (b.2.st = .resident || b.2.st = .saving) && m.partOf b.2 = part)

/-- RING_PASS of the next station: reservations, then refill. -/
def Mach.ringPass (e : Fw) (m : Mach) (shard : Nat) : Mach :=
  let pass := (m.shard shard).pass - 1
  let m := match (e.ownerOf (16 * shard + pass)).filter (m.stationActive (16 * shard + pass)) with
    | some part => Mach.refillBank e ((m.reserves (16 * shard + pass)).foldl (Mach.serve e shard pass part) m) shard pass part
    | none => m
  m.modShard shard (fun h => { h with pass := h.pass + 1 })

def execRingPass (s : State) : Host.Outcome State Fault Refusal :=
  .next (if s.subj.shard < 16 && (s.m.shard s.subj.shard).passDue && !(s.m.shard s.subj.shard).boundaryDue then { s with m := s.m.ringPass s.fw s.subj.shard } else s)

/-! ### Marks (R194, R195) -/

/-- The price of the instruction that a thread stands at. -/
def Mach.priceAt (e : Fw) (m : Mach) (core slice : Nat) (x : Member) : Nat :=
  match (m.slc core slice).held.get? (vk x.slot x.lane) with
  | some h => wordPrice e m core h.2
  | none => 0

/-- A slice marks the candidate that has waited a revolution. -/
def Mach.markSlice (e : Fw) (m : Mach) (core slice : Nat) (pc : DWord) : Mach :=
  match m.markPick core slice with
  | some k =>
    let x : Member := { slot := k / 32 % 128, lane := k % 32 }
    let here := ((m.warp core x.slot).thread x.lane).pc
    if pcKey here = pcKey pc then
      m.modSlc core slice (fun s => { s with mark := some { pc := here, oldest := x, cycle := (m.shard (shardOf core)).cycle, price := m.priceAt e core slice x, set := false } })
    else m
  | none => m

/-- A sequencer's step has waited a revolution. -/
def Mach.macroMarkDue (m : Mach) (x : MacroOp) : Bool :=
  x.mark.isNone && (match x.since with
    | some c => c + revolution ≤ m.shardCycle x.core
    | none => false)

def Mach.markMacro (m : Mach) (id : Nat) (x : MacroOp) : Mach :=
  if m.macroMarkDue x then
    m.modMacro id (fun y => { y with mark := some { pc := x.pc, oldest := x.members.headD { slot := 0, lane := 0 }, cycle := m.shardCycle x.core, price := stepPrice x.mn, set := false } })
  else m

/-- RESERVATION_MARK: of a macro-instruction where the subject names one, otherwise of a slice. -/
def execReservationMark (pc : DWord) (s : State) : Host.Outcome State Fault Refusal :=
  match s.m.macros.get? s.subj.id with
  | some x => .next { s with m := s.m.markMacro s.subj.id x }
  | none => .next { s with m := s.m.markSlice s.fw s.subj.core s.subj.unit pc }

end Sys2Proof.Machine
end

