-- ==== Sys2Proof/Machine/Window.lean ====
section
/-! DEFINITION. The host management window: partitions created, resized and destroyed, tenants bound and unbound, time slices, wipes and page moves, and the decision over a frozen fault domain (03 R64 to R72, R77 to R81; 16 R429, R430). -/

namespace Sys2Proof.Machine

/-! ### Results (R69) -/

def resBadPart : Nat := 1
def resCoreTaken : Nat := 2
def resChanTaken : Nat := 3
def resShareOver : Nat := 4
def resQuotaOver : Nat := 5
def resPersistHeld : Nat := 6
def resShareMode : Nat := 7
def resReserved : Nat := 8
def resEmpty : Nat := 9
def resPaused : Nat := 10

/-! ### Registers of the window (R68) -/

namespace Win
def part (w : Win) : Nat := bits w.psel.toNat 3 0
def mask (w : Win) : Nat := (w.corem.get w.part 0).toNat
def chanW (w : Win) : Nat := (w.chan.get w.part 0).toNat
def chans (w : Win) : Nat := bits w.chanW 31 0
def shareW (w : Win) : Nat := (w.share.get w.part 0).toNat
def t0 (w : Win) : Nat := bits w.shareW 63 48
def t2 (w : Win) : Nat := bits w.shareW 43 32
def qslots (w : Win) : Nat := bits w.shareW 31 16
def depctr (w : Win) : Nat := bits w.shareW 15 0
def timeW (w : Win) : Nat := (w.time.get w.part 0).toNat
def deadline (w : Win) : Nat := bits w.timeW 63 32
def slice (w : Win) : Nat := bits w.timeW 31 16
def slew (w : Win) : Nat := bits w.timeW 5 0
def tag (w : Win) : Nat := bits w.vfsel.toNat 5 0
def cfg (w : Win) : Nat := (w.vfcfg.get w.tag 0).toNat
/-- The last write of a word carried a nonzero reserved field. -/
def broke (w : Win) (off bank : Nat) : Bool := w.rsv.contains (off, bank)
/-- So of a word that a partition's commands take (R69). -/
def partRsv (w : Win) : Bool := w.broke 0x100 0 || w.broke 0x128 w.part || w.broke 0x130 w.part || w.broke 0x138 w.part
/-- So of a word that a binding's commands take. -/
def bindRsv (w : Win) : Bool := w.broke 0x160 0 || w.broke 0x168 w.tag
/-- A word is written: its register takes the bits of its fields and ignores the rest (00 R10, R12), and a nonzero reserved field among these is noted for the command that takes the word (R69). -/
def note (w : Win) (off bank : Nat) (v keep : DWord) : Win := { w with rsv := w.rsv.filter (· ≠ (off, bank)) ++ (if v &&& ~~~keep = 0 then [] else [(off, bank)]) }
end Win

/-- The fields of a PCMD word, and its reserved bits. -/
def pcmdCode (w : DWord) : Nat := bits w.toNat 3 0
def pcmdForce (w : DWord) : Bool := bit w.toNat 8
def pcmdRsv (w : DWord) : Bool := bits w.toNat 63 9 != 0 || bits w.toNat 7 4 != 0

/-- The lowest result among the causes that hold; 0 where none does. -/
def lowest (xs : List (Bool × Nat)) : Nat := minCause (xs.map (fun x => if x.1 then x.2 else 0))

/-- A write to the window's registers while BUSY is 1 is discarded and sets DROP. -/
def State.whenIdle (s : State) (f : State → State) : State :=
  if s.fw.win.busy then { s with fw := { s.fw with win := { s.fw.win with drop := true } } } else f s

def State.modPartCfg (s : State) (p : Nat) (f : PartCfg → PartCfg) : State := { s with fw := { s.fw with parts := s.fw.parts.set p (f (s.fw.part p)) } }

/-- The partition is paused in a host-assisted RESIZE. -/
def Fw.paused (e : Fw) (p : Nat) : Bool := ((e.part p).resize.map Resize.paused).getD false

/-- The command runs: BUSY is set. -/
def State.beginCmd (s : State) (c : Cmd) : State := { s with fw := { s.fw with win := { s.fw.win with busy := true, cmd := c } } }

/-! ### Resources (R69, R70) -/

/-- Partitions in use other than one. -/
def Fw.others (e : Fw) (p : Nat) : List PartCfg := (e.parts.filter (fun q => q.2.inUse && q.1 ≠ p)).map Prod.snd

def Fw.coreTaken (e : Fw) (p mask : Nat) : Bool := (coresOf mask).any (fun c => e.fenced.contains c || (e.others p).any (fun q => bit q.cores c))

/-- What a partition owns while a RESIZE of it runs is what it had and what it takes. -/
def PartCfg.chansHeld (q : PartCfg) : Nat := q.chans ||| (q.resize.map (·.chans)).getD 0
def PartCfg.t0Held (q : PartCfg) : Nat := max q.t0 ((q.resize.map (·.t0)).getD 0)
def PartCfg.t2Held (q : PartCfg) : Nat := max q.t2 ((q.resize.map (·.t2)).getD 0)

def Fw.chanTaken (e : Fw) (p chans : Nat) : Bool := (e.others p).any (fun q => q.chansHeld &&& chans != 0)

def Fw.shareOver (e : Fw) (p t0 t2 : Nat) : Bool :=
  256 < t0 + ((e.others p).map PartCfg.t0Held).sum || Config.tier2GiB < t2 + ((e.others p).map PartCfg.t2Held).sum

/-- PCHAN's channels cannot hold the ring and the save area. -/
def ringOver (mask chans : Nat) : Bool := chans ≠ 0 && (chansOf chans).length * 2 ^ 34 < 2 ^ 26 + 4096 + 16 * (coresOf mask).length * 2 ^ 23

/-- Causes that CREATE and RESIZE share. -/
def Fw.takeCauses (e : Fw) : List (Bool × Nat) :=
  let w := e.win
  [(e.coreTaken w.part w.mask, resCoreTaken), (e.chanTaken w.part w.chans, resChanTaken), (e.shareOver w.part w.t0 w.t2, resShareOver), (w.mask = 0 || w.chans = 0, resEmpty),
   (w.partRsv, resReserved)]

/-! ### The root (R70) -/

/-- Words of a partition's root RCB. -/
def PartCfg.rootWords (p : PartCfg) (cores : Nat) : List Nat :=
  [2 ^ 63 + 15 * 2 ^ 56 + 4 * 2 ^ 44 + 0x7FF, 0, cores * 2 ^ 55 + 64 * cores * 2 ^ 40 + cores * 72 * intervalCycles, p.qslots * 2 ^ 48 + p.depctr * 2 ^ 32 + p.deadline,
   p.spill + 26, p.savearea, 0, 0]

/-- The root is written and flushed, and the device's copy of it with it (01 R25); its TOKENS are those of the cores it now has (R70, R77). -/
def State.writeRoot (s : State) (p : Nat) : State :=
  let s := s.modPartCfg p (fun q => { q with tokens := s.fw.coreCount p * 72 * intervalCycles })
  let c := s.fw.part p
  let ws := c.rootWords (s.fw.coreCount p)
  let k := c.root * 16 + p
  let m := firmwarePut s.fw p s.m c.root (ws.take 6)
  let m := { m with rcbs := m.rcbs.set k { words := ws, lowered := [] }, usages := m.usages.set k (m.usages.get k 0) }
  { s with m := Mach.reevaluate s.fw m p c.root }

/-! ### The supply (00 R2; 05 R130; 07 R198) -/

/-- Watts that the rated supply stands for. -/
def ratedWatts : Nat := 2800

/-- SUPPLY of a shard for the partitions that now hold its cores: 625 revolutions make an interval; less in proportion where the board declares less than the rated envelope, and never below the reservations its stations can hold (log 8). -/
def Fw.supply (e : Fw) (shard : Nat) : Nat :=
  let full := ((e.partsOn shard).map (fun p => e.shareOf p shard (e.rootTokens p))).sum / 625
  max (full * min e.envelope ratedWatts / ratedWatts) (80 * ((e.partsOn shard).map (fun p => e.coresOn p shard)).sum)

def State.setSupply (s : State) : State :=
  { s with m := (List.range 16).foldl (fun m k => if (m.shard k).supply.toNat = s.fw.supply k then m else m.modShard k (fun h => { h with supply := BitVec.ofNat 32 (s.fw.supply k) })) s.m }

/-- Cores are about to change hands: every slice has gone through its cycles so far under its present owner's ratio. -/
def State.catchAll (s : State) : State := { s with m := (List.range 16).foldl (fun m k => m.catchShard s.fw k) s.m }

/-! ### Frames (03 R66, R70, R79; 10 R265) -/

/-- Bytes of pages go. -/
def wipePages (t : Tab Byte) (fs : List Nat) : Tab Byte := t.filter (fun c => !fs.contains (c.1 / 4096))

/-- A frame in nobody's hands, wiped. -/
def Fw.cleanFrame (e : Fw) (m : Mach) (f : Nat) : Bool :=
  frameBacked f && (e.owners.get? f).isNone && !e.wiping (.page f) && !m.retired.contains f && m.mem.all (fun c => c.1 / 4096 != f) && m.poison.all (fun g => g / 4096 != f)

def tier1Frames : List Nat := (List.range 0x8000000).map (0x10000000 + ·)
def inTier0 (f : Nat) : Bool := f < 0x400000
def inTier1 (f : Nat) : Bool := 0x10000000 ≤ f && f < 0x18000000
def inTier2 (f : Nat) : Bool := 0x20000000 ≤ f

/-- The frame lies on one of the channels of a mask. -/
def onChannels (chans f : Nat) : Bool := inTier1 f && bit chans (Config.channelOf f % 32)

/-- Translations of a partition's cores are invalidated (10 R268). -/
def Mach.dropXlats (e : Fw) (m : Mach) (p : Nat) : Mach := (coresOf (e.part p).cores).foldl (fun m c => m.modCore c (fun k => k.dropXl (fun _ => true))) m

/-- Frames leave their owner and are wiped; each wipe is noted under a partition (R67). -/
def State.freeFrames (s : State) (fs : List Nat) (p : Nat) : State :=
  { s with
    fw := { s.fw with owners := s.fw.owners.filter (fun o => !fs.contains o.1), wipes := s.fw.wipes ++ fs.map (fun f => (WipeRes.page f, p)) },
    m := { s.m with mem := wipePages s.m.mem fs, poison := s.m.poison.filter (fun g => !fs.contains (g / 4096)) } }

/-- A frame that is not retired is handed to a partition: wiped before its first mapping there. -/
def State.giveFrame (s : State) (f p : Nat) : State :=
  if s.fw.owners.get? f = some p || !(s.fw.part p).inUse || s.m.retired.contains f then s
  else
    let m := match s.fw.owners.get? f with
      | some q => s.m.dropXlats s.fw (q % 16)
      | none => s.m
    let s := ({ s with m } : State).freeFrames [f] p
    { s with fw := { s.fw with owners := s.fw.owners.set f p } }

/-! ### CREATE (R70) -/

/-- Where firmware maps what it gives a partition: the root RCB, the spill ring, the dump region, the page tables and the save area (log 94). -/
def regionAt (part : Nat) : Nat := Config.regionSlot part % 512 * 2 ^ 48
def ringAt (part : Nat) : Nat := regionAt part + 2 ^ 32
def dumpAt (part : Nat) : Nat := regionAt part + 2 ^ 33
def tablesAt (part : Nat) : Nat := regionAt part + 2 ^ 34
def saveAt (part : Nat) : Nat := regionAt part + 2 ^ 36

/-- Virtual addresses of `n` pages, and whether they are firmware's, which the partition reads and never writes. -/
def regionRun (va n : Nat) (own : Bool) : List (Nat × Bool) := (List.range n).map (fun i => (va + 4096 * i, own))

/-- The pages of a new partition: its root RCB, a ring of 64 MiB, a dump region of 17 MiB, and a save area of 16 frames of 8 MiB a core behind its header. -/
def createPages (part cores : Nat) : List (Nat × Bool) :=
  regionRun (regionAt part) 1 true ++ regionRun (ringAt part) 16384 true ++ regionRun (dumpAt part) 4352 true ++ regionRun (saveAt part) (1 + 2048 * (16 * cores)) false

/-- What CREATE takes: memory with its tables in it, the translation root, each frame's owner, and the frames that firmware holds ready. -/
structure Layout where
  mem : Tab Byte
  xlat : Nat
  owners : List (Nat × Nat)
  pool : List Nat
  deriving DecidableEq, Repr

/-- The layout from frames in order: the root table, the pages, then tables and the pool; none where they do not suffice. -/
def layOut (part : Nat) (ps : List (Nat × Bool)) (mem : Tab Byte) : List Nat → Option Layout
  | [] => none
  | root :: fs =>
    let data := fs.take ps.length
    let spare := fs.drop ps.length
    if data.length < ps.length then none
    else match mapPages (root * 4096) ((ps.zip data).map (fun p => (p.1.1, pageEntry false (!p.1.2) true p.2))) mem spare with
      | none => none
      | some (mem, rest) =>
        let tables := root :: spare.take (spare.length - rest.length)
        let pool := rest.take (Config.poolPages part)
        some { mem, xlat := root * 4096, owners := (ps.zip data).map (fun p => (p.2, if p.1.2 then fwOwner part else part)) ++ (tables ++ pool).map (fun f => (f, part)), pool }

/-- What CREATE of the partition that PSEL names would take. -/
def State.layout (s : State) : Option Layout :=
  let w := s.fw.win
  layOut w.part (createPages w.part (coresOf w.mask).length) s.m.mem (tier1Frames.filter (fun f => onChannels w.chans f && s.fw.cleanFrame s.m f))

/-- The partition as PSEL's registers describe it. -/
def Win.newPart (w : Win) (l : Layout) : PartCfg :=
  { PartCfg.unused with
    inUse := true, cores := w.mask, chans := w.chans, t0 := w.t0, t2 := w.t2, qslots := w.qslots, depctr := w.depctr, deadline := w.deadline, slice := w.slice, slew := w.slew,
    root := regionAt w.part, spill := ringAt w.part, savearea := saveAt w.part, dump := dumpAt w.part, xlat := l.xlat, pool := l.pool }

def State.create (s : State) (l : Layout) : State :=
  let p := s.fw.win.part
  let s := s.catchAll
  let s : State := { s with
    fw := { s.fw with parts := s.fw.parts.set p (s.fw.win.newPart l), owners := l.owners.foldl (fun t f => t.set f.1 f.2) s.fw.owners },
    m := { s.m with parts := s.m.parts.set p Part.reset, mem := l.mem } }
  let s := s.writeRoot p
  let s : State := { s with m := firmwarePut s.fw p s.m (s.fw.part p).savearea [16 * s.fw.coreCount p] }
  ({ s with m := s.m.openAccounts s.fw p [((s.fw.part p).root, s.fw.rootTokens p)] } : State).setSupply

def State.createCmd (s : State) (w : DWord) : State :=
  let e := s.fw
  let r := lowest ([((e.part e.win.part).inUse, resBadPart), (ringOver e.win.mask e.win.chans, resShareOver), (pcmdRsv w, resReserved)] ++ e.takeCauses)
  if r ≠ 0 then s.endCmd r
  else match s.layout with
    | some l => (s.create l).endCmd 0
    | none => s.endCmd resShareOver

def execCreate (w : DWord) (s : State) : Host.Outcome State Fault Refusal := .next (if pcmdCode w = 1 then s.whenIdle (fun s => s.createCmd w) else s)

/-! ### Persistent launches (R78) -/

/-- Blocks of a launch that are somewhere, by age. -/
def Mach.launchBlocks (m : Mach) (b l : Nat) : List (Nat × Block) :=
  (m.blocks.filter (fun k => k.2.bundle = b ∧ k.2.launch = l ∧ k.2.st ≠ .exited ∧ k.2.st ≠ .held)).foldl (fun q x => insertAge x q) []

/-- They find places one after another. -/
def placeThese (e : Fw) (x : Bundle) (l : Launch) : Mach → List (Nat × Block) → Bool
  | _, [] => true
  | m, (id, k) :: r =>
    match m.placeAgain e id k x l with
    | some m => placeThese e x l m r
    | none => false

/-- Persistent launches with a block resident on a core of a mask. -/
def Mach.persistOn (m : Mach) (part mask : Nat) : List (Nat × Nat) :=
  ((m.blocks.filter (fun k => m.partOf k.2 = part && (k.2.st = .resident || k.2.st = .saving) && bit mask k.2.core && ((m.launch? k.2).map Launch.persist).getD false)).map
    (fun k => (k.2.bundle, k.2.launch))).eraseDups

/-- Those among them whose blocks could not all be placed on the cores of another mask. -/
def Mach.unplaceable (e : Fw) (m : Mach) (part leaving staying : Nat) : List (Nat × Nat) :=
  let e' : Fw := { e with parts := e.parts.set part { e.part part with cores := staying, resize := none } }
  (m.persistOn part leaving).filter (fun q => match m.bundles.get? q.1 with
    | some x => (match x.launches.get? q.2 with
      | some l => !placeThese e' x l (m.emptied e part) (m.launchBlocks q.1 q.2)
      | none => false)
    | none => false)

/-! ### RESIZE (R77, R78; R69) -/

/-- A core has nothing of the partition left on it. -/
def Mach.coreQuiet (m : Mach) (c : Nat) : Bool :=
  m.blocks.all (fun b => b.2.core ≠ c || !(b.2.st = .resident || b.2.st = .saving)) && (m.core c).service.isNone && m.copies.all (fun x => x.2.core ≠ c) && !m.inFlight c handlerSlot

/-- A core is as a wipe leaves it; what is the device's own stays (12 R328; 03 R84). -/
def Mach.wipeCore (m : Mach) (c : Nat) : Mach :=
  let m := m.modCore c (fun k => { Core.reset with temp := k.temp, droop := k.droop, droopNow := k.droopNow, fence := k.fence, engSteps := k.engSteps, seqFence := k.seqFence, swapped := k.swapped })
  { m with
    warps := m.warps.filter (fun w => w.1 / 128 ≠ c), slices := m.slices.map (fun x => if x.1 / 8 = c then (x.1, { Slice.reset with cyc := x.2.cyc, upto := x.2.upto }) else x),
    accesses := m.accesses.filter (fun a => a.2.core ≠ c), fences := m.fences.filter (fun a => a.2.core ≠ c), macros := m.macros.filter (fun a => a.2.core ≠ c), mmas := m.mmas.filter (fun a => a.2.core ≠ c) }

/-- A core leaves its partition, and its wipe begins. -/
def State.leaveCore (s : State) (p c : Nat) : State :=
  let s := s.catchAll.modPartCfg p (fun q => { q with cores := q.cores - q.cores / 2 ^ c % 2 * 2 ^ c, resize := q.resize.map (fun r => { r with departing := r.departing - r.departing / 2 ^ c % 2 * 2 ^ c }) })
  let s : State := { s with fw := { s.fw with wipes := s.fw.wipes ++ [(.core c, p)] } }
  ({ s with m := ((s.m.wipeCore c).dropVotes s.fw p).postCapacity s.fw } : State).setSupply

/-! Pages that a RESIZE moves (R79; log 99) -/

/-- The frame stands for a partition: as its own, or as firmware's for it. -/
def Fw.standsFor (e : Fw) (p f : Nat) : Bool := match e.owners.get? f with
  | some q => q = p || q = fwOwner p
  | none => false

/-- Frames of a partition beyond the first `n` of those in a tier. -/
def Fw.excess (e : Fw) (p n : Nat) (tier : Nat → Bool) : List Nat := ((e.owners.keys.filter (fun f => tier f && e.standsFor p f)).drop n)

/-- Frames that a RESIZE takes from its partition: on departing channels, and beyond the shares of tier 0, in 64 MiB, and tier 2, in GiB. -/
def Fw.affected (e : Fw) (p : Nat) : List Nat :=
  let q := e.part p
  match q.resize with
  | none => []
  | some r =>
    (e.owners.keys.filter (fun f => e.standsFor p f && onChannels q.chans f && !onChannels r.chans f)) ++
    (if r.t0 < q.t0 then e.excess p (16384 * r.t0) inTier0 else []) ++ (if r.t2 < q.t2 then e.excess p (262144 * r.t2) inTier2 else [])

def Slot.frameList (x : Slot) : List Nat := (List.range x.frames).map (x.frame + ·)

/-- Mapped pages and tables that stand on those frames. -/
def Fw.affectedSlots (e : Fw) (m : Mach) (p : Nat) : List Slot :=
  let fs := e.affected p
  if fs = [] then [] else (e.slotsOf m p).filter (fun x => x.frameList.any fs.contains)

/-- A frame that the partition keeps and that a page can move to: clean or held ready, and within what is left to it. -/
def Fw.keeps (e : Fw) (m : Mach) (p f : Nat) : Bool :=
  let q := e.part p
  let r := q.resize
  let room (n : Nat) (tier : Nat → Bool) : Bool := decide ((e.owners.keys.filter (fun g => tier g && e.standsFor p g)).length < n)
  (e.cleanFrame m f || (q.pool.contains f && !e.wiping (.page f) && !m.retired.contains f)) && !(e.affected p).contains f &&
  (if inTier1 f then onChannels ((r.map (·.chans)).getD q.chans) f
   else if inTier0 f then room (16384 * (r.map (·.t0)).getD q.t0) inTier0 else room (262144 * (r.map (·.t2)).getD q.t2) inTier2)

/-- The resize ends once no core is still to depart, the wipes of those that did are complete, and no page is still to be moved: what is left of the frames it takes is freed, and the root is rewritten and flushed. -/
def State.settleResize (s : State) (p : Nat) : State :=
  match (s.fw.part p).resize with
  | some r =>
    if r.departing = 0 && !r.paused && s.fw.wipes.all (fun w => match w.1 with
        | .core _ => w.2 ≠ p
        | _ => true) && (s.fw.part p).moves = [] && s.fw.affectedSlots s.m p = [] then
      let fs := s.fw.affected p
      let s := s.freeFrames fs p
      let s := (s.modPartCfg p (fun q => { q with chans := r.chans, t0 := r.t0, t2 := r.t2, pool := q.pool.filter (fun f => !fs.contains f), resize := none })).writeRoot p
      (({ s with m := s.m.postCapacity s.fw } : State).setSupply).endCmd 0
    else s
  | none => s

/-- The resize begins: new cores join, departing ones take no further block, and their blocks are pre-empted. SLICE and SLEW keep the values of CREATE; with no core to depart there is nothing to pause for (log 92). -/
def State.beginResize (s : State) (force : Bool) : State :=
  let s := s.catchAll
  let e := s.fw
  let p := e.win.part
  let old := (e.part p).cores
  let dep := old - (old &&& e.win.mask)
  let stuck := if force then s.m.unplaceable e p dep (old &&& e.win.mask ||| e.win.mask) else []
  let s := (s.beginCmd (.resize p)).modPartCfg p (fun q => { q with
    cores := old ||| e.win.mask,
    resize := some { mask := e.win.mask, departing := dep, chans := e.win.chans, t0 := e.win.t0, t2 := e.win.t2, host := e.win.funcmode.toNat.testBit 2, paused := false } })
  let out := s.m.blocks.filter (fun b => s.m.partOf b.2 = p && b.2.st = .resident && (bit dep b.2.core || stuck.contains (b.2.bundle, b.2.launch)))
  (({ s with m := (out.foldl (fun m b => m.raisePreempt b.1) s.m).postCapacity s.fw } : State).setSupply).settleResize p

def State.resizeCmd (s : State) (w : DWord) : State :=
  let e := s.fw
  let p := e.win.part
  let old := (e.part p).cores
  if !(e.part p).inUse then s.endCmd resBadPart
  else
    let dep := old - (old &&& e.win.mask)
    let held := !pcmdForce w && !(s.m.unplaceable e p dep e.win.mask).isEmpty
    let r := lowest ([(held, resPersistHeld), (pcmdRsv w, resReserved)] ++ e.takeCauses)
    if r = 0 then s.beginResize (pcmdForce w) else s.endCmd r

/-- RESIZE: PCMD 2 of a partition that is not paused. -/
def execResize (w : DWord) (s : State) : Host.Outcome State Fault Refusal :=
  .next (if pcmdCode w = 2 && !s.fw.paused s.fw.win.part then s.whenIdle (fun s => s.resizeCmd w) else s)

/-- PCMD 2 of a paused partition: the RESIZE goes on with its own mask. -/
def State.resumeCmd (s : State) (w : DWord) : State :=
  let p := s.fw.win.part
  if pcmdRsv w || s.fw.win.partRsv then s.endCmd resReserved
  else ((s.beginCmd (.resize p)).modPartCfg p (fun q => { q with resize := q.resize.map (fun r => { r with paused := false, host := false }) })).settleResize p

/-- RESIZE_RESUME: PCMD 2 of a paused one. -/
def execResizeResume (w : DWord) (s : State) : Host.Outcome State Fault Refusal :=
  .next (if pcmdCode w = 2 && s.fw.paused s.fw.win.part then s.whenIdle (fun s => s.resumeCmd w) else s)

/-- Every departing core of a partition is quiet. -/
def State.allQuiet (s : State) (r : Resize) : Bool := (coresOf r.departing).all s.m.coreQuiet

/-- RESIZE_CORE_DEPART: a quiet core leaves; in host-assisted mode the resize pauses once every departing core is quiet. -/
def State.depart (s : State) (c : Nat) : State :=
  match s.fw.parts.find? (fun p => p.2.inUse && ((p.2.resize.map (fun r => bit r.departing c && !r.paused)).getD false)) with
  | some (p, q) =>
    match q.resize with
    | some r =>
      if r.host then
        if s.allQuiet r then (s.modPartCfg p (fun q => { q with resize := some { r with paused := true } })).endCmd resPaused else s
      else if s.m.coreQuiet c then (s.leaveCore p c).settleResize p else s
    | none => s
  | none => s

def execResizeCoreDepart (s : State) : Host.Outcome State Fault Refusal := .next (s.depart s.subj.core)

/-! ### DESTROY (R70) -/

/-- Everything a partition's work holds is gone. -/
def Mach.dropPart (m : Mach) (p : Nat) : Mach :=
  let bs := (m.bundles.filter (fun b => b.2.part = p)).map Prod.fst
  { m with
    bundles := m.bundles.filter (fun b => b.2.part ≠ p), blocks := m.blocks.filter (fun b => !bs.contains b.2.bundle), copies := m.copies.filter (fun c => !bs.contains c.2.bundle),
    tasks := m.tasks.filter (fun t => !bs.contains t.2.bundle), darns := m.darns.filter (fun d => !bs.contains d.2.bundle), rcbs := m.rcbs.filter (fun r => r.1 % 16 ≠ p), usages := m.usages.filter (fun r => r.1 % 16 ≠ p), parts := m.parts.erase p,
    fdq := m.fdq.filter (fun d => d.1 ≠ p) }

/-- Every wipe of what the partition held is complete. -/
def State.settleDestroy (s : State) (p : Nat) : State := if s.fw.wipes.all (fun w => w.2 ≠ p) then s.endCmd 0 else s

/-- The partition goes; its cores and frames are wiped. -/
def State.destroy (s : State) (p : Nat) : State :=
  let s := s.catchAll
  let cs := coresOf (s.fw.part p).cores
  let fs := s.fw.owners.keys.filter (fun f => s.fw.standsFor p f)
  let tags := (s.fw.binds.filter (fun b => b.2.part = p)).map Prod.fst
  let m := cs.foldl Mach.wipeCore (s.m.dropPart p)
  let s := (({ s with m } : State).freeFrames fs p).beginCmd (.destroy p)
  let s : State := { s with
    fw := { s.fw with parts := s.fw.parts.erase p, binds := s.fw.binds.filter (fun b => b.2.part ≠ p), wipes := s.fw.wipes ++ cs.map (fun c => (WipeRes.core c, p)) },
    m := { s.m with tenants := s.m.tenants.filter (fun t => !tags.contains t.1) } }
  (({ s with m := s.m.dropVotes s.fw p } : State).setSupply).settleDestroy p

def State.destroyCmd (s : State) (w : DWord) : State :=
  let e := s.fw
  let p := e.win.part
  if !(e.part p).inUse || e.paused p then s.endCmd resBadPart
  else
    let held := !pcmdForce w && !(s.m.persistOn p (e.part p).cores).isEmpty
    let r := lowest [(held, resPersistHeld), (pcmdRsv w || e.win.partRsv, resReserved)]
    if r = 0 then s.destroy p else s.endCmd r

def execDestroy (w : DWord) (s : State) : Host.Outcome State Fault Refusal := .next (if pcmdCode w = 3 then s.whenIdle (fun s => s.destroyCmd w) else s)

/-! ### BINDVF and UNBINDVF (R71, R87, R88) -/

/-- Hardware queues that no binding holds. -/
def Fw.freeQueues (e : Fw) : List Nat := let used := e.binds.flatMap (fun b => b.2.queues); (List.range 256).filter (fun q => !used.contains q)

namespace VfCfg
def part (c : Nat) : Nat := bits c 62 59
def queues (c : Nat) : Nat := bits c 58 50
def vqslots (c : Nat) : Nat := bits c 47 32
def vdepctr (c : Nat) : Nat := bits c 31 16
def share (c : Nat) : Nat := bits c 15 8
end VfCfg

/-- The VCP page of a new binding (R73). -/
def newTenant (e : Fw) (tag p : Nat) : Tenant :=
  ((Tenant.reset.setWord 0 (p * 2 ^ 8 + tag)).setWord 8 (e.part p).root).setWord 0x28 (e.coreCount p * 2 ^ 55 + e.bwfrac p * 2 ^ 48)

/-- The frames of a partition's page tables. -/
def Fw.tableFrames (e : Fw) (m : Mach) (p : Nat) : List Nat := ((e.slotsOf m p).filter (fun x => x.unit ≠ 0)).map (·.frame)

/-- A partition's page tables are entered in its own space, readable and writable, in the order of the walk; tables that this lacks come from the pool. -/
def State.enterTables (s : State) (p : Nat) : State :=
  let c := s.fw.part p
  let ps := (s.fw.tableFrames s.m p).eraseDups.mapIdx (fun i f => (tablesAt p + 4096 * i, pageEntry false true true f))
  match mapPages c.xlat ps (wipePages s.m.mem c.pool) c.pool with
  | some (mem, pool) => { s.modPartCfg p (fun q => { q with pool }) with m := { s.m with mem } }
  | none => s

/-- In host-assisted page-fault service firmware maps the tables for a tenant that it binds, and with them those that the mapping itself took (10 R265; log 94). -/
def State.mapTables (s : State) (p : Nat) : State := if s.fw.hostFaults then (s.enterTables p).enterTables p else s

def State.bindCmd (s : State) (w : DWord) : State :=
  let e := s.fw
  let tag := e.win.tag
  let c := e.win.cfg
  let p := VfCfg.part c
  let here := (e.binds.filter (fun b => b.2.part = p)).map Prod.snd
  let free := e.freeQueues
  if !(e.part p).inUse || e.paused p then s.endCmd resBadPart
  else
    let beyond := 64 < VfCfg.queues c || free.length < VfCfg.queues c || (e.part p).qslots < VfCfg.vqslots c + (here.map (·.vqslots)).sum ||
      (e.part p).depctr < VfCfg.vdepctr c + (here.map (·.vdepctr)).sum
    let mode := e.binds.has tag || (VfCfg.share c = 0 && !here.isEmpty) || (VfCfg.share c ≠ 0 && here.any (fun b => b.share = 0)) || (VfCfg.share c ≠ 0 && (e.part p).slice = 0)
    let r := lowest [(beyond, resQuotaOver), (mode, resShareMode), (pcmdRsv w || e.win.bindRsv, resReserved)]
    if r ≠ 0 then s.endCmd r
    else
      let b : Binding := { part := p, queues := free.take (VfCfg.queues c), vqslots := VfCfg.vqslots c, vdepctr := VfCfg.vdepctr c, share := VfCfg.share c, noPlugin := false, first := none }
      let m := { s.m with tenants := s.m.tenants.set tag (newTenant e tag p) }
      let m := if here.isEmpty then m.modPart p (fun q => { q with headW := [], heads := [] }) else m
      let m := if b.share ≠ 0 && here.isEmpty then m.modPart p (fun q => { q with turn := tag, slicesLeft := b.share }) else m
      let s : State := { s with fw := { e with binds := e.binds.set tag b, win := { e.win with vfcfg := e.win.vfcfg.set tag (BitVec.ofNat 64 c ||| 0x8000000000000000) } }, m }
      (s.mapTables p).endCmd 0

def execBindvf (w : DWord) (s : State) : Host.Outcome State Fault Refusal := .next (if pcmdCode w = 4 then s.whenIdle (fun s => s.bindCmd w) else s)

/-- Blocks of a tenant that are resident are pre-empted. -/
def Mach.preemptTag (m : Mach) (tag : Nat) : Mach := (m.blocks.filter (fun b => m.tagOf b.2 = tag && b.2.st = .resident)).foldl (fun m b => m.raisePreempt b.1) m

def State.unbindCmd (s : State) (w : DWord) : State :=
  let tag := s.fw.win.tag
  match s.fw.binds.get? tag with
  | none => s.endCmd resBadPart  -- a tag with no binding: in no partition in use (log 92)
  | some b =>
    if s.fw.paused b.part then s.endCmd resBadPart
    else if pcmdRsv w || s.fw.win.bindRsv then s.endCmd resReserved
    else ({ s.beginCmd (.unbind tag) with m := s.m.preemptTag tag } : State).settleUnbind

def execUnbindvf (w : DWord) (s : State) : Host.Outcome State Fault Refusal := .next (if pcmdCode w = 5 then s.whenIdle (fun s => s.unbindCmd w) else s)

/-! ### DROP and FUNCMODE (R69, R81) -/

/-- DROP_CLEAR: a write to PSTAT with DROP's bit set. -/
def execDropClear (w : DWord) (s : State) : Host.Outcome State Fault Refusal :=
  .next (s.whenIdle (fun s => if bit w.toNat 62 then { s with fw := { s.fw with win := { s.fw.win with drop := false } } } else s))

/-- A fault record's draft keeps the mode in which it was raised. -/
def RecDraft.pin (d : RecDraft) (host : Bool) : RecDraft := { d with mode := some (d.mode.getD host) }

def FaultRec.pin (f : FaultRec) (host : Bool) : FaultRec := { f with drafts := f.drafts.map (fun d => d.pin host) }

def Warp.pinRecords (w : Warp) (host : Bool) : Warp := { w with fault := w.fault.map (fun f => f.pin host) }

/-- Every record raised so far is served in the mode of its raising (R81): those in a queue, and those that wait to be appended. -/
def Mach.pinRecords (m : Mach) (host : Bool) : Mach :=
  { m with
    parts := m.parts.mapVal (fun p => { p with
      faultQ := p.faultQ.map (fun r => { r with draft := r.draft.pin host }),
      heads := p.heads.mapVal (fun h => { h with encoding := h.encoding.map (fun x => { x with draft := x.draft.map (fun d => d.pin host) }) }) }),
    warps := m.warps.mapVal (fun w => w.pinRecords host),
    blocks := m.blocks.mapVal (fun b => { b with warps := b.warps.mapVal (fun w => w.pinRecords host) }),
    copies := m.copies.mapVal (fun c => { c with draft := c.draft.map (fun d => d.pin host) }),
    bundles := m.bundles.mapVal (fun b => { b with launches := b.launches.mapVal (fun l => { l with reqDraft := l.reqDraft.map (fun d => d.pin host) }) }),
    darns := m.darns.mapVal (fun d => { d with draft := d.draft.map (fun r => r.pin host) }) }

def State.setFuncmode (s : State) (w : DWord) : State :=
  let m := if w.toNat.testBit 0 = s.fw.hostFaults then s.m else s.m.pinRecords s.fw.hostFaults
  { s with fw := { s.fw with win := { s.fw.win with funcmode := w.setWidth 6 } }, m }

def execFuncmodeWrite (w : DWord) (s : State) : Host.Outcome State Fault Refusal := .next (s.whenIdle (fun s => s.setFuncmode w))

/-! ### FDCTL (16 R429, R430) -/

/-- A domain's warps that only its freeze had stopped go on. -/
def Mach.thaw (e : Fw) (m : Mach) (part dom : Nat) : Mach :=
  let m := m.modPart part (fun p => { p with frozen := p.frozen.erase dom })
  let named (core slot : Nat) : Bool := (m.core core).trapq.any (fun t => t.slots.contains slot) || (((m.core core).service.map (fun v => v.slots.contains slot)).getD false)
  let out := m.warps.filter (fun w => w.1 % 128 ≠ handlerSlot && w.2.stopped && !named (w.1 / 128) (w.1 % 128) && (match m.blocks.get? w.2.blk with
    | some b => m.partOf b = part && !m.frozenB b.bundle
    | none => false))
  out.foldl (fun m w => (m.modWarp (w.1 / 128) (w.1 % 128) (fun v => { v with stopped := false })).settleWarp e (w.1 / 128) (w.1 % 128)) m

/-- FDCMD_END: the oldest pending domain ends as in hardware mode. -/
def Mach.fdEnd (e : Fw) (m : Mach) : Mach :=
  match m.fdq with
  | [] => m
  | (p, d, _) :: r =>
    let m := { m with fdq := r }
    ((m.domainBundles p d).foldl (fun m b => m.endBundle e b 0x47) m).thaw e p d

def execFdcmdEnd (s : State) : Host.Outcome State Fault Refusal := .next { s with m := s.m.fdEnd s.fw }

/-- FDCMD_RELEASE: only the bundle that raised the event ends. -/
def Mach.fdRelease (e : Fw) (m : Mach) : Mach :=
  match m.fdq with
  | [] => m
  | (p, d, b) :: r => ((({ m with fdq := r } : Mach).endBundle e b 0x47)).thaw e p d

def execFdcmdRelease (s : State) : Host.Outcome State Fault Refusal := .next { s with m := s.m.fdRelease s.fw }

/-! ### Time slices (R72) -/

/-- Tenants of a partition in rotation, after one. -/
def Fw.rotation (e : Fw) (p tag : Nat) : List Nat :=
  let ts := (e.binds.filter (fun b => b.2.part = p)).map Prod.fst
  ts.filter (fun t => tag < t) ++ ts.filter (fun t => t ≤ tag)

/-- TIME_SLICE_END of a shared partition: the tenant keeps its consecutive slices; the next with anything queued follows it. -/
def Mach.sliceEnd (e : Fw) (m : Mach) (p : Nat) : Mach :=
  let q := m.part p
  if !e.shared p then m
  else if 1 < q.slicesLeft && m.bundles.any (fun b => b.2.tag = q.turn) then m.modPart p (fun x => { x with slicesLeft := x.slicesLeft - 1 })
  else
    let ring := e.rotation p q.turn
    let next := (ring.find? (fun t => m.bundles.any (fun b => b.2.tag = t))).getD (ring.headD q.turn)
    let m := if next = q.turn then m else m.preemptTag q.turn
    m.modPart p (fun x => { x with turn := next, slicesLeft := ((e.binds.get? next).map (·.share)).getD 1 })

def execTimeSliceEnd (s : State) : Host.Outcome State Fault Refusal := .next { s with m := s.m.sliceEnd s.fw s.subj.part }

/-! ### Wipes (R66, R67) -/

/-- How the error log names a resource. -/
def wipeName : WipeRes → List Nat
  | .device => [0, 0]
  | .core n => [1, n]
  | .page f => [2, f]

/-- A wipe's completion ends the command that waits for it: the reset's own, a RESIZE's or a DESTROY's. -/
def State.afterWipe (s : State) (r : WipeRes) : State :=
  if r = .device then { s with fw := { s.fw with win := { s.fw.win with busy := false } } }
  else match s.fw.win.cmd with
    | .resize p => s.settleResize p
    | .destroy p => s.settleDestroy p
    | _ => s

/-- WIPE_COMPLETE: logged by resource and partition, and the resource is free again. -/
def execWipeComplete (r : WipeRes) (s : State) : Host.Outcome State Fault Refusal :=
  .next (match s.fw.wipes.find? (fun w => w.1 = r) with
    | some w => ({ s with fw := { s.fw with wipes := s.fw.wipes.erase w }, m := s.m.devLog (67 :: wipeName r ++ [w.2]) } : State).afterWipe r
    | none => s)

/-! ### Page moves (R79) -/

/-- Bytes of one run of addresses, moved to another. -/
def moveBytes (t : Tab Byte) (src dst n : Nat) : Tab Byte :=
  (t.filter (fun c => src ≤ c.1 && c.1 < src + n)).foldl (fun (t : Tab Byte) (c : Nat × Byte) => t.set (c.1 - src + dst) c.2) (t.filter (fun c => !(dst ≤ c.1 && c.1 < dst + n)))

/-- The page (unit 0) at a virtual address, one 4 KiB page of a 64 KiB one, or the table that the entry of level `unit` on the walk there names; unit 5: the translation root. -/
def State.moveSrc (s : State) (p va unit : Nat) : Option MoveSrc :=
  let xl := (s.fw.part p).xlat
  if unit = 0 then
    match walk s.fw s.m p va with
    | .error _ => none
    | .ok l => if l.bits = 16 then some { frame := (l.pa + va % 2 ^ 16) / 4096, frames := 1, entry := some (l.entry, l.word) } else some { frame := l.pa / 4096, frames := 2 ^ (l.bits - 12), entry := some (l.entry, l.word) }
  else if unit = 5 then some { frame := xl / 4096, frames := 1, entry := none }
  else match entryAt s.m.mem va unit [4, 3, 2, 1] xl with
    | some x => if bit x.2 7 then none else some { frame := pteFrame x.2, frames := 1, entry := some x }
    | none => none

/-- The frames that a move takes and gives. -/
def PageMove.old (v : PageMove) : List Nat := (List.range v.src.frames).map (v.src.frame + ·)
def PageMove.new (v : PageMove) : List Nat := (List.range v.src.frames).map (v.frame + ·)

/-- Where the bytes of a moved frame stand afterwards. -/
def PageMove.at (v : PageMove) (a : Nat) : Nat :=
  if v.src.frame * 4096 ≤ a && a < v.src.frame * 4096 + 4096 * v.src.frames then a - v.src.frame * 4096 + v.frame * 4096 else a

/-- The frames a move goes to are the partition's. -/
def State.takeFrames (s : State) (p : Nat) (v : PageMove) : State :=
  let owner := (s.fw.owners.get? v.src.frame).getD p
  let s := s.modPartCfg p (fun q => { q with pool := q.pool.filter (fun f => !v.new.contains f) })
  { s with fw := { s.fw with owners := v.new.foldl (fun t f => t.set f owner) s.fw.owners } }

/-- The move begins: the entry is marked not present and the translations are dropped, so that an access meets PAGE_NOT_PRESENT until the remap. -/
def State.beginMove (s : State) (p : Nat) (v : PageMove) (a w : Nat) : State :=
  let m := { s.m with mem := memWrite s.m.mem a 8 (w - w % 2) }
  (({ s with m := m.dropXlats s.fw p } : State).takeFrames p v).modPartCfg p (fun q => { q with moves := q.moves ++ [v] })

/-- The move ends: the frames are copied, the entry names the new ones and is present again, the translations are dropped, and the old frames are wiped. Entries of other moves that stood in them have moved along. -/
def State.endMove (s : State) (p : Nat) (v : PageMove) : State :=
  let s := s.takeFrames p v
  let mem := moveBytes s.m.mem (v.src.frame * 4096) (v.frame * 4096) (4096 * v.src.frames)
  let mem := match v.src.entry with
    | some (a, w) => memWrite mem (v.at a) 8 (putBits w 51 12 v.frame)
    | none => mem
  let m := { s.m with mem, poison := s.m.poison ++ (s.m.poison.filter (fun g => v.old.contains (g / 4096))).map v.at }
  ((({ s with m := m.dropXlats s.fw p } : State).freeFrames v.old p).modPartCfg p (fun q => { q with
    xlat := if v.src.entry.isNone then v.frame * 4096 else q.xlat,
    moves := (q.moves.erase v).map (fun u => { u with src := { u.src with entry := u.src.entry.map (fun x => (v.at x.1, x.2)) } }) })).settleResize p

/-- PAGE_MOVE of a page or a table of a partition to memory it keeps: the first marks the page not present, the next of the same page copies and remaps it. The translation root, which no entry names, moves at once. -/
def State.pageMove (s : State) (p va unit frame : Nat) : State :=
  match (s.fw.part p).moves.find? (fun v => v.va = va && v.unit = unit && v.frame = frame) with
  | some v => s.endMove p v
  | none =>
    match s.moveSrc p va unit with
    | none => s
    | some x =>
      let v : PageMove := { va, unit, frame, src := x }
      if frame % x.frames ≠ 0 || !v.new.all (s.fw.keeps s.m p) || !v.old.all (s.fw.standsFor p) then s
      else match x.entry with
        | some (a, w) => s.beginMove p v a w
        | none => s.endMove p v

def execPageMove (va : Nat) (frame : Nat) (s : State) : Host.Outcome State Fault Refusal := .next (s.pageMove s.subj.part va s.subj.unit frame)

/-- The next move that a RESIZE asks for: the end of one that has begun, or an affected page or table, and the first frames of tier 1 that the partition keeps. -/
def State.nextMove (s : State) (p : Nat) : Option (Slot × Nat) :=
  match (s.fw.part p).moves, s.fw.affectedSlots s.m p with
  | v :: _, _ => some ({ va := v.va, unit := v.unit, frame := v.src.frame, frames := v.src.frames }, v.frame)
  | [], [] => none
  | [], x :: _ => (tier1Frames.find? (fun f => f % x.frames = 0 && ((List.range x.frames).map (f + ·)).all (s.fw.keeps s.m p))).map (fun f => (x, f))

/-! ### Firmware cores and policy plug-ins (R63, R64; log 85) -/

/-- The firmware core that serves a partition. -/
def fwCoreOf (part : Nat) : Nat := 1 + part % 3

def Fw.fwCore (e : Fw) (c : Nat) : FwCore := e.fwCores.get c FwCore.reset
def Fw.modFwCore (e : Fw) (c : Nat) (f : FwCore → FwCore) : Fw := { e with fwCores := e.fwCores.set c (f (e.fwCore c)) }

/-- A register of the core is set; x0 stays zero, and the protection entries are not among the other control registers. -/
def FwCore.setReg (k : FwCore) (r : FwReg) (w : DWord) : FwCore :=
  match r with
  | .x n => if 1 ≤ n ∧ n < 32 then { k with x := k.x.set n w } else k
  | .f n => if n < 32 then { k with f := k.f.set n w } else k
  | .csr n => if n < 4096 ∧ ¬ (0x3A0 ≤ n ∧ n < 0x3F0) then { k with csr := k.csr.set n w } else k
  | .pc => { k with pc := w }
  | .timer => { k with timer := w.toNat }

/-- Frames that a tenant's plug-in may reach: its own code pages, the pages of its own tenant, and that tenant's VCP page. In a partition of several tenants which of its frames are whose is the tenants' own, a free value. -/
def Fw.pluginFrame (e : Fw) (tag f : Nat) : Bool :=
  Config.pluginCode tag f || f == Config.vcpFrame tag || (match e.binds.get? tag with
    | some b => e.owners.get? f == some b.part && (b.share == 0 || Config.tenantOf f == tag)
    | none => false)

/-- The PMP entries of a tenant's plug-in: at most 64 ranges, none of which reaches further. -/
def Fw.pmpEntries (e : Fw) (tag : Nat) : Tab (Nat × Nat) :=
  (((Config.pluginRanges tag).filter (fun r => (List.range ((r.2 + 4095) / 4096 - r.1 / 4096)).all (fun i => e.pluginFrame tag (r.1 / 4096 + i)))).take 64).mapIdx (fun i r => (i, r))

/-- An address that one of the core's entries admits. -/
def FwCore.admits (k : FwCore) (addr : Nat) : Bool := k.pmp.any (fun r => decide (r.2.1 ≤ addr ∧ addr < r.2.2))

/-- The core of a tenant's partition that runs its plug-in now. -/
def Fw.pluginOn (e : Fw) (tag : Nat) : Option Nat := (e.binds.get? tag).bind (fun b => if (e.fwCore (fwCoreOf b.part)).plugin = some tag then some (fwCoreOf b.part) else none)

/-- The scheduler calls a tenant's plug-in, which has not been removed: U-mode, under its entries. -/
def State.callPlugin (s : State) (tag : Nat) : State :=
  match s.fw.binds.get? tag with
  | some b =>
    if b.noPlugin || (s.fw.fwCore (fwCoreOf b.part)).plugin.isSome then s
    else { s with fw := s.fw.modFwCore (fwCoreOf b.part) (fun k => { k with mode := .user, pmp := s.fw.pmpEntries tag, plugin := some tag, called := k.timer }) }
  | none => s

/-- The core goes on in the S-mode scheduler. -/
def FwCore.leave (k : FwCore) : FwCore := { k with mode := .supervisor, pmp := [], plugin := none }

/-- The plug-in returns with its policy. -/
def State.returnPlugin (s : State) (tag first : Nat) : State :=
  match s.fw.pluginOn tag, s.fw.binds.get? tag with
  | some c, some b => { s with fw := { s.fw.modFwCore c FwCore.leave with binds := s.fw.binds.set tag { b with first := some first } } }
  | _, _ => s

/-- The plug-in that runs for a tenant is removed, and the default policy takes its place. -/
def State.dropPlugin (s : State) (tag code : Nat) : State :=
  match s.fw.pluginOn tag, s.fw.binds.get? tag with
  | some c, some b =>
    { s with
      fw := { s.fw.modFwCore c FwCore.leave with binds := s.fw.binds.set tag { b with noPlugin := true, first := none } },
      m := s.m.partLog b.part [64, tag, code] }
  | _, _ => s

/-- PLUGIN_FAULT: of an access, to the subject's address, that its entries do not admit (unit 0), or of its own. -/
def execPluginFault (s : State) : Host.Outcome State Fault Refusal :=
  .next (match s.fw.pluginOn s.subj.tag with
    | some c => if s.subj.unit = 0 && (s.fw.fwCore c).admits s.subj.id then s else s.dropPlugin s.subj.tag 0
    | none => s)

/-- PLUGIN_TIMEOUT: the call has run for more than 50 µs of the core's own timer. -/
def execPluginTimeout (s : State) : Host.Outcome State Fault Refusal :=
  .next (match s.fw.pluginOn s.subj.tag with
    | some c => if (s.fw.fwCore c).called + 50 < (s.fw.fwCore c).timer then s.dropPlugin s.subj.tag 1 else s
    | none => s)

end Sys2Proof.Machine
end

