-- ==== Sys2Proof/Machine/Front.lean ====
section
/-! DEFINITION. Virtual command processors and plain register writes: doorbells, RCB flushes, submission rings, and the registers that have no row of their own (03 R68 to R76, R80; 04 R87 to R89; 05 R135; 10 R263; 11 R284; 12 R328; 16 R404, R414). -/

namespace Sys2Proof.Machine

/-! ### Submission rings (R73 to R75) -/

def ringOff (q : Nat) : Nat := 0x800 + 32 * q

namespace Ring
def base (t : Tenant) (q : Nat) : Nat := bits (t.word (ringOff q)) 63 12 * 4096
def err (t : Tenant) (q : Nat) : Bool := bit (t.word (ringOff q)) 6
def log (t : Tenant) (q : Nat) : Nat := bits (t.word (ringOff q)) 5 0
def pidx (t : Tenant) (q : Nat) : Nat := bits (t.word (ringOff q + 8)) 31 0
def cidx (t : Tenant) (q : Nat) : Nat := bits (t.word (ringOff q + 16)) 31 0
end Ring

/-- The ring is broken: nothing more is moved from it, and what earlier doorbells announced is forgotten. -/
def Mach.ringErr (m : Mach) (tag q : Nat) : Mach := m.modTenant tag (fun t => { t.setField (ringOff q) 6 6 1 with seen := t.seen.erase q, defer := t.defer.erase q })

/-- Command-store entries of a tenant, and in all (04 R89). -/
def Mach.slotsInUse (m : Mach) (tag : Nat) : Nat := (m.bundles.filter (fun b => b.2.tag = tag)).length
def storeSize : Nat := 32768

/-- An entry enters its hardware queue. -/
def Mach.enqueue (m : Mach) (tag part queue addr : Nat) : Mach :=
  let b : Bundle := { addr, tag, part, queue, order := m.nextId, st := .queued, hdr := [], launches := [], chain := [], effs := [], admitted := 0, depctr := 0, status := 0, tally := {}, bins := [] }
  ({ m with bundles := m.bundles.set m.nextId b, nextId := m.nextId + 1 }).promote queue

/-- What the next entry of a ring comes to. -/
inductive RingStep where
  | moved
  | deferred
  | broken
  | empty
  deriving DecidableEq, Repr

/-- The device accepts work: not retired (R65), and no UNBINDVF of the tenant in progress. -/
def Fw.accepts (e : Fw) (tag : Nat) : Bool := e.life ≠ .retired && e.win.cmd ≠ .unbind tag

/-- The entries of a ring up to PIDX that stay in it for want of quota: DEFER counts each of them once, when it is first held back; `defer` holds how far they are counted. -/
def Mach.countDeferred (m : Mach) (tag q pidx : Nat) : Mach :=
  let t := m.tenant tag
  let c := Ring.cidx t q
  let seen := (t.defer.get? q).getD c
  let ahead := (seen + 2 ^ 32 - c) % 2 ^ 32
  let n := (pidx + 2 ^ 32 - c) % 2 ^ 32
  let from_ := if ahead ≤ n then ahead else 0
  (List.range (n - from_)).foldl (fun m _ => m.raiseDefer tag) (m.modTenant tag (fun t => { t with defer := t.defer.set q pidx }))

/-- The entry at CIDX of ring `q` is moved, or held back by quota. -/
def Mach.moveEntry (e : Fw) (m : Mach) (tag q pidx : Nat) (b : Binding) : Mach × RingStep :=
  let t := m.tenant tag
  let n := 2 ^ (Ring.log t q - 3)
  let c := Ring.cidx t q
  if Ring.err t q then (m, .broken)
  else if pidx = c || !e.accepts tag then (m, .empty)
  else match readRecord e m b.part (Ring.base t q + 8 * (c % n)) 1 with
    | some [w] =>
      if w % 64 ≠ 0 then (m.ringErr tag q, .broken)
      else if b.vqslots ≤ m.slotsInUse tag || storeSize ≤ m.bundles.length then (m, .deferred)
      else
        let m := m.modTenant tag (fun t => t.setField (ringOff q + 16) 31 0 (c + 1))
        (m.enqueue tag b.part (b.queues.getD q 0) w, .moved)
    | _ => (m.ringErr tag q, .broken)

/-- Entries are moved in ring order until one is not; those that quota holds back are each counted once (R75). -/
def moveEntries (e : Fw) (tag q pidx : Nat) (b : Binding) : Nat → Mach → Mach
  | 0, m => m
  | n + 1, m =>
    match m.moveEntry e tag q pidx b with
    | (m, .moved) => moveEntries e tag q pidx b n m
    | (m, .deferred) => m.countDeferred tag q pidx
    | (m, _) => m

/-- Entries of a ring from CIDX up to an index. -/
def Ring.left (t : Tenant) (q pidx : Nat) : Nat := (pidx + 2 ^ 32 - Ring.cidx t q) % 2 ^ 32

/-- Entries of ring `q` up to an index are moved, unless the ring is broken or breaks now: LOG, or the distance from CIDX, is out of range. -/
def Mach.moveRing (e : Fw) (m : Mach) (tag q pidx : Nat) (b : Binding) : Mach :=
  let t := m.tenant tag
  let d := Ring.left t q pidx
  if Ring.err t q then m
  else if Ring.log t q < 12 || 20 < Ring.log t q || 2 ^ (Ring.log t q - 3) < d then m.ringErr tag q
  else moveEntries e tag q pidx b d (m.modTenant tag (fun t => { t with seen := t.seen.set q pidx }))

/-- A doorbell of ring `q`: PIDX is read afresh. -/
def Mach.doorbellRing (e : Fw) (m : Mach) (tag q : Nat) (b : Binding) : Mach := m.moveRing e tag q (Ring.pidx (m.tenant tag) q) b

/-! ### NOTIFY (R73, R74, R76, R80) -/

def notifyKind (w : DWord) : Nat := bits w.toNat 15 12
def notifyQueue (w : DWord) : Nat := bits w.toNat 5 0
def notifyRsv (w : DWord) : Bool := bits w.toNat 63 16 != 0 || bits w.toNat 11 6 != 0

/-- A notify that names no ring. -/
def Mach.badNotify (m : Mach) (tag part : Nat) (w : DWord) : Mach := m.partLog part [74, tag, w.toNat]

/-- A notify of NKIND 0. -/
def Mach.doorbell (e : Fw) (m : Mach) (tag : Nat) (w : DWord) : Mach :=
  match e.binds.get? tag with
  | none => m
  | some b =>
    let m := m.readHeads e tag
    if notifyRsv w || b.queues.length ≤ notifyQueue w then m.badNotify tag b.part w
    else
      let m := if notifyQueue w = 0 then m.resolveTenant e b.part tag else m
      m.doorbellRing e tag (notifyQueue w) b

def execDoorbell (w : DWord) (s : State) : Host.Outcome State Fault Refusal := .next (if notifyKind w = 0 then { s with m := s.m.doorbell s.fw s.subj.tag w } else s)

/-- A notify of NKIND 1: the node at FLUSHADDR is read again by bundles that start from now on (R76). -/
def Mach.flushRcb (e : Fw) (m : Mach) (tag : Nat) (w : DWord) : Mach :=
  match e.binds.get? tag with
  | none => m
  | some b =>
    let m := m.readHeads e tag
    if notifyRsv w then m.badNotify tag b.part w
    else
      let a := bits ((m.tenant tag).word 0x18) 63 6 * 64
      let ok : Bool := match peekXl e m b.part a .load with
        | .ok _ _ => a ≠ (e.part b.part).root
        | .err _ => false
      if ok then
        let m := Mach.reevaluate e { m with rcbs := m.rcbs.erase (a * 16 + b.part) } b.part a
        m.modTenant tag (fun t => t.setField 0x20 63 32 (bits (t.word 0x20) 63 32 + 1))
      else m.partLog b.part [76, tag, a]

def execRcbFlush (w : DWord) (s : State) : Host.Outcome State Fault Refusal := .next (if notifyKind w = 1 then ({ s with m := s.m.flushRcb s.fw s.subj.tag w } : State).settleUnbind else s)

/-- Entries that quota held back stand in a ring, up to the PIDX its last doorbell read. -/
def Mach.deferredIn (m : Mach) (tag q : Nat) : Bool := match (m.tenant tag).seen.get? q with
  | some pidx => !Ring.err (m.tenant tag) q && Ring.left (m.tenant tag) q pidx ≠ 0
  | none => false

/-- The ring that the tenant's plug-in puts first has nothing held back, or is this one (R64; log 85). -/
def Mach.policyAllows (m : Mach) (tag q : Nat) (b : Binding) : Bool := match b.first with
  | some f => f = q || b.noPlugin || !m.deferredIn tag f
  | none => true

/-- DEFERRED_ENTRY_MOVE: a ring's entries are moved in order, as far as quota now allows (R75). -/
def Mach.moveDeferred (e : Fw) (m : Mach) (tag q : Nat) : Mach :=
  match e.binds.get? tag, (m.tenant tag).seen.get? q with
  | some b, some pidx => if m.deferredIn tag q && m.policyAllows tag q b then m.moveRing e tag q pidx b else m
  | _, _ => m

def execDeferredEntryMove (s : State) : Host.Outcome State Fault Refusal := .next { s with m := s.m.moveDeferred s.fw s.subj.tag s.subj.unit }

/-- Any write to NOTIFY. -/
def Mach.notify (e : Fw) (m : Mach) (tag : Nat) (w : DWord) : Mach :=
  match notifyKind w with
  | 0 => m.doorbell e tag w
  | 1 => m.flushRcb e tag w
  | _ => match e.binds.get? tag with
    | some b => (m.readHeads e tag).badNotify tag b.part w
    | none => m

/-! ### Writes to a VCP page (R73; 17 R446) -/

/-- Bits of a word of the page that its tenant may write; none where the word is read-only. -/
def vcpMask (off : Nat) : Option Nat :=
  if 0x1000 ≤ off then none
  else if off = 0x18 then some (2 ^ 64 - 64)
  else if off = 0x40 || off = 0x50 then some (2 ^ 64 - 1)
  else if 0x100 ≤ off && off < 0x200 then
    (match off % 0x40 with
     | 0x00 => some (2 ^ 64 - 1)
     | 0x08 => some (2 ^ 64 - 64)
     | 0x10 => some (2 ^ 32 - 1)
     | 0x18 => some (2 ^ 64 - 4096 + 63)
     | 0x20 => some (2 ^ 64 - 1)
     | _ => none)
  else if 0x800 ≤ off then
    (match off % 32 with
     | 0 => some (2 ^ 64 - 1 - 64)
     | 8 => some (2 ^ 32 - 1)
     | _ => none)
  else none

/-- The offset is of a head's words, which are the partition's: all its tenants see the same (17 R445). -/
def isHeadOff (off : Nat) : Bool := 0x100 ≤ off && off < 0x200

/-- A word is written where the page of a tenant of partition `part` has one; PRESENT and RIDX as a whole, ERR cleared with a ring's word 0. -/
def Mach.vcpWrite (m : Mach) (part tag off : Nat) (w : DWord) : Mach :=
  match vcpMask off with
  | some k => if isHeadOff off then m.modPart part (fun q => q.setHeadWord off (w.toNat &&& k)) else m.modTenant tag (fun t => t.setWord off (w.toNat &&& k))
  | none => m

/-- What a read of a word of the page gives: a write-only word reads as zero (00 R12). -/
def Mach.vcpRead (m : Mach) (part tag off : Nat) : DWord :=
  if off = 0x10 || 0x1000 ≤ off then 0 else BitVec.ofNat 64 (if isHeadOff off then (m.part part).headWord off else (m.tenant tag).word off)

/-! ### Registers of the window (R68, R69) -/

def State.modWin (s : State) (f : Win → Win) : State := { s with fw := { s.fw with win := f s.fw.win } }

/-- One core-mask word of four. -/
def setMask64 (m : BitVec 256) (k : Nat) (w : DWord) : BitVec 256 := BitVec.ofNat 256 (putBits m.toNat (64 * k + 63) (64 * k) w.toNat)

/-- A PCMD word, by its code. -/
def State.pcmd (s : State) (w : DWord) : State :=
  match pcmdCode w with
  | 1 => s.createCmd w
  | 2 => if s.fw.paused s.fw.win.part then s.resumeCmd w else s.resizeCmd w
  | 3 => s.destroyCmd w
  | 4 => s.bindCmd w
  | 5 => s.unbindCmd w
  | _ => s.endCmd resReserved

/-- A write to the window at 0x0100 to 0x0180. -/
def State.winWrite (s : State) (off : Nat) (w : DWord) : State :=
  if off = 0x100 then s.modWin (fun v => { (v.note off 0 w 0xF) with psel := w &&& 0xF })
  else if off = 0x108 || off = 0x110 || off = 0x118 || off = 0x120 then s.modWin (fun v => { v with corem := v.corem.set v.part (setMask64 (v.corem.get v.part 0) ((off - 0x108) / 8) w) })
  else if off = 0x128 then s.modWin (fun v => { (v.note off v.part w 0xFFFFFFFF) with chan := v.chan.set v.part (w &&& 0xFFFFFFFF) })
  else if off = 0x130 then s.modWin (fun v => { (v.note off v.part w 0xFFFF0FFFFFFFFFFF) with share := v.share.set v.part (w &&& 0xFFFF0FFFFFFFFFFF) })
  else if off = 0x138 then s.modWin (fun v => { (v.note off v.part w 0xFFFFFFFFFFFF003F) with time := v.time.set v.part (w &&& 0xFFFFFFFFFFFF003F) })
  else if off = 0x148 then s.pcmd w
  else if off = 0x150 then (if bit w.toNat 62 then s.modWin (fun v => { v with drop := false }) else s)
  else if off = 0x160 then s.modWin (fun v => { (v.note off 0 w 0x3F) with vfsel := w &&& 0x3F })
  else if off = 0x168 then s.modWin (fun v => { (v.note off v.tag w 0xFFFCFFFFFFFFFF00) with vfcfg := v.vfcfg.set v.tag (w &&& 0xFFFCFFFFFFFFFF00) })
  else if off = 0x180 then s.setFuncmode w
  else s

/-- DEVID: the product code, and the cores that are not fenced (00 R3). -/
def Fw.devid (e : Fw) : Nat := (256 - e.fenced.length) * 2 ^ 16 + 9

/-- PSTAT. -/
def Win.pstat (w : Win) : Nat := (if w.busy then 2 ^ 63 else 0) + (if w.drop then 2 ^ 62 else 0) + w.result.toNat

/-- FDCTL: whether a domain awaits the host's decision, and the oldest one and its partition (16 R430). -/
def Mach.fdctl (m : Mach) : Nat := match m.fdq with
  | (p, d, _) :: _ => 2 ^ 63 + d * 2 ^ 48 + p * 2 ^ 44
  | [] => 0

/-- A LINKn word. -/
def Link.word (l : Link) : Nat := (if l.up then 2 ^ 63 else 0) + (if l.host then 2 ^ 62 else 0) + l.peer * 2 ^ 48 + l.lanes * 2 ^ 40 + l.retry

/-- What a read of a word of the window gives (R68): PCMD reads as zero, and so does a reserved field, which no register holds (00 R10, R12). -/
def State.winRead (s : State) (off : Nat) : DWord :=
  let w := s.fw.win
  BitVec.ofNat 64 (
    if off = 0 then s.fw.devid
    else if off = 0x100 then w.part
    else if off = 0x108 || off = 0x110 || off = 0x118 || off = 0x120 then bits w.mask (8 * (off - 0x108) + 63) (8 * (off - 0x108))
    else if off = 0x128 then w.chans
    else if off = 0x130 then w.shareW
    else if off = 0x138 then w.timeW
    else if off = 0x150 then w.pstat
    else if off = 0x160 then w.tag
    else if off = 0x168 then w.cfg
    else if off = 0x180 then w.funcmode.toNat
    else if off = 0x190 then s.m.fdctl
    else if 0x200 ≤ off && off < 0x290 && off % 8 = 0 then (s.fw.links.get ((off - 0x200) / 8) Link.reset).word
    else 0)

/-- FDCTL is outside the range that BUSY guards. -/
def State.windowWrite (s : State) (off : Nat) (w : DWord) : State :=
  if off = 0x190 then
    (match bits w.toNat 1 0 with
     | 1 => { s with m := s.m.fdEnd s.fw }
     | 2 => { s with m := s.m.fdRelease s.fw }
     | _ => s)
  else if 0x100 ≤ off && off ≤ 0x180 then s.whenIdle (fun s => s.winWrite off w)
  else s

/-! ### Registers firmware writes -/

def Mach.powerWrite (e : Fw) (m : Mach) (shard off : Nat) (w : DWord) : Mach :=
  if 16 ≤ shard then m
  else if off = 0 then m.retime e shard (fun h => { h with votes := w }.retarget)
  else if off = 8 then m.modShard shard (fun h => { h with supply := BitVec.ofNat 32 (bits w.toNat 63 32), drawcap := BitVec.ofNat 16 (bits w.toNat 31 16) })
  else m

/-- What firmware core 0 reads of a word of the power block (05 R135): reserved fields and words read as zero. -/
def Mach.powerRead (e : Fw) (m : Mach) (shard off : Nat) : DWord :=
  let h := m.shard shard
  let core := 16 * shard + (off - 0x20) / 8
  if 16 ≤ shard || off % 8 ≠ 0 then 0
  else if off = 0 then h.votes
  else if off = 8 then BitVec.ofNat 64 (h.supply.toNat * 2 ^ 32 + h.drawcap.toNat * 2 ^ 16)
  else if off = 0x10 then BitVec.ofNat 64 (h.opnow % 8 * 2 ^ 61 + h.optarget % 8 * 2 ^ 58 + h.thstep % 8 * 2 ^ 55 + h.dsteps.toNat)
  else if off = 0x18 then BitVec.ofNat 64 h.lastrise
  else if 0x20 ≤ off && off < 0xA0 then BitVec.ofNat 64 (e.capregOf core % 2 ^ 11 * 2 ^ 53 + min 255 (m.core core).temp * 2 ^ 45 + min 255 (m.core core).droop * 2 ^ 37)
  else 0

/-- What firmware core 0 reads of a word of the matrix block (12 R328). -/
def Mach.matrixRead (m : Mach) (shard off : Nat) : DWord :=
  let h := m.shard shard
  if 16 ≤ shard || off % 8 ≠ 0 then 0
  else if off = 0 then BitVec.ofNat 64 (h.curcap.toNat * 2 ^ 48 + h.stlog.toNat * 2 ^ 40)
  else if 8 ≤ off && off < 0x88 then (m.core (16 * shard + (off - 8) / 8)).fence
  else if off = 0x88 then BitVec.ofNat 64 (h.stfail.toNat * 2 ^ 32)
  else 0

def Mach.matrixWrite (m : Mach) (shard off : Nat) (w : DWord) : Mach :=
  if 16 ≤ shard || off ≠ 0 then m else m.modShard shard (fun h => { h with curcap := BitVec.ofNat 16 (bits w.toNat 63 48), stlog := BitVec.ofNat 8 (bits w.toNat 47 40) })

/-- $PREEMPT of a block as firmware sets or clears it (16 R414). -/
def Mach.preemptWrite (m : Mach) (b : Nat) (w : DWord) : Mach := if bit w.toNat 0 then m.raisePreempt b else m.setPreempt b false

/-- A link group bound to a module `[13:0]` and a partition there `[19:16]`, or unbound (11 R284). -/
def PartCfg.setLink (c : PartCfg) (lg : Nat) (w : DWord) : PartCfg :=
  { c with lg := if bit w.toNat 63 then c.lg.set (lg % 16) (bits w.toNat 13 0, bits w.toNat 19 16) else c.lg.erase (lg % 16) }

/-- The tag and the queue of what firmware itself launches in a partition: no tenant's (08 R200; 17 R445; log 100). -/
def fwTag : Nat := 64
def fwQueue (part : Nat) : Nat := 256 + part

/-- A frame handed to the partition `[3:0]`, or taken from its owner. -/
def State.ownerWrite (s : State) (f : Nat) (w : DWord) : State :=
  if bit w.toNat 63 then s.giveFrame f (bits w.toNat 3 0)
  else match s.fw.owners.get? f with
    | some p => ({ s with m := s.m.dropXlats s.fw (p % 16) } : State).freeFrames [f] (p % 16)
    | none => s

/-- A write to NOTIFY; a flush may refuse a bundle, and so end an UNBINDVF. -/
def State.notify (s : State) (tag : Nat) (w : DWord) : State :=
  let t : State := { s with m := s.m.notify s.fw tag w }
  if notifyKind w = 1 then t.settleUnbind else t

/-- REGISTER_WRITE: the target's own rule (R12). -/
def State.regWrite (s : State) (t : RegTarget) (w : DWord) : State :=
  match t with
  | .window off => s.windowWrite off w
  | .vcp tag off => if !s.fw.binds.has tag then s else if off = 0x10 then s.notify tag w else { s with m := s.m.vcpWrite (((s.fw.binds.get? tag).map (·.part)).getD 0) tag off w }
  | .power shard off => { s with m := s.m.powerWrite s.fw shard off w }
  | .matrix shard off => { s with m := s.m.matrixWrite shard off w }
  | .handlerEntry p => if (s.fw.part p).inUse then s.modPartCfg p (fun c => { c with handler := BitVec.ofNat 64 (w.toNat / 16 * 16) }) else s
  | .xlatRoot p => if (s.fw.part p).inUse then s.modPartCfg p (fun c => { c with xlat := w.toNat / 4096 * 4096 }) else s
  | .linkGroup p lg => if (s.fw.part p).inUse then s.modPartCfg p (fun c => c.setLink lg w) else s
  | .preempt b => { s with m := s.m.preemptWrite b w }
  | .frameOwner f => s.ownerWrite f w
  | .tierWord pa => if frameBacked (pa / 4096) && pa % 8 = 0 then { s with m := s.m.tierWrite pa 8 w.toNat } else s
  | .fwBundle p => if (s.fw.part p).inUse && s.fw.life ≠ .retired && s.m.bundles.length < storeSize then { s with m := s.m.enqueue fwTag p (fwQueue p) w.toNat } else s
  | .fwCore c r => if c < 4 then { s with fw := s.fw.modFwCore c (fun k => k.setReg r w) } else s
  | .pluginCall tag => s.callPlugin tag
  | .pluginReturn tag => s.returnPlugin tag (bits w.toNat 5 0)

def execRegisterWrite (t : RegTarget) (w : DWord) (s : State) : Host.Outcome State Fault Refusal := .next (s.regWrite t w)

end Sys2Proof.Machine
end

