-- ==== Sys2Proof/Machine/Half.lean ====
section
/-! DEFINITION. Row 6: packed 16-bit arithmetic (09 R241). -/

namespace Sys2Proof.Machine

def execHadd2 (o : Op) (s : State) : Host.Outcome State Fault Refusal := .next (half2 .hadd2 o rmCause (fun f rm a b _ => fAdd f rm a b) s)
def execHsub2 (o : Op) (s : State) : Host.Outcome State Fault Refusal := .next (half2 .hsub2 o rmCause (fun f rm a b _ => fSub f rm a b) s)
def execHmul2 (o : Op) (s : State) : Host.Outcome State Fault Refusal := .next (half2 .hmul2 o rmCause (fun f rm a b _ => fMul f rm a b) s)
def execHmac2 (o : Op) (s : State) : Host.Outcome State Fault Refusal := .next (half2 .hmac2 o rmCause fMac s)
def execHmin2 (o : Op) (s : State) : Host.Outcome State Fault Refusal := .next (half2 .hmin2 o noCauses (fun f _ a b _ => fMinMax f false a b) s)
def execHmax2 (o : Op) (s : State) : Host.Outcome State Fault Refusal := .next (half2 .hmax2 o noCauses (fun f _ a b _ => fMinMax f true a b) s)
def execHabs2 (o : Op) (s : State) : Host.Outcome State Fault Refusal := .next (half2 .habs2 o noCauses (fun f _ a _ _ => fAbs f a) s)
def execHneg2 (o : Op) (s : State) : Host.Outcome State Fault Refusal := .next (half2 .hneg2 o noCauses (fun f _ a _ _ => fNeg f a) s)
/-- The condition is MOD `[7:4]` (R241). -/
def execHcmp2 (o : Op) (s : State) : Host.Outcome State Fault Refusal :=
  .next (half2 .hcmp2 o noCauses (fun f _ a b _ => let r := fCmp f (o.mdBits 7 4) a b; (if r.1 then 0xFFFF else 0, r.2)) s)
def execHclass2 (o : Op) (s : State) : Host.Outcome State Fault Refusal := .next (half2 .hclass2 o noCauses (fun f _ a _ _ => (fClass f a, 0)) s)
def execHex2 (o : Op) (s : State) : Host.Outcome State Fault Refusal := .next (half2 .hex2 o rmCause (fun f rm a _ _ => fEx2 f rm a) s)
def execHrcp2 (o : Op) (s : State) : Host.Outcome State Fault Refusal := .next (half2 .hrcp2 o rmCause (fun f rm a _ _ => fRcp f rm a) s)

end Sys2Proof.Machine
end

