-- ==== Sys2Proof/Machine/Handler.lean ====
section
/-! DEFINITION. Row 18: the handler's instructions and TRAP (16 R408 to R413), the services of the handler warp (R404 to R407), and the microcode-extensible slots (06 R154; 03 R85). -/

namespace Sys2Proof.Machine

/-! ### Selectors (R409, R413) -/

def selSlot (s : Word) : Nat := bits s.toNat 31 25
def selSpace (s : Word) : Nat := bits s.toNat 24 22
def selIndex (s : Word) : Nat := bits s.toNat 11 0

/-- The selector is not encoded as R409 states. -/
def selBad (s : Word) : Bool :=
  4 ≤ selSpace s || bits s.toNat 21 12 ≠ 0 || (match selSpace s with
    | 0 => 256 ≤ selIndex s
    | 1 => 8 ≤ selIndex s
    | _ => 1024 ≤ selIndex s)

def selCauses (g : Grp) : List Nat := privCause g ++ g.valued [g.o.a] (g.execs.map (fun x => if selBad (g.a32 x) then causeIllegalOpcode else 0))

/-- The word a selector names, for a target lane (R410). -/
def Mach.window (m : Mach) (core : Nat) (s : Word) (lane : Nat) : Word :=
  if selSpace s = 3 then (((m.core core).service).map (fun v => v.trap.word (selIndex s))).getD 0
  else
    let w := m.warp core (selSlot s)
    if !w.stopped then 0
    else match selSpace s with
      | 0 => w.vreg (selIndex s) lane
      | 1 => (w.thread lane).recWord (selIndex s)
      | _ => w.ctlWord (m.queuedTrap core (selSlot s)) (selIndex s)

def execXrd (o : Op) (s : State) : Host.Outcome State Fault Refusal :=
  .next (issueWith .xrd o selCauses (fun g m =>
    let vals := g.execs.map (fun x => (x.slot, x.lane, [m.window g.core (g.a32 x) x.lane]))
    let m := g.freeReads g.execLanes m
    let m := if o.ctl.wbs then m else m.deliver g.core o.dst g.execSlots vals
    m.signalSlots g.e g.core g.flag g.slots) s)

/-- XWR's writes take hold when the service ends (R410). -/
def execXwr (o : Op) (s : State) : Host.Outcome State Fault Refusal :=
  .next (issueWith .xwr o selCauses (fun g m =>
    let ws := g.execs.map (fun x => (g.a32 x, x.lane, g.b32 x))
    let m := m.modCore g.core (fun c => { c with service := c.service.map (fun v => { v with xwr := v.xwr ++ ws }) })
    (g.freeReads g.execLanes m).signalSlots g.e g.core g.flag g.slots) s)

/-! ### ERET and TRAP (R411 to R413) -/

/-- ERET outside the handler slot. -/
def eretCauses (g : Grp) : List Nat := privCause g ++ [if g.members.all (fun x => x.slot = handlerSlot) then 0 else causeIllegalOpcode]

/-- An ERET that some lane executes ends the service. -/
def eret (k : Mn) (o : Op) (f : Fw → Mach → Nat → Mach) (s : State) : State :=
  issueWith k o eretCauses (fun g m => if g.execs.isEmpty then m else f g.e m g.core) s

def execEretResume (o : Op) (s : State) : Host.Outcome State Fault Refusal := .next (eret .eretResume o Mach.eretResume s)
def execEretKill (o : Op) (s : State) : Host.Outcome State Fault Refusal := .next (eret .eretKill o Mach.eretKill s)
def execEretFdom (o : Op) (s : State) : Host.Outcome State Fault Refusal := .next (eret .eretFdom o Mach.eretFdom s)

/-- A software trap of every warp that executes it; the threads stand at the instruction after it (R405, R412). -/
def execTrap (o : Op) (s : State) : Host.Outcome State Fault Refusal :=
  .next (issueWith .trap o noCauses (fun g m =>
    if g.execs.isEmpty then m else Mach.takeTrap g.e m g.core 0 (bits o.immN 7 0) g.pc (g.execs.map (·.lane)) g.execSlots) s)

/-! ### Services (R404, R406, R407) -/

/-- Where the handler of a core's partition begins. -/
def Fw.entryOf (e : Fw) (core : Nat) : DWord := ((e.ownerOf core).map (fun p => (e.part p).handler)).getD 0

/-- The handler warp of a core, at the entry with its registers kept. -/
def Warp.beginService (w : Warp) (entry : DWord) (cyc : Nat) : Warp :=
  { w with
    slice := 0, peak := 256, stopped := false, fault := none,
    threads := (List.range 32).map (fun l => (l, { w.thread l with pc := entry, st := TState.atPc, stamp := cyc, lastIssue := 0, helper := false, yieldDue := false })) }

/-- Segments of the handler warp as they are before any SEGLD (log 19). -/
def Warp.handler (w : Warp) : Warp := if w.seg = [] then { w with seg := [(0, (0, 0x200000000000000))] } else w

/-- The oldest trap may be served: its core cycle is over, since a lower slice's trap of that cycle would stand before it (R405), and no save of a block it names has begun. -/
def Mach.trapReady (m : Mach) (core : Nat) : Bool :=
  match (m.core core).trapq with
  | [] => false
  | t :: _ => t.at_ / 8 < (m.shard (shardOf core)).cycle && t.slots.all (fun s => ((m.blockOf core s).map (fun b => decide (b.st ≠ BlkSt.saving))).getD true)

/-- The core's slot is free to begin a service. -/
def Mach.serviceDue (e : Fw) (m : Mach) (core : Nat) : Bool :=
  (m.core core).service.isNone && !(m.core core).handlerDead && m.trapReady core && (e.ownerOf core).isSome && !m.inFlight core handlerSlot

/-- The oldest trap is served. -/
def Mach.startService (e : Fw) (m : Mach) (core : Nat) : Mach :=
  match (m.core core).trapq with
  | [] => m
  | t :: r =>
    let m := (m.catchUp e core 0).modCore core (fun c => { c with trapq := r, service := some { trap := t, slots := t.slots, began := (m.shard (shardOf core)).cycle, xwr := [] } })
    { m with warps := m.warps.set (wk core handlerSlot) ((m.warp core handlerSlot).handler.beginService (e.entryOf core) (m.slc core 0).cyc) }

/-- A dump waits for the saves it asked for; the slot of its core serves again once it is written (R431). -/
def Mach.dumpWaits (e : Fw) (m : Mach) (core : Nat) : Bool :=
  match e.ownerOf core with
  | some p => ((m.part p).dumps.head?.map (fun d => decide (dw d 0 = core))).getD false
  | none => false

/-- HANDLER_SERVICE_START of a core: the next trap, or where the slot has met a double fault the end of its dump. -/
def execHandlerServiceStart (s : State) : Host.Outcome State Fault Refusal :=
  .next (if s.m.dumpWaits s.fw s.subj.core then { s with m := s.m.goOnDump s.fw ((s.fw.ownerOf s.subj.core).getD 0) }
    else if s.m.serviceDue s.fw s.subj.core then { s with m := s.m.startService s.fw s.subj.core } else s)

/-- 2^20 core cycles have gone by without ERET. -/
def Mach.serviceLate (m : Mach) (core : Nat) : Bool :=
  ((m.core core).service.map (fun v => decide (v.began + 2 ^ 20 ≤ (m.shard (shardOf core)).cycle))).getD false

/-- Where the handler stands: its lowest lane that has not ended. -/
def Mach.handlerPc (m : Mach) (core : Nat) : DWord := (((m.warp core handlerSlot).threads.find? (fun t => t.2.st ≠ .exited)).map (fun t => t.2.pc)).getD 0

def execHandlerServiceTimeout (s : State) : Host.Outcome State Fault Refusal :=
  .next (if s.m.serviceLate s.subj.core then { s with m := Mach.abandonService s.fw s.m s.subj.core [406] (s.m.handlerPc s.subj.core) } else s)

/-! ### Microcode-extensible slots (06 R150, R154; 03 R85) -/

/-- The group of an extensible slot, with the price the image states. The rest of its issue is NOP's: a flag of SETF is signalled at class A's latency, which is the model's choice for a slot of class V (log 104). -/
def slotGroup (s : State) (n : BitVec 7) (o : Op) : Grp :=
  let i := s.fw.imageOn s.m s.m.sel.core
  { groupOf s .nop o with slotPrice := i.price n.toNat, slotStep := i.step n.toNat }

/-- An extensible slot may not stand in a chain; its price, or its step price, may be above DRAWCAP (07 R193, R195). What its operands and its own causes are, the image states. -/
def Grp.slotCause (g : Grp) : Nat := if (g.chain?).isSome then causeIllegalOpcode else if g.drawcap < g.price || g.drawcap < g.slotStep then causeOverprice else 0

/-- Bytes stored by a slot's image, through the partition's tables; one whose page does not take it is left. -/
def Grp.imageStores (g : Grp) (m : Mach) (xs : List (Nat × Byte)) : Mach :=
  xs.foldl (fun m x => match walkTo g.e m g.part x.1 .store none with
    | (m, .ok pa _) => m.tierWrite pa 1 x.2.toNat
    | (m, .err _) => m) m

/-- Registers that a slot's image writes in a warp's executing lanes. -/
def Grp.imageCells (g : Grp) (free n slot : Nat) : List (Nat × Nat × Word) :=
  (lanesIn g.execs slot).flatMap (fun l => (Config.slotWrites free n (32 * slot + l)).map (fun c => (c.1.toNat, l, c.2)))

/-- What the image states (R85): its own V registers, bytes of the partition's memory and exception bits, free of any rule of the spec (log 79). -/
def Grp.imageEffect (g : Grp) (n : Nat) (m : Mach) : Mach :=
  let k := m.fresh
  let m := (g.blocksOf g.execs).foldl Mach.visible { m with fresh := k + 1 }
  let m := g.execSlots.foldl (fun m s => m.modWarp g.core s (fun w => (w.writeV (g.imageCells k n s)).raiseExc (Config.slotExc k n))) m
  g.imageStores m (Config.slotStores k n)

/-- A slot that the running image does not define raises ILLEGAL_OPCODE, the lowest of all causes, as does one in a chain. A defined one draws the price its image states and executes as the image states. Its word's LAST bits free no register, since its sources are the image's: the model's choice (log 104). -/
def execExtensibleOpcode (n : BitVec 7) (o : Op) (s : State) : Host.Outcome State Fault Refusal :=
  let g := slotGroup s n o
  .next (if !(s.fw.imageOn s.m s.m.sel.core).defines n.toNat then { s with m := g.trap g.m causeIllegalOpcode }
    else if g.slotCause ≠ 0 then { s with m := g.trap g.m g.slotCause }
    else { s with m := g.commit (g.imageEffect n.toNat g.m) })

end Sys2Proof.Machine
end

