-- ==== Sys2Proof/Machine/Links.lean ====
section
/-! DEFINITION. Chegan Link ports, copies that arrive from peer modules, and accesses of the host (03 R68, R86; 11 R284; 14 R362). -/

namespace Sys2Proof.Machine

/-! ### Ports (03 R68, R86) -/

def Fw.modLink (e : Fw) (n : Nat) (f : Link → Link) : Fw := if n < 18 then { e with links := e.links.set n (f (e.links.get n Link.reset)) } else e

/-- Port 0 leads to the host adapter, and port 1 where one is fitted there (R86); the others to peer modules. -/
def leadsToHost (port : Nat) (fitted : Bool) : Bool := port = 0 || (port = 1 && fitted)

/-- LINK_TRAINED of a port. -/
def execLinkTrained (host : Bool) (peer lanes : Nat) (s : State) : Host.Outcome State Fault Refusal :=
  .next { s with fw := s.fw.modLink s.subj.unit (fun l => { l with up := true, host := leadsToHost s.subj.unit host, peer := peer % 2 ^ 14, lanes := min 4 lanes }) }

/-- LINK_DOWN of a port: its traffic moves to the other ports of the same peer, which `Fw.pathUp` finds. -/
def execLinkDown (s : State) : Host.Outcome State Fault Refusal := .next { s with fw := s.fw.modLink s.subj.unit (fun l => { l with up := false }) }

/-- CRC_ERROR_REPLAY on a port. -/
def execCrcErrorReplay (s : State) : Host.Outcome State Fault Refusal :=
  .next { s with fw := s.fw.modLink s.subj.unit (fun l => { l with retry := min (2 ^ 32 - 1) (l.retry + 1) }) }

/-! ### Arrivals -/

/-- A granule from a peer, written at a virtual address of a partition or refused (11 R284). -/
def Mach.peerWrite (e : Fw) (m : Mach) (part va v : Nat) : Mach :=
  match walkTo e m part (va / 16 * 16) .store none with
  | (m, .ok pa _) => m.tierWrite pa 16 v
  | (m, .err _) => m

def execPeerCopyWrite (va : Nat) (data : BitVec 128) (s : State) : Host.Outcome State Fault Refusal :=
  .next (if (s.fw.part s.subj.part).inUse then { s with m := s.m.peerWrite s.fw s.subj.part va data.toNat } else s)

/-- HOST_ACCESS of a tenant's function (14 R362): an aligned access of 1, 2, 4 or 8 bytes to its memory. What a read returns leaves the device. -/
def Mach.hostAccess (e : Fw) (m : Mach) (part va size : Nat) (data : Option DWord) : Mach :=
  if !(size = 1 || size = 2 || size = 4 || size = 8) || va % max 1 size ≠ 0 then m
  else match data with
    | some v =>
      match walkTo e m part va .store none with
      | (m, .ok pa _) => m.tierWrite pa size (v.toNat % 2 ^ (8 * size))
      | (m, .err _) => m
    | none => (walkTo e m part va .load none).1

def execHostAccess (va : Nat) (size : Nat) (data : Option DWord) (s : State) : Host.Outcome State Fault Refusal :=
  match s.fw.binds.get? s.subj.tag with
  | some b => .next { s with m := s.m.hostAccess s.fw b.part va size data }
  | none => .next s

end Sys2Proof.Machine
end

