-- ==== Sys2Proof/Machine/Microcode.lean ====
section
/-! DEFINITION. Signed microcode: the check of an image, its live application core by core, and a sequencer that fails its own check (03 R83 to R85). -/

namespace Sys2Proof.Machine

/-! ### The image (R83, R84) -/

/-- Bytes of words, each little-endian (00 R8). -/
def wordBytes (ws : List DWord) : List Byte := ws.flatMap (fun w => (List.range 8).map (fun i => BitVec.ofNat 8 (w.toNat / 256 ^ i)))

/-- A number from words, the first lowest (00 R8). -/
def wordsNat (ws : List DWord) : Nat := ws.foldr (fun x a => x.toNat + 2 ^ 64 * a) 0

/-- The bytes under the signature: header words D0 to D3 and D16 to D31, then the bytes after the header. -/
def ucodeSigned (i : UcodeImage) : List Byte :=
  wordBytes ([i.version.setWidth 64 ||| i.magic.setWidth 64 <<< 32, i.length.setWidth 64 ||| i.statever.setWidth 64 <<< 32, i.slots.setWidth 64, (i.slots >>> 64).setWidth 64] ++ i.rsv) ++ i.body

/-- SIG's halves r and s, 48 bytes each, verify over those bytes against the fused key. -/
def ucodeVerifies (i : UcodeImage) : Bool := ecdsaOk Config.fusedKey (sha384 (ucodeSigned i)) (wordsNat (i.sig.take 6)) (wordsNat (i.sig.drop 6))

/-- The image passes firmware core 0's check: it has its header's words and LENGTH bytes after them, VERSION is not below the fused counter, no reserved field is set, SLOTS names extensible slots only, and the signature verifies. -/
def ucodePasses (i : UcodeImage) (e : Fw) : Bool :=
  i.sig.length = 12 && i.rsv.length = 16 && i.body.length = i.length.toNat && e.rollback.toNat ≤ i.version.toNat && i.rsv.all (· = 0) && i.slots.toNat / 2 ^ 96 = 0 && ucodeVerifies i

/-- What an accepted image puts in force: the prices and step prices that its bytes state (R85; 06 R154). -/
def imageOf (i : UcodeImage) : Image :=
  { version := i.version, statever := i.statever, slots := i.slots,
    prices := (Config.statedPrices i.body).foldl (fun (t : Tab Nat) p => t.set p.1 p.2) [], steps := (Config.statedSteps i.body).foldl (fun (t : Tab Nat) p => t.set p.1 p.2) [] }

/-- FUNCMODE bit 1: images come from the host's staging region, not from flash (R80). The subject's unit names where an image comes from: 0 flash, 1 staging (log 95). -/
def Fw.imageSource (e : Fw) : Nat := if e.win.funcmode.toNat.testBit 1 then 1 else 0

/-- MICROCODE_LOAD from the source in force: an accepted image waits to be applied, in place of one that waited before (log 92); a rejected one is reported and changes nothing. -/
def execMicrocodeLoad (img : UcodeImage) (s : State) : Host.Outcome State Fault Refusal :=
  .next (if s.subj.unit ≠ s.fw.imageSource then s
  else if ucodePasses img s.fw then
    { s with
      fw := { s.fw with imageNext := some (imageOf img) },
      m := { s.m with cores := s.m.cores.mapVal (fun c => { c with swapped := false }) } }
  else { s with m := s.m.devLog [84, 0x3F, img.version.toNat] })

/-! ### Live application (R85) -/

/-- The image in force once every core has it: the fused counter rises to its VERSION (R84). -/
def State.settleImage (s : State) (i : Image) : State :=
  if (List.range 256).all (fun c => s.fw.fenced.contains c || (s.m.core c).swapped) then
    { s with
      fw := { s.fw with image := i, imageNext := none, rollback := if s.fw.rollback < i.version then i.version else s.fw.rollback },
      m := { s.m with cores := s.m.cores.mapVal (fun c => { c with swapped := false }) } }
  else s

/-- MICROCODE_APPLY_LIVE on a core, between two steps of its sequencers. -/
def execMicrocodeApplyLive (s : State) : Host.Outcome State Fault Refusal :=
  match s.fw.imageNext with
  | some i =>
    if i.statever = s.fw.image.statever && s.subj.core < 256 then .next (({ s with m := s.m.modCore s.subj.core (fun c => { c with swapped := true }) } : State).settleImage i)
    else .next s
  | none => .next s

/-! ### A failed sequencer (R84) -/

/-- SEQUENCER_CHECK_FAIL: MICROCODE_CHECK goes to the error log of the core's partition (00 R18), the sequencer is fenced, and its macro-instructions run on the core's other one. -/
def execSequencerCheckFail (s : State) : Host.Outcome State Fault Refusal :=
  let core := s.subj.core
  let seq := s.subj.unit % 2
  .next (if (s.m.core core).seqFence.contains seq then s
    else
      let m := s.m.modCore core (fun c => { c with seqFence := c.seqFence ++ [seq] })
      let m := match s.fw.ownerOf core with
        | some p => m.partLog p [84, 0x3F, core, seq]
        | none => m.devLog [84, 0x3F, core, seq]
      { s with m := { m with macros := m.macros.mapVal (fun x => if x.core = core && x.seq = seq then { x with seq := 1 - seq } else x) } })

end Sys2Proof.Machine
end

