-- ==== Sys2Proof/Machine/Dispatch.lean ====
section
/-! DEFINITION. One arm per constructor of Instr: each is one direct call of its meaning. -/

namespace Sys2Proof.Machine

def exec (i : Instr) (s : State) : Host.Outcome State Fault Refusal :=
  match i with
  | .nop o => Sys2Proof.Machine.execNop o s
  | .bra o => Sys2Proof.Machine.execBra o s
  | .brx o => Sys2Proof.Machine.execBrx o s
  | .call o => Sys2Proof.Machine.execCall o s
  | .callx o => Sys2Proof.Machine.execCallx o s
  | .ret o => Sys2Proof.Machine.execRet o s
  | .exit o => Sys2Proof.Machine.execExit o s
  | .yield o => Sys2Proof.Machine.execYield o s
  | .beat o => Sys2Proof.Machine.execBeat o s
  | .enrol o => Sys2Proof.Machine.execEnrol o s
  | .park o => Sys2Proof.Machine.execPark o s
  | .strike o => Sys2Proof.Machine.execStrike o s
  | .demote o => Sys2Proof.Machine.execDemote o s
  | .kill o => Sys2Proof.Machine.execKill o s
  | .iadd o => Sys2Proof.Machine.execIadd o s
  | .isub o => Sys2Proof.Machine.execIsub o s
  | .imul o => Sys2Proof.Machine.execImul o s
  | .imulh o => Sys2Proof.Machine.execImulh o s
  | .imac o => Sys2Proof.Machine.execImac o s
  | .imacw o => Sys2Proof.Machine.execImacw o s
  | .idiv o => Sys2Proof.Machine.execIdiv o s
  | .irem o => Sys2Proof.Machine.execIrem o s
  | .imin o => Sys2Proof.Machine.execImin o s
  | .imax o => Sys2Proof.Machine.execImax o s
  | .iabs o => Sys2Proof.Machine.execIabs o s
  | .ineg o => Sys2Proof.Machine.execIneg o s
  | .iadd64 o => Sys2Proof.Machine.execIadd64 o s
  | .isub64 o => Sys2Proof.Machine.execIsub64 o s
  | .imul64 o => Sys2Proof.Machine.execImul64 o s
  | .imac64 o => Sys2Proof.Machine.execImac64 o s
  | .icmp o => Sys2Proof.Machine.execIcmp o s
  | .icmp64 o => Sys2Proof.Machine.execIcmp64 o s
  | .sel o => Sys2Proof.Machine.execSel o s
  | .lea o => Sys2Proof.Machine.execLea o s
  | .bcnt o => Sys2Proof.Machine.execBcnt o s
  | .lzc o => Sys2Proof.Machine.execLzc o s
  | .bitrev o => Sys2Proof.Machine.execBitrev o s
  | .idot4 o => Sys2Proof.Machine.execIdot4 o s
  | .and o => Sys2Proof.Machine.execAnd o s
  | .or o => Sys2Proof.Machine.execOr o s
  | .xor o => Sys2Proof.Machine.execXor o s
  | .not o => Sys2Proof.Machine.execNot o s
  | .logic3 o => Sys2Proof.Machine.execLogic3 o s
  | .shl o => Sys2Proof.Machine.execShl o s
  | .shr o => Sys2Proof.Machine.execShr o s
  | .sar o => Sys2Proof.Machine.execSar o s
  | .rot o => Sys2Proof.Machine.execRot o s
  | .shl64 o => Sys2Proof.Machine.execShl64 o s
  | .shr64 o => Sys2Proof.Machine.execShr64 o s
  | .sar64 o => Sys2Proof.Machine.execSar64 o s
  | .bfe o => Sys2Proof.Machine.execBfe o s
  | .bfi o => Sys2Proof.Machine.execBfi o s
  | .bmsk o => Sys2Proof.Machine.execBmsk o s
  | .bperm o => Sys2Proof.Machine.execBperm o s
  | .shfn o => Sys2Proof.Machine.execShfn o s
  | .plop o => Sys2Proof.Machine.execPlop o s
  | .pmov o => Sys2Proof.Machine.execPmov o s
  | .p2v o => Sys2Proof.Machine.execP2v o s
  | .v2p o => Sys2Proof.Machine.execV2p o s
  | .smov o => Sys2Proof.Machine.execSmov o s
  | .siadd o => Sys2Proof.Machine.execSiadd o s
  | .simul o => Sys2Proof.Machine.execSimul o s
  | .sand o => Sys2Proof.Machine.execSand o s
  | .sor o => Sys2Proof.Machine.execSor o s
  | .sxor o => Sys2Proof.Machine.execSxor o s
  | .sshl o => Sys2Proof.Machine.execSshl o s
  | .sshr o => Sys2Proof.Machine.execSshr o s
  | .scmp o => Sys2Proof.Machine.execScmp o s
  | .v2s o => Sys2Proof.Machine.execV2s o s
  | .s2v o => Sys2Proof.Machine.execS2v o s
  | .srd o => Sys2Proof.Machine.execSrd o s
  | .swr o => Sys2Proof.Machine.execSwr o s
  | .segld o => Sys2Proof.Machine.execSegld o s
  | .segrd o => Sys2Proof.Machine.execSegrd o s
  | .flagrd o => Sys2Proof.Machine.execFlagrd o s
  | .flagclr o => Sys2Proof.Machine.execFlagclr o s
  | .cctlIinv o => Sys2Proof.Machine.execCctlIinv o s
  | .cctlIinvpg o => Sys2Proof.Machine.execCctlIinvpg o s
  | .cctlTlbpg o => Sys2Proof.Machine.execCctlTlbpg o s
  | .cctlTlball o => Sys2Proof.Machine.execCctlTlball o s
  | .fadd o => Sys2Proof.Machine.execFadd o s
  | .fsub o => Sys2Proof.Machine.execFsub o s
  | .fmul o => Sys2Proof.Machine.execFmul o s
  | .fmac o => Sys2Proof.Machine.execFmac o s
  | .fmin o => Sys2Proof.Machine.execFmin o s
  | .fmax o => Sys2Proof.Machine.execFmax o s
  | .fabs o => Sys2Proof.Machine.execFabs o s
  | .fneg o => Sys2Proof.Machine.execFneg o s
  | .fcmp o => Sys2Proof.Machine.execFcmp o s
  | .fclass o => Sys2Proof.Machine.execFclass o s
  | .frnd o => Sys2Proof.Machine.execFrnd o s
  | .frcp o => Sys2Proof.Machine.execFrcp o s
  | .frsq o => Sys2Proof.Machine.execFrsq o s
  | .fsqrt o => Sys2Proof.Machine.execFsqrt o s
  | .fdiv o => Sys2Proof.Machine.execFdiv o s
  | .fex2 o => Sys2Proof.Machine.execFex2 o s
  | .flg2 o => Sys2Proof.Machine.execFlg2 o s
  | .fsin o => Sys2Proof.Machine.execFsin o s
  | .fcos o => Sys2Proof.Machine.execFcos o s
  | .ftanh o => Sys2Proof.Machine.execFtanh o s
  | .fdot2 o => Sys2Proof.Machine.execFdot2 o s
  | .fdot4 o => Sys2Proof.Machine.execFdot4 o s
  | .dadd o => Sys2Proof.Machine.execDadd o s
  | .dsub o => Sys2Proof.Machine.execDsub o s
  | .dmul o => Sys2Proof.Machine.execDmul o s
  | .dmac o => Sys2Proof.Machine.execDmac o s
  | .dmin o => Sys2Proof.Machine.execDmin o s
  | .dmax o => Sys2Proof.Machine.execDmax o s
  | .dabs o => Sys2Proof.Machine.execDabs o s
  | .dneg o => Sys2Proof.Machine.execDneg o s
  | .dcmp o => Sys2Proof.Machine.execDcmp o s
  | .dclass o => Sys2Proof.Machine.execDclass o s
  | .drnd o => Sys2Proof.Machine.execDrnd o s
  | .drcp o => Sys2Proof.Machine.execDrcp o s
  | .drsq o => Sys2Proof.Machine.execDrsq o s
  | .dsqrt o => Sys2Proof.Machine.execDsqrt o s
  | .ddiv o => Sys2Proof.Machine.execDdiv o s
  | .hadd2 o => Sys2Proof.Machine.execHadd2 o s
  | .hsub2 o => Sys2Proof.Machine.execHsub2 o s
  | .hmul2 o => Sys2Proof.Machine.execHmul2 o s
  | .hmac2 o => Sys2Proof.Machine.execHmac2 o s
  | .hmin2 o => Sys2Proof.Machine.execHmin2 o s
  | .hmax2 o => Sys2Proof.Machine.execHmax2 o s
  | .habs2 o => Sys2Proof.Machine.execHabs2 o s
  | .hneg2 o => Sys2Proof.Machine.execHneg2 o s
  | .hcmp2 o => Sys2Proof.Machine.execHcmp2 o s
  | .hclass2 o => Sys2Proof.Machine.execHclass2 o s
  | .hex2 o => Sys2Proof.Machine.execHex2 o s
  | .hrcp2 o => Sys2Proof.Machine.execHrcp2 o s
  | .cvt o => Sys2Proof.Machine.execCvt o s
  | .cvtsat o => Sys2Proof.Machine.execCvtsat o s
  | .pack o => Sys2Proof.Machine.execPack o s
  | .unpack o => Sys2Proof.Machine.execUnpack o s
  | .sdenc o => Sys2Proof.Machine.execSdenc o s
  | .sddec o => Sys2Proof.Machine.execSddec o s
  | .sdhdr o => Sys2Proof.Machine.execSdhdr o s
  | .t5pk o => Sys2Proof.Machine.execT5pk o s
  | .t5unpk o => Sys2Proof.Machine.execT5unpk o s
  | .lxch o => Sys2Proof.Machine.execLxch o s
  | .vote o => Sys2Proof.Machine.execVote o s
  | .ballot o => Sys2Proof.Machine.execBallot o s
  | .matchl o => Sys2Proof.Machine.execMatchl o s
  | .redux o => Sys2Proof.Machine.execRedux o s
  | .scan o => Sys2Proof.Machine.execScan o s
  | .ddx o => Sys2Proof.Machine.execDdx o s
  | .ddy o => Sys2Proof.Machine.execDdy o s
  | .qswz o => Sys2Proof.Machine.execQswz o s
  | .ld o => Sys2Proof.Machine.execLd o s
  | .st o => Sys2Proof.Machine.execSt o s
  | .lds o => Sys2Proof.Machine.execLds o s
  | .sts o => Sys2Proof.Machine.execSts o s
  | .ldc o => Sys2Proof.Machine.execLdc o s
  | .ldl o => Sys2Proof.Machine.execLdl o s
  | .stl o => Sys2Proof.Machine.execStl o s
  | .gath o => Sys2Proof.Machine.execGath o s
  | .scat o => Sys2Proof.Machine.execScat o s
  | .pref o => Sys2Proof.Machine.execPref o s
  | .atom o => Sys2Proof.Machine.execAtom o s
  | .red o => Sys2Proof.Machine.execRed o s
  | .cas128 o => Sys2Proof.Machine.execCas128 o s
  | .fence o => Sys2Proof.Machine.execFence o s
  | .tlrmake o => Sys2Proof.Machine.execTlrmake o s
  | .cpy o => Sys2Proof.Machine.execCpy o s
  | .cpym o => Sys2Proof.Machine.execCpym o s
  | .cpseal o => Sys2Proof.Machine.execCpseal o s
  | .cpwait o => Sys2Proof.Machine.execCpwait o s
  | .bcinitInit o => Sys2Proof.Machine.execBcinitInit o s
  | .bcinitArm o => Sys2Proof.Machine.execBcinitArm o s
  | .bcwait o => Sys2Proof.Machine.execBcwait o s
  | .tilecfg o => Sys2Proof.Machine.execTilecfg o s
  | .tilest o => Sys2Proof.Machine.execTilest o s
  | .tilerd o => Sys2Proof.Machine.execTilerd o s
  | .tilewr o => Sys2Proof.Machine.execTilewr o s
  | .tilerst o => Sys2Proof.Machine.execTilerst o s
  | .mma o => Sys2Proof.Machine.execMma o s
  | .mmas o => Sys2Proof.Machine.execMmas o s
  | .ttq o => Sys2Proof.Machine.execTtq o s
  | .ttqClaim o => Sys2Proof.Machine.execTtqClaim o s
  | .acalloc o => Sys2Proof.Machine.execAcalloc o s
  | .acfree o => Sys2Proof.Machine.execAcfree o s
  | .acrd o => Sys2Proof.Machine.execAcrd o s
  | .acwr o => Sys2Proof.Machine.execAcwr o s
  | .aczero o => Sys2Proof.Machine.execAczero o s
  | .acdrain o => Sys2Proof.Machine.execAcdrain o s
  | .rast o => Sys2Proof.Machine.execRast o s
  | .attr o => Sys2Proof.Machine.execAttr o s
  | .trav o => Sys2Proof.Machine.execTrav o s
  | .filt o => Sys2Proof.Machine.execFilt o s
  | .oblend o => Sys2Proof.Machine.execOblend o s
  | .dice o => Sys2Proof.Machine.execDice o s
  | .samps o => Sys2Proof.Machine.execSamps o s
  | .bmatch o => Sys2Proof.Machine.execBmatch o s
  | .barSync o => Sys2Proof.Machine.execBarSync o s
  | .barArrive o => Sys2Proof.Machine.execBarArrive o s
  | .evset o => Sys2Proof.Machine.execEvset o s
  | .evsetClr o => Sys2Proof.Machine.execEvsetClr o s
  | .evwait o => Sys2Proof.Machine.execEvwait o s
  | .evtest o => Sys2Proof.Machine.execEvtest o s
  | .cont o => Sys2Proof.Machine.execCont o s
  | .resume o => Sys2Proof.Machine.execResume o s
  | .wgres o => Sys2Proof.Machine.execWgres o s
  | .wgcommit o => Sys2Proof.Machine.execWgcommit o s
  | .wgcancel o => Sys2Proof.Machine.execWgcancel o s
  | .xrd o => Sys2Proof.Machine.execXrd o s
  | .xwr o => Sys2Proof.Machine.execXwr o s
  | .eretResume o => Sys2Proof.Machine.execEretResume o s
  | .eretKill o => Sys2Proof.Machine.execEretKill o s
  | .eretFdom o => Sys2Proof.Machine.execEretFdom o s
  | .trap o => Sys2Proof.Machine.execTrap o s
  | .create w => Sys2Proof.Machine.execCreate w s
  | .resize w => Sys2Proof.Machine.execResize w s
  | .resizeResume w => Sys2Proof.Machine.execResizeResume w s
  | .destroy w => Sys2Proof.Machine.execDestroy w s
  | .bindvf w => Sys2Proof.Machine.execBindvf w s
  | .unbindvf w => Sys2Proof.Machine.execUnbindvf w s
  | .dropClear w => Sys2Proof.Machine.execDropClear w s
  | .funcmodeWrite w => Sys2Proof.Machine.execFuncmodeWrite w s
  | .registerWrite t w => Sys2Proof.Machine.execRegisterWrite t w s
  | .doorbell w => Sys2Proof.Machine.execDoorbell w s
  | .rcbFlush w => Sys2Proof.Machine.execRcbFlush w s
  | .temporalUnitWrite len => Sys2Proof.Machine.execTemporalUnitWrite len s
  | .lifecycleTransition target key released => Sys2Proof.Machine.execLifecycleTransition target key released s
  | .wipeComplete r => Sys2Proof.Machine.execWipeComplete r s
  | .microcodeLoad img => Sys2Proof.Machine.execMicrocodeLoad img s
  | .pageMove va frame => Sys2Proof.Machine.execPageMove va frame s
  | .controlIntervalBoundary temps chans => Sys2Proof.Machine.execControlIntervalBoundary temps chans s
  | .votesWrite vote => Sys2Proof.Machine.execVotesWrite vote s
  | .reservationMark pc => Sys2Proof.Machine.execReservationMark pc s
  | .queueRefill k => Sys2Proof.Machine.execQueueRefill k s
  | .engineSelfTest failed => Sys2Proof.Machine.execEngineSelfTest failed s
  | .extensibleOpcode n o => Sys2Proof.Machine.execExtensibleOpcode n o s
  | .linkTrained host peer lanes => Sys2Proof.Machine.execLinkTrained host peer lanes s
  | .peerCopyWrite va data => Sys2Proof.Machine.execPeerCopyWrite va data s
  | .hostAccess va size data => Sys2Proof.Machine.execHostAccess va size data s
  | .fdcmdEnd => Sys2Proof.Machine.execFdcmdEnd s
  | .fdcmdRelease => Sys2Proof.Machine.execFdcmdRelease s
  | .deferredEntryMove => Sys2Proof.Machine.execDeferredEntryMove s
  | .headRefresh => Sys2Proof.Machine.execHeadRefresh s
  | .faultResolve => Sys2Proof.Machine.execFaultResolve s
  | .faultRecordAppend => Sys2Proof.Machine.execFaultRecordAppend s
  | .faultRecordCopy => Sys2Proof.Machine.execFaultRecordCopy s
  | .faultReplay => Sys2Proof.Machine.execFaultReplay s
  | .reset => Sys2Proof.Machine.execReset s
  | .microcodeApplyLive => Sys2Proof.Machine.execMicrocodeApplyLive s
  | .sequencerCheckFail => Sys2Proof.Machine.execSequencerCheckFail s
  | .pluginFault => Sys2Proof.Machine.execPluginFault s
  | .pluginTimeout => Sys2Proof.Machine.execPluginTimeout s
  | .linkDown => Sys2Proof.Machine.execLinkDown s
  | .resizeCoreDepart => Sys2Proof.Machine.execResizeCoreDepart s
  | .timeSliceEnd => Sys2Proof.Machine.execTimeSliceEnd s
  | .frequencyFall => Sys2Proof.Machine.execFrequencyFall s
  | .regulatorSettled => Sys2Proof.Machine.execRegulatorSettled s
  | .droopEvent => Sys2Proof.Machine.execDroopEvent s
  | .thermalTrip => Sys2Proof.Machine.execThermalTrip s
  | .revolutionStart => Sys2Proof.Machine.execRevolutionStart s
  | .ringPass => Sys2Proof.Machine.execRingPass s
  | .bundleStartEvaluation => Sys2Proof.Machine.execBundleStartEvaluation s
  | .bundleAdmit => Sys2Proof.Machine.execBundleAdmit s
  | .bundleRetire => Sys2Proof.Machine.execBundleRetire s
  | .dispatcherStep => Sys2Proof.Machine.execDispatcherStep s
  | .cooperativeSave => Sys2Proof.Machine.execCooperativeSave s
  | .forcedSave => Sys2Proof.Machine.execForcedSave s
  | .restore => Sys2Proof.Machine.execRestore s
  | .accDeadlockBreak => Sys2Proof.Machine.execAccDeadlockBreak s
  | .watchdogExpiry => Sys2Proof.Machine.execWatchdogExpiry s
  | .handlerServiceStart => Sys2Proof.Machine.execHandlerServiceStart s
  | .handlerServiceTimeout => Sys2Proof.Machine.execHandlerServiceTimeout s
  | .memoryAccessComplete => Sys2Proof.Machine.execMemoryAccessComplete s
  | .copyGranuleDeliver => Sys2Proof.Machine.execCopyGranuleDeliver s
  | .copyComplete => Sys2Proof.Machine.execCopyComplete s
  | .copyRequestEnter => Sys2Proof.Machine.execCopyRequestEnter s
  | .multicastReceipt => Sys2Proof.Machine.execMulticastReceipt s
  | .tileFillComplete => Sys2Proof.Machine.execTileFillComplete s
  | .tileReaderDone => Sys2Proof.Machine.execTileReaderDone s
  | .tileTaskDispatch => Sys2Proof.Machine.execTileTaskDispatch s
  | .engineStep => Sys2Proof.Machine.execEngineStep s
  | .tileTaskRetire => Sys2Proof.Machine.execTileTaskRetire s
  | .mmaAdmission => Sys2Proof.Machine.execMmaAdmission s
  | .macroStep => Sys2Proof.Machine.execMacroStep s
  | .macroRelease => Sys2Proof.Machine.execMacroRelease s
  | .darningPass => Sys2Proof.Machine.execDarningPass s
  | .crcErrorReplay => Sys2Proof.Machine.execCrcErrorReplay s

end Sys2Proof.Machine
end

