-- ==== Sys2Proof/Machine/Fetch.lean ====
section
/-! DEFINITION. A machine in which one word is the next to be issued: a page, a partition, a block and its warp, laid out by hand (log 3). -/

namespace Sys2Proof.Machine

/-- Frames of the layout: five tables, the code page, the RCB's page (tier 1). -/
def probeFrame (k : Nat) : Nat := 0x10000000 + k

/-- An entry that names the next table, and the leaf: readable, writable, executable. -/
def probeEntry (k : Nat) : Nat := if k = 4 then 2 ^ 61 + 2 ^ 60 + 2 ^ 59 + probeFrame 5 * 4096 + 1 else probeFrame (k + 1) * 4096 + 1

/-- The page tables of the probe and the word at virtual address 0. -/
def probeMem (t : Tab Byte) (w : Nat) : Tab Byte :=
  memWrite ((List.range 5).foldl (fun t k => memWrite t (probeFrame k * 4096) 8 (probeEntry k)) t) (probeFrame 5 * 4096) 16 w

def probePart : PartCfg := { PartCfg.unused with inUse := true, cores := 1, xlat := probeFrame 0 * 4096 }

/-- A launch record of one block of 32 threads (01 R30). -/
def probeLaunch : Launch :=
  { rcd := [0, 0, 2 ^ 40 + 2 ^ 24 + 2 ^ 8, 32 * 2 ^ 53 + 2 ^ 42 + 2 ^ 31 + 256 * 256, 6 * 2 ^ 50, 0, 0, 0, 0, 0, 0, 0, 0, 0, 0, 0],
    next := 1, accepted := true, closed := false, live := 1, taken := 0, slips := [], slipSeq := 0, reqWait := none, reqDraft := none, wg := none, wgRecs := [], wgSeq := [], wgTable := [], cov := none }

def probeBundle : Bundle :=
  { addr := 0, tag := 0, part := 0, queue := 0, order := 0, st := .running, hdr := [], launches := [(0, probeLaunch)], chain := [0], effs := [], admitted := 0, depctr := 0,
    status := 0, tally := {}, bins := [] }

def probeBlock : Block :=
  { bundle := 1, launch := 0, lin := 0, core := 0, age := 0, st := .resident, preempt := false, deadline := 0, why := 0, rcause := 0, frame := 0, flushable := false,
    wdbase := 0, wdcnt := 0, wdexp := 0, covf := 0, scratch := [], grant := 0, tiles := [], bars := [], accs := [], accWait := [], warps := [], traps := [], reissue := [],
    tasks := [], flushing := false }

def probeThread : Thread := { Thread.absent with st := .atPc }

def probeWarp : Warp :=
  { Warp.absent with blk := 1, threads := (List.range 32).map (fun l => (l, probeThread)), seg := [(0, (0, 0x200000000000000)), (3, (0, 65536))] }

/-- The state with the word where the next step fetches. -/
def State.withWord (s : State) (w : Nat) : State :=
  { s with
    fw := { s.fw with parts := Tab.set s.fw.parts 0 probePart, owners := (List.range 6).foldl (fun t k => Tab.set t (probeFrame k) 0) s.fw.owners },
    m := { s.m with
      mem := probeMem s.m.mem w, warps := Tab.set s.m.warps 0 probeWarp, bundles := Tab.set s.m.bundles 1 probeBundle, blocks := Tab.set s.m.blocks 1 probeBlock,
      cores := Tab.set s.m.cores 0 { Core.reset with bank := 64 }, shards := Tab.set s.m.shards 0 { Shard.reset with drawcap := 64, interval := 1, rev := 1, pass := 2 }, slices := Tab.set s.m.slices 0 Slice.reset },
    agenda := [.slice 0 0] }

end Sys2Proof.Machine
end

