-- ==== Sys2Proof/Machine/Cycle.lean ====
section
/-! DEFINITION. The events that a rule ties to the cycle they fall due in, and what a slice's cycle does with the group it has chosen: the fault of its fetch, the trap of a word that names no instruction, or the issue of its instruction (06 R150, R153; 08 R204; 16 R405, R407). -/

namespace Sys2Proof.Machine

/-! ### Events and the units they concern -/

abbrev Due := List (Instr × Subj)

def Subj.at (id : Nat) : Subj := { Subj.zero with id }
def Subj.onCore (core : Nat) : Subj := { Subj.zero with core, shard := shardOf core }
def Subj.onShard (shard : Nat) : Subj := { Subj.zero with shard }
def Subj.onBlock (blk : Nat) : Subj := { Subj.zero with blk }
def Subj.onPart (part : Nat) : Subj := { Subj.zero with part }

/-- Cores of the partitions in use. -/
def Fw.coresInUse (e : Fw) : List Nat := (e.parts.filter (fun p => p.2.inUse)).flatMap (fun p => coresOf p.2.cores)

/-- Events that come in the very cycle in which they fall due: saves whose conditions hold or whose deadline has come, watchdogs that reach their window, a service at its limit, and the mark of a sequencer whose step has waited a revolution (16 R406, R415, R416, R427; 07 R195). -/
def dueTimed (e : Fw) (m : Mach) : Due :=
  m.blocks.flatMap (fun b =>
    let x : Subj := { Subj.onBlock b.1 with shard := shardOf b.2.core }
    (if m.watchdogDue b.2 then [(Instr.watchdogExpiry, x)] else []) ++ (if m.coopDue e b.1 then [(Instr.cooperativeSave, x)] else []) ++ (if m.forcedDue b.1 then [(Instr.forcedSave, x)] else [])) ++
  (e.coresInUse.filter m.serviceLate).map (fun c => (Instr.handlerServiceTimeout, Subj.onCore c)) ++
  (m.macros.filter (fun x => m.macroMarkDue x.2)).map (fun x => (Instr.reservationMark 0, { Subj.at x.1 with shard := shardOf x.2.core }))

/-! ### A slice's cycle -/

/-- The guard of a word whatever the rest of it holds (06 R141, R147). -/
def rawGuard (m : Mach) (core : Nat) (w : IWord) (x : Member) : Bool := xor (bit w.toNat 85) ((m.warp core x.slot).preg (bits w.toNat 84 82) x.lane)

/-- The chain in progress goes on with the candidate. -/
def Cand.continues (c : Cand) (s : Slice) : Bool := match s.chain with
  | some k => k.next = c.pc && k.members = c.members
  | none => false

/-- A fetch that does not translate: the members wait at the instruction, or at the first of their chain; one record names the page for each warp. A warp that was to replay its instruction still is (R204; 10 R273). -/
def fetchFault (m : Mach) (core slice part : Nat) (c : Cand) (cause : Nat) : Mach :=
  let s := m.slc core slice
  let first := if c.continues s then (match s.chain with
    | some k => k.first
    | none => c.pc) else c.pc
  let m := if c.continues s then m.breakChain core slice else m
  (slotsOfMembers c.members).foldl (fun m sl =>
    let ls := maskOf (lanesIn c.members sl)
    let tag := ((m.blocks.get? (m.warp core sl).blk).map m.tagOf).getD 0
    let f : FaultRec := ((m.warp core sl).fault).getD
      { pc := first, members := ls, execs := 0, flag := 15, whole := true, handler := false, uncorrectable := false, seqs := [], drafts := [], stash := [] }
    (m.modWarp core sl (fun w => { w with fault := none })).faultWait core sl part (lanesIn c.members sl) f
      [{ page := pcKey c.pc / 4096, cause, kind := 3, core, wslot := sl, lanes := ls, tag }]) m

/-- The fetch of the handler warp meets a cause: of a service's first instruction a double fault, otherwise the end of the service (R407). -/
def handlerFetchFault (e : Fw) (m : Mach) (core : Nat) (c : Cand) (cause : Nat) : Mach :=
  if ((m.warp core handlerSlot).thread c.oldest.lane).lastIssue = 0 then Mach.doubleFault e m core cause else Mach.abandonService e m core [407, cause] c.pc

/-- A word that names no instruction raises ILLEGAL_OPCODE, the lowest of all causes (06 R150, R153). -/
def illegalWord (e : Fw) (m : Mach) (core slice : Nat) (c : Cand) (w : IWord) : Mach :=
  let execs := (c.members.filter (rawGuard m core w)).map (·.lane)
  let m := if c.continues (m.slc core slice) then m.breakChain core slice else m
  Mach.takeTrap e m core causeIllegalOpcode 0 c.pc execs (slotsOfMembers c.members)

/-- The group in hand is the candidate; its words are used up. -/
def Mach.select (m : Mach) (core slice : Nat) (c : Cand) (i : Instr) : Mach :=
  let fp := match i.mnOp? with
    | some (k, _) => isFp64 k
    | none => false
  let m := if fp then m.modSlc core slice (fun s => { s with fp64 := s.cyc + 2 }) else m
  let m := m.modSlc core slice (fun s => { s with held := c.members.foldl (fun t x => t.erase (vk x.slot x.lane)) s.held })
  { m with sel := { core, slice, pc := c.pc, members := c.members, replays := c.replays } }

/-- The marks a slice asks for after its cycle (07 R194). -/
def marksDue (m : Mach) (core slice : Nat) : List Move :=
  (m.markPick core slice).toList.map (fun k => Move.event (.reservationMark (BitVec.ofNat 64 (k / 4096))) { Subj.zero with core, unit := slice, shard := shardOf core })

/-- The ring's next event of a shard has come: it precedes the slices of its cycle (07 R190, R191). -/
def Shard.ringDue (h : Shard) : Bool := h.boundaryDue || h.revDue || h.passDue

/-- What a slice's group does: the fault of its fetch, the trap of a word that names no instruction, or its instruction. -/
def sliceIssue (s : State) (core slice : Nat) (c : Cand) : State × Option Instr :=
  match c.got with
  | .fault cause =>
    if c.isHandler then ({ s with m := handlerFetchFault s.fw s.m core c cause }, none)
    else ({ s with m := fetchFault s.m core slice ((s.fw.ownerOf core).getD 0) c cause }, none)
  | .word w =>
    match decodeWord w with
    | .error _ => ({ s with m := illegalWord s.fw s.m core slice c w }, none)
    | .ok i => ({ s with m := s.m.select core slice c i }, some i)

/-- A CYCLE OF A SLICE, up to the instruction its group executes. -/
def sliceCycle (s : State) (core slice : Nat) : State × Option Instr :=
  let p := (s.m.tick s.fw core slice).pick s.fw core slice
  let s := { s with m := p.1, agenda := marksDue p.1 core slice ++ s.agenda }
  match p.2 with
  | none => (s, none)
  | some c => sliceIssue s core slice c

/-- An event of the shard comes before its slices go on: the ring's next, or one that is due in this cycle. -/
def heldBack (s : State) (sh : Nat) : Bool := (s.m.shard sh).ringDue || (dueTimed s.fw s.m).any (fun x => x.2.shard = sh)

/-- A slice is offered its cycle: it takes it if it is its turn, and no event holds it back. With no turn left in its shard's cycle, the blocks killed in it end (08 R207) and the next cycle begins (log 86). -/
def sliceTurn (s : State) (core slice : Nat) : State × Option Instr :=
  let sh := shardOf core
  if 16 ≤ sh || heldBack s sh then (s, none)
  else match s.m.turnOf s.fw sh with
    | some t => if t = (core, slice) then sliceCycle s core slice else (s, none)
    | none => ({ s with m := (s.m.endKilled s.fw sh).rollover sh }, none)

end Sys2Proof.Machine
end

