-- ==== Sys2Proof/Machine/Internal.lean ====
section
/-! DEFINITION. Which of the device's own steps comes next when nothing is proposed (00 R12; log 2): the enabled events taken in turn, and between two of them a cycle of the next slice. What sensors, timers, links and the host bring is proposed in the agenda. -/

namespace Sys2Proof.Machine

def dueAccess (m : Mach) : Due := m.accesses.map (fun a => (.memoryAccessComplete, Subj.at a.1))

/-- Receipts and fill completions whose place in their core's cycle has come (11 R299). -/
def dueReceipts (m : Mach) : Due :=
  m.copies.flatMap (fun c => if m.copyRuns c.1 c.2 then ((c.2.rcvs.filter (fun r => !r.offered && m.receiptTurn (16 * c.2.shard + r.core))).map (fun r => (Instr.multicastReceipt, { Subj.at c.1 with unit := r.core }))) else [])

def dueFills (m : Mach) : Due :=
  m.blocks.flatMap (fun b => if m.fillTurn b.1 then (b.2.tiles.filter (fun t => t.2.fill = .written)).map (fun t => (Instr.tileFillComplete, { Subj.onBlock b.1 with unit := t.1 })) else [])

def dueCopies (m : Mach) : Due :=
  m.copies.flatMap (fun c =>
    (if m.granuleDue c.1 c.2 then [(Instr.copyGranuleDeliver, Subj.at c.1)] else []) ++
    (if c.2.reading && c.2.ended then [(Instr.tileReaderDone, Subj.at c.1)] else []) ++
    (if m.completable c.1 c.2 && !m.frozenB c.2.bundle then [(Instr.copyComplete, Subj.at c.1)] else []))

def dueMacros (m : Mach) : Due :=
  m.macros.flatMap (fun x =>
    (if m.macroGoes x.1 x.2 then [(Instr.macroStep, Subj.at x.1)] else []) ++ (if m.macroDone x.2 then [(Instr.macroRelease, Subj.at x.1)] else []))

/-- Admissions: of each shard those of the lowest core (12 R323). -/
def dueAdmissions (e : Fw) (m : Mach) : Due :=
  let xs := (m.mmas.filter (fun x => m.mmaAdmissible e x.1 x.2)).map (fun x => (Instr.mmaAdmission, { Subj.onCore x.2.core with id := x.1 })) ++
    ((m.tasks.map (fun t => t.2.core)).eraseDups.filter (fun c => (m.schedAct c).isSome)).map (fun c => (Instr.tileTaskDispatch, Subj.onCore c))
  xs.filter (fun x => xs.all (fun y => y.2.shard ≠ x.2.shard || x.2.core ≤ y.2.core))

def dueMatrix (e : Fw) (m : Mach) : Due :=
  dueAdmissions e m ++
  (m.mmas.flatMap (fun x => if x.2.admitted || m.mmaHalts x.2 then [(Instr.engineStep, Subj.at x.1)] else [])) ++
  (m.tasks.flatMap (fun t => (if m.taskEnded t.2 then [(Instr.tileTaskRetire, Subj.at t.1)] else if t.2.st = .running then [(Instr.engineStep, Subj.at t.1)] else []))) ++
  (m.cores.flatMap (fun c => ((List.range 4).filter (m.testDue c.1)).map (fun k => (Instr.engineSelfTest (Config.subArrayFails m.fresh), { Subj.onCore c.1 with unit := k }))))

/-- The queues of a launch that hold spilled records. -/
def dueRefills (m : Mach) : Due :=
  ((m.copies.filter (fun c => c.2.spill.isSome && !c.2.started && m.copyUsed c.2.core < copyStore.cap)).map
    (fun c => (Instr.queueRefill (.copyReq c.2.core), { Subj.zero with bundle := c.2.bundle, launch := c.2.launch }))) ++
  ((m.tasks.filter (fun t => t.2.spill.isSome && !m.away t.2.blk && m.taskUsed t.2.core < taskStore.cap)).map
    (fun t => (Instr.queueRefill (.tileTask t.2.core), { Subj.zero with bundle := t.2.bundle, launch := t.2.launch }))) ++
  (m.bundles.flatMap (fun b =>
    (b.2.launches.flatMap (fun l =>
      (if l.2.slips.any (fun s => s.spill.isSome && m.slipUsed s.core < slipStore.cap) then [(Instr.queueRefill .slip, { Subj.zero with bundle := b.1, launch := l.1 })] else []) ++
      ((l.2.wgRecs.filter (fun r => r.spill.isSome && m.wgUsed r.core < wgStore.cap)).map (fun r => (Instr.queueRefill (.workGraph r.node), { Subj.zero with bundle := b.1, launch := l.1 }))))) ++
    ((b.2.bins.filter (fun q => q.2.any (fun g => g.spill.isSome && m.geoUsed g.shard < geoStore.cap))).map (fun q => (Instr.queueRefill (.geometry q.1), { Subj.zero with bundle := b.1 })))))

def dueBlocks (m : Mach) : Due :=
  m.blocks.flatMap (fun b =>
    (if b.2.st = .saving && m.drained b.1 then [(Instr.cooperativeSave, Subj.onBlock b.1)] else []) ++
    (if b.2.st = .resident && !b.2.reissue.isEmpty then [(Instr.restore, Subj.onBlock b.1)] else []))

/-- The dispatcher of a partition. -/
def duePlaces (e : Fw) (m : Mach) : Due :=
  e.parts.flatMap (fun p => match m.dispatch e p.1 with
    | some (.restore id) => [(.restore, Subj.onBlock id)]
    | some (.hold id) => [(.restore, Subj.onBlock id)]
    | some _ => [(.dispatcherStep, Subj.onPart p.1)]
    | none => [])

def dueBundles (e : Fw) (m : Mach) : Due :=
  (m.bundles.flatMap (fun b =>
    (if m.startDue e b.2 then [(Instr.bundleStartEvaluation, { Subj.zero with bundle := b.1 })] else []) ++
    (if m.persistRefused e b.1 b.2 || m.deferDue e b.2 then [(Instr.bundleAdmit, { Subj.zero with bundle := b.1 })] else []) ++
    (if m.retireDue b.1 b.2 then [(Instr.bundleRetire, { Subj.zero with bundle := b.1 })] else []) ++
    ((b.2.launches.filter (fun l => m.requestDue b.1 b.2 l.2)).map (fun l =>
      (Instr.copyRequestEnter, { Subj.onCore ((coresOf (e.part b.2.part).cores).headD 0) with bundle := b.1, launch := l.1 }))))) ++
  (e.parts.flatMap (fun p => match m.admitNext e p.1 with
    | some b => [(Instr.bundleAdmit, { Subj.zero with bundle := b.1 })]
    | none => []))

def dueFaults (e : Fw) (m : Mach) : Due :=
  (e.parts.flatMap (fun p =>
    (if (m.waitingDraft p.1).isSome && (m.part p.1).faultQ.length < faultQueueSize then [(Instr.faultRecordAppend, Subj.onPart p.1)] else []) ++
    (((e.tagsOf p.1).filter (fun g => (m.uncopied e p.1 g).isSome)).map (fun g => (Instr.faultRecordCopy, { Subj.onPart p.1 with tag := g }))) ++
    (((m.part p.1).faultQ.filter (fun r => !r.host e && (recordTranslates e m p.1 r.draft || (p.2.pool ≠ [] && mappable e m.mem p.1 (r.draft.page * 4096 % 2 ^ 57) [4, 3, 2, 1, 0] p.2.xlat)))).map
      (fun r => (Instr.faultResolve, { Subj.onPart p.1 with id := r.seq }))))) ++
  ((m.warps.filter (fun w => w.2.replayDue.isSome)).map (fun w => (Instr.faultReplay, { Subj.onCore (w.1 / 128) with unit := w.1 % 128 })))

def dueCores (e : Fw) (m : Mach) : Due :=
  e.coresInUse.flatMap (fun c =>
    (if m.serviceDue e c || m.dumpWaits e c then [(Instr.handlerServiceStart, Subj.onCore c)] else []) ++
    (if (m.stalledShare c).isSome then [(Instr.accDeadlockBreak, Subj.onCore c)] else []))

/-- The ring's times of a shard: a boundary, which with no reading proposed keeps the last temperatures; the start of a revolution; a pass (07 R190, R191). -/
def dueRing (m : Mach) : Due :=
  (List.range 16).flatMap (fun s =>
    let h := m.shard s
    if h.boundaryDue then [(Instr.controlIntervalBoundary [] [], Subj.onShard s)] else if h.revDue then [(Instr.revolutionStart, Subj.onShard s)] else if h.passDue then [(Instr.ringPass, Subj.onShard s)] else [])

def dueShards (m : Mach) : Due :=
  (List.range 16).flatMap (fun s =>
    let h := m.shard s
    (if m.tripped s then [(Instr.thermalTrip, Subj.onShard s)] else []) ++ (if h.fallDue then [(Instr.frequencyFall, Subj.onShard s)] else []) ++
    (if h.rising && !h.settled then [(Instr.regulatorSettled, Subj.onShard s)] else []))

def dueFirmware (s : State) : Due :=
  (s.fw.wipes.map (fun r => (Instr.wipeComplete r.1, Subj.zero))) ++
  (s.fw.parts.flatMap (fun p => match p.2.resize with
    | some r =>
      if r.paused then []
      else ((coresOf r.departing).filter s.m.coreQuiet).map (fun c => (Instr.resizeCoreDepart, Subj.onCore c)) ++
        ((s.nextMove p.1).toList.map (fun x => (Instr.pageMove x.1.va x.2, { Subj.onPart p.1 with unit := x.1.unit })))
    | none => [])) ++
  (s.m.tenants.flatMap (fun t => (t.2.seen.filter (fun d => s.m.deferredIn t.1 d.1 && decide (s.m.slotsInUse t.1 < ((s.fw.binds.get? t.1).map (·.vqslots)).getD 0))).map
    (fun d => (Instr.deferredEntryMove, { Subj.zero with tag := t.1, unit := d.1 })))) ++
  (s.fw.parts.flatMap (fun p => ((s.m.part p.1).heads.filter (fun h => match h.2.encoding with
    | some x => !x.read && !s.m.frameWaits p.1 x
    | none => false)).map (fun h => (Instr.headRefresh, { Subj.onPart p.1 with unit := h.1 })))) ++
  (s.fw.parts.flatMap (fun p => if s.fw.shared p.1 && s.m.bundles.all (fun b => b.2.tag ≠ (s.m.part p.1).turn) && s.m.bundles.any (fun b => b.2.part = p.1) then [(Instr.timeSliceEnd, Subj.onPart p.1)] else [])) ++
  (match s.fw.imageNext with
   | some i => if i.statever = s.fw.image.statever then ((List.range 256).filter (fun c => !(s.m.core c).swapped)).map (fun c => (Instr.microcodeApplyLive, Subj.onCore c)) else []
   | none => [])

/-- The enabled events. -/
def dueEvents (s : State) : Due :=
  dueAccess s.m ++ dueCopies s.m ++ dueMacros s.m ++ dueMatrix s.fw s.m ++ dueRefills s.m ++ dueBlocks s.m ++ duePlaces s.fw s.m ++ dueBundles s.fw s.m ++
  (s.m.darns.filter (fun d => s.m.darnDue d.2)).map (fun d => (.darningPass, Subj.at d.1)) ++ dueFaults s.fw s.m ++ dueCores s.fw s.m ++ dueShards s.m ++ dueFirmware s

/-- Events that have a place in a shard's cycle ahead of its slices, and those that a rule ties to the cycle they fall due in: they come before anything else (07 R190, R191; 11 R299; log 86). -/
def urgent (s : State) : Option (Instr × Subj) := (dueRing s.m ++ dueFills s.m ++ dueReceipts s.m ++ dueTimed s.fw s.m).head?

/-- An enabled internal event, with the unit it concerns: each has its turn. -/
def nextInternal (s : State) : Option (Instr × Subj) :=
  let es := dueEvents s
  es[s.cursor / 2 % max es.length 1]?

/-- The device's own next event: an urgent one, or between two slices' cycles another. -/
def nextOwn (s : State) : Option (Instr × Subj) := match urgent s with
  | some x => some x
  | none => if s.cursor % 2 = 0 then nextInternal s else none

/-- The slice whose cycle comes next: shards in turn; on each the slice whose turn it is, or one that lets the next cycle begin. -/
def nextSlice (s : State) : Nat × Nat :=
  let sh := s.cursor / 2 % 16
  (s.m.turnOf s.fw sh).getD (16 * sh, 0)

/-- The instruction a move names is an event of the table, not an instruction word. -/
def isEvent (i : Instr) : Bool := i.mnOp?.isNone && (match i with
  | .extensibleOpcode _ _ => false
  | _ => true)

end Sys2Proof.Machine
end

