-- ==== Sys2Proof/Machine/Step.lean ====
section
/-! DEFINITION. One step of the device (log 2): the next proposed move, or its own next event, or a cycle of a slice. A slice's cycle executes the instruction its group has fetched and decoded. -/

namespace Sys2Proof.Machine

/-- An event takes place for a unit; the USAGE words stand as the step before it left the resources (01 R24). -/
def runEvent (i : Instr) (x : Subj) (s : State) : Host.Outcome State Fault Refusal := if isEvent i then exec i { s with m := s.m.syncUsage s.fw, subj := x } else .next s

/-- A slice's turn. -/
def runSlice (core slice : Nat) (s : State) : Host.Outcome State Fault Refusal :=
  match sliceTurn s core slice with
  | (s1, none) => .next s1
  | (s1, some i) => exec i s1

/-- One step. -/
def step (s : State) : Host.Outcome State Fault Refusal :=
  match s.agenda with
  | .event i x :: r => runEvent i x { s with agenda := r }
  | .slice c k :: r => runSlice c k { s with agenda := r }
  | [] =>
    match nextOwn s with
    | some (i, x) => runEvent i x { s with cursor := s.cursor + 1 }
    | none => runSlice (nextSlice s).1 (nextSlice s).2 { s with cursor := s.cursor + 1 }

/-- The host's probe: the word stands where the next step fetches (log 3). -/
def State.withFetchWord (s : State) (nbits w : Nat) : State := s.withWord (w % 2 ^ nbits)

end Sys2Proof.Machine
end

