-- ==== Sys2Proof/Safety.lean ====
section
/-! DEFINITION. What counts as a safe state and a safe run, and the terms in which claims speak of an issue: the group that issues, what every issue does, and what it leaves unchanged. -/

namespace Sys2Proof.Machine

/-! ### Safe states and runs -/

/-- Keys rise and no zero byte is listed: equal memories are equal data (03 R66). -/
abbrev Memory.wf (t : Tab Byte) : Prop := Tab.sorted t = true ∧ t.all (fun c => c.2 ≠ 0#8) = true

/-- No core belongs to two partitions in use (03 R70). -/
def Fw.coresDisjoint (e : Fw) : Prop :=
  ∀ p q, p ≠ q → (e.part p).inUse = true → (e.part q).inUse = true → (e.part p).cores &&& (e.part q).cores = 0

/-- A run of `n` steps that meets neither a fault nor a refusal. -/
def runs : Nat → State → State → Prop
  | 0, s, t => s = t
  | n + 1, s, t => ∃ u, step s = .next u ∧ runs n u t

/-! ### The group that issues -/

/-- Every member is a thread that a warp of a machine holds on the group's core (07 R173), and the warps that replay are warps of members (10 R272). -/
def Grp.placedIn (g : Grp) (m : Mach) : Prop :=
  (∀ x ∈ g.members, x.slot ≤ handlerSlot ∧ (m.warp g.core x.slot).threads.has x.lane = true) ∧ ∀ s ∈ g.replays, ∃ x ∈ g.members, x.slot = s

/-- On the machine it issues from. -/
def Grp.placed (g : Grp) : Prop := g.placedIn g.m

/-- The group of the state's selection with its uniform constants, and the machine its effects start from; none where a constant does not translate or meets an uncorrectable error (10 R467). -/
def operandsOf (s : State) (k : Mn) (o : Op) : Option (Grp × Mach) :=
  match (groupOf s k o).fetchConsts (groupOf s k o).m with
  | (m, .ok t) => some ({ groupOf s k o with consts := t }, m)
  | _ => none

/-- THE INSTRUCTION ISSUES: its constants are read, its members are placed, and it meets no cause (00 R17; 16 R405). -/
structure Issues (s : State) (k : Mn) (o : Op) (own : Grp → List Nat) (g : Grp) (m : Mach) : Prop where
  operands : operandsOf s k o = some (g, m)
  placed : g.placed
  noCause : g.cause own = 0

/-- THE INSTRUCTION IS TRAPPED: it meets a cause. -/
structure Traps (s : State) (k : Mn) (o : Op) (own : Grp → List Nat) (g : Grp) (m : Mach) : Prop where
  operands : operandsOf s k o = some (g, m)
  placed : g.placed
  cause : g.cause own ≠ 0

/-! ### What every issue does, and what it leaves unchanged -/

/-- A member's thread after its instruction (07 R176; 08 R209). -/
def Grp.advance (g : Grp) (t : Thread) : Thread :=
  { t with pc := g.pc + 16, st := .atPc, lastIssue := g.cyc, stamp := g.cyc + 1, yieldDue := g.o.ctl.yield }

/-- Last reads that take effect with this issue: those held back by the chain it ends, and its own (07 R178, R183). -/
def Grp.dueClears (g : Grp) : List (Nat × Nat × Word) :=
  (match g.chain? with
   | some c => c.clears
   | none => []) ++ g.lastReads g.execLanes

/-- The issue clears the live bit of Vn in a lane of a warp. -/
def Grp.freed (g : Grp) (core slot n lane : Nat) : Bool :=
  !g.o.ctl.chain && g.dueClears.any (fun c => wk g.core c.1 == wk core slot && c.2.1 == n && laneBit c.2.2 lane)

/-- Nothing but warps, slices, token banks and token accounts differs between two machines. -/
structure SameOutside (m t : Mach) : Prop where
  rest : t = { m with warps := t.warps, slices := t.slices, cores := t.cores, shards := t.shards }
  cores : ∀ c, t.core c = { m.core c with bank := (t.core c).bank }
  shards : ∀ k, t.shard k = { m.shard k with nodes := (t.shard k).nodes }

/-- Only the group's own slice differs, in its write-backs, its chain and latches, and its mark. -/
structure SliceKept (g : Grp) (m t : Mach) : Prop where
  others : ∀ c k, sk c k ≠ sk g.core g.slice → t.slc c k = m.slc c k
  own : t.slc g.core g.slice =
    { m.slc g.core g.slice with
      wbs := (t.slc g.core g.slice).wbs, latches := (t.slc g.core g.slice).latches, chain := (t.slc g.core g.slice).chain, mark := (t.slc g.core g.slice).mark }

/-- The members' threads become `next` of what they were; other threads, and of every warp its scalar registers, segments, masks, exception bits, reservations and state, are unchanged; vector registers change only by last reads, flags only by SETF, and a warp that replays has taken up what it waited with, for the lanes that issue: their bits join $FAULTMASK (10 R273). -/
structure WarpsKept (g : Grp) (m t : Mach) (next : Member → Thread → Thread) : Prop where
  frame : ∀ c l, l < 128 → t.warp c l = { m.warp c l with v := (t.warp c l).v, flags := (t.warp c l).flags, threads := (t.warp c l).threads, fault := (t.warp c l).fault, faultmask := (t.warp c l).faultmask }
  faults : ∀ c l, l < 128 → (t.warp c l).fault = if c = g.core ∧ l ∈ g.replays then g.leftRec l else (m.warp c l).fault
  masks : ∀ c l, l < 128 → (t.warp c l).faultmask = if c = g.core ∧ l ∈ g.replays then (m.warp c l).faultmask ||| maskOf (lanesIn g.execs l) else (m.warp c l).faultmask
  members : ∀ x ∈ g.members, (t.warp g.core x.slot).thread x.lane = next x ((m.warp g.core x.slot).thread x.lane)
  threads : ∀ c l lane, l < 128 → (c ≠ g.core ∨ (⟨l, lane⟩ : Member) ∉ g.members) → (t.warp c l).thread lane = (m.warp c l).thread lane
  flags : ∀ c l k, l < 128 →
    (t.warp c l).flagCount k = (m.warp c l).flagCount k + if c = g.core ∧ (∃ x ∈ g.members, x.slot = l) ∧ k = g.o.ctl.setf.toNat ∧ k < 12 ∧ g.arms l = true then 1 else 0
  vregs : ∀ c l n lane, l < 128 → lane < 32 → (t.warp c l).vreg n lane = if g.freed c l n lane then 0 else (m.warp c l).vreg n lane

/-- WHAT AN ISSUE LEAVES, for an instruction that changes nothing beyond its members' threads and its write-backs. -/
structure Advances (g : Grp) (m t : Mach) (next : Member → Thread → Thread) : Prop where
  outside : SameOutside m t
  slice : SliceKept g m t
  warps : WarpsKept g m t next

/-! ### Results of fixed latency -/

/-- Some write-back carries a value to the destination, for one member (06 R146; 07 R170, R180). -/
def Grp.delivers (g : Grp) (wbs : List Wb) (wide : Bool) (x : Member) (v : DWord) : Prop :=
  match g.o.dst with
  | .v n => ∃ cells, { due := g.cyc + g.latency, slot := x.slot, what := .v cells } ∈ wbs ∧ ∀ c ∈ cellsOf n.toNat x.lane wide v, c ∈ cells
  | .p n => ∃ cells, { due := g.cyc + g.latency, slot := x.slot, what := .p n.toNat cells } ∈ wbs ∧ (x.lane, v != 0) ∈ cells
  | .latch n => ∃ cells slot, { due := g.cyc + g.resultLatency, slot, what := .latch n.toNat cells } ∈ wbs ∧ (x.lane, if wide then v else (v.setWidth 32).setWidth 64) ∈ cells
  | _ => True

/-- A write-back that only brings results of the group's executing members, their exception bits, or the instruction's flag. -/
def Grp.brings (g : Grp) (wide : Bool) (f : Member → DWord × BitVec 7) (w : Wb) : Prop :=
  match w.what, g.o.dst with
  | .flag k, _ => k = g.o.ctl.setf.toNat
  | .exc b, _ => b = orExc ((g.execs.filter (fun x => x.slot = w.slot)).map (fun x => (f x).2))
  | .v cells, .v n => g.o.ctl.wbs = false ∧ ∀ c ∈ cells, ∃ x ∈ g.execs, x.slot = w.slot ∧ c ∈ cellsOf n.toNat x.lane wide (f x).1
  | .p k cells, .p n => g.o.ctl.wbs = false ∧ k = n.toNat ∧ ∀ c ∈ cells, ∃ x ∈ g.execs, x.slot = w.slot ∧ c = (x.lane, (f x).1 != 0)
  | .latch k cells, .latch n => g.o.ctl.wbs = false ∧ k = n.toNat ∧ ∀ c ∈ cells, ∃ x ∈ g.execs, c = (x.lane, if wide then (f x).1 else ((f x).1.setWidth 32).setWidth 64)
  | _, _ => False

/-- THE RESULTS OF A GROUP: a value and exception bits for each executing member, due at the latency of the opcode's class, or two cycles before it for a latch; with WBS the value goes nowhere (06 R141). `m` is the machine before, `t` after. -/
structure Results (g : Grp) (m t : Mach) (wide : Bool) (f : Member → DWord × BitVec 7) : Prop where
  value : g.o.ctl.wbs = false → ∀ x ∈ g.execs, g.delivers (t.slc g.core g.slice).wbs wide x (f x).1
  exc : ∀ x ∈ g.execs, (f x).2 ≠ 0 → ∃ b, { due := g.cyc + g.resultLatency, slot := x.slot, what := .exc b } ∈ (t.slc g.core g.slice).wbs ∧ b &&& (f x).2 = (f x).2
  flag : g.spec.cls ≠ .V → g.o.ctl.setf.toNat < 12 → ∀ x ∈ g.members, { due := g.cyc + g.latency, slot := x.slot, what := .flag g.o.ctl.setf.toNat } ∈ (t.slc g.core g.slice).wbs
  kept : ∀ w ∈ (m.slc g.core g.slice).wbs, w ∈ (t.slc g.core g.slice).wbs
  only : ∀ w ∈ (t.slc g.core g.slice).wbs, w ∈ (m.slc g.core g.slice).wbs ∨ g.brings wide f w

/-- An instruction with results of fixed latency, as a claim describes it: the causes of its entry, whether the result is a pair, and each executing lane's value and exception bits. -/
structure LaneForm where
  own : Grp → List Nat
  wide : Bool
  res : Grp → Member → DWord × BitVec 7

/-- Every instruction of a table of lane forms issues and does what its form says, and nothing else. -/
def LaneStatement (form : Instr → Option LaneForm) : Prop :=
  ∀ i k o F s g m, i.mnOp? = some (k, o) → form i = some F → Issues s k o F.own g m →
    ∃ t, exec i s = .next { s with m := t } ∧ Advances g m t (fun _ => g.advance) ∧ Results g m t F.wide (F.res g)

/-- A 32-bit value without flags. -/
def low (w : Word) : DWord × BitVec 7 := (w.setWidth 64, 0)

/-- A form that meets no cause of its own. -/
def LaneForm.of (wide : Bool) (res : Grp → Member → DWord × BitVec 7) : LaneForm := { own := noCauses, wide, res }

/-! ### The common issue, and an effect of the instruction's own after it -/

/-- Members' threads have become `next` of what they were and SETF is armed; a warp that replays has taken up what it waited with, for the lanes that issue; nothing else of a warp has changed. -/
structure WarpsMoved (g : Grp) (m t : Mach) (next : Member → Thread → Thread) : Prop where
  frame : ∀ c l, l < 128 → t.warp c l = { m.warp c l with flags := (t.warp c l).flags, threads := (t.warp c l).threads, fault := (t.warp c l).fault, faultmask := (t.warp c l).faultmask }
  faults : ∀ c l, l < 128 → (t.warp c l).fault = if c = g.core ∧ l ∈ g.replays then g.leftRec l else (m.warp c l).fault
  masks : ∀ c l, l < 128 → (t.warp c l).faultmask = if c = g.core ∧ l ∈ g.replays then (m.warp c l).faultmask ||| maskOf (lanesIn g.execs l) else (m.warp c l).faultmask
  members : ∀ x ∈ g.members, (t.warp g.core x.slot).thread x.lane = next x ((m.warp g.core x.slot).thread x.lane)
  threads : ∀ c l lane, l < 128 → (c ≠ g.core ∨ (⟨l, lane⟩ : Member) ∉ g.members) → (t.warp c l).thread lane = (m.warp c l).thread lane
  has : ∀ x ∈ g.members, (t.warp g.core x.slot).threads.has x.lane = true
  flags : ∀ c l k, l < 128 →
    (t.warp c l).flagCount k = (m.warp c l).flagCount k + if c = g.core ∧ (∃ x ∈ g.members, x.slot = l) ∧ k = g.o.ctl.setf.toNat ∧ k < 12 ∧ g.arms l = true then 1 else 0

/-- THE COMMON ISSUE: the members' threads become `next` of what they were, SETF is armed, the price is drawn, the chain goes on or ends, and the only new write-back is the instruction's own flag (07 R176, R180, R181, R193). -/
structure IssuedTo (g : Grp) (m u : Mach) (next : Member → Thread → Thread) : Prop where
  outside : SameOutside m u
  slice : SliceKept g m u
  warps : WarpsMoved g m u next
  only : ∀ w ∈ (u.slc g.core g.slice).wbs, w ∈ (m.slc g.core g.slice).wbs ∨ ∃ s ∈ g.slots, w = { due := g.cyc + g.latency, slot := s, what := .flag g.o.ctl.setf.toNat }

/-- The common issue itself. -/
def Issued (g : Grp) (m u : Mach) : Prop := IssuedTo g m u (fun _ => g.advance)

/-- An instruction with an effect of its own: the causes of its entry, and what holds between the machine after the common issue and the machine it leaves. -/
structure EffectForm where
  own : Grp → List Nat
  post : Grp → Mach → Mach → Prop

/-- The effect is an operation. -/
def EffectForm.of (own : Grp → List Nat) (f : Grp → Mach → Mach) : EffectForm := { own, post := fun g u t => t = f g u }

/-- Every instruction of a table of effect forms issues, and then its own effect takes place, and nothing else. -/
def EffectStatement (form : Instr → Option EffectForm) : Prop :=
  ∀ i k o F s g m, i.mnOp? = some (k, o) → form i = some F → Issues s k o F.own g m →
    ∃ u t, exec i s = .next { s with m := t } ∧ Issued g m u ∧ F.post g u t

/-- THE INSTRUCTION ISSUES AFTER READING ITS RECORDS: with an executing member the records are read, and no cause holds (10 R270; 16 R405). `m` is the machine after the reading. -/
structure IssuesReading (s : State) (k : Mn) (o : Op) (pre : Grp → List Nat) (read : Grp → Mach → Mach × RecRes) (own : Grp → List (List Nat) → List Nat) (g : Grp) (m : Mach)
    (rs : List (List Nat)) : Prop where
  operands : ∃ m0, operandsOf s k o = some (g, m0) ∧ (if g.execs.isEmpty then m = m0 ∧ rs = [] else read g m0 = (m, .ok rs))
  placed : g.placed
  noCause : minCause (g.commonCauses ++ pre g ++ if g.execs.isEmpty then [] else own g rs) = 0

/-- An instruction that reads records at its issue. -/
structure ReadForm where
  pre : Grp → List Nat
  read : Grp → Mach → Mach × RecRes
  own : Grp → List (List Nat) → List Nat
  post : Grp → List (List Nat) → Mach → Mach → Prop

/-- Every instruction of a table of reading forms reads its records, issues, and then its own effect takes place. -/
def ReadStatement (form : Instr → Option ReadForm) : Prop :=
  ∀ i k o F s g m rs, i.mnOp? = some (k, o) → form i = some F → IssuesReading s k o F.pre F.read F.own g m rs →
    ∃ u t, exec i s = .next { s with m := t } ∧ Issued g m u ∧ F.post g rs u t

end Sys2Proof.Machine
end

