-- ==== Sys2Proof/Certificates/Slice0/Obligations.lean ====
section
/-! DEFINITION. The statements for the provers, with the tables they speak of. -/

namespace Sys2Proof.Machine

/-! ### Integer results (08 R214 to R221) -/

/-- The integer forms: every value by the formula of R214, R215, R216. -/
def integerForm : Instr → Option LaneForm
  | .iadd o => some (.of false (fun g x => if o.mdBit 1 then narrow 32 true (o.mdBit 0) (extW (o.mdBit 0) (g.a32 x) + extW (o.mdBit 0) (g.b32 x)) else low (g.a32 x + g.b32 x)))
  | .isub o => some (.of false (fun g x => if o.mdBit 1 then narrow 32 true (o.mdBit 0) (extW (o.mdBit 0) (g.a32 x) - extW (o.mdBit 0) (g.b32 x)) else low (g.a32 x - g.b32 x)))
  | .imul _ => some (.of false (fun g x => low (BitVec.ofInt 32 ((g.a32 x).toInt * (g.b32 x).toInt))))
  | .imulh o => some (.of false (fun g x => low (BitVec.ofInt 32 ((extW (o.mdBit 0) (g.a32 x) * extW (o.mdBit 0) (g.b32 x)) >>> 32))))
  | .imac o => some (.of false (fun g x =>
      if o.mdBit 1 then narrow 32 true (o.mdBit 0) (extW (o.mdBit 0) (g.a32 x) * extW (o.mdBit 0) (g.b32 x) + extW (o.mdBit 0) (g.c32 x)) else low (g.a32 x * g.b32 x + g.c32 x)))
  | .imacw o => some (.of true (fun g x => (BitVec.ofInt 64 (extW (o.mdBit 0) (g.a32 x) * extW (o.mdBit 0) (g.b32 x) + extW (o.mdBit 0) (g.c64 x)), 0)))
  | .idiv o => some (.of false (fun g x =>
      if g.b32 x = 0 then (0xFFFFFFFF, excDivzero)
      else if o.mdBit 0 then low (BitVec.ofNat 32 ((g.a32 x).toNat / (g.b32 x).toNat))
      else if (g.a32 x).toInt = -2 ^ 31 ∧ (g.b32 x).toInt = -1 then (0x80000000, excOverflow)
      else low (BitVec.ofInt 32 ((g.a32 x).toInt.tdiv (g.b32 x).toInt))))
  | .irem o => some (.of false (fun g x =>
      if g.b32 x = 0 then ((g.a32 x).setWidth 64, excDivzero)
      else if o.mdBit 0 then low (BitVec.ofNat 32 ((g.a32 x).toNat % (g.b32 x).toNat))
      else if (g.a32 x).toInt = -2 ^ 31 ∧ (g.b32 x).toInt = -1 then low 0
      else low (BitVec.ofInt 32 ((g.a32 x).toInt.tmod (g.b32 x).toInt))))
  | .imin o => some (.of false (fun g x => low (if extW (o.mdBit 0) (g.a32 x) ≤ extW (o.mdBit 0) (g.b32 x) then g.a32 x else g.b32 x)))
  | .imax o => some (.of false (fun g x => low (if extW (o.mdBit 0) (g.a32 x) ≤ extW (o.mdBit 0) (g.b32 x) then g.b32 x else g.a32 x)))
  | .iabs o => some (.of false (fun g x =>
      if (g.a32 x).toInt = -2 ^ 31 then (if o.mdBit 1 then (0x7FFFFFFF, excSaturation) else low 0x80000000) else low (if (g.a32 x).toInt < 0 then -g.a32 x else g.a32 x)))
  | .ineg o => some (.of false (fun g x => if (g.a32 x).toInt = -2 ^ 31 then (if o.mdBit 1 then (0x7FFFFFFF, excSaturation) else low 0x80000000) else low (-g.a32 x)))
  | .iadd64 o => some (.of true (fun g x => if o.mdBit 1 then narrow 64 true (o.mdBit 0) (extW (o.mdBit 0) (g.a64 x) + extW (o.mdBit 0) (g.b64 x)) else (g.a64 x + g.b64 x, 0)))
  | .isub64 o => some (.of true (fun g x => if o.mdBit 1 then narrow 64 true (o.mdBit 0) (extW (o.mdBit 0) (g.a64 x) - extW (o.mdBit 0) (g.b64 x)) else (g.a64 x - g.b64 x, 0)))
  | .imul64 _ => some (.of true (fun g x => (g.a64 x * g.b64 x, 0)))
  | .imac64 _ => some (.of true (fun g x => (g.a64 x * g.b64 x + g.c64 x, 0)))
  | .idot4 o => some (.of false (fun g x =>
      let both := o.mdBit 0 && o.mdBit 5
      let byte (u : Bool) (w : Word) (i : Nat) : Int := if u then ((w.extractLsb' (8 * i) 8).toNat : Int) else (w.extractLsb' (8 * i) 8).toInt
      let sum := extW both (g.c32 x) + byte (o.mdBit 0) (g.a32 x) 0 * byte (o.mdBit 5) (g.b32 x) 0 + byte (o.mdBit 0) (g.a32 x) 1 * byte (o.mdBit 5) (g.b32 x) 1 +
        byte (o.mdBit 0) (g.a32 x) 2 * byte (o.mdBit 5) (g.b32 x) 2 + byte (o.mdBit 0) (g.a32 x) 3 * byte (o.mdBit 5) (g.b32 x) 3
      if o.mdBit 1 then narrow 32 true both sum else low (BitVec.ofInt 32 sum)))
  | _ => none

/-- A truth as a destination takes it: a predicate's bit, or a mask of one or two words (08 R217). -/
def truthFor (o : Op) (wide t : Bool) : DWord × BitVec 7 :=
  match o.dst, t, wide with
  | _, false, _ => (0, 0)
  | .p _, true, _ => (1, 0)
  | _, true, false => (0xFFFFFFFF, 0)
  | _, true, true => (-1, 0)

/-- A condition code on integers (08 R217). -/
def holdsCc (cc : Nat) (a b : Int) : Bool :=
  decide ((cc = 0 ∧ a = b) ∨ (cc = 1 ∧ a ≠ b) ∨ (cc = 2 ∧ a < b) ∨ (cc = 3 ∧ a ≤ b) ∨ (cc = 4 ∧ a > b) ∨ (5 ≤ cc ∧ a ≥ b))

/-- Compares, selection, addresses (08 R217), the predicate forms (R221) and TILEST (11 R301). -/
def selectForm : Instr → Option LaneForm
  | .icmp o => some (.of false (fun g x => truthFor o false (holdsCc (o.mdBits 4 2) (extW (o.mdBit 0) (g.a32 x)) (extW (o.mdBit 0) (g.b32 x)))))
  | .icmp64 o => some (.of (o.mdBit 5) (fun g x => truthFor o (o.mdBit 5) (holdsCc (o.mdBits 4 2) (extW (o.mdBit 0) (g.a64 x)) (extW (o.mdBit 0) (g.b64 x)))))
  | .sel o => some (.of (o.mdBit 4) (fun g x =>
      let q := (g.warp x).preg (o.mdBits 2 0) x.lane != o.mdBit 3
      if o.mdBit 4 then (if q then g.a64 x else g.b64 x, 0) else low (if q then g.a32 x else g.b32 x)))
  | .lea o => some (.of true (fun g x => (g.a64 x + BitVec.ofInt 64 ((if o.mdBit 3 then (g.b32 x).toInt else ((g.b32 x).toNat : Int)) * 2 ^ o.mdBits 2 0 + o.imm.toInt), 0)))
  | .plop o => some (.of false (fun g x =>
      let p (lo : Nat) : Nat := ((g.warp x).preg (bits o.imm.toNat (lo + 2) lo) x.lane).toNat
      (if (bits o.imm.toNat 23 16).testBit (p 0 + 2 * p 4 + 4 * p 8) then 1 else 0, 0)))
  | .pmov o => some (.of false (fun g x => (if (g.warp x).preg (bits o.imm.toNat 2 0) x.lane != o.imm.toNat.testBit 3 then 1 else 0, 0)))
  | .p2v _ => some (.of false (fun g x => (BitVec.ofNat 64 (((List.range 8).map (fun k => ((g.warp x).preg k x.lane).toNat * 2 ^ k)).sum), 0)))
  | .tilest o => some (.of false (fun g x =>
      let t := g.m.tile (g.blkId x) (o.mdBits 3 0)
      (BitVec.ofNat 64 (t.st.toNat + t.pend.toNat * 4 + t.recv.toNat * 8 + t.sd.toNat * 16 + t.fmt.toNat * 256), 0)))
  | _ => none

/-! ### Logic, shifts, bit fields (08 R219, R220) -/

/-- The word whose bit `j` is a function of `j`. -/
def wordOf (f : Nat → Bool) : Word := BitVec.ofBoolListLE ((List.range 32).map f)

/-- Bits `[p + n - 1 : p]` as a mask, by the field control word of R220. -/
def maskField (ctl : Word) : Word :=
  let p := min (ctl.toNat % 256) 32
  let n := min (ctl.toNat / 256 % 256) (32 - p)
  BitVec.ofNat 32 ((2 ^ n - 1) * 2 ^ p)

/-- The logic forms, bit by bit (R219). -/
def logicForm : Instr → Option LaneForm
  | .and _ => some (.of false (fun g x => low (wordOf (fun j => (g.a32 x).getLsbD j && (g.b32 x).getLsbD j))))
  | .or _ => some (.of false (fun g x => low (wordOf (fun j => (g.a32 x).getLsbD j || (g.b32 x).getLsbD j))))
  | .xor _ => some (.of false (fun g x => low (wordOf (fun j => (g.a32 x).getLsbD j != (g.b32 x).getLsbD j))))
  | .not _ => some (.of false (fun g x => low (wordOf (fun j => !(g.a32 x).getLsbD j))))
  | .logic3 o => some (.of false (fun g x =>
      low (wordOf (fun j => (o.mdBits 7 0).testBit (((g.a32 x).getLsbD j).toNat + 2 * ((g.b32 x).getLsbD j).toNat + 4 * ((g.c32 x).getLsbD j).toNat)))))
  | .shl _ => some (.of false (fun g x => let n := (g.b32 x).toNat % 256; low (if 32 ≤ n then 0 else BitVec.ofNat 32 ((g.a32 x).toNat * 2 ^ n))))
  | .shr _ => some (.of false (fun g x => let n := (g.b32 x).toNat % 256; low (if 32 ≤ n then 0 else BitVec.ofNat 32 ((g.a32 x).toNat / 2 ^ n))))
  | .sar _ => some (.of false (fun g x =>
      let n := (g.b32 x).toNat % 256
      low (if 32 ≤ n then (if (g.a32 x).toInt < 0 then -1 else 0) else BitVec.ofInt 32 ((g.a32 x).toInt / 2 ^ n))))
  | .rot o => some (.of false (fun g x =>
      let n := (g.b32 x).toNat % 32
      low (wordOf (fun j => (g.a32 x).getLsbD (if o.mdBit 0 then (j + n) % 32 else (j + 32 - n) % 32)))))
  | .shl64 _ => some (.of true (fun g x => let n := (g.b32 x).toNat % 256; (if 64 ≤ n then 0 else BitVec.ofNat 64 ((g.a64 x).toNat * 2 ^ n), 0)))
  | .shr64 _ => some (.of true (fun g x => let n := (g.b32 x).toNat % 256; (if 64 ≤ n then 0 else BitVec.ofNat 64 ((g.a64 x).toNat / 2 ^ n), 0)))
  | .sar64 _ => some (.of true (fun g x =>
      let n := (g.b32 x).toNat % 256
      (if 64 ≤ n then (if (g.a64 x).toInt < 0 then -1 else 0) else BitVec.ofInt 64 ((g.a64 x).toInt / 2 ^ n), 0)))
  | .shfn o => some (.of false (fun g x =>
      let v := (g.b32 x).toNat * 2 ^ 32 + (g.a32 x).toNat
      let n := (g.c32 x).toNat % 64
      low (BitVec.ofNat 32 (if o.mdBit 0 then v * 2 ^ n % 2 ^ 64 / 2 ^ 32 else v / 2 ^ n))))
  | .bcnt _ => some (.of false (fun g x => (BitVec.ofNat 64 (((List.range 32).map (fun j => ((g.a32 x).getLsbD j).toNat)).sum), 0)))
  | .lzc _ => some (.of false (fun g x => (BitVec.ofNat 64 (((List.range 32).map (fun j => 31 - j)).takeWhile (fun j => !(g.a32 x).getLsbD j)).length, 0)))
  | .bitrev _ => some (.of false (fun g x => low (wordOf (fun j => (g.a32 x).getLsbD (31 - j)))))
  | _ => none

/-- The bit-field forms (R220). -/
def fieldForm : Instr → Option LaneForm
  | .bfe o => some (.of false (fun g x =>
      let p := min ((g.b32 x).toNat % 256) 32
      let n := min ((g.b32 x).toNat / 256 % 256) (32 - p)
      let f := (g.a32 x).toNat / 2 ^ p % 2 ^ n
      low (if o.mdBit 0 && decide (0 < n) && f.testBit (n - 1) then BitVec.ofInt 32 (f - 2 ^ n) else BitVec.ofNat 32 f)))
  | .bfi _ => some (.of false (fun g x =>
      let w := maskField (g.b32 x)
      low ((g.c32 x &&& ~~~w) ||| ((g.a32 x <<< min ((g.b32 x).toNat % 256) 32) &&& w))))
  | .bmsk _ => some (.of false (fun g x => low (maskField (g.a32 x))))
  | .bperm _ => some (.of false (fun g x =>
      let c := (g.c32 x).toNat
      let src (n : Nat) : Nat := ((g.b32 x).toNat * 2 ^ 32 + (g.a32 x).toNat) / 2 ^ (8 * n) % 256
      let byte (i : Nat) : Nat :=
        let s := src (bits c (3 * i + 2) (3 * i))
        if c.testBit (12 + i) then 0 else if c.testBit (16 + i) then (if s.testBit 7 then 255 else 0) else s
      low (BitVec.ofNat 32 (byte 0 + byte 1 * 2 ^ 8 + byte 2 * 2 ^ 16 + byte 3 * 2 ^ 24))))
  | _ => none

/-! ### Floating point (09 R232 to R241) -/

/-- One rounding of an exact result to a format, with the flags of the operation and of the rounding (02 R50; 09 R233). -/
def once (f : FFmt) (rm : Nat) (r : Val × BitVec 7) : Nat × BitVec 7 := ((roundF f rm false r.1).1, (roundF f rm false r.1).2 ||| r.2)

/-- A format's value with its sign reversed, zero and infinity included. -/
def minusOf (v : Val) : Val := v.flip

/-- The FP operations of two or three patterns of one format that FP32, FP64 and the packed forms share: exact, then rounded once. -/
def fpSum (f : FFmt) (rm a b : Nat) : Nat × BitVec 7 := once f rm (sumVals rm [f.widen a, f.widen b])
def fpDiff (f : FFmt) (rm a b : Nat) : Nat × BitVec 7 := once f rm (sumVals rm [f.widen a, minusOf (f.widen b)])
def fpProd (f : FFmt) (rm a b : Nat) : Nat × BitVec 7 := once f rm (prodVal (f.widen a) (f.widen b))
def fpFused (f : FFmt) (rm a b c : Nat) : Nat × BitVec 7 :=
  once f rm ((sumVals rm [(prodVal (f.widen a) (f.widen b)).1, f.widen c]).1, (prodVal (f.widen a) (f.widen b)).2 ||| (sumVals rm [(prodVal (f.widen a) (f.widen b)).1, f.widen c]).2)

/-- `a` counts as less than `b`: real order, −0 below +0 (R234). -/
def fpLess (f : FFmt) (a b : Nat) : Bool := cmpVal (f.widen a) (f.widen b) < 0 || (cmpVal (f.widen a) (f.widen b) == 0 && (f.widen a).neg? && !(f.widen b).neg?)

/-- R234: one of the operands unchanged; the other where one is a NaN; the canonical NaN for two. -/
def fpPick (f : FFmt) (max : Bool) (a b : Nat) : Nat × BitVec 7 :=
  (match (f.widen a).isNan, (f.widen b).isNan with
   | true, true => f.nanBits
   | true, false => b
   | false, true => a
   | false, false => if max then (if fpLess f a b then b else a) else (if fpLess f a b then a else b),
   if (f.widen a).sig || (f.widen b).sig then excInvalid else 0)

/-- The sign bit of a pattern of a format cleared or inverted; a NaN becomes canonical; no flag (R235). -/
def fpSign (f : FFmt) (invert : Bool) (a : Nat) : Nat × BitVec 7 :=
  (if (f.widen a).isNan then f.nanBits else if invert then a ^^^ 2 ^ (f.eb + f.mb) else a % 2 ^ (f.eb + f.mb), 0)

/-- A flagged pattern as a lane's result. -/
def asRes (r : Nat × BitVec 7) : DWord × BitVec 7 := (BitVec.ofNat 64 r.1, r.2)

/-- A form that rounds: rounding code 4 raises ILLEGAL_FORMAT (02 R50). -/
def LaneForm.rounds (wide : Bool) (res : Grp → Member → DWord × BitVec 7) : LaneForm :=
  { own := fun g => [if g.o.mdBits 10 8 = 4 then causeIllegalFormat else 0], wide, res }

/-- An FP32 form of up to three sources. -/
def form32 (f : Nat → Nat → Nat → Nat → Nat × BitVec 7) : LaneForm := .rounds false (fun g x => asRes (f (g.o.mdBits 10 8) (g.a32 x).toNat (g.b32 x).toNat (g.c32 x).toNat))

/-- An FP64 form of up to three sources; an immediate is widened (06 R145). -/
def form64 (f : Nat → Nat → Nat → Nat → Nat × BitVec 7) : LaneForm := .rounds true (fun g x => asRes (f (g.o.mdBits 10 8) (g.srcD x g.o.a) (g.srcD x g.o.b) (g.srcD x g.o.c)))

/-- An exact dot product of packed elements plus c, rounded once to FP32 (R239). -/
def dotOf (fa fb : FFmt) (k rm a b c : Nat) : Nat × BitVec 7 :=
  let part (f : FFmt) (x i : Nat) : Val := f.widen (x / 2 ^ (f.width * i) % 2 ^ f.width)
  let ps := (List.range k).map (fun i => prodVal (part fa a i) (part fb b i))
  let s := sumVals rm (ps.map Prod.fst ++ [fmtFP32.widen c])
  once fmtFP32 rm (s.1, orExc (ps.map Prod.snd) ||| s.2)

/-- FP32 (R233 to R239). -/
def float32Form : Instr → Option LaneForm
  | .fadd _ => some (form32 (fun rm a b _ => fpSum fmtFP32 rm a b))
  | .fsub _ => some (form32 (fun rm a b _ => fpDiff fmtFP32 rm a b))
  | .fmul _ => some (form32 (fun rm a b _ => fpProd fmtFP32 rm a b))
  | .fmac _ => some (form32 (fpFused fmtFP32))
  | .fmin _ => some (form32 (fun _ a b _ => fpPick fmtFP32 false a b))
  | .fmax _ => some (form32 (fun _ a b _ => fpPick fmtFP32 true a b))
  | .fabs _ => some (form32 (fun _ a _ _ => fpSign fmtFP32 false a))
  | .fneg _ => some (form32 (fun _ a _ _ => fpSign fmtFP32 true a))
  | .fcmp o => some (.of false (fun g x => let r := fCmp fmtFP32 (o.mdBits 3 0) (g.a32 x).toNat (g.b32 x).toNat; ((truthFor o false r.1).1, r.2)))
  | .fclass o => some (.of false (fun g x =>
      let w := fClass fmtFP32 (g.a32 x).toNat
      match o.dst with
      | .p _ => (if w &&& o.imm.toNat % 1024 = 0 then 0 else 1, 0)
      | _ => (BitVec.ofNat 64 w, 0)))
  | .frnd _ => some (form32 (fun rm a _ _ => fRnd fmtFP32 rm a))
  | .frcp _ => some (form32 (fun rm a _ _ => once fmtFP32 rm (divVal (.dyad false 1 0) (fmtFP32.widen a))))
  | .frsq _ => some (form32 (fun rm a _ _ => once fmtFP32 rm (rsqSpecial (fmtFP32.widen a))))
  | .fsqrt _ => some (form32 (fun rm a _ _ => once fmtFP32 rm (sqrtSpecial (fmtFP32.widen a))))
  | .fdiv _ => some (form32 (fun rm a b _ => once fmtFP32 rm (divVal (fmtFP32.widen a) (fmtFP32.widen b))))
  | .fex2 _ => some (form32 (fun rm a _ _ => once fmtFP32 rm (exp2 (fmtFP32.widen a))))
  | .flg2 _ => some (form32 (fun rm a _ _ => once fmtFP32 rm (log2 (fmtFP32.widen a))))
  | .fsin _ => some (form32 (fun rm a _ _ => once fmtFP32 rm (sinVal (fmtFP32.widen a))))
  | .fcos _ => some (form32 (fun rm a _ _ => once fmtFP32 rm (cosVal (fmtFP32.widen a))))
  | .ftanh _ => some (form32 (fun rm a _ _ => once fmtFP32 rm (tanhVal (fmtFP32.widen a))))
  | .fdot2 o => some (form32 (fun rm a b c => let f := if o.mdBit 0 then fmtBF16 else fmtFP16; dotOf f f 2 rm a b c))
  | .fdot4 o => some (form32 (fun rm a b c => dotOf (if o.mdBit 0 then fmtE5M2 else fmtE4M3) (if o.mdBit 1 then fmtE5M2 else fmtE4M3) 4 rm a b c))
  | _ => none

/-- FP64 (R240). -/
def float64Form : Instr → Option LaneForm
  | .dadd _ => some (form64 (fun rm a b _ => fpSum fmtFP64 rm a b))
  | .dsub _ => some (form64 (fun rm a b _ => fpDiff fmtFP64 rm a b))
  | .dmul _ => some (form64 (fun rm a b _ => fpProd fmtFP64 rm a b))
  | .dmac _ => some (form64 (fpFused fmtFP64))
  | .dmin _ => some (form64 (fun _ a b _ => fpPick fmtFP64 false a b))
  | .dmax _ => some (form64 (fun _ a b _ => fpPick fmtFP64 true a b))
  | .dabs _ => some (form64 (fun _ a _ _ => fpSign fmtFP64 false a))
  | .dneg _ => some (form64 (fun _ a _ _ => fpSign fmtFP64 true a))
  | .dcmp o => some (.of (o.mdBit 4) (fun g x => let r := fCmp fmtFP64 (o.mdBits 3 0) (g.srcD x o.a) (g.srcD x o.b); ((truthFor o (o.mdBit 4) r.1).1, r.2)))
  | .dclass o => some (.of false (fun g x =>
      let w := fClass fmtFP64 (g.srcD x o.a)
      match o.dst with
      | .p _ => (if w &&& o.imm.toNat % 1024 = 0 then 0 else 1, 0)
      | _ => (BitVec.ofNat 64 w, 0)))
  | .drnd _ => some (form64 (fun rm a _ _ => fRnd fmtFP64 rm a))
  | .drcp _ => some (form64 (fun rm a _ _ => once fmtFP64 rm (divVal (.dyad false 1 0) (fmtFP64.widen a))))
  | .drsq _ => some (form64 (fun rm a _ _ => once fmtFP64 rm (rsqSpecial (fmtFP64.widen a))))
  | .dsqrt _ => some (form64 (fun rm a _ _ => once fmtFP64 rm (sqrtSpecial (fmtFP64.widen a))))
  | .ddiv _ => some (form64 (fun rm a b _ => once fmtFP64 rm (divVal (fmtFP64.widen a) (fmtFP64.widen b))))
  | _ => none

/-- Both 16-bit elements of packed words; BF16 where MOD `[0]` is 1 (R241). -/
def formHalf (own : Grp → List Nat) (f : FFmt → Nat → Nat → Nat → Nat → Nat × BitVec 7) : LaneForm :=
  { own, wide := false, res := fun g x =>
      let e := f (if g.o.mdBit 0 then fmtBF16 else fmtFP16) (g.o.mdBits 10 8)
      let a := (g.a32 x).toNat
      let b := (g.b32 x).toNat
      let c := (g.c32 x).toNat
      let l := e (a % 65536) (b % 65536) (c % 65536)
      let h := e (a / 65536) (b / 65536) (c / 65536)
      (BitVec.ofNat 64 (l.1 + h.1 * 65536), l.2 ||| h.2) }

def awayIllegal (g : Grp) : List Nat := [if g.o.mdBits 10 8 = 4 then causeIllegalFormat else 0]

/-- Packed 16-bit arithmetic (R241). -/
def halfForm : Instr → Option LaneForm
  | .hadd2 _ => some (formHalf awayIllegal (fun f rm a b _ => fpSum f rm a b))
  | .hsub2 _ => some (formHalf awayIllegal (fun f rm a b _ => fpDiff f rm a b))
  | .hmul2 _ => some (formHalf awayIllegal (fun f rm a b _ => fpProd f rm a b))
  | .hmac2 _ => some (formHalf awayIllegal fpFused)
  | .hmin2 _ => some (formHalf noCauses (fun f _ a b _ => fpPick f false a b))
  | .hmax2 _ => some (formHalf noCauses (fun f _ a b _ => fpPick f true a b))
  | .habs2 _ => some (formHalf noCauses (fun f _ a _ _ => fpSign f false a))
  | .hneg2 _ => some (formHalf noCauses (fun f _ a _ _ => fpSign f true a))
  | .hcmp2 o => some (formHalf noCauses (fun f _ a b _ => (if (fCmp f (o.mdBits 7 4) a b).1 then 0xFFFF else 0, (fCmp f (o.mdBits 7 4) a b).2)))
  | .hclass2 _ => some (formHalf noCauses (fun f _ a _ _ => (fClass f a, 0)))
  | .hex2 _ => some (formHalf awayIllegal (fun f rm a _ _ => once f rm (exp2 (f.widen a))))
  | .hrcp2 _ => some (formHalf awayIllegal (fun f rm a _ _ => once f rm (divVal (.dyad false 1 0) (f.widen a))))
  | _ => none

/-! ### Conversions (09 R243 to R250) -/

/-- The trits of a T5 byte or of a 2-bit field (02; 09 R250): digits 0, 1, 2 stand for 0, +1, −1 as 0, 1, 3. -/
def tritCode (d : Nat) : Nat := if d = 2 then 3 else d

/-- Element `i` of `w` bits of a word, and the word with that element replaced (02 R44). -/
def elementAt (w x i : Nat) : Nat := x / 2 ^ (w * i) % 2 ^ w
def withElement (w x i v : Nat) : Nat := x % 2 ^ (w * i) + v * 2 ^ (w * i) + x / 2 ^ (w * (i + 1)) * 2 ^ (w * (i + 1))

/-- CVT and CVTSAT (R243): element si of a, converted from SF to DF, stands as element dj of the merge word or of zero, or is the whole result of 32 or 64 bits. -/
def converted (o : Op) (sat : Bool) (g : Grp) (x : Member) : DWord × BitVec 7 :=
  let df := bits o.imm.toNat 7 0
  let sf := bits o.imm.toNat 15 8
  let e := convert df sf (o.mdBits 10 8) sat
    (if Fmt.width sf = 64 then (g.a64 x).toNat else elementAt (Fmt.width sf) (g.a32 x).toNat (bits o.imm.toNat 19 16))
  (BitVec.ofNat 64 (if 32 ≤ Fmt.width df then e.1
    else withElement (Fmt.width df) (if o.mdBit 0 then (g.c32 x).toNat else 0) (bits o.imm.toNat 23 20) e.1 % 2 ^ (Fmt.width df * Fmt.perWord df)), e.2)

/-- The format that PACK reads and UNPACK writes (R245): FP32, INT32 or UINT32. -/
def wholeFormat (c : Nat) : Nat := if 0x20 ≤ c ∧ c ≤ 0x24 then 0x23 else if 0x11 ≤ c ∧ c ≤ 0x14 then 0x13 else 0x47

/-- PACK (R245): element i is register a + i of the lane, converted. -/
def packedWord (o : Op) (g : Grp) (x : Member) : DWord × BitVec 7 :=
  let df := bits o.imm.toNat 7 0
  let es := (List.range (Fmt.perWord df)).map (fun i => convert df (wholeFormat df) (o.mdBits 10 8) (o.mdBit 3) ((g.warp x).vreg (Src.first o.a + i) x.lane).toNat)
  (BitVec.ofNat 64 (es.mapIdx (fun i e => e.1 * 2 ^ (Fmt.width df * i))).sum, orExc (es.map Prod.snd))

/-- The largest magnitude of a payload format (02 R60). -/
def largestOf (c : Nat) : Val := match FFmt.ofCode c with
  | some f => f.widen f.maxBits
  | none => .dyad false (if c = 0x21 then 127 else if c = 0x20 then 7 else 1) 0

/-- round_RU(q, E8M12), the exponent unbounded: SE and SM of the scale, held at 2^−126, none above 2^127 × (2 − 2^−12), and the rounding's flag (02 R60; 00 R15). -/
def scaleFields (q : Val) : Option (Nat × Nat) × BitVec 7 :=
  match q with
  | .num _ n d e k =>
    let r := roundAt rmUp false n d e k (ilog n d e - 12)
    let top : Int := ilog n d e + if r.1 = 8192 then 1 else 0
    (if 127 < top then none else if top < -126 then some (1, 0) else some ((top + 127).toNat, if r.1 = 8192 then 0 else r.1 - 4096), if r.2 then excInexact else 0)
  | _ => (some (1, 0), 0)

/-- A header word: FMT, SM, SE (02 R55). -/
def headerWord (se sm c : Nat) : Nat := c + sm * 2 ^ 8 + se * 2 ^ 20

/-- An element rounded to a payload format; a ternary digit is 0, 1 or 2 for 0, +1 or −1 (02 R58, R60). -/
def payloadElement (c rm : Nat) (v : Val) : Nat × BitVec 7 :=
  if c = 0x60 then (if (roundInt rm v).1 < 0 then 2 else (roundInt rm v).1.toNat, if (roundInt rm v).2 then excInexact else 0)
  else match FFmt.ofCode c with
    | some f => roundF f rm false v
    | none => roundToInt true (Fmt.width c) rm false v

/-- The block of a list of values, step by step (02 R60): 32 header bits, then the payload. -/
def blockOfValues (c rm : Nat) (xs : List Val) : Nat × BitVec 7 :=
  if xs.any (fun x => x.isNan || x.isInf) then (headerWord 255 0 c, excInvalid)
  else if xs.all (fun x => x.isZero) then (headerWord 0 0 c, 0)
  else
    let s := scaleFields (divVal (xs.foldl (fun a x => if cmpVal a x.abs < 0 then x.abs else a) (.zero false)) (largestOf c)).1
    match s.1 with
    | none => (headerWord 255 0 c, excOverflow ||| s.2)
    | some (se, sm) =>
      let es := xs.map (fun x => payloadElement c rm (divVal x (.dyad false (4096 + sm) ((se : Int) - 139))).1)
      (headerWord se sm c + 2 ^ 32 * (es.mapIdx (fun i e => if c = 0x60 then e.1 * 3 ^ (i % 5) * 256 ^ (i / 5) else e.1 * 2 ^ (Fmt.width c * i))).sum, orExc (es.map Prod.snd) ||| s.2)

/-- Value i of half h: of lane 16h + i mod 16, register a + i div 16, +0 where that lane does not execute (R246, R248). -/
def halfValue (o : Op) (g : Grp) (h i : Nat) : Val :=
  match g.execs.find? (fun y => y.lane = 16 * h + i % 16) with
  | some y => fmtFP32.widen ((g.warp y).vreg (Src.first o.a + i / 16) y.lane).toNat
  | none => .zero false

/-- SDENC (R248): word w of the half's block in its lane w, the block's flags once for the half. -/
def encodedWord (o : Op) (g : Grp) (x : Member) : DWord × BitVec 7 :=
  let c := bits o.imm.toNat 7 0
  let r := if x.lane < 32 then blockOfValues c (o.mdBits 10 8) ((List.range (Fmt.payload c)).map (halfValue o g (x.lane / 16))) else (0, 0)
  (BitVec.ofNat 64 (r.1 / 2 ^ (32 * (x.lane % 16)) % 2 ^ 32), r.2)

/-- SDHDR (R247): the header for a largest magnitude. -/
def headerOfMost (c a : Nat) : Nat :=
  match fmtFP32.widen a with
  | .nan _ | .inf _ => headerWord 255 0 c
  | .zero _ => headerWord 0 0 c
  | v => match (scaleFields (divVal v.abs (largestOf c)).1).1 with
    | none => headerWord 255 0 c
    | some (se, sm) => headerWord se sm c

/-- Conversions with one destination. -/
def convertForm : Instr → Option LaneForm
  | .cvt o => some { own := cvtCause, wide := decide (Fmt.width (bits o.imm.toNat 7 0) = 64), res := converted o false }
  | .cvtsat o => some { own := cvtsatCause, wide := decide (Fmt.width (bits o.imm.toNat 7 0) = 64), res := converted o true }
  | .pack o => some { own := packCause, wide := false, res := packedWord o }
  | .sdenc o => some { own := sdCause, wide := false, res := encodedWord o }
  | .sdhdr o => some { own := sdCause, wide := false, res := fun g x => (BitVec.ofNat 64 (headerOfMost (bits o.imm.toNat 7 0) (g.a32 x).toNat), 0) }
  | .t5pk _ => some (.of false (fun g x =>
      let t (i : Nat) : Nat := ((g.b32 x).toNat % 256 * 2 ^ 32 + (g.a32 x).toNat) / 4 ^ i % 4
      let d (i : Nat) : Nat := if t i = 1 then 1 else if t i = 3 then 2 else 0
      (BitVec.ofNat 64 (((List.range 4).map (fun j => (d (5 * j) + 3 * d (5 * j + 1) + 9 * d (5 * j + 2) + 27 * d (5 * j + 3) + 81 * d (5 * j + 4)) * 256 ^ j)).sum),
       if (List.range 20).any (fun i => t i = 2) then excInvalid else 0)))
  | .t5unpk _ => some (.of true (fun g x =>
      let byte (j : Nat) : Nat := (g.a32 x).toNat / 256 ^ j % 256
      (BitVec.ofNat 64 (((List.range 20).map (fun i => (if 243 ≤ byte (i / 5) then 0 else tritCode (byte (i / 5) / 3 ^ (i % 5) % 3)) * 4 ^ i)).sum),
       if (List.range 4).any (fun j => 243 ≤ byte j) then excInvalid else 0)))
  | _ => none

/-! ### Exchange (09 R252 to R256) -/

/-- a of the executing member in a lane, or the reader's own (R252). -/
def readLane (g : Grp) (src : Int) (x : Member) : Word :=
  match g.execs.find? (fun y => (y.lane : Int) = src) with
  | some y => g.a32 y
  | none => g.a32 x

/-- REDUX and SCAN over a list of terms (R254). -/
def combine (op rm : Nat) (ts : List Word) : DWord × BitVec 7 :=
  match op with
  | 0 => low (BitVec.ofNat 32 ((ts.map BitVec.toNat).sum))
  | 1 => narrow 32 true false ((ts.map BitVec.toInt).sum)
  | 6 => low (wordOf (fun j => ts.all (fun t => t.getLsbD j)))
  | 7 => low (wordOf (fun j => ts.any (fun t => t.getLsbD j)))
  | 8 => low (wordOf (fun j => (ts.filter (fun t => t.getLsbD j)).length % 2 = 1))
  | 2 => low (BitVec.ofInt 32 ((ts.map BitVec.toInt).foldl min (2 ^ 31 - 1)))
  | 3 => low (BitVec.ofInt 32 ((ts.map BitVec.toInt).foldl max (-2 ^ 31)))
  | 4 => low (BitVec.ofNat 32 ((ts.map BitVec.toNat).foldl min (2 ^ 32 - 1)))
  | 5 => low (BitVec.ofNat 32 ((ts.map BitVec.toNat).foldl max 0))
  | 9 => if ts = [] then (0, 0) else asRes (once fmtFP32 rm (sumVals rm (ts.map (fun t => fmtFP32.widen t.toNat))))
  | _ => match ts with
    | [] => (if op = 10 then 0x7F800000 else 0xFF800000, 0)
    | t :: r => asRes (r.foldl (fun acc y => ((fpPick fmtFP32 (op != 10) acc.1 y.toNat).1, acc.2 ||| (fpPick fmtFP32 (op != 10) acc.1 y.toNat).2))
        (if (fmtFP32.widen t.toNat).isNan then fmtFP32.nanBits else t.toNat, if (fmtFP32.widen t.toNat).sig then excInvalid else 0))

/-- A derivative (07 R189; R255): along an axis of `d` lanes (1 across, 2 down), the far member of the lane's own pair minus the near one; of the opposite pair where a lane of its own has ended; +0 where that has an ended lane too. -/
def derivative (d rm : Nat) (g : Grp) (x : Member) : DWord × BitVec 7 :=
  let near : Nat := if d = 1 then x.lane / 2 * 2 else x.lane / 4 * 4 + x.lane % 2
  let other : Nat := if d = 1 then (if x.lane % 4 < 2 then near + 2 else near - 2) else (if x.lane % 2 = 0 then near + 1 else near - 1)
  let live (l : Nat) : Bool := decide (((g.warp x).thread l).st ≠ .exited)
  let diff (p : Nat) : DWord × BitVec 7 := asRes (fpDiff fmtFP32 rm (g.a32 { slot := x.slot, lane := p + d }).toNat (g.a32 { slot := x.slot, lane := p }).toNat)
  if live near && live (near + d) then diff near else if live other && live (other + d) then diff other else (0, 0)

/-- Exchange among lanes. -/
def exchangeForm : Instr → Option LaneForm
  | .lxch o => some (.of false (fun g x =>
      let w : Int := 2 ^ o.mdBits 6 4
      let l : Int := x.lane
      let base := l - l % w
      let n : Int := (g.b32 x).toNat % 32
      low (readLane g (match o.mdBits 1 0 with
        | 0 => base + n % w
        | 1 => if l - n < base then l else l - n
        | 2 => if l + n ≥ base + w then l else l + n
        | _ => (x.lane ^^^ (n % w).toNat : Nat)) x)))
  | .vote o => some (.of false (fun g _ =>
      let q (y : Member) : Bool := (g.warp y).preg (bits o.imm.toNat 2 0) y.lane != o.imm.toNat.testBit 3
      truthFor o false (match o.mdBits 1 0 with
        | 0 => decide (∀ y ∈ g.execs, q y = true)
        | 1 => decide (∃ y ∈ g.execs, q y = true)
        | _ => decide (∀ y ∈ g.execs, ∀ z ∈ g.execs, q y = q z))))
  | .ballot o => some (.of false (fun g _ =>
      low (wordOf (fun j => g.execs.any (fun y => y.lane == j && ((g.warp y).preg (bits o.imm.toNat 2 0) y.lane != o.imm.toNat.testBit 3))))))
  | .matchl o => some (.of false (fun g x => low (wordOf (fun j => g.execs.any (fun y => y.lane == j && (if o.mdBit 0 then g.a64 y == g.a64 x else g.a32 y == g.a32 x))))))
  | .redux o => some (.rounds false (fun g _ => combine (o.mdBits 3 0) (o.mdBits 10 8) (g.execs.map g.a32)))
  | .scan o => some (.rounds false (fun g x =>
      combine (o.mdBits 3 0) (o.mdBits 10 8) ((g.execs.filter (fun y => if o.mdBit 4 then y.lane < x.lane else y.lane ≤ x.lane)).map g.a32)))
  | .ddx o => some { own := fun g => awayIllegal g ++ [if ((g.launch?).map Launch.quad).getD false then 0 else causeDerivNoQuad], wide := false, res := derivative 1 (o.mdBits 10 8) }
  | .ddy o => some { own := fun g => awayIllegal g ++ [if ((g.launch?).map Launch.quad).getD false then 0 else causeDerivNoQuad], wide := false, res := derivative 2 (o.mdBits 10 8) }
  | .qswz o => some (.of false (fun g x => low (readLane g ((x.lane / 4 * 4 + o.imm.toNat / 4 ^ (x.lane % 4) % 4 : Nat) : Int) x)))
  | _ => none

/-- The tables of instructions with one result of fixed latency, joined. -/
def laneForm (i : Instr) : Option LaneForm :=
  (integerForm i).or ((selectForm i).or ((logicForm i).or ((fieldForm i).or ((float32Form i).or ((float64Form i).or ((halfForm i).or ((convertForm i).or (exchangeForm i))))))))

/-! ### Results in runs of registers, predicates by mask, and picked lanes -/

/-- Some write-back carries word `i` of a run to register `n + i`, for one member. -/
def Grp.deliversRun (g : Grp) (wbs : List Wb) (n : Nat) (x : Member) (ws : List Word) : Prop :=
  ∃ cells, { due := g.cyc + g.latency, slot := x.slot, what := .v cells } ∈ wbs ∧ ∀ i v, ws[i]? = some v → (n + i, x.lane, v) ∈ cells

/-- A form whose results fill a run of registers, with their exception bits. -/
structure RunForm where
  own : Grp → List Nat
  res : Grp → Member → List Word × BitVec 7

/-- Word w of a half's block: a of the lane that executes, or zero (09 R246). -/
def halfWord (g : Grp) (h w : Nat) : Nat := match g.execs.find? (fun y => y.lane = 16 * h + w) with
  | some y => (g.a32 y).toNat
  | none => 0

/-- Bits `[p + n − 1 : p]` of the payload of the half's block, for `n` up to 32. -/
def payloadBits (g : Grp) (h p n : Nat) : Nat := (halfWord g h (1 + p / 32) + halfWord g h (2 + p / 32) * 2 ^ 32) / 2 ^ (p % 32) % 2 ^ n

/-- Element i of a payload, without its scale; in T5 an ill-formed byte's are 0 (02 R57, R58). -/
def payloadValue (g : Grp) (h c i : Nat) : Val :=
  if c = 0x60 then
    let b := payloadBits g h (8 * (i / 5)) 8
    if 243 ≤ b then .zero false else if b / 3 ^ (i % 5) % 3 = 0 then .zero false else .dyad (decide (b / 3 ^ (i % 5) % 3 = 2)) 1 0
  else
    let e := payloadBits g h (Fmt.width c * i) (Fmt.width c)
    match FFmt.ofCode c with
    | some f => f.widen e
    | none => Val.ofInt (if e.testBit (Fmt.width c - 1) then (e : Int) - 2 ^ Fmt.width c else e)

/-- Element i of a well-formed block, exact: 0 of an all-zero block, a NaN of a NaN block, its payload times the scale otherwise (02 R56, R59). -/
def blockValue (g : Grp) (h i : Nat) : Val :=
  let hd := halfWord g h 0
  if bits hd 27 20 = 0 then .zero false
  else if bits hd 27 20 = 255 then .nan false
  else match payloadValue g h (bits hd 7 0) i with
    | .nan s => .nan s
    | v => (prodVal v (.dyad false (4096 + bits hd 19 8) ((bits hd 27 20 : Int) - 139))).1

/-- SDDEC in a lane (09 R249): of an ill-formed header NaN everywhere and invalid; else the elements that fall to the lane, each rounded once to FP32, and +0 past the last. Which flags an ill-formed T5 byte of a block with no numbers in it raises is the model's choice (log 80). -/
def decodedRun (o : Op) (g : Grp) (x : Member) : List Word × BitVec 7 :=
  let h := x.lane / 16
  let hd := halfWord g h 0
  let c := bits hd 7 0
  let regs := List.range (bits o.imm.toNat 4 0)
  if bits hd 31 28 ≠ 0 ∨ Fmt.payload c = 0 then (regs.map (fun _ => 0x7FC00000), excInvalid)
  else
    let rs := regs.map (fun j => if 16 * j + x.lane % 16 < Fmt.payload c then roundF fmtFP32 (o.mdBits 10 8) false (blockValue g h (16 * j + x.lane % 16)) else (0, 0))
    (rs.map (fun r => BitVec.ofNat 32 r.1),
      orExc (rs.map Prod.snd) |||
        if c = 0x60 ∧ bits hd 27 20 ≠ 0 ∧ bits hd 27 20 ≠ 255 ∧ (List.range 60).any (fun j => 243 ≤ payloadBits g h (8 * j) 8) = true then excInvalid else 0)

/-- UNPACK writes every element of a (09 R245); SDDEC the elements of its half's block that fall to the lane (R249). -/
def runForm : Instr → Option RunForm
  | .unpack o => some { own := unpackCause, res := fun g x =>
      let f := bits o.imm.toNat 7 0
      let rs := (List.range (Fmt.perWord f)).map (fun i => convert (wholeFormat f) f 0 false (elementAt (Fmt.width f) (g.a32 x).toNat i))
      (rs.map (fun r => BitVec.ofNat 32 r.1), orExc (rs.map Prod.snd)) }
  | .sddec o => some { own := noCauses, res := fun g x => decodedRun o g x }
  | _ => none

/-- What the write-backs of a slice are after results in runs: those before, the flag, exception bits, and the runs of the executing lanes. -/
structure RunResults (g : Grp) (m t : Mach) (f : Member → List Word × BitVec 7) : Prop where
  value : g.o.ctl.wbs = false → ∀ n, g.o.dst = .v n → ∀ x ∈ g.execs, g.deliversRun (t.slc g.core g.slice).wbs n.toNat x (f x).1
  exc : ∀ x ∈ g.execs, (f x).2 ≠ 0 → ∃ b, { due := g.cyc + g.resultLatency, slot := x.slot, what := .exc b } ∈ (t.slc g.core g.slice).wbs ∧ b &&& (f x).2 = (f x).2
  kept : ∀ w ∈ (m.slc g.core g.slice).wbs, w ∈ (t.slc g.core g.slice).wbs
  only : ∀ w ∈ (t.slc g.core g.slice).wbs, w ∈ (m.slc g.core g.slice).wbs ∨ w.what = .flag g.o.ctl.setf.toNat ∨
    w.what = .exc (orExc ((g.execs.filter (fun x => x.slot = w.slot)).map (fun x => (f x).2))) ∨
    (∃ cells, w.what = .v cells ∧ g.o.ctl.wbs = false ∧ ∀ c ∈ cells, ∃ x ∈ g.execs, w.slot = x.slot ∧ c.2.1 = x.lane ∧ ∃ i, (f x).1[i]? = some c.2.2 ∧ c.1 = (match g.o.dst with
      | .v n => n.toNat
      | _ => 0) + i)

/-! ### The scalar pipe (08 R222, R227, R228) -/

/-- A scalar-pipe instruction with one result for its warp: whether it is a pair, and its value. -/
structure ScalarForm where
  wide : Bool
  val : Grp → DWord

/-- A scalar form from its width and its value. -/
def ScalarForm.of (wide : Bool) (val : Grp → DWord) : ScalarForm := { wide, val }

/-- A 32-bit scalar result. -/
def low1 (w : Word) : DWord := w.setWidth 64

/-- Scalar moves, arithmetic, logic and reads; `[2]` W makes a form 64-bit. -/
def scalarForm : Instr → Option ScalarForm
  | .smov o => some (.of (o.mdBit 2) (fun g => if o.mdBit 2 then g.a64 g.lead else low1 (g.a32 g.lead)))
  | .siadd o => some (.of (o.mdBit 2) (fun g =>
      if o.mdBit 2 then (if o.mdBit 3 then g.a64 g.lead - g.b64 g.lead else g.a64 g.lead + g.b64 g.lead)
      else low1 (if o.mdBit 3 then g.a32 g.lead - g.b32 g.lead else g.a32 g.lead + g.b32 g.lead)))
  | .simul _ => some (.of (false) (fun g => low1 (BitVec.ofNat 32 ((g.a32 g.lead).toNat * (g.b32 g.lead).toNat))))
  | .sand _ => some (.of (false) (fun g => low1 (wordOf (fun j => (g.a32 g.lead).getLsbD j && (g.b32 g.lead).getLsbD j))))
  | .sor _ => some (.of (false) (fun g => low1 (wordOf (fun j => (g.a32 g.lead).getLsbD j || (g.b32 g.lead).getLsbD j))))
  | .sxor _ => some (.of (false) (fun g => low1 (wordOf (fun j => (g.a32 g.lead).getLsbD j != (g.b32 g.lead).getLsbD j))))
  | .sshl _ => some (.of (false) (fun g => let n := (g.b32 g.lead).toNat % 256; low1 (if 32 ≤ n then 0 else BitVec.ofNat 32 ((g.a32 g.lead).toNat * 2 ^ n))))
  | .sshr o => some (.of (false) (fun g =>
      let n := (g.b32 g.lead).toNat % 256
      let a := g.a32 g.lead
      low1 (if o.mdBit 0 then (if 32 ≤ n then (if a.toInt < 0 then -1 else 0) else BitVec.ofInt 32 (a.toInt / 2 ^ n)) else (if 32 ≤ n then 0 else BitVec.ofNat 32 (a.toNat / 2 ^ n)))))
  | .v2s o => some (.of (o.mdBit 2) (fun g =>
      let x : Member := { slot := g.lead.slot, lane := (g.b32 g.lead).toNat % 32 }
      if o.mdBit 2 then g.a64 x else low1 (g.a32 x)))
  | .segrd o => some (.of (true) (fun g => let r := (g.warp g.lead).segment (o.mdBits 2 0); if o.mdBit 3 then r.2 else r.1))
  | .flagrd _ => some (.of (false) (fun g => (g.warp g.lead).loc.setWidth 64))
  | _ => none

/-- The scalar registers a value fills: one, or a pair. -/
def scalarCells (n : Nat) (wide : Bool) (v : DWord) : List (Nat × Word) := if wide then [(n, v.setWidth 32), (n + 1, (v >>> 32).setWidth 32)] else [(n, v.setWidth 32)]

/-- What the write-backs of a slice are after a scalar result: those before, the instruction's flag, and with an executing member and a destination Sn the value. -/
structure ScalarResult (g : Grp) (m t : Mach) (wide : Bool) (v : DWord) : Prop where
  value : g.o.ctl.wbs = false → g.execs ≠ [] → ∀ n, g.o.dst = .s n →
    { due := g.cyc + g.latency, slot := g.lead.slot, what := .s (scalarCells n.toNat wide v) } ∈ (t.slc g.core g.slice).wbs
  kept : ∀ w ∈ (m.slc g.core g.slice).wbs, w ∈ (t.slc g.core g.slice).wbs
  only : ∀ w ∈ (t.slc g.core g.slice).wbs, w ∈ (m.slc g.core g.slice).wbs ∨ w.what = .flag g.o.ctl.setf.toNat ∨
    (∃ n, g.o.dst = .s n ∧ w = { due := g.cyc + g.latency, slot := g.lead.slot, what := .s (scalarCells n.toNat wide v) })

/-! ### Special registers (08 R224, R225) -/

/-- A launch's block index of a member, and its grid and block sizes. -/
def Grp.place3 (g : Grp) (x : Member) : Nat × Nat × Nat := match g.blockOf x with
  | some b => ((g.m.launch? b).map (fun l => l.blockIdx b.lin)).getD (0, 0, 0)
  | none => (0, 0, 0)
def Grp.dims (g : Grp) (x : Member) : List Nat := match (g.blockOf x).bind g.m.launch? with
  | some l => [l.gridX, l.gridY, l.gridZ, l.blkZ, l.blkX, l.blkY, l.blkZ, l.blkZ]
  | none => [0, 0, 0, 0, 0, 0, 0, 0]

/-- The value of a special register of R224, by its index and component; `none` where the table has no such register or component. -/
def specialOf (g : Grp) (x : Member) (ix cp : Nat) : Option DWord :=
  match ix with
  | 0 => some (BitVec.ofNat 64 x.lane)
  | 1 => some (BitVec.ofNat 64 (g.warp x).num)
  | 2 => some (BitVec.ofNat 64 (match cp with
    | 0 => (g.place3 x).1
    | 1 => (g.place3 x).2.1
    | _ => (g.place3 x).2.2))
  | 3 => if cp < 7 ∧ cp ≠ 3 then some (BitVec.ofNat 64 ((g.dims x).getD cp 0)) else none
  | 4 => some (BitVec.ofNat 64 g.core)
  | 5 => some (BitVec.ofNat 64 g.slice)
  | 6 => some (BitVec.ofNat 64 (g.core / 16))
  | 7 => some (BitVec.ofNat 64 (g.m.shard (g.core / 16)).cycle)
  | 8 => some (if ((g.blockOf x).map (·.preempt)).getD false then 1 else 0)
  | 9 => some (BitVec.ofNat 64 (match g.blockOf x, (g.blockOf x).bind g.m.launch? with
    | some b, some l => if l.cover then b.covf + (match l.cov with
      | some c => dw c.rcd 0 / 2 ^ 51 % 16
      | none => 0) * 2 ^ 9 else 0
    | _, _ => 0))
  | 10 => some (((g.warp x).thread x.lane).lattice.setWidth 64)
  | 11 => some ((g.warp x).faultmask.setWidth 64)
  | _ => none

/-! ### Control transfer (08 R201, R202) -/

/-- Where the executing members of a transfer go, and whether it writes a return address. -/
structure TransferForm where
  target : Grp → Member → DWord
  link : Bool

/-- Relative: IMM in instructions from the next one; indirect: the source's address with its low four bits clear. -/
def transferForm : Instr → Option TransferForm
  | .nop _ => some { target := fun g _ => g.pc + 16, link := false }
  | .bra o => some { target := fun g _ => g.pc + 16 + BitVec.ofInt 64 (16 * o.imm.toInt), link := false }
  | .brx _ => some { target := fun g x => g.a64 x / 16 * 16, link := false }
  | .call o => some { target := fun g _ => g.pc + 16 + BitVec.ofInt 64 (16 * o.imm.toInt), link := true }
  | .callx _ => some { target := fun g x => g.a64 x / 16 * 16, link := true }
  | .ret _ => some { target := fun g x => g.a64 x / 16 * 16, link := false }
  | _ => none

/-! ### Rejoin masks (07 R186; 08 R211) -/

/-- A lane's thread where its mask has been updated: parked first where the instruction is PARK; released where the mask opens. -/
def rejoined (g : Grp) (park opens : Bool) (ls : List Nat) (lane : Nat) (t : Thread) : Thread :=
  let t := if park && ls.contains lane then { t with st := .parked g.jn, pc := g.pc } else t
  if opens && t.st = .parked g.jn then { t with st := .atPc, pc := t.pc + 16, stamp := g.cyc } else t

/-- One mask of each warp with executing members becomes `next` of what it was; where every enrolled lane has arrived it empties, and its parked threads go on. -/
def maskPost (park : Bool) (next : Word → Word × Word → Word × Word) (g : Grp) (u t : Mach) : Prop :=
  t = { u with warps := t.warps } ∧
  ∀ c l, l < 128 →
    let ls := if c = g.core then g.execLanes l else []
    let e := next (maskOf ls) ((u.warp c l).jmask g.jn)
    let opens : Bool := decide (ls ≠ [] ∧ e.1 &&& ~~~e.2 = 0)
    t.warp c l = { u.warp c l with jm := (t.warp c l).jm, threads := (t.warp c l).threads, flags := (t.warp c l).flags, owes := (t.warp c l).owes } ∧
    (t.warp c l).jmask g.jn = (if ls = [] then (u.warp c l).jmask g.jn else if opens then (0, 0) else e) ∧
    (∀ j, j ≠ g.jn → (t.warp c l).jmask j = (u.warp c l).jmask j) ∧
    (∀ lane, lane < 32 → (t.warp c l).thread lane = rejoined g park opens ls lane ((u.warp c l).thread lane))

def maskForm : Instr → Option EffectForm
  | .enrol _ => some (.mk noCauses (maskPost false (fun ls e => (e.1 ||| ls, e.2))))
  | .park _ => some (.mk noCauses (maskPost true (fun ls e => (e.1, e.2 ||| ls))))
  | .strike _ => some (.mk noCauses (maskPost false (fun ls e => (e.1 &&& ~~~ls, e.2 &&& ~~~ls))))
  | _ => none

/-! ### The end of threads, yields and progress (08 R206 to R210) -/

/-- The member's thread has ended. -/
def ended (t : Mach) (core : Nat) (x : Member) : Prop := ((t.warp core x.slot).thread x.lane).st = .exited

/-- THREADS OF A WARP END (07 R186; 08 R206): the lanes are EXITED with no register live; they leave every rejoin mask, both its sets, and a mask whose enrolled lanes have then all arrived empties and lets its parked threads go on; no operation is owed for them; every other thread, and the rest of the warp, stays. -/
def LanesEnd (w : Warp) : Prop :=
  ∀ ls cyc, (∀ l ∈ ls, l < 32) →
    let y := w.exitLanes ls cyc
    let left (j : Nat) : Word × Word := ((w.jmask j).1 &&& ~~~(maskOf ls), (w.jmask j).2 &&& ~~~(maskOf ls))
    y = { w with v := y.v, flags := y.flags, jm := y.jm, threads := y.threads, owes := y.owes } ∧
    (∀ c ∈ y.v, c.1 % 32 ∉ ls) ∧ (∀ n l, l < 32 → y.vreg n l = if l ∈ ls then 0 else w.vreg n l) ∧
    (∀ l, l ∈ ls → (y.thread l).st = .exited) ∧
    (∀ l, l < 32 → l ∉ ls → y.thread l =
      match (w.thread l).st with
      | .parked j => if j < 8 ∧ (left j).1 &&& ~~~(left j).2 = 0 then { w.thread l with st := .atPc, pc := (w.thread l).pc + 16, stamp := cyc } else w.thread l
      | _ => w.thread l) ∧
    (∀ j, j < 8 → y.jmask j = if (left j).1 &&& ~~~(left j).2 = 0 then (0, 0) else left j) ∧ ∀ o ∈ y.owes, o.lanes &&& maskOf ls = 0 ∧ o.lanes ≠ 0

def endForm : Instr → Option EffectForm
  | .exit _ => some (.mk noCauses (fun g u t => t = g.execSlots.foldl (fun m s => m.exitMembers g.e g.core s (g.execLanes s)) u ∧ ∀ x ∈ g.execs, ended t g.core x))
  | .demote _ => some (.mk noCauses (fun g u t =>
      if ((g.launch?).map Launch.quad).getD false then
        (∃ v : Mach, v = { u with warps := v.warps } ∧ (∀ c l, l < 128 → v.warp c l = { u.warp c l with threads := (v.warp c l).threads }) ∧
          (∀ c l lane, l < 128 → (v.warp c l).thread lane = if c = g.core ∧ (⟨l, lane⟩ : Member) ∈ g.execs then { (u.warp c l).thread lane with helper := true } else (u.warp c l).thread lane) ∧
          t = g.execSlots.foldl (fun m s => m.exitMembers g.e g.core s []) v) ∧
        ∀ x ∈ g.execs, ended t g.core x ∨ ((t.warp g.core x.slot).thread x.lane).helper = true
      else t = g.execSlots.foldl (fun m s => m.exitMembers g.e g.core s (g.execLanes s)) u ∧ ∀ x ∈ g.execs, ended t g.core x))
  | .kill _ => some (.mk noCauses (fun g u t =>
      (∀ x ∈ g.execs, g.helper x = false → x.slot ≠ handlerSlot → ∀ k, u.blocks.get? (g.blkId x) = some k →
        ∀ c l lane, l < 128 → l ≠ handlerSlot → u.warps.has (wk c l) = true → (u.warp c l).blk = g.blkId x →
          ended t c ⟨l, lane⟩ ∨ (((t.warp c l).thread lane).st = .atPc ∧ (u.shard (k.core / 16)).turn ≤ 6 * (k.core % 16) + (u.warp c l).slice ∧
            (t.blocks.get? (g.blkId x)).map (·.killed) = some true)) ∧
      (∀ x ∈ g.execs, g.helper x = true → ended t g.core x) ∧
      (∀ c l, l < 128 → (∀ w ∈ u.warps, w.1 = wk c l → ∀ x ∈ g.execs, w.2.blk ≠ g.blkId x) → (c ≠ g.core ∨ l ∉ g.execSlots) →
        (∀ b ∈ u.bundles, ∀ y ∈ b.2.launches, ∀ w, y.2.wg = some w → ∀ q ∈ w.waits, q.core ≠ c ∨ q.slot ≠ l) → t.warp c l = u.warp c l) ∧
      (∀ b, (∀ x ∈ g.execs, b ≠ g.blkId x) → t.blocks.get? b = u.blocks.get? b) ∧ t.parts = u.parts ∧ t.tenants = u.tenants ∧ t.shards = u.shards ∧
      ((∀ b k, t.blocks.get? b = some k → k.st = .exited → (u.blocks.get? b).map (fun (y : Block) => y.st) = some .exited) → t.mem = u.mem)))
  | .beat _ => some (.mk noCauses (fun g u t =>
      t = { u with blocks := t.blocks } ∧
      ∀ b, t.blocks.get? b = (u.blocks.get? b).map (fun (k : Block) =>
        if g.execs.any (fun x => x.slot ≠ handlerSlot && !g.helper x && g.blkId x == b) then { k with wdbase := (u.shard (shardOf k.core)).cycle, wdcnt := 0, wdexp := 0 } else k)))
  | _ => none

/-! ### System state (08 R226 to R229) -/

/-- Nothing but one warp, the lead's, has changed, and by `f`; with no executing member nothing has. -/
def leadPost (f : Grp → Warp → Warp) (g : Grp) (u t : Mach) : Prop := t = if g.execs = [] then u else u.modWarp g.core g.lead.slot (f g)

/-- A core whose translation buffers, of both levels, no longer hold the entries that `p` picks (10 R267). -/
def unheld (p : Xl → Prop) [DecidablePred p] (c : Core) : Core :=
  { c with tlb := c.tlb.filter (fun x => decide (¬ p x)), tlb1 := c.tlb1.map (fun b => (b.1, b.2.filter (fun x => decide (¬ p x)))) }

/-- A core's own caches become `f` of what they were, the flag is signalled in the warps of the group, and the last reads free their registers: of the vector registers those alone change, of the slices only what a chain holds back of them. -/
def cctlPost (f : Grp → Core → Core) (g : Grp) (u t : Mach) : Prop :=
  (∀ c, t.core c = if c = g.core ∧ g.execs ≠ [] then f g (u.core c) else u.core c) ∧
  t = { u with cores := t.cores, warps := t.warps, slices := t.slices } ∧
  (∀ c l, l < 128 → t.warp c l = { u.warp c l with flags := (t.warp c l).flags, v := (t.warp c l).v }) ∧
  (∀ c l n lane, l < 128 → lane < 32 → (t.warp c l).vreg n lane = if g.freed c l n lane then 0 else (u.warp c l).vreg n lane) ∧
  (∀ c k, t.slc c k = if g.o.ctl.chain = true ∧ sk c k = sk g.core g.slice
    then { u.slc c k with chain := (u.slc c k).chain.map (fun x => { x with clears := x.clears ++ g.lastReads g.execLanes }) } else u.slc c k) ∧
  (∀ c l k, l < 128 → (t.warp c l).flagCount k =
    (u.warp c l).flagCount k - if c = g.core ∧ (∃ x ∈ g.members, x.slot = l) ∧ k = g.o.ctl.setf.toNat ∧ k < 12 then 1 else 0)

def systemForm : Instr → Option EffectForm
  | .swr o => some (.mk privCause (fun g u t =>
      if g.execs = [] then t = u
      else if o.md.toNat = 8 then (if g.lead.slot = handlerSlot then t = u else
        t = { u with blocks := t.blocks, warps := t.warps } ∧
        (∀ b, t.blocks.get? b = (u.blocks.get? b).map (fun (k : Block) =>
          if b = g.blkId g.lead then
            { k with deadline := (u.shard (shardOf k.core)).cycle + ((u.bundles.get? k.bundle).map (fun x => x.eff 8)).getD 0, preempt := if k.st = .resident then (g.a32 g.lead).getLsbD 0 else k.preempt }
          else k)) ∧
        (∀ c l, l < 128 → t.warp c l = { u.warp c l with threads := (t.warp c l).threads }) ∧
        ∀ c l lane, l < 128 → (t.warp c l).thread lane =
          if (g.a32 g.lead).getLsbD 0 = false ∧ (t.blocks.get? (g.blkId g.lead)).map (·.preempt) = some false ∧ l ≠ handlerSlot ∧ u.warps.has (wk c l) = true ∧
              (u.warp c l).blk = g.blkId g.lead ∧ ((u.warp c l).thread lane).st = .blocked .yieldPoint
            then { (u.warp c l).thread lane with st := .atPc, stamp := (u.slc c (u.warp c l).slice).cyc } else (u.warp c l).thread lane)
      else t = u.modWarp g.core g.lead.slot (fun w => { w with faultmask := g.a32 g.lead })))
  | .segld o => some (.mk privCause (leadPost (fun g w => { w with seg := w.seg.set (o.mdBits 2 0) (g.a64 g.lead, g.b64 g.lead) })))
  | .flagclr o => some (.mk noCauses (leadPost (fun g w => { w with loc := w.loc &&& (~~~(o.imm.setWidth 7) ||| (g.m.slc g.core g.slice).newExc.get g.lead.slot 0) })))
  | .cctlIinv _ => some (.mk noCauses (cctlPost (fun _ c => { c with icache := [] })))
  | .cctlIinvpg _ => some (.mk noCauses (cctlPost (fun g c => { c with icache := c.icache.filter (fun l => l.1 / 4096 ≠ (g.a64 g.lead).toNat % 2 ^ 57 / 4096) })))
  | .cctlTlbpg _ => some (.mk privCause (cctlPost (fun g c => unheld (fun x => (g.a64 g.lead).toNat % 2 ^ 57 / 2 ^ x.bits = x.va / 2 ^ x.bits) c)))
  | .cctlTlball _ => some (.mk privCause (cctlPost (fun _ c => unheld (fun _ => True) c)))
  | _ => none

/-! ### Predicates, scalars and lanes (08 R221 to R225) -/

/-- The write-backs before an issue are kept. -/
def WbsKept (g : Grp) (m t : Mach) : Prop := ∀ w ∈ (m.slc g.core g.slice).wbs, w ∈ (t.slc g.core g.slice).wbs

/-- SCMP: the predicate of every thread of the warp that has not ended, or a scalar 1 or 0. -/
structure CompareResult (g : Grp) (m t : Mach) (v : Bool) : Prop where
  pred : g.o.ctl.wbs = false → g.execs ≠ [] → ∀ n, g.o.dst = .p n →
    ∃ cells, { due := g.cyc + g.latency, slot := g.lead.slot, what := .p n.toNat cells } ∈ (t.slc g.core g.slice).wbs ∧
      ∀ lane, (lane, v) ∈ cells ↔ ∃ th, (lane, th) ∈ (g.warp g.lead).threads ∧ th.st ≠ .exited
  scalar : g.o.ctl.wbs = false → g.execs ≠ [] → ∀ n, g.o.dst = .s n →
    { due := g.cyc + g.latency, slot := g.lead.slot, what := .s [(n.toNat, if v then 1 else 0)] } ∈ (t.slc g.core g.slice).wbs
  kept : WbsKept g m t
  only : ∀ w ∈ (t.slc g.core g.slice).wbs, w ∈ (m.slc g.core g.slice).wbs ∨ w.what = .flag g.o.ctl.setf.toNat ∨
    (w.slot = g.lead.slot ∧ ((∃ n cells, g.o.dst = .p n ∧ w.what = .p n.toNat cells ∧ ∀ c ∈ cells, c.2 = v) ∨ ∃ n, g.o.dst = .s n ∧ w.what = .s [(n.toNat, if v then 1 else 0)]))

/-- V2P: each predicate that IMM selects takes its bit of a, in each executing lane. -/
structure MaskResult (g : Grp) (m t : Mach) : Prop where
  value : ∀ k, k < 7 → g.o.imm.getLsbD k = true → ∀ x ∈ g.execs,
    ∃ cells, { due := g.cyc + g.latency, slot := x.slot, what := .p k cells } ∈ (t.slc g.core g.slice).wbs ∧ (x.lane, (g.a32 x).getLsbD k) ∈ cells
  kept : WbsKept g m t
  only : ∀ w ∈ (t.slc g.core g.slice).wbs, w ∈ (m.slc g.core g.slice).wbs ∨ w.what = .flag g.o.ctl.setf.toNat ∨
    ∃ k cells, w.what = .p k cells ∧ k < 7 ∧ g.o.imm.getLsbD k = true ∧ ∀ c ∈ cells, ∃ x ∈ g.execs, x.slot = w.slot ∧ c = (x.lane, (g.a32 x).getLsbD k)

/-- The group, with the executing members whose bit of b is set (R223). -/
def Grp.chosen (g : Grp) : Grp := { g with execs := g.execs.filter (fun x => (g.b32 x).getLsbD x.lane) }

/-! ### Shapes of effects -/

/-- Of the warps only flags differ: in each warp with a member, one operation armed on the group's flag is complete (06 R142). -/
def Signals (g : Grp) (u t : Mach) : Prop :=
  t = { u with warps := t.warps } ∧
  ∀ c l, l < 128 → t.warp c l = { u.warp c l with flags := (t.warp c l).flags } ∧
    ∀ k, (t.warp c l).flagCount k = (u.warp c l).flagCount k - if c = g.core ∧ (∃ x ∈ g.members, x.slot = l) ∧ k = g.flag ∧ k < 12 then 1 else 0

/-- Of the warps only threads differ: the members listed are held at the instruction for a reason (07 R168). -/
def HeldAt (g : Grp) (ms : List Member) (w : BlockOn) (u t : Mach) : Prop :=
  ∀ c l, l < 128 → t.warp c l = { u.warp c l with threads := (t.warp c l).threads } ∧
    ∀ lane, (t.warp c l).thread lane =
      if c = g.core ∧ (⟨l, lane⟩ : Member) ∈ ms then { (u.warp c l).thread lane with st := .blocked w, pc := g.pc } else (u.warp c l).thread lane

/-- Executing members to whom `f` gives a reason are held at the instruction for it; a warp with a member so held owes the flag until they go on, and in the group's other warps it is signalled. -/
def Waits (g : Grp) (f : Member → Option BlockOn) (u t : Mach) : Prop :=
  t = { u with warps := t.warps } ∧
  ∀ c l, l < 128 →
    let held := if c = g.core then (g.execs.filter (fun x => x.slot = l && (f x).isSome)).map (·.lane) else []
    t.warp c l = { u.warp c l with threads := (t.warp c l).threads, flags := (t.warp c l).flags, owes := (t.warp c l).owes } ∧
    (∀ lane, (t.warp c l).thread lane = match (if c = g.core ∧ (⟨l, lane⟩ : Member) ∈ g.execs then f ⟨l, lane⟩ else none) with
      | some w => { (u.warp c l).thread lane with st := .blocked w, pc := g.pc }
      | none => (u.warp c l).thread lane) ∧
    (t.warp c l).owes = (u.warp c l).owes ++ (if held ≠ [] ∧ g.flag < 12 then [{ flag := g.flag, lanes := maskOf held }] else []) ∧
    (∀ k, (t.warp c l).flagCount k = (u.warp c l).flagCount k - if c = g.core ∧ (∃ x ∈ g.members, x.slot = l) ∧ held = [] ∧ k = g.flag ∧ k < 12 then 1 else 0)

/-- The last reads of an issue have taken effect. -/
def Grp.afterReads (g : Grp) (u : Mach) : Mach := g.freeReads g.execLanes u

/-- One value in each executing member reaches its register at once; then the flag. -/
def gives (val : Grp → Mach → Member → Word) (g : Grp) (u t : Mach) : Prop :=
  ∃ v : Mach, v = (if g.o.ctl.wbs then g.afterReads u else (g.afterReads u).deliver g.core g.o.dst g.execSlots (g.execs.map (fun x => (x.slot, x.lane, [val g u x])))) ∧ Signals g v t

/-! ### Memory accesses at issue (10 R257 to R262, R276 to R280; 14 R379; 11 R305; 12 R318) -/

/-- An access form: what it does, the bytes of an access, whether it may change global memory, and each executing lane's access. -/
structure AccessForm where
  op : AccOp
  size : Nat
  writes : Bool
  reqs : Grp → List LaneReq
  more : Grp → List Nat := noCauses

/-- Bytes of a size code: B8, S8, B16, S16, B32, B64, B128. -/
def bytesOf (c : Nat) : Nat := [1, 1, 2, 2, 4, 8, 16].getD c 16

/-- The space code of MOD. -/
def formOf (c : Nat) : Form := if c = 0 then .gen else if c = 1 then .glb else .scr

/-- A register, or a pair, plus the signed offset of IMM; IMM alone in the absolute form. -/
def baseAddr (wide : Bool) (g : Grp) (x : Member) : Nat :=
  if g.o.a = .imm then g.o.imm.toNat else ((if wide then g.a64 x else (g.a32 x).setWidth 64) + BitVec.ofInt 64 g.o.imm.toInt).toNat

/-- The number that `n` registers from the source's first hold. -/
def runOf (g : Grp) (x : Member) (s : Src) (n : Nat) : Nat := ((List.range n).map (fun i => (g.vAt x (Src.first s + i)).toNat * 2 ^ (32 * i))).sum

/-- The bits to be stored: a register, a pair, or four registers. -/
def dataOf (g : Grp) (x : Member) (s : Src) (code : Nat) : Nat := if code = 6 then runOf g x s 4 else if code = 5 then (g.src64 x s).toNat else (g.src32 x s).toNat

/-- base + index × 2^SCALE + offset, as 64 bits (R280). -/
def indexed (g : Grp) (x : Member) : Nat :=
  let w := 8 * 2 ^ g.o.mdBits 6 5
  let v : Nat := (if w = 64 then (g.b64 x).toNat else (g.b32 x).toNat) % 2 ^ w
  let i : Int := if g.o.mdBit 7 = true ∧ v.testBit (w - 1) = true then (v : Int) - 2 ^ w else v
  (BitVec.ofInt 64 ((g.a64 x).toNat + i * 2 ^ g.o.mdBits 10 8 + g.o.imm.toInt)).toNat

/-- A scratch address with a bit above 31 set is past every allocation (R280). -/
def pastScratch (g : Grp) : List Nat := [if 2 ≤ g.o.mdBits 4 3 ∧ ∃ x ∈ g.execs, 2 ^ 32 ≤ indexed g x then causeSegLimit else 0]

def AccessForm.load (o : Op) (f : Form) (addr : Grp → Member → Nat) : AccessForm :=
  { op := .load (o.mdBits 2 0), size := bytesOf (o.mdBits 2 0), writes := false, reqs := fun g => g.execs.map (fun x => { x, form := f, addr := addr g x, data := 0, cmp := 0 }) }

def AccessForm.store (o : Op) (f : Form) (src : Src) (addr : Grp → Member → Nat) : AccessForm :=
  { op := .store, size := bytesOf (o.mdBits 2 0), writes := true, reqs := fun g => g.execs.map (fun x => { x, form := f, addr := addr g x, data := dataOf g x src (o.mdBits 2 0), cmp := 0 }) }

def AccessForm.atom (o : Op) : AccessForm :=
  let n (g : Grp) (x : Member) (s : Src) : Nat := if o.mdBit 2 then (g.src64 x s).toNat else (g.src32 x s).toNat
  { op := .atom (o.mdBits 10 7) (o.mdBit 2), size := if o.mdBit 2 then 8 else 4, writes := true,
    reqs := fun g => g.execs.map (fun x =>
      { x, form := formOf (o.mdBits 1 0), addr := baseAddr true g x, data := n g x o.b, cmp := if o.mdBits 10 7 = 9 then n g x o.c else 0 }) }

def accessForm : Instr → Option AccessForm
  | .ld o => some (.load o (formOf (o.mdBits 4 3)) (baseAddr true))
  | .st o => some (.store o (formOf (o.mdBits 4 3)) o.b (baseAddr true))
  | .lds o => some (.load o .scr (baseAddr false))
  | .sts o => some (.store o .scr o.b (baseAddr false))
  | .ldl o => some (.load o .priv (baseAddr false))
  | .stl o => some (.store o .priv o.b (baseAddr false))
  | .ldc o => some { AccessForm.load o .const (baseAddr false) with
      reqs := fun g => let rs := g.execs.map (fun x => { x, form := .const, addr := baseAddr false g x, data := 0, cmp := 0 : LaneReq }); match o.dst with
        | .s _ => rs.take 1
        | _ => rs }
  | .gath o => some { AccessForm.load o (formOf (o.mdBits 4 3)) indexed with more := pastScratch }
  | .scat o => some { AccessForm.store o (formOf (o.mdBits 4 3)) o.c indexed with more := pastScratch }
  | .atom o => some (.atom o)
  | .red o => some (.atom o)
  | .cas128 o => some { op := .cas128, size := 16, writes := true, reqs := fun g => g.execs.map (fun x =>
      { x, form := formOf (o.mdBits 1 0), addr := baseAddr true g x, data := runOf g x o.b 4, cmp := runOf g x o.c 4 }) }
  | .tlrmake o => some { op := .tlrmake, size := 64, writes := true, reqs := fun g => g.execs.map (fun x => { x, form := formOf (o.mdBits 4 3), addr := baseAddr true g x, data := 0, cmp := 0 }) }
  | _ => none

/-- A lane's request as it meets memory: its space, its linear address, its data. -/
def AccessForm.lane (F : AccessForm) (g : Grp) (r : LaneReq) : AccLane :=
  { slot := r.x.slot, blk := g.blkId r.x, lane := r.x.lane, space := (g.place r.x r.form r.addr F.size).2.1, addr := (g.place r.x r.form r.addr F.size).2.2, data := r.data, cmp := r.cmp,
    helper := g.helper r.x }

/-- The lanes' accesses in turn, each as LaneAccess says; before them, blocks whose lanes reach global memory with an effect are no longer flushable and have made progress (16 R424, R426). -/
def AccessForm.met (F : AccessForm) (g : Grp) (u : Mach) : Mach × List (AccLane × LaneRes) :=
  performLanes g.e g.core g.part F.op F.size
    (if F.writes then (g.blocksOf ((F.reqs g).filter (fun r => !g.helper r.x && (g.place r.x r.form r.addr F.size).2.1 = .global) |>.map (·.x))).foldl Mach.visible u else u)
    ((F.reqs g).map (F.lane g))

/-- $FAULTMASK of a warp once its lanes have met memory: the bits of the lanes that failed are 0; all others are 1, or, in a replay, as they stood with those of the lanes that have now completed at 1 (10 R270, R273). -/
def maskAfter (g : Grp) (slot : Nat) (old bad : Word) : Word := if slot ∈ g.replays then (old ||| maskOf (g.execLanes slot)) &&& ~~~bad else ~~~bad

/-- In the warps with members $FAULTMASK says that every lane has completed. -/
def Masked (g : Grp) (v y : Mach) : Prop :=
  y = { v with warps := y.warps } ∧ ∀ c l, l < 128 → y.warp c l = if c = g.core ∧ (∃ x ∈ g.members, x.slot = l) then { v.warp c l with faultmask := maskAfter g l (v.warp c l).faultmask 0 } else v.warp c l

/-- Lanes that did not complete. -/
def failed (rs : List (AccLane × LaneRes)) : List (AccLane × LaneRes) := rs.filter (fun r => !r.2.isDone)

/-- What a warp waits with, or stands with at a trap; together with what lanes of the instruction that have not issued again already wait with (10 R273). -/
def recOf (g : Grp) (slot : Nat) (handler uncorrectable : Bool) (seqs : List Nat) (old : Option FaultRec) : FaultRec :=
  let f : FaultRec :=
    { pc := g.pc, members := maskOf (lanesIn g.members slot), execs := maskOf (g.execLanes slot), flag := g.flag, whole := false, handler, uncorrectable, seqs, drafts := [], stash := [],
      yield := g.o.ctl.yield, all := maskOf (lanesIn g.members slot) }
  match old with
  | none => f
  | some o => { f with members := f.members ||| o.members, execs := f.execs ||| o.execs, seqs := o.seqs ++ seqs, drafts := o.drafts, all := f.all ||| o.all }

/-- The bundle that a trap is charged to: that of the first warp it names (16 R407, R411). -/
def bundleAt (u : Mach) (core : Nat) (slots : List Nat) : Option Nat := (slots.head?).bind (fun l => (u.blockOf core l).map (·.bundle))

/-- A trap's place in a core's queue: behind those of earlier cycles, and of one cycle behind those of no higher slice (16 R405). -/
def Queued (q : List Trap) (t : Trap) (r : List Trap) : Prop := r = q.filter (fun x => decide (x.at_ ≤ t.at_)) ++ t :: q.filter (fun x => decide (t.at_ < x.at_))

/-- THE ACCESS IS MADE at its issue, lane by lane in ascending order (10 R270). With no executing member it is complete at once; where every lane completes, its results are under way to their registers; a warp of which some lane does not complete waits with a record for each page, or is trapped at the instruction. -/
structure AccessMade (F : AccessForm) (g : Grp) (u t : Mach) : Prop where
  nobody : g.execs = [] → ∃ y, Masked g u y ∧ Signals g y t
  completes : g.execs ≠ [] → (∀ r ∈ (F.met g u).2, r.2.isDone = true) → ∃ y, Masked g (F.met g u).1 y ∧
    t = { g.afterReads y with
      nextId := y.nextId + 1, accesses := y.accesses.set y.nextId
        { core := g.core, op := F.op, dst := g.o.dst, wbs := g.o.ctl.wbs, flag := g.flag, members := (accessVals (F.met g u).2).map (fun v => { slot := v.1, lane := v.2.1 }),
          vals := accessVals (F.met g u).2, excs := accessExcs (F.met g u).2, doneSlots := g.slots } }
  waits : ∀ slot, slot < handlerSlot → (∀ x ∈ g.members, x.slot = slot ∧ x.lane < 32) → failed (F.met g u).2 ≠ [] →
    (∀ r ∈ failed (F.met g u).2, r.2 ≠ .uncorr ∧ r.2.cause ≠ 0x0A) →
      let v := (F.met g u).1
      let ds := draftsOf g.core slot (((v.blocks.get? (v.warp g.core slot).blk).map v.tagOf).getD 0) F.op.kind (failed (F.met g u).2)
      (v.part g.part).faultQ.length + ds.length ≤ 4096 →
        (∀ x ∈ g.members, (t.warp g.core slot).thread x.lane = { (v.warp g.core slot).thread x.lane with st := .faultWait, pc := g.pc, yieldDue := false }) ∧
        (t.warp g.core slot).faultmask = maskAfter g slot (v.warp g.core slot).faultmask (maskOf ((failed (F.met g u).2).map (fun r => r.1.lane))) ∧
        (t.warp g.core slot).fault = some (recOf g slot false false ((List.range ds.length).map (fun i => (v.part g.part).faultSeq + i)) (v.warp g.core slot).fault) ∧
        (t.part g.part).faultQ = (v.part g.part).faultQ ++ ds.mapIdx (fun i d => { draft := d, seq := (v.part g.part).faultSeq + i, copied := false }) ∧ t.mem = v.mem
  traps : ∀ slot c, slot < handlerSlot → (∀ x ∈ g.members, x.slot = slot ∧ x.lane < 32) →
    ((c = 0x14 ∧ ∃ r ∈ failed (F.met g u).2, r.2 = .uncorr) ∨ (c = 0x0A ∧ (∀ r ∈ failed (F.met g u).2, r.2 ≠ .uncorr) ∧ ∃ r ∈ failed (F.met g u).2, r.2.cause = 0x0A)) →
      let v := (F.met g u).1
      (∀ x ∈ g.members, ((v.warp g.core slot).thread x.lane).st = .atPc → ((t.warp g.core slot).thread x.lane).pc = g.pc ∧ ((t.warp g.core slot).thread x.lane).st = .atPc) ∧
      (t.warp g.core slot).stopped = true ∧ (t.warp g.core slot).fault = some (recOf g slot true (c == 0x14) [] (v.warp g.core slot).fault) ∧
      Queued (v.core g.core).trapq
        { at_ := v.trapAt g.core [slot], cause := c, swnum := 0, tpc := g.pc, members := maskOf (g.execLanes slot), slots := [slot], bundle := bundleAt v g.core [slot] } (t.core g.core).trapq ∧ t.mem = v.mem

/-- TTQ's queue form: its lanes' 32-byte records. -/
def ttqReads (o : Op) : AccessForm :=
  { op := .ttq, size := 32, writes := false, reqs := fun g => g.execs.map (fun x => { x, form := formOf (o.mdBits 4 3), addr := baseAddr true g x, data := 0, cmp := 0 }) }

/-- THE RECORDS ARE READ AND QUEUED at the issue (12 R309, R318, R319), for a group of one warp: where every lane has read, the records of the lanes that are no helper are checked together; they join their launch's queue and their handles' sets by rising lane, or the warp is trapped with nothing queued. -/
structure RecordsQueued (F : AccessForm) (g : Grp) (u t : Mach) : Prop where
  queued : ∀ slot, slot < handlerSlot → g.replays = [] → (∀ x ∈ g.members, x.slot = slot ∧ x.lane < 32) → g.members ≠ [] → (∀ r ∈ (F.met g u).2, r.2.isDone = true) →
    let v := (F.met g u).1
    let recs := (g.ttqRead (F.met g u).2 slot).map (fun r => recWords r.2)
    (g.ttqCause v slot recs = 0 → ∃ y, Masked g v y ∧ t = g.afterReads (g.queueRecords y slot recs)) ∧
    (g.ttqCause v slot recs ≠ 0 → t.tasks = v.tasks ∧ t.mem = v.mem ∧ (t.warp g.core slot).stopped = true ∧ (t.warp g.core slot).faultmask = (v.warp g.core slot).faultmask ∧
      (t.warp g.core slot).v = (v.warp g.core slot).v ∧ (∀ x ∈ g.members, ((v.warp g.core slot).thread x.lane).st = .atPc → ((t.warp g.core slot).thread x.lane).pc = g.pc) ∧
      (g.ttqCause v slot recs ≠ 0x14 → Queued (v.core g.core).trapq
        { at_ := v.trapAt g.core [slot], cause := g.ttqCause v slot recs, swnum := 0, tpc := g.pc, members := maskOf (g.execLanes slot), slots := [slot], bundle := bundleAt v g.core [slot] }
        (t.core g.core).trapq))
  waits : ∀ slot, slot < handlerSlot → (∀ x ∈ g.members, x.slot = slot ∧ x.lane < 32) → failed (F.met g u).2 ≠ [] → (∀ r ∈ failed (F.met g u).2, r.2 ≠ .uncorr ∧ r.2.cause ≠ 0x0A) →
    (∀ x ∈ g.members, ((t.warp g.core slot).thread x.lane).st = .faultWait ∧ ((t.warp g.core slot).thread x.lane).pc = g.pc) ∧ t.tasks = (F.met g u).1.tasks ∧
    (t.warp g.core slot).faultmask = maskAfter g slot ((F.met g u).1.warp g.core slot).faultmask (maskOf ((failed (F.met g u).2).map (fun r => r.1.lane)))

/-- Every access form, with the checks of its lanes. -/
def memoryForm (i : Instr) : Option EffectForm :=
  match i with
  | .ttq o => some { own := fun g => ((ttqReads o).reqs g).flatMap (fun r => (g.place r.x r.form r.addr 32).1), post := RecordsQueued (ttqReads o) }
  | i => (accessForm i).map (fun F => { own := fun g => (F.reqs g).flatMap (fun r => (g.place r.x r.form r.addr F.size).1) ++ F.more g, post := AccessMade F })

/-- Blocks are what they were, in all but the fields that `cut` clears. -/
def BlocksBut (cut : Block → Block) (u t : Mach) : Prop := ∀ b, (t.blocks.get? b).map cut = (u.blocks.get? b).map cut

/-! ### Prefetch, fences, batches and byte-counting barriers (10 R281; 11 R291 to R296; 14 R374) -/

/-- An access of a member that the fence waits for is not done: any access, or for acquire any but a store. -/
def fenceWaits (g : Grp) (kind : Nat) (u : Mach) (x : Member) : Bool :=
  decide (∃ a ∈ u.accesses, a.2.core = g.core ∧ x ∈ a.2.members ∧ (kind ≠ 1 ∨ a.2.op ≠ .store))

/-- Sealed batches of a member that have not finished. -/
def Grp.unfinished (g : Grp) (x : Member) : Nat := ((g.warp x).thread x.lane).sealedB.length

/-- A thread whose open batch has been sealed; batches at the front with no copy left have finished. -/
def sealing (t : Thread) : Thread := ({ t with sealedB := t.sealedB ++ [t.openB], openB := { no := t.openB.no + 1, left := 0, status := 0 } } : Thread).finish.1

/-- Phase `b` of an object whose phase is `p` has completed: `p − b`, as a 32-bit number, lies from 1 to 2^31 − 1. -/
def passed (p b : Nat) : Bool := decide (0 < (BitVec.ofNat 32 p - BitVec.ofNat 32 b).toInt)

/-- Causes of a byte-counting barrier's operand. -/
def objectCauses (g : Grp) : List Nat :=
  g.execs.flatMap (fun x => [if g.scrBytes ≤ baseAddr false g x then causeSegLimit else if g.scrBytes < baseAddr false g x + 16 then causeExtent else 0, if baseAddr false g x % 16 = 0 then 0 else causeMisaligned])

def barrierForm : Instr → Option EffectForm
  | .pref _ => some (.mk noCauses (fun g u t => Signals g (g.afterReads u) t))
  | .fence o => some (.mk noCauses (fun g u t =>
      let held := g.execs.filter (fenceWaits g (o.mdBits 1 0) u)
      (held ≠ [] →
        Waits g (fun x => if fenceWaits g (o.mdBits 1 0) u x then some (.fence u.nextId) else none)
          { u with fences := u.fences.set u.nextId { kind := o.mdBits 1 0, scope := o.mdBits 8 6, core := g.core, pc := g.pc, members := held, flag := g.flag }, nextId := u.nextId + 1 } t) ∧
      (held = [] → Signals g u t)))
  | .cpseal _ => some (.mk noCauses (fun g u t => g.members.Nodup →
      t = { u with warps := t.warps, blocks := t.blocks } ∧
      ∀ c l, l < 128 → t.warp c l = { u.warp c l with threads := (t.warp c l).threads } ∧
        ∀ lane, (t.warp c l).thread lane = if c = g.core ∧ (⟨l, lane⟩ : Member) ∈ g.execs then sealing ((u.warp c l).thread lane) else (u.warp c l).thread lane))
  | .cpwait o => some (.mk noCauses (fun g u t =>
      let d : Option (Nat × Bool) := match o.dst with
        | .v n => some (n.toNat, !o.ctl.wbs)
        | _ => none
      let n := o.imm.toNat % 256
      ∃ v : Mach, v = (g.execs.filter (fun x => g.unfinished x ≤ n)).foldl (fun m x => m.modWarp g.core x.slot (fun w => w.takeStatus x.lane d)) u ∧
        Waits g (fun x => if g.unfinished x ≤ n then none else some (.cpwait n d)) v t))
  | .bcinitInit _ => some (.mk objectCauses (fun g u t =>
      ∃ v : Mach, v = (g.execs.filter (fun x => !g.helper x)).foldl (fun m x => m.scrPut (g.blkId x) (baseAddr false g x) 16 0) (g.afterReads u) ∧ Signals g v t ∧ BlocksBut (fun k => { k with scratch := [] }) u v ∧
        ∀ b a, (v.blocks.get? b).map (fun k => scrByte k a) = (u.blocks.get? b).map (fun k =>
            if g.execs.any (fun x => !g.helper x && g.blkId x == b && decide (baseAddr false g x ≤ a) && decide (a < baseAddr false g x + 16)) then 0 else scrByte k a)))
  | .bcinitArm _ => some (.mk objectCauses (fun g u t =>
      ∃ v : Mach, v = (g.execs.filter (fun x => !g.helper x)).foldl (fun m x => m.bcAdd (g.blkId x) (baseAddr false g x) (g.b32 x).toInt) (g.afterReads u) ∧ Signals g v t))
  | .bcwait _ => some (.mk objectCauses (fun g u t =>
      Waits g (fun x => if passed (u.bcObj (g.blkId x) (baseAddr false g x)).1 (g.b32 x).toNat then none else some (.bcwait (baseAddr false g x) (g.b32 x).toNat)) (g.afterReads u) t))
  | _ => none

/-! ### Barriers and events (14 R384, R386; 04 R99, R100) -/

/-- The event bit that a member names. -/
def eventOf (g : Grp) (x : Member) : Nat := (g.a32 x).toNat % 256

/-- A member's bit in its context's vector; the handler warp has no context. -/
def seen (g : Grp) (u : Mach) (x : Member) : Option Bool := (g.blockOf x).map (fun b => (u.tenant (g.m.tagOf b)).ev.getLsbD (eventOf g x))

/-- Each executing member that is no helper changes one bit of its context's vector, by rising lane; the blocks have made a visible effect. -/
def eventPost (f : Mach → Nat → BitVec 256 → Mach) (g : Grp) (u t : Mach) : Prop :=
  ∃ v : Mach, v = (g.blocksOf (g.byLane.filter (fun x => !g.helper x))).foldl Mach.visible
      (g.afterReads ((g.byLane.filter (fun x => !g.helper x)).foldl (fun m x => match g.blockOf x with
        | some b => f m (g.m.tagOf b) (1#256 <<< eventOf g x)
        | none => m) u)) ∧
    Signals g v t

/-- A block barrier: each executing member arrives, by rising lane; the members left waiting owe the flag. -/
def arrivePost (sync : Bool) (g : Grp) (u t : Mach) : Prop :=
  t = g.oweHeld ((g.byLane.filter (fun x => x.slot ≠ handlerSlot)).foldl (g.arriveOne (g.o.mdBits 5 2) sync) u)

def syncForm : Instr → Option EffectForm
  | .barSync _ => some (.mk noCauses (arrivePost true))
  | .barArrive _ => some (.mk noCauses (arrivePost false))
  | .evset _ => some (.mk noCauses (eventPost Mach.setEvents))
  | .evsetClr _ => some (.mk noCauses (eventPost Mach.clearEvents))
  | .evwait _ => some (.mk noCauses (fun g u t => Waits g (fun x => if (seen g u x).getD true then none else some (.evwait (eventOf g x))) (g.afterReads u) t))
  | .evtest _ => some (.mk noCauses (gives (fun g u x => if (seen g u x).getD false then 1 else 0)))
  | _ => none

/-! ### Tiles (11 R297 to R301) -/

/-- The value of a tile of a block as TILECFG leaves it: empty, with the registers that a and b give. -/
def configured (o : Op) (a b : Word) (t : Tile) : Tile :=
  { cols := (a >>> 20).setWidth 12, rows := (a >>> 12).setWidth 8, fmt := a.setWidth 8, sd := o.mdBit 0, recv := o.mdBit 1, pend := o.mdBit 2, base := b.setWidth 30, st := 0, wrfill := false,
    fill := .none, readers := t.readers }

/-- TILERST by the state: EMPTY, FILLING, READY, DRAINING. -/
def restored (t : Tile) : Tile :=
  match t.st.toNat with
  | 0 => { t with pend := false }
  | 1 => { t with st := 3 }
  | 2 => { t with st := if t.readers = 0 then 0 else 3 }
  | _ => t

/-- Of the blocks only one tile of some differs, each changed by a function of its own. -/
def TileChange (n : Nat) (f : Nat → Option (Tile → Tile)) (u t : Mach) : Prop :=
  t = { u with blocks := t.blocks } ∧
  BlocksBut (fun k => { k with tiles := [] }) u t ∧
  ∀ b j, t.tile b j = match (if j = n ∧ u.blocks.has b = true then f b else none) with
      | some h => h (u.tile b j)
      | none => u.tile b j

/-- The word of the tile that MOD `[3:0]` names, at the offset a. -/
def tileWordAt (g : Grp) (u : Mach) (x : Member) : Word := match u.blocks.get? (g.blkId x) with
  | some b => BitVec.ofNat 32 (scrRead b ((g.m.tile (g.blkId x) (g.o.mdBits 3 0)).base.toNat + (g.a32 x).toNat) 4)
  | none => 0

/-- One member's TILEWR: an empty tile begins its fill, and the word is written. -/
def writeTile (g : Grp) (m : Mach) (x : Member) : Mach :=
  let n := g.o.mdBits 3 0
  let t := m.tile (g.blkId x) n
  let m := if t.st = 0 then m.modTile (g.blkId x) n (fun t => { t with st := 1, pend := true, wrfill := true, fill := .tilewr }) else m
  m.scrPut (g.blkId x) (t.base.toNat + (g.a32 x).toNat) 4 (g.b32 x).toNat

def tileForm : Instr → Option EffectForm
  | .tilecfg o => some (.mk (tilecfgCauses o) (fun g u t =>
      TileChange (Dst.tileNo o.dst) (fun b => (g.oncePerBlock.find? (fun x => g.blkId x == b)).map (fun x => configured o (g.a32 x) (g.b32 x))) u t))
  | .tilerst o => some (.mk noCauses (fun g u t =>
      TileChange (o.mdBits 3 0) (fun b => if g.execs.any (fun x => x.slot != handlerSlot && g.blkId x == b) then some restored else none) u t))
  | .tilerd _ => some (.mk (fun g => g.execs.flatMap (fun x => (if tileFmt (g.tileLo x).fmt.toNat || (g.tileLo x).sd then 0 else causeIllegalFormat) :: (if (g.tileLo x).never then causeTileNever else 0) :: tileOffCauses g x)) (gives tileWordAt))
  | .tilewr o => some (.mk (fun g => g.execs.flatMap (fun x => (if (g.tileLo x).isReady then causeTileNever else 0) :: tileOffCauses g x)) (fun g u t =>
      let ws := g.execs.filter (fun x => !g.helper x && x.slot ≠ handlerSlot)
      ∃ v : Mach, v = (if o.mdBit 4 then (g.blocksOf ws).foldl (fun m b => m.modTile b (o.mdBits 3 0) (fun t => { t with fill := .written })) (ws.foldl (writeTile g) u) else ws.foldl (writeTile g) u) ∧
        Signals g (g.afterReads v) t))
  | _ => none

/-! ### Accumulators and products (12 R307 to R327) -/

/-- The handle that a member's first source gives. -/
def handleNo (g : Grp) (x : Member) : Nat := (g.a32 x).toNat

/-- What ACRD reads: the status word, or one word of the array. -/
def accWord (g : Grp) (_ : Mach) (x : Member) : Word := match g.acc? x with
  | some a => BitVec.ofNat 32 (if g.o.mdBit 0 then a.status else a.word ((g.b32 x).toNat / 4))
  | none => 0

/-- Each element of the array becomes 0, and SAT with it. -/
def zeroed (a : Acc) : Acc := { a with data := (List.range a.words).map (fun i => (i, 0)), sat := false }

/-- The handles that executing members name belong to their in-flight sets through this core cycle; nothing else differs (12 R309). -/
def Named (g : Grp) (u n : Mach) : Prop :=
  n = { u with blocks := n.blocks } ∧ BlocksBut (fun k => { k with accUse := [] }) u n ∧
  ∀ b k y, u.blocks.get? b = some k → n.blocks.get? b = some y →
    ∀ h, y.accUse.get? h = if g.execs.any (fun x => decide (x.slot ≠ handlerSlot) && g.blkId x == b && handleNo g x == h) then some (u.shard (shardOf g.core)).cycle else k.accUse.get? h

/-- MMA and MMAS: with steps left the operation joins the machine, both tiles gain a reader, the handle's set gains it, and the warp waits; with none left it is complete. -/
def mmaPost (tern : Bool) (g : Grp) (u t : Mach) : Prop :=
  if g.execs = [] then Signals g u t
  else
    let blk := g.blkId g.lead
    let h := handleNo g g.lead
    let sp := match g.o.dst with
      | .s n => n.toNat
      | _ => 0
    let i := u.prodInfo blk (g.o.mdBits 3 0) (g.o.mdBits 7 4) h tern
    let step := ((g.warp g.lead).sreg sp).toNat
    ∃ n : Mach, Named g { u with nextId := u.nextId + 1 } n ∧
    if i.steps ≤ step then Signals g (if g.o.ctl.wbs then n else n.modWarp g.core g.lead.slot (fun w => w.setS sp 0)) t
    else
      let x : MmaOp := { core := g.core, slot := g.lead.slot, blk, pc := g.pc, flag := g.flag, wbs := g.o.ctl.wbs, sp, ta := g.o.mdBits 3 0, tb := g.o.mdBits 7 4, h, mmas := tern, step, admitted := false, reserve := 0, interval := 0, since := some (u.shard (g.core / 16)).cycle, weight := i.cls + 1, engine := 0 }
      ∃ v : Mach, v = { n with blocks := v.blocks, mmas := u.mmas.set u.nextId x } ∧
        (∀ b j, v.tile b j = if b = blk ∧ u.blocks.has b = true
          then { u.tile b j with readers := (u.tile b j).readers + (if j = g.o.mdBits 3 0 then 1 else 0) + (if j = g.o.mdBits 7 4 then 1 else 0) } else u.tile b j) ∧
        BlocksBut (fun k => { k with accs := [], tiles := [] }) n v ∧
        (∀ b k, v.acc? b k = (u.acc? b k).map (fun a => if b = blk ∧ k = h then { a with inflight := a.inflight ++ [u.nextId] } else a)) ∧
        Waits g (fun _ => some (.mma u.nextId)) v t

def accForm : Instr → Option EffectForm
  | .acalloc o => some (.mk acallocCauses (fun g u t =>
      match (if g.execs = [] then none else (u.blocks.get? (g.blkId g.lead)).bind Block.freeHandle) with
      | none => Signals g u t
      | some h =>
        let c := (g.a32 g.lead).toNat
        let d : Option Nat := match o.dst with
          | .s n => if o.ctl.wbs then none else some n.toNat
          | _ => none
        let w : AccWait := { id := u.nextId, slot := g.lead.slot, h, cfg := c, units := ((bits c 23 16 + 1) * (bits c 15 8 + 1) * Fmt.width (bits c 7 0) + 32767) / 32768, dst := d }
        ∃ v : Mach, Waits g (fun _ => some (.acalloc u.nextId)) (({ u with nextId := u.nextId + 1 } : Mach).modBlock (g.blkId g.lead) (fun b => { b with accWait := b.accWait ++ [w] })) v ∧
          t = v.grantAcc g.core))
  | .acfree _ => some (.mk (heldCauses Grp.accDoers) (fun g u t =>
      ∃ n v : Mach, Named g u n ∧ v = { n with blocks := v.blocks, cores := v.cores } ∧ t = v.grantAcc g.core ∧ BlocksBut (fun k => { k with accs := [] }) n v ∧
        (∀ c, v.core c = if c = g.core ∧ g.oncePerBlock ≠ [] then { u.core c with dirty := true } else u.core c) ∧
        ∀ b h, v.acc? b h = if g.oncePerBlock.any (fun x => g.blkId x == b && handleNo g x == h) then none else u.acc? b h))
  | .acrd o => some (.mk (fun g => if o.mdBit 0 then heldCauses (·.execs) g else accOffCauses g) (fun g u t => ∃ n, Named g u n ∧ gives accWord g n t))
  | .acwr _ => some (.mk accOffCauses (fun g u t =>
      ∃ n v : Mach, Named g u n ∧ v = g.byLane.foldl (fun m x => m.modAcc (g.blkId x) (handleNo g x) (fun a => { a with data := a.data.set ((g.b32 x).toNat / 4) (g.c32 x) })) n ∧ Signals g (g.afterReads v) t))
  | .aczero _ => some (.mk (heldCauses Grp.accDoers) (fun g u t =>
      ∃ n v : Mach, Named g u n ∧ v = { n with blocks := v.blocks } ∧ Signals g v t ∧ BlocksBut (fun k => { k with accs := [] }) n v ∧
        ∀ b h, v.acc? b h = if g.oncePerBlock.any (fun x => g.blkId x == b && handleNo g x == h) then (u.acc? b h).map zeroed else u.acc? b h))
  | .acdrain o => some (.mk acdrainCauses (fun g u t =>
      ∃ n v : Mach, Named g u n ∧ v = g.oncePerBlock.foldl (fun m x =>
          (m.drainAll (g.blkId x) (Dst.tileNo o.dst) (handleNo g x) (o.mdBits 10 8) (o.mdBit 0)).1.modWarp g.core x.slot
            (fun w => w.raiseExc (m.drainAll (g.blkId x) (Dst.tileNo o.dst) (handleNo g x) (o.mdBits 10 8) (o.mdBit 0)).2)) n ∧
        Signals g v t))
  | .mma _ => some (.mk (mmaCauses false) (mmaPost false))
  | .mmas _ => some (.mk (mmaCauses true) (mmaPost true))
  | _ => none

/-- A thread of a warp after a release: those that `p` picks go on to the next instruction with the cycle as their stamp. -/
def released (p : TState → Bool) (cyc : Nat) (t : Thread) : Thread := if p t.st then { t with st := .atPc, pc := t.pc + 16, stamp := cyc } else t

/-- WHAT A DRAIN DOES (12 R326; 11 R299; 02 R52, R53, R60): every element of an accumulator is converted once, to the format of a tile of its shape, and stands at its place in the tile, in rows of 16-byte multiples; in a tile of scaled blocks each run of a payload's elements along a row is one block; the flags are those of every conversion. The tile is READY, its fill over; no other byte of the block's scratchpad and no other tile changes, and threads that wait for a byte count go on where a drain has changed it. -/
def Drains : Prop := ∀ (m : Mach) blk n h rm sat k a, m.blocks.get? blk = some k → m.acc? blk h = some a → a.m % 16 = 0 → a.n % 16 = 0 →
  let t := k.tiles.get n Tile.reset
  let r := m.drainAll blk n h rm sat
  let w := Fmt.width t.fmtN
  let p := Fmt.payload t.fmtN
  t.rows.toNat + 1 = a.m → t.cols.toNat + 1 = a.n →
  (∃ y, r.1.blocks.get? blk = some y ∧ y = { k with scratch := y.scratch, tiles := y.tiles } ∧
    (∀ j, j ≠ n → y.tiles.get j Tile.reset = k.tiles.get j Tile.reset) ∧ y.tiles.get n Tile.reset = { t with st := 2, pend := false, wrfill := false, fill := .none } ∧
    (∀ b, (b < t.base.toNat ∨ t.base.toNat + t.bytes ≤ b) → scrByte y b = scrByte k b) ∧
    (t.sd = false → tileFmt t.fmtN = true → (∀ i j, i < a.m → j < a.n →
        scrRead y (t.base.toNat + i * ((a.n * w + 127) / 128 * 16) + j / 16 * (2 * w)) (2 * w) / 2 ^ (w * (j % 16)) % 2 ^ w = (convert t.fmtN a.fmt rm sat (a.elem i j)).1 % 2 ^ w) ∧
      ∀ q, r.2.getLsbD q = true ↔ ∃ i j, i < a.m ∧ j < a.n ∧ (convert t.fmtN a.fmt rm sat (a.elem i j)).2.getLsbD q = true) ∧
    (t.sd = true → 16 ≤ p → (∀ i c, i < a.m → c < a.n / p →
        scrRead y (t.base.toNat + i * (a.n / p * 64) + c * 64) 64 = (blockOfValues t.fmtN rm ((List.range p).map (fun e => a.val i (c * p + e)))).1 % 256 ^ 64) ∧
      ∀ q, r.2.getLsbD q = true ↔ ∃ i c, i < a.m ∧ c < a.n / p ∧ (blockOfValues t.fmtN rm ((List.range p).map (fun e => a.val i (c * p + e)))).2.getLsbD q = true)) ∧
  (∀ j, j ≠ blk → r.1.blocks.get? j = m.blocks.get? j) ∧ r.1 = { m with blocks := r.1.blocks, warps := r.1.warps, copies := r.1.copies } ∧
  (∀ c l lane, l < 128 → lane < 32 → (∀ b q, ((m.warp c l).thread lane).st = .blocked (.bcwait b q) → q < 2 ^ 32) → (r.1.warp c l).thread lane =
    if l ≠ handlerSlot ∧ (m.warp c l).blk = blk ∧ m.warps.has (wk c l) = true
      then released (fun st => match st with
          | .blocked (.bcwait b q) => decide (1 ≤ (((r.1.bcObj blk b).1 : Int) - q) % 2 ^ 32 ∧ (((r.1.bcObj blk b).1 : Int) - q) % 2 ^ 32 < 2 ^ 31)
          | _ => false)
        (m.slc c (m.warp c l).slice).cyc ((m.warp c l).thread lane) else (m.warp c l).thread lane) ∧
  ∀ id, r.1.copies.get? id = (m.copies.get? id).map (fun c => if c.ended = true ∧ c.x = n then { c with rcvs := c.rcvs.map (fun v => if v.blk = some blk then { v with done := true } else v) } else c)

/-- Threads of a block that have not EXITED. -/
def liveOf (m : Mach) (b : Nat) : Nat := ((m.warps.filter (fun w => w.1 % 128 ≠ handlerSlot ∧ w.2.blk = b)).map (fun w => (w.2.threads.filter (fun t => t.2.st ≠ .exited)).length)).sum

/-- WHAT ONE ARRIVAL DOES (14 R384): the count it asks for is what the operand says, or the block's threads, with invalid, where that is more; the first of a phase fixes the expected count, 0 for the threads that have not EXITED, and one that asks for another count raises invalid; it is counted; when the count is reached the phase completes: the phase bit inverts, no arrivals are left and the waiting threads go on; otherwise a `.sync` leaves its thread BLOCKED at the barrier with the phase it waits in. -/
def Arrives : Prop := ∀ (g : Grp) (m : Mach) n sync (x : Member) k, m.blocks.get? (g.blkId x) = some k → x.slot < handlerSlot → x.lane < 32 → m.warps.has (wk g.core x.slot) = true → (m.warp g.core x.slot).threads.has x.lane = true →
  let b := g.blkId x
  let t := g.arriveOne n sync m x
  let all := (((m.bundles.get? k.bundle).bind (fun y => y.launches.get? k.launch)).map Launch.threads).getD 0
  let live := liveOf m b
  let count := if all < (g.a32 x).toNat then all else (g.a32 x).toNat
  let old := k.bars.get n Bar.reset
  let number (c : Nat) : Nat := if c = 0 then live else c
  let arrived := if old.fixed then old.arrived + 1 else 1
  let expect := if old.fixed then old.expect else count
  let bad := decide (all < (g.a32 x).toNat) || (old.fixed && decide (number count ≠ number old.expect))
  let v := m.modWarp g.core x.slot (fun w => { w with loc := w.loc ||| (if bad then 1 else 0), summary := w.summary ||| (if bad then 1 else 0) })
  let full := decide (number expect ≤ arrived)
  t = { m with warps := t.warps, blocks := t.blocks } ∧ (∀ j, j ≠ b → t.blocks.get? j = m.blocks.get? j) ∧
  (∃ y, t.blocks.get? b = some y ∧ y = { k with bars := y.bars } ∧
    ∀ j, y.bars.get j Bar.reset = if j = n then (if full then { old with arrived := 0, fixed := false, expect, phase := !old.phase } else { old with arrived, expect, fixed := true }) else k.bars.get j Bar.reset) ∧
  (full = false → sync = false → t.warps = v.warps) ∧
  (full = false → sync = true → (∀ c l, l < 128 → (c ≠ g.core ∨ l ≠ x.slot) → t.warp c l = v.warp c l) ∧ t.warp g.core x.slot = { v.warp g.core x.slot with threads := (t.warp g.core x.slot).threads } ∧
    ∀ lane, (t.warp g.core x.slot).thread lane = if lane = x.lane then { (m.warp g.core x.slot).thread lane with st := .blocked (.bar n old.phase), pc := g.pc } else (m.warp g.core x.slot).thread lane) ∧
  (full = true → ∀ c l lane, l < 128 → lane < 32 → (t.warp c l).thread lane = if l ≠ handlerSlot ∧ (m.warp c l).blk = b ∧ m.warps.has (wk c l) = true
    then released (fun st => match st with
        | .blocked (.bar j _) => j == n
        | _ => false) (m.slc c (m.warp c l).slice).cyc ((m.warp c l).thread lane) else (m.warp c l).thread lane)

/-! ### Copies at issue (11 R285 to R289, R302) -/

/-- How often a member is among those whose lanes make a copy. -/
def Grp.copiesBy (g : Grp) (c l lane : Nat) : Nat := if c = g.core then (g.copiers.filter (fun x => x.slot = l && x.lane = lane)).length else 0

/-- The source and destination records of a copy, the first record read standing for both where there is one. -/
def firstOf (rs : List (List Nat)) : List Nat := rs.headD []
def secondOf (rs : List (List Nat)) : List Nat := (rs.drop 1).headD (firstOf rs)

/-- A copy as its instruction makes it, for a member, before it moves anything. -/
structure CopyMade (g : Grp) (x : Member) (r d : List Nat) (dir b : Nat) (bar : Option Nat) (rcvs : List Rcv) (reading : Bool) (c : Copy) : Prop where
  place : c.blk = some (g.blkId x) ∧ c.part = g.part ∧ c.bundle = g.bundleId ∧ c.launch = g.launchId ∧ c.core = g.core ∧ c.warp = (g.warp x).num ∧ c.lane = x.lane ∧ c.shard = g.core / 16
  work : c.dir = dir ∧ c.rcd = r ∧ c.drec = d ∧ c.org = (List.range (Tlr.ndim r)).map (g.coord x) ∧ c.b = b ∧ c.x = g.o.mdBits 3 0 ∧ c.bar = bar ∧ c.rcvs = rcvs ∧ c.reading = reading
  fresh : c.started = false ∧ c.ended = false ∧ c.pos = 0 ∧ c.sub = 0 ∧ c.status = 0 ∧ c.waitSeq = none ∧ c.draft = none ∧ c.linked = none ∧ c.req = none
  batch : c.batch = ((g.warp x).thread x.lane).openB.no

/-- Copies join the machine, one for each copier in order; each counts in its thread's open batch; `tile` says what becomes of a tile. -/
structure CopiesSent (g : Grp) (u v : Mach) (made : Member → Copy → Prop) (tile : Nat → Nat → Tile → Tile) : Prop where
  outside : v = { u with copies := v.copies, nextId := u.nextId + g.copiers.length, warps := v.warps, blocks := v.blocks }
  made : ∀ i x, g.copiers[i]? = some x → ∃ c, v.copies.get? (u.nextId + i) = some c ∧ made x c
  others : ∀ k, (k < u.nextId ∨ u.nextId + g.copiers.length ≤ k) → v.copies.get? k = u.copies.get? k
  batches : ∀ c l, l < 128 → v.warp c l = { u.warp c l with threads := (v.warp c l).threads } ∧
    ∀ lane, (v.warp c l).thread lane = { (u.warp c l).thread lane with openB := { ((u.warp c l).thread lane).openB with left := ((u.warp c l).thread lane).openB.left + g.copiesBy c l lane } }
  tiles : ∀ b n, v.tile b n = if u.blocks.has b = true then tile b n (u.tile b n) else u.tile b n
  blocks : BlocksBut (fun k => { k with tiles := [], flushable := false, wdbase := 0, wdcnt := 0, wdexp := 0 }) u v

/-- CPY by its direction. -/
def cpyPost (g : Grp) (rs : List (List Nat)) (u t : Mach) : Prop :=
  let dir := g.o.mdBits 10 8
  let r := firstOf rs
  let count (b : Nat) : Nat := (g.copiers.filter (fun x => g.blkId x = b)).length
  ∃ v : Mach, CopiesSent g u v
      (fun x => CopyMade g x r (secondOf rs) dir (if dir = 4 then (g.b64 x).toNat else (g.b32 x).toNat) (if g.o.imm.getLsbD 0 then some (g.c32 x).toNat else none)
        (if dir = 2 then [{ core := g.core % 16, offered := true, blk := some (g.blkId x), done := false }] else []) (dir = 3))
      (fun b n t => if n = g.o.mdBits 3 0 ∧ 0 < count b then
          (if dir = 2 then { t with st := 1, pend := true, wrfill := false, fill := .copy } else if dir = 3 then { t with readers := t.readers + count b } else t) else t) ∧
    Signals g (g.freeCoords r v) t

/-- CPYM: the receivers are those cores of b that the record allows. -/
def cpymPost (g : Grp) (rs : List (List Nat)) (u t : Mach) : Prop :=
  let r := firstOf rs
  let set (x : Member) : Nat := (g.b32 x).toNat % 65536 &&& Tlr.mcast r
  ∃ v : Mach, CopiesSent g u v
      (fun x => CopyMade g x r r 7 (set x) none (((List.range 16).filter (fun k => (set x).testBit k)).map (fun k => { core := k, offered := false, blk := none, done := false })) false)
      (fun _ _ t => t) ∧
    Signals g (g.freeCoords r v) t

/-! ### Macro-instructions at issue (13 R329 to R332) -/

/-- Registers of a state block. -/
def blockSize (k : Mn) : Nat := if k = .rast ∨ k = .trav then 32 else 16

/-- With an executing member one operation joins the machine, with each lane's state block as its registers hold it, on the sequencer not fenced that has fewest; the executing members are held. -/
def macroPost (g : Grp) (rs : List (List Nat)) (u t : Mach) : Prop :=
  if g.execs = [] then Signals g u t
  else
    t = { u with macros := t.macros, nextId := u.nextId + 1, warps := t.warps, blocks := t.blocks } ∧ BlocksBut (fun k => { k with flushable := false }) u t ∧ HeldAt g g.execs (.macroOp u.nextId) u t ∧
    ∃ x : MacroOp, t.macros = u.macros.set u.nextId x ∧ x.core = g.core ∧ x.mn = g.mn ∧ x.o = g.o ∧ x.pc = g.pc ∧ x.flag = g.flag ∧ x.replays = g.replays ∧ x.members = g.members ∧ x.recs = rs ∧
      x.seq = u.seqFor g.core ∧ x.since = none ∧ x.mark = none ∧
      x.lanes = g.byLane.map (fun y =>
        { slot := y.slot, lane := y.lane, words := (List.range (blockSize g.mn)).map (fun i => g.vAt y (Op.vb g.o + i)), steps := 0, exc := 0, ending := none, emits := g.emitAt y })

/-! ### Claims and work graphs (12 R318, R320; 15 R396 to R403) -/

/-- One scalar result for the warp, at once, and the flag. -/
def givesScalar (g : Grp) (w : Word) (u t : Mach) : Prop :=
  ∃ v : Mach, v = (if g.o.ctl.wbs then u else u.deliver g.core g.o.dst [g.lead.slot] [(g.lead.slot, g.lead.lane, [w])]) ∧ Signals g v t

/-- TTQ.claim: the next record of the bundle's first matrix sub-launch that has one is queued and its index given; with none left, all ones. -/
def claimPost (g : Grp) (rs : List (List Nat)) (u t : Mach) : Prop :=
  if g.execs = [] then Signals g u t
  else match rs, g.m.claimFrom g.bundleId with
    | w :: _, some (k, l) =>
      givesScalar g (BitVec.ofNat 32 l.taken)
        ((u.addTask g.bundleId g.launchId g.core (g.blkId g.lead) w none (some (k, l.taken))).modLaunch g.bundleId k (fun l => { l with taken := l.taken + 1 })) t
    | _, _ => givesScalar g 0xFFFFFFFF u t

/-- The node that the lead's a names, and its free slots in a graph. -/
def nodeOf (g : Grp) : Nat := (g.a32 g.lead).toNat % 16

/-- The launch's graph with its free slots of one node, and the warp's reservation of them, changed. -/
def moveSlots (g : Grp) (n : Nat) (free res : Nat → Nat) (m : Mach) : Mach := g.modRes (g.modGraph m (fun w => { w with free := w.free.set n (free (w.free.get n 0)) })) g.lead n res

/-- WGRES: with k slots free and nobody waiting on the node they are reserved; with k = 0, by the no-wait form, or while the warp holds a reservation the count is given as it stands; otherwise the warp waits. -/
def wgresPost (g : Grp) (rs : List (List Nat)) (u t : Mach) : Prop :=
  if g.execs = [] then Signals g u t
  else
    let n := nodeOf g
    let k := (g.b32 g.lead).toNat
    let gr := g.graph rs
    let m := g.keepGraph rs (g.afterReads u)
    let give (m : Mach) : Prop := givesScalar g (BitVec.ofNat 32 ((m.warp g.core g.lead.slot).res.get n 0)) m t
    if k = 0 then give m
    else if k ≤ gr.free.get n 0 ∧ ∀ w ∈ gr.waits, w.node ≠ n then give (moveSlots g n (· - k) (· + k) m)
    else if g.o.mdBit 0 = true ∨ ∃ r ∈ (m.warp g.core g.lead.slot).res, r.2 ≠ 0 then give m
    else
      let w : WgWait := { id := m.nextId, core := g.core, slot := g.lead.slot, node := n, k, dst := Op.scalarDst g.o }
      Waits g (fun _ => some (.wgres m.nextId)) (g.modGraph { m with nextId := m.nextId + 1 } (fun v => { v with waits := v.waits ++ [w] })) t

/-- WGCANCEL: up to k reserved slots are free again, and what waits for them is served. -/
def wgcancelPost (g : Grp) (rs : List (List Nat)) (u t : Mach) : Prop :=
  if g.execs = [] then Signals g u t
  else
    let n := nodeOf g
    let m := g.keepGraph rs (g.afterReads u)
    let j := min (g.b32 g.lead).toNat ((m.warp g.core g.lead.slot).res.get n 0)
    let m := g.modGraph (g.modRes m g.lead n (· - j)) (fun w => { w with free := w.free.set n (w.free.get n 0 + j) })
    ∃ v : Mach, givesScalar g (BitVec.ofNat 32 ((m.warp g.core g.lead.slot).res.get n 0)) m v ∧ t = v.grantWg g.bundleId g.launchId

/-- WGCOMMIT: a record for each executing member that is no helper, by rising lane, each from a slot its warp has reserved of the node the warp names. -/
def wgcommitPost (g : Grp) (rs : List (List Nat)) (u t : Mach) : Prop :=
  if g.execs = [] then Signals g u t
  else
    let m := (g.blocksOf g.doers).foldl Mach.visible (g.doers.foldl (g.commitOne (g.graph rs)) (g.keepGraph rs u))
    let regs := if g.o.ctl.lastB then g.execSlots.flatMap (fun s => (List.range ((g.graph rs).nreg (g.nodeAt s))).map (fun i => (s, Src.first g.o.b + i, maskOf (g.execLanes s)))) else []
    Signals g (g.afterReads (m.clearReads g.core regs)) t

/-- RESUME: each lane takes a record of the source that MOD names, in lane order; a slot so freed serves what waits for it; the takes join the machine, and the members are held until they are carried out (15 R396). -/
def resumePost (g : Grp) (rs : List (List Nat)) (u t : Mach) : Prop :=
  if g.execs = [] then Signals g u t
  else
    let src := g.o.mdBits 4 3
    let m := if rs = [] then u else g.keepGraph rs u
    let v := (g.resumeTakes src m g.byLane).1.grantWg g.bundleId g.launchId
    let a : Access := { core := g.core, op := .resume (g.o.mdBits 2 0), dst := g.o.dst, wbs := g.o.ctl.wbs, flag := 15, members := g.execs, vals := [], excs := [], doneSlots := [],
                        takes := (g.resumeTakes src m g.byLane).2 }
    Waits g (fun _ => some .resume) { v with accesses := v.accesses.set v.nextId a, nextId := v.nextId + 1 } t

/-- WHAT THE LANES OF A RESUME TAKE (15 R396): a helper takes nothing; any other lane the first record of its source that its launch has left. -/
def LanesTake (w : Nat) : Prop := ∀ (g : Grp) (m : Mach) (x : Member) (r : List Member),
  let got := if g.helper x = true ∨ x.slot = handlerSlot then none else ((m.bundles.get? g.bundleId).bind (fun b => b.launches.get? g.launchId)).bind (fun l => l.takeRec w)
  (got = none → g.resumeTakes w m (x :: r) = ((g.resumeTakes w m r).1, { slot := x.slot, lane := x.lane, got := none } :: (g.resumeTakes w m r).2)) ∧
  ∀ q, got = some q → ∃ v : Mach, v = { m with bundles := v.bundles } ∧
    (∀ b, v.bundles.get? b = if b = g.bundleId then (m.bundles.get? b).map (fun y => { y with launches := y.launches.modify g.launchId (fun _ => q.2.2) }) else m.bundles.get? b) ∧
    g.resumeTakes w m (x :: r) = ((g.resumeTakes w v r).1, { slot := x.slot, lane := x.lane, got := some (q.1, q.2.1) } :: (g.resumeTakes w v r).2)

/-- Instructions that read records: CPY, CPYM, TTQ.claim, the macro-instructions, and those on work graphs. -/
def recordForm : Instr → Option ReadForm
  | .cpy _ => some (.mk cpyPre (fun g m => fetchRecords g.e g.core g.part 8 m (cpyVas g)) cpyOwn cpyPost)
  | .cpym _ => some (.mk cpymPre (fun g m => fetchRecords g.e g.core g.part 8 m (cpymVas g)) cpymOwn cpymPost)
  | .ttqClaim _ => some (.mk noCauses (fun g m => fetchRecords g.e g.core g.part 4 m (claimVas g)) claimOwn claimPost)
  | .wgres _ => some (.mk noCauses (Grp.readGraph true) wgresCauses wgresPost)
  | .wgcancel _ => some (.mk noCauses (Grp.readGraph true) Grp.graphCauses wgcancelPost)
  | .wgcommit _ => some (.mk noCauses (Grp.readGraph true) wgcommitCauses wgcommitPost)
  | .resume o => some (.mk noCauses (Grp.readGraph (o.mdBits 4 3 = 2)) Grp.graphCauses resumePost)
  | _ => none

/-- The eight macro-instructions. -/
def macroForm : Instr → Option ReadForm
  | .rast _ | .attr _ | .trav _ | .filt _ | .oblend _ | .dice _ | .samps _ | .bmatch _ => some (.mk macroPre (fun g m => fetchRecords g.e g.core g.part 8 m (macroVas g)) macroOwn macroPost)
  | _ => none

/-! ### CONT, the handler's window, ERET and TRAP (15 R391 to R394; 16 R405 to R413) -/

/-- The word a selector names in a stopped warp, or of the trap being served; of a warp that is not stopped, 0. -/
def windowWord (g : Grp) (u : Mach) (x : Member) : Word :=
  let s := (g.a32 x).toNat
  let w := u.warp g.core (s / 2 ^ 25)
  match s / 2 ^ 22 % 8, w.stopped with
  | 0, true => w.vreg (s % 4096) x.lane
  | 1, true => (w.thread x.lane).recWord (s % 4096)
  | 2, true => w.ctlWord ((u.core g.core).trapq.find? (fun t => t.slots.contains (s / 2 ^ 25))) (s % 4096)
  | 3, _ => match (u.core g.core).service with
    | some v => v.trap.word (s % 4096)
    | none => 0
  | _, _ => 0

/-- TAKING A TRAP: the warps named stop, and the trap joins its core's queue by its cycle and slice; nothing else changes (R405). -/
def TrapTaken (core cause swnum : Nat) (tpc : DWord) (lanes : Word) (slots : List Nat) (u t : Mach) : Prop :=
  t = { u with warps := t.warps, cores := t.cores } ∧
  (∀ c l, l < 128 → u.warps.has (wk c l) = true → t.warp c l = if c = core ∧ l ∈ slots then { u.warp c l with stopped := true } else u.warp c l) ∧
  (∀ c, t.core c = if c = core then { u.core c with trapq := (t.core c).trapq } else u.core c) ∧
  Queued (u.core core).trapq { at_ := u.trapAt core slots, cause, swnum, tpc, members := lanes, slots, bundle := bundleAt u core slots } (t.core core).trapq

def handlerForm : Instr → Option EffectForm
  | .cont _ => some (.mk (fun g => [g.m.quotaCause g.bundleId slipStore (g.m.slipUsed g.core) (g.slipSpills g.m) (g.doers.filter (fun x => x.slot ≠ handlerSlot)).length]) (fun g u t =>
      ∃ v w : Mach, v = (g.blocksOf g.doers).foldl Mach.visible ((g.doers.filter (fun x => x.slot ≠ handlerSlot)).foldl g.contOne u) ∧ w = v.signalSlots g.e g.core g.flag g.slots ∧
        t = g.execSlots.foldl (fun m s => m.exitMembers g.e g.core s (g.execLanes s)) w ∧ ∀ x ∈ g.execs, ended t g.core x))
  | .xrd _ => some (.mk selCauses (gives windowWord))
  | .xwr _ => some (.mk selCauses (fun g u t =>
      ∃ v : Mach, v = { u with cores := v.cores } ∧ Signals g (g.afterReads v) t ∧
        ∀ c, v.core c = if c = g.core then { u.core c with service := (u.core c).service.map (fun k => { k with xwr := k.xwr ++ g.execs.map (fun x => (g.a32 x, x.lane, g.b32 x)) }) } else u.core c))
  | .eretResume _ => some (.mk eretCauses (fun g u t => t = if g.execs = [] then u else Mach.eretResume g.e u g.core))
  | .eretKill _ => some (.mk eretCauses (fun g u t => t = if g.execs = [] then u else Mach.eretKill g.e u g.core))
  | .eretFdom _ => some (.mk eretCauses (fun g u t => t = if g.execs = [] then u else Mach.eretFdom g.e u g.core))
  | .trap o => some (.mk noCauses (fun g u t =>
      (g.execs = [] → t = u) ∧
      (g.execs ≠ [] → (∀ x ∈ g.execs, x.slot ≠ handlerSlot) → TrapTaken g.core 0 (o.imm.toNat % 256) g.pc (maskOf (g.execs.map (·.lane))) g.execSlots u t) ∧
      ((∃ x ∈ g.execs, x.slot = handlerSlot) → t = Mach.abandonService g.e u g.core [407, 0] g.pc)))
  | _ => none

/-! ## Events of the device -/

/-- An event: when it is due, and what its taking place does. -/
structure EventForm where
  due : State → Prop
  post : State → State → Prop

/-- Every event of a table that is due takes place. -/
def EventStatement (form : Instr → Option EventForm) : Prop := ∀ i F s, form i = some F → F.due s → ∃ t, exec i s = .next t ∧ F.post s t

/-- No event of a table takes place out of its turn. -/
def TurnStatement (form : Instr → Option EventForm) : Prop := ∀ i F s, form i = some F → ¬ F.due s → exec i s = .next s

/-- An event whose effect is a function of the state. -/
def EventForm.of (due : State → Prop) (f : State → State) : EventForm := { due, post := fun s t => t = f s }

/-- An event that moves the machine only, and its enabling condition. -/
def EventForm.move (due : State → Prop) (f : State → Mach) : EventForm := .of due (fun s => { s with m := f s })

/-! ### Links and arrivals (03 R68, R86; 11 R284; 14 R362) -/

/-- Of the whole state one LINKn word differs. -/
def LinkSet (f : Link → Link) (s t : State) : Prop :=
  t = { s with fw := { s.fw with links := t.fw.links } } ∧ ∀ n, t.fw.links.get n Link.reset = if n = s.subj.unit then f (s.fw.links.get n Link.reset) else s.fw.links.get n Link.reset

/-- A store of `n` bytes by a unit outside the cores: where the address translates they are in memory, and no other byte changes but for what the walker marks; where it does not, nothing is written. -/
def StoreAt (part va n v : Nat) (s t : State) : Prop :=
  (∀ m pa o, walkTo s.fw s.m part va .store none = (m, .ok pa o) →
    t = { s with m := { m with mem := t.m.mem, poison := t.m.poison, devlog := t.m.devlog } } ∧ memRead t.m.mem pa n = v % 256 ^ n ∧ ∀ a, (a < pa ∨ pa + n ≤ a) → memGet t.m.mem a = memGet m.mem a) ∧
  (∀ m c, walkTo s.fw s.m part va .store none = (m, .err c) → t = s)

def linkForm : Instr → Option EventForm
  | .linkTrained host peer lanes => some (.mk (fun s => s.subj.unit < 18) (fun s =>
      LinkSet (fun l => { l with up := true, host := decide (s.subj.unit = 0 ∨ (s.subj.unit = 1 ∧ host = true)), peer := peer % 2 ^ 14, lanes := min 4 lanes }) s))
  | .linkDown => some (.mk (fun s => s.subj.unit < 18) (LinkSet (fun l => { l with up := false })))
  | .crcErrorReplay => some (.mk (fun s => s.subj.unit < 18) (LinkSet (fun l => { l with retry := min (2 ^ 32 - 1) (l.retry + 1) })))
  | .peerCopyWrite va data => some (.mk (fun s => (s.fw.part s.subj.part).inUse = true) (fun s => StoreAt s.subj.part (va / 16 * 16) 16 data.toNat s))
  | .hostAccess va size (some v) => some (.mk (fun s => s.fw.binds.has s.subj.tag = true ∧ (size = 1 ∨ size = 2 ∨ size = 4 ∨ size = 8) ∧ va % size = 0)
      (fun s t => ∀ b, s.fw.binds.get? s.subj.tag = some b → StoreAt b.part va size v.toNat s t))
  | .hostAccess va size none => some (.mk (fun s => s.fw.binds.has s.subj.tag = true ∧ (size = 1 ∨ size = 2 ∨ size = 4 ∨ size = 8) ∧ va % size = 0)
      (fun s t => ∀ b, s.fw.binds.get? s.subj.tag = some b → t = { s with m := (walkTo s.fw s.m b.part va .load none).1 }))
  | _ => none

/-! ### Power (05 R118, R125 to R139; 07 R191) -/

/-- Of the whole state one shard differs. -/
def ShardSet (k : Nat) (f : Shard → Shard) (s t : State) : Prop :=
  t = { s with m := { s.m with shards := t.m.shards } } ∧ ∀ j, t.m.shard j = if j = k then f (s.m.shard j) else s.m.shard j

/-- A slice that has gone through the cycles of its shard so far, at its ratio now (05 R126, R134). -/
def caughtUp (e : Fw) (m : Mach) (c j : Nat) : Slice :=
  let n := (m.shard (c / 16)).pastOf c j
  let x := m.slc c j
  if j < 6 ∧ x.upto < n then { x with cyc := x.cyc + (ticksTo (m.ratioOf e c) n - ticksTo (m.ratioOf e c) x.upto), upto := n } else x

/-- One shard's timing changes: its slices have gone through their cycles so far, and others' stand as they were (05 R134). -/
def Retimed (e : Fw) (k : Nat) (u t : Mach) : Prop := ∀ c j, j < 8 → t.slc c j = if c / 16 = k then caughtUp e u c j else u.slc c j

/-- Of the whole state one shard differs, and the slice counts that its change of timing has caught up. -/
def ShardRetimed (k : Nat) (f : Shard → Shard) (s t : State) : Prop :=
  t = { s with m := { s.m with shards := t.m.shards, slices := t.m.slices } } ∧ (∀ j, t.m.shard j = if j = k then f (s.m.shard j) else s.m.shard j) ∧ Retimed s.fw k s.m t.m

/-- A partition's vote on a shard takes a value: the target is the highest point voted for, 0 with no valid vote; a higher one than the point in force asks for a rise, a lower one for a fall, and the point in force itself cancels what is under way (R129). -/
structure VoteSet (k p v : Nat) (s t : State) : Prop where
  others : t = { s with m := { s.m with shards := t.m.shards, slices := t.m.slices } } ∧ (∀ j, j ≠ k → t.m.shard j = s.m.shard j) ∧ Retimed s.fw k s.m t.m
  kept : t.m.shard k = { s.m.shard k with votes := (t.m.shard k).votes, optarget := (t.m.shard k).optarget, rising := (t.m.shard k).rising, settled := (t.m.shard k).settled }
  vote : ∀ q, q < 16 → voteOf (t.m.shard k).votes.toNat q = if q = p then v else voteOf (s.m.shard k).votes.toNat q
  most : ∀ q, q < 16 → 8 ≤ voteOf (t.m.shard k).votes.toNat q → min 5 (voteOf (t.m.shard k).votes.toNat q % 8) ≤ (t.m.shard k).optarget
  some : (t.m.shard k).optarget = 0 ∨ ∃ q, q < 16 ∧ 8 ≤ voteOf (t.m.shard k).votes.toNat q ∧ min 5 (voteOf (t.m.shard k).votes.toNat q % 8) = (t.m.shard k).optarget
  rise : (t.m.shard k).optarget ≠ (s.m.shard k).optarget → (s.m.shard k).opnow < (t.m.shard k).optarget → (t.m.shard k).rising = true ∧ (t.m.shard k).settled = false
  fall : (t.m.shard k).optarget ≠ (s.m.shard k).optarget → (t.m.shard k).optarget < (s.m.shard k).opnow → (t.m.shard k).rising = false
  back : (t.m.shard k).optarget ≠ (s.m.shard k).optarget → (t.m.shard k).optarget = (s.m.shard k).opnow → (t.m.shard k).rising = decide ((s.m.shard k).fcop < (t.m.shard k).optarget)

/-- Partitions that a droop event on a shard is charged to: those that took more tokens in this interval than in the last, or all that have cores there. -/
def chargedTo (s : State) (k : Nat) : List Nat :=
  let ps := (s.fw.parts.filter (fun p => p.2.inUse && decide (s.fw.coresOn p.1 k ≠ 0))).map Prod.fst
  let rose := ps.filter (fun p => decide ((s.m.shard k).delivPrev.get p 0 < (s.m.shard k).deliv.get p 0))
  if rose = [] then ps else rose

/-- THSTEP after a reading of the hottest core: up at once to the step reached, down by one after four readings 4 °C below its entry. -/
def throttled (step cool hot : Nat) : Nat × Nat :=
  let reached := if 106 ≤ hot then 4 else if 103 ≤ hot then 3 else if 100 ≤ hot then 2 else if 95 ≤ hot then 1 else 0
  let entry := if step = 0 then 0 else if step = 1 then 95 else if step = 2 then 100 else if step = 3 then 103 else 106
  if step < reached then (reached, 0) else if step = 0 ∨ entry < hot + 4 then (step, 0) else if cool = 3 then (step - 1, 0) else (step, cool + 1)

/-- The temperature of a shard's hottest core. -/
def hottestOf (m : Mach) (k : Nat) : Nat := ((List.range 16).map (fun i => (m.core (16 * k + i)).temp)).foldl max 0

/-- The rail of a shard at a boundary, below 110 °C: a rise whose regulator has settled takes hold, and the cycle of the boundary is LASTRISE; a fall's voltage follows once FC has fallen and 40,000 cycles have gone since LASTRISE; else both stay (05 R127, R128). -/
structure RailAt (now : Nat) (h y : Shard) : Prop where
  rises : h.rising = true → h.settled = true → y.opnow = h.optarget ∧ y.fcop = h.optarget ∧ y.lastrise = now ∧ y.rising = false ∧ y.settled = false
  falls : h.rising = false → h.optarget < h.opnow → h.fcop = h.optarget → h.lastrise + 40000 ≤ now → y.opnow = h.optarget ∧ y.fcop = h.fcop ∧ y.lastrise = h.lastrise ∧ y.rising = h.rising ∧ y.settled = h.settled
  stays : ¬ (h.rising = true ∧ h.settled = true) → ¬ (h.rising = false ∧ h.optarget < h.opnow ∧ h.fcop = h.optarget ∧ h.lastrise + 40000 ≤ now) →
    y.opnow = h.opnow ∧ y.fcop = h.fcop ∧ y.lastrise = h.lastrise ∧ y.rising = h.rising ∧ y.settled = h.settled
  target : y.optarget = h.optarget

/-- The band of a channel after a reading: up to the highest band whose threshold is reached, down past every band whose threshold it is 3 °C below (05 R136). -/
def bandAfter (b hot : Nat) : Nat :=
  let entry (j : Nat) : Nat := if j = 1 then 85 else if j = 2 then 95 else 105
  let reached := ([3, 2, 1].find? (fun j => decide (entry j ≤ hot))).getD 0
  if b < reached then reached else ([3, 2, 1].find? (fun j => decide (j ≤ b ∧ entry j < hot + 3))).getD 0

/-- The share of its channels' bandwidth that a partition has, in 1/64, rounded down (05 R137). -/
def bandShare (e : Fw) (p : Nat) : Nat :=
  let cs := (List.range 32).filter (fun c => (e.part p).chans.testBit c)
  (cs.map (fun c => match e.bands.get c 0 with
    | 0 => 64 | 1 => 60 | 2 => 44 | _ => 16)).sum / cs.length

/-- At shard 0's boundary the channels' bands follow their readings, and where one has moved every bound tenant's page holds its partition's cores and share (05 R136, R137; 03 R73). -/
structure BandsRead (chans : List Nat) (s t : State) : Prop where
  bands : ∀ c, c < 32 → s.fw.bands.get c 0 ≤ 3 → t.fw.bands.get c 0 = match chans[c]? with
    | some hot => bandAfter (s.fw.bands.get c 0) hot
    | none => s.fw.bands.get c 0
  same : t.fw.bands = s.fw.bands → t.m.tenants = s.m.tenants
  moved : t.fw.bands ≠ s.fw.bands → s.fw.binds.sorted = true → ∀ g, (s.fw.binds.has g = false → t.m.tenant g = s.m.tenant g) ∧
    ∀ b, s.fw.binds.get? g = some b → (t.m.tenant g) = { s.m.tenant g with vcp := (t.m.tenant g).vcp } ∧
      ∀ o, (t.m.tenant g).word o = if o = 0x28 then ((coresOf (s.fw.part b.part).cores).length * 2 ^ 55 + bandShare t.fw b.part * 2 ^ 48) % 2 ^ 64 else (s.m.tenant g).word o

/-- The boundary of a control interval on a shard; the temperatures are the readings that came with it, and a core with none keeps its last (log 66); at 110 °C issue stops there and the rail goes to point 0 (05 R139; log 66); what running reservations have left is lost (12 R322; log 109). -/
structure Boundary (k : Nat) (temps chans : List Nat) (s t : State) : Prop where
  rail : hottestOf t.m k < 110 → RailAt (20000 * (s.m.shard k).interval) (s.m.shard k) (t.m.shard k)
  shard : t.m.shard k = { s.m.shard k with
    interval := (t.m.shard k).interval, boundary := (t.m.shard k).boundary, acct := (t.m.shard k).acct, nodes := (t.m.shard k).nodes, deliv := (t.m.shard k).deliv, delivPrev := (t.m.shard k).delivPrev,
    drooped := (t.m.shard k).drooped, dsteps := (t.m.shard k).dsteps, thstep := (t.m.shard k).thstep, cool := (t.m.shard k).cool, stopped := (t.m.shard k).stopped, opnow := (t.m.shard k).opnow,
    fcop := (t.m.shard k).fcop, optarget := (t.m.shard k).optarget, lastrise := (t.m.shard k).lastrise, rising := (t.m.shard k).rising, settled := (t.m.shard k).settled }
  bands : t = { s with fw := { s.fw with bands := t.fw.bands }, m := t.m } ∧ (k ≠ 0 → t.fw.bands = s.fw.bands ∧ t.m.tenants = s.m.tenants) ∧ (k = 0 → BandsRead chans s t)
  lost : (∀ id, t.m.mmas.get? id = (s.m.mmas.get? id).map (fun x => if x.core / 16 = k then { x with reserve := 0 } else x)) ∧
    (∀ id, t.m.tasks.get? id = (s.m.tasks.get? id).map (fun x => if x.core / 16 = k then { x with reserve := 0 } else x)) ∧
    ∀ id, t.m.macros.get? id = (s.m.macros.get? id).map (fun x => if x.core / 16 = k then { x with mark := x.mark.map (fun y => { y with set := false }) } else x)
  logged : let on := (s.fw.parts.filter (fun p => p.2.inUse && decide (s.fw.coresOn p.1 k ≠ 0))).map Prod.fst
    ((t.m.shard k).thstep = (s.m.shard k).thstep → t.m.devlog = s.m.devlog ∧ t.m.parts = s.m.parts) ∧
    ((t.m.shard k).thstep ≠ (s.m.shard k).thstep → t.m.devlog = s.m.devlog ++ [[138, k, (t.m.shard k).thstep, hottestOf t.m k]] ∧
      (s.fw.parts.sorted = true → ∀ p, t.m.part p = if p ∈ on then { s.m.part p with errlog := (s.m.part p).errlog ++ [[138, k, (t.m.shard k).thstep, hottestOf t.m k]] } else s.m.part p))
  interval : (t.m.shard k).interval = (s.m.shard k).interval + 1 ∧ (t.m.shard k).boundary = 20000 * (s.m.shard k).interval
  account : (t.m.shard k).acct = (s.m.shard k).supply.toNat * 625 ∧ (t.m.shard k).deliv = [] ∧ (t.m.shard k).delivPrev = (s.m.shard k).deliv ∧ (t.m.shard k).nodes = s.m.nodeShares s.fw k
  droop : (t.m.shard k).drooped = [] ∧ ∀ p, p < 16 → (t.m.shard k).dstep p = if p ∈ (s.m.shard k).drooped then (s.m.shard k).dstep p else (s.m.shard k).dstep p - 1
  heat : ((t.m.shard k).thstep, (t.m.shard k).cool) = throttled (s.m.shard k).thstep (s.m.shard k).cool (hottestOf t.m k)
  trip : (110 ≤ hottestOf t.m k → (t.m.shard k).stopped = true ∧ (t.m.shard k).opnow = 0 ∧ (t.m.shard k).fcop = 0 ∧ (t.m.shard k).optarget = 0) ∧
    (hottestOf t.m k < 110 → (t.m.shard k).stopped = (s.m.shard k).stopped)
  cores : ∀ c, t.m.core c = if c / 16 = k
    then { s.m.core c with temp := min 255 (temps.getD (c % 16) (s.m.core c).temp), droop := min 255 (s.m.core c).droopNow, droopNow := 0, bank := 0 } else s.m.core c
  slices : ∀ c j, j < 8 → t.m.slc c j = if c / 16 = k then { caughtUp s.fw s.m c j with mark := (s.m.slc c j).mark.map (fun x => { x with set := false }) } else s.m.slc c j
  others : ∀ j, j ≠ k → t.m.shard j = s.m.shard j
  machine : t.m = { s.m with
    shards := t.m.shards, cores := t.m.cores, slices := t.m.slices, mmas := t.m.mmas, tasks := t.m.tasks, macros := t.m.macros, tenants := t.m.tenants, parts := t.m.parts, devlog := t.m.devlog }

def powerForm : Instr → Option EventForm
  | .votesWrite v => some (.mk (fun s => s.subj.part < 16) (fun s => VoteSet s.subj.shard s.subj.part v.toNat s))
  | .regulatorSettled => some (.mk (fun s => (s.m.shard s.subj.shard).rising = true) (fun s => ShardSet s.subj.shard (fun h => { h with settled := true }) s))
  | .frequencyFall => some (.mk (fun s => (s.m.shard s.subj.shard).optarget < (s.m.shard s.subj.shard).opnow ∧ (s.m.shard s.subj.shard).optarget ≠ (s.m.shard s.subj.shard).fcop)
      (fun s => ShardRetimed s.subj.shard (fun h => { h with fcop := h.optarget }) s))
  | .droopEvent => some (.mk (fun s => s.subj.core / 16 = s.subj.shard ∧ s.fw.parts.sorted = true) (fun s t =>
      (∀ p, p < 16 → (t.m.shard s.subj.shard).dstep p = if p ∈ chargedTo s s.subj.shard then min 4 ((s.m.shard s.subj.shard).dstep p + 1) else (s.m.shard s.subj.shard).dstep p) ∧
      (∀ c, t.m.core c = if c = s.subj.core then { s.m.core c with droopNow := (s.m.core c).droopNow + 1 } else s.m.core c) ∧
      (∀ j, j ≠ s.subj.shard → t.m.shard j = s.m.shard j) ∧ Retimed s.fw s.subj.shard s.m t.m ∧
      t = { s with m := { s.m with shards := t.m.shards, cores := t.m.cores, slices := t.m.slices } }))
  | .controlIntervalBoundary temps chans => some (.mk (fun s => s.subj.shard < 16 ∧ 20000 * (s.m.shard s.subj.shard).interval ≤ (s.m.shard s.subj.shard).cycle) (fun s => Boundary s.subj.shard temps chans s))
  | _ => none

/-! ### Reset and the life cycle (03 R65, R66, R85; 05 R139) -/

/-- A reset: all is as at power-on but for the fuses, the board's envelope, the image that was to come into force, the device error log, and the model's own fields. -/
structure ResetTo (life : LifeState) (log : List (List Nat)) (s t : State) : Prop where
  machine : t.m = { Mach.reset with devlog := log, fresh := s.m.fresh }
  image : t.fw.image = s.fw.imageNext.getD s.fw.image ∧ t.fw.imageNext = none ∧ t.fw.rollback.toNat = max s.fw.rollback.toNat (s.fw.imageNext.getD s.fw.image).version.toNat
  fuses : t.fw = { Fw.reset with life, image := t.fw.image, rollback := t.fw.rollback, fenced := s.fw.fenced, capreg := s.fw.capreg, envelope := s.fw.envelope }
  own : t = { s with fw := t.fw, m := t.m }

/-- Transitions that a command may make (R65). -/
def mayMove (a b : LifeState) (k : LifeKey) (released : Bool) : Prop :=
  (a = .manufactured ∧ b = .provisioned ∧ k = .factory) ∨ (a = .provisioned ∧ b = .deployed ∧ k = .owner) ∨ (a = .deployed ∧ b = .returned ∧ (k = .owner ∨ released = true)) ∨
  (a = .returned ∧ b = .provisioned ∧ k = .factory) ∨ (a ≠ .retired ∧ b = .retired)

def resetForm : Instr → Option EventForm
  | .reset => some (.mk (fun _ => True) (fun s => ResetTo s.fw.life s.m.devlog s))
  | .thermalTrip => some (.mk (fun s => (s.m.shard s.subj.shard).stopped = true) (fun s => ResetTo s.fw.life (s.m.devlog ++ [[139, s.subj.shard]]) s))
  | .lifecycleTransition b k r => some (.mk (fun s => mayMove s.fw.life b k r) (fun s => ResetTo b s.m.devlog s))
  | _ => none

/-! ### The Tension Ring (07 R190 to R195) -/

/-- A station serves a partition where a block of it is on its core, or the handler there is in service (07 R192; 16 R404). -/
def stationed (m : Mach) (c p : Nat) : Prop :=
  ((m.core c).service.isSome = true ∧ (m.core c).handlerDead = false) ∨ ∃ b ∈ m.blocks, b.2.core = c ∧ (b.2.st = .resident ∨ b.2.st = .saving) ∧ m.partOf b.2 = p

/-- The reservations that stand at a station, in the order of their marking cycles, slices before sequencers within one: of each slice and of each macro-instruction the mark that has not been served, with its price and its thread's bundle (07 R192, R194, R195). -/
def ReservesStand (m : Mach) (core : Nat) : Prop :=
  (m.reserves core).Pairwise (fun x y => x.cycle * 8 + x.rank ≤ y.cycle * 8 + y.rank) ∧ ∀ r, r ∈ m.reserves core ↔
    (∃ j x, j < 6 ∧ (m.slc core j).mark = some x ∧ x.set = false ∧ r = ⟨x.cycle, j, .inl j, x.price, (m.blockOf core x.oldest.slot).map (·.bundle)⟩) ∨
    ∃ y x, y ∈ m.macros ∧ y.2.core = core ∧ y.2.mark = some x ∧ x.set = false ∧ r = ⟨x.cycle, 6 + y.2.seq, .inr y.1, x.price, (m.blockOf core x.oldest.slot).map (·.bundle)⟩

/-- The accounts that a reservation's price is taken from: its bundle's chain, and its partition's root (07 R191). -/
def reserveAccounts (e : Fw) (m : Mach) (p : Nat) (r : Reserve) : List Nat :=
  (match r.bundle with
    | some b => ((m.bundles.get? b).map (fun x => x.chain.dropLast.map (fun a => a * 16 + x.part))).getD []
    | none => []) ++ [(e.part p).root * 16 + p]

/-- The price of a reservation can be taken whole at a station: the packet still holds it beside what later stations wait for, and so do the interval's account, every node's, and the slew limit (07 R191, R192; 05 R131). -/
def mayTake (e : Fw) (k i p : Nat) (m : Mach) (r : Reserve) : Prop :=
  r.price + m.owedLater k i ≤ (m.shard k).packet ∧ r.price ≤ (m.shard k).acct ∧ (∀ a ∈ reserveAccounts e m p r, r.price ≤ (m.shard k).nodes.get a 0) ∧ r.price ≤ m.slewRoom e p k

/-- It is taken: every account is charged, the delivery counts it, and the mark's tokens are set aside. -/
structure ReserveTaken (e : Fw) (k i p : Nat) (r : Reserve) (u v : Mach) : Prop where
  only : v = { u with shards := v.shards, slices := v.slices, macros := v.macros } ∧ (∀ j, j ≠ k → v.shard j = u.shard j) ∧
    v.shard k = { u.shard k with packet := (u.shard k).packet - r.price, acct := (u.shard k).acct - r.price, nodes := (v.shard k).nodes, deliv := (v.shard k).deliv }
  nodes : (reserveAccounts e u p r).Nodup → ∀ a, (v.shard k).nodes.get a 0 = if a ∈ reserveAccounts e u p r then (u.shard k).nodes.get a 0 - r.price else (u.shard k).nodes.get a 0
  deliv : ∀ q, (v.shard k).deliv.get q 0 = if q = p then (u.shard k).deliv.get p 0 + r.price else (u.shard k).deliv.get q 0
  slice : ∀ j, r.who = .inl j → j < 8 → v.macros = u.macros ∧ ∀ c l, l < 8 → v.slc c l = if c = 16 * k + i ∧ l = j then { u.slc c l with mark := (u.slc c l).mark.map (fun x => { x with set := true }) } else u.slc c l
  macro_ : ∀ n, r.who = .inr n → v.slices = u.slices ∧ ∀ id, v.macros.get? id = (u.macros.get? id).map (fun x => if id = n then { x with mark := x.mark.map (fun y => { y with set := true }) } else x)

/-- The reservations of a station, in their order, each served where its price can be taken whole at its turn, and left standing otherwise (07 R192). -/
inductive ReservesServed (e : Fw) (k i p : Nat) : List Reserve → Mach → Mach → Prop
  | done (u : Mach) : ReservesServed e k i p [] u u
  | serves (r : Reserve) (rs : List Reserve) (u v t : Mach) : mayTake e k i p u r → ReserveTaken e k i p r u v → ReservesServed e k i p rs v t → ReservesServed e k i p (r :: rs) u t
  | waits (r : Reserve) (rs : List Reserve) (u t : Mach) : ¬ mayTake e k i p u r → ReservesServed e k i p rs u t → ReservesServed e k i p (r :: rs) u t

/-- RING_PASS at a station: the reservations that stand there are served in their order, then the bank is refilled from the packet, within every limit; the next station's pass is next. -/
structure Refilled (k : Nat) (s t : State) : Prop where
  order : ∀ p, s.fw.ownerOf (16 * k + ((s.m.shard k).pass - 1)) = some p → ReservesStand s.m (16 * k + ((s.m.shard k).pass - 1))
  frame : t = { s with m := { s.m with shards := t.m.shards, slices := t.m.slices, macros := t.m.macros, cores := t.m.cores } } ∧ (∀ j, j ≠ k → t.m.shard j = s.m.shard j) ∧
    ∀ c, c ≠ 16 * k + ((s.m.shard k).pass - 1) → t.m.core c = s.m.core c
  pass : (t.m.shard k).pass = (s.m.shard k).pass + 1
  free : (∀ p, s.fw.ownerOf (16 * k + ((s.m.shard k).pass - 1)) = some p → ¬ stationed s.m (16 * k + ((s.m.shard k).pass - 1)) p) → ShardSet k (fun h => { h with pass := h.pass + 1 }) s t
  bank : ∀ p, s.fw.ownerOf (16 * k + ((s.m.shard k).pass - 1)) = some p → stationed s.m (16 * k + ((s.m.shard k).pass - 1)) p → ∃ v, ReservesServed s.fw k ((s.m.shard k).pass - 1) p (s.m.reserves (16 * k + ((s.m.shard k).pass - 1))) s.m v ∧
    let c := 16 * k + ((s.m.shard k).pass - 1)
    let h := v.shard k
    let n := min (min (h.drawcap.toNat - v.asides c - (v.core c).bank) (h.packet - v.owedLater k (h.pass - 1)))
      (min (min h.acct (h.nodes.get ((s.fw.part p).root * 16 + p) 0)) (v.slewRoom s.fw p k))
    t.m.slices = v.slices ∧ t.m.macros = v.macros ∧ t.m.core c = { v.core c with bank := (v.core c).bank + n } ∧ (t.m.shard k).packet = h.packet - n ∧ (t.m.shard k).acct = h.acct - n ∧
    (t.m.shard k).nodes.get ((s.fw.part p).root * 16 + p) 0 = h.nodes.get ((s.fw.part p).root * 16 + p) 0 - n ∧ (t.m.shard k).deliv.get p 0 = h.deliv.get p 0 + n

/-- The first record of a queue that is spilled comes on chip. -/
def chipped {α : Type} (spill : α → Option Int) (out : α → α) : List α → List α
  | [] => []
  | x :: r => if (spill x).isSome then out x :: r else x :: chipped spill out r

def ringForm : Instr → Option EventForm
  | .revolutionStart => some (.mk (fun s => s.subj.shard < 16 ∧ ((s.m.shard s.subj.shard).pass = 0 ∨ (s.m.shard s.subj.shard).pass = 17) ∧ 32 * (s.m.shard s.subj.shard).rev ≤ (s.m.shard s.subj.shard).cycle ∧
        (s.m.shard s.subj.shard).cycle < 20000 * (s.m.shard s.subj.shard).interval)
      (fun s => ShardSet s.subj.shard (fun h => { h with rev := h.rev + 1, pass := 1, packet := min h.supply.toNat h.acct }) s))
  | .ringPass => some (.mk (fun s => s.subj.shard < 16 ∧ 1 ≤ (s.m.shard s.subj.shard).pass ∧ (s.m.shard s.subj.shard).pass ≤ 16 ∧
        32 * ((s.m.shard s.subj.shard).rev - 1) + 2 * ((s.m.shard s.subj.shard).pass - 1) ≤ (s.m.shard s.subj.shard).cycle ∧ (s.m.shard s.subj.shard).cycle < 20000 * (s.m.shard s.subj.shard).interval)
      (fun s => Refilled s.subj.shard s))
  | .queueRefill (.copyReq c) => some (.mk (fun s => (∃ id, firstSpilled (fun (c : Copy) => c.spill) (s.m.copyQ s.subj.bundle s.subj.launch c) = some id) ∧ s.m.copyUsed c < copyStore.cap) (fun s t =>
      t = { s with m := { s.m with copies := t.m.copies } } ∧
      ∀ id, t.m.copies.get? id = if firstSpilled (fun (c : Copy) => c.spill) (s.m.copyQ s.subj.bundle s.subj.launch c) = some id then (s.m.copies.get? id).map (fun x => { x with spill := none }) else s.m.copies.get? id))
  | .queueRefill (.tileTask c) => some (.mk (fun s => (∃ id, firstSpilled (fun (t : Task) => t.spill) (s.m.liveQ s.subj.bundle s.subj.launch c) = some id) ∧ s.m.taskUsed c < taskStore.cap) (fun s t =>
      t = { s with m := { s.m with tasks := t.m.tasks } } ∧
      ∀ id, t.m.tasks.get? id = if firstSpilled (fun (t : Task) => t.spill) (s.m.liveQ s.subj.bundle s.subj.launch c) = some id then (s.m.tasks.get? id).map (fun x => { x with spill := none }) else s.m.tasks.get? id))
  | .queueRefill .slip => some (.mk (fun s => ∃ b l x, s.m.bundles.get? s.subj.bundle = some b ∧ b.launches.get? s.subj.launch = some l ∧ l.slips.find? (fun r => r.spill.isSome) = some x ∧ s.m.slipUsed x.core < slipStore.cap)
      (fun s t => t = { s with m := s.m.modLaunch s.subj.bundle s.subj.launch (fun l => { l with slips := chipped (fun r => r.spill) (fun r => { r with spill := none }) l.slips }) }))
  | .queueRefill (.workGraph n) => some (.mk (fun s => ∃ b l x, s.m.bundles.get? s.subj.bundle = some b ∧ b.launches.get? s.subj.launch = some l ∧
        l.wgRecs.find? (fun r => r.node = n && r.spill.isSome) = some x ∧ s.m.wgUsed x.core < wgStore.cap)
      (fun s t => t = { s with m := s.m.modLaunch s.subj.bundle s.subj.launch (fun l => { l with
        wgRecs := chipped (fun r => if r.node = n then r.spill else none) (fun r => { r with spill := none }) l.wgRecs }) }))
  | .queueRefill (.geometry n) => some (.mk (fun s => ∃ b x, s.m.bundles.get? s.subj.bundle = some b ∧ (b.bins.get n []).find? (fun r => r.spill.isSome) = some x ∧ s.m.geoRoom x.shard = true)
      (fun s t => t = { s with m := s.m.modBundle s.subj.bundle (fun b => { b with bins := b.bins.set n (chipped (fun r => r.spill) (fun r => { r with spill := none }) (b.bins.get n [])) }) }))
  | .reservationMark pc => some (.mk
      (fun s => (∃ x, s.m.macros.get? s.subj.id = some x ∧ x.mark = none ∧ ∃ c, x.since = some c ∧ c + 32 ≤ (s.m.shard (x.core / 16)).cycle) ∨
        (s.m.macros.get? s.subj.id = none ∧ ∃ k, s.m.markPick s.subj.core s.subj.unit = some k ∧ pcKey ((s.m.warp s.subj.core (k / 32 % 128)).thread (k % 32)).pc = pcKey pc))
      (fun s t =>
        (∀ x, s.m.macros.get? s.subj.id = some x → t = { s with m := { s.m with macros := s.m.macros.set s.subj.id { x with
          mark := some ⟨x.pc, x.members.headD { slot := 0, lane := 0 }, (s.m.shard (x.core / 16)).cycle, stepPrice x.mn, false⟩ } } }) ∧
        (s.m.macros.get? s.subj.id = none → t = { s with m := { s.m with slices := t.m.slices } } ∧ ∀ k, s.m.markPick s.subj.core s.subj.unit = some k →
          (t.m.slc s.subj.core s.subj.unit).mark = some ⟨((s.m.warp s.subj.core (k / 32 % 128)).thread (k % 32)).pc, { slot := k / 32 % 128, lane := k % 32 },
            (s.m.shard (s.subj.core / 16)).cycle, s.m.priceAt s.fw s.subj.core s.subj.unit { slot := k / 32 % 128, lane := k % 32 }, false⟩)))
  | _ => none

/-! ### Fault records and replays (10 R271 to R273; 03 R82) -/

/-- The reading word and the room of a tenant's fault ring (03 R82). -/
def ringTakes (t : Tenant) : Prop :=
  12 ≤ t.word 0x40 % 64 ∧ t.word 0x40 % 64 ≤ 20 ∧ (t.word 0x48 % 2 ^ 32 + 2 ^ 32 - t.word 0x50 % 2 ^ 32) % 2 ^ 32 ≠ 2 ^ (t.word 0x40 % 64 - 5)

/-- The four words of a fault record, and where the ring takes them. -/
def recordOf (r : FRec) : List Nat :=
  [r.draft.page * 2 ^ 12, r.draft.cause * 2 ^ 56 + r.draft.kind * 2 ^ 52 + r.draft.core * 2 ^ 44 + r.draft.wslot * 2 ^ 37 + r.draft.lanes.toNat, r.seq % 2 ^ 64, r.draft.tag]
def ringPlace (t : Tenant) : Nat := t.word 0x40 / 2 ^ 12 % 2 ^ 52 * 2 ^ 12 + 32 * (t.word 0x48 % 2 ^ 32 % 2 ^ (t.word 0x40 % 64 - 5))

/-- A warp none of whose instruction's records is outstanding: its waiting threads stand at the instruction again, with the cycle as their stamp; a fetch of constants, or of the instruction, issues whole (10 R272, R273, R467). -/
def Replayed (f : FaultRec) (cyc : Nat) (w v : Warp) : Prop :=
  (∀ l, v.thread l = if laneBit f.members l = true ∧ (w.thread l).st = .faultWait then { w.thread l with st := .atPc, pc := f.pc, stamp := cyc } else w.thread l) ∧
  (f.whole = true → v = { w with threads := v.threads, fault := none, faultmask := w.faultmask ||| f.execs }) ∧ (f.whole = false → v = { w with threads := v.threads })

/-- A warp with one record the fewer. -/
def without (q : Nat) (w : Warp) : Warp := { w with fault := w.fault.map (fun f => { f with seqs := f.seqs.filter (· ≠ q) }) }

def faultForm : Instr → Option EventForm
  | .faultRecordAppend => some (.mk (fun s => (∃ d f, s.m.waitingDraft s.subj.part = some (d, f)) ∧ (s.m.part s.subj.part).faultQ.length < 4096) (fun s t =>
      ∀ d f, s.m.waitingDraft s.subj.part = some (d, f) →
        (t.m.part s.subj.part).faultQ = (s.m.part s.subj.part).faultQ ++ [{ draft := d, seq := (s.m.part s.subj.part).faultSeq, copied := false }] ∧
        (t.m.part s.subj.part).faultSeq = (s.m.part s.subj.part).faultSeq + 1 ∧ (∀ p, p ≠ s.subj.part → t.m.part p = s.m.part p) ∧ t.m.mem = s.m.mem))
  | .faultResolve => some (.mk (fun s => ∃ r, (s.m.part s.subj.part).faultQ.find? (fun r => r.seq = s.subj.id) = some r ∧ recordTranslates s.fw s.m s.subj.part r.draft = true) (fun s t =>
      (t.m.part s.subj.part).faultQ = (s.m.part s.subj.part).faultQ.filter (fun r => r.seq ≠ s.subj.id) ∧ (∀ p, p ≠ s.subj.part → t.m.part p = s.m.part p) ∧
      (∀ c l, l < 128 → s.m.partOfWarp (s.m.warp c l) = some s.subj.part → s.m.warps.has (wk c l) = true → (∃ f, (s.m.warp c l).fault = some f ∧ s.subj.id ∈ f.seqs) →
        ((without s.subj.id (s.m.warp c l)).replayDue = none → t.m.warp c l = without s.subj.id (s.m.warp c l)) ∧
        (∀ f, (without s.subj.id (s.m.warp c l)).replayDue = some f → Replayed f (s.m.slc c (s.m.warp c l).slice).cyc (without s.subj.id (s.m.warp c l)) (t.m.warp c l))) ∧
      (∀ c l, l < 128 → (∀ f, (s.m.warp c l).fault = some f → s.subj.id ∉ f.seqs) → t.m.warp c l = s.m.warp c l) ∧
      t = { s with m := { s.m with parts := t.m.parts, warps := t.m.warps, blocks := t.m.blocks } }))
  | .faultRecordCopy => some (.mk (fun s => ringTakes (s.m.tenant s.subj.tag) ∧ ∃ r m, s.m.uncopied s.fw s.subj.part s.subj.tag = some r ∧
        writeRecord s.fw s.m s.subj.part (ringPlace (s.m.tenant s.subj.tag)) (recordOf r) = (m, true))
      (fun s t => ∀ r m, s.m.uncopied s.fw s.subj.part s.subj.tag = some r → writeRecord s.fw s.m s.subj.part (ringPlace (s.m.tenant s.subj.tag)) (recordOf r) = (m, true) →
        t.m.mem = m.mem ∧ t.m.msi = s.m.msi ++ [(s.subj.tag, 1)] ∧
        (t.m.part s.subj.part).faultQ = (s.m.part s.subj.part).faultQ.map (fun x => if x.seq = r.seq then { x with copied := true } else x) ∧
        (t.m.tenant s.subj.tag).word 0x48 % 2 ^ 32 = (s.m.tenant s.subj.tag).word 0x48 % 2 ^ 32 + 1 - (if (s.m.tenant s.subj.tag).word 0x48 % 2 ^ 32 = 2 ^ 32 - 1 then 2 ^ 32 else 0)))
  | .faultReplay => some (.mk (fun s => ∃ f, (s.m.warp s.subj.core s.subj.unit).replayDue = some f) (fun s t => ∀ f, (s.m.warp s.subj.core s.subj.unit).replayDue = some f →
      t = { s with m := { s.m with warps := t.m.warps } } ∧ (∀ c l, l < 128 → (c ≠ s.subj.core ∨ l ≠ s.subj.unit) → s.subj.unit < 128 → t.m.warp c l = s.m.warp c l) ∧
      Replayed f (s.m.slc s.subj.core (s.m.warp s.subj.core s.subj.unit).slice).cyc (s.m.warp s.subj.core s.subj.unit) (t.m.warp s.subj.core s.subj.unit)))
  | .memoryAccessComplete => some (.mk (fun s => ∃ a, s.m.accesses.get? s.subj.id = some a)
      (fun s t => ∀ a, s.m.accesses.get? s.subj.id = some a → t = { s with m := deliverAccess s.fw s.m s.subj.id a }))
  | _ => none

/-! ### Microcode, self-test, wipes, plug-ins (03 R64, R66, R67, R83 to R85; 12 R328) -/

/-- The image passes firmware's check: LENGTH bytes, its signature (ECDSA over P-384 with SHA-384, in the standards' terms: log 95), a version not below the fuses', zero reserved words, and only extensible slots. -/
def imageGood (i : UcodeImage) (e : Fw) : Prop :=
  i.sig.length = 12 ∧ i.rsv.length = 16 ∧ i.body.length = i.length.toNat ∧
  ecdsaOk Config.fusedKey (sha384 (ucodeSigned i)) (wordsNat (i.sig.take 6)) (wordsNat (i.sig.drop 6)) = true ∧ e.rollback.toNat ≤ i.version.toNat ∧ (∀ r ∈ i.rsv, r = 0) ∧ i.slots.toNat < 2 ^ 96

/-- An image as it waits to be applied: the header's words, and for each slot the price and the step price that its bytes state last. -/
def Awaited (i : UcodeImage) (y : Image) : Prop :=
  y.version = i.version ∧ y.statever = i.statever ∧ y.slots = i.slots ∧
  ∀ k, y.prices.get? k = ((Config.statedPrices i.body).filter (fun p => p.1 = k)).getLast?.map Prod.snd ∧ y.steps.get? k = ((Config.statedSteps i.body).filter (fun p => p.1 = k)).getLast?.map Prod.snd

/-- Every core but the fenced ones has the accepted image once this core has. -/
def lastToSwap (s : State) : Prop := ∀ c, c < 256 → c ∈ s.fw.fenced ∨ (s.m.core c).swapped = true ∨ c = s.subj.core

/-- The command has ended: BUSY is 0, RESULT is written, and vector 0 of the PF is signalled, after whatever else was (R69). -/
def CommandEnded (result : Nat) (s t : State) : Prop :=
  t.fw.win.busy = false ∧ t.fw.win.result = BitVec.ofNat 8 result ∧ t.fw.win.cmd = .none ∧ ∃ q, t.m.msi = s.m.msi ++ q ++ [(0, 0)]

/-- A page or a table leaves its frames for others: its bytes, and the entry that names it, which may stand among them. -/
structure Moved (x : MoveSrc) (frame : Nat) (s v : State) : Prop where
  bytes : ∀ i, i < 4096 * x.frames → (∀ a w, x.entry = some (a, w) → ¬ (a ≤ 4096 * x.frame + i ∧ 4096 * x.frame + i < a + 8)) →
    memGet v.m.mem (4096 * frame + i) = memGet s.m.mem (4096 * x.frame + i)
  entry : ∀ a w, x.entry = some (a, w) →
    memRead v.m.mem (if x.frame ≤ a / 4096 ∧ a / 4096 < x.frame + x.frames then a - 4096 * x.frame + 4096 * frame else a) 8 = putBits w 51 12 frame % 2 ^ 64
  root : (v.fw.part s.subj.part).xlat = if x.entry = none then 4096 * frame else (s.fw.part s.subj.part).xlat
  wiped : ∀ a, x.frame ≤ a / 4096 → a / 4096 < x.frame + x.frames → memGet v.m.mem a = 0
  elsewhere : ∀ a, ¬ (x.frame ≤ a / 4096 ∧ a / 4096 < x.frame + x.frames) → ¬ (frame ≤ a / 4096 ∧ a / 4096 < frame + x.frames) →
    (∀ b w, x.entry = some (b, w) → ¬ (b ≤ a ∧ a < b + 8)) → memGet v.m.mem a = memGet s.m.mem a
  owners : ∀ f, v.fw.owners.get? f = if frame ≤ f ∧ f < frame + x.frames then some ((s.fw.owners.get? x.frame).getD s.subj.part)
    else if x.frame ≤ f ∧ f < x.frame + x.frames then none else s.fw.owners.get? f
  wipes : v.fw.wipes = s.fw.wipes ++ (List.range x.frames).map (fun i => (WipeRes.page (x.frame + i), s.subj.part))
  moves : (v.fw.part s.subj.part).moves.length ≤ (s.fw.part s.subj.part).moves.length
  buffers : ∀ c, c < 256 → (s.fw.part s.subj.part).cores.testBit c = true → (v.m.core c).tlb = [] ∧ ∀ k, (v.m.core c).tlb1.get k [] = []
  others : ∀ q, q ≠ s.subj.part → v.fw.part q = s.fw.part q

/-- What a virtual address and a level name may move to frames of its partition: memory it keeps, whole, aligned, and apart from where it stands. -/
structure movable (va frame : Nat) (x : MoveSrc) (s : State) : Prop where
  named : s.moveSrc s.subj.part va s.subj.unit = some x
  aligned : frame % x.frames = 0 ∧ (s.fw.part s.subj.part).xlat % 4096 = 0
  kept : ∀ i, i < x.frames → s.fw.keeps s.m s.subj.part (frame + i) = true ∧ s.fw.standsFor s.subj.part (x.frame + i) = true
  apart : frame + x.frames ≤ x.frame ∨ x.frame + x.frames ≤ frame

/-- The move of a page or table that has begun and not ended. -/
def pendingMove (va frame : Nat) (s : State) : Option PageMove := (s.fw.part s.subj.part).moves.find? (fun v => v.va = va && v.unit = s.subj.unit && v.frame = frame)

/-- A pending move whose entry is one aligned word outside the frames it goes to. -/
structure sound (v : PageMove) : Prop where
  apart : v.frame + v.src.frames ≤ v.src.frame ∨ v.src.frame + v.src.frames ≤ v.frame
  entry : ∀ a w, v.src.entry = some (a, w) → a % 8 = 0 ∧ ¬ (v.frame ≤ a / 4096 ∧ a / 4096 < v.frame + v.src.frames)

/-- A move begins (03 R79): the page's entry is marked not present, no core holds its translation, its new frames are the partition's, and nothing is copied yet. -/
structure MoveBegun (va : Nat) (x : MoveSrc) (frame : Nat) (s t : State) : Prop where
  entry : ∀ a w, x.entry = some (a, w) → memRead t.m.mem a 8 = w - w % 2 ∧ ∀ b, (b < a ∨ a + 8 ≤ b) → memGet t.m.mem b = memGet s.m.mem b
  pending : t.fw.part s.subj.part = { s.fw.part s.subj.part with
    pool := (s.fw.part s.subj.part).pool.filter (fun f => decide (¬ (frame ≤ f ∧ f < frame + x.frames))), moves := (s.fw.part s.subj.part).moves ++ [{ va, unit := s.subj.unit, frame, src := x }] }
  owners : ∀ f, t.fw.owners.get? f = if frame ≤ f ∧ f < frame + x.frames then some ((s.fw.owners.get? x.frame).getD s.subj.part) else s.fw.owners.get? f
  buffers : ∀ c, c < 256 → (s.fw.part s.subj.part).cores.testBit c = true → (t.m.core c).tlb = [] ∧ ∀ k, (t.m.core c).tlb1.get k [] = []
  others : (∀ q, q ≠ s.subj.part → t.fw.part q = s.fw.part q) ∧ t = { s with fw := { s.fw with parts := t.fw.parts, owners := t.fw.owners }, m := { s.m with mem := t.m.mem, cores := t.m.cores } }

/-- A tenant's plug-in, called on its firmware core, is contained: the default policy takes its place, the core goes on in the scheduler, and the partition's log says so (03 R64). -/
def unplugged (code : Nat) (s t : State) : Prop := ∀ b, s.fw.binds.get? s.subj.tag = some b →
  t = { s with fw := { s.fw with binds := t.fw.binds, fwCores := t.fw.fwCores }, m := { s.m with parts := t.m.parts } } ∧
  (∀ g, t.fw.binds.get? g = if g = s.subj.tag then some { b with noPlugin := true, first := none } else s.fw.binds.get? g) ∧
  (∀ c, t.fw.fwCores.get? c = if c = 1 + b.part % 3 then some { s.fw.fwCore c with mode := .supervisor, pmp := [], plugin := none } else s.fw.fwCores.get? c) ∧
  (t.m.part b.part).errlog = (s.m.part b.part).errlog ++ [[64, s.subj.tag, code]] ∧ ∀ p, p ≠ b.part → t.m.part p = s.m.part p

/-- The tenant's plug-in has been called on its partition's firmware core, of which something holds. -/
def plugDue (p : FwCore → Prop) (s : State) : Prop := ∃ b, s.fw.binds.get? s.subj.tag = some b ∧ (s.fw.fwCore (1 + b.part % 3)).plugin = some s.subj.tag ∧ p (s.fw.fwCore (1 + b.part % 3))

/-- A wipe's log entry: the rule, the resource, and the partition it leaves or goes to. -/
def wipeEntry (r : WipeRes) (part : Nat) : List Nat := match r with
  | .device => [67, 0, 0, part]
  | .core c => [67, 1, c, part]
  | .page f => [67, 2, f, part]

/-- The work on an engine has stopped: no product on it is admitted, no tile task runs on it; what ran waits with its progress. -/
structure EngineStopped (core eng : Nat) (u t : Mach) : Prop where
  products : u.mmas.sorted = true → ∀ id x, u.mmas.get? id = some x → ∃ y, t.mmas.get? id = some y ∧
    (y = x ∨ (x.core = core ∧ x.admitted = true ∧ x.engine = eng ∧ y = { x with admitted := false, reserve := 0, since := some (u.shardCycle core) })) ∧
    ¬ (y.core = core ∧ y.admitted = true ∧ y.engine = eng)
  tasks : u.tasks.sorted = true → ∀ id x, u.tasks.get? id = some x → ∃ y, t.tasks.get? id = some y ∧
    (y = x ∨ (x.core = core ∧ x.st = .running ∧ x.engine = eng ∧ y = { x with st := .waiting, reserve := 0, since := some (u.shardCycle core), rcd := x.rcd.set 3 (x.step * 2 ^ 32) })) ∧
    ¬ (y.core = core ∧ y.st = .running ∧ y.engine = eng)
  others : t.warps = u.warps ∧ t.blocks = u.blocks ∧ t.parts = u.parts ∧ t.cores = u.cores ∧ t.shards = u.shards

def firmwareForm : Instr → Option EventForm
  | .microcodeLoad i => some (.mk (fun s => s.subj.unit = if s.fw.win.funcmode.getLsbD 1 then 1 else 0) (fun s t =>
      (imageGood i s.fw → (∃ y, Awaited i y ∧ t.fw = { s.fw with imageNext := some y }) ∧ (∀ c, (t.m.core c).swapped = false) ∧
        t.m = { s.m with cores := t.m.cores }) ∧
      (¬ imageGood i s.fw → t = { s with m := { s.m with devlog := s.m.devlog ++ [[84, 0x3F, i.version.toNat]] } })))
  | .microcodeApplyLive => some (.mk (fun s => s.subj.core < 256 ∧ ∃ i, s.fw.imageNext = some i ∧ i.statever = s.fw.image.statever) (fun s t => ∀ i, s.fw.imageNext = some i →
      (lastToSwap s → t.fw.image = i ∧ t.fw.imageNext = none ∧ t.fw.rollback.toNat = max s.fw.rollback.toNat i.version.toNat ∧ ∀ c, (t.m.core c).swapped = false) ∧
      (¬ lastToSwap s → t.fw = s.fw ∧ ∀ c, t.m.core c = if c = s.subj.core then { s.m.core c with swapped := true } else s.m.core c)))
  | .sequencerCheckFail => some (.mk (fun s => s.subj.unit % 2 ∉ (s.m.core s.subj.core).seqFence) (fun s t =>
      (∀ c, t.m.core c = if c = s.subj.core then { s.m.core c with seqFence := (s.m.core c).seqFence ++ [s.subj.unit % 2] } else s.m.core c) ∧
      (∀ p, s.fw.ownerOf s.subj.core = some p → t.m.devlog = s.m.devlog ∧ ∀ q, t.m.part q = if q = p then { s.m.part p with errlog := (s.m.part p).errlog ++ [[84, 0x3F, s.subj.core, s.subj.unit % 2]] } else s.m.part q) ∧
      (s.fw.ownerOf s.subj.core = none → t.m.parts = s.m.parts ∧ t.m.devlog = s.m.devlog ++ [[84, 0x3F, s.subj.core, s.subj.unit % 2]]) ∧
      (∀ id, t.m.macros.get? id = (s.m.macros.get? id).map (fun x => if x.core = s.subj.core ∧ x.seq = s.subj.unit % 2 then { x with seq := 1 - s.subj.unit % 2 } else x)) ∧
      t = { s with m := { s.m with cores := t.m.cores, devlog := t.m.devlog, macros := t.m.macros, parts := t.m.parts } }))
  | .engineSelfTest f => some (.mk (fun s => s.subj.core < 256 ∧ s.subj.unit < 4) (fun s t =>
      let k := s.subj.core / 16
      ∃ v : Mach, EngineStopped s.subj.core s.subj.unit s.m v ∧
      (∀ i, i < 64 → (t.m.core s.subj.core).fence.getLsbD i = ((s.m.core s.subj.core).fence.getLsbD i || (i / 16 == s.subj.unit && f.getLsbD (i % 16)))) ∧
      (t.m.core s.subj.core).engSteps.get s.subj.unit 0 = 0 ∧ (t.m.shard k).acct = (s.m.shard k).acct - Config.selfTestEnergy ∧
      (t.m.shard k).stfail.toNat = (if f = 0 then (s.m.shard k).stfail.toNat else min (2 ^ 32 - 1) ((s.m.shard k).stfail.toNat + 1)) ∧
      t.m.devlog = v.devlog ++ ((List.range 16).filter (fun i => f.getLsbD i)).map (fun i => [328, s.subj.core, s.subj.unit, i]) ∧
      t = { s with m := { v with cores := t.m.cores, shards := t.m.shards, devlog := t.m.devlog } }))
  | .wipeComplete r => some (.mk (fun s => ∃ p, (r, p) ∈ s.fw.wipes) (fun s t => ∃ p, (r, p) ∈ s.fw.wipes ∧
      let v : State := { s with fw := { s.fw with wipes := s.fw.wipes.erase (r, p) }, m := { s.m with devlog := s.m.devlog ++ [wipeEntry r p] } }
      (r = .device → t = { v with fw := { v.fw with win := { v.fw.win with busy := false } } }) ∧
      (r ≠ .device → (∀ q, s.fw.win.cmd = .resize q → t = v.settleResize q) ∧
        (∀ q, s.fw.win.cmd = .destroy q → (∀ x ∈ v.fw.wipes, x.2 ≠ q) → CommandEnded 0 v t ∧ t.fw.parts = v.fw.parts) ∧ (∀ q, s.fw.win.cmd = .destroy q → (∃ x ∈ v.fw.wipes, x.2 = q) → t = v) ∧
        ((∀ q, s.fw.win.cmd ≠ .resize q ∧ s.fw.win.cmd ≠ .destroy q) → t = v))))
  | .pageMove va frame => some (.mk (fun s => s.m.mem.sorted = true ∧ ((∃ v, pendingMove va frame s = some v ∧ sound v) ∨ (pendingMove va frame s = none ∧ ∃ x, movable va frame x s))) (fun s t =>
      (∀ v, pendingMove va frame s = some v → ∃ u, Moved v.src v.frame s u ∧ t = u.settleResize s.subj.part) ∧
      (pendingMove va frame s = none → ∀ x, movable va frame x s →
        (x.entry ≠ none → MoveBegun va x frame s t) ∧ (x.entry = none → ∃ u, Moved x frame s u ∧ t = u.settleResize s.subj.part))))
  | .pluginFault => some (.mk (fun s => plugDue (fun k => s.subj.unit ≠ 0 ∨ ∀ r ∈ k.pmp, ¬ (r.2.1 ≤ s.subj.id ∧ s.subj.id < r.2.2)) s) (unplugged 0))
  | .pluginTimeout => some (.mk (plugDue (fun k => k.called + 50 < k.timer)) (unplugged 1))
  | _ => none

/-! ### The host management window (03 R68 to R71, R77, R78, R81) -/

/-- A failed command changes no partition or binding: beside RESULT and the signal nothing differs (R69). -/
def CommandFails (result : Nat) (s t : State) : Prop :=
  t = { s with fw := { s.fw with win := { s.fw.win with busy := false, result := BitVec.ofNat 8 result, cmd := .none } }, m := { s.m with msi := s.m.msi ++ [(0, 0)] } }

/-- A command by its causes: while BUSY is 1 it is discarded and DROP is set; where causes hold the lowest result is written; with none it takes effect (R69). -/
def Command (cause : Nat → State → Prop) (does : State → State → Prop) (s t : State) : Prop :=
  (s.fw.win.busy = true → t = { s with fw := { s.fw with win := { s.fw.win with drop := true } } }) ∧
  (s.fw.win.busy = false → ∀ r, cause r s → (∀ q, q < r → ¬ cause q s) → CommandFails r s t) ∧
  (s.fw.win.busy = false → (∀ r, ¬ cause r s) → does s t)

/-- Some core of a mask is fenced or another partition's. -/
def coreHeld (s : State) (p mask : Nat) : Prop :=
  ∃ c, c < 256 ∧ mask.testBit c = true ∧ (c ∈ s.fw.fenced ∨ ∃ q ∈ s.fw.parts, q.2.inUse = true ∧ q.1 ≠ p ∧ q.2.cores.testBit c = true)

/-- Some channel of a mask is another partition's, or one that another is taking in a RESIZE. -/
def chanHeld (s : State) (p chans : Nat) : Prop :=
  ∃ q ∈ s.fw.parts, q.2.inUse = true ∧ q.1 ≠ p ∧ (q.2.chans &&& chans ≠ 0 ∨ ∃ r, q.2.resize = some r ∧ r.chans &&& chans ≠ 0)

/-- The larger of a share that a partition has and one that it is taking in a RESIZE. -/
def larger (has : PartCfg → Nat) (takes : Resize → Nat) (q : PartCfg) : Nat := max (has q) ((q.resize.map takes).getD 0)

/-- The tier-0 or tier-2 shares of all partitions together would exceed the device (R70). -/
def sharesOver (s : State) (p t0 t2 : Nat) : Prop := 256 < t0 + ((s.fw.others p).map (larger (·.t0) (·.t0))).sum ∨ Config.tier2GiB < t2 + ((s.fw.others p).map (larger (·.t2) (·.t2))).sum

/-- Results 2 to 4, 8 and 9, which CREATE and RESIZE share (R69). -/
def takeCause (w : DWord) (r : Nat) (s : State) : Prop :=
  let v := s.fw.win
  (r = 2 ∧ coreHeld s v.part v.mask) ∨ (r = 3 ∧ chanHeld s v.part v.chans) ∨ (r = 4 ∧ sharesOver s v.part v.t0 v.t2) ∨ (r = 8 ∧ (v.partRsv = true ∨ pcmdRsv w = true)) ∨
  (r = 9 ∧ (v.mask = 0 ∨ v.chans = 0))

/-- The root RCB of R70: LEVEL 0, INHERIT 0x07FF, PRIO 15, FDOM 0, PLACEBOUND 4; CORES, GRANULES 64 a core, TOKENS cores × 72 × 20,000; QSLOTS, DEPCTR, DEADLINE; the spill ring of 2^26 bytes and the save area. -/
def rootImage (c : PartCfg) (cores : Nat) : List Nat :=
  [0x8F004000000007FF, 0, cores * 2 ^ 55 + (64 * cores) * 2 ^ 40 + cores * 72 * 20000, c.qslots * 2 ^ 48 + c.depctr * 2 ^ 32 + c.deadline, c.spill + 26, c.savearea, 0, 0]

/-- CREATE: the partition is as the window's registers describe it, its root is registered and the device's copy of it with it, the frames it takes are its own or firmware's for it, and no other partition differs. -/
structure Created (l : Layout) (s t : State) : Prop where
  ended : CommandEnded 0 s t
  made : let v := s.fw.win
    t.fw.part v.part = { PartCfg.unused with
      inUse := true, cores := v.mask, chans := v.chans, t0 := v.t0, t2 := v.t2, qslots := v.qslots, depctr := v.depctr, deadline := v.deadline, slice := v.slice, slew := v.slew,
      tokens := (coresOf v.mask).length * 72 * 20000, root := regionAt v.part, spill := ringAt v.part, savearea := saveAt v.part, dump := dumpAt v.part, xlat := l.xlat, pool := l.pool }
  others : ∀ q, q ≠ s.fw.win.part → t.fw.part q = s.fw.part q ∧ t.m.part q = s.m.part q
  work : (∀ b ∈ s.m.bundles, b.2.part ≠ s.fw.win.part) → t.m.part s.fw.win.part = Part.reset ∧ t.m.msi = s.m.msi ++ [(0, 0)] ∧ t.m.bundles = s.m.bundles ∧ t.m.warps = s.m.warps ∧ t.m.blocks = s.m.blocks
  root : ∃ x, t.m.rcbs.get? ((t.fw.part s.fw.win.part).root * 16 + s.fw.win.part) = some x ∧ x.words = rootImage (t.fw.part s.fw.win.part) (coresOf s.fw.win.mask).length
  frames : ∀ f, (∃ o, (f, o) ∈ l.owners ∧ t.fw.owners.get? f = some o) ∨ ((∀ o, (f, o) ∉ l.owners) ∧ t.fw.owners.get? f = s.fw.owners.get? f)
  kept : t.fw = { s.fw with parts := t.fw.parts, owners := t.fw.owners, win := t.fw.win }

/-- What CREATE takes: clean frames of tier 1 on the partition's channels, each once; the tables among them map the root control block, the ring, the dump region and the save area. -/
structure LaidOut (l : Layout) (s : State) : Prop where
  clean : ∀ f ∈ l.owners, inTier1 f.1 = true ∧ onChannels s.fw.win.chans f.1 = true ∧ s.fw.cleanFrame s.m f.1 = true
  theirs : ∀ f ∈ l.owners, f.2 = s.fw.win.part ∨ f.2 = 16 + s.fw.win.part
  ready : ∀ f ∈ l.pool, (f, s.fw.win.part) ∈ l.owners

/-- CREATE's causes: SHARE_OVER also where no other cause holds and the frames left do not hold what firmware maps (log 94). -/
def createCause (w : DWord) (r : Nat) (s : State) : Prop :=
  let early (q : Nat) : Prop := (q = 1 ∧ (s.fw.part s.fw.win.part).inUse = true) ∨ (q = 4 ∧ ringOver s.fw.win.mask s.fw.win.chans = true) ∨ takeCause w q s
  early r ∨ (r = 4 ∧ (∀ q, ¬ early q) ∧ s.layout = none)

/-- The cores of the window's partition that a RESIZE takes from it. -/
def departing (s : State) : Nat := (s.fw.part s.fw.win.part).cores - ((s.fw.part s.fw.win.part).cores &&& s.fw.win.mask)

def resizeCause (w : DWord) (r : Nat) (s : State) : Prop :=
  (r = 1 ∧ (s.fw.part s.fw.win.part).inUse = false) ∨
  ((s.fw.part s.fw.win.part).inUse = true ∧ ((r = 6 ∧ pcmdForce w = false ∧ s.m.unplaceable s.fw s.fw.win.part (departing s) s.fw.win.mask ≠ []) ∨ takeCause w r s))

/-- The resize of a partition has nothing left to wait for: no core to depart, no pause, no wipe of what it gave up, and no page to move (R77, R79). -/
def resizeDone (r : Resize) (p : Nat) (v : State) : Prop :=
  r.departing = 0 ∧ r.paused = false ∧ (∀ c q, (WipeRes.core c, q) ∈ v.fw.wipes → q ≠ p) ∧ (v.fw.part p).moves = [] ∧ v.fw.affectedSlots v.m p = []

/-- RESIZE: new cores join at once; a core that is to go takes no further block and its resident blocks are pre-empted; channels and shares change at the end, which comes at once where there is nothing to wait for (R77, R79). -/
structure ResizeBegun (w : DWord) (s t : State) : Prop where
  cores : (t.fw.part s.fw.win.part).cores = (s.fw.part s.fw.win.part).cores ||| s.fw.win.mask
  others : ∀ q, q ≠ s.fw.win.part → t.fw.part q = s.fw.part q
  record : ∃ v : State, v.fw.part s.fw.win.part = { s.fw.part s.fw.win.part with
      cores := (s.fw.part s.fw.win.part).cores ||| s.fw.win.mask,
      resize := some { mask := s.fw.win.mask, departing := departing s, chans := s.fw.win.chans, t0 := s.fw.win.t0, t2 := s.fw.win.t2, host := s.fw.win.funcmode.getLsbD 2, paused := false } } ∧
    v.fw.win = { s.fw.win with busy := true, cmd := .resize s.fw.win.part } ∧ v.fw.wipes = s.fw.wipes ∧
    (∀ id b, (id, b) ∈ s.m.blocks → s.m.blocks.get? id = some b → s.m.partOf b = s.fw.win.part → b.st = .resident →
      ((departing s).testBit b.core = true ∨ (pcmdForce w = true ∧ (b.bundle, b.launch) ∈ s.catchAll.m.unplaceable s.catchAll.fw s.fw.win.part (departing s) ((s.fw.part s.fw.win.part).cores &&& s.fw.win.mask ||| s.fw.win.mask))) →
      ∃ k, v.m.blocks.get? id = some k ∧ k.preempt = true) ∧
    t = v.settleResize s.fw.win.part ∧
    (∀ r, (v.fw.part s.fw.win.part).resize = some r → ¬ resizeDone r s.fw.win.part v → t = v) ∧
    (∀ r, (v.fw.part s.fw.win.part).resize = some r → resizeDone r s.fw.win.part v → CommandEnded 0 v t ∧ (t.fw.part s.fw.win.part).resize = none ∧
      (t.fw.part s.fw.win.part).chans = s.fw.win.chans ∧ (t.fw.part s.fw.win.part).t0 = s.fw.win.t0 ∧ (t.fw.part s.fw.win.part).t2 = s.fw.win.t2)

/-- DESTROY: the partition, its bindings, its frames and its work are gone, its cores and frames wait for their wipes, the command ends with the last of them, and no other partition differs. -/
structure Destroyed (s t : State) : Prop where
  gone : t.fw.part s.fw.win.part = PartCfg.unused ∧ (∀ b ∈ t.fw.binds, b.2.part ≠ s.fw.win.part) ∧ (∀ b ∈ t.m.bundles, b.2.part ≠ s.fw.win.part) ∧
    ∀ f, s.fw.owners.get? f = some s.fw.win.part ∨ s.fw.owners.get? f = some (16 + s.fw.win.part) → t.fw.owners.get? f = none ∧ ∀ a, a / 4096 = f → memGet t.m.mem a = 0
  wipes : (∀ c, c < 256 → (s.fw.part s.fw.win.part).cores.testBit c = true → (.core c, s.fw.win.part) ∈ t.fw.wipes ∧ ∀ w ∈ t.m.warps, w.1 / 128 ≠ c) ∧
    (∀ f, s.fw.owners.get? f = some s.fw.win.part ∨ s.fw.owners.get? f = some (16 + s.fw.win.part) → (.page f, s.fw.win.part) ∈ t.fw.wipes) ∧ ∀ x ∈ s.fw.wipes, x ∈ t.fw.wipes
  ends : ((∀ x ∈ t.fw.wipes, x.2 ≠ s.fw.win.part) → CommandEnded 0 s t) ∧
    ((∃ x ∈ t.fw.wipes, x.2 = s.fw.win.part) → t.fw.win = { s.fw.win with busy := true, cmd := .destroy s.fw.win.part } ∧ t.m.msi = s.m.msi)
  others : (∀ q, q ≠ s.fw.win.part → t.fw.part q = s.fw.part q) ∧ (∀ b ∈ s.fw.binds, b.2.part ≠ s.fw.win.part → b ∈ t.fw.binds) ∧ ∀ b ∈ s.m.bundles, b.2.part ≠ s.fw.win.part → b ∈ t.m.bundles

def destroyCause (w : DWord) (r : Nat) (s : State) : Prop :=
  let p := s.fw.win.part
  let there := (s.fw.part p).inUse = true ∧ s.fw.paused p = false
  (r = 1 ∧ ¬ there) ∨ (there ∧ ((r = 6 ∧ pcmdForce w = false ∧ s.m.persistOn p (s.fw.part p).cores ≠ []) ∨ (r = 8 ∧ (pcmdRsv w = true ∨ s.fw.win.partRsv = true))))

/-- Hardware queues that no binding holds, rising. -/
def queuesLeft (s : State) : List Nat := (List.range 256).filter (fun q => s.fw.binds.all (fun b => !b.2.queues.contains q))

/-- Bindings of a partition. -/
def bindingsOf (s : State) (p : Nat) : List Binding := (s.fw.binds.filter (fun b => b.2.part = p)).map Prod.snd

/-- BINDVF's causes (R69, R71): a paused or unused partition; quotas beyond what is left; a second binding of the tag, or an exclusive tenant beside another, or a shared one with SLICE 0; reserved bits. -/
def bindCause (w : DWord) (r : Nat) (s : State) : Prop :=
  let c := s.fw.win.cfg
  let p := c / 2 ^ 59 % 16
  let queues := c / 2 ^ 50 % 2 ^ 9
  let share := c / 2 ^ 8 % 2 ^ 8
  let there := (s.fw.part p).inUse = true ∧ s.fw.paused p = false
  (r = 1 ∧ ¬ there) ∨
  (there ∧ ((r = 5 ∧ (64 < queues ∨ (queuesLeft s).length < queues ∨ (s.fw.part p).qslots < c / 2 ^ 32 % 2 ^ 16 + ((bindingsOf s p).map (·.vqslots)).sum ∨
        (s.fw.part p).depctr < c / 2 ^ 16 % 2 ^ 16 + ((bindingsOf s p).map (·.vdepctr)).sum)) ∨
      (r = 7 ∧ (s.fw.binds.has s.fw.win.tag = true ∨ (share = 0 ∧ bindingsOf s p ≠ []) ∨ (share ≠ 0 ∧ ((∃ b ∈ bindingsOf s p, b.share = 0) ∨ (s.fw.part p).slice = 0)))) ∨
      (r = 8 ∧ (pcmdRsv w = true ∨ s.fw.win.bindRsv = true))))

/-- BINDVF: the tenant has its queues, in ascending number from those not yet bound, its quotas, and a fresh VCP page that names it, the root, and the capacity (R71, R73). -/
structure Bound (s t : State) : Prop where
  ended : CommandEnded 0 s t
  binding : let c := s.fw.win.cfg
    t.fw.binds.get? s.fw.win.tag = some { part := c / 2 ^ 59 % 16, queues := (queuesLeft s).take (c / 2 ^ 50 % 2 ^ 9), vqslots := c / 2 ^ 32 % 2 ^ 16, vdepctr := c / 2 ^ 16 % 2 ^ 16, share := c / 2 ^ 8 % 2 ^ 8, noPlugin := false, first := none }
  others : ∀ g, g ≠ s.fw.win.tag → t.fw.binds.get? g = s.fw.binds.get? g ∧ t.m.tenant g = s.m.tenant g
  page : let p := s.fw.win.cfg / 2 ^ 59 % 16
    (t.m.tenant s.fw.win.tag).word 0 = (p * 2 ^ 8 + s.fw.win.tag) % 2 ^ 64 ∧ (t.m.tenant s.fw.win.tag).word 8 = (s.fw.part p).root % 2 ^ 64 ∧
    (t.m.tenant s.fw.win.tag).word 0x28 = ((coresOf (s.fw.part p).cores).length * 2 ^ 55 + s.fw.bwfrac p * 2 ^ 48) % 2 ^ 64 ∧ (t.m.tenant s.fw.win.tag).ev = 0
  word : t.fw.win.vfcfg.get s.fw.win.tag 0 = BitVec.ofNat 64 s.fw.win.cfg ||| 0x8000000000000000
  parts : (s.fw.win.funcmode.getLsbD 0 = false → t.fw.parts = s.fw.parts ∧ t.m.mem = s.m.mem) ∧
    (∀ q, q ≠ s.fw.win.cfg / 2 ^ 59 % 16 → t.fw.part q = s.fw.part q) ∧
    t.fw.part (s.fw.win.cfg / 2 ^ 59 % 16) = { s.fw.part (s.fw.win.cfg / 2 ^ 59 % 16) with pool := (t.fw.part (s.fw.win.cfg / 2 ^ 59 % 16)).pool }

def unbindCause (w : DWord) (r : Nat) (s : State) : Prop :=
  let there := ∃ b, s.fw.binds.get? s.fw.win.tag = some b ∧ s.fw.paused b.part = false
  (r = 1 ∧ ¬ there) ∨ (there ∧ r = 8 ∧ (pcmdRsv w = true ∨ s.fw.win.bindRsv = true))

/-- UNBINDVF: the tenant's resident blocks are pre-empted; the queues and quotas return at once where it has no bundle, and with its last one where it has (R71; 04 R88). -/
structure Unbound (s t : State) : Prop where
  preempt : ∀ id b, (id, b) ∈ s.m.blocks → s.m.blocks.get? id = some b → s.m.tagOf b = s.fw.win.tag → b.st = .resident → ∃ k, t.m.blocks.get? id = some k ∧ k.preempt = true
  ends : (∀ b ∈ s.m.bundles, b.2.tag ≠ s.fw.win.tag) → CommandEnded 0 s t ∧ t.fw.binds.get? s.fw.win.tag = none ∧ t.m.tenants.get? s.fw.win.tag = none
  waits : (∃ b ∈ s.m.bundles, b.2.tag = s.fw.win.tag) → t.fw.win.busy = true ∧ t.fw.win.cmd = .unbind s.fw.win.tag ∧ t.fw.binds = s.fw.binds
  others : ∀ g, g ≠ s.fw.win.tag → t.fw.binds.get? g = s.fw.binds.get? g
  parts : t.fw.parts = s.fw.parts

/-- A record's draft keeps the mode that was in force when it was raised: one that has a mode already keeps that. -/
def modeKept (host : Bool) (d : RecDraft) : RecDraft := { d with mode := some (d.mode.getD host) }

/-- FUNCMODE bit 0 changes: every fault record raised so far goes on in the mode of its raising, in a queue or still to be appended (R81); nothing else differs. -/
structure RecordsPinned (host : Bool) (u v : Mach) : Prop where
  queues : ∀ p, u.parts.has p = true → v.part p = { u.part p with
      faultQ := (u.part p).faultQ.map (fun r => { r with draft := modeKept host r.draft }),
      heads := (u.part p).heads.map (fun h => (h.1, { h.2 with encoding := h.2.encoding.map (fun x => { x with draft := x.draft.map (modeKept host) }) })) }
  warps : ∀ c l, u.warps.has (wk c l) = true → v.warp c l = { u.warp c l with fault := (u.warp c l).fault.map (fun f => { f with drafts := f.drafts.map (modeKept host) }) }
  blocks : ∀ id, v.blocks.get? id = (u.blocks.get? id).map (fun b => { b with warps := b.warps.map (fun w => (w.1, { w.2 with fault := w.2.fault.map (fun f => { f with drafts := f.drafts.map (modeKept host) }) })) })
  requests : ∀ id, v.bundles.get? id = (u.bundles.get? id).map (fun b => { b with launches := b.launches.map (fun l => (l.1, { l.2 with reqDraft := l.2.reqDraft.map (modeKept host) })) })
  copies : ∀ id, v.copies.get? id = (u.copies.get? id).map (fun c => { c with draft := c.draft.map (modeKept host) })
  passes : ∀ id, v.darns.get? id = (u.darns.get? id).map (fun d => { d with draft := d.draft.map (modeKept host) })
  others : v = { u with parts := v.parts, warps := v.warps, blocks := v.blocks, copies := v.copies, bundles := v.bundles, darns := v.darns }

def windowForm : Instr → Option EventForm
  | .create w => some (.mk (fun _ => w.toNat % 16 = 1) (Command (createCause w) (fun s t => ∃ l, s.layout = some l ∧ LaidOut l s ∧ Created l s t)))
  | .resize w => some (.mk (fun s => w.toNat % 16 = 2 ∧ s.fw.paused s.fw.win.part = false) (Command (resizeCause w) (ResizeBegun w)))
  | .resizeResume w => some (.mk (fun s => w.toNat % 16 = 2 ∧ ∃ r, (s.fw.part s.fw.win.part).resize = some r ∧ r.paused = true)
      (Command (fun r s => r = 8 ∧ (pcmdRsv w = true ∨ s.fw.win.partRsv = true)) (fun s t => ∀ r, (s.fw.part s.fw.win.part).resize = some r →
        ∃ v : State, (∀ q, v.fw.part q = if q = s.fw.win.part then { s.fw.part q with resize := some { r with paused := false, host := false } } else s.fw.part q) ∧
          v = { s with fw := { s.fw with parts := v.fw.parts, win := { s.fw.win with busy := true, cmd := .resize s.fw.win.part } } } ∧ t = v.settleResize s.fw.win.part ∧
          (¬ resizeDone { r with paused := false, host := false } s.fw.win.part v → t = v))))
  | .destroy w => some (.mk (fun _ => w.toNat % 16 = 3) (Command (destroyCause w) Destroyed))
  | .bindvf w => some (.mk (fun _ => w.toNat % 16 = 4) (Command (bindCause w) Bound))
  | .unbindvf w => some (.mk (fun _ => w.toNat % 16 = 5) (Command (unbindCause w) Unbound))
  | .dropClear w => some (.mk (fun _ => True) (Command (fun _ _ => False) (fun s t => t = { s with fw := { s.fw with win := { s.fw.win with drop := s.fw.win.drop && !w.getLsbD 62 } } })))
  | .funcmodeWrite w => some (.mk (fun _ => True) (Command (fun _ _ => False) (fun s t =>
      t.fw = { s.fw with win := { s.fw.win with funcmode := w.setWidth 6 } } ∧ t.agenda = s.agenda ∧ t.cursor = s.cursor ∧ t.subj = s.subj ∧
      (w.getLsbD 0 = s.fw.win.funcmode.getLsbD 0 → t.m = s.m) ∧ (w.getLsbD 0 ≠ s.fw.win.funcmode.getLsbD 0 → RecordsPinned s.fw.hostFaults s.m t.m))))
  | _ => none

/-! ### Register writes, doorbells, flushes, slices (03 R68, R72 to R77; 05 R125; 10 R263, R265; 11 R284; 16 R404, R414, R429, R430) -/

/-- The firmware's record of one partition differs, and nothing else. -/
def PartSet (p : Nat) (f : PartCfg → PartCfg) (s t : State) : Prop :=
  ((s.fw.part p).inUse = true → t = { s with fw := { s.fw with parts := t.fw.parts } } ∧ ∀ q, t.fw.part q = if q = p then f (s.fw.part p) else s.fw.part q) ∧
  ((s.fw.part p).inUse = false → t = s)

/-- Bits of a word of a VCP page that a tenant's write reaches (03 R73; 17 R446); none where the word is read-only or there is none. -/
def pageMask (off : Nat) : Option Nat :=
  if 0x1000 ≤ off then none
  else if off = 0x18 then some (2 ^ 64 - 2 ^ 6)
  else if off = 0x40 ∨ off = 0x50 then some (2 ^ 64 - 1)
  else if 0x100 ≤ off ∧ off < 0x200 then
    (if off % 0x40 = 0 ∨ off % 0x40 = 0x20 then some (2 ^ 64 - 1) else if off % 0x40 = 8 then some (2 ^ 64 - 2 ^ 6) else if off % 0x40 = 0x10 then some (2 ^ 32 - 1)
     else if off % 0x40 = 0x18 then some (2 ^ 64 - 2 ^ 12 + 2 ^ 6 - 1) else none)
  else if 0x800 ≤ off then (if off % 32 = 0 then some (2 ^ 64 - 1 - 2 ^ 6) else if off % 32 = 8 then some (2 ^ 32 - 1) else none)
  else none

/-- A tenant's write to its VCP page, but for NOTIFY: a head's words are one copy for all tenants of its partition (17 R445). -/
def PageWritten (part tag off : Nat) (w : DWord) (s t : State) : Prop :=
  match pageMask off with
  | some k =>
    (0x100 ≤ off ∧ off < 0x200 → t = { s with m := { s.m with parts := t.m.parts } } ∧ (∀ p, p ≠ part → t.m.part p = s.m.part p) ∧ t.m.part part = { s.m.part part with headW := (t.m.part part).headW } ∧
      ∀ o, ((t.m.part part).headW.get o 0).toNat = if o = off then (w.toNat &&& k) % 2 ^ 64 else ((s.m.part part).headW.get o 0).toNat) ∧
    (off < 0x100 ∨ 0x200 ≤ off → t = { s with m := { s.m with tenants := t.m.tenants } } ∧
      (∀ o, (t.m.tenant tag).word o = if o = off then w.toNat &&& k else (s.m.tenant tag).word o) ∧ ∀ g, g ≠ tag → t.m.tenant g = s.m.tenant g)
  | none => t = s

/-- A written word with a nonzero reserved field is on note for the commands that take it, by its offset and bank; one without is not; other words' notes stay (03 R69). -/
def Noted (off bank : Nat) (w keep : DWord) (v y : Win) : Prop :=
  ((off, bank) ∈ y.rsv ↔ w &&& ~~~keep ≠ 0) ∧ ∀ x, x ≠ (off, bank) → (x ∈ y.rsv ↔ x ∈ v.rsv)

/-- Registers of the window that only hold the fields of a word; PCOREM, PCHAN, PSHARE and PTIME belong to the partition PSEL names, VFCFG to the tenant VFSEL names. -/
def WindowWord (off : Nat) (w : DWord) (s t : State) : Prop :=
  let v := s.fw.win
  t = { s with fw := { s.fw with win := t.fw.win } } ∧
  (off = 0x100 → t.fw.win = { v with psel := w &&& 0xF, rsv := t.fw.win.rsv } ∧ Noted 0x100 0 w 0xF v t.fw.win) ∧
  (∀ k, k < 4 → off = 0x108 + 8 * k → t.fw.win = { v with corem := t.fw.win.corem } ∧ (∀ p, p ≠ v.part → t.fw.win.corem.get p 0 = v.corem.get p 0) ∧
    ∀ i, i < 256 → (t.fw.win.corem.get v.part 0).getLsbD i = if i / 64 = k then w.getLsbD (i % 64) else (v.corem.get v.part 0).getLsbD i) ∧
  (off = 0x128 → t.fw.win = { v with chan := v.chan.set v.part (w &&& 0xFFFFFFFF), rsv := t.fw.win.rsv } ∧ Noted 0x128 v.part w 0xFFFFFFFF v t.fw.win) ∧
  (off = 0x130 → t.fw.win = { v with share := v.share.set v.part (w &&& 0xFFFF0FFFFFFFFFFF), rsv := t.fw.win.rsv } ∧ Noted 0x130 v.part w 0xFFFF0FFFFFFFFFFF v t.fw.win) ∧
  (off = 0x138 → t.fw.win = { v with time := v.time.set v.part (w &&& 0xFFFFFFFFFFFF003F), rsv := t.fw.win.rsv } ∧ Noted 0x138 v.part w 0xFFFFFFFFFFFF003F v t.fw.win) ∧
  (off = 0x160 → t.fw.win = { v with vfsel := w &&& 0x3F, rsv := t.fw.win.rsv } ∧ Noted 0x160 0 w 0x3F v t.fw.win) ∧
  (off = 0x168 → t.fw.win = { v with vfcfg := v.vfcfg.set v.tag (w &&& 0xFFFCFFFFFFFFFF00), rsv := t.fw.win.rsv } ∧ Noted 0x168 v.tag w 0xFFFCFFFFFFFFFF00 v t.fw.win)

/-- One event's effect is another's. -/
def Acts (i : Instr) (s t : State) : Prop := exec i s = .next t

/-- A write to the window (R68, R69): a word it holds, a command, or a register with an event of its own; while BUSY is 1 a write to 0x100 to 0x180 is discarded and sets DROP. -/
def WindowWritten (off : Nat) (w : DWord) (s t : State) : Prop :=
  (s.fw.win.busy = true → 0x100 ≤ off → off ≤ 0x180 → t = { s with fw := { s.fw with win := { s.fw.win with drop := true } } }) ∧
  (s.fw.win.busy = false →
    (off ∈ [0x100, 0x108, 0x110, 0x118, 0x120, 0x128, 0x130, 0x138, 0x160, 0x168] → WindowWord off w s t) ∧
    (off = 0x148 → w.toNat % 16 = 1 → Acts (.create w) s t) ∧
    (off = 0x148 → w.toNat % 16 = 2 → s.fw.paused s.fw.win.part = false → Acts (.resize w) s t) ∧ (off = 0x148 → w.toNat % 16 = 2 → s.fw.paused s.fw.win.part = true → Acts (.resizeResume w) s t) ∧
    (off = 0x148 → w.toNat % 16 = 3 → Acts (.destroy w) s t) ∧ (off = 0x148 → w.toNat % 16 = 4 → Acts (.bindvf w) s t) ∧ (off = 0x148 → w.toNat % 16 = 5 → Acts (.unbindvf w) s t) ∧
    (off = 0x148 → (w.toNat % 16 = 0 ∨ 5 < w.toNat % 16) → CommandFails 8 s t) ∧
    (off = 0x150 → Acts (.dropClear w) s t) ∧ (off = 0x180 → Acts (.funcmodeWrite w) s t)) ∧
  (off = 0x190 → w.toNat % 4 = 1 → Acts .fdcmdEnd s t) ∧ (off = 0x190 → w.toNat % 4 = 2 → Acts .fdcmdRelease s t) ∧ (off = 0x190 → (w.toNat % 4 = 0 ∨ w.toNat % 4 = 3) → t = s) ∧
  (s.fw.win.busy = false → off ∈ [0x140, 0x158, 0x170, 0x178] → t = s) ∧ (off ≠ 0x190 → (off < 0x100 ∨ 0x180 < off) → t = s)

/-- A frame changes hands or is taken: its bytes are zero, its wipe is due under the partition it goes to or leaves, and the core translations of the partition it leaves are gone (03 R66, R67; 10 R265, R268). -/
structure FrameTaken (f part : Nat) (owner : Option Nat) (s t : State) : Prop where
  owners : ∀ g, t.fw.owners.get? g = if g = f then owner else s.fw.owners.get? g
  bytes : ∀ a, memGet t.m.mem a = if a / 4096 = f then 0 else memGet s.m.mem a
  wipe : t.fw.wipes = s.fw.wipes ++ [(.page f, part)]
  buffers : ∀ p, s.fw.owners.get? f = some p → ∀ c, c < 256 → (s.fw.part (p % 16)).cores.testBit c = true → (t.m.core c).tlb = [] ∧ ∀ k, (t.m.core c).tlb1.get k [] = []
  frame : t = { s with fw := { s.fw with owners := t.fw.owners, wipes := t.fw.wipes }, m := { s.m with mem := t.m.mem, poison := t.m.poison, cores := t.m.cores } }

/-- A register of a firmware core takes a value; x0 is zero whatever is written, and the protection entries are not among the control registers (03 R63; log 85). -/
def CoreSet (r : FwReg) (w : DWord) (k y : FwCore) : Prop :=
  match r with
  | .x n => y = { k with x := y.x } ∧ ∀ j, y.x.get j 0 = if j = n ∧ 1 ≤ n ∧ n < 32 then w else k.x.get j 0
  | .f n => y = { k with f := y.f } ∧ ∀ j, y.f.get j 0 = if j = n ∧ n < 32 then w else k.f.get j 0
  | .csr n => y = { k with csr := y.csr } ∧ ∀ j, y.csr.get j 0 = if j = n ∧ n < 4096 ∧ (n < 0x3A0 ∨ 0x3F0 ≤ n) then w else k.csr.get j 0
  | .pc => y = { k with pc := w }
  | .timer => y = { k with timer := w.toNat }

/-- A frame that a plug-in may reach: its own code, its tenant's VCP page, and its tenant's frames in its partition (03 R64; log 85). -/
def pluginReaches (e : Fw) (tag : Nat) (b : Binding) (f : Nat) : Prop :=
  Config.pluginCode tag f = true ∨ f = Config.vcpFrame tag ∨ (e.owners.get? f = some b.part ∧ (b.share = 0 ∨ Config.tenantOf f = tag))

/-- A write to a register with no event of its own. -/
def written (target : RegTarget) (w : DWord) (s t : State) : Prop :=
  match target with
  | .window off => WindowWritten off w s t
  | .vcp tag off =>
    (s.fw.binds.has tag = false → t = s) ∧ (s.fw.binds.has tag = true →
      (off ≠ 0x10 → ∀ b, s.fw.binds.get? tag = some b → PageWritten b.part tag off w s t) ∧ (off = 0x10 → w.toNat / 2 ^ 12 % 16 = 0 → s.subj.tag = tag → Acts (.doorbell w) s t) ∧
      (off = 0x10 → w.toNat / 2 ^ 12 % 16 = 1 → s.subj.tag = tag → Acts (.rcbFlush w) s t) ∧
      (off = 0x10 → 1 < w.toNat / 2 ^ 12 % 16 → ∀ b, s.fw.binds.get? tag = some b → (t.m.part b.part).errlog = ((s.m.readHeads s.fw tag).part b.part).errlog ++ [[74, tag, w.toNat]]))
  | .power shard off =>
    (off = 0 → shard < 16 → t = { s with m := { s.m with shards := t.m.shards, slices := t.m.slices } } ∧ (t.m.shard shard).votes = w ∧ (∀ j, j ≠ shard → t.m.shard j = s.m.shard j) ∧ Retimed s.fw shard s.m t.m) ∧
    (off = 8 → shard < 16 → ShardSet shard (fun h => { h with supply := w.extractLsb' 32 32, drawcap := w.extractLsb' 16 16 }) s t) ∧ ((16 ≤ shard ∨ (off ≠ 0 ∧ off ≠ 8)) → t = s)
  | .matrix shard off => (off = 0 → shard < 16 → ShardSet shard (fun h => { h with curcap := w.extractLsb' 48 16, stlog := w.extractLsb' 40 8 }) s t) ∧ ((16 ≤ shard ∨ off ≠ 0) → t = s)
  | .handlerEntry p => PartSet p (fun c => { c with handler := w &&& ~~~15#64 }) s t
  | .xlatRoot p => PartSet p (fun c => { c with xlat := w.toNat / 2 ^ 12 * 2 ^ 12 }) s t
  | .linkGroup p lg => PartSet p (fun c => { c with lg := if w.getLsbD 63 then c.lg.set (lg % 16) (w.toNat % 2 ^ 14, w.toNat / 2 ^ 16 % 16) else c.lg.erase (lg % 16) }) s t
  | .preempt id => ∀ b, s.m.blocks.get? id = some b → b.st = .resident → ∃ k, t.m.blocks.get? id = some k ∧ k.preempt = w.getLsbD 0 ∧ ∀ j, j ≠ id → t.m.blocks.get? j = s.m.blocks.get? j
  | .frameOwner f =>
    (w.getLsbD 63 = true → s.fw.owners.get? f ≠ some (w.toNat % 16) → (s.fw.part (w.toNat % 16)).inUse = true → f ∉ s.m.retired → FrameTaken f (w.toNat % 16) (some (w.toNat % 16)) s t) ∧
    (w.getLsbD 63 = true → (s.fw.owners.get? f = some (w.toNat % 16) ∨ (s.fw.part (w.toNat % 16)).inUse = false ∨ f ∈ s.m.retired) → t = s) ∧
    (w.getLsbD 63 = false → ∀ p, s.fw.owners.get? f = some p → FrameTaken f (p % 16) none s t) ∧ (w.getLsbD 63 = false → s.fw.owners.has f = false → t = s)
  | .tierWord pa =>
    (frameBacked (pa / 4096) = true → pa % 8 = 0 → memRead t.m.mem pa 8 = w.toNat ∧ (∀ a, (a < pa ∨ pa + 8 ≤ a) → memGet t.m.mem a = memGet s.m.mem a) ∧
      t = { s with m := { s.m with mem := t.m.mem, poison := t.m.poison, devlog := t.m.devlog } }) ∧
    ((frameBacked (pa / 4096) = false ∨ pa % 8 ≠ 0) → t = s)
  | .fwBundle p =>
    ((s.fw.part p).inUse = true → s.fw.life ≠ .retired → s.m.bundles.length < 32768 → t = { s with m := { s.m with bundles := t.m.bundles, nextId := s.m.nextId + 1 } } ∧
      (∃ x, t.m.bundles.get? s.m.nextId = some x ∧ x.addr = w.toNat ∧ x.tag = 64 ∧ x.part = p ∧ x.queue = 256 + p ∧ x.order = s.m.nextId ∧ (x.st = .queued ∨ x.st = .head)) ∧
      ∀ id y, id ≠ s.m.nextId → s.m.bundles.get? id = some y → ∃ z, t.m.bundles.get? id = some z ∧ z = { y with st := z.st }) ∧
    (((s.fw.part p).inUse = false ∨ s.fw.life = .retired ∨ 32768 ≤ s.m.bundles.length) → t = s)
  | .fwCore c r => (4 ≤ c → t = s) ∧ (c < 4 → t = { s with fw := { s.fw with fwCores := t.fw.fwCores } } ∧ (∀ d, d ≠ c → t.fw.fwCores.get? d = s.fw.fwCores.get? d) ∧ CoreSet r w (s.fw.fwCore c) (t.fw.fwCore c))
  | .pluginCall tag => ∀ b, s.fw.binds.get? tag = some b →
      let k := s.fw.fwCore (1 + b.part % 3)
      ((b.noPlugin = true ∨ k.plugin ≠ none) → t = s) ∧
      (b.noPlugin = false → k.plugin = none → t = { s with fw := { s.fw with fwCores := t.fw.fwCores } } ∧
        ∀ d, t.fw.fwCores.get? d = if d = 1 + b.part % 3 then some { k with mode := .user, pmp := (t.fw.fwCore d).pmp, plugin := some tag, called := k.timer } else s.fw.fwCores.get? d) ∧
      (b.noPlugin = false → k.plugin = none → (t.fw.fwCore (1 + b.part % 3)).pmp.length ≤ 64 ∧ ∀ r ∈ (t.fw.fwCore (1 + b.part % 3)).pmp, r.2 ∈ Config.pluginRanges tag ∧ ∀ a, r.2.1 ≤ a → a < r.2.2 → pluginReaches s.fw tag b (a / 4096))
  | .pluginReturn tag => ∀ b, s.fw.binds.get? tag = some b →
      ((s.fw.fwCore (1 + b.part % 3)).plugin ≠ some tag → t = s) ∧
      ((s.fw.fwCore (1 + b.part % 3)).plugin = some tag → t = { s with fw := { s.fw with fwCores := t.fw.fwCores, binds := t.fw.binds } } ∧
        (∀ g, t.fw.binds.get? g = if g = tag then some { b with first := some (w.toNat % 2 ^ 6) } else s.fw.binds.get? g) ∧
        ∀ d, t.fw.fwCores.get? d = if d = 1 + b.part % 3 then some { s.fw.fwCore d with mode := .supervisor, pmp := [], plugin := none } else s.fw.fwCores.get? d)

/-- What becomes of the entry at CIDX of a submission ring (R73 to R75), `r`. `u` is the machine before, `v` after; `pidx` is PIDX as the doorbell read it. -/
structure EntryTaken (e : Fw) (tag q pidx : Nat) (b : Binding) (u v : Mach) (r : RingStep) : Prop where
  broken : (u.tenant tag).word (0x800 + 32 * q) / 2 ^ 6 % 2 = 1 → v = u ∧ r = .broken
  idle : (u.tenant tag).word (0x800 + 32 * q) / 2 ^ 6 % 2 = 0 → (pidx = (u.tenant tag).word (0x810 + 32 * q) % 2 ^ 32 ∨ e.accepts tag = false) → v = u ∧ r = .empty
  goes : (u.tenant tag).word (0x800 + 32 * q) / 2 ^ 6 % 2 = 0 → pidx ≠ (u.tenant tag).word (0x810 + 32 * q) % 2 ^ 32 → e.accepts tag = true →
    let word := (u.tenant tag).word (0x800 + 32 * q)
    let cidx := (u.tenant tag).word (0x810 + 32 * q) % 2 ^ 32
    let entry := readRecord e u b.part (word / 2 ^ 12 % 2 ^ 52 * 2 ^ 12 + 8 * (cidx % 2 ^ (word % 64 - 3))) 1
    let full := b.vqslots ≤ (u.bundles.filter (fun x => x.2.tag = tag)).length ∨ 32768 ≤ u.bundles.length
    ((entry = none ∨ ∃ w, entry = some [w] ∧ w % 64 ≠ 0) → r = .broken ∧ v = { u with tenants := v.tenants } ∧ (v.tenant tag).word (0x800 + 32 * q) / 2 ^ 6 % 2 = 1) ∧
    (∀ w, entry = some [w] → w % 64 = 0 → full → v = u ∧ r = .deferred) ∧
    (∀ w, entry = some [w] → w % 64 = 0 → ¬ full → r = .moved ∧
      v = { u with tenants := v.tenants, bundles := v.bundles, nextId := u.nextId + 1 } ∧ (v.tenant tag).word (0x810 + 32 * q) % 2 ^ 32 = (cidx + 1) % 2 ^ 32 ∧
      (∃ x, v.bundles.get? u.nextId = some x ∧ x.addr = w ∧ x.tag = tag ∧ x.part = b.part ∧ x.queue = b.queues.getD q 0 ∧ x.order = u.nextId ∧ (x.st = .queued ∨ x.st = .head)) ∧
      ∀ id y, id ≠ u.nextId → u.bundles.get? id = some y → ∃ z, v.bundles.get? id = some z ∧ z = { y with st := z.st })

/-- Every entry up to PIDX that quota holds back is counted in DEFER, once each (R75). -/
def DeferralsCounted (tag q pidx : Nat) (u v : Mach) : Prop :=
  let cidx := (u.tenant tag).word (0x810 + 32 * q) % 2 ^ 32
  let ahead := (((u.tenant tag).defer.get? q).getD cidx + 2 ^ 32 - cidx) % 2 ^ 32
  let all := (pidx + 2 ^ 32 - cidx) % 2 ^ 32
  v = { u with tenants := v.tenants } ∧ (v.tenant tag).defer.get? q = some pidx ∧ (∀ g, g ≠ tag → v.tenant g = u.tenant g) ∧
  (v.tenant tag).word 0x20 % 2 ^ 32 = ((u.tenant tag).word 0x20 + (if ahead ≤ all then all - ahead else all)) % 2 ^ 32

/-- A ring's entries, `n` of them at most, move in order until one does not (R74, R75). -/
inductive RunTaken (e : Fw) (tag q pidx : Nat) (b : Binding) : Nat → Mach → Mach → Prop
  | done (u : Mach) : RunTaken e tag q pidx b 0 u u
  | moves (n : Nat) (u v t : Mach) : EntryTaken e tag q pidx b u v .moved → RunTaken e tag q pidx b n v t → RunTaken e tag q pidx b (n + 1) u t
  | held (n : Nat) (u v t : Mach) : EntryTaken e tag q pidx b u v .deferred → DeferralsCounted tag q pidx v t → RunTaken e tag q pidx b (n + 1) u t
  | stops (n : Nat) (u v : Mach) (r : RingStep) : EntryTaken e tag q pidx b u v r → (r = .broken ∨ r = .empty) → RunTaken e tag q pidx b (n + 1) u v

/-- The entries of a ring up to an index move, unless the ring is broken; one whose size, or whose distance to the index, is out of range is broken now, and what it had announced is forgotten (R74, R75). -/
structure RingTaken (e : Fw) (tag q pidx : Nat) (b : Binding) (u v : Mach) : Prop where
  was : (u.tenant tag).word (0x800 + 32 * q) / 2 ^ 6 % 2 = 1 → v = u
  breaks : let word := (u.tenant tag).word (0x800 + 32 * q)
    let count := (pidx + 2 ^ 32 - (u.tenant tag).word (0x810 + 32 * q) % 2 ^ 32) % 2 ^ 32
    word / 2 ^ 6 % 2 = 0 → (word % 64 < 12 ∨ 20 < word % 64 ∨ 2 ^ (word % 64 - 3) < count) → v = { u with tenants := v.tenants } ∧ (∀ g, g ≠ tag → v.tenant g = u.tenant g) ∧
      (v.tenant tag).word (0x800 + 32 * q) / 2 ^ 6 % 2 = 1 ∧ (∀ o, o ≠ 0x800 + 32 * q → (v.tenant tag).word o = (u.tenant tag).word o) ∧ (v.tenant tag).seen.get? q = none ∧ (v.tenant tag).defer.get? q = none
  runs : let word := (u.tenant tag).word (0x800 + 32 * q)
    let count := (pidx + 2 ^ 32 - (u.tenant tag).word (0x810 + 32 * q) % 2 ^ 32) % 2 ^ 32
    word / 2 ^ 6 % 2 = 0 → 12 ≤ word % 64 → word % 64 ≤ 20 → count ≤ 2 ^ (word % 64 - 3) → RunTaken e tag q pidx b count (u.modTenant tag (fun t => { t with seen := t.seen.set q pidx })) v

/-- Entries stand in a ring up to the index that its last doorbell read: quota held them back. -/
def heldIn (m : Mach) (tag q : Nat) : Prop := ∃ pidx, (m.tenant tag).seen.get? q = some pidx ∧ (m.tenant tag).word (0x800 + 32 * q) / 2 ^ 6 % 2 = 0 ∧
  (pidx + 2 ^ 32 - (m.tenant tag).word (0x810 + 32 * q) % 2 ^ 32) % 2 ^ 32 ≠ 0

/-- A doorbell (R73, R74): PIDX is read afresh; a ring of a bad size or with more entries than it holds is broken; else its entries are moved in ring order until one stays. `u` is the machine with the display heads read. -/
structure Rung (e : Fw) (tag : Nat) (w : DWord) (b : Binding) (u v : Mach) : Prop where
  wrong : (w.toNat / 2 ^ 16 ≠ 0 ∨ w.toNat / 2 ^ 6 % 2 ^ 6 ≠ 0 ∨ b.queues.length ≤ w.toNat % 2 ^ 6) →
    v = { u with parts := v.parts } ∧ (v.part b.part).errlog = (u.part b.part).errlog ++ [[74, tag, w.toNat]] ∧ ∀ p, p ≠ b.part → v.part p = u.part p
  right : w.toNat / 2 ^ 16 = 0 → w.toNat / 2 ^ 6 % 2 ^ 6 = 0 → w.toNat % 2 ^ 6 < b.queues.length →
    let q := w.toNat % 2 ^ 6
    let m := if q = 0 then u.resolveTenant e b.part tag else u
    RingTaken e tag q ((m.tenant tag).word (0x808 + 32 * q) % 2 ^ 32) b m v

/-- An RCB flush (R76): a node in the tenant's pages that is not the root is forgotten, a bundle in ADMIT under it is checked again, and FLUSHCNT rises; anything else is logged. -/
structure Flushed (e : Fw) (tag : Nat) (w : DWord) (b : Binding) (u v : Mach) : Prop where
  wrong : (w.toNat / 2 ^ 16 ≠ 0 ∨ w.toNat / 2 ^ 6 % 2 ^ 6 ≠ 0) → v = { u with parts := v.parts } ∧ (v.part b.part).errlog = (u.part b.part).errlog ++ [[74, tag, w.toNat]]
  right : w.toNat / 2 ^ 16 = 0 → w.toNat / 2 ^ 6 % 2 ^ 6 = 0 →
    let a := (u.tenant tag).word 0x18 / 2 ^ 6 % 2 ^ 58 * 2 ^ 6
    let theirs := (∃ pa o, peekXl e u b.part a .load = .ok pa o) ∧ a ≠ (e.part b.part).root
    let y := Mach.reevaluate e { u with rcbs := u.rcbs.erase (a * 16 + b.part) } b.part a
    (theirs → v = { y with tenants := v.tenants } ∧ (v.tenant tag).word 0x20 / 2 ^ 32 = ((y.tenant tag).word 0x20 / 2 ^ 32 + 1) % 2 ^ 32 ∧
      (v.tenant tag).word 0x20 % 2 ^ 32 = (y.tenant tag).word 0x20 % 2 ^ 32 ∧
      ((∀ x ∈ u.bundles, x.2.part = b.part → x.2.st = .admitting → a ∉ x.2.chain) → y = { u with rcbs := u.rcbs.erase (a * 16 + b.part) })) ∧
    (¬ theirs → v = { u with parts := v.parts } ∧ (v.part b.part).errlog = (u.part b.part).errlog ++ [[76, tag, a]])

/-- The tenant with work that follows one in ascending rotation; with no work anywhere, simply the next (R72). -/
def nextTenant (s : State) (p tag : Nat) : Nat :=
  let ts := (s.fw.binds.filter (fun b => b.2.part = p)).map Prod.fst
  let ring := ts.filter (fun x => decide (tag < x)) ++ ts.filter (fun x => decide (x ≤ tag))
  match ring.filter (fun x => s.m.bundles.any (fun b => b.2.tag = x)) with
  | x :: _ => x
  | [] => ring.headD tag

/-- A slice ends in a shared partition (R72): the tenant keeps its consecutive slices; then the next one's begin, and the resident blocks of the one that leaves are pre-empted. -/
structure SliceEnded (p : Nat) (s t : State) : Prop where
  again : 1 < (s.m.part p).slicesLeft → (∃ b ∈ s.m.bundles, b.2.tag = (s.m.part p).turn) →
    t.m = { s.m with parts := t.m.parts } ∧ t.m.part p = { s.m.part p with slicesLeft := (s.m.part p).slicesLeft - 1 }
  turns : ((s.m.part p).slicesLeft ≤ 1 ∨ ∀ b ∈ s.m.bundles, b.2.tag ≠ (s.m.part p).turn) →
    t.m.part p = { s.m.part p with turn := nextTenant s p (s.m.part p).turn, slicesLeft := ((s.fw.binds.get? (nextTenant s p (s.m.part p).turn)).map (·.share)).getD 1 } ∧
    (nextTenant s p (s.m.part p).turn ≠ (s.m.part p).turn → ∀ id b, (id, b) ∈ s.m.blocks → s.m.blocks.get? id = some b → s.m.tagOf b = (s.m.part p).turn → b.st = .resident →
      ∃ k, t.m.blocks.get? id = some k ∧ k.preempt = true)
  kept : t = { s with m := { s.m with parts := t.m.parts, blocks := t.m.blocks } } ∧ ∀ q, q ≠ p → t.m.part q = s.m.part q

/-- The partition whose resize waits for a core to depart. -/
def departsFrom (s : State) (c p : Nat) (r : Resize) : Prop :=
  s.fw.parts.find? (fun p => p.2.inUse && ((p.2.resize.map (fun r => bit r.departing c && !r.paused)).getD false)) = some (p, s.fw.part p) ∧ (s.fw.part p).resize = some r

/-- Nothing of its partition is left on a core: no block resident or saving, no service, no copy, no access of the handler. -/
def leftEmpty (s : State) (c : Nat) : Prop :=
  (∀ b ∈ s.m.blocks, b.2.core = c → b.2.st ≠ .resident ∧ b.2.st ≠ .saving) ∧ (s.m.core c).service = none ∧ (∀ x ∈ s.m.copies, x.2.core ≠ c) ∧ s.m.inFlight c handlerSlot = false

/-- A core departs (R77): unattended, a core with nothing left on it is unowned and waits for its wipe, whose completion may end the resize; host-assisted, the resize pauses once every departing core is empty. -/
structure Departed (c p : Nat) (r : Resize) (s t : State) : Prop where
  host : r.host = true → ((∀ d, d < 256 → r.departing.testBit d = true → leftEmpty s d) → CommandEnded 10 s t ∧ t.fw.part p = { s.fw.part p with resize := some { r with paused := true } }) ∧
    (¬ (∀ d, d < 256 → r.departing.testBit d = true → leftEmpty s d) → t = s)
  alone : r.host = false → leftEmpty s c →
    (∀ d, (t.fw.part p).cores.testBit d = (decide (d ≠ c) && (s.fw.part p).cores.testBit d)) ∧ t.fw.wipes = s.fw.wipes ++ [(.core c, p)] ∧ (∀ w ∈ t.m.warps, w.1 / 128 ≠ c) ∧
    t.fw.win = s.fw.win ∧ t.m.msi = s.m.msi ∧ ∃ x, (t.fw.part p).resize = some x ∧ x = { r with departing := x.departing } ∧ ∀ d, x.departing.testBit d = (decide (d ≠ c) && r.departing.testBit d)
  waits : r.host = false → ¬ leftEmpty s c → t = s
  others : ∀ q, q ≠ p → t.fw.part q = s.fw.part q

def frontForm : Instr → Option EventForm
  | .registerWrite target w => some (.mk (fun _ => True) (written target w))
  | .doorbell w => some (.mk (fun s => s.fw.binds.has s.subj.tag = true ∧ w.toNat / 2 ^ 12 % 16 = 0)
      (fun s t => t = { s with m := t.m } ∧ ∀ b, s.fw.binds.get? s.subj.tag = some b → Rung s.fw s.subj.tag w b (s.m.readHeads s.fw s.subj.tag) t.m))
  | .rcbFlush w => some (.mk (fun s => s.fw.binds.has s.subj.tag = true ∧ w.toNat / 2 ^ 12 % 16 = 1)
      (fun s t => ∀ b, s.fw.binds.get? s.subj.tag = some b → ∃ v, Flushed s.fw s.subj.tag w b (s.m.readHeads s.fw s.subj.tag) v ∧ t = ({ s with m := v } : State).settleUnbind))
  | .deferredEntryMove => some (.mk (fun s => heldIn s.m s.subj.tag s.subj.unit ∧ ∃ b, s.fw.binds.get? s.subj.tag = some b ∧ ∀ f, b.first = some f → f = s.subj.unit ∨ b.noPlugin = true ∨ ¬ heldIn s.m s.subj.tag f)
      (fun s t => t = { s with m := t.m } ∧ ∀ b pidx, s.fw.binds.get? s.subj.tag = some b → (s.m.tenant s.subj.tag).seen.get? s.subj.unit = some pidx →
        RingTaken s.fw s.subj.tag s.subj.unit pidx b s.m t.m))
  | .timeSliceEnd => some (.mk (fun s => ∃ b ∈ s.fw.binds, b.2.part = s.subj.part ∧ b.2.share ≠ 0) (fun s t => SliceEnded s.subj.part s t))
  | .resizeCoreDepart => some (.mk (fun s => s.subj.core < 256 ∧ ∃ p r, departsFrom s s.subj.core p r) (fun s t => ∀ p r, departsFrom s s.subj.core p r → Departed s.subj.core p r s t))
  | .fdcmdEnd => some (.mk (fun s => ∃ p d x r, s.m.fdq = (p, d, x) :: r) (fun s t => ∀ p d x r, s.m.fdq = (p, d, x) :: r →
      t = { s with m := ((s.m.domainBundles p d).foldl (fun (m : Mach) b => m.endBundle s.fw b 0x47) { s.m with fdq := r }).thaw s.fw p d }))
  | .fdcmdRelease => some (.mk (fun s => ∃ p d x r, s.m.fdq = (p, d, x) :: r) (fun s t => ∀ p d x r, s.m.fdq = (p, d, x) :: r →
      t = { s with m := (({ s.m with fdq := r } : Mach).endBundle s.fw x 0x47).thaw s.fw p d }))
  | _ => none

/-! ### Display heads (17 R445 to R448) -/

/-- A word of one head in the tenants' pages, one copy for the partition (R445, R446); the head itself; its words as firmware last read them, at a NOTIFY. -/
def headWord (m : Mach) (part k off : Nat) : Nat := ((m.part part).headW.get (0x100 + 0x40 * k + off) 0).toNat
def headOf (m : Mach) (part k : Nat) : Head := (m.part part).heads.get k Head.reset
def headSeen (m : Mach) (part k off : Nat) : Nat := ((headOf m part k).words.getD (off / 8) 0).toNat

/-- A head's samples a second: width, height and refresh rate. -/
def headRate (m : Mach) (part k : Nat) : Nat := (headSeen m part k 0 / 2 ^ 40 % 2 ^ 14 + 1) * (headSeen m part k 0 / 2 ^ 26 % 2 ^ 14 + 1) * (headSeen m part k 0 / 2 ^ 54 % 2 ^ 8)

/-- The checks of R446 for one head, beside heads of the partition that count as in effect. -/
def headChecks (m : Mach) (part k : Nat) (counts : Nat → Prop) [DecidablePred counts] : Prop :=
  1 ≤ headSeen m part k 0 / 2 ^ 54 % 2 ^ 8 ∧ headSeen m part k 0 / 2 ^ 54 % 2 ^ 8 ≤ 240 ∧
  headSeen m part k 0 / 2 ^ 40 % 2 ^ 14 + 1 ≤ 16384 ∧ headSeen m part k 0 / 2 ^ 26 % 2 ^ 14 + 1 ≤ 8704 ∧
  (headSeen m part k 0 / 2 ^ 40 % 2 ^ 14 + 1) * (headSeen m part k 0 / 2 ^ 26 % 2 ^ 14 + 1) ≤ 35651584 ∧ headRate m part k ≤ 1069547520 ∧
  headRate m part k + ((List.range 4).map (fun j => if j ≠ k ∧ counts j then headRate m part j else 0)).sum ≤ 1990656000

/-- The four heads of a partition are read at a NOTIFY of one of its tenants: their words are as the pages hold them; one is in effect where it is enabled and the checks pass, beside those in effect before it and those after it that were and are enabled still; a failed check sets ERR 1; a new PRESENT waits for the refresh, in place of one that waits, which DROPPED counts (R445 to R447). -/
structure HeadsRead (e : Fw) (part tag : Nat) (u t : Mach) : Prop where
  only : t = { u with parts := t.parts } ∧ (∀ p, p ≠ part → t.part p = u.part p) ∧ t.part part = { u.part part with headW := (t.part part).headW, heads := (t.part part).heads } ∧
    ∀ o, (∀ k, k < 4 → o ≠ 0x130 + 0x40 * k) → (t.part part).headW.get o 0 = (u.part part).headW.get o 0
  seen : ∀ k i, k < 4 → i < 5 → headSeen t part k (8 * i) = headWord u part k (8 * i)
  off : ∀ k, k < 4 → headWord u part k 0 / 2 ^ 63 = 0 →
    headWord t part k 0x30 = headWord u part k 0x30 ∧ headOf t part k = { headOf u part k with on := false, words := (headOf t part k).words }
  checked : ∀ k, k < 4 → headWord u part k 0 / 2 ^ 63 = 1 →
    ((headOf t part k).on = true ↔ headChecks t part k (fun j => if j < k then (headOf t part j).on = true else (headOf u part j).on = true ∧ headWord u part j 0 / 2 ^ 63 = 1)) ∧
    ((headOf t part k).on = false → headWord t part k 0x30 / 2 ^ 24 % 2 ^ 8 = 1 ∧ (headOf t part k).waiting = (headOf u part k).waiting) ∧
    ((headOf t part k).on = true → headWord t part k 0x30 / 2 ^ 24 % 2 ^ 8 = if headWord u part k 0x30 / 2 ^ 24 % 2 ^ 8 = 1 then 0 else headWord u part k 0x30 / 2 ^ 24 % 2 ^ 8)
  present : ∀ k, k < 4 → (headOf t part k).on = true →
    let n := headWord u part k 0x20 % 2 ^ 32
    let drops := headWord u part k 0x30 / 2 ^ 48
    (headOf t part k).encoding = (headOf u part k).encoding ∧ (headOf t part k).presented = n ∧
    (n = (headOf u part k).presented → (headOf t part k).waiting = (headOf u part k).waiting ∧ headWord t part k 0x30 / 2 ^ 48 = drops) ∧
    (n ≠ (headOf u part k).presented →
      (headOf t part k).waiting = some { present := n, tag, qidx := if e.win.funcmode.getLsbD 4 then some (headWord u part k 0 / 2 ^ 12 % 2 ^ 8) else none } ∧
      headWord t part k 0x30 / 2 ^ 48 = if (headOf u part k).waiting = none then drops else min 0xFFFF (drops + 1))

/-- Bytes of a temporal unit in the ring: its word and its bytes, padded to 16. -/
def unitSize (len : Nat) : Nat := (8 + len + 15) / 16 * 16

/-- Of a machine one head of one partition differs, and what firmware writes of it. -/
def HeadOnly (part k : Nat) (v t : Mach) : Prop :=
  t = { v with parts := t.parts } ∧ (∀ p, p ≠ part → t.part p = v.part p) ∧ t.part part = { v.part part with headW := (t.part part).headW, heads := (t.part part).heads, faultQ := (t.part part).faultQ, faultSeq := (t.part part).faultSeq } ∧
  ∀ j, j ≠ k → headOf t part j = headOf v part j

/-- The surface of a frame past its refresh is read whole, and the encoder has it; with a page that cannot be read ERR is 3, the page's KIND 4 record is queued, or waits for room, and the frame waits for its resolution (R447; 11 R283). -/
structure SurfaceRead (e : Fw) (part k : Nat) (x : HeadFrame) (u t : Mach) : Prop where
  whole : ∀ v, firstFault e part .load u (Head.pages (u.part part) k) = (v, none) →
    HeadOnly part k v t ∧ (headOf t part k).encoding = some { x with read := true, waitSeq := none } ∧ (t.part part).faultQ = (v.part part).faultQ ∧
    headWord t part k 0x30 / 2 ^ 24 % 2 ^ 8 = (if headWord v part k 0x30 / 2 ^ 24 % 2 ^ 8 = 3 then 0 else headWord v part k 0x30 / 2 ^ 24 % 2 ^ 8)
  missing : ∀ v p c, firstFault e part .load u (Head.pages (u.part part) k) = (v, some (p, c)) →
    let d : RecDraft := { page := p, cause := c, kind := 4, core := (coresOf (e.part part).cores).headD 0, wslot := 127, lanes := 0, tag := x.tag }
    HeadOnly part k v t ∧ headWord t part k 0x30 / 2 ^ 24 % 2 ^ 8 = 3 ∧
    ((v.part part).faultQ.length < 4096 → (headOf t part k).encoding = some { x with waitSeq := some (v.part part).faultSeq, draft := none } ∧
      (t.part part).faultQ = (v.part part).faultQ ++ [{ draft := d, seq := (v.part part).faultSeq, copied := false }]) ∧
    (4096 ≤ (v.part part).faultQ.length → (headOf t part k).encoding = some { x with draft := some d } ∧ (t.part part).faultQ = (v.part part).faultQ)

/-- An encoded frame enters the ring, or waits for room and is counted in LATE once, or the ring cannot take it and ERR is 2 (R448; log 72). -/
structure UnitPut (e : Fw) (part k len : Nat) (x : HeadFrame) (u t : Mach) : Prop where
  badRing : (headSeen u part k 0x18 % 2 ^ 6 < 12 ∨ 30 < headSeen u part k 0x18 % 2 ^ 6) → HeadOnly part k { u with fresh := u.fresh + 1 } t ∧ headWord t part k 0x30 / 2 ^ 24 % 2 ^ 8 = 2 ∧ (headOf t part k).encoding = some x
  full : 12 ≤ headSeen u part k 0x18 % 2 ^ 6 → headSeen u part k 0x18 % 2 ^ 6 ≤ 30 →
    2 ^ (headSeen u part k 0x18 % 2 ^ 6) < (headWord u part k 0x28 % 2 ^ 32 + 2 ^ 32 - headSeen u part k 0x20 / 2 ^ 32) % 2 ^ 32 + unitSize len →
    HeadOnly part k { u with fresh := u.fresh + 1 } t ∧ headWord t part k 0x28 = headWord u part k 0x28 ∧ (headOf t part k).encoding = some { x with late := true } ∧
    headWord t part k 0x30 / 2 ^ 32 % 2 ^ 16 = (if x.late then headWord u part k 0x30 / 2 ^ 32 % 2 ^ 16 else min 0xFFFF (headWord u part k 0x30 / 2 ^ 32 % 2 ^ 16 + 1))
  room : 12 ≤ headSeen u part k 0x18 % 2 ^ 6 → headSeen u part k 0x18 % 2 ^ 6 ≤ 30 →
    (headWord u part k 0x28 % 2 ^ 32 + 2 ^ 32 - headSeen u part k 0x20 / 2 ^ 32) % 2 ^ 32 + unitSize len ≤ 2 ^ (headSeen u part k 0x18 % 2 ^ 6) →
    let base := headSeen u part k 0x18 / 2 ^ 12 * 2 ^ 12
    let log := headSeen u part k 0x18 % 2 ^ 6
    let widx := headWord u part k 0x28 % 2 ^ 32
    (∀ v f, firstFault e part .store { u with fresh := u.fresh + 1 } (ringPages base log widx (unitSize len)) = (v, some f) → HeadOnly part k v t ∧ headWord t part k 0x30 / 2 ^ 24 % 2 ^ 8 = 2) ∧
    (∀ v, firstFault e part .store { u with fresh := u.fresh + 1 } (ringPages base log widx (unitSize len)) = (v, none) →
      HeadOnly part k (ringPut e part base log v widx (unitBytes u.fresh x len)) t ∧ (headOf t part k).encoding = none ∧
      headWord t part k 0x28 % 2 ^ 32 = (headWord u part k 0x28 + unitSize len) % 2 ^ 32 ∧ headWord t part k 0x28 / 2 ^ 32 = (headWord u part k 0x28 / 2 ^ 32 + 1) % 2 ^ 32)

/-- The frame past its refresh does not wait for a fault record (10 R272). -/
def goesOn (m : Mach) (part : Nat) (x : HeadFrame) : Prop := x.draft = none ∧ ∀ n, x.waitSeq = some n → ∀ r ∈ (m.part part).faultQ, r.seq ≠ n

def displayForm : Instr → Option EventForm
  | .headRefresh => some (.mk
      (fun s => let h := headOf s.m s.subj.part s.subj.unit
        (h.encoding = none ∧ h.on = true ∧ ∃ x, h.waiting = some x) ∨ ∃ x, h.encoding = some x ∧ x.read = false ∧ goesOn s.m s.subj.part x)
      (fun s t =>
        let p := s.subj.part
        let k := s.subj.unit
        let h := headOf s.m p k
        t = { s with m := t.m } ∧
        (∀ x, h.encoding = none → h.waiting = some x → ∃ v, HeadOnly p k s.m v ∧ (v.part p).headW = (s.m.part p).headW ∧ (v.part p).faultQ = (s.m.part p).faultQ ∧ (v.part p).faultSeq = (s.m.part p).faultSeq ∧
          headOf v p k = { h with waiting := none, encoding := some x } ∧ SurfaceRead s.fw p k x v t.m) ∧
        ∀ x, h.encoding = some x → SurfaceRead s.fw p k x s.m t.m))
  | .temporalUnitWrite len => some (.mk (fun s => ∃ x, (headOf s.m s.subj.part s.subj.unit).encoding = some x ∧ x.read = true)
      (fun s t => t = { s with m := t.m } ∧ ∀ x, (headOf s.m s.subj.part s.subj.unit).encoding = some x → UnitPut s.fw s.subj.part s.subj.unit len x s.m t.m))
  | _ => none

/-! ### The life of a bundle (01 R23 to R29; 04 R90 to R101) -/

/-- A bundle is refused with a status (01 R29): its record is written, its set mask applied, and it is gone. -/
def Refused (e : Fw) (id : Nat) (x : Bundle) (hdr : List Nat) (set status : Nat) (u t : Mach) : Prop := t = u.refuse e id x hdr set status ∧ t.bundles.get? id = none

/-- Wait or set masks of the records that can be read, together. -/
def masksOf (f : Launch → Nat) (rs : List (Option (List Nat))) : Nat := ((rs.filterMap (fun r => r)).map (fun r => f (Launch.ofRecord r))).foldl (· ||| ·) 0

/-- The start evaluation of a bundle at HEAD (01 R29; 04 R91): header, chain of control blocks, launch records, coverage records, in this order; the first that fails refuses the bundle, and a bundle that passes waits for its admission. -/
structure Evaluated (e : Fw) (id : Nat) (x : Bundle) (u t : Mach) : Prop where
  unread : readBundle e u x.part x.addr = none → Refused e id x [] 0 0x42 u t
  header : ∀ h rs, readBundle e u x.part x.addr = some (h, rs) → Hdr.ok h = false → Refused e id x h (masksOf Launch.setMask rs) 0x42 u t
  chain : ∀ h rs v, readBundle e u x.part x.addr = some (h, rs) → Hdr.ok h = true → walkChain e x.part 8 u (Hdr.rcb h) none = (v, none) → Refused e id x h (masksOf Launch.setMask rs) 0x41 v t
  passes : ∀ h rs v ch, readBundle e u x.part x.addr = some (h, rs) → Hdr.ok h = true → walkChain e x.part 8 u (Hdr.rcb h) none = (v, some ch) →
    ((∃ f ∈ effsAll (ch.map Prod.snd), effOk f = false) → ∃ set, Refused e id x h set 0x41 v t) ∧
    ((∀ f ∈ effsAll (ch.map Prod.snd), effOk f = true) →
      let n := v.noteLowered x.part (ch.map Prod.fst) (effsAll (ch.map Prod.snd))
      (n = { v with rcbs := n.rcbs } ∧ ∀ k, (n.rcbs.get? k).map (fun r => r.words) = (v.rcbs.get? k).map (fun r => r.words)) ∧
      ((∃ r ∈ rs, ∀ w, r = some w → Launch.valid (Launch.ofRecord w) = false) → ∃ set, Refused e id x h set 0x43 n t) ∧
      ((∀ r ∈ rs, ∃ w, r = some w ∧ Launch.valid (Launch.ofRecord w) = true) →
        (withCovs e n x.part ((rs.filterMap (fun r => r)).map Launch.ofRecord) = none → ∃ set, Refused e id x h set 0x44 n t) ∧
        (∀ ls, withCovs e n x.part ((rs.filterMap (fun r => r)).map Launch.ofRecord) = some ls → t = { n with bundles := t.bundles } ∧
          ∃ y, t.bundles.get? id = some y ∧ y.st = .admitting ∧ y.hdr = h ∧ y.chain = ch.map Prod.fst ∧ y.effs = effsAll (ch.map Prod.snd) ∧ y.launches.length = ls.length ∧
            y = { x with st := y.st, hdr := y.hdr, chain := y.chain, effs := y.effs, launches := y.launches })))

/-- Admission (04 R93, R94; 05 R119; 03 R75): a persistent launch that no machine could hold refuses the bundle; one that the tenant's counters hold back is counted as deferred, once; the bundle whose turn it is runs, with its counters, and its queue goes on. -/
structure Admitted (e : Fw) (id : Nat) (x : Bundle) (u t : Mach) : Prop where
  refused : u.persistRefused e id x = true → ∃ set, Refused e id x x.hdr set 0x45 u t
  counted : u.persistRefused e id x = false → u.quotaAdmits e x = false → x.deferred = false → t = { u with tenants := t.tenants, bundles := t.bundles } ∧
    (t.tenant x.tag).word 0x20 % 2 ^ 32 = ((u.tenant x.tag).word 0x20 + 1) % 2 ^ 32 ∧ ∀ b, t.bundles.get? b = (u.bundles.get? b).map (fun (y : Bundle) => if b = id then { y with deferred := true } else y)
  runs : u.persistRefused e id x = false → (u.quotaAdmits e x = true ∨ x.deferred = true) → (∃ y, u.admitNext e x.part = some (id, y)) →
    (∃ y, t.bundles.get? id = some y ∧ y.st = .running ∧ y.admitted = (u.part x.part).admits ∧ y.depctr = x.launches.length ∧ ∀ l ∈ y.launches, l.2.accepted = true) ∧
    (t.part x.part).admits = (u.part x.part).admits + 1 ∧ (t.part x.part).lastQueue = x.queue
  waits : u.persistRefused e id x = false → (u.quotaAdmits e x = true ∨ x.deferred = true) → (∀ y, u.admitNext e x.part ≠ some (id, y)) → t = u

/-- Every unit of a bundle has finished: its blocks, passes, copies, tasks and requests (04 R96). -/
def finished (m : Mach) (id : Nat) (x : Bundle) : Prop :=
  (x.st = .running ∨ x.st = .draining) ∧ (∀ l ∈ x.launches, l.2.kind = 0 → l.2.blockCount ≤ l.2.next) ∧ (∀ b ∈ m.blocks, b.2.bundle = id → b.2.st = .exited ∨ b.2.st = .held) ∧
  (∀ d ∈ m.darns, d.2.bundle ≠ id) ∧ (∀ c ∈ m.copies, c.2.bundle ≠ id) ∧ (∀ k ∈ m.tasks, k.2.bundle ≠ id) ∧ ∀ l ∈ x.launches, l.2.kind = 2 → l.2.gridX ≤ l.2.taken ∧ l.2.reqDraft = none

def launchForm : Instr → Option EventForm
  | .bundleStartEvaluation => some (.mk (fun s => ∃ x, s.m.bundles.get? s.subj.bundle = some x ∧ s.m.startDue s.fw x = true)
      (fun s t => ∀ x, s.m.bundles.get? s.subj.bundle = some x → ∃ v, Evaluated s.fw s.subj.bundle x s.m v ∧ t = ({ s with m := v } : State).settleUnbind))
  | .bundleAdmit => some (.mk (fun s => ∃ x, s.m.bundles.get? s.subj.bundle = some x ∧ x.st = .admitting)
      (fun s t => ∀ x, s.m.bundles.get? s.subj.bundle = some x → ∃ v, Admitted s.fw s.subj.bundle x s.m v ∧ t = ({ s with m := v } : State).settleUnbind))
  | .bundleRetire => some (.mk (fun s => ∃ x, s.m.bundles.get? s.subj.bundle = some x ∧ finished s.m s.subj.bundle x)
      (fun s t => t.m.bundles.get? s.subj.bundle = none ∧ ∀ x, s.m.bundles.get? s.subj.bundle = some x → t = ({ s with m := s.m.retire s.fw s.subj.bundle x } : State).settleUnbind))
  | .dispatcherStep => some (.mk (fun s => ∃ c, s.m.dispatch s.fw s.subj.part = some c ∧ c.isRestore = false)
      (fun s t => t = { s with m := t.m } ∧ ∀ c, s.m.dispatch s.fw s.subj.part = some c → t.m = s.m.runChoice s.fw c))
  | _ => none

/-! ### Saves, restores, the deadlock rule, the watchdog (05 R120, R123; 16 R414 to R427) -/

/-- A warp of a block is named by the trap that the handler of its core serves (R406). -/
def serves (m : Mach) (id : Nat) : Prop := ∃ w ∈ m.warps, w.1 % 128 ≠ handlerSlot ∧ w.2.blk = id ∧ ∃ v, (m.core (w.1 / 128)).service = some v ∧ w.1 % 128 ∈ v.slots

/-- A slice's chain holds threads of a block. -/
def chainOf (m : Mach) (id core j : Nat) : Prop := ∃ h, (m.slc core j).chain = some h ∧ ∃ x ∈ h.members, (m.warp core x.slot).blk = id ∧ x.slot ≠ handlerSlot

/-- A block lets itself be saved (R415): $PREEMPT is set, nothing of it is in service or chained, and every thread is where it may be left. -/
def leavable (s : State) (id : Nat) (k : Block) : Prop :=
  s.m.blocks.get? id = some k ∧ k.st = .resident ∧ k.preempt = true ∧ ¬ serves s.m id ∧ (∀ c, c < 6 → ¬ chainOf s.m id k.core c) ∧
  ∀ w ∈ s.m.warps, w.1 % 128 ≠ handlerSlot → w.2.blk = id → ∀ t ∈ w.2.threads, threadQuiet s.fw s.m k.core w.2.slice ((s.fw.ownerOf k.core).getD 0) (w.1 % 128) t.1 t.2 = true

/-- Its deadline has passed (R416). -/
def overdue (s : State) (id : Nat) (k : Block) : Prop :=
  s.m.blocks.get? id = some k ∧ k.st = .resident ∧ k.preempt = true ∧ k.deadline ≤ (s.m.shard (k.core / 16)).cycle ∧ ¬ serves s.m id

/-- A copy whose engine has begun it and must complete it; a copy as a reissue finds it, from its start (11 R306). -/
def mustGoOn (c : Copy) : Prop := c.ended = true ∨ (c.started = true ∧ (c.dir = 4 ∨ (c.dir = 7 ∧ ∃ r ∈ c.rcvs, r.blk ≠ none)))
def fromStart (c : Copy) : Copy :=
  { c with
    spill := none, started := false, pos := 0, sub := 0, status := 0, waitSeq := none, draft := none, ended := false,
    rcvs := if c.dir = 7 then c.rcvs.map (fun r => { r with offered := false, blk := none, done := false }) else c.rcvs }

/-- A SAVE HAS BEGUN (R416, R425; 07 R183, R194; 11 R306; 12 R317): the block's chains are broken and its slices' marks for it given up, results of fixed latency are written, its matrix operations have stopped; the block is being saved, with its reason, unless it has thereby come to its end; a save that begins while FLUSHABLE is 1 is a flush, and cancels the block's copies; another puts those it cancels into the reissue list, in issue order and ahead of those that waited there, with their bytes back in their barriers' counts. -/
structure SaveBegun (id : Nat) (k : Block) (why : Nat) (u v : Mach) : Prop where
  chains : ∀ j, j < 6 → chainOf u id k.core j → (v.slc k.core j).chain = none
  marks : ∀ j x, j < 6 → (u.slc k.core j).mark = some x → x.oldest.slot ≠ handlerSlot → (u.warp k.core x.oldest.slot).blk = id → (v.slc k.core j).mark = none
  results : ∀ x ∈ u.slotsOf id, ∀ w ∈ (v.slc x.1 (u.warp x.1 x.2).slice).wbs, w.slot = x.2 → ∃ n cells, w.what = .latch n cells
  matrix : ∀ x ∈ v.mmas, x.2.blk ≠ id
  block : ∃ y, v.blocks.get? id = some y ∧ (y.st = .saving ∨ y.st = .exited) ∧
    ((∃ c l w, l < handlerSlot ∧ u.warps.get? (wk c l) = some w ∧ w.blk = id ∧ w.allExited = false) → y.st = .saving)
  saving : ∀ y, v.blocks.get? id = some y → y.st = .saving → y.why = (if k.why = 0 then why else k.why) ∧ y.flushing = (k.flushable && decide (y.why ≠ 3 ∧ y.why ≠ 4)) ∧
    (y.bundle, y.launch, y.lin, y.core, y.age, y.frame, y.covf, y.preempt, y.flushable) = (k.bundle, k.launch, k.lin, k.core, k.age, k.frame, k.covf, k.preempt, k.flushable)
  flush : ∀ y, v.blocks.get? id = some y → y.st = .saving → y.flushing = true → v.copies = u.copies.filter (fun c => decide (c.2.blk ≠ some id))
  cancels : ∀ y, v.blocks.get? id = some y → y.st = .saving → y.flushing = false → u.copies.sorted = true → ∃ cs : List (Nat × Copy),
    cs.Sublist u.copies ∧ (∀ c ∈ cs, c.2.blk = some id ∧ ¬ mustGoOn c.2) ∧ (∀ c ∈ u.copies, c.2.blk = some id → ¬ mustGoOn c.2 → (c.2.started = false ∨ u.copyWaits c.2 = true) → c ∈ cs) ∧
    v.copies = u.copies.filter (fun c => decide (c ∉ cs)) ∧ y.reissue = cs.map (fun c => fromStart c.2) ++ k.reissue ∧
    ∀ off, (∀ c ∈ cs, ∀ o, c.2.bar = some o → o = off ∨ o + 8 ≤ off ∨ off + 8 ≤ o) → (v.bcObj id off).1 = (u.bcObj id off).1 ∧
      (v.bcObj id off).2 = ((u.bcObj id off).2 + ((cs.filter (fun c => c.2.bar = some off)).map (fun c => c.2.sub)).sum) % 2 ^ 32
  others : (∀ x ∈ u.mmas, x.2.blk = id → (u.warp x.2.core x.2.slot).blk = id) → ∀ j, j ≠ id → v.blocks.get? j = u.blocks.get? j

/-- Nothing of a block is in flight, no copy of it is left, and the fills it accepted are done (R416). -/
def quietNow (m : Mach) (id : Nat) : Prop :=
  (∀ x ∈ m.slotsOf id, (∀ a ∈ m.accesses, a.2.core = x.1 → ∀ y ∈ a.2.members, y.slot ≠ x.2) ∧ (∀ a ∈ m.fences, a.2.core = x.1 → ∀ y ∈ a.2.members, y.slot ≠ x.2) ∧
    (∀ a ∈ m.macros, a.2.core = x.1 → ∀ y ∈ a.2.members, y.slot ≠ x.2) ∧ ∀ o ∈ m.mmas, ¬ (o.2.core = x.1 ∧ o.2.slot = x.2)) ∧
  ∀ c ∈ m.copies, c.2.blk ≠ some id ∧ ∀ r ∈ c.2.rcvs, r.blk = some id → r.done = true

/-- Records written one after another in a partition's memory; words whose page does not take them are left. -/
def writeAll (e : Fw) (p : Nat) (m : Mach) (rs : List (Nat × List Nat)) : Mach := rs.foldl (fun m r => (writeRecord e m p r.1 r.2).1) m

/-- The frame header, from its table (R419). -/
def frameHeader (x : Bundle) (l : Launch) (b : Block) (fstate : Nat) : List Nat :=
  let i := l.blockIdx b.lin
  let first (h : Nat) : Nat := ((b.accs.filter (fun a => a.1 < h)).map (fun a => a.2.units)).sum
  [fstate * 2 ^ 62 + (if b.flushable then 2 ^ 61 else 0) + (l.warps - 1) * 2 ^ 56 + l.peak * 2 ^ 47 + b.reissue.length * 2 ^ 32 + b.tasks.length * 2 ^ 16, b.age % 2 ^ 64, x.addr + 64 + 128 * b.launch,
   i.1 * 2 ^ 40 + i.2.1 * 2 ^ 24 + i.2.2 * 2 ^ 8, l.rcd.getD 4 0, b.why * 2 ^ 56 + b.rcause * 2 ^ 48 + b.covf * 2 ^ 32, b.wdexp * 2 ^ 32 + b.wdcnt % 2 ^ 32, 0] ++
  (List.range 16).map (fun n => let y := b.bars.get n Bar.reset; (if y.phase then 2 ^ 63 else 0) + (if y.fixed then 2 ^ 62 else 0) + y.arrived * 2 ^ 32 + y.expect) ++
  (List.range 16).map (fun n => (b.tiles.get n Tile.reset).controlWord) ++
  (List.range 16).map (fun h => match b.accs.get? h with
    | some a => 2 ^ 63 + (if a.sat then 2 ^ 62 else 0) + ((a.m - 1) * 2 ^ 8 + (a.n - 1)) * 2 ^ 32 + a.fmt * 2 ^ 24 + a.units * 2 ^ 16 + first h
    | none => 0)

/-- A block's frame, by address: header, tasks, each warp's control record and the registers of its mapped names, the reissue list with the records its DIR 5 copies keep, the scratchpad image, the accumulator image (R418 to R421). -/
def frameRecords (m : Mach) (x : Bundle) (l : Launch) (b : Block) (fstate : Nat) : List (Nat × List Nat) :=
  let at_ := m.frameAddr b
  [(at_, frameHeader x l b fstate)] ++
  b.tasks.mapIdx (fun i t => (at_ + 0x3000 + 32 * i, t.2.rcd)) ++
  (List.range l.warps).flatMap (fun n => match b.warps.get? n with
    | some w => (at_ + 0x10000 + 0x1000 * n, w.ctlRecord (b.traps.find? (fun t => t.slots.contains n))) ::
        ((List.range 256).filter (fun r => (List.range 32).any (fun i => (Tab.get? w.v (32 * r + i)).isSome))).map (fun r => (at_ + 0x200000 + 0x8000 * n + 128 * r, w.vecWords r))
    | none => [(at_ + 0x10000 + 0x1000 * n, [0])]) ++
  (b.reissue.mapIdx (fun i c => (at_ + 0x30000 + 128 * i, c.entryWords ((b.warps.get c.warp Warp.absent).thread c.lane)) ::
    (if c.dir = 5 then [(at_ + 0x38000 + 64 * i, (List.range 8).map (fun j => c.drec.getD j 0))] else []))).flatten ++
  [(at_ + 0x300000, (List.range (l.scrBytes / 8)).map (fun i => scrRead b (8 * i) 8))] ++
  b.accs.map (fun a => (at_ + 0x400000 + 4096 * ((b.accs.filter (fun y => y.1 < a.1)).map (fun y => y.2.units)).sum, pairUp ((List.range a.2.words).map (fun i => BitVec.ofNat 32 (a.2.word i)))))

/-- A thread that a save finds waiting inside an instruction issues it again; one at a yield point goes on after it; any other keeps its state (R417). -/
def savedThread (t : Thread) : Thread :=
  match t.st with
  | .blocked (.bar _ _) => t
  | .blocked _ => { t with st := .atPc, yieldDue := false }
  | _ => t
def reissuesIt (t : Thread) : Prop := match t.st with
  | .blocked (.bar _ _) => False
  | .blocked .yieldPoint => False
  | .blocked _ => True
  | _ => False

/-- A warp in its block's frame: its threads as the save found them; what its waiting lanes issue again has armed no flag (R417; log 31). -/
structure SavedWarp (w y : Warp) : Prop where
  rest : y = { w with threads := y.threads, flags := y.flags, owes := y.owes }
  threads : ∀ l, y.thread l = savedThread (w.thread l)
  owes : w.threads.sorted = true → ∃ mask : Word, (∀ l, l < 32 → w.threads.has l = true → (laneBit mask l = true ↔ reissuesIt (w.thread l))) ∧
    y.owes = (w.owes.map (fun o => { o with lanes := o.lanes &&& ~~~mask })).filter (fun o => o.lanes ≠ 0) ∧
    ∀ j, y.flagCount j = w.flagCount j - if j < 12 then (w.owes.filter (fun o => o.flag = j ∧ o.lanes &&& ~~~mask = 0)).length else 0

/-- A running task stops with its progress, which its record holds in STEPNO (12 R324). -/
def stoppedTask (x : Task) : Task := if x.st = .running then { x with st := .waiting, reserve := 0, since := none, rcd := x.rcd.set 3 (x.step * 2 ^ 32) } else x

/-- STEPNO words of the block's running tasks, each in its entry of the launch's list where it has one. -/
def stepnos (m : Mach) (id : Nat) : List (Nat × List Nat) :=
  (m.tasks.filter (fun t => t.2.blk = id)).flatMap (fun t => if t.2.st = .running then
    match t.2.claim, m.bundles.get? t.2.bundle with
    | some (k, i), some x => (match x.launches.get? k with
      | some l => [(l.entry + 32 * i + 24, [t.2.step * 2 ^ 32])]
      | none => [])
    | _, _ => []
    else [])

/-- What every end of a save leaves: the block's warps are in no slot and in no trap of a queue; its core is to be cleaned; its launch's share goes with the last of its blocks there; other blocks, and warps of launches with no work graph, stay. -/
structure LeavesCore (id : Nat) (y : Block) (v t : Mach) : Prop where
  warps : ∀ w ∈ t.warps, w.1 % 128 = handlerSlot ∨ w.2.blk ≠ id
  kept : ∀ l, v.launch? y = some l → l.wg = none → ∀ c j, j < 128 → (j = handlerSlot ∨ (v.warp c j).blk ≠ id) → t.warp c j = v.warp c j
  traps : ∀ c, ∀ q ∈ (t.core c).trapq, ∀ l ∈ q.slots, (c, l) ∉ v.slotsOf id
  cores : ∀ c, t.core c = { v.core c with trapq := (t.core c).trapq, service := (t.core c).service, shares := (t.core c).shares, dirty := if c = y.core then true else (v.core c).dirty }
  share : (∃ o ∈ t.blocks, o.2.core = y.core ∧ o.2.bundle = y.bundle ∧ o.2.launch = y.launch ∧ (o.2.st = .resident ∨ o.2.st = .saving)) ∨ ∀ h ∈ (t.core y.core).shares, ¬ (h.bundle = y.bundle ∧ h.launch = y.launch)
  others : ∀ j, j ≠ id → t.blocks.get? j = v.blocks.get? j
  only : t = { v with blocks := t.blocks, warps := t.warps, tasks := t.tasks, cores := t.cores, bundles := t.bundles, mem := t.mem }

/-- A SAVE HAS ENDED (R417 to R421; 12 R324; 17 R435): the block is saved, or held after a watchdog's or a dump's save; it keeps its registers, scratchpad, tiles, barriers, accumulators, copies to issue again, age, frame and counts; it holds its warps by number, the traps not yet served, and its tasks on chip, stopped; its flags of exceptions have joined the bundle's; its frame is written with FSTATE 2, or 3 where it is held. -/
structure SaveEnded (e : Fw) (id : Nat) (y : Block) (v t : Mach) : Prop where
  leaves : LeavesCore id y v t
  block : ∃ z, t.blocks.get? id = some z ∧
    z = { y with
      st := if y.why = 3 ∨ y.why = 4 then .held else .saved, preempt := false, accWait := [], accUse := [], traps := z.traps, warps := z.warps, tasks := z.tasks,
      wdcnt := y.wdcnt + ((v.shard (y.core / 16)).cycle - y.wdbase), rcause := if y.why = 3 then 0x28 else 0 } ∧
    z.traps = ((v.core y.core).trapq.map (fun q => { q with slots := (q.slots.filter (fun l => decide ((v.warp y.core l).blk = id ∧ v.warps.has (wk y.core l) = true))).map (fun l => (v.warp y.core l).num) })).filter
      (fun q => decide (q.slots ≠ [])) ∧
    ((∀ p ∈ v.warps, ∀ q ∈ v.warps, p.1 % 128 ≠ handlerSlot → q.1 % 128 ≠ handlerSlot → p.2.blk = id → q.2.blk = id → p.2.num = q.2.num → p = q) →
      (∀ p ∈ v.warps, p.1 % 128 ≠ handlerSlot → p.2.blk = id → ∃ w, z.warps.get? p.2.num = some w ∧ SavedWarp p.2 w) ∧
      ∀ n, (∀ p ∈ v.warps, p.1 % 128 ≠ handlerSlot → p.2.blk = id → p.2.num ≠ n) → z.warps.get? n = none) ∧
    (v.tasks.sorted = true → ∀ n x, v.tasks.get? n = some x → (x.blk ≠ id → t.tasks.get? n = some x) ∧
      (x.blk = id → x.spill = none → t.tasks.get? n = none ∧ z.tasks.get? n = some (stoppedTask x)) ∧ (x.blk = id → x.spill ≠ none → t.tasks.get? n = if y.why = 3 ∨ y.why = 4 then none else some (stoppedTask x))) ∧
    ∀ x l, v.bundles.get? y.bundle = some x → x.launches.get? y.launch = some l →
      (∃ x' l', t.bundles.get? y.bundle = some x' ∧ x'.launches.get? y.launch = some l' ∧ x'.tally.exc = (v.slotsOf id).foldl (fun a s => a ||| (v.warp s.1 s.2).summary) x.tally.exc ∧
        x'.status = x.status ∧ l'.live = if y.why = 3 ∨ y.why = 4 then l.live - 1 else l.live) ∧
      ((∀ n ∈ v.tasks, n.2.blk = id → n.2.bundle = y.bundle) → t.mem = (writeAll e x.part v (stepnos v id ++ frameRecords v x l z (if y.why = 3 ∨ y.why = 4 then 3 else 2))).mem)

/-- A FLUSH HAS ENDED (R425): every register, scratchpad byte, tile, barrier and accumulator of the block is discarded, with its tasks, traps and copies; it keeps its age, its frame and its F, and will be placed again; its frame's header has FSTATE 1. -/
structure BlockFlushed (e : Fw) (id : Nat) (y : Block) (v t : Mach) : Prop where
  leaves : LeavesCore id y v t
  block : ∃ z, t.blocks.get? id = some z ∧
    z = { y with st := .flushed, preempt := false, why := 0, scratch := [], tiles := [], bars := [], accs := [], accWait := [], accUse := [], reissue := [], tasks := [], traps := [], warps := [], wdcnt := 0, wdexp := 0, flushing := false } ∧
    t.tasks = v.tasks.filter (fun x => decide (x.2.blk ≠ id)) ∧
    ∀ x l, v.bundles.get? y.bundle = some x → x.launches.get? y.launch = some l → t.mem = (writeRecord e v x.part (v.frameAddr y) (frameHeader x l z 1)).1.mem

/-- A save under way ends once nothing of the block is in flight and the handler serves none of its warps; where its partition's dump waited for it, the dump goes on (R416, R431). -/
structure SaveGoesOn (e : Fw) (id : Nat) (v t : Mach) : Prop where
  idle : (∀ y, v.blocks.get? id = some y → y.st ≠ .saving) → t = v
  waits : ∀ y, v.blocks.get? id = some y → (¬ quietNow v id ∨ serves v id) → t = v
  ends : ∀ y, v.blocks.get? id = some y → y.st = .saving → quietNow v id → ¬ serves v id →
    ∃ w, (y.flushing = false → SaveEnded e id y v w) ∧ (y.flushing = true → BlockFlushed e id y v w) ∧ ((v.part (v.partOf y)).dumps = [] → t = w) ∧ ((v.part (v.partOf y)).dumps ≠ [] → t = w.goOnDump e (v.partOf y))

/-- COPIES ARE ISSUED AGAIN from a block's list, in its order, on the block's core, while the budgets have a slot for the next (R422; 19 R457). -/
inductive Reissued (id core : Nat) : List Copy → Mach → Mach → Prop
  | done (u : Mach) : Reissued id core [] u u
  | waits (c : Copy) (r : List Copy) (u : Mach) : u.quotaCause c.bundle copyStore (u.copyUsed core) ((u.copyQ c.bundle c.launch core).map (fun y => y.2.spill)) 1 ≠ 0 → Reissued id core (c :: r) u u
  | goes (c : Copy) (r : List Copy) (u v t : Mach) : u.quotaCause c.bundle copyStore (u.copyUsed core) ((u.copyQ c.bundle c.launch core).map (fun y => y.2.spill)) 1 = 0 →
      v = { u with copies := v.copies, blocks := v.blocks, nextId := u.nextId + 1 } →
      (∀ n, v.copies.get? n = if n = u.nextId then some { c with core, shard := core / 16, spill := copyStore.place (u.copyUsed core) ((u.copyQ c.bundle c.launch core).map (fun y => y.2.spill)) } else u.copies.get? n) →
      (∀ n, v.blocks.get? n = (u.blocks.get? n).map (fun k => if n = id then { k with reissue := r } else k)) → Reissued id core r v t → Reissued id core (c :: r) u t

/-- A warp of a context takes a slot of its slice again, a free one where there is one: its threads at their program counters have the restore cycle as their stamp (R422). -/
structure WarpBack (w : Warp) (core slice slot : Nat) (u v : Mach) : Prop where
  only : v = { u with warps := v.warps, slices := v.slices } ∧ ∀ n, n ≠ wk core slot → v.warps.get? n = u.warps.get? n
  place : 16 * slice ≤ slot ∧ slot < 16 * slice + 16 ∧ ((∃ j, 16 * slice ≤ j ∧ j < 16 * slice + 16 ∧ u.warps.has (wk core j) = false) → u.warps.has (wk core slot) = false)
  warp : ∃ y, v.warps.get? (wk core slot) = some y ∧ y = { w with slice, threads := y.threads } ∧
    ∀ l, y.thread l = if (w.thread l).st = .atPc ∧ w.threads.has l = true then { w.thread l with stamp := (u.slc core slice).cyc + 1, lastIssue := 0 } else w.thread l
inductive WarpsBack (k : Block) (core : Nat) : List (Nat × Nat) → Mach → Mach → Prop
  | done (u : Mach) : WarpsBack k core [] u u
  | next (num slice slot : Nat) (r : List (Nat × Nat)) (u v t : Mach) : WarpBack (k.warps.get num Warp.absent) core slice slot u v → WarpsBack k core r v t → WarpsBack k core ((num, slice) :: r) u t

/-- A CONTEXT IS BACK ON A CORE (R422; 04 R107; 05 R120): its warps are in the slots its placement found; its tasks are queued ahead of its launch's there, in their order; its traps are queued again; the block is resident with all that it held; FSTATE is 1; and its copies are issued again. -/
structure ContextBack (e : Fw) (id core : Nat) (seats : List (Nat × Nat)) (rr : Nat) (k : Block) (x : Bundle) (u t : Mach) : Prop where
  copies : ∃ v, Reissued id core k.reissue v t ∧
    (∀ n, v.blocks.get? n = if n = id then some { k with core, st := .resident, preempt := false, why := 0, rcause := 0, wdbase := (u.shard (core / 16)).cycle, warps := [], tasks := [], traps := [] } else u.blocks.get? n) ∧
    (∃ a b : Mach, (∀ j, j < 6 → a.slc core j = caughtUp e u core j) ∧ a.warps = u.warps ∧ WarpsBack k core seats a b ∧ v.warps = b.warps) ∧
    (k.tasks.sorted = true → (∀ n y, k.tasks.get? n = some y → ∃ z, v.tasks.get? n = some z ∧ z = { y with core, order := z.order, spill := z.spill, interval := 0, since := none } ∧
        ∀ i o, k.tasks.has i = false → u.tasks.get? i = some o → o.blk ≠ id → o.bundle = k.bundle → o.launch = k.launch → o.core = core → o.st ≠ .running → z.order < o.order) ∧
      (∀ n i y o z q, k.tasks.get? n = some y → k.tasks.get? i = some o → y.order < o.order → v.tasks.get? n = some z → v.tasks.get? i = some q → z.order < q.order) ∧
      ∀ n o, k.tasks.has n = false → u.tasks.get? n = some o → o.blk ≠ id → v.tasks.get? n = some o) ∧
    ((∀ q ∈ (u.core core).trapq, q ∈ (v.core core).trapq) ∧ ∀ q ∈ k.traps, ∃ z ∈ (v.core core).trapq, z = { q with slots := z.slots, at_ := z.at_ } ∧
      z.slots = (List.range 96).filter (fun l => q.slots.any (fun n => decide ((v.warpByNum id n).map Prod.snd = some l)))) ∧
    (∃ h ∈ (v.core core).shares, h.bundle = k.bundle ∧ h.launch = k.launch) ∧ v.copies = u.copies ∧
    ((∀ d, readRecord e u (u.partOf k) (u.frameAddr k) 1 = some [d] → v.mem = (writeRecord e u (u.partOf k) (u.frameAddr k) [d % 2 ^ 62 + 2 ^ 62]).1.mem) ∧
      (readRecord e u (u.partOf k) (u.frameAddr k) 1 = none → v.mem = u.mem)) ∧
    ∀ p, v.part p = (u.moveCursor e x.part rr).part p

/-- Contexts that come back together, in order, each where its placement finds room (03 R78; 05 R117, R120). -/
inductive ContextsBack (e : Fw) (x : Bundle) (l : Launch) : List (Nat × Block) → Mach → Mach → Prop
  | done (u : Mach) : ContextsBack e x l [] u u
  | next (id : Nat) (k : Block) (r : List (Nat × Block)) (core : Nat) (seats : List (Nat × Nat)) (rr : Nat) (u v t : Mach) :
      u.chooseCore e k.bundle x k.launch l k.warps.keys k.unitsHeld false = some (core, seats, rr) → ContextBack e id core seats rr k x u v → ContextsBack e x l r v t → ContextsBack e x l ((id, k) :: r) u t

/-- A context that fits no core is held (05 R120; 16 R423): its block and its frame say RESTORE_CAPACITY, its tasks are given up, and the bundle's status, its count of such contexts and the first one's frame say so. -/
structure ContextHeld (e : Fw) (id : Nat) (u v : Mach) : Prop where
  block : ∀ n, v.blocks.get? n = (u.blocks.get? n).map (fun k => if n = id then { k with st := .held, rcause := 0x25 } else k)
  tasks : v.tasks = u.tasks.filter (fun t => decide (t.2.blk ≠ id))
  only : v = { u with blocks := v.blocks, tasks := v.tasks, bundles := v.bundles, mem := v.mem }
  bundle : ∀ k x l, u.blocks.get? id = some k → u.bundles.get? k.bundle = some x → x.launches.get? k.launch = some l → ∃ x' l', v.bundles.get? k.bundle = some x' ∧ x'.launches.get? k.launch = some l' ∧
    x'.status = (if statusRank x.status < statusRank 0x25 then 0x25 else x.status) ∧ x'.tally.nrestf = x.tally.nrestf + 1 ∧ x'.tally.rframe = (if x.tally.rframe = 0xFFFF then k.frame else x.tally.rframe) ∧ l'.live = l.live - 1 ∧
    v.mem = (writeRecord e u x.part (u.frameAddr k) (frameHeader x l { k with st := .held, rcause := 0x25 } 3)).1.mem
inductive ContextsHeld (e : Fw) : List Nat → Mach → Mach → Prop
  | done (u : Mach) : ContextsHeld e [] u u
  | next (id : Nat) (r : List Nat) (u v t : Mach) : ContextHeld e id u v → ContextsHeld e r v t → ContextsHeld e (id :: r) u t

/-- The contexts that go with one: itself, and with a persistent launch's every saved one of it, oldest first (03 R78). -/
def Together (m : Mach) (k : Block) (l : Launch) (id : Nat) (L : List (Nat × Block)) : Prop :=
  (l.persist = false → L = [(id, k)]) ∧ (l.persist = true → L.Pairwise (fun a b => a.2.age ≤ b.2.age) ∧ ∀ b, b ∈ L ↔ b ∈ m.blocks ∧ b.2.bundle = k.bundle ∧ b.2.launch = k.launch ∧ b.2.st = .saved)

/-- The deadlock rule takes the youngest resident holder of accumulators of a share, not the block that has waited longest (05 R123). -/
def youngestHolder (m : Mach) (core : Nat) (h : Share) (id : Nat) (k : Block) : Prop :=
  let holds (n : Nat) (b : Block) : Prop := m.blocks.get? n = some b ∧ b.core = core ∧ b.bundle = h.bundle ∧ b.launch = h.launch ∧ b.st = .resident ∧ b.accs ≠ [] ∧ m.oldestWaiter core h ≠ some n
  holds id k ∧ ∀ n b, holds n b → b.age < 2 ^ 64 → k.age < 2 ^ 64 → b.age ≤ k.age

/-- WDCNT of a resident block (R426). -/
def watched (m : Mach) (k : Block) : Nat := k.wdcnt + ((m.shard (k.core / 16)).cycle - k.wdbase)

/-- The second expiry (R427): the bundle has its status, every launch of it is closed, none of its passes, tasks or copies is left but for the block's own, and the block is asked to save itself at once with WHY 3. -/
structure SecondExpiry (id : Nat) (k : Block) (u t : Mach) : Prop where
  block : ∃ b, t.blocks.get? id = some b ∧ b.why = 3 ∧ (b.st = .resident → b.preempt = true) ∧
    ((∃ c l w, l < handlerSlot ∧ u.warps.get? (wk c l) = some w ∧ w.blk = id ∧ w.allExited = false) → b.st = .resident) ∧ b.deadline = (u.shard (k.core / 16)).cycle ∧ b.wdexp = k.wdexp + 1 ∧ b.wdcnt = 0 ∧ b.wdbase = (u.shard (k.core / 16)).cycle
  bundle : ∀ x, u.bundles.get? k.bundle = some x → ∃ y, t.bundles.get? k.bundle = some y ∧ y.status = (if statusRank x.status < statusRank 0x28 then 0x28 else x.status) ∧
    ∀ n l, x.launches.get? n = some l → ∃ l', y.launches.get? n = some l' ∧ l'.next = l.blockCount ∧ l'.closed = true
  units : (∀ d ∈ t.darns, d.2.bundle ≠ k.bundle) ∧ (∀ c ∈ t.copies, c.2.bundle ≠ k.bundle ∨ c.2.blk = some id) ∧ ∀ x ∈ t.tasks, x.2.bundle = k.bundle → x.2.blk = id

def saveForm : Instr → Option EventForm
  | .cooperativeSave => some (.mk (fun s => ∃ k, leavable s s.subj.blk k) (fun s t => t = { s with m := t.m } ∧ ∀ k, leavable s s.subj.blk k →
      ∃ v, SaveBegun s.subj.blk k 0 s.m v ∧ SaveGoesOn s.fw s.subj.blk v t.m))
  | .forcedSave => some (.mk (fun s => ∃ k, overdue s s.subj.blk k) (fun s t => t = { s with m := t.m } ∧ ∀ k, overdue s s.subj.blk k →
      ∃ v, SaveBegun s.subj.blk k 1 s.m v ∧ SaveGoesOn s.fw s.subj.blk v t.m))
  | .restore => some (.mk
      (fun s => ∃ k, s.m.blocks.get? s.subj.blk = some k ∧
        (k.st = .resident ∨ s.m.dispatch s.fw (s.m.partOf k) = some (.restore s.subj.blk) ∨ s.m.dispatch s.fw (s.m.partOf k) = some (.hold s.subj.blk)))
      (fun s t => t = { s with m := t.m } ∧ ∀ k, s.m.blocks.get? s.subj.blk = some k →
        (k.st = .resident → Reissued s.subj.blk k.core k.reissue s.m t.m) ∧
        (k.st ≠ .resident → ∀ x l, s.m.bundles.get? k.bundle = some x → x.launches.get? k.launch = some l → ∃ L, Together s.m k l s.subj.blk L ∧
          (s.m.dispatch s.fw (s.m.partOf k) = some (.restore s.subj.blk) → (restoreAll s.fw x l false s.m L = none → t = s) ∧ (restoreAll s.fw x l false s.m L ≠ none → ContextsBack s.fw x l L s.m t.m)) ∧
          (s.m.dispatch s.fw (s.m.partOf k) = some (.hold s.subj.blk) → (l.persist = true → s.m.blocks.sorted = true) → ContextsHeld s.fw (L.map Prod.fst) s.m t.m))))
  | .accDeadlockBreak => some (.mk (fun s => ∃ h b, s.m.stalledShare s.subj.core = some h ∧ s.m.victim s.subj.core h = some b) (fun s t => t = { s with m := t.m } ∧ ∀ h b k,
      s.m.stalledShare s.subj.core = some h → s.m.victim s.subj.core h = some b → s.m.blocks.get? b = some k →
        (s.m.blocks.sorted = true → youngestHolder s.m s.subj.core h b k) ∧
        ∃ u v w : Mach, u = { s.m with blocks := u.blocks } ∧
          (∀ n, u.blocks.get? n = (s.m.blocks.get? n).map (fun y => if n = b then { y with preempt := (decide (y.st = .resident) || y.preempt), why := 2, deadline := (s.m.shard (y.core / 16)).cycle } else y)) ∧
          (k.st = .resident → ¬ serves s.m b → SaveBegun b { k with preempt := true, why := 2, deadline := (s.m.shard (k.core / 16)).cycle } 1 u v ∧ SaveGoesOn s.fw b v w) ∧
          (k.st = .resident → serves s.m b → w = u) ∧ t.m = w.grantAcc s.subj.core))
  | .watchdogExpiry => some (.mk
      (fun s => ∃ k l, s.m.blocks.get? s.subj.blk = some k ∧ s.m.launch? k = some l ∧ k.st = .resident ∧ (if l.persist then l.progress * 4096 else 2 ^ 28) ≤ watched s.m k)
      (fun s t => t = { s with m := t.m } ∧ ∀ k, s.m.blocks.get? s.subj.blk = some k →
        (k.wdexp ≠ 0 → SecondExpiry s.subj.blk k s.m t.m) ∧
        (k.wdexp = 0 → (∃ b, t.m.blocks.get? s.subj.blk = some b ∧ b.wdexp = 1 ∧ b.wdcnt = 0 ∧ b.wdbase = (s.m.shard (k.core / 16)).cycle) ∧
          (∃ pc, Queued (s.m.core k.core).trapq ⟨s.m.trapAt k.core ((s.m.slotsOf s.subj.blk).map Prod.snd), 0x28, 0, pc, 0, (s.m.slotsOf s.subj.blk).map Prod.snd,
            bundleAt s.m k.core ((s.m.slotsOf s.subj.blk).map Prod.snd)⟩ (t.m.core k.core).trapq) ∧ ∀ j, j ≠ s.subj.blk → t.m.blocks.get? j = s.m.blocks.get? j)))
  | _ => none

/-! ### Services of the handler warp (16 R404, R406, R407) -/

/-- The handler slot of a core is free for its oldest trap: no service, no double fault, nothing of its own in flight; the trap's core cycle is over, and no block it names is being saved (R405, R406). -/
def mayServe (s : State) (c : Nat) : Prop :=
  (s.m.core c).service = none ∧ (s.m.core c).handlerDead = false ∧ s.m.inFlight c handlerSlot = false ∧ (∃ p, s.fw.ownerOf c = some p) ∧
  ∃ q r, (s.m.core c).trapq = q :: r ∧ q.at_ / 8 < (s.m.shard (c / 16)).cycle ∧ ∀ l ∈ q.slots, ∀ b, s.m.blockOf c l = some b → b.st ≠ .saving

def serviceForm : Instr → Option EventForm
  | .handlerServiceStart => some (.mk (fun s => s.m.dumpWaits s.fw s.subj.core = false ∧ mayServe s s.subj.core) (fun s t =>
      t = { s with m := { s.m with cores := t.m.cores, warps := t.m.warps, slices := t.m.slices } } ∧
      (∀ c j, j < 8 → t.m.slc c j = if c = s.subj.core ∧ j = 0 then caughtUp s.fw s.m c 0 else s.m.slc c j) ∧
      (∀ q r, (s.m.core s.subj.core).trapq = q :: r → ∀ c, t.m.core c = if c = s.subj.core then
        { s.m.core c with trapq := r, service := some { trap := q, slots := q.slots, began := (s.m.shard (c / 16)).cycle, xwr := [] } } else s.m.core c) ∧
      (∀ k, k ≠ wk s.subj.core handlerSlot → t.m.warps.get? k = s.m.warps.get? k) ∧
      (∀ l, l < 32 → ((t.m.warp s.subj.core handlerSlot).thread l).st = .atPc ∧ ∀ p, s.fw.ownerOf s.subj.core = some p → ((t.m.warp s.subj.core handlerSlot).thread l).pc = (s.fw.part p).handler) ∧
      (t.m.warp s.subj.core handlerSlot).v = (s.m.warp s.subj.core handlerSlot).v ∧ (t.m.warp s.subj.core handlerSlot).s = (s.m.warp s.subj.core handlerSlot).s))
  | .handlerServiceTimeout => some (.mk (fun s => ∃ v, (s.m.core s.subj.core).service = some v ∧ v.began + 2 ^ 20 ≤ (s.m.shard (s.subj.core / 16)).cycle) (fun s t =>
      t = { s with m := Mach.abandonService s.fw s.m s.subj.core [406] (s.m.handlerPc s.subj.core) }))
  | _ => none

/-! ### Copies and fills (11 R282 to R306) -/

/-- A granule of a copy (R287, R290, R296). -/
structure Granule (e : Fw) (id : Nat) (c : Copy) (u t : Mach) : Prop where
  nobody : c.dir = 7 → (∀ r ∈ c.rcvs, r.blk = none) → t = u.endCopy id c 0
  source : ¬ (c.dir = 7 ∧ ∀ r ∈ c.rcvs, r.blk = none) →
    (∀ v va cause, u.copySource e c = (v, .fault va cause) → t = v.copyFault id c va cause) ∧ (∀ v a, u.copySource e c = (v, .uncorr a) → t = v.copyUncorr e id c)
  lands : ¬ (c.dir = 7 ∧ ∀ r ∈ c.rcvs, r.blk = none) → ∀ v x, u.copySource e c = (v, .ok x) →
    (∀ w va cause st, v.copyDest e c x = (w, .fault va cause, st) → t = w.copyFault id c va cause) ∧
    (∀ w y st, v.copyDest e c x = (w, .ok y, st) → st ≠ 0 → t = w.endCopy id c st) ∧
    (∀ w y, v.copyDest e c x = (w, .ok y, 0) → 16 * (c.pos + 1) < Tlr.boxBytes c.rcd →
      (∀ d, t.copies.get? d = if d = id then (w.copies.get? id).map (fun c => { c with started := true, pos := c.pos + 1, sub := c.sub + 16 }) else w.copies.get? d) ∧ t.mem = w.mem) ∧
    (∀ w y, v.copyDest e c x = (w, .ok y, 0) → Tlr.boxBytes c.rcd ≤ 16 * (c.pos + 1) → t = w.copyAdvance id c)

/-- The block a box is offered to on a core takes it: the oldest of the bundle there, resident, its tile empty, marked RECV and of the box's shape (R302). -/
def takes (m : Mach) (c : Copy) (core b : Nat) : Prop :=
  ∃ k, m.oldestBlock c.bundle core = some (b, k) ∧ k.st = .resident ∧ (k.tiles.get c.x Tile.reset).recv = true ∧ (k.tiles.get c.x Tile.reset).st = 0 ∧ boxMatch (k.tiles.get c.x Tile.reset) c.rcd = true

/-- Receiver `k` of a copy has answered with a block, or with none. -/
def answeredBy (k : Nat) (b : Option Nat) (c : Copy) : Copy :=
  { c with started := true, rcvs := c.rcvs.map (fun r => if r.core = k then { r with offered := true, blk := b } else r), status := if b = none then c.status ||| BitVec.ofNat 32 (2 ^ (16 + k)) else c.status }

def copyForm : Instr → Option EventForm
  | .copyGranuleDeliver => some (.mk (fun s => ∃ c, s.m.copies.get? s.subj.id = some c ∧ s.m.granuleDue s.subj.id c = true)
      (fun s t => t = { s with m := t.m } ∧ ∀ c, s.m.copies.get? s.subj.id = some c → Granule s.fw s.subj.id c s.m t.m))
  | .copyComplete => some (.mk (fun s => ∃ c, s.m.copies.get? s.subj.id = some c ∧ s.m.completable s.subj.id c = true ∧ s.m.frozenB c.bundle = false) (fun s t => ∀ c, s.m.copies.get? s.subj.id = some c →
      (c.req = none → t = { s with m := s.m.copyGone s.fw s.subj.id c }) ∧
      (∀ a, c.req = some a → (∀ v va cause, writeVirt s.fw c.core c.part s.m (a + 56) 8 c.status.toNat = (v, .fault va cause) → t = { s with m := v.copyFault s.subj.id c va cause }) ∧
        (∀ v x, writeVirt s.fw c.core c.part s.m (a + 56) 8 c.status.toNat = (v, .ok x) → t = { s with m := v.copyGone s.fw s.subj.id c }))))
  | .copyRequestEnter => some (.mk
      (fun s => ∃ x l, s.m.bundles.get? s.subj.bundle = some x ∧ x.launches.get? s.subj.launch = some l ∧ s.m.requestDue s.subj.bundle x l = true ∧ (s.fw.part x.part).cores.testBit s.subj.core = true)
      (fun s t => ∀ x l, s.m.bundles.get? s.subj.bundle = some x → x.launches.get? s.subj.launch = some l →
        t = { s with m := s.m.enterRequest s.fw x.part s.subj.bundle s.subj.launch s.subj.core l }))
  | .multicastReceipt => some (.mk (fun s => ∃ c r, s.m.copies.get? s.subj.id = some c ∧ s.m.copyRuns s.subj.id c = true ∧ r ∈ c.rcvs ∧ r.core = s.subj.unit ∧ r.offered = false ∧
      s.m.beforeSlices (16 * c.shard + s.subj.unit) = true ∧ ∀ b ∈ s.m.blocks, b.2.core = 16 * c.shard + s.subj.unit → ∀ t ∈ b.2.tiles, t.2.fill ≠ .written) (fun s t =>
      t = { s with m := { s.m with copies := t.m.copies, blocks := t.m.blocks } } ∧ ∀ c, s.m.copies.get? s.subj.id = some c →
        (∀ b, takes s.m c (16 * c.shard + s.subj.unit) b → t.m.copies.get? s.subj.id = some (answeredBy s.subj.unit (some b) c) ∧
          t.m.tile b c.x = { s.m.tile b c.x with st := 1, pend := true, wrfill := false, fill := .copy }) ∧
        ((∀ b, ¬ takes s.m c (16 * c.shard + s.subj.unit) b) → t.m.copies.get? s.subj.id = some (answeredBy s.subj.unit none c) ∧ t.m.blocks = s.m.blocks)))
  | .tileFillComplete => some (.mk (fun s => (s.m.tile s.subj.blk s.subj.unit).fill = .written ∧ ∀ k, s.m.blocks.get? s.subj.blk = some k → s.m.beforeSlices k.core = true) (fun s t =>
      let x := s.m.tile s.subj.blk s.subj.unit
      t = { s with m := { s.m with copies := t.m.copies, blocks := t.m.blocks } } ∧ (∀ b n, (b ≠ s.subj.blk ∨ n ≠ s.subj.unit) → t.m.tile b n = s.m.tile b n) ∧
      (x.st = 1 → t.m.tile s.subj.blk s.subj.unit = { x with st := 2, pend := false, wrfill := false, fill := .none }) ∧
      (x.st = 3 → t.m.tile s.subj.blk s.subj.unit = { x with st := if x.readers = 0 then 0 else 3, pend := false, wrfill := false, fill := .none }) ∧
      ∀ id, t.m.copies.get? id = (s.m.copies.get? id).map (fun c => if c.ended = true ∧ c.x = s.subj.unit then
        { c with rcvs := c.rcvs.map (fun r => if r.blk = some s.subj.blk then { r with done := true } else r) } else c)))
  | .tileReaderDone => some (.mk (fun s => ∃ c b, s.m.copies.get? s.subj.id = some c ∧ c.reading = true ∧ c.ended = true ∧ c.blk = some b ∧ s.m.blocks.has b = true) (fun s t => ∀ c b,
      s.m.copies.get? s.subj.id = some c → c.blk = some b →
        t = { s with m := { s.m with copies := t.m.copies, blocks := t.m.blocks } } ∧ t.m.copies.get? s.subj.id = some { c with reading := false } ∧
        t.m.tile b c.x = { s.m.tile b c.x with
          readers := (s.m.tile b c.x).readers - 1, st := if (s.m.tile b c.x).st = 3 ∧ (s.m.tile b c.x).readers ≤ 1 ∧ (s.m.tile b c.x).fill = .none then 0 else (s.m.tile b c.x).st }))
  | _ => none

/-! ### Matrix work (01 R42; 12 R317, R321 to R324) -/

/-- The accounts that work is charged to move: its shard's, and every node's of its bundle's chain (05 R131). -/
def Charged (shard : Nat) (keys : List Nat) (n : Nat) (u t : Mach) : Prop :=
  (t.shard shard).acct = (u.shard shard).acct - n ∧ ∀ k, (t.shard shard).nodes.get k 0 = if k ∈ keys then (u.shard shard).nodes.get k 0 - n else (u.shard shard).nodes.get k 0

/-- Account keys of a bundle's chain. -/
def chainKeys (m : Mach) (b : Nat) : List Nat := ((m.bundles.get? b).map (fun x => x.chain.map (fun a => a * 16 + x.part))).getD []

def workForm : Instr → Option EventForm
  | .mmaAdmission => some (.mk (fun s => ∃ x, s.m.mmas.get? s.subj.id = some x ∧ s.m.mmaAdmissible s.fw s.subj.id x = true ∧ (chainKeys s.m (s.m.mmaBundle x)).Nodup) (fun s t =>
      t = { s with m := { s.m with mmas := t.m.mmas, shards := t.m.shards } } ∧ ∀ x, s.m.mmas.get? s.subj.id = some x →
        let need := s.m.mmaNeed s.fw x (s.m.mmaInfo x)
        (∃ k, k < 4 ∧ s.m.freeEngine x.core = some k ∧
          t.m.mmas.get? s.subj.id = some { x with admitted := true, reserve := need, interval := (s.m.shard (x.core / 16)).interval, since := none, engine := k }) ∧
        Charged (x.core / 16) (chainKeys s.m (s.m.mmaBundle x)) need s.m t.m))
  | .tileTaskDispatch => some (.mk (fun s => (s.m.schedAct s.subj.core).isSome = true) (fun s t =>
      (∀ id k, s.m.schedAct s.subj.core = some (.discard id k) → t = { s with m := s.m.taskDiscard s.fw id k }) ∧
      (∀ id k, s.m.schedAct s.subj.core = some (.dispatch id k) → t = { s with m := s.m.taskDispatch s.fw id k }) ∧
      (∀ id, s.m.schedAct s.subj.core = some (.await id) → t = { s with m := { s.m with tasks := t.m.tasks } } ∧
        ∀ j, t.m.tasks.get? j = if j = id then (s.m.tasks.get? id).map (fun k => { k with since := some (s.m.shard (s.subj.core / 16)).cycle }) else s.m.tasks.get? j) ∧
      (∀ id, s.m.schedAct s.subj.core = some (.cease id) → t = { s with m := { s.m with tasks := t.m.tasks } } ∧
        ∀ j, t.m.tasks.get? j = if j = id then (s.m.tasks.get? id).map (fun k => { k with since := none }) else s.m.tasks.get? j)))
  | .engineStep => some (.mk
      (fun s => (∃ x, s.m.mmas.get? s.subj.id = some x ∧ ((x.admitted = true ∧ s.m.frozenB (s.m.mmaBundle x) = false ∧ s.m.testDue x.core x.engine = false) ∨
          (s.m.mmaHalts x = true ∧ (x.admitted = true → s.m.frozenB (s.m.mmaBundle x) = false)))) ∨
        (s.m.mmas.get? s.subj.id = none ∧ ∃ k, s.m.tasks.get? s.subj.id = some k ∧ k.st = .running ∧ s.m.taskGoes k = true ∧ s.m.testDue k.core k.engine = false ∧
          k.step < (s.m.taskInfo k.blk k.rcd).steps))
      (fun s t => (∀ x, s.m.mmas.get? s.subj.id = some x →
          let price := (s.m.mmaInfo x).energy
          (s.m.mmaHalts x = true → t = { s with m := s.m.mmaStop s.fw s.subj.id x }) ∧
          (s.m.mmaHalts x = false → x.reserve < price → t = { s with m := { s.m with mmas := t.m.mmas } } ∧
            t.m.mmas.get? s.subj.id = some { x with admitted := false, reserve := 0, interval := x.interval + 1, since := some (s.m.shard (x.core / 16)).cycle }) ∧
          (s.m.mmaHalts x = false → price ≤ x.reserve → ∀ b a p, s.m.blocks.get? x.blk = some b → s.m.prod x.blk x.ta x.tb x.h x.mmas = some (a, p) → x.step + 1 < (s.m.mmaInfo x).steps →
            t.m.mmas.get? s.subj.id = some { x with step := x.step + 1, reserve := x.reserve - price } ∧
            t.m.acc? x.blk x.h = some (productStep b (s.m.tile x.blk x.ta) (s.m.tile x.blk x.tb) p x.step a).1 ∧
            (t.m.core x.core).engSteps.get x.engine 0 = (s.m.core x.core).engSteps.get x.engine 0 + 1) ∧
          (s.m.mmaHalts x = false → price ≤ x.reserve → ∀ b a p, s.m.blocks.get? x.blk = some b → s.m.prod x.blk x.ta x.tb x.h x.mmas = some (a, p) → (s.m.mmaInfo x).steps ≤ x.step + 1 →
            t.m.mmas.get? s.subj.id = none)) ∧
        (s.m.mmas.get? s.subj.id = none → ∀ k, s.m.tasks.get? s.subj.id = some k →
          let price := (s.m.taskInfo k.blk k.rcd).energy
          (k.reserve < price → ∃ r, t.m.tasks.get? s.subj.id = some { k with
            rcd := r, st := .waiting, reserve := 0, interval := k.interval + 1, since := some (s.m.shard (k.core / 16)).cycle } ∧ t.m.blocks = s.m.blocks) ∧
          (price ≤ k.reserve → t.m.tasks.get? s.subj.id = some { k with step := k.step + 1, reserve := k.reserve - price, exc := k.exc ||| (s.m.taskEffect k).2 } ∧ t.m.blocks = (s.m.taskEffect k).1.blocks ∧
            (∀ c, (t.m.core c).engSteps = if c = k.core then (s.m.core c).engSteps.set k.engine ((s.m.core c).engSteps.get k.engine 0 + 1) else (s.m.core c).engSteps) ∧ t.m.mem = s.m.mem))))
  | .tileTaskRetire => some (.mk (fun s => ∃ k, s.m.tasks.get? s.subj.id = some k ∧ k.st = .running ∧ s.m.taskGoes k = true ∧ (s.m.taskInfo k.blk k.rcd).steps ≤ k.step)
      (fun s t => ∀ k, s.m.tasks.get? s.subj.id = some k → t = { s with m := s.m.taskRetire s.fw s.subj.id k }))
  | _ => none

/-! ### Containment, and passes (16 R428, R429; 17 R438 to R443) -/

/-- Containment ends a bundle: it is of the fault domain, in that partition, and at work; domain 0 is every one (16 R428). -/
def inDomain (m : Mach) (p dom b : Nat) : Prop := ∃ x, (b, x) ∈ m.bundles ∧ x.part = p ∧ (x.st = .running ∨ x.st = .draining) ∧ (dom = 0 ∨ x.fdom = dom)

/-- EVERY UNIT OF A BUNDLE HAS ENDED but for a block that is kept (04 R97; 16 R427, R429): the status that stands higher is the bundle's; nothing further of a launch is placed or requested; no pass, copy or task of it is left; a block that was away has exited, and every thread of one that was on a core has ended. -/
structure BundleEnded (id status : Nat) (kept : Option Nat) (m t : Mach) : Prop where
  bundle : ∀ x, m.bundles.get? id = some x → ∃ y, t.bundles.get? id = some y ∧ y.status = (if statusRank x.status < statusRank status then status else x.status) ∧
    ∀ n l, x.launches.get? n = some l → ∃ l', y.launches.get? n = some l' ∧ l'.next = l.blockCount ∧ l'.closed = true ∧ (l.kind = 2 → l'.taken = l.gridX)
  units : (∀ d ∈ t.darns, d.2.bundle ≠ id) ∧ (∀ c ∈ t.copies, c.2.bundle = id → kept ≠ none ∧ c.2.blk = kept) ∧ ∀ k ∈ t.tasks, k.2.bundle = id → kept = some k.2.blk
  away : ∀ b k, m.blocks.get? b = some k → k.bundle = id → kept ≠ some b → (k.st = .saved ∨ k.st = .flushed) → ∃ y, t.blocks.get? b = some y ∧ y.st = .exited
  threads : ∀ b k, m.blocks.get? b = some k → k.bundle = id → kept ≠ some b → (k.st = .resident ∨ k.st = .saving) →
    ∀ c l lane, l < handlerSlot → m.warps.has (wk c l) = true → (m.warp c l).blk = b → t.warps.has (wk c l) = true → (t.warp c l).threads.has lane = true → ((t.warp c l).thread lane).st = .exited

/-- A FAULT DOMAIN IS CONTAINED (16 R428, R429; 10 R274): pages with an uncorrectable error are retired. With FUNCMODE bit 5 the host decides: the domain is frozen, its bundles' warps stop, its event is queued and signalled, and memory, blocks and bundles stay. Without it every bundle of the domain ends with 0x47. -/
structure Contained (e : Fw) (p dom raiser : Nat) (m t : Mach) : Prop where
  pages : ∀ f, f ∈ t.retired ↔ f ∈ m.retired ∨ ∃ g ∈ m.poison, g / 4096 = f
  host : e.win.funcmode.getLsbD 5 = true →
    t = { m with retired := t.retired, cores := t.cores, warps := t.warps, parts := t.parts, fdq := m.fdq ++ [(p, dom, raiser)], msi := m.msi ++ [(0, 0)] } ∧
    t.part p = { m.part p with frozen := dom :: (m.part p).frozen } ∧ (∀ q, q ≠ p → t.part q = m.part q) ∧ (∀ n, m.warps.get? n = none → t.warps.get? n = none) ∧
    ∀ n w, m.warps.get? n = some w → ∃ y, t.warps.get? n = some y ∧ y = { w with stopped := y.stopped } ∧
      (y.stopped = true ↔ w.stopped = true ∨ (n % 128 ≠ handlerSlot ∧ ∃ k, m.blocks.get? w.blk = some k ∧ inDomain m p dom k.bundle))
  self : e.win.funcmode.getLsbD 5 = false → ∀ b, inDomain m p dom b → BundleEnded b 0x47 none m t

/-- Of a machine the coverage state of a pass's launch differs, and its bundle's flags. -/
def CovOnly (d : Darn) (f : Cov → Cov) (fl : BitVec 7) (v w : Mach) : Prop := w = { v with bundles := w.bundles } ∧ ∀ b, w.bundles.get? b = (v.bundles.get? b).map (fun x =>
  if b = d.bundle then { x with launches := x.launches.modify d.launch (fun l => { l with cov := l.cov.map f }), tally := { x.tally with exc := x.tally.exc ||| fl } } else x)

/-- The coverage state with a point's result: an audited one joins the sums, a skipped one of an SD tensor keeps its value for its block (17 R438, R440, R442). -/
def pointTaken (l : Launch) (d : Darn) (pos : Nat) (r : PtRes) (c : Cov) : Cov :=
  let q := l.point d.lin pos
  match r with
  | .none => c
  | .audit v => { c with sum := c.sum + v, n := c.n + 1, audited := c.audited + 1 }
  | .fill v => { c with fills := c.fills.set ((q.2.2 * (l.gridY * l.blkY) + q.2.1) * (l.gridX * l.blkX) + q.1) v }

/-- A pass meets a page that is not there: it keeps its place and waits for its KIND 6 record, or for room for it; or an uncorrectable error, which contains its domain (17 R441; 16 R428). -/
structure PassStops (e : Fw) (id part pos : Nat) (d : Darn) (r : MRes) (v t : Mach) : Prop where
  fault : ∀ va cause y, r = .fault va cause → v.darns.get? id = some y →
    let x : RecDraft := { page := va % 2 ^ 57 / 4096, cause, kind := 6, core := d.core, wslot := 127, lanes := 0, tag := ((v.bundles.get? d.bundle).map (·.tag)).getD 0 }
    t = { v with darns := t.darns, parts := t.parts } ∧ (∀ j, j ≠ id → t.darns.get? j = v.darns.get? j) ∧
    ((v.part part).faultQ.length < 4096 → t.darns.get? id = some { y with pos, waitSeq := some (v.part part).faultSeq, draft := none } ∧
      (t.part part).faultQ = (v.part part).faultQ ++ [{ draft := x, seq := (v.part part).faultSeq, copied := false }]) ∧
    (4096 ≤ (v.part part).faultQ.length → t.darns.get? id = some { y with pos, draft := some x } ∧ t.part part = v.part part)
  poison : (∀ va cause, r ≠ .fault va cause) → ∀ x, v.bundles.get? d.bundle = some x → Contained e part x.fdom d.bundle { v with darns := v.darns.erase id } t

/-- A PASS GOES THROUGH ITS BLOCK (17 R438 to R443): every point in turn, then, for an SD tensor, every SD block its points lie in, from where it stopped; each result joins the launch's coverage state; with the last it is over, counted and marked as passed, and at every 2^UEXP-th the launch's update is made. -/
inductive PassGoes (e : Fw) (id part : Nat) (d : Darn) : Nat → Mach → Mach → Prop
  | point (pos : Nat) (u v w t : Mach) (x : Bundle) (l : Launch) (c : Cov) (r : PtRes) (fl : BitVec 7) : u.bundles.get? d.bundle = some x → x.launches.get? d.launch = some l → l.cov = some c → pos < l.threads →
      ({ core := e.unitCore part d.core, part, l, c, lin := d.lin, f := d.f } : Pass).point e u pos = (v, .ok (r, fl)) → CovOnly d (pointTaken l d pos r) fl v w → PassGoes e id part d (pos + 1) w t → PassGoes e id part d pos u t
  | block (pos : Nat) (u n v w t : Mach) (x : Bundle) (l : Launch) (c : Cov) (ks : List Nat) (fl : BitVec 7) : u.bundles.get? d.bundle = some x → x.launches.get? d.launch = some l → l.cov = some c →
      l.threads ≤ pos → pos < 2 * l.threads → Tlr.sd c.tlr = true → CovOnly d (fun c => { c with passed := c.passed.set d.lin d.f }) 0 u n →
      ({ core := e.unitCore part d.core, part, l, c := { c with passed := c.passed.set d.lin d.f }, lin := d.lin, f := d.f } : Pass).sdBlock e n (pos - l.threads) = (v, .ok (ks, fl)) →
      CovOnly d (fun c => { c with fills := c.fills.filter (fun q => decide (q.1 ∉ ks)) }) fl v w → PassGoes e id part d (pos + 1) w t → PassGoes e id part d pos u t
  | meets (pos : Nat) (u v t : Mach) (x : Bundle) (l : Launch) (c : Cov) (r : MRes) : u.bundles.get? d.bundle = some x → x.launches.get? d.launch = some l → l.cov = some c → pos < l.threads →
      ({ core := e.unitCore part d.core, part, l, c, lin := d.lin, f := d.f } : Pass).point e u pos = (v, .error r) → PassStops e id part pos d r v t → PassGoes e id part d pos u t
  | meetsBlock (pos : Nat) (u n v t : Mach) (x : Bundle) (l : Launch) (c : Cov) (r : MRes) : u.bundles.get? d.bundle = some x → x.launches.get? d.launch = some l → l.cov = some c →
      l.threads ≤ pos → pos < 2 * l.threads → Tlr.sd c.tlr = true → CovOnly d (fun c => { c with passed := c.passed.set d.lin d.f }) 0 u n →
      ({ core := e.unitCore part d.core, part, l, c := { c with passed := c.passed.set d.lin d.f }, lin := d.lin, f := d.f } : Pass).sdBlock e n (pos - l.threads) = (v, .error r) → PassStops e id part pos d r v t →
      PassGoes e id part d pos u t
  | ends (pos : Nat) (u v t : Mach) (x : Bundle) (l : Launch) (c : Cov) : u.bundles.get? d.bundle = some x → x.launches.get? d.launch = some l → l.cov = some c → l.threads ≤ pos → (2 * l.threads ≤ pos ∨ Tlr.sd c.tlr = false) →
      (∃ n, n = { u with darns := u.darns.erase id } ∧ CovOnly d (fun c => { c with passes := c.passes + 1, passed := c.passed.set d.lin d.f }) 0 n v) →
      ((c.passes + 1) % 2 ^ CovW.uexp c.rcd ≠ 0 → t = v) → ((c.passes + 1) % 2 ^ CovW.uexp c.rcd = 0 → t = v.swatch e d.bundle d.launch) → PassGoes e id part d pos u t
  | gone (pos : Nat) (u : Mach) : (∀ x l, u.bundles.get? d.bundle = some x → x.launches.get? d.launch = some l → l.cov = none) → PassGoes e id part d pos u { u with darns := u.darns.erase id }

/-! ### Macro-instructions and Darning passes at work (13 R332 to R338; 17 R438) -/

/-- The lane of a macro-instruction that goes on: the lowest that has not ended, and for OBLEND the lowest that has not drawn either (13 R333, R355). -/
def nextLane (x : MacroOp) (l : MLane) : Prop := x.lanes.find? (fun l => l.ending.isNone && (x.mn ≠ .oblend || l.steps = 0)) = some l

/-- Once the last lane of an OBLEND has drawn, or ended, all its lanes that go on blend. -/
def blended (e : Fw) (id : Nat) (x : MacroOp) (l : MLane) (v : Mach) : Mach :=
  if x.mn = .oblend ∧ ∀ y ∈ (x.putLane l).lanes, y.ending ≠ none ∨ y.steps ≠ 0 then blendAll e v id else v

/-- Where a lane has ended and is still held, every word of its block is in its registers; no other warp changes (13 R334). -/
def WordsIn (x : MacroOp) (id : Nat) (l : MLane) (u t : Mach) : Prop :=
  (∀ k, k ≠ wk x.core l.slot → t.warps.get? k = u.warps.get? k) ∧
  (l.ending ≠ none → ((u.warp x.core l.slot).thread l.lane).st = .blocked (.macroOp id) →
    t.warp x.core l.slot = (u.warp x.core l.slot).writeV (l.words.mapIdx (fun i v => (Op.vb x.o + i, l.lane, v)))) ∧
  ((l.ending = none ∨ ((u.warp x.core l.slot).thread l.lane).st ≠ .blocked (.macroOp id)) → t.warps = u.warps)

def engineForm : Instr → Option EventForm
  | .macroStep => some (.mk (fun s => ∃ x l, s.m.macros.get? s.subj.id = some x ∧ s.m.macroGoes s.subj.id x = true ∧ nextLane x l) (fun s t => ∀ x l,
      s.m.macros.get? s.subj.id = some x → nextLane x l →
        (∀ l', s.m.macroCut x l = some l' → ∃ v : Mach, v = { s.m with macros := v.macros, warps := v.warps } ∧
          v.macros.get? s.subj.id = some { x.putLane l' with mark := none } ∧ WordsIn x s.subj.id l' s.m v ∧ t = { s with m := blended s.fw s.subj.id x l' v }) ∧
        (s.m.macroCut x l = none → s.m.macroPays x = true → x.mn ≠ .oblend →
          ∃ r : Mach × StepRes, r = stepOf x.mn ((s.m.macroPay s.subj.id x).macroCtx s.fw x l) (s.m.macroPay s.subj.id x) l.words ∧
            t = { s with m := { r.1 with macros := t.m.macros, warps := t.m.warps } } ∧ ∀ y, r.1.macros.get? s.subj.id = some y →
              t.m.macros.get? s.subj.id = some (y.putLane (l.after r.2)) ∧ WordsIn y s.subj.id (l.after r.2) r.1 t.m) ∧
        (s.m.macroCut x l = none → s.m.macroPays x = true → x.mn = .oblend →
          let u := s.m.macroPay s.subj.id x
          let l' := if oblendBad l.words then l.after .ill else { l with steps := 1 }
          ∃ v : Mach, v = { u with macros := v.macros, warps := v.warps } ∧ (∀ y, u.macros.get? s.subj.id = some y → v.macros.get? s.subj.id = some (y.putLane l') ∧ WordsIn y s.subj.id l' u v) ∧
            t = { s with m := blended s.fw s.subj.id x l' v }) ∧
        (s.m.macroCut x l = none → s.m.macroPays x = false → t = { s with m := { s.m with macros := t.m.macros } } ∧
          t.m.macros.get? s.subj.id = some { x with since := some (x.since.getD (s.m.shard (x.core / 16)).cycle) })))
  | .macroRelease => some (.mk (fun s => ∃ x, s.m.macros.get? s.subj.id = some x ∧ s.m.macroDone x = true) (fun s t => ∀ x, s.m.macros.get? s.subj.id = some x →
      t = { s with m := s.m.macroRelease s.fw s.subj.id x }))
  | .darningPass => some (.mk (fun s => ∃ d, s.m.darns.get? s.subj.id = some d ∧ s.m.darnDue d = true) (fun s t => t = { s with m := t.m } ∧ ∀ d, s.m.darns.get? s.subj.id = some d → ∃ u : Mach, u = { s.m with darns := u.darns } ∧
      (∀ j, u.darns.get? j = (s.m.darns.get? j).map (fun y => if j = s.subj.id then { y with waitSeq := none } else y)) ∧
      ((∀ x l, s.m.bundles.get? d.bundle = some x → x.launches.get? d.launch = some l → l.threads ≤ 1024) →
        PassGoes s.fw s.subj.id (((s.m.bundles.get? d.bundle).map (·.part)).getD 0) d d.pos u t.m)))
  | _ => none

/-! ## Words, traps, write-backs, translation -/

/-- The code of a source field (06 R144) and of a destination field (06 R146). -/
def srcCode : Src → Nat
  | .v n => n.toNat
  | .s n => 0x100 + n.toNat
  | .latch n => 0x200 + n.toNat
  | .const n => 0x300 + n.toNat
  | .imm => 0x3FF
def dstCode : Dst → Nat
  | .v n => n.toNat
  | .s n => 0x100 + n.toNat
  | .p n => 0x120 + n.toNat
  | .latch n => 0x140 + n.toNat
  | .tile n => 0x160 + n.toNat
  | .none => 0x1FF

/-- The fields of an instruction word, bit for bit (06 R141). -/
structure WordFields (w : IWord) (opc : Nat) (o : Op) : Prop where
  stall : w.extractLsb' 124 4 = o.ctl.stall
  wait : w.extractLsb' 112 12 = o.ctl.wait
  setf : w.extractLsb' 108 4 = o.ctl.setf
  chain : w.getLsbD 107 = o.ctl.chain
  yield : w.getLsbD 106 = o.ctl.yield
  lastC : w.getLsbD 105 = o.ctl.lastC
  lastB : w.getLsbD 104 = o.ctl.lastB
  lastA : w.getLsbD 103 = o.ctl.lastA
  wbs : w.getLsbD 102 = o.ctl.wbs
  reserved : w.extractLsb' 96 6 = 0
  opc : (w.extractLsb' 86 10).toNat = opc
  gneg : w.getLsbD 85 = o.gneg
  gpred : w.extractLsb' 82 3 = o.gpred
  dst : (w.extractLsb' 73 9).toNat = dstCode o.dst
  a : (w.extractLsb' 63 10).toNat = srcCode o.a
  b : (w.extractLsb' 53 10).toNat = srcCode o.b
  c : (w.extractLsb' 43 10).toNat = srcCode o.c
  md : w.extractLsb' 32 11 = o.md
  imm : w.extractLsb' 0 32 = o.imm

/-- A control word with every field at rest: no wait, no flag. -/
def restCtl : Ctl := { stall := 0, wait := 0, setf := 15, chain := false, yield := false, lastC := false, lastB := false, lastA := false, wbs := false }

/-- The machine in which a group's trap is taken: a chain in progress that it continues is broken (07 R183). -/
def Grp.broken (g : Grp) : Mach := if (g.chain?).isSome then g.m.breakChain g.core g.slice else g.m

/-- The causes that the entry of an instruction adds to those every instruction may meet, where they need no record read. -/
def ownOf (i : Instr) : Option (Grp → List Nat) :=
  match i with
  | .yield _ | .srd _ | .scmp _ | .v2p _ | .s2v _ => some noCauses
  | i =>
    ((laneForm i).map (·.own)).or (((runForm i).map (·.own)).or (((scalarForm i).map (fun _ => noCauses)).or (((transferForm i).map (fun _ => noCauses)).or
      (((maskForm i).or ((endForm i).or ((systemForm i).or ((memoryForm i).or ((barrierForm i).or ((syncForm i).or ((tileForm i).or ((accForm i).or (handlerForm i))))))))).map (·.own)))))

/-- The last value that a list of cells gives to one register of one lane, or what was there. -/
def lastOf (cells : List (Nat × Nat × Word)) (n lane : Nat) (old : Word) : Word := ((cells.filter (fun c => c.1 = n && c.2.1 = lane)).getLast?.map (fun c => c.2.2)).getD old

/-- The cells of a write-back whose lanes have not ended. -/
def liveCells (w : Warp) (cells : List (Nat × Nat × Word)) : List (Nat × Nat × Word) := cells.filter (fun c => decide ((w.thread c.2.1).st ≠ .exited))

/-- The names a warp has mapped, and the names that cells would map anew. -/
def namesNow (w : Warp) : Nat := ((List.range 256).filter (fun n => (List.range 32).any (fun l => (Tab.get? w.v (32 * n + l)).isSome))).length
def namesNew (w : Warp) (cells : List (Nat × Nat × Word)) : Nat := (((cells.map Prod.fst).eraseDups).filter (fun n => (List.range 32).all (fun l => (Tab.get? w.v (32 * n + l)).isNone))).length

/-- Of the machine one warp differs. -/
def OnlyWarp (core slot : Nat) (u t : Mach) : Prop := t = { u with warps := t.warps } ∧ ∀ c l, l < 128 → (c ≠ core ∨ l ≠ slot) → t.warp c l = u.warp c l

/-- The cells of a write-back that land in a warp's slot: of lanes that have not ended; in the handler's, all (08 R206; 16 R404). -/
def landing (slot : Nat) (x : Warp) (cells : List (Nat × Nat × Word)) : List (Nat × Nat × Word) := if slot = handlerSlot then cells else liveCells x cells

/-- Vector results have landed in a warp, or found no room within PEAK (07 R179). -/
def Landed (slot : Nat) (cells : List (Nat × Nat × Word)) (x y : Warp) : Prop :=
  (x.peak < namesNow x + namesNew x (landing slot x cells) → y = { x with loc := x.loc ||| 1, summary := x.summary ||| 1 }) ∧
  (namesNow x + namesNew x (landing slot x cells) ≤ x.peak → y = { x with v := y.v } ∧ ∀ n lane, n < 256 → lane < 32 → y.vreg n lane = lastOf (landing slot x cells) n lane (x.vreg n lane))

/-- Bytes stored one after another through a partition's tables: each whose page takes it is in memory, and no other byte changes but for what the walker marks; one whose page does not is left. -/
inductive BytesStored (e : Fw) (part : Nat) : List (Nat × Byte) → Mach → Mach → Prop
  | done (u : Mach) : BytesStored e part [] u u
  | takes (x : Nat × Byte) (r : List (Nat × Byte)) (u m v t : Mach) (pa o : Nat) : walkTo e u part x.1 .store none = (m, .ok pa o) → v = { m with mem := v.mem, poison := v.poison, devlog := v.devlog } →
      memGet v.mem pa = x.2 → (∀ a, a ≠ pa → memGet v.mem a = memGet m.mem a) → BytesStored e part r v t → BytesStored e part (x :: r) u t
  | left (x : Nat × Byte) (r : List (Nat × Byte)) (u m t : Mach) (c : Nat) : walkTo e u part x.1 .store none = (m, .err c) → BytesStored e part r m t → BytesStored e part (x :: r) u t

/-- WHAT A DEFINED SLOT DOES, as its image states it, a free value of the slot and the count `k`: the V registers of its executing lanes, its exception bits in their warps, and its bytes, at the translations of its image's addresses; the blocks of its executing members have made a visible effect, and nothing else changes (03 R85; 06 R154; log 79). -/
structure SlotEffect (g : Grp) (n : Nat) (u v : Mach) : Prop where
  only : v = { u with warps := v.warps, blocks := v.blocks, mem := v.mem, poison := v.poison, devlog := v.devlog, fresh := u.fresh + 1 }
  stores : ∃ w : Mach, w = { u with warps := v.warps, blocks := v.blocks, fresh := u.fresh + 1 } ∧ BytesStored g.e g.part (Config.slotStores u.fresh n) w v
  blocks : ∀ b, v.blocks.get? b = (u.blocks.get? b).map (fun k => if g.execs.any (fun x => decide (x.slot ≠ handlerSlot ∧ g.blkId x = b))
    then { k with wdbase := (u.shard (k.core / 16)).cycle, wdcnt := 0, wdexp := 0, flushable := false } else k)
  others : ∀ c l, l < 128 → (c ≠ g.core ∨ l ∉ g.execSlots) → v.warp c l = u.warp c l
  warps : ∀ l, l < 128 → v.warp g.core l = { u.warp g.core l with v := (v.warp g.core l).v, loc := (v.warp g.core l).loc, summary := (v.warp g.core l).summary }
  lanes : (∀ x ∈ g.execs, x.lane < 32) → ∀ l lane n, l < 128 → lane < 32 → (⟨l, lane⟩ : Member) ∉ g.execs → (v.warp g.core l).vreg n lane = (u.warp g.core l).vreg n lane
  writes : ∀ l, l < handlerSlot → l ∈ g.execSlots → (∀ x ∈ g.execs, x.lane < 32) → ∃ z,
    Landed l (((g.execs.filter (fun x => x.slot = l)).map (·.lane)).flatMap (fun i => (Config.slotWrites u.fresh n (32 * l + i)).map (fun c => (c.1.toNat, i, c.2)))) (u.warp g.core l) z ∧
    v.warp g.core l = { z with loc := z.loc ||| Config.slotExc u.fresh n, summary := z.summary ||| Config.slotExc u.fresh n }

/-- A number as `n` registers, the low word first; as one, of `w` bits with their sign. -/
def asWords (n v : Nat) : List Word := (List.range n).map (fun i => BitVec.ofNat 32 (v / 2 ^ (32 * i)))
def asSigned (w v : Nat) : Word := BitVec.ofInt 32 (if 2 ^ (w - 1) ≤ v % 2 ^ w then (v % 2 ^ w : Int) - 2 ^ w else v % 2 ^ w)

/-- The registers that a lane's value fills (10 R276 to R279; 14 R379): B8, S8, B16, S16, B32, B64, B128; an atomic's old value; CAS128's; TLRMAKE's word. -/
def wordsFor (op : AccOp) (v : Nat) : List Word :=
  match op with
  | .load 0 => [BitVec.ofNat 32 (v % 2 ^ 8)]
  | .load 1 => [asSigned 8 v]
  | .load 2 => [BitVec.ofNat 32 (v % 2 ^ 16)]
  | .load 3 => [asSigned 16 v]
  | .load 4 => asWords 1 v
  | .load 5 => asWords 2 v
  | .load _ => asWords 4 v
  | .atom _ wide => asWords (if wide then 2 else 1) v
  | .cas128 => asWords 4 v
  | .tlrmake => asWords 1 v
  | _ => []

/-- Words from register `n` on in a lane, and the scalar registers that words fill. -/
def cellsAt (n lane : Nat) (ws : List Word) : List (Nat × Nat × Word) := ws.mapIdx (fun i w => (n + i, lane, w))
def scalarsAt (n : Nat) (ws : List Word) : List (Nat × Word) := ws.mapIdx (fun i w => (n + i, w))

/-- The exception bits of one warp's lanes of an access. -/
def Access.excOf (a : Access) (slot : Nat) : BitVec 7 := orExc ((a.excs.filter (fun x => x.1 = slot)).map Prod.snd)

/-- THE RESULTS OF AN ACCESS ARRIVE (07 R178, R179; 08 R228; 10 R270, R273): each lane's value fills the registers of its size and sign, in the vector register or in the scalar register that the instruction names, or none where it writes none; then its exception bits are raised in its warp; then the access is over, its flag is signalled in the warps it completed in, a warp whose last thread has ended is no more, and fences look again. -/
def ResultsArrive : Prop := ∀ (e : Fw) (m : Mach) (id : Nat) (a : Access), (∀ k, a.op ≠ .resume k) → (∀ x ∈ a.members, x.slot < 97) → (∀ v ∈ a.vals, (⟨v.1, v.2.1⟩ : Member) ∈ a.members ∧ v.2.1 < 32) →
  (∀ x ∈ a.members, m.warps.has (wk a.core x.slot) = true) → (∀ x ∈ a.excs, x.1 < 97 ∧ m.warps.has (wk a.core x.1) = true) →
  ∃ u v : Mach, u = { m with warps := u.warps } ∧
    (∀ c l, l < 128 → (c ≠ a.core ∨ ∀ x ∈ a.members, x.slot ≠ l) → u.warp c l = m.warp c l) ∧
    (∀ x ∈ a.members,
      let mine := a.vals.filter (fun r => r.1 = x.slot)
      (∀ n, a.dst = .v n → a.wbs = false → n.toNat + 4 ≤ 256 → Landed x.slot (mine.flatMap (fun r => cellsAt n.toNat r.2.1 (wordsFor a.op r.2.2))) (m.warp a.core x.slot) (u.warp a.core x.slot)) ∧
      (∀ n, a.dst = .s n → a.wbs = false → u.warp a.core x.slot = { m.warp a.core x.slot with s := (u.warp a.core x.slot).s } ∧
        ∀ j, (u.warp a.core x.slot).sreg j = (((mine.flatMap (fun r => scalarsAt n.toNat (wordsFor a.op r.2.2))).filter (fun c => c.1 = j)).getLast?.map Prod.snd).getD ((m.warp a.core x.slot).sreg j)) ∧
      ((a.wbs = true ∨ a.dst = .none) → u.warp a.core x.slot = m.warp a.core x.slot)) ∧
    v = { u with warps := v.warps, accesses := m.accesses.erase id } ∧
    (∀ c l, l < 128 → v.warp c l = if c = a.core then { u.warp c l with loc := (u.warp c l).loc ||| a.excOf l, summary := (u.warp c l).summary ||| a.excOf l } else u.warp c l) ∧
    deliverAccess e m id a = ((slotsOfMembers a.members).foldl (fun m s => m.settleWarp e a.core s) (v.signalSlots e a.core a.flag a.doneSlots)).checkFences e

/-- THE TAKES OF A RESUME ARE CARRIED OUT (15 R396): each lane that still waits has its record's words in its registers, its predicate says whether it got one, and it goes on at the record's program counter, or at the next instruction with none, with the cycle as its stamp; every other lane stays, and so does a lane that has ended. -/
def TakesArrive : Prop := ∀ (e : Fw) (m : Mach) (id k : Nat) (a : Access), a.op = .resume k → k < 7 → a.excs = [] → a.takes.map (fun r => (⟨r.slot, r.lane⟩ : Member)) = a.members → a.members.Nodup →
  (∀ x ∈ a.members, x.slot < 97 ∧ x.lane < 32 ∧ m.warps.has (wk a.core x.slot) = true ∧ (m.warp a.core x.slot).threads.has x.lane = true) →
  ∃ u v : Mach, u = { m with warps := u.warps } ∧
    (∀ c l, l < 128 → (c ≠ a.core ∨ ∀ x ∈ a.members, x.slot ≠ l) → u.warp c l = m.warp c l) ∧
    (∀ x ∈ a.members,
      let w := m.warp a.core x.slot
      let y := u.warp a.core x.slot
      let mine := a.takes.filter (fun r => decide (r.slot = x.slot) && decide ((w.thread r.lane).st = .blocked .resume))
      (mine = [] → y = w) ∧
      (∀ n, a.dst = .v n → a.wbs = false → n.toNat + 16 ≤ 256 → mine ≠ [] →
        ∃ z, Landed x.slot (mine.flatMap (fun r => match r.got with
            | some q => cellsAt n.toNat r.lane q.1
            | none => [])) w z ∧ y = { z with threads := y.threads, flags := y.flags, owes := y.owes }) ∧
      ((a.wbs = true ∨ a.dst = .none) → y = { w with threads := y.threads, flags := y.flags, owes := y.owes }) ∧
      (∀ l, (∀ r ∈ mine, r.lane ≠ l) → y.thread l = w.thread l) ∧
      ∀ r ∈ mine, y.thread r.lane = { w.thread r.lane with
          preds := (y.thread r.lane).preds, st := .atPc, pc := (r.got.map Prod.snd).getD ((w.thread r.lane).pc + 16), stamp := (m.slc a.core w.slice).cyc } ∧
        y.preg k r.lane = r.got.isSome ∧ ∀ j, j < 7 → j ≠ k → y.preg j r.lane = w.preg j r.lane) ∧
    v = { u with accesses := m.accesses.erase id } ∧
    deliverAccess e m id a = ((slotsOfMembers a.members).foldl (fun m s => m.settleWarp e a.core s) (v.signalSlots e a.core a.flag a.doneSlots)).checkFences e

/-- The table of a walk after `n` levels, and its entry for an address: level 4 first (10 R263). -/
def walkTable (mem : Tab Byte) (root va : Nat) : Nat → Nat
  | 0 => root
  | n + 1 => memRead mem (walkTable mem root va n + 8 * (va / 2 ^ (12 + 9 * (4 - n)) % 512)) 8 / 2 ^ 12 % 2 ^ 40 * 4096
def walkEntry (mem : Tab Byte) (root va n : Nat) : Nat := memRead mem (walkTable mem root va n + 8 * (va / 2 ^ (12 + 9 * (4 - n)) % 512)) 8

/-- An entry with its reserved bits clear (10 R264). -/
def entryWhole (w : Nat) : Prop := w / 2 ^ 52 % 2 ^ 7 = 0 ∧ w / 2 ^ 9 % 2 ^ 3 = 0 ∧ w / 2 % 2 ^ 4 = 0

/-- The first `n` levels of a walk lead on: each table stands in a frame of the partition, and each entry is present, well formed and no leaf. -/
def leadsOn (e : Fw) (m : Mach) (part va n : Nat) : Prop := ∀ j, j < n →
  frameOk e part (walkTable m.mem (e.part part).xlat va j / 4096) = true ∧ walkEntry m.mem (e.part part).xlat va j % 2 = 1 ∧ entryWhole (walkEntry m.mem (e.part part).xlat va j) ∧
  walkEntry m.mem (e.part part).xlat va j / 2 ^ 7 % 2 = 0

/-- The right that an access needs stands in a leaf entry (10 R266). -/
def entryGrants (k : AKind) (w : Nat) : Prop := match k with
  | .load => w / 2 ^ 59 % 2 = 1
  | .store => w / 2 ^ 60 % 2 = 1
  | .atomic => w / 2 ^ 59 % 2 = 1 ∧ w / 2 ^ 60 % 2 = 1
  | .fetch => w / 2 ^ 61 % 2 = 1

/-- The status of the record that 64 bytes hold, and its first word with the status in `[47:40]` and VALID in `[48]` (11 R305). -/
def checkOf (v : Nat) : Nat := Tlr.check ((List.range 8).map (fun i => v / 2 ^ (64 * i) % 2 ^ 64))
def made (v : Nat) : Nat := v % 2 ^ 40 + checkOf v % 2 ^ 8 * 2 ^ 40 + (if checkOf v = 0 then 2 ^ 48 else 0) + v % 2 ^ 64 / 2 ^ 49 * 2 ^ 49

/-- The value an atomic leaves, by its operation number (14 R380). -/
def atomValue (op : Nat) (wide : Bool) (m b c : Nat) : Nat × BitVec 7 :=
  let w := if wide then 64 else 32
  let f := if wide then fmtFP64 else fmtFP32
  let sv (x : Nat) : Int := (BitVec.ofNat w x).toInt
  match op with
  | 0 => ((m + b) % 2 ^ w, 0)
  | 1 => (if sv b < sv m then b else m, 0)
  | 2 => (if sv m < sv b then b else m, 0)
  | 3 => (if b < m then b else m, 0)
  | 4 => (if m < b then b else m, 0)
  | 5 => ((BitVec.ofNat w m &&& BitVec.ofNat w b).toNat, 0)
  | 6 => ((BitVec.ofNat w m ||| BitVec.ofNat w b).toNat, 0)
  | 7 => ((BitVec.ofNat w m ^^^ BitVec.ofNat w b).toNat, 0)
  | 8 => (b, 0)
  | 9 => (if m = b then c else m, 0)
  | 10 => (if m ≥ b then 0 else m + 1, 0)
  | 11 => (if m = 0 ∨ m > b then b else m - 1, 0)
  | 12 => fpSum f 0 m b
  | 13 => fpPick f false m b
  | _ => fpPick f true m b

/-- Ending the units of a bundle ends them so. -/
def UnitsEnd : Prop := ∀ (e : Fw) (m : Mach) id status kept, BundleEnded id status kept m (m.endUnits e id status kept)

/-- Containment contains a domain so. -/
def DomainContained : Prop := ∀ (e : Fw) (m : Mach) p dom raiser, Contained e p dom raiser m (m.contain e p dom raiser)

/-- A CONTAINED DOMAIN IS LET GO (16 R429, R430): it is frozen no longer; of its partition's stopped warps those that no trap names, queued or in service, and that no other frozen domain holds, go on, or are gone where they have come to their end; every other warp stays as it was stopped. -/
def DomainThaws : Prop := ∀ (e : Fw) (m : Mach) p dom, m.warps.sorted = true →
  let t := m.thaw e p dom
  let named (c l : Nat) : Prop := (∃ q ∈ (m.core c).trapq, l ∈ q.slots) ∨ ∃ v, (m.core c).service = some v ∧ l ∈ v.slots
  let goes (c l : Nat) (w : Warp) : Prop := w.stopped = true ∧ ¬ named c l ∧ ∃ k, m.blocks.get? w.blk = some k ∧ m.partOf k = p ∧
    ∀ x, m.bundles.get? k.bundle = some x → ∀ d ∈ (m.part p).frozen.erase dom, x.part = p → d ≠ 0 ∧ d ≠ x.fdom
  (t.part p).frozen = (m.part p).frozen.erase dom ∧
  ∀ c l w, l < handlerSlot → m.warps.get? (wk c l) = some w →
    (goes c l w → t.warps.get? (wk c l) = none ∨ ∃ y, t.warps.get? (wk c l) = some y ∧ y.stopped = false) ∧
    (¬ goes c l w → ∃ y, t.warps.get? (wk c l) = some y ∧ y.stopped = w.stopped)

/-- The service of a core is over (16 R404, R411): it waits for its next trap, its threads have ended, and its registers keep their values; no other warp and no queued trap changes. -/
structure ServiceOver (core : Nat) (m v : Mach) : Prop where
  only : v = { m with cores := v.cores, warps := v.warps, slices := v.slices, parts := v.parts }
  service : (v.core core).service = none ∧ (v.core core).trapq = (m.core core).trapq
  threads : ∀ l, (v.warp core handlerSlot).threads.has l = true → ((v.warp core handlerSlot).thread l).st = .exited
  handler : let w := v.warp core handlerSlot
    w = { m.warp core handlerSlot with threads := w.threads, flags := w.flags, owes := w.owes, fault := w.fault, stopped := w.stopped }
  others : ∀ n, n ≠ wk core handlerSlot → v.warps.get? n = m.warps.get? n

/-- ERET.fdom ENDS THE SERVICE and contains the domain of the trap being served (16 R411); `p` owns the core. -/
def EretContains : Prop := ∀ (e : Fw) (m : Mach) core sv p, (m.core core).service = some sv → sv.xwr = [] → e.ownerOf core = some p →
  ∃ v, ServiceOver core m v ∧ v.parts = m.parts ∧ (sv.trap.bundle = none → m.eretFdom e core = v) ∧
    ∀ b x, sv.trap.bundle = some b → m.bundles.get? b = some x → Contained e p x.fdom b v (m.eretFdom e core)

/-- ERET.kill ENDS THE SERVICE, and the block of every warp that the trap stopped ends as by KILL with HANDLER_END (16 R411; 08 R207; 17 R434): its threads have ended, but for those of warps whose turn in this core cycle is to come, which may still issue in it. -/
def EretKills : Prop := ∀ (e : Fw) (m : Mach) core sv, (m.core core).service = some sv → sv.xwr = [] →
  let t := m.eretKill e core
  (t.core core).service = none ∧ (∀ l, (t.warp core handlerSlot).threads.has l = true → ((t.warp core handlerSlot).thread l).st = .exited) ∧
  ∀ s ∈ sv.slots, s < handlerSlot → (m.warp core s).stopped = true → ∀ k, m.blocks.get? (m.warp core s).blk = some k → k.core = core →
    (∀ x, m.bundles.get? k.bundle = some x → ∃ y, t.bundles.get? k.bundle = some y ∧ y.status = if statusRank x.status < statusRank 0x46 then 0x46 else x.status) ∧
    ∀ l lane, l < handlerSlot → m.warps.has (wk core l) = true → (m.warp core l).blk = (m.warp core s).blk → t.warps.has (wk core l) = true → (t.warp core l).threads.has lane = true →
      ((t.warp core l).thread lane).st = .exited ∨
        (((m.warp core l).thread lane).st = .atPc ∧ (m.warp core l).stopped = false ∧ (m.shard (core / 16)).turn ≤ 6 * (core % 16) + (m.warp core l).slice)

/-- A SERVICE IS GIVEN UP (16 R406, R407): why and the handler's program counter are logged, the service is over, and the domain of the trap being served is contained. -/
def ServiceGivenUp : Prop := ∀ (e : Fw) (m : Mach) core why pc sv p, (m.core core).service = some sv → e.ownerOf core = some p →
  ∃ v, ServiceOver core m v ∧ v.part p = { m.part p with errlog := (m.part p).errlog ++ [why ++ [BitVec.toNat pc]] } ∧ (∀ q, q ≠ p → v.part q = m.part q) ∧
    (sv.trap.bundle = none → Mach.abandonService e m core why pc = v) ∧
    ∀ b x, sv.trap.bundle = some b → m.bundles.get? b = some x → Contained e p x.fdom b v (Mach.abandonService e m core why pc)

/-- A COPY WAITS FOR A PAGE (11 R283; 10 R271): its KIND 4 record is posted, with the partition's next number, and the copy waits for it; where the queue is full the copy keeps the record. -/
def CopyWaits : Prop := ∀ (m : Mach) id c va cause y, m.copies.get? id = some y →
  let t := m.copyFault id c va cause
  let p := m.part c.part
  let d : RecDraft := { page := va % 2 ^ 57 / 4096, cause, kind := 4, core := c.core, wslot := 127, lanes := 0, tag := ((m.bundles.get? c.bundle).map (·.tag)).getD 0 }
  t = { m with copies := t.copies, parts := t.parts } ∧ (∀ j, j ≠ id → t.copies.get? j = m.copies.get? j) ∧ (∀ q, q ≠ c.part → t.part q = m.part q) ∧
  (p.faultQ.length < 4096 → t.copies.get? id = some { y with started := true, waitSeq := some p.faultSeq, draft := none } ∧
    t.part c.part = { p with faultQ := p.faultQ ++ [{ draft := d, seq := p.faultSeq, copied := false }], faultSeq := p.faultSeq + 1 }) ∧
  (4096 ≤ p.faultQ.length → t.copies.get? id = some { y with started := true, draft := some d } ∧ t.part c.part = p)

/-- Another copy still fills a tile of a block, or will when it is issued again (11 R306). -/
def fillsToo (m : Mach) (id b n : Nat) : Prop :=
  (∃ d ∈ m.copies, d.1 ≠ id ∧ d.2.ended = false ∧ d.2.x = n ∧ ∃ q ∈ d.2.rcvs, q.blk = some b) ∨ ∃ k, m.blocks.get? b = some k ∧ ∃ d ∈ k.reissue, d.x = n ∧ ∃ q ∈ d.rcvs, q.blk = some b

/-- A COPY HAS MOVED ALL IT WILL (11 R287, R296, R306): it has ended, with its status; its barrier takes every byte that it has not taken yet, its PHASE going on where PENDING comes to 0; and the tiles it filled hold all, but for those that other copies still fill. -/
def CopyEnds : Prop := ∀ (m : Mach) id c st y, m.copies.get? id = some y →
  let t := m.endCopy id c st
  let left := Tlr.boxBytes c.rcd - c.sub
  t = { m with copies := t.copies, blocks := t.blocks, warps := t.warps } ∧
  (∀ j, t.copies.get? j = if j = id then some { y with started := true, ended := true, status := y.status ||| st, waitSeq := none } else m.copies.get? j) ∧
  (∀ b off, c.blk = some b → c.bar = some off → m.blocks.has b = true →
    let p := (m.bcObj b off).2
    let q := (p + 2 ^ 32 - left % 2 ^ 32) % 2 ^ 32
    t.bcObj b off = if left = 0 then m.bcObj b off else (if p ≠ 0 ∧ q = 0 then ((m.bcObj b off).1 + 1) % 2 ^ 32 else (m.bcObj b off).1, q)) ∧
  (∀ b n, (n ≠ c.x ∨ ∀ r ∈ c.rcvs, r.blk ≠ some b) → t.tile b n = m.tile b n) ∧
  ∀ b, (∃ r ∈ c.rcvs, r.blk = some b) → (fillsToo m id b c.x → t.tile b c.x = m.tile b c.x) ∧
    (¬ fillsToo m id b c.x → t.tile b c.x = if (m.tile b c.x).fill = .copy then { m.tile b c.x with fill := .written } else m.tile b c.x)

/-- A COPY COMPLETES (11 R287, R291, R293; 15 R392; 17 R433): it is gone and counted, with what refused it and its errors; its slip record counts one fewer; its thread's batch counts one fewer and takes its status, and batches at the head of those sealed that have none left are done. -/
def CopyLeaves : Prop := ∀ (e : Fw) (m : Mach) id c,
  let t := m.copyGone e id c
  (∀ j, t.copies.get? j = if j = id then none else m.copies.get? j) ∧
  (∀ x, m.bundles.get? c.bundle = some x → ∃ y, t.bundles.get? c.bundle = some y ∧ y.tally.copies = x.tally.copies + 1 ∧
    y.tally.refused = x.tally.refused ||| c.status.toNat / 2 ^ 16 ∧ y.tally.cperr = x.tally.cperr ||| c.status.toNat % 2 ^ 4 ∧
    ∀ l, x.launches.get? c.launch = some l → ∃ l', y.launches.get? c.launch = some l' ∧
      (l'.slips = [] ∨ l'.slips = l.slips.map (fun (q : Slip) => if c.linked = some q.seq then { q with cpleft := q.cpleft - 1 } else q))) ∧
  ∀ b core slot, c.blk = some b → m.warpByNum b c.warp = some (core, slot) → slot < 128 → t.warps.has (wk core slot) = true → (m.warp core slot).threads.has c.lane = true →
    let th := (m.warp core slot).thread c.lane
    let less (B : Batch) : Batch := if B.no = c.batch then { B with left := B.left - 1, status := B.status ||| c.status } else B
    ((t.warp core slot).thread c.lane).openB = less th.openB ∧ ((t.warp core slot).thread c.lane).sealedB = (th.sealedB.map less).dropWhile (fun B => decide (B.left = 0)) ∧
    ∀ l, l ≠ c.lane → (t.warp core slot).thread l = (m.warp core slot).thread l

/-- Tile readers of a product end (11 R299): one for each operand. -/
def readersOff (n ta tb : Nat) (x y : Tile) : Prop := y.readers = x.readers - (if n = ta then 1 else 0) - (if n = tb then 1 else 0) ∧ (x.st ≠ 3 → y.st = x.st) ∧ (n ≠ ta → n ≠ tb → y = x)

/-- A bundle has the event of a task's record set, if it names one (12 R319). -/
def EventOf (k : Task) (m t : Mach) : Prop := ∀ x, m.bundles.get? k.bundle = some x → (t.tenant x.tag).ev = if TaskW.even k.rcd then (m.tenant x.tag).ev ||| evMask (TaskW.evbit k.rcd) else (m.tenant x.tag).ev

/-- A TILE TASK RETIRES (12 R318, R321, R322, R324; 17 R435): it is gone; the unspent part of its reservation returns within the interval it was made in; its event is set; its flags join the bundle's; its block has made progress; and while the block has not come to its end, the task has left its handle's set, its tiles are read no longer, or its fill is over, or a zeroed array saturates no more. -/
def TaskRetires : Prop := ∀ (e : Fw) (m : Mach) id k, m.tasks.get? id = some k → (chainKeys m k.bundle).Nodup →
  let t := m.taskRetire e id k
  (∀ j, t.tasks.get? j = if j = id then none else m.tasks.get? j) ∧ EventOf k m t ∧
  (∀ s, (t.shard s).acct = (m.shard s).acct + (if s = k.core / 16 ∧ k.interval = (m.shard s).interval then k.reserve else 0) ∧
    ∀ n, (t.shard s).nodes.get n 0 = (m.shard s).nodes.get n 0 + if s = k.core / 16 ∧ k.interval = (m.shard s).interval ∧ n ∈ chainKeys m k.bundle then k.reserve else 0) ∧
  (∀ x, m.bundles.get? k.bundle = some x → ∃ y, t.bundles.get? k.bundle = some y ∧ y.tally.tasks = x.tally.tasks + 1 ∧ ∀ q, (x.tally.exc ||| k.exc).getLsbD q = true → y.tally.exc.getLsbD q = true) ∧
  ∀ b y, m.blocks.get? k.blk = some b → t.blocks.get? k.blk = some y → y.st ≠ .exited →
    (y.wdbase, y.wdcnt, y.wdexp) = ((m.shard (b.core / 16)).cycle, 0, 0) ∧
    (∀ h a, b.accs.get? h = some a → ∃ a', y.accs.get? h = some a' ∧ a'.data = a.data ∧
      a'.inflight = (if h = TaskW.h k.rcd then a.inflight.filter (fun n => decide (n ≠ id)) else a.inflight) ∧
      a'.sat = (if h = TaskW.h k.rcd ∧ TaskW.isMac k.rcd = false ∧ TaskW.isDrain k.rcd = false then false else a.sat)) ∧
    (TaskW.isMac k.rcd = true → ∀ n, readersOff n (TaskW.ta k.rcd) (TaskW.tb k.rcd) (b.tiles.get n Tile.reset) (y.tiles.get n Tile.reset)) ∧
    (TaskW.isMac k.rcd = false → TaskW.isDrain k.rcd = true → (b.tiles.get (TaskW.td k.rcd) Tile.reset).st = 1 →
      y.tiles.get (TaskW.td k.rcd) Tile.reset = { b.tiles.get (TaskW.td k.rcd) Tile.reset with st := 2, pend := false, wrfill := false, fill := .none })

/-- A HEAD THAT CAN NEVER RUN IS DISCARDED (12 R321; 17 R433): it is gone, its event set, and counted, the first one's SEQ kept. -/
def TaskDiscards : Prop := ∀ (e : Fw) (m : Mach) id k, m.tasks.get? id = some k →
  let t := m.taskDiscard e id k
  (∀ j, t.tasks.get? j = if j = id then none else m.tasks.get? j) ∧ EventOf k m t ∧
  (∀ x, m.bundles.get? k.bundle = some x → ∃ y, t.bundles.get? k.bundle = some y ∧ y.tally.ndisc = x.tally.ndisc + 1 ∧ y.tally.tasks = x.tally.tasks ∧
    y.tally.discseq = if x.tally.ndisc = 0 then TaskW.seq k.rcd else x.tally.discseq) ∧
  ∀ b y, m.blocks.get? k.blk = some b → t.blocks.get? k.blk = some y → y.st ≠ .exited →
    ∀ h a, b.accs.get? h = some a → ∃ a', y.accs.get? h = some a' ∧ a'.data = a.data ∧ a'.inflight = if h = TaskW.h k.rcd then a.inflight.filter (fun n => decide (n ≠ id)) else a.inflight

/-- A TILE TASK WITH STEPS LEFT IS DISPATCHED (12 R321, R322): it runs on a free engine with its whole energy reserved, which its accounts are charged; a product's tiles have one reader more, unless it went on; a DRAIN's tile begins its fill; the core dispatches nothing more in this cycle. -/
def TaskBegins : Prop := ∀ (e : Fw) (m : Mach) id k g, m.tasks.get? id = some k → (chainKeys m k.bundle).Nodup → m.freeEngine k.core = some g → k.step < (m.taskInfo k.blk k.rcd).steps →
  let t := m.taskDispatch e id k
  (∀ j, t.tasks.get? j = if j = id
    then some { k with st := .running, reserve := TaskW.energy k.rcd, interval := (m.shard (k.core / 16)).interval, since := none, engine := g, filling := TaskW.isDrain k.rcd } else m.tasks.get? j) ∧
  Charged (k.core / 16) (chainKeys m k.bundle) (TaskW.energy k.rcd) m t ∧ (t.core k.core).dispatchedAt = some (m.shard (k.core / 16)).cycle ∧
  t = { m with tasks := t.tasks, blocks := t.blocks, shards := t.shards, cores := t.cores } ∧ (∀ j, j ≠ k.blk → t.blocks.get? j = m.blocks.get? j) ∧
  ∀ b, m.blocks.get? k.blk = some b → ∃ y, t.blocks.get? k.blk = some y ∧ y = { b with tiles := y.tiles } ∧ ∀ n,
    let x := b.tiles.get n Tile.reset
    (TaskW.isMac k.rcd = true → TaskW.isDrain k.rcd = false →
      y.tiles.get n Tile.reset = if k.st = .queued then { x with readers := x.readers + (if n = TaskW.ta k.rcd then 1 else 0) + (if n = TaskW.tb k.rcd then 1 else 0) } else x) ∧
    (TaskW.isMac k.rcd = false → TaskW.isDrain k.rcd = true →
      y.tiles.get n Tile.reset = if n = TaskW.td k.rcd ∧ k.filling = false then { x with st := 1, pend := true, wrfill := false, fill := .task id } else x) ∧
    (TaskW.isMac k.rcd = false → TaskW.isDrain k.rcd = false → y.tiles.get n Tile.reset = x)

/-- AN MMA OR MMAS STOPS AT A STEP BOUNDARY (12 R317): it is gone, its progress is in its Sp unless it writes none, its operands are read no longer, it has left its handle's set, and its lanes stand at the instruction again with the cycle as their stamp. -/
def ProductStops : Prop := ∀ (e : Fw) (m : Mach) id (x : MmaOp), x.slot < 97 →
  let t := m.mmaStop e id x
  (∀ j, t.mmas.get? j = if j = id then none else m.mmas.get? j) ∧
  (t.warps.has (wk x.core x.slot) = true → let w := m.warp x.core x.slot
    let y := t.warp x.core x.slot
    (∀ n, y.sreg n = if x.wbs = false ∧ n = x.sp then BitVec.ofNat 32 x.step else w.sreg n) ∧ y.v = w.v ∧
    ∀ l, l < 32 → w.threads.has l = true → y.thread l = if (w.thread l).st = .blocked (.mma id) then { w.thread l with st := .atPc, pc := x.pc, stamp := (m.slc x.core w.slice).cyc, yieldDue := false } else w.thread l) ∧
  ∀ b y, m.blocks.get? x.blk = some b → t.blocks.get? x.blk = some y → y.st ≠ .exited → (∀ n, readersOff n x.ta x.tb (b.tiles.get n Tile.reset) (y.tiles.get n Tile.reset)) ∧
    ∀ h a, b.accs.get? h = some a → ∃ a', y.accs.get? h = some a' ∧ a'.data = a.data ∧ a'.inflight = if h = x.h then a.inflight.filter (fun n => decide (n ≠ id)) else a.inflight

/-- Where a lane of a macro-instruction goes on: after it, at its callback, or at it again (13 R334, R335, R337). -/
def laneNext (x : MacroOp) (l : MLane) : DWord :=
  match l.ending with
  | some .complete => x.pc + 16
  | some .callback => if l.words.getD 1 0 = 0 then x.pc + 16 else x.pc + 16 * (l.words.getD 1 0).signExtend 64
  | _ => x.pc

/-- A MACRO-INSTRUCTION IS OVER (13 R334 to R337; 10 R270): it is gone, and in each of its warps the flags of its lanes are raised; each lane that it held goes on with the cycle as its stamp, if none of its warp meets a fault; where some do, and none an error, those wait for their pages, their mask bits 0. No other thread changes, but for one that waits for a reservation, which a warp that comes to its end may give back. -/
def MacroEnds : Prop := ∀ (e : Fw) (m : Mach) id (x : MacroOp), (x.lanes.map (fun l => (l.slot, l.lane))).Nodup → (∀ l ∈ x.lanes, (⟨l.slot, l.lane⟩ : Member) ∈ x.members ∧ l.slot < 97 ∧ l.lane < 32 ∧ (l.slot = handlerSlot → l.waits = false)) →
  let t := m.macroRelease e id x
  let held (l : MLane) : Prop := m.warps.has (wk x.core l.slot) = true ∧ (m.warp x.core l.slot).threads.has l.lane = true ∧ ((m.warp x.core l.slot).thread l.lane).st = .blocked (.macroOp id)
  let waits (l : MLane) : Prop := held l ∧ ∃ p c, l.ending = some (.fault p c)
  let halts (l : MLane) : Prop := held l ∧ l.ending = some .uncorr
  (∀ j, t.macros.get? j = if j = id then none else m.macros.get? j) ∧
  (∀ l ∈ x.lanes, held l → t.warps.has (wk x.core l.slot) = true → (∀ q, l.exc.getLsbD q = true → (t.warp x.core l.slot).summary.getLsbD q = true)) ∧
  (∀ l ∈ x.lanes, held l → t.warps.has (wk x.core l.slot) = true → (∀ k ∈ x.lanes, k.slot = l.slot → ¬ waits k ∧ ¬ halts k) →
    (t.warp x.core l.slot).thread l.lane = { (m.warp x.core l.slot).thread l.lane with
      st := .atPc, pc := laneNext x l, stamp := (m.slc x.core (m.warp x.core l.slot).slice).cyc,
      yieldDue := ((m.warp x.core l.slot).thread l.lane).yieldDue && decide (l.ending ≠ some .stop) }) ∧
  (∀ l ∈ x.lanes, waits l → l.slot < handlerSlot → (∀ k ∈ x.lanes, k.slot = l.slot → ¬ halts k) →
    ((t.warp x.core l.slot).thread l.lane).st = .faultWait ∧ ((t.warp x.core l.slot).thread l.lane).pc = x.pc ∧ laneBit (t.warp x.core l.slot).faultmask l.lane = false) ∧
  ∀ slot lane, slot < handlerSlot → t.warps.has (wk x.core slot) = true → (∀ l ∈ x.lanes, ¬ (l.slot = slot ∧ l.lane = lane ∧ held l)) → (∀ n, ((m.warp x.core slot).thread lane).st ≠ .blocked (.wgres n)) →
    (t.warp x.core slot).thread lane = (m.warp x.core slot).thread lane

/-- A BUNDLE RETIRES (04 R96; 12 R320; 15 R398; 17 R433), here one without coverage records: it and its blocks are gone, its set mask is applied to its tenant's events, its completion record is written with its counts, those of matrix records unclaimed and of slip and work-graph records left among them, and the oldest bundle of its queue that waits moves to the head. -/
def BundleRetires : Prop := ∀ (e : Fw) (m : Mach) id x, m.bundles.get? id = some x → finished m id x → m.bundles.sorted = true → x.launches.sorted = true → (∀ l ∈ x.launches, l.2.cov = none) →
  let t := m.retire e id x
  let q := x.tally
  let nuncl := q.nuncl + ((x.launches.filter (fun l => decide (l.2.kind = 1))).map (fun l => l.2.gridX - l.2.taken)).sum
  let nrecd := q.nrecd + ((x.launches.filter (fun l => decide (l.2.live = 0 ∧ l.2.blockCount ≤ l.2.next))).map (fun l => l.2.slips.length + l.2.wgRecs.length)).sum
  let words : List Nat := [x.status * 2 ^ 56 + (if q.ndisc = 0 then 0 else 0x0C) * 2 ^ 48 + q.exc.toNat * 2 ^ 32 + Hdr.seq x.hdr, q.blocks % 2 ^ 32 * 2 ^ 32 + q.tasks % 2 ^ 32,
    q.copies % 2 ^ 32 * 2 ^ 32 + min 0xFFFF q.nrestf * 2 ^ 16 + min 0xFFFF q.ndisc, q.discseq * 2 ^ 32 + min 0xFFFF nuncl * 2 ^ 16 + min 0xFFFF nrecd,
    q.refused % 2 ^ 16 * 2 ^ 48 + q.cperr % 16 * 2 ^ 32 + q.rframe, 0, 0, 0]
  t.bundles.get? id = none ∧ t.blocks = m.blocks.filter (fun b => decide (b.2.bundle ≠ id)) ∧
  (t.tenant x.tag).ev = (m.tenant x.tag).ev ||| BitVec.ofNat 256 (x.launches.foldl (fun a l => a ||| l.2.setMask) 0) ∧
  (x.hdr ≠ [] → ∃ v, v = { m with bundles := v.bundles } ∧
    (∀ w pa o, walkTo e v x.part (Hdr.compl x.hdr) .store none = (w, .ok pa o) → t.mem = (w.tierWrite pa 64 (words.foldr (fun w a => w % 2 ^ 64 + 2 ^ 64 * a) 0)).mem) ∧
    (∀ w c, walkTo e v x.part (Hdr.compl x.hdr) .store none = (w, .err c) → t.mem = w.mem ∧ (t.part x.part).errlog = (w.part x.part).errlog ++ [[29, Hdr.seq x.hdr, x.status]])) ∧
  ∀ b z, m.bundles.get? b = some z → b ≠ id → z.queue = x.queue → z.st = .queued →
    (∀ y ∈ m.bundles, y.1 ≠ id → y.1 ≠ b → y.2.queue = x.queue → y.2.st ≠ .head ∧ y.2.st ≠ .admitting ∧ (y.2.st = .queued → z.order < y.2.order)) →
    ∃ y, t.bundles.get? b = some y ∧ y = { z with st := .head, launches := y.launches }

/-- A warp of a new block is in a slot of its slice, a free one where there is one (05 R115, R116; 10 R257; 17 R436): its segments as at placement, nothing written, its threads at the launch's entry with the placement cycle as their stamp, those that do not start EXITED. -/
structure WarpNew (l : Launch) (id f lin frame num core slice slot : Nat) (u v : Mach) : Prop where
  only : v = { u with warps := v.warps, slices := v.slices } ∧ ∀ n, n ≠ wk core slot → v.warps.get? n = u.warps.get? n
  place : 16 * slice ≤ slot ∧ slot < 16 * slice + 16 ∧ ((∃ j, 16 * slice ≤ j ∧ j < 16 * slice + 16 ∧ u.warps.has (wk core j) = false) → u.warps.has (wk core slot) = false)
  warp : ∃ y, v.warps.get? (wk core slot) = some y ∧ (y.blk, y.num, y.slice, y.peak, y.faultmask, y.stopped) = (id, num, slice, l.peak, 0xFFFFFFFF, false) ∧
    y.v = [] ∧ y.s = [] ∧ y.flags = [] ∧ y.jm = [] ∧ y.owes = [] ∧ y.res = [] ∧ y.fault = none ∧ (y.loc, y.summary) = (0, 0) ∧
    y.seg = [(0, (0, 0x200000000000000)), (1, (0, BitVec.ofNat 64 l.scrBytes)), (2, (BitVec.ofNat 64 (frame + 0x100000 + 0x8000 * num), 1024)), (3, (BitVec.ofNat 64 l.constBase, 65536)), (4, (0, 0x10000000)),
      (5, (0x200000000000000, BitVec.ofNat 64 l.scrBytes)), (6, (0x300000000000000, 1024)), (7, (0, 0))] ∧
    ∀ i, i < 32 → y.thread i = { Thread.absent with
      pc := BitVec.ofNat 64 l.entry, st := if l.starts f lin (32 * num + i) = true then .atPc else .exited, stamp := (u.slc core slice).cyc + 1, helper := l.startsHelper f lin (32 * num + i),
      lattice := match l.threadClass f lin (32 * num + i) with
        | 0 => 1
        | 1 => 2
        | _ => 0 }
inductive WarpsNew (l : Launch) (id f lin frame core : Nat) : List (Nat × Nat) → Mach → Mach → Prop
  | done (u : Mach) : WarpsNew l id f lin frame core [] u u
  | next (num slice slot : Nat) (r : List (Nat × Nat)) (u v t : Mach) : WarpNew l id f lin frame num core slice slot u v → WarpsNew l id f lin frame core r v t → WarpsNew l id f lin frame core ((num, slice) :: r) u t

/-- A BLOCK IS PLACED ON A CORE, as if for the first time (05 R115, R116; 16 R419, R425): it is resident, with its age, frame and F, and nothing else of its own; its warps are in the slots found; its launch has a share of the core; its frame's header has FSTATE 1; the cursor is past the ring's first core with room. -/
structure BlockNew (e : Fw) (id bid : Nat) (x : Bundle) (lid : Nat) (l : Launch) (lin core age frame f rr : Nat) (seats : List (Nat × Nat)) (u t : Mach) : Prop where
  block : ∃ k, t.blocks.get? id = some k ∧ (k.bundle, k.launch, k.lin, k.core, k.age, k.frame, k.covf) = (bid, lid, lin, core, age, frame, f) ∧ (k.st, k.preempt, k.flushable) = (.resident, false, l.idem) ∧
    (k.wdbase, k.wdcnt, k.wdexp) = ((u.shard (core / 16)).cycle, 0, 0) ∧ k.scratch = [] ∧ k.tiles = [] ∧ k.bars = [] ∧ k.accs = [] ∧ k.accWait = [] ∧ k.warps = [] ∧ k.traps = [] ∧ k.reissue = [] ∧ k.tasks = [] ∧
    (∃ a b : Mach, (∀ j, j < 6 → a.slc core j = caughtUp e u core j) ∧ a.warps = u.warps ∧ WarpsNew l id f lin (u.frameAddr k) core seats a b ∧ t.warps = b.warps) ∧
    t.mem = (writeRecord e u x.part (u.frameAddr k) (frameHeader x l k 1)).1.mem
  share : ∃ h ∈ (t.core core).shares, h.bundle = bid ∧ h.launch = lid
  part : t.part x.part = { (u.moveCursor e x.part rr).part x.part with age := (t.part x.part).age }
  others : (∀ n, n ≠ id → t.blocks.get? n = u.blocks.get? n) ∧ t.copies = u.copies ∧ t.tasks = u.tasks

/-- THE NEXT BLOCK OF A LAUNCH IS PLACED (05 R116, R117; 17 R436): on the core that the choice gives, in the lowest free frame, with the partition's next age, and it counts as live; one with no thread to start counts as exited at once. -/
structure NextPlaced (e : Fw) (bid : Nat) (x : Bundle) (lid : Nat) (l : Launch) (u t : Mach) : Prop where
  empty : l.startWarps l.fNow l.next = [] → t = { u with bundles := t.bundles, darns := t.darns, nextId := t.nextId } ∧
    ∃ y z, t.bundles.get? bid = some y ∧ y.launches.get? lid = some z ∧ z.next = l.next + 1 ∧ z.live = l.live ∧ y.tally.blocks = x.tally.blocks + 1
  some : l.startWarps l.fNow l.next ≠ [] → ∃ core seats rr fr, u.chooseCore e bid x lid l (l.startWarps l.fNow l.next) 0 false = some (core, seats, rr) ∧
    (∃ d, readRecord e u x.part (x.eff 10 + 0x1000 + fr * 0x800000) 1 = some [d] ∧ d / 2 ^ 62 % 4 = 0) ∧ (∀ j d, j < fr → readRecord e u x.part (x.eff 10 + 0x1000 + j * 0x800000) 1 = some [d] → d / 2 ^ 62 % 4 ≠ 0) ∧
    BlockNew e u.nextId bid x lid l l.next core (u.part x.part).age fr l.fNow rr seats u t ∧ (t.part x.part).age = (u.part x.part).age + 1 ∧
    ∃ y z, t.bundles.get? bid = some y ∧ y.launches.get? lid = some z ∧ z.next = l.next + 1 ∧ z.live = l.live + 1

/-- Every block of a persistent launch is placed, one after another (03 R78; 05 R119). -/
inductive AllPlaced (e : Fw) (bid lid : Nat) : Mach → Mach → Prop
  | done (u : Mach) (x : Bundle) (l : Launch) : u.bundles.get? bid = some x → x.launches.get? lid = some l → l.blockCount ≤ l.next → AllPlaced e bid lid u u
  | next (u v t : Mach) (x : Bundle) (l : Launch) : u.bundles.get? bid = some x → x.launches.get? lid = some l → l.next < l.blockCount → NextPlaced e bid x lid l u v → AllPlaced e bid lid v t → AllPlaced e bid lid u t

/-- What the dispatcher's choice brings about, where it restores nothing. -/
structure Dispatched (e : Fw) (c : Choice) (u t : Mach) : Prop where
  next : ∀ b l x y, c = .next b l → u.bundles.get? b = some x → x.launches.get? l = some y → NextPlaced e b x l y u t
  again : ∀ id k x l, c = .again id → u.blocks.get? id = some k → u.bundles.get? k.bundle = some x → x.launches.get? k.launch = some l →
    ∃ core seats rr, u.chooseCore e k.bundle x k.launch l (l.startWarps k.covf k.lin) 0 false = some (core, seats, rr) ∧ BlockNew e id k.bundle x k.launch l k.lin core k.age k.frame k.covf rr seats u t ∧
      (t.part x.part).age = (u.part x.part).age ∧ t.bundles = u.bundles
  persist : ∀ b l x y, c = .persist b l → u.bundles.get? b = some x → x.launches.get? l = some y → (placeAll e b l false y.blockCount u = none → t = u) ∧ (placeAll e b l false y.blockCount u ≠ none → AllPlaced e b l u t)

/-- The dispatcher's step does what it chose, in well-formed tables. -/
def Dispatches : Prop := ∀ (e : Fw) (m : Mach) p c, m.bundles.sorted = true → m.blocks.sorted = true → (∀ b ∈ m.bundles, b.2.launches.sorted = true) → m.dispatch e p = some c → Dispatched e c m (m.runChoice e c)

/-- Cores of a partition's ring from its cursor (05 R117). -/
def coreRing (e : Fw) (m : Mach) (part : Nat) : List Nat :=
  (e.placeable part).filter (fun c => decide ((m.part part).cursor ≤ c)) ++ (e.placeable part).filter (fun c => decide (c < (m.part part).cursor))

/-- max(0, TEMP − 60) + 8 × DROOP (05 R117). -/
def scoreOf (m : Mach) (c : Nat) : Nat := (max 0 (((m.core c).temp : Int) - 60)).toNat + 8 * (m.core c).droop

/-- The threads of a list that stand at one place: of one launch, at one program counter. -/
def standHere (ss : List Stand) (q : (Nat × Nat) × DWord) : List Stand := ss.filter (fun z => decide (z.launch = q.1) && decide (z.pc = q.2))

/-- The machine after the fetches of some places, one after another, each with the threads that stand there. -/
inductive Fetching (e : Fw) (c k p : Nat) (ss : List Stand) : List ((Nat × Nat) × DWord) → Mach → Mach → Prop
  | done (u : Mach) : Fetching e c k p ss [] u u
  | next (q : (Nat × Nat) × DWord) (r : List ((Nat × Nat) × DWord)) (u t : Mach) : Fetching e c k p ss r (fetchPlace e u c k p q.2 (standHere ss q)).1 t → Fetching e c k p ss (q :: r) u t

/-- A candidate comes of a fetch at its program counter by threads that stand there: its word, or its cause, is what the fetch gave, and its members are of the threads that it gave it to. -/
def cameOf (e : Fw) (u : Mach) (c k p : Nat) (here : List Stand) (x : Cand) : Prop :=
  x.got = (fetchPlace e u c k p x.pc here).2.2 ∧ ∀ y ∈ x.members, ∃ z ∈ (fetchPlace e u c k p x.pc here).2.1, z.x = y

/-- A candidate comes of one of the places of the threads that stand on a slice; the places before it were fetched first. -/
def cameOfPlace (e : Fw) (m : Mach) (c k p : Nat) (ss : List Stand) (x : Cand) : Prop :=
  ∃ before q after u, ((ss.map (fun z => (z.launch, z.pc))).eraseDups) = before ++ q :: after ∧ Fetching e c k p ss before m u ∧ q.2 = x.pc ∧ cameOf e u c k p (standHere ss q) x

/-- The threads of a chain as they stand where it goes on. -/
def chainStands (m : Mach) (c : Nat) (h : Chain) : List Stand :=
  h.members.map (fun x => { x, stamp := ((m.warp c x.slot).thread x.lane).stamp, pc := h.next, launch := (0, 0), replay := false })

/-- Where the group that a slice chooses comes from: while a whole chain holds the slice, from the chain's members at its next program counter; else from the handler's threads, on slice 0, or from those of the slice's warps, a broken chain let go. -/
def chosenFrom (e : Fw) (m : Mach) (c k p : Nat) (x : Cand) : Prop :=
  (∀ h, (m.slc c k).chain = some h → m.chainWhole c h = true → x.pc = h.next ∧ x.members = h.members ∧ x.got = (fetchPlace e m c k p h.next (chainStands m c h)).2.2) ∧
  (((m.slc c k).chain = none ∨ ∃ h, (m.slc c k).chain = some h ∧ m.chainWhole c h = false) →
    let n := if (m.slc c k).chain = none then m else m.breakChain c k
    let hs := if k = 0 then n.handlerStands c else []
    cameOfPlace e n c k p hs x ∨ ∃ v, Fetching e c k p hs ((hs.map (fun z => (z.launch, z.pc))).eraseDups) n v ∧ cameOfPlace e v c k p (v.stands c k) x)

/-- The threads that stand on a slice: of its warps, at a program counter, and not held by an incomplete instruction or a stop, unless it is the replay; with their launch, their stamp and their program counter (07 R173). The handler's are those of its service. -/
def StandsAre (m : Mach) (c k : Nat) : Prop :=
  (∀ z, z ∈ m.stands c k ↔ ∃ w t, z.x.slot < handlerSlot ∧ m.warps.get? (wk c z.x.slot) = some w ∧ w.slice = k ∧ (z.x.lane, t) ∈ w.threads ∧ t.st = .atPc ∧ (w.free = true ∨ w.replays z.x.lane = true) ∧
    z.pc = t.pc ∧ z.stamp = t.stamp ∧ z.replay = w.replays z.x.lane ∧ z.launch = ((m.blocks.get? w.blk).map (fun b => (b.bundle, b.launch))).getD (0, 0)) ∧
  ∀ z ∈ m.handlerStands c, z.x.slot = handlerSlot ∧ m.handlerActive c = true ∧ ∃ t, (z.x.lane, t) ∈ (m.warp c handlerSlot).threads ∧ t.st = .atPc ∧ z.pc = t.pc ∧ z.stamp = t.stamp

/-- A slice is offered the next step: by the head of the agenda, or by the device in its own turn; `r` is what is left of the agenda and `n` the cursor. -/
def SliceOffered (s : State) (c k : Nat) (r : List Move) (n : Nat) : Prop :=
  (s.agenda = .slice c k :: r ∧ n = s.cursor) ∨ (s.agenda = [] ∧ r = [] ∧ nextSlice s = (c, k) ∧ n = s.cursor + 1 ∧ nextOwn s = none)

/-- It takes its cycle: its shard's ring has nothing due before it, and it is the slice whose turn the shard cycle has come to (07 R190, R193). -/
def SliceTurn (s : State) (c k : Nat) (r : List Move) (n : Nat) : Prop :=
  SliceOffered s c k r n ∧ c / 16 < 16 ∧ (s.m.shard (c / 16)).ringDue = false ∧ s.m.turnOf s.fw (c / 16) = some (c, k)

/-- A constructor of a table of effect forms COMPLETES: wherever it issues, for every state and operands, it answers a next state with its effect. -/
def Completes (form : Instr → Option EffectForm) (i : Instr) : Prop :=
  ∃ F k o, form i = some F ∧ i.mnOp? = some (k, o) ∧ ∀ s g m, Issues s k o F.own g m → ∃ u t, exec i s = .next { s with m := t } ∧ Issued g m u ∧ F.post g u t

/-- A constructor of a table of reading forms completes wherever it issues with its records read. -/
def CompletesReading (form : Instr → Option ReadForm) (i : Instr) : Prop :=
  ∃ F k o, form i = some F ∧ i.mnOp? = some (k, o) ∧
    ∀ s g m rs, IssuesReading s k o F.pre F.read F.own g m rs → ∃ u t, exec i s = .next { s with m := t } ∧ Issued g m u ∧ F.post g rs u t

/-- An event of a table takes place wherever it is due. -/
def Happens (form : Instr → Option EventForm) (i : Instr) : Prop := ∃ F, form i = some F ∧ ∀ s, F.due s → ∃ t, exec i s = .next t ∧ F.post s t

end Sys2Proof.Machine

open Sys2Proof Sys2Proof.Machine

/-! ## The statements -/

/-- Words written out from the layout of R141, the opcode map of R152 and Example 6.1 decode to the instructions they stand for: `P3? FMAC.rn V10, V4, S2, 1.5 {stall=4 wait=F1 last=a}`, `NOP`, `EXIT`, `IADD V5, V6, V7`, `BRA −1`, `LD.b32 V8, [V2+16]` with flag F0; the words of all zeros and of all ones decode to none (R153). -/
def Obligations.DecodesWrittenWords : Prop :=
  decodeTableWord 128 0x4002F08020CC1402205FF8003FC00000 =
    some (.fmac { ctl := { restCtl with stall := 4, wait := 2, lastA := true }, gneg := false, gpred := 3, dst := .v 10, a := .v 4, b := .s 2, c := .imm, md := 0, imm := 0x3FC00000 }) ∧
  decodeTableWord 128 0x0000F000005FFE000000000000000000 =
    some (.nop { ctl := restCtl, gneg := false, gpred := 7, dst := .none, a := .v 0, b := .v 0, c := .v 0, md := 0, imm := 0 }) ∧
  decodeTableWord 128 0x0000F00001DFFE000000000000000000 =
    some (.exit { ctl := restCtl, gneg := false, gpred := 7, dst := .none, a := .v 0, b := .v 0, c := .v 0, md := 0, imm := 0 }) ∧
  decodeTableWord 128 0x0000F000081C0A0300E0000000000000 =
    some (.iadd { ctl := restCtl, gneg := false, gpred := 7, dst := .v 5, a := .v 6, b := .v 7, c := .v 0, md := 0, imm := 0 }) ∧
  decodeTableWord 128 0x0000F000009FFE0000000000FFFFFFFF =
    some (.bra { ctl := restCtl, gneg := false, gpred := 7, dst := .none, a := .v 0, b := .v 0, c := .v 0, md := 0, imm := 0xFFFFFFFF }) ∧
  decodeTableWord 128 0x00000000481C10010000000400000010 =
    some (.ld { ctl := { restCtl with setf := 0 }, gneg := false, gpred := 7, dst := .v 8, a := .v 2, b := .v 0, c := .v 0, md := 4, imm := 16 }) ∧
  decodeTableWord 128 0 = none ∧ decodeTableWord 128 (2 ^ 128 - 1) = none

/-- DECODE AND ENCODE AGREE, for every instruction word of the set: the word of a well-formed instruction decodes to it, with every operand at every value its encoding admits (06 R141 to R154). -/
def Obligations.DecodeOfEncode : Prop := ∀ i w, wellFormed i = true → encode i = some w → decodeWord w = .ok i

/-- R141: every field of a decoded instruction is read from its own bits of the word, and the reserved control bits of a word that decodes are zero. -/
def Obligations.WordLayout : Prop :=
  ∀ w i, decodeWord w = .ok i → (∀ k o, i.mnOp? = some (k, o) → WordFields w k.opc o) ∧ (∀ n o, i = .extensibleOpcode n o → WordFields w (0x1A0 + n.toNat) o)

/-- A word whose opcode is 0x000 or of row 31 names no instruction, whatever its other bits, and a slice whose group has reached it takes the trap ILLEGAL_OPCODE; in the handler warp it ends the service (16 R407), whose log entry begins with the rule's number and the cause, as the model lays entries out (log 7); how a step takes the slice's turn is the model's order (log 2). -/
def Obligations.PermanentlyIllegalWords : Prop :=
  ∀ w : IWord, ((w.extractLsb' 86 10).toNat = 0 ∨ 31 * 32 ≤ (w.extractLsb' 86 10).toNat) →
    (∀ i, decodeWord w ≠ .ok i) ∧
    ∀ s c k r n m x, SliceTurn s c k r n → (s.m.tick s.fw c k).pick s.fw c k = (m, some x) → x.got = .word w →
      ((∀ y ∈ x.members, y.slot < handlerSlot) →
        ∃ u t ls, step s = .next { s with m := t, agenda := marksDue m c k ++ r, cursor := n } ∧ (u = m ∨ u = m.breakChain c k) ∧ TrapTaken c 0x01 0 x.pc ls (slotsOfMembers x.members) u t) ∧
      ((∃ y ∈ x.members, y.slot = handlerSlot) →
        ∃ u, step s = .next { s with m := Mach.abandonService s.fw u c [407, 0x01] x.pc, agenda := marksDue m c k ++ r, cursor := n } ∧ (u = m ∨ u = m.breakChain c k))

/-- A STEP RUNS THE DECODED INSTRUCTION: when the slice whose turn it is has chosen a group and the word at its program counter decodes to an instruction, the step is that instruction's `exec` on the group; a word that names none is trapped; a fetch that met a cause waits for its page, or ends the handler's service; with no group chosen only the slice's time has gone on. A slice offered out of its turn does nothing, and where no turn is left the shard's next cycle begins (log 2; log 86). -/
def Obligations.StepRunsDecoded : Prop :=
  (∀ s c k r n m, SliceTurn s c k r n →
    (∀ x w i, (s.m.tick s.fw c k).pick s.fw c k = (m, some x) → x.got = .word w → decodeWord w = .ok i →
      step s = exec i { s with m := m.select c k x i, agenda := marksDue m c k ++ r, cursor := n }) ∧
    (∀ x w e, (s.m.tick s.fw c k).pick s.fw c k = (m, some x) → x.got = .word w → decodeWord w = .error e →
      step s = .next { s with m := illegalWord s.fw m c k x w, agenda := marksDue m c k ++ r, cursor := n }) ∧
    (∀ x cause, (s.m.tick s.fw c k).pick s.fw c k = (m, some x) → x.got = .fault cause →
      step s = .next { s with m := if x.oldest.slot = handlerSlot then handlerFetchFault s.fw m c x cause else fetchFault m c k ((s.fw.ownerOf c).getD 0) x cause, agenda := marksDue m c k ++ r, cursor := n }) ∧
    ((s.m.tick s.fw c k).pick s.fw c k = (m, none) → step s = .next { s with m, agenda := marksDue m c k ++ r, cursor := n })) ∧
  ∀ s c k r n, SliceOffered s c k r n →
    ((16 ≤ c / 16 ∨ (s.m.shard (c / 16)).ringDue = true ∨ ∃ y, s.m.turnOf s.fw (c / 16) = some y ∧ y ≠ (c, k)) → step s = .next { s with agenda := r, cursor := n }) ∧
    (c / 16 < 16 → (s.m.shard (c / 16)).ringDue = false → s.m.turnOf s.fw (c / 16) = none → ∃ t, step s = .next t ∧
      ShardSet (c / 16) (fun h => { h with cycle := h.cycle + 1, turn := 0, adm := 0 }) { s with agenda := r, cursor := n } t)

/-- A step takes the event at the head of the agenda, for its unit; with an empty agenda the device's own next event, which is always an event of the table: one that has its place in a shard's cycle ahead of the slices whenever there is one, and another that is due at an even turn (00 R12; 07 R190, R191; log 2). -/
def Obligations.StepRunsEvents : Prop :=
  ∀ s i x, (∀ r, s.agenda = .event i x :: r → isEvent i = true → step s = exec i { s with agenda := r, subj := x }) ∧
    (∀ r, s.agenda = .event i x :: r → isEvent i = false → step s = .next { s with agenda := r }) ∧
    (nextOwn s = some (i, x) → isEvent i = true) ∧
    (s.agenda = [] → nextOwn s = some (i, x) → step s = exec i { s with cursor := s.cursor + 1, subj := x }) ∧
    (urgent s = some (i, x) → nextOwn s = some (i, x)) ∧ (urgent s = none → s.cursor % 2 = 0 → nextOwn s = nextInternal s) ∧ (urgent s = none → s.cursor % 2 ≠ 0 → nextOwn s = none)

/-- The members of a chosen group stand where one word was read: they are threads of the slice's warps, or of the handler's, at the place that the group goes by, or those of the chain that holds the slice, and the machine at the fetch is the one that the places before it leave; a thread that was fetched already has the word it holds, the others the word that one fetch at the program counter gives, which they hold from then on. A fetch with no line in the core's cache reads the 16 bytes of memory at the translation of the program counter, or meets that translation's cause; with a line, the line's word or what memory gives (06 R140; 08 R204, R229). That a place goes by its oldest thread's word where its threads hold different ones, and which translation makes room in the buffers, are the model's choices (logs 88 and 12). -/
def Obligations.FetchedWordStands : Prop :=
  (∀ (e : Fw) (m : Mach) c k p (m' : Mach) (x : Cand), e.ownerOf c = some p → m.pick e c k = (m', some x) → chosenFrom e m c k p x) ∧
  (∀ (m : Mach) c k, StandsAre m c k) ∧
  (∀ (e : Fw) (m : Mach) c k p pc here, let f := fetchPlace e m c k p pc here
    (∀ z ∈ f.2.1, z ∈ here ∧ (∀ w, m.heldWord c k z = some w → f.2.2 = .word w) ∧ (m.heldWord c k z = none → f.2.2 = (fetch e m c k p pc).2)) ∧
    ∀ w, f.2.2 = .word w → ∀ z ∈ f.2.1, m.heldWord c k z = none → (f.1.slc c k).held.get? (vk z.x.slot z.x.lane) = some (pc, w)) ∧
  ∀ (e : Fw) (m : Mach) c k p pc,
    ((m.core c).icache.get? (pcKey pc) = none →
      (∀ m1 pa o, translate e m c p pc.toNat .fetch k = (m1, .ok pa o) → (fetch e m c k p pc).2 = .word (BitVec.ofNat 128 (memRead m1.mem pa 16))) ∧
      (∀ m1 cause, translate e m c p pc.toNat .fetch k = (m1, .err cause) → (fetch e m c k p pc).2 = .fault cause)) ∧
    (∀ w, (m.core c).icache.get? (pcKey pc) = some w → (fetch e m c k p pc).2 = .word w ∨ (fetch e m c k p pc).2 = (fetchMem e { m with fresh := m.fresh + 1 } c k p pc).2)

/-- The members of a chosen group are threads that warps of its core hold, each in a slot of the core (07 R173, R174): the premise `placed` of every statement about an issue holds of every group that a step runs. -/
def Obligations.ChosenGroupIsPlaced : Prop :=
  ∀ (e : Fw) (m : Mach) c k (m' : Mach) (x : Cand), m.pick e c k = (m', some x) → ∀ y ∈ x.members, y.slot ≤ handlerSlot ∧ (m'.warp c y.slot).threads.has y.lane = true

/-- NO STEP STOPS: every instruction and every event answers a next state, whatever the state and its operands; and an instruction word, an extensible slot's too, changes the machine only: no firmware register, no partition, no binding, no fuse, and nothing of what is proposed (00 R16; 03 R63; 06 R153; 08 R200). -/
def Obligations.InstructionsKeepFirmware : Prop :=
  (∀ i s, ∃ t, exec i s = .next t) ∧ (∀ s, ∃ t, step s = .next t) ∧ ∀ i s, isEvent i = false → ∃ m, exec i s = .next { s with m }

/-- AN INVARIANT THAT EVERY STEP KEEPS: no core belongs to two partitions in use (03 R70, R77). -/
def Obligations.CoresDisjointKept : Prop := ∀ s t, s.fw.coresDisjoint → step s = .next t → t.fw.coresDisjoint

/-- What reset leaves (03 R66, R68; 05 R109, R139): every tier byte is zero with no uncorrectable granule, no frame has an owner, no partition is in use, no tenant is bound, no work is present, no link is up, $CYCLE and slice cycles are zero, PSTAT shows BUSY; and the invariant of disjoint cores holds. -/
def Obligations.ResetLeaves : Prop :=
  (∀ a, memGet State.reset.m.mem a = 0) ∧ State.reset.m.poison = [] ∧ Memory.wf State.reset.m.mem ∧ (∀ f, State.reset.fw.owners.get? f = none) ∧ (∀ p, (State.reset.fw.part p).inUse = false) ∧
  State.reset.fw.binds = [] ∧ State.reset.m.bundles = [] ∧ State.reset.m.blocks = [] ∧ State.reset.m.warps = [] ∧ (∀ n, (State.reset.fw.links.get n Link.reset).up = false) ∧
  (∀ k, (State.reset.m.shard k).cycle = 0) ∧ (∀ c k, (State.reset.m.slc c k).cyc = 0) ∧ State.reset.fw.win.busy = true ∧ State.reset.fw.wipes = [(.device, 16)] ∧ State.reset.fw.coresDisjoint

/-- Memory: the bytes written are read back, little-endian; every other byte is what it was; a read is of its own bytes only; the canonical form is kept; and two memories of that form that read alike are the same data (00 R8; 03 R66). -/
def Obligations.MemoryReadAfterWrite : Prop :=
  ∀ (t : Tab Byte) a n v, Memory.wf t →
    Memory.wf (memWrite t a n v) ∧ memRead (memWrite t a n v) a n = v % 256 ^ n ∧ (∀ b, (b < a ∨ a + n ≤ b) → memGet (memWrite t a n v) b = memGet t b) ∧
    (∀ i, i < n → (memGet t (a + i)).toNat = memRead t a n / 256 ^ i % 256) ∧ ∀ u, Memory.wf u → (∀ b, memGet u b = memGet t b) → u = t

/-- THE LOWEST CAUSE IS TAKEN, for every instruction whose causes its issue alone decides: the instruction has none of its effects, every warp with a member stops, and the trap that joins its core's queue carries the lowest of the causes met, the instruction's address and its executing lanes; a privileged form from an unprivileged group meets PRIVILEGED or a lower cause (00 R17; 07 R183; 08 R200; 16 R405). -/
def Obligations.LowestCauseIsTaken : Prop :=
  (∀ i k o own s g m, i.mnOp? = some (k, o) → ownOf i = some own → Traps s k o own g m → (∀ x ∈ g.members, x.slot ≠ handlerSlot) → g.cause own ≠ 0x14 →
    (∃ t, exec i s = .next { s with m := t } ∧ TrapTaken g.core (g.cause own) 0 g.pc (maskOf (g.execs.map (·.lane))) g.slots g.broken t) ∧
    g.cause own ∈ g.commonCauses ++ own g ∧ ∀ c ∈ g.commonCauses ++ own g, c ≠ 0 → g.cause own ≤ c) ∧
  ∀ g : Grp, g.privileged = false → g.cause privCause ≠ 0 ∧ g.cause privCause ≤ 0x03

/-- A WRITE-BACK TAKES PLACE (07 R172, R178 to R180; 08 R206, R228). To vector registers: results of lanes that have ended are discarded; past PEAK nothing is written and the warp's INVALID bits are raised; otherwise each register of each lane has the last value the cells give it, and every other keeps its own. To scalar registers, to a predicate of the lanes that have not ended, to a bypass latch, to both copies of the exception bits, and to a flag: that alone changes. The handler's registers stand between its services, so its results land whatever its threads' states (16 R404). -/
def Obligations.WriteBackTakesPlace : Prop :=
  ∀ (e : Fw) (m : Mach) core slice (w : Wb), w.slot < 128 → m.warps.has (wk core w.slot) = true →
    let x := m.warp core w.slot
    let t := m.applyWb e core slice w
    let y := t.warp core w.slot
    (∀ cells, w.what = .v cells → (∀ c ∈ cells, c.1 < 256 ∧ c.2.1 < 32) → OnlyWarp core w.slot m t ∧ Landed w.slot cells x y) ∧
    (∀ cells, w.what = .s cells → OnlyWarp core w.slot m t ∧ y = { x with s := y.s } ∧ ∀ n, y.sreg n = ((cells.filter (fun c => c.1 = n)).getLast?.map Prod.snd).getD (x.sreg n)) ∧
    (∀ n cells, w.what = .p n cells → n < 7 → (∀ c ∈ cells, x.threads.has c.1 = true) → OnlyWarp core w.slot m t ∧ y = { x with threads := y.threads } ∧ ∀ l,
      y.thread l = { x.thread l with preds := (y.thread l).preds } ∧ (∀ k, k < 7 → k ≠ n → y.preg k l = x.preg k l) ∧
      y.preg n l = (if w.slot = handlerSlot ∨ (x.thread l).st ≠ .exited then ((cells.filter (fun c => c.1 = l)).getLast?.map Prod.snd).getD (x.preg n l) else x.preg n l)) ∧
    (∀ n cells, w.what = .latch n cells → t = { m with slices := t.slices } ∧ (∀ c k, sk c k ≠ sk core slice → t.slc c k = m.slc c k) ∧
      t.slc core slice = { m.slc core slice with latches := (t.slc core slice).latches } ∧
      ∀ q, (t.slc core slice).latches.get? q = match (cells.filter (fun c => vk n c.1 = q)).getLast? with
        | some c => some c.2
        | none => (m.slc core slice).latches.get? q) ∧
    (∀ b, w.what = .exc b → t = { m with warps := t.warps, slices := t.slices } ∧ (∀ c l, l < 128 → (c ≠ core ∨ l ≠ w.slot) → t.warp c l = m.warp c l) ∧
      y = { x with loc := x.loc ||| b, summary := x.summary ||| b } ∧ (∀ c k, sk c k ≠ sk core slice → t.slc c k = m.slc c k) ∧
      t.slc core slice = { m.slc core slice with newExc := (m.slc core slice).newExc.set w.slot ((m.slc core slice).newExc.get w.slot 0 ||| b) }) ∧
    (∀ k, w.what = .flag k → ∃ v, OnlyWarp core w.slot m v ∧ v.warp core w.slot = { x with flags := (v.warp core w.slot).flags } ∧
      (∀ j, (v.warp core w.slot).flagCount j = x.flagCount j - if j = k ∧ k < 12 then 1 else 0) ∧ t = v.settleWarp e core w.slot)

/-- A group's price leaves its slice's set-aside where that was made for it: the same program counter and the same oldest member; otherwise its partition's bank and the accounts of its launch's chain below the root. A mark ends when the thread it names issues; a set-aside that its candidate can no longer use goes back to the bank (log 87); nothing else changes (07 R191, R193, R194). -/
def Obligations.TokensDrawn : Prop :=
  ∀ (g : Grp) (m : Mach), g.nodeKeys.Nodup →
    let mark := (m.slc g.core g.slice).mark
    let ends (k : Mark) : Prop := mark = some k ∧ k.oldest ∈ g.members
    let aside (k : Mark) : Prop := mark = some k ∧ k.set = true ∧ k.pc = g.pc ∧ g.m.oldestMember g.core g.members = some k.oldest
    let t := g.pay m
    SameOutside m t ∧ t.warps = m.warps ∧
    ((∃ k, aside k) → t.cores = m.cores ∧ t.shards = m.shards) ∧
    ((∀ k, ¬ aside k) → (∀ c, c ≠ g.core → t.core c = m.core c) ∧ (∀ k, k ≠ shardOf g.core → t.shard k = m.shard k) ∧
      (∀ k, ends k → k.set = true → (t.core g.core).bank = (m.core g.core).bank + k.price - g.price) ∧
      ((∀ k, ends k → k.set = false) → (t.core g.core).bank = (m.core g.core).bank - g.price) ∧
      ∀ k, (t.shard (shardOf g.core)).nodes.get k 0 = if k ∈ g.nodeKeys then (m.shard (shardOf g.core)).nodes.get k 0 - g.price else (m.shard (shardOf g.core)).nodes.get k 0) ∧
    ((∃ k, ends k) → t.slc g.core g.slice = { m.slc g.core g.slice with mark := none }) ∧ ((∀ k, ¬ ends k) → t.slc g.core g.slice = m.slc g.core g.slice)

/-- ONE LANE'S ACCESS. A helper's store or atomic has no effect; a misaligned one, and one to a global address, a constant or a thread's own memory that does not translate, meets its cause and reads and writes nothing. A load gives the bytes at its translation, or the uncorrectable error; a store writes its own bytes and no other; an atomic reads the old value, leaves R380's value there and gives the old one; CAS128 leaves the new value where the old one is the compare value; TLRMAKE checks the record it finds, gives the status and writes it, with VALID, into the record's first word. In the scratchpad the same, with no translation: the bytes of its block's allocation (07 R188; 10 R262, R266, R270, R274, R279; 11 R305; 14 R379, R381). -/
def Obligations.LaneAccess : Prop :=
  (∀ (e : Fw) (m : Mach) core part (op : AccOp) size (l : AccLane), l.helper = true → (∀ z, op ≠ .load z) → performLane e m core part op size l = (m, .done 0 0)) ∧
  (∀ (e : Fw) (m : Mach) core part (op : AccOp) size (l : AccLane), l.helper = false → l.addr % size ≠ 0 → performLane e m core part op size l = (m, .fault 0x0A)) ∧
  (∀ (e : Fw) (m : Mach) core part (op : AccOp) size (l : AccLane), l.space ≠ .scratch → l.helper = false → l.addr % size = 0 →
    (∀ v c, translate e m core part l.addr op.kind (m.warp core l.slot).slice = (v, .err c) → performLane e m core part op size l = (v, .fault c)) ∧
    (∀ v pa o, translate e m core part l.addr op.kind (m.warp core l.slot).slice = (v, .ok pa o) →
      let old := memRead v.mem pa size
      let wrote (new n exc val : Nat) : Prop := ∃ t, performLane e m core part op size l = (t, .done val (BitVec.ofNat 7 exc)) ∧ t = { v with mem := t.mem, poison := t.poison, devlog := t.devlog } ∧
        memRead t.mem pa n = new % 256 ^ n ∧ ∀ a, (a < pa ∨ pa + n ≤ a) → memGet t.mem a = memGet v.mem a
      (op ≠ .store → poisoned v pa size = true → performLane e m core part op size l = (v, .uncorr)) ∧
      (∀ z, op = .load z → poisoned v pa size = false → performLane e m core part op size l = (v, .done old 0)) ∧
      (op = .store → wrote l.data size 0 0) ∧
      (∀ z wide, op = .atom z wide → poisoned v pa size = false → wrote (atomNew z wide old l.data l.cmp).1 size (atomNew z wide old l.data l.cmp).2.toNat old) ∧
      (op = .cas128 → poisoned v pa size = false → wrote (if old = l.data then l.cmp else old) size 0 old) ∧
      (op = .tlrmake → size = 64 → poisoned v pa size = false → wrote (made old) 8 0 (checkOf old)))) ∧
  ∀ (e : Fw) (m : Mach) core part (op : AccOp) size (l : AccLane), l.space = .scratch → l.helper = false → l.addr % size = 0 →
    (m.blocks.get? l.blk = none → performLane e m core part op size l = (m, .done 0 0)) ∧
    (∀ k, m.blocks.get? l.blk = some k →
      let old := scrRead k l.addr size
      let wrote (new n exc val : Nat) : Prop := performLane e m core part op size l = (m.scrPut l.blk l.addr n new, .done val (BitVec.ofNat 7 exc)) ∧
        ∃ y, (m.scrPut l.blk l.addr n new).blocks.get? l.blk = some y ∧ y = { k with scratch := y.scratch } ∧ scrRead y l.addr n = new % 256 ^ n ∧ ∀ a, (a < l.addr ∨ l.addr + n ≤ a) → scrByte y a = scrByte k a
      (∀ z, op = .load z → performLane e m core part op size l = (m, .done old 0)) ∧
      (op = .store → wrote l.data size 0 0) ∧
      (∀ z wide, op = .atom z wide → wrote (atomNew z wide old l.data l.cmp).1 size (atomNew z wide old l.data l.cmp).2.toNat old) ∧
      (op = .cas128 → wrote (if old = l.data then l.cmp else old) size 0 old) ∧
      (op = .tlrmake → size = 64 → wrote (made old) 8 0 (checkOf old)))

/-- R380: the value each atomic operation leaves, with its flags, from the old value, the operand and the compare value; and the operations that ATOM and RED may name. -/
def Obligations.AtomicResults : Prop :=
  (∀ op wide m b c, op < 15 → m < 2 ^ (if wide = true then 64 else 32) → b < 2 ^ (if wide = true then 64 else 32) → atomNew op wide m b c = atomValue op wide m b c) ∧
  (∀ o, wellFormed (.atom o) = true → o.mdBits 10 7 < 15) ∧ ∀ o, wellFormed (.red o) = true → o.mdBits 10 7 ∉ [8, 9, 15]

/-- TRANSLATION, level by level: a table outside the partition's frames and a leaf frame outside them give PAGE_PROTECTION, but that a load or a fetch may also reach the frames that firmware keeps for the partition (log 84); an entry that is not present or has reserved bits set gives PAGE_NOT_PRESENT; a present level-0 leaf, which may be one of a 64 KiB page's, or an aligned 2 MiB or 1 GiB leaf, gives its address and ordering kind with the right for the access, and PAGE_PROTECTION without it; the walk changes the low byte of the entry it used and no other byte (10 R263 to R267). -/
def Obligations.TranslationRights : Prop :=
  ∀ (e : Fw) (m : Mach) part va (k : AKind), va < 2 ^ 57 →
    let root := (e.part part).xlat
    let w (n : Nat) : Nat := walkEntry m.mem root va n
    let frame (n : Nat) : Nat := w n / 2 ^ 12 % 2 ^ 40
    (∀ n, n < 5 → leadsOn e m part va n → frameOk e part (walkTable m.mem root va n / 4096) = false → walkTo e m part va k none = (m, .err 0x11)) ∧
    (∀ n, n < 5 → leadsOn e m part va n → frameOk e part (walkTable m.mem root va n / 4096) = true → (w n % 2 = 0 ∨ ¬ entryWhole (w n)) → walkTo e m part va k none = (m, .err 0x10)) ∧
    (leadsOn e m part va 4 → frameOk e part (walkTable m.mem root va 4 / 4096) = true → w 4 % 2 = 1 → entryWhole (w 4) → w 4 / 2 ^ 62 % 4 ≠ 3 →
      (leafOk e part k (frame 4) = false → walkTo e m part va k none = (m, .err 0x11)) ∧
      (leafOk e part k (frame 4) = true → ¬ entryGrants k (w 4) → walkTo e m part va k none = (m, .err 0x11)) ∧
      (leafOk e part k (frame 4) = true → entryGrants k (w 4) → (walkTo e m part va k none).2 = .ok (frame 4 * 4096 + va % 4096) (w 4 / 2 ^ 62 % 4))) ∧
    (leadsOn e m part va 3 → frameOk e part (walkTable m.mem root va 3 / 4096) = true → w 3 % 2 = 1 → entryWhole (w 3) → w 3 / 2 ^ 7 % 2 = 1 → w 3 / 2 ^ 62 % 4 ≠ 3 →
      (frame 3 % 512 ≠ 0 → walkTo e m part va k none = (m, .err 0x10)) ∧
      (frame 3 % 512 = 0 → leafOk e part k (frame 3 + va % 2 ^ 21 / 4096) = true → entryGrants k (w 3) → (walkTo e m part va k none).2 = .ok (frame 3 * 4096 + va % 2 ^ 21) (w 3 / 2 ^ 62 % 4))) ∧
    (leadsOn e m part va 2 → frameOk e part (walkTable m.mem root va 2 / 4096) = true → w 2 % 2 = 1 → entryWhole (w 2) → w 2 / 2 ^ 7 % 2 = 1 → w 2 / 2 ^ 62 % 4 ≠ 3 →
      (frame 2 % 2 ^ 18 ≠ 0 → walkTo e m part va k none = (m, .err 0x10)) ∧
      (frame 2 % 2 ^ 18 = 0 → leafOk e part k (frame 2 + va % 2 ^ 30 / 4096) = true → entryGrants k (w 2) → (walkTo e m part va k none).2 = .ok (frame 2 * 4096 + va % 2 ^ 30) (w 2 / 2 ^ 62 % 4))) ∧
    (∀ n, n < 2 → leadsOn e m part va n → frameOk e part (walkTable m.mem root va n / 4096) = true → w n / 2 ^ 7 % 2 = 1 → walkTo e m part va k none = (m, .err 0x10)) ∧
    (∀ t pa o, walkTo e m part va k none = (t, .ok pa o) → t = { m with mem := t.mem } ∧ ∃ a, (∀ b, b ≠ a → memGet t.mem b = memGet m.mem b) ∧
      (∃ n, n < 5 ∧ a = walkTable m.mem root va n + 8 * (va / 2 ^ (12 + 9 * (4 - n)) % 512)) ∧
      memGet t.mem a = memGet m.mem a ||| 0x40 ||| (if k = .store ∨ k = .atomic then 0x20 else 0)) ∧
    (∀ t c, walkTo e m part va k none = (t, .err c) → t = m ∧ (c = 0x10 ∨ c = 0x11)) ∧
    ∀ f, (leafOk e part k f = true ↔ frameOk e part f = true ∨ ((k = .load ∨ k = .fetch) ∧ frameBacked f = true ∧ e.owners.get? f = some (16 + part)))

/-- R214, R215, R216: integer arithmetic. Each instruction issues wherever it meets no cause, and its executing lanes take the value and the flags of its formula at the class latency; nothing else changes. COMPLETION: each of these answers a next state wherever it issues: IADD, ISUB, IMUL, IMULH, IMAC, IMACW, IDIV, IREM, IMIN, IMAX, IABS, INEG, IADD64, ISUB64, IMUL64, IMAC64, IDOT4. -/
def Obligations.IntegerResults : Prop := LaneStatement integerForm

/-- Compares, selection, address formation, predicate forms and TILEST (08 R217, R221; 11 R301). COMPLETION: each of these answers a next state wherever it issues: ICMP, ICMP64, SEL, LEA, PLOP, PMOV, P2V, TILEST. -/
def Obligations.SelectResults : Prop := LaneStatement selectForm

/-- R219, R220: logic, shifts, counts and bit fields, bit by bit. COMPLETION: each of these answers a next state wherever it issues: AND, OR, XOR, NOT, LOGIC3, SHL, SHR, SAR, ROT, SHL64, SHR64, SAR64, SHFN, BCNT, LZC, BITREV, BFE, BFI, BMSK, BPERM. -/
def Obligations.LogicResults : Prop := LaneStatement logicForm ∧ LaneStatement fieldForm

/-- FP32 arithmetic: exact and rounded once, with the special cases of each form (02 R48 to R50; 09 R233 to R239). The values of 2^a, log2, sine, cosine and tanh are the model's own computation (log 20). COMPLETION: each of these answers a next state wherever it issues: FADD, FSUB, FMUL, FMAC, FMIN, FMAX, FABS, FNEG, FCMP, FCLASS, FRND, FRCP, FRSQ, FSQRT, FDIV, FEX2, FLG2, FSIN, FCOS, FTANH, FDOT2, FDOT4. -/
def Obligations.FloatSingleResults : Prop := LaneStatement float32Form

/-- FP64 arithmetic (09 R240). COMPLETION: each of these answers a next state wherever it issues: DADD, DSUB, DMUL, DMAC, DMIN, DMAX, DABS, DNEG, DCMP, DCLASS, DRND, DRCP, DRSQ, DSQRT, DDIV. -/
def Obligations.FloatDoubleResults : Prop := LaneStatement float64Form

/-- Packed 16-bit arithmetic (09 R241). HEX2's value of 2^a is the model's own computation (log 20). COMPLETION: each of these answers a next state wherever it issues: HADD2, HSUB2, HMUL2, HMAC2, HMIN2, HMAX2, HABS2, HNEG2, HCMP2, HCLASS2, HEX2, HRCP2. -/
def Obligations.PackedHalfResults : Prop := LaneStatement halfForm

/-- Conversions, packing, ternary groups, and the encoding of self-described blocks (09 R243 to R250). A saturating conversion of a NaN into a format that has none, and of an infinity of E5M2 into E5M2, are the model's choices (log 102). COMPLETION: each of these answers a next state wherever it issues: CVT, CVTSAT, PACK, SDENC, SDHDR, T5PK, T5UNPK. -/
def Obligations.ConversionResults : Prop := LaneStatement convertForm

/-- Exchange, votes, reductions and derivatives among the lanes of a group (09 R252 to R256). COMPLETION: each of these answers a next state wherever it issues: LXCH, VOTE, BALLOT, MATCH, REDUX, SCAN, DDX, DDY, QSWZ. -/
def Obligations.ExchangeResults : Prop := LaneStatement exchangeForm

/-- UNPACK and SDDEC fill runs of registers in each executing lane (09 R245, R249). That UNPACK raises invalid for a signalling NaN, and what an ill-formed T5 byte of a block with no numbers raises, are the model's choices (logs 24, 80). COMPLETION: each of these answers a next state wherever it issues: UNPACK, SDDEC. -/
def Obligations.RegisterRunResults : Prop :=
  ∀ i k o F s g m, i.mnOp? = some (k, o) → runForm i = some F → Issues s k o F.own g m →
    ∃ t, exec i s = .next { s with m := t } ∧ Advances g m t (fun _ => g.advance) ∧ RunResults g m t (F.res g)

/-- The scalar pipe: one result for the warp, at the class latency (07 R185; 08 R222, R227, R228). COMPLETION: each of these answers a next state wherever it issues: SMOV, SIADD, SIMUL, SAND, SOR, SXOR, SSHL, SSHR, V2S, SEGRD, FLAGRD. -/
def Obligations.ScalarPipeResults : Prop :=
  ∀ i k o F s g m, i.mnOp? = some (k, o) → scalarForm i = some F → Issues s k o noCauses g m →
    ∃ t, exec i s = .next { s with m := t } ∧ Advances g m t (fun _ => g.advance) ∧ ScalarResult g m t F.wide (F.val g)

/-- SCMP, V2P, S2V and SRD: a compare for the whole warp, predicates by mask, a scalar into chosen lanes, and the special registers of R224 (08 R221 to R225). COMPLETION: each of these answers a next state wherever it issues: SCMP, V2P, S2V, SRD. -/
def Obligations.LaneSelection : Prop :=
  (∀ o s g m, Issues s .scmp o noCauses g m →
    ∃ t, exec (.scmp o) s = .next { s with m := t } ∧ Advances g m t (fun _ => g.advance) ∧
      CompareResult g m t (holdsCc (o.mdBits 4 2) (extW (o.mdBit 0) (g.a32 g.lead)) (extW (o.mdBit 0) (g.b32 g.lead)))) ∧
  (∀ o s g m, Issues s .v2p o noCauses g m → ∃ t, exec (.v2p o) s = .next { s with m := t } ∧ Advances g m t (fun _ => g.advance) ∧ MaskResult g m t) ∧
  (∀ o s g m, Issues s .s2v o noCauses g m →
    ∃ t, exec (.s2v o) s = .next { s with m := t } ∧ Advances g m t (fun _ => g.advance) ∧ Results g.chosen m t false (fun x => low (g.a32 x))) ∧
  ∀ o s g m, Issues s .srd o noCauses g m → ∃ t, exec (.srd o) s = .next { s with m := t } ∧ Advances g m t (fun _ => g.advance) ∧
    let ix := o.imm.toNat % 256
    let cp := o.imm.toNat / 256 % 8
    (∀ n, o.dst = .s n → ∀ v, specialOf g g.lead ix cp = some v → ScalarResult g m t (decide (ix = 7)) v) ∧
    ((∀ n, o.dst ≠ .s n) → ∀ f : Member → DWord, (∀ x, specialOf g x ix cp = some (f x)) → Results g m t (decide (ix = 7)) (fun x => (f x, 0)))

/-- R202: every executing member of a transfer goes to its own target and every other to the next instruction; CALL and CALLX give each executing lane its return address in the pair; nothing else changes. COMPLETION: each of these answers a next state wherever it issues: NOP, BRA, BRX, CALL, CALLX, RET. -/
def Obligations.ControlTransfers : Prop :=
  ∀ i k o F s g m, i.mnOp? = some (k, o) → transferForm i = some F → Issues s k o noCauses g m →
    ∃ t, exec i s = .next { s with m := t } ∧ Advances g m t (fun x th => if x ∈ g.execs then { g.advance th with pc := F.target g x } else g.advance th) ∧
      (F.link = true → Results g m t true (fun _ => (g.pc + 16, 0))) ∧
      (F.link = false → WbsKept g m t ∧ ∀ w ∈ (t.slc g.core g.slice).wbs, w ∈ (m.slc g.core g.slice).wbs ∨ w.what = .flag g.o.ctl.setf.toNat)

/-- ENROL, PARK and STRIKE: the mask's sets of the members' own warp change by the executing lanes, parked lanes wait at the instruction, and where every enrolled lane has arrived the mask empties and its parked threads go on (07 R186; 08 R211). COMPLETION: each of these answers a next state wherever it issues: ENROL, PARK, STRIKE. -/
def Obligations.RejoinMasks : Prop :=
  EffectStatement maskForm ∧
  ∀ o, Completes maskForm (.enrol o) ∧ Completes maskForm (.park o) ∧ Completes maskForm (.strike o)

/-- EXIT, DEMOTE, KILL, BEAT and YIELD: the executing members' threads end, which leave the rejoin masks and hold no register live, or become helpers; a kill ends every thread of the block at once, but those that a slice whose turn in this core cycle is still to come may issue, which end with the cycle; no other block and no warp of one changes, but for a warp that a freed work-graph slot lets go on, and memory only as a block exits; a beat starts the block's watchdog anew; a yield blocks each executing member whose block has $PREEMPT set (08 R206 to R210). COMPLETION: each of these answers a next state wherever it issues: EXIT, DEMOTE, KILL, BEAT, YIELD. -/
def Obligations.ThreadsEnd : Prop :=
  EffectStatement endForm ∧ (∀ w : Warp, LanesEnd w) ∧ (∀ o, Completes endForm (.exit o) ∧ Completes endForm (.demote o) ∧ Completes endForm (.kill o) ∧ Completes endForm (.beat o)) ∧
  ∀ o s g m, Issues s .yield o noCauses g m → ∃ t, exec (.yield o) s = .next { s with m := t } ∧
    IssuedTo g m t (fun x th => if x ∈ g.execs ∧ ((g.blockOf x).map (·.preempt)).getD false = true then { g.advance th with st := .blocked .yieldPoint, yieldDue := false } else g.advance th)

/-- SWR, SEGLD, FLAGCLR and CCTL in a group that may issue them: $PREEMPT or $FAULTMASK, a segment, exception bits, or lines of the core's own caches (08 R226 to R229). $PREEMPT at 0 lets the block's threads at yield points go on and moves no other thread; FLAGCLR leaves a bit that a write-back of the same slice cycle has raised; CCTL signals its flag and frees its last reads; nothing else changes. COMPLETION: each of these answers a next state wherever it issues: SWR, SEGLD, FLAGCLR, CCTL_IINV, CCTL_IINVPG, CCTL_TLBPG, CCTL_TLBALL. -/
def Obligations.SystemState : Prop :=
  EffectStatement systemForm ∧
  ∀ o, Completes systemForm (.swr o) ∧ Completes systemForm (.segld o) ∧ Completes systemForm (.flagclr o) ∧ Completes systemForm (.cctlIinv o) ∧ Completes systemForm (.cctlIinvpg o) ∧ Completes systemForm (.cctlTlbpg o) ∧
    Completes systemForm (.cctlTlball o)

/-- Loads, stores, gathers, scatters, atomics, TLRMAKE and TTQ at issue: each lane's access is made, in ascending lanes, at the address that its operands give in its segment, and gives what one lane's access gives; the members go on to the next instruction, and values, exception bits and the flag follow when the access is delivered; a lane that meets a cause waits for its page, or traps (10 R257 to R262, R270, R276 to R280; 14 R379; 11 R305; 12 R318). That an access is made in the step of its issue, that its members go on meanwhile, and what $FAULTMASK then holds are the model's choices (logs 14, 28, 29). COMPLETION: each of these answers a next state wherever it issues: LD, ST, LDS, STS, LDL, STL, LDC, GATH, SCAT, ATOM, RED, CAS128, TLRMAKE, TTQ. -/
def Obligations.MemoryIssue : Prop :=
  EffectStatement memoryForm ∧
  ∀ o, Completes memoryForm (.ld o) ∧ Completes memoryForm (.st o) ∧ Completes memoryForm (.lds o) ∧ Completes memoryForm (.sts o) ∧ Completes memoryForm (.ldc o) ∧ Completes memoryForm (.ldl o) ∧ Completes memoryForm (.stl o) ∧
    Completes memoryForm (.gath o) ∧ Completes memoryForm (.scat o) ∧ Completes memoryForm (.atom o) ∧ Completes memoryForm (.red o) ∧ Completes memoryForm (.cas128 o) ∧ Completes memoryForm (.tlrmake o) ∧
    Completes memoryForm (.ttq o)

/-- PREF, FENCE, CPSEAL, CPWAIT, BCINIT and BCWAIT (10 R281; 11 R288, R291 to R296; 14 R374). That FENCE waits for what has been delivered, since each access is made at its issue, and that BCINIT's flag is signalled at issue, are the model's choices (logs 14, 31). COMPLETION: each of these answers a next state wherever it issues: PREF, FENCE, CPSEAL, CPWAIT, BCINIT_INIT, BCINIT_ARM, BCWAIT. -/
def Obligations.BarrierIssue : Prop :=
  EffectStatement barrierForm ∧
  ∀ o, Completes barrierForm (.pref o) ∧ Completes barrierForm (.fence o) ∧ Completes barrierForm (.cpseal o) ∧ Completes barrierForm (.cpwait o) ∧ Completes barrierForm (.bcinitInit o) ∧ Completes barrierForm (.bcinitArm o) ∧
    Completes barrierForm (.bcwait o)

/-- BAR, EVSET, EVWAIT and EVTEST at issue (14 R384, R386; 04 R99, R100). What one arrival does is a clause of its own. That the handler warp reaches no barrier and no context, and what a helper may not do, are the model's choices (logs 19, 21). COMPLETION: each of these answers a next state wherever it issues: BAR_SYNC, BAR_ARRIVE, EVSET, EVSET_CLR, EVWAIT, EVTEST. -/
def Obligations.SynchronisationIssue : Prop :=
  EffectStatement syncForm ∧ Arrives ∧
  ∀ o, Completes syncForm (.barSync o) ∧ Completes syncForm (.barArrive o) ∧ Completes syncForm (.evset o) ∧ Completes syncForm (.evsetClr o) ∧ Completes syncForm (.evwait o) ∧ Completes syncForm (.evtest o)

/-- TILECFG, TILERST, TILERD and TILEWR: one tile of a block changes, or words of it are read or written; nothing else (11 R297 to R300). That TILERD acts at its issue, that a helper's TILEWR stores nothing, and that TILEWR's flag is signalled at issue, are the model's choices (logs 21, 31, 32). COMPLETION: each of these answers a next state wherever it issues: TILECFG, TILERST, TILERD, TILEWR. -/
def Obligations.TileIssue : Prop :=
  EffectStatement tileForm ∧
  ∀ o, Completes tileForm (.tilecfg o) ∧ Completes tileForm (.tilerst o) ∧ Completes tileForm (.tilerd o) ∧ Completes tileForm (.tilewr o)

/-- Accumulator handles and products at issue: a request joins the arbiter's, an array is freed, read, written, zeroed or drained, and a product joins the engines (12 R307 to R317, R325 to R327). What a drain does is a clause of its own. That ACRD, ACWR, ACZERO and ACDRAIN act at their issue, with their flag, and that a waiting ACALLOC has its handle already, are the model's choices (logs 31, 32, 33). COMPLETION: each of these answers a next state wherever it issues: ACALLOC, ACFREE, ACRD, ACWR, ACZERO, ACDRAIN, MMA, MMAS. -/
def Obligations.AccumulatorIssue : Prop :=
  EffectStatement accForm ∧ Drains ∧
  ∀ o, Completes accForm (.acalloc o) ∧ Completes accForm (.acfree o) ∧ Completes accForm (.acrd o) ∧ Completes accForm (.acwr o) ∧ Completes accForm (.aczero o) ∧ Completes accForm (.acdrain o) ∧ Completes accForm (.mma o) ∧
    Completes accForm (.mmas o)

/-- CPY, CPYM, TTQ.claim and the work-graph instructions read their records and then take effect: copies, a claimed task, reservations, committed records, and resumed lanes (11 R285 to R289, R302; 12 R320; 15 R393 to R403). That RESUME's reads are made at its issue and its members go on once they are complete, that CPY's and CPYM's flag is signalled at issue, that WGRES with k = 0 completes at once, and what a helper may not do, are the model's choices (logs 21, 23, 31, 34). COMPLETION: each of these answers a next state wherever it issues: CPY, CPYM, TTQ_CLAIM, WGRES, WGCANCEL, WGCOMMIT, RESUME. -/
def Obligations.RecordIssue : Prop :=
  ReadStatement recordForm ∧ (∀ w, LanesTake w) ∧
  ∀ o, CompletesReading recordForm (.cpy o) ∧ CompletesReading recordForm (.cpym o) ∧ CompletesReading recordForm (.ttqClaim o) ∧ CompletesReading recordForm (.wgres o) ∧ CompletesReading recordForm (.wgcommit o) ∧
    CompletesReading recordForm (.wgcancel o) ∧ CompletesReading recordForm (.resume o)

/-- A macro-instruction at issue: one operation with each lane's state block goes to the sequencer that has fewest, and its members wait for it (13 R329 to R332). That the sequencer is the unfenced one with fewest, the lower on a tie, is the model's choice (log 47). COMPLETION: each of these answers a next state wherever it issues: RAST, ATTR, TRAV, FILT, OBLEND, DICE, SAMPS, BMATCH. -/
def Obligations.MacroIssue : Prop :=
  ReadStatement macroForm ∧
  ∀ o, CompletesReading macroForm (.rast o) ∧ CompletesReading macroForm (.attr o) ∧ CompletesReading macroForm (.trav o) ∧ CompletesReading macroForm (.filt o) ∧ CompletesReading macroForm (.oblend o) ∧
    CompletesReading macroForm (.dice o) ∧ CompletesReading macroForm (.samps o) ∧ CompletesReading macroForm (.bmatch o)

/-- CONT, XRD, XWR, the three ERETs and TRAP (15 R391, R392; 16 R405 to R413). What ERET.kill and ERET.fdom do, and what containment does, are clauses of their own. The layout of the log entry of a service that ends, which warps a TRAP of several names, and that XWR's writes take effect at the return, are the model's choices (logs 7, 53, 55). COMPLETION: each of these answers a next state wherever it issues: CONT, XRD, XWR, ERET_RESUME, ERET_KILL, ERET_FDOM, TRAP. -/
def Obligations.HandlerInstructions : Prop :=
  EffectStatement handlerForm ∧ EretKills ∧ EretContains ∧ DomainContained ∧
  ∀ o, Completes handlerForm (.cont o) ∧ Completes handlerForm (.xrd o) ∧ Completes handlerForm (.xwr o) ∧ Completes handlerForm (.eretResume o) ∧ Completes handlerForm (.eretKill o) ∧ Completes handlerForm (.eretFdom o) ∧
    Completes handlerForm (.trap o)

/-- A microcode-extensible slot: where the image that runs on the core does not define it, or it stands in a chain, the group takes the trap ILLEGAL_OPCODE, and where its price, or its step price, is above DRAWCAP the trap TOKEN_OVERPRICE; otherwise it draws the price its image states, its members advance, and the image's effect takes place, which writes V registers and exception bits of its warps' executing lanes and bytes of memory, and nothing else (06 R150, R151, R154; 03 R85). What an image states, and where, is free, and that the rest of its issue is NOP's is the model's choice (logs 79, 95, 104). -/
def Obligations.ExtensibleSlots : Prop :=
  ∀ n o s, let g := slotGroup s n o
    let image := s.fw.imageOn s.m s.m.sel.core
    g.price = image.price n.toNat ∧
    (image.slots.getLsbD n.toNat = false ∨ (∃ c, g.chain? = some c) → (∀ x ∈ g.members, x.slot ≠ handlerSlot) →
      ∃ t, exec (.extensibleOpcode n o) s = .next { s with m := t } ∧ TrapTaken g.core 0x01 0 g.pc (maskOf (g.execs.map (·.lane))) g.slots g.broken t) ∧
    (image.slots.getLsbD n.toNat = true → g.chain? = none → (g.drawcap < g.price ∨ g.drawcap < image.step n.toNat) → (∀ x ∈ g.members, x.slot ≠ handlerSlot) →
      ∃ t, exec (.extensibleOpcode n o) s = .next { s with m := t } ∧ TrapTaken g.core 0x2C 0 g.pc (maskOf (g.execs.map (·.lane))) g.slots g.m t) ∧
    (image.slots.getLsbD n.toNat = true → g.chain? = none → g.price ≤ g.drawcap → image.step n.toNat ≤ g.drawcap → g.placed →
      ∃ v t, exec (.extensibleOpcode n o) s = .next { s with m := t } ∧ Issued g v t ∧ SlotEffect g n.toNat g.m v)

/-- Links, peer copies and host accesses: a link's status words, and bytes that arrive in a partition's memory (03 R68, R86; 11 R284; 14 R362). EACH TAKES PLACE, answering a next state, wherever it is due: LINK_TRAINED, LINK_DOWN, CRC_ERROR_REPLAY, PEER_COPY_WRITE, HOST_ACCESS. -/
def Obligations.LinkEvents : Prop :=
  EventStatement linkForm ∧
  (∀ host peer lanes, Happens linkForm (.linkTrained host peer lanes)) ∧ Happens linkForm .linkDown ∧ Happens linkForm .crcErrorReplay ∧ (∀ va data, Happens linkForm (.peerCopyWrite va data)) ∧
    (∀ va size value, Happens linkForm (.hostAccess va size value))

/-- Votes, operating points, droop events and the control-interval boundary (05 R118, R125 to R138). That a vote above 5 counts as 5, that a boundary without readings keeps the temperatures, that 110 °C stops issue, and what a reserve left at a boundary loses, are the model's choices (logs 64, 66, 109). EACH TAKES PLACE, answering a next state, wherever it is due: VOTES_WRITE, REGULATOR_SETTLED, FREQUENCY_FALL, DROOP_EVENT, CONTROL_INTERVAL_BOUNDARY. -/
def Obligations.PowerEvents : Prop :=
  EventStatement powerForm ∧
  (∀ v, Happens powerForm (.votesWrite v)) ∧ Happens powerForm .regulatorSettled ∧ Happens powerForm .frequencyFall ∧ Happens powerForm .droopEvent ∧ (∀ temps droops, Happens powerForm (.controlIntervalBoundary temps droops))

/-- Reset, the thermal trip and life-cycle transitions (03 R65, R66, R85; 05 R139). What the fuses and the accepted image keep over a reset, and the layout of a log entry, are the model's choices (logs 22, 7). EACH TAKES PLACE, answering a next state, wherever it is due: RESET, THERMAL_TRIP, LIFECYCLE_TRANSITION. -/
def Obligations.ResetEvents : Prop :=
  EventStatement resetForm ∧
  Happens resetForm .reset ∧ Happens resetForm .thermalTrip ∧ (∀ b k r, Happens resetForm (.lifecycleTransition b k r))

/-- Revolutions, passes, queue refills and reservation marks (04 R104; 07 R190 to R195). What becomes of a set-aside whose candidate changes is the model's choice (log 87). EACH TAKES PLACE, answering a next state, wherever it is due: REVOLUTION_START, RING_PASS, QUEUE_REFILL, RESERVATION_MARK. -/
def Obligations.RingEvents : Prop :=
  EventStatement ringForm ∧
  Happens ringForm .revolutionStart ∧ Happens ringForm .ringPass ∧ (∀ q, Happens ringForm (.queueRefill q)) ∧ (∀ pc, Happens ringForm (.reservationMark pc))

/-- Fault records, their resolution and copy to the host, replays, and the completion of accesses (03 R82; 10 R270 to R273). EACH TAKES PLACE, answering a next state, wherever it is due: FAULT_RECORD_APPEND, FAULT_RESOLVE, FAULT_RECORD_COPY, FAULT_REPLAY, MEMORY_ACCESS_COMPLETE. -/
def Obligations.FaultEvents : Prop :=
  EventStatement faultForm ∧ ResultsArrive ∧ TakesArrive ∧
  Happens faultForm .faultRecordAppend ∧ Happens faultForm .faultResolve ∧ Happens faultForm .faultRecordCopy ∧ Happens faultForm .faultReplay ∧ Happens faultForm .memoryAccessComplete

/-- Microcode images, sequencer and engine checks, wipes, page moves and plug-ins (03 R64, R66, R67, R83 to R85; 10 R265; 12 R328). The layout of log entries, which checks an image meets and what its signature covers, what an engine does before a test, and the frames that a plug-in's access is admitted to, are the model's choices (logs 7, 78, 83, 85, 95). EACH TAKES PLACE, answering a next state, wherever it is due: MICROCODE_LOAD, MICROCODE_APPLY_LIVE, SEQUENCER_CHECK_FAIL, ENGINE_SELF_TEST, WIPE_COMPLETE, PAGE_MOVE, PLUGIN_FAULT, PLUGIN_TIMEOUT. -/
def Obligations.FirmwareEvents : Prop :=
  EventStatement firmwareForm ∧
  (∀ i, Happens firmwareForm (.microcodeLoad i)) ∧ Happens firmwareForm .microcodeApplyLive ∧ Happens firmwareForm .sequencerCheckFail ∧ (∀ f, Happens firmwareForm (.engineSelfTest f)) ∧ (∀ r, Happens firmwareForm (.wipeComplete r)) ∧
    (∀ va frame, Happens firmwareForm (.pageMove va frame)) ∧ Happens firmwareForm .pluginFault ∧ Happens firmwareForm .pluginTimeout

/-- The commands of the management window: discarded while BUSY, the lowest result of the causes met, and each command's effect where none is met (03 R68 to R71, R77, R81). The results of values that no result names, how long a command keeps BUSY, the corners of commands, and where a new partition's pages lie, are the model's choices (logs 74, 75, 92, 94). EACH TAKES PLACE, answering a next state, wherever it is due: CREATE, RESIZE, RESIZE_RESUME, DESTROY, BINDVF, UNBINDVF, DROP_CLEAR, FUNCMODE_WRITE. -/
def Obligations.WindowCommands : Prop :=
  EventStatement windowForm ∧
  (∀ w, Happens windowForm (.create w)) ∧ (∀ w, Happens windowForm (.resize w)) ∧ (∀ w, Happens windowForm (.resizeResume w)) ∧ (∀ w, Happens windowForm (.destroy w)) ∧ (∀ w, Happens windowForm (.bindvf w)) ∧
    (∀ w, Happens windowForm (.unbindvf w)) ∧ (∀ w, Happens windowForm (.dropClear w)) ∧ (∀ w, Happens windowForm (.funcmodeWrite w))

/-- Register writes, doorbells, flushes, deferred entries, time slices, departing cores and fault-domain commands (03 R68, R72 to R77; 16 R429, R430). Ending a bundle and letting a contained domain go are clauses of their own. The layout of log entries, the banks of the window's registers, mappings that firmware makes later, rings that cannot be read, and firmware's own bundles, are the model's choices (logs 7, 73, 76, 77, 100). EACH TAKES PLACE, answering a next state, wherever it is due: REGISTER_WRITE, DOORBELL, RCB_FLUSH, DEFERRED_ENTRY_MOVE, TIME_SLICE_END, RESIZE_CORE_DEPART, FDCMD_END, FDCMD_RELEASE. -/
def Obligations.FrontEvents : Prop :=
  EventStatement frontForm ∧ UnitsEnd ∧ DomainThaws ∧
  (∀ target w, Happens frontForm (.registerWrite target w)) ∧ (∀ w, Happens frontForm (.doorbell w)) ∧ (∀ w, Happens frontForm (.rcbFlush w)) ∧ Happens frontForm .deferredEntryMove ∧ Happens frontForm .timeSliceEnd ∧
    Happens frontForm .resizeCoreDepart ∧ Happens frontForm .fdcmdEnd ∧ Happens frontForm .fdcmdRelease

/-- Display heads: at a NOTIFY firmware reads and checks a head's words and takes a new present (the words stand until the next NOTIFY); a frame is read and encoded, and its unit enters the ring (17 R445 to R448). When a head is read, that LATE counts a unit once, and the ERR values 2 and 3 are the model's choices (logs 72, 101). EACH TAKES PLACE, answering a next state, wherever it is due: HEAD_REFRESH, TEMPORAL_UNIT_WRITE. -/
def Obligations.DisplayEvents : Prop :=
  EventStatement displayForm ∧
  (∀ (e : Fw) (m : Mach) tag b, e.binds.get? tag = some b → HeadsRead e b.part tag m (m.readHeads e tag)) ∧
  Happens displayForm .headRefresh ∧ (∀ len, Happens displayForm (.temporalUnitWrite len))

/-- The life of a bundle: start evaluation, admission, placement and retirement (01 R23 to R29; 04 R90 to R97; 05 R113 to R119). Retirement and placement are clauses of their own. What is refused and what leaves State, what a record that cannot be read counts as, when records are read, what a bundle needs to be admitted, and when DEFER rises, are the model's choices (logs 63, 70, 93, 96, 98). EACH TAKES PLACE, answering a next state, wherever it is due: BUNDLE_START_EVALUATION, BUNDLE_ADMIT, BUNDLE_RETIRE, DISPATCHER_STEP. -/
def Obligations.BundleEvents : Prop :=
  EventStatement launchForm ∧ BundleRetires ∧ Dispatches ∧
  Happens launchForm .bundleStartEvaluation ∧ Happens launchForm .bundleAdmit ∧ Happens launchForm .bundleRetire ∧ Happens launchForm .dispatcherStep

/-- Saves, restores, the deadlock rule and the watchdog (05 R120, R123; 16 R414 to R427). Which flags a save disarms, the watchdog's trap with MEMBERS 0, and what becomes of spilled tasks, are the model's choices (logs 31, 53, 97). EACH TAKES PLACE, answering a next state, wherever it is due: COOPERATIVE_SAVE, FORCED_SAVE, RESTORE, ACC_DEADLOCK_BREAK, WATCHDOG_EXPIRY. -/
def Obligations.SaveEvents : Prop :=
  EventStatement saveForm ∧
  Happens saveForm .cooperativeSave ∧ Happens saveForm .forcedSave ∧ Happens saveForm .restore ∧ Happens saveForm .accDeadlockBreak ∧ Happens saveForm .watchdogExpiry

/-- The handler warp's service begins and runs out of time (16 R404, R406, R407). A service that is given up is a clause of its own. The layout of its log entry, when a service starts, that one past its limit is contained, and its place in the cycle, are the model's choices (logs 7, 53, 55, 86). EACH TAKES PLACE, answering a next state, wherever it is due: HANDLER_SERVICE_START, HANDLER_SERVICE_TIMEOUT. -/
def Obligations.ServiceEvents : Prop :=
  EventStatement serviceForm ∧ ServiceGivenUp ∧
  Happens serviceForm .handlerServiceStart ∧ Happens serviceForm .handlerServiceTimeout

/-- Copies at work: granules, completions, requests, receipts, tile fills and readers (11 R282 to R304). A copy's wait, its end and its completion are clauses of their own. Copies into one tile, and which block a multicast reaches, are the model's choices (logs 37, 38). EACH TAKES PLACE, answering a next state, wherever it is due: COPY_GRANULE_DELIVER, COPY_COMPLETE, COPY_REQUEST_ENTER, MULTICAST_RECEIPT, TILE_FILL_COMPLETE, TILE_READER_DONE. -/
def Obligations.CopyEvents : Prop :=
  EventStatement copyForm ∧ CopyWaits ∧ CopyEnds ∧ CopyLeaves ∧
  Happens copyForm .copyGranuleDeliver ∧ Happens copyForm .copyComplete ∧ Happens copyForm .copyRequestEnter ∧ Happens copyForm .multicastReceipt ∧ Happens copyForm .tileFillComplete ∧ Happens copyForm .tileReaderDone

/-- Matrix work: admission, dispatch, engine steps and retirement (12 R317, R321 to R324). Retirement, discard, dispatch and a product's stop are clauses of their own. That a step takes effect in one piece, what a DRAIN or ZERO does in a step, and that an unspent reserve is lost with its interval for running work too, are the model's choices (logs 43, 44, 109). EACH TAKES PLACE, answering a next state, wherever it is due: MMA_ADMISSION, TILE_TASK_DISPATCH, ENGINE_STEP, TILE_TASK_RETIRE. -/
def Obligations.MatrixEvents : Prop :=
  EventStatement workForm ∧ TaskRetires ∧ TaskDiscards ∧ TaskBegins ∧ ProductStops ∧
  Happens workForm .mmaAdmission ∧ Happens workForm .tileTaskDispatch ∧ Happens workForm .engineStep ∧ Happens workForm .tileTaskRetire

/-- Macro-instructions and Darning passes at work (13 R332 to R338; 17 R438). A macro-instruction's end is a clause of its own. That lanes run one after another, and what a step of FILT and OBLEND is, are the model's choices (logs 47, 51). EACH TAKES PLACE, answering a next state, wherever it is due: MACRO_STEP, MACRO_RELEASE, DARNING_PASS. -/
def Obligations.EngineEvents : Prop :=
  EventStatement engineForm ∧ MacroEnds ∧
  Happens engineForm .macroStep ∧ Happens engineForm .macroRelease ∧ Happens engineForm .darningPass

/-- WAITERS ARE RELEASED: a barrier whose phase completes inverts its phase, has no arrivals left, and lets its waiting threads go on, and no others; an update of a byte-counting barrier moves PENDING modulo 2^32, ends a phase exactly when PENDING comes to 0 from elsewhere; whatever writes a block's scratchpad lets the threads go on whose object then shows their phase completed; set event bits let the waiting threads of the context go on (14 R384, R386; 11 R295, R296; 04 R100). -/
def Obligations.WaitersReleased : Prop :=
  (∀ (m : Mach) b n k, m.blocks.get? b = some k →
    (∃ y, (m.completeBar b n).blocks.get? b = some y ∧ y = { k with bars := y.bars } ∧
      ∀ j, y.bars.get j Bar.reset = if j = n then { k.bars.get n Bar.reset with arrived := 0, fixed := false, phase := !(k.bars.get n Bar.reset).phase } else k.bars.get j Bar.reset) ∧
    ∀ c l lane, l < 128 → lane < 32 → ((m.completeBar b n).warp c l).thread lane =
      if l ≠ handlerSlot ∧ (m.warp c l).blk = b ∧ m.warps.has (wk c l) = true
        then released (fun st => match st with | .blocked (.bar j _) => j == n | _ => false) (m.slc c (m.warp c l).slice).cyc ((m.warp c l).thread lane) else (m.warp c l).thread lane) ∧
  (∀ (m : Mach) b off d k, m.blocks.get? b = some k →
    let old := m.bcObj b off
    let new := (m.bcAdd b off d).bcObj b off
    (new.2 : Int) = ((old.2 : Int) + d) % 2 ^ 32 ∧ new.1 = (if old.2 ≠ 0 ∧ new.2 = 0 then (old.1 + 1) % 2 ^ 32 else old.1) ∧
    (∃ y, (m.bcAdd b off d).blocks.get? b = some y ∧ y = { k with scratch := y.scratch } ∧ ∀ a, (a < off ∨ off + 8 ≤ a) → scrByte y a = scrByte k a) ∧
    m.bcAdd b off d = m.scrPut b off 8 (new.1 * 2 ^ 32 + new.2)) ∧
  (∀ (m : Mach) b off n v, ∀ c l lane, l < 128 → lane < 32 → (∀ a x, ((m.warp c l).thread lane).st = .blocked (.bcwait a x) → x < 2 ^ 32) → ((m.scrPut b off n v).warp c l).thread lane =
      if l ≠ handlerSlot ∧ (m.warp c l).blk = b ∧ m.warps.has (wk c l) = true
        then released (fun st => match st with
            | .blocked (.bcwait a x) => decide (1 ≤ ((((m.scrPut b off n v).bcObj b a).1 : Int) - x) % 2 ^ 32 ∧ ((((m.scrPut b off n v).bcObj b a).1 : Int) - x) % 2 ^ 32 < 2 ^ 31)
            | _ => false)
          (m.slc c (m.warp c l).slice).cyc ((m.warp c l).thread lane) else (m.warp c l).thread lane) ∧
  ∀ (m : Mach) tag mask, (∀ g, ((Mach.setEvents m tag mask).tenant g).ev = if g = tag then (m.tenant g).ev ||| mask else (m.tenant g).ev) ∧
    ∀ c l lane, l < 128 → lane < 32 → ((Mach.setEvents m tag mask).warp c l).thread lane =
      if l ≠ handlerSlot ∧ ((m.blocks.get? (m.warp c l).blk).map m.tagOf) = some tag ∧ m.warps.has (wk c l) = true
        then released (fun st => match st with | .blocked (.evwait n) => mask.getLsbD n | _ => false) (m.slc c (m.warp c l).slice).cyc ((m.warp c l).thread lane) else (m.warp c l).thread lane

/-- R117: the window is the first PLACEBOUND + 1 cores of the ring from the cursor that the block fits; the block goes to the core of the window with the lowest score, the nearest to the cursor where scores tie; and the cursor moves to the core after the window's first, in the partition's ring. -/
def Obligations.CoreChoice : Prop :=
  (∀ (e : Fw) (m : Mach) bid (x : Bundle) lid l nums units trial,
    let fit := (coreRing e m x.part).filter (fun c => (m.fits e bid x lid l nums units trial c).isSome)
    let window := fit.take (x.eff 2 + 1)
    (fit = [] → m.chooseCore e bid x lid l nums units trial = none) ∧
    (fit ≠ [] → ∃ c seats first, m.chooseCore e bid x lid l nums units trial = some (c, seats, first) ∧ m.fits e bid x lid l nums units trial c = some seats ∧ window.head? = some first ∧
      ∃ before after, window = before ++ c :: after ∧ (∀ d ∈ before, scoreOf m c < scoreOf m d) ∧ ∀ d ∈ after, scoreOf m c ≤ scoreOf m d)) ∧
  ∀ (e : Fw) (m : Mach) part first,
    let cs := coresOf (e.part part).cores
    let next := ((m.moveCursor e part first).part part).cursor
    ((∃ d ∈ cs, first < d) → next ∈ cs ∧ first < next ∧ ∀ d ∈ cs, first < d → next ≤ d) ∧ ((∀ d ∈ cs, d ≤ first) → next = cs.headD 0) ∧ ∀ p, p ≠ part → (m.moveCursor e part first).part p = m.part p

/-- RETURN FROM A TRAP (ERET.resume): the service ends, the handler's threads end, and a warp that the trap stopped goes on, but for one of a frozen domain, with its registers and states kept and the resume cycle as its stamp; an instruction that met a per-lane cause is complete where $FAULTMASK is all ones, and is left to be replayed otherwise (16 R411). That a warp of a frozen domain stays stopped is the model's choice (log 54). -/
def Obligations.ServiceEnds : Prop :=
  ∀ (e : Fw) (m : Mach) core (sv : Service) slot, slot < handlerSlot → (m.core core).service = some sv → sv.trap.cause ≠ 0x14 → sv.trap.slots = [slot] → sv.xwr = [] →
    (∀ t ∈ (m.core core).trapq, slot ∉ t.slots) → m.warps.has (wk core slot) = true → (m.warp core slot).stopped = true → (∃ l, (m.warp core slot).threads.has l = true ∧ ((m.warp core slot).thread l).st ≠ .exited) →
    let w := m.warp core slot
    let t := Mach.eretResume e m core
    let cyc := (m.slc core w.slice).cyc
    let woken (th : Thread) : Thread := if th.st = .exited then th else { th with stamp := cyc }
    ((t.core core).service = none ∧ (t.core core).trapq = (m.core core).trapq ∧ t.mem = m.mem ∧ t.blocks = m.blocks) ∧
    (∀ l, ((t.warp core handlerSlot).thread l).st = .exited) ∧
    (w.fault = none → t.warp core slot = { w with stopped := m.frozenAt core slot, threads := (t.warp core slot).threads } ∧ ∀ l, (t.warp core slot).thread l = if w.threads.has l then woken (w.thread l) else w.thread l) ∧
    (∀ f, w.fault = some f → f.handler = true →
      (w.faultmask = 0xFFFFFFFF → (t.warp core slot).fault = none ∧ (t.warp core slot).v = w.v ∧
        ∀ l, l < 32 → laneBit f.members l = true → (w.thread l).pc = f.pc → (w.thread l).st ≠ .exited → ((t.warp core slot).thread l).pc = f.pc + 16 ∧ ((t.warp core slot).thread l).st = .atPc) ∧
      (w.faultmask ≠ 0xFFFFFFFF → (∃ l, l < 32 ∧ laneBit f.members l = true ∧ (w.thread l).pc = f.pc ∧ (w.thread l).st ≠ .exited) →
        ∃ g, (t.warp core slot).fault = some g ∧ g.handler = false ∧ g.pc = f.pc ∧ ∀ l, l < 32 → ((t.warp core slot).thread l).pc = (w.thread l).pc))
end

