-- ==== Sys2Proof/Laws/Tab.lean ====
section
/-! SUPPORT. Tables: what a lookup finds after a store, a removal or a change, and that the operations keep the keys rising. -/

namespace Sys2Proof.Machine

variable {α : Type}

theorem Tab.get?_set_self (t : Tab α) (q : Nat) (x : α) : Tab.get? (t.set q x) q = some x := by
  induction t with
  | nil => simp [Tab.set, Tab.get?]
  | cons c r ih =>
    obtain ⟨k, v⟩ := c
    simp only [Tab.set]
    split
    · simp [Tab.get?]
    · split
      · simp [Tab.get?]
      · rename_i h1 h2; simp [Tab.get?, h2, ih]

theorem Tab.get?_set_ne (t : Tab α) (q p : Nat) (x : α) (h : p ≠ q) : Tab.get? (t.set q x) p = Tab.get? t p := by
  induction t with
  | nil => simp [Tab.set, Tab.get?, h]
  | cons c r ih =>
    obtain ⟨k, v⟩ := c
    simp only [Tab.set]
    split
    · simp [Tab.get?, h]
    · split
      · rename_i h2; subst h2; simp [Tab.get?, h]
      · simp [Tab.get?, ih]

theorem Tab.get?_set (t : Tab α) (q p : Nat) (x : α) : Tab.get? (t.set q x) p = if p = q then some x else Tab.get? t p := by
  by_cases h : p = q
  · subst h; simp [Tab.get?_set_self]
  · simp [Tab.get?_set_ne _ _ _ _ h, h]

theorem Tab.get?_erase (t : Tab α) (q p : Nat) : Tab.get? (t.erase q) p = if p = q then none else Tab.get? t p := by
  unfold Tab.erase
  induction t with
  | nil => simp [Tab.get?]
  | cons c r ih =>
    obtain ⟨k, v⟩ := c
    by_cases hk : k = q
    · subst hk
      rw [List.filter_cons_of_neg (by simp), ih]
      by_cases h : p = k <;> simp [Tab.get?, h]
    · rw [List.filter_cons_of_pos (by simp [hk])]
      simp only [Tab.get?, ih]
      by_cases h : p = k
      · subst h; simp [hk]
      · simp [h]

theorem Tab.get?_modify (t : Tab α) (q p : Nat) (f : α → α) : Tab.get? (t.modify q f) p = if p = q then (Tab.get? t q).map f else Tab.get? t p := by
  unfold Tab.modify
  cases h : Tab.get? t q with
  | none => by_cases e : p = q <;> simp [e, h]
  | some v => simp [Tab.get?_set]

theorem Tab.get?_mapVal (t : Tab α) (f : α → α) (p : Nat) : Tab.get? (t.mapVal f) p = (Tab.get? t p).map f := by
  unfold Tab.mapVal
  induction t with
  | nil => rfl
  | cons c r ih =>
    obtain ⟨k, v⟩ := c
    simp only [List.map_cons, Tab.get?, ih]
    split <;> rfl

@[simp] theorem Tab.get_set_self (t : Tab α) (q : Nat) (x d : α) : (t.set q x).get q d = x := by simp [Tab.get, Tab.get?_set_self]

theorem Tab.get_set (t : Tab α) (q p : Nat) (x d : α) : (t.set q x).get p d = if p = q then x else t.get p d := by
  unfold Tab.get; rw [Tab.get?_set]; split <;> rfl

theorem Tab.get_erase (t : Tab α) (q p : Nat) (d : α) : (t.erase q).get p d = if p = q then d else t.get p d := by
  unfold Tab.get; rw [Tab.get?_erase]; split <;> rfl

theorem Tab.has_iff (t : Tab α) (q : Nat) : t.has q = true ↔ ∃ v, Tab.get? t q = some v := by
  unfold Tab.has; exact Option.isSome_iff_exists

theorem Tab.get?_mem (t : Tab α) (q : Nat) (v : α) (h : Tab.get? t q = some v) : (q, v) ∈ t := by
  induction t with
  | nil => cases h
  | cons c r ih =>
    obtain ⟨k, w⟩ := c
    simp only [Tab.get?] at h
    split at h
    · rename_i e; subst e; cases h; exact List.mem_cons_self ..
    · exact List.mem_cons_of_mem _ (ih h)

theorem Tab.has_of_mem (t : Tab α) (c : Nat × α) (h : c ∈ t) : t.has c.1 = true := by
  unfold Tab.has
  induction t with
  | nil => cases h
  | cons d r ih =>
    obtain ⟨k, w⟩ := d
    simp only [Tab.get?]
    split
    · rfl
    · rename_i e
      rcases List.mem_cons.1 h with h | h
      · subst h; exact absurd rfl e
      · exact ih h

/-! ### Rising keys -/

theorem Tab.sorted_cons (a : Nat) (x : α) (r : Tab α) (h : Tab.sorted ((a, x) :: r) = true) : Tab.sorted r = true ∧ ∀ c ∈ r, a < c.1 := by
  induction r generalizing a x with
  | nil => simp [Tab.sorted]
  | cons d r ih =>
    obtain ⟨b, y⟩ := d
    simp only [Tab.sorted, Bool.and_eq_true, decide_eq_true_eq] at h
    refine ⟨h.2, fun c hc => ?_⟩
    rcases List.mem_cons.1 hc with rfl | hc
    · exact h.1
    · exact Nat.lt_trans h.1 ((ih b y h.2).2 c hc)

theorem Tab.sorted_of_cons (a : Nat) (x : α) (r : Tab α) (h : Tab.sorted r = true) (hr : ∀ c ∈ r, a < c.1) : Tab.sorted ((a, x) :: r) = true := by
  cases r with
  | nil => rfl
  | cons d r => obtain ⟨b, y⟩ := d; simp [Tab.sorted, h, hr (b, y) (List.mem_cons_self ..)]

theorem Tab.mem_set (t : Tab α) (q : Nat) (x : α) (c : Nat × α) (h : c ∈ t.set q x) : c = (q, x) ∨ c ∈ t := by
  induction t with
  | nil => simpa [Tab.set] using h
  | cons d r ih =>
    obtain ⟨k, v⟩ := d
    simp only [Tab.set] at h
    split at h
    · rcases List.mem_cons.1 h with h | h
      · exact .inl h
      · exact .inr h
    · split at h
      · rcases List.mem_cons.1 h with h | h
        · exact .inl h
        · exact .inr (List.mem_cons_of_mem _ h)
      · rcases List.mem_cons.1 h with h | h
        · exact .inr (h ▸ List.mem_cons_self ..)
        · exact (ih h).imp id (List.mem_cons_of_mem _)

theorem Tab.sorted_set (t : Tab α) (q : Nat) (x : α) (h : t.sorted = true) : (t.set q x).sorted = true := by
  induction t with
  | nil => rfl
  | cons d r ih =>
    obtain ⟨k, v⟩ := d
    have hr := Tab.sorted_cons k v r h
    simp only [Tab.set]
    split
    · rename_i hq
      refine Tab.sorted_of_cons q x _ h (fun c hc => ?_)
      rcases List.mem_cons.1 hc with rfl | hc
      · exact hq
      · exact Nat.lt_trans hq (hr.2 c hc)
    · split
      · rename_i _ hq; subst hq; exact Tab.sorted_of_cons q x r hr.1 hr.2
      · rename_i h1 h2
        refine Tab.sorted_of_cons k v _ (ih hr.1) (fun c hc => ?_)
        rcases Tab.mem_set r q x c hc with rfl | hc
        · simp only; omega
        · exact hr.2 c hc

theorem Tab.sorted_filter (t : Tab α) (p : Nat × α → Bool) (h : t.sorted = true) : Tab.sorted (t.filter p) = true := by
  induction t with
  | nil => rfl
  | cons d r ih =>
    obtain ⟨k, v⟩ := d
    have hr := Tab.sorted_cons k v r h
    by_cases hp : p (k, v) = true
    · rw [List.filter_cons_of_pos hp]
      exact Tab.sorted_of_cons k v _ (ih hr.1) (fun c hc => hr.2 c (List.mem_filter.1 hc).1)
    · rw [List.filter_cons_of_neg hp]; exact ih hr.1

theorem Tab.sorted_erase (t : Tab α) (q : Nat) (h : t.sorted = true) : (t.erase q).sorted = true := Tab.sorted_filter t _ h

end Sys2Proof.Machine
end

