-- ==== Sys2Proof/Laws/State.lean ====
section
/-! SUPPORT. What each change of one unit leaves as it was, field by field, and what a lookup of the unit then finds. -/

namespace Sys2Proof.Machine

/-! ### modWarp -/

@[simp] theorem Mach.modWarp_mem (m : Mach) (c l : Nat) (f : Warp → Warp) : (m.modWarp c l f).mem = m.mem := rfl
@[simp] theorem Mach.modWarp_poison (m : Mach) (c l : Nat) (f : Warp → Warp) : (m.modWarp c l f).poison = m.poison := rfl
@[simp] theorem Mach.modWarp_retired (m : Mach) (c l : Nat) (f : Warp → Warp) : (m.modWarp c l f).retired = m.retired := rfl
@[simp] theorem Mach.modWarp_slices (m : Mach) (c l : Nat) (f : Warp → Warp) : (m.modWarp c l f).slices = m.slices := rfl
@[simp] theorem Mach.modWarp_cores (m : Mach) (c l : Nat) (f : Warp → Warp) : (m.modWarp c l f).cores = m.cores := rfl
@[simp] theorem Mach.modWarp_shards (m : Mach) (c l : Nat) (f : Warp → Warp) : (m.modWarp c l f).shards = m.shards := rfl
@[simp] theorem Mach.modWarp_parts (m : Mach) (c l : Nat) (f : Warp → Warp) : (m.modWarp c l f).parts = m.parts := rfl
@[simp] theorem Mach.modWarp_tenants (m : Mach) (c l : Nat) (f : Warp → Warp) : (m.modWarp c l f).tenants = m.tenants := rfl
@[simp] theorem Mach.modWarp_bundles (m : Mach) (c l : Nat) (f : Warp → Warp) : (m.modWarp c l f).bundles = m.bundles := rfl
@[simp] theorem Mach.modWarp_rcbs (m : Mach) (c l : Nat) (f : Warp → Warp) : (m.modWarp c l f).rcbs = m.rcbs := rfl
@[simp] theorem Mach.modWarp_usages (m : Mach) (c l : Nat) (f : Warp → Warp) : (m.modWarp c l f).usages = m.usages := rfl
@[simp] theorem Mach.modWarp_blocks (m : Mach) (c l : Nat) (f : Warp → Warp) : (m.modWarp c l f).blocks = m.blocks := rfl
@[simp] theorem Mach.modWarp_accesses (m : Mach) (c l : Nat) (f : Warp → Warp) : (m.modWarp c l f).accesses = m.accesses := rfl
@[simp] theorem Mach.modWarp_fences (m : Mach) (c l : Nat) (f : Warp → Warp) : (m.modWarp c l f).fences = m.fences := rfl
@[simp] theorem Mach.modWarp_copies (m : Mach) (c l : Nat) (f : Warp → Warp) : (m.modWarp c l f).copies = m.copies := rfl
@[simp] theorem Mach.modWarp_tasks (m : Mach) (c l : Nat) (f : Warp → Warp) : (m.modWarp c l f).tasks = m.tasks := rfl
@[simp] theorem Mach.modWarp_mmas (m : Mach) (c l : Nat) (f : Warp → Warp) : (m.modWarp c l f).mmas = m.mmas := rfl
@[simp] theorem Mach.modWarp_macros (m : Mach) (c l : Nat) (f : Warp → Warp) : (m.modWarp c l f).macros = m.macros := rfl
@[simp] theorem Mach.modWarp_darns (m : Mach) (c l : Nat) (f : Warp → Warp) : (m.modWarp c l f).darns = m.darns := rfl
@[simp] theorem Mach.modWarp_nextId (m : Mach) (c l : Nat) (f : Warp → Warp) : (m.modWarp c l f).nextId = m.nextId := rfl
@[simp] theorem Mach.modWarp_fresh (m : Mach) (c l : Nat) (f : Warp → Warp) : (m.modWarp c l f).fresh = m.fresh := rfl
@[simp] theorem Mach.modWarp_sel (m : Mach) (c l : Nat) (f : Warp → Warp) : (m.modWarp c l f).sel = m.sel := rfl
@[simp] theorem Mach.modWarp_devlog (m : Mach) (c l : Nat) (f : Warp → Warp) : (m.modWarp c l f).devlog = m.devlog := rfl
@[simp] theorem Mach.modWarp_msi (m : Mach) (c l : Nat) (f : Warp → Warp) : (m.modWarp c l f).msi = m.msi := rfl
@[simp] theorem Mach.modWarp_sent (m : Mach) (c l : Nat) (f : Warp → Warp) : (m.modWarp c l f).sent = m.sent := rfl
@[simp] theorem Mach.modWarp_fdq (m : Mach) (c l : Nat) (f : Warp → Warp) : (m.modWarp c l f).fdq = m.fdq := rfl

/-! ### modSlc -/

@[simp] theorem Mach.modSlc_mem (m : Mach) (c l : Nat) (f : Slice → Slice) : (m.modSlc c l f).mem = m.mem := rfl
@[simp] theorem Mach.modSlc_poison (m : Mach) (c l : Nat) (f : Slice → Slice) : (m.modSlc c l f).poison = m.poison := rfl
@[simp] theorem Mach.modSlc_retired (m : Mach) (c l : Nat) (f : Slice → Slice) : (m.modSlc c l f).retired = m.retired := rfl
@[simp] theorem Mach.modSlc_warps (m : Mach) (c l : Nat) (f : Slice → Slice) : (m.modSlc c l f).warps = m.warps := rfl
@[simp] theorem Mach.modSlc_cores (m : Mach) (c l : Nat) (f : Slice → Slice) : (m.modSlc c l f).cores = m.cores := rfl
@[simp] theorem Mach.modSlc_shards (m : Mach) (c l : Nat) (f : Slice → Slice) : (m.modSlc c l f).shards = m.shards := rfl
@[simp] theorem Mach.modSlc_parts (m : Mach) (c l : Nat) (f : Slice → Slice) : (m.modSlc c l f).parts = m.parts := rfl
@[simp] theorem Mach.modSlc_tenants (m : Mach) (c l : Nat) (f : Slice → Slice) : (m.modSlc c l f).tenants = m.tenants := rfl
@[simp] theorem Mach.modSlc_bundles (m : Mach) (c l : Nat) (f : Slice → Slice) : (m.modSlc c l f).bundles = m.bundles := rfl
@[simp] theorem Mach.modSlc_rcbs (m : Mach) (c l : Nat) (f : Slice → Slice) : (m.modSlc c l f).rcbs = m.rcbs := rfl
@[simp] theorem Mach.modSlc_usages (m : Mach) (c l : Nat) (f : Slice → Slice) : (m.modSlc c l f).usages = m.usages := rfl
@[simp] theorem Mach.modSlc_blocks (m : Mach) (c l : Nat) (f : Slice → Slice) : (m.modSlc c l f).blocks = m.blocks := rfl
@[simp] theorem Mach.modSlc_accesses (m : Mach) (c l : Nat) (f : Slice → Slice) : (m.modSlc c l f).accesses = m.accesses := rfl
@[simp] theorem Mach.modSlc_fences (m : Mach) (c l : Nat) (f : Slice → Slice) : (m.modSlc c l f).fences = m.fences := rfl
@[simp] theorem Mach.modSlc_copies (m : Mach) (c l : Nat) (f : Slice → Slice) : (m.modSlc c l f).copies = m.copies := rfl
@[simp] theorem Mach.modSlc_tasks (m : Mach) (c l : Nat) (f : Slice → Slice) : (m.modSlc c l f).tasks = m.tasks := rfl
@[simp] theorem Mach.modSlc_mmas (m : Mach) (c l : Nat) (f : Slice → Slice) : (m.modSlc c l f).mmas = m.mmas := rfl
@[simp] theorem Mach.modSlc_macros (m : Mach) (c l : Nat) (f : Slice → Slice) : (m.modSlc c l f).macros = m.macros := rfl
@[simp] theorem Mach.modSlc_darns (m : Mach) (c l : Nat) (f : Slice → Slice) : (m.modSlc c l f).darns = m.darns := rfl
@[simp] theorem Mach.modSlc_nextId (m : Mach) (c l : Nat) (f : Slice → Slice) : (m.modSlc c l f).nextId = m.nextId := rfl
@[simp] theorem Mach.modSlc_fresh (m : Mach) (c l : Nat) (f : Slice → Slice) : (m.modSlc c l f).fresh = m.fresh := rfl
@[simp] theorem Mach.modSlc_sel (m : Mach) (c l : Nat) (f : Slice → Slice) : (m.modSlc c l f).sel = m.sel := rfl
@[simp] theorem Mach.modSlc_devlog (m : Mach) (c l : Nat) (f : Slice → Slice) : (m.modSlc c l f).devlog = m.devlog := rfl
@[simp] theorem Mach.modSlc_msi (m : Mach) (c l : Nat) (f : Slice → Slice) : (m.modSlc c l f).msi = m.msi := rfl
@[simp] theorem Mach.modSlc_sent (m : Mach) (c l : Nat) (f : Slice → Slice) : (m.modSlc c l f).sent = m.sent := rfl
@[simp] theorem Mach.modSlc_fdq (m : Mach) (c l : Nat) (f : Slice → Slice) : (m.modSlc c l f).fdq = m.fdq := rfl

/-! ### modCore -/

@[simp] theorem Mach.modCore_mem (m : Mach) (c : Nat) (f : Core → Core) : (m.modCore c f).mem = m.mem := rfl
@[simp] theorem Mach.modCore_poison (m : Mach) (c : Nat) (f : Core → Core) : (m.modCore c f).poison = m.poison := rfl
@[simp] theorem Mach.modCore_retired (m : Mach) (c : Nat) (f : Core → Core) : (m.modCore c f).retired = m.retired := rfl
@[simp] theorem Mach.modCore_warps (m : Mach) (c : Nat) (f : Core → Core) : (m.modCore c f).warps = m.warps := rfl
@[simp] theorem Mach.modCore_slices (m : Mach) (c : Nat) (f : Core → Core) : (m.modCore c f).slices = m.slices := rfl
@[simp] theorem Mach.modCore_shards (m : Mach) (c : Nat) (f : Core → Core) : (m.modCore c f).shards = m.shards := rfl
@[simp] theorem Mach.modCore_parts (m : Mach) (c : Nat) (f : Core → Core) : (m.modCore c f).parts = m.parts := rfl
@[simp] theorem Mach.modCore_tenants (m : Mach) (c : Nat) (f : Core → Core) : (m.modCore c f).tenants = m.tenants := rfl
@[simp] theorem Mach.modCore_bundles (m : Mach) (c : Nat) (f : Core → Core) : (m.modCore c f).bundles = m.bundles := rfl
@[simp] theorem Mach.modCore_rcbs (m : Mach) (c : Nat) (f : Core → Core) : (m.modCore c f).rcbs = m.rcbs := rfl
@[simp] theorem Mach.modCore_usages (m : Mach) (c : Nat) (f : Core → Core) : (m.modCore c f).usages = m.usages := rfl
@[simp] theorem Mach.modCore_blocks (m : Mach) (c : Nat) (f : Core → Core) : (m.modCore c f).blocks = m.blocks := rfl
@[simp] theorem Mach.modCore_accesses (m : Mach) (c : Nat) (f : Core → Core) : (m.modCore c f).accesses = m.accesses := rfl
@[simp] theorem Mach.modCore_fences (m : Mach) (c : Nat) (f : Core → Core) : (m.modCore c f).fences = m.fences := rfl
@[simp] theorem Mach.modCore_copies (m : Mach) (c : Nat) (f : Core → Core) : (m.modCore c f).copies = m.copies := rfl
@[simp] theorem Mach.modCore_tasks (m : Mach) (c : Nat) (f : Core → Core) : (m.modCore c f).tasks = m.tasks := rfl
@[simp] theorem Mach.modCore_mmas (m : Mach) (c : Nat) (f : Core → Core) : (m.modCore c f).mmas = m.mmas := rfl
@[simp] theorem Mach.modCore_macros (m : Mach) (c : Nat) (f : Core → Core) : (m.modCore c f).macros = m.macros := rfl
@[simp] theorem Mach.modCore_darns (m : Mach) (c : Nat) (f : Core → Core) : (m.modCore c f).darns = m.darns := rfl
@[simp] theorem Mach.modCore_nextId (m : Mach) (c : Nat) (f : Core → Core) : (m.modCore c f).nextId = m.nextId := rfl
@[simp] theorem Mach.modCore_fresh (m : Mach) (c : Nat) (f : Core → Core) : (m.modCore c f).fresh = m.fresh := rfl
@[simp] theorem Mach.modCore_sel (m : Mach) (c : Nat) (f : Core → Core) : (m.modCore c f).sel = m.sel := rfl
@[simp] theorem Mach.modCore_devlog (m : Mach) (c : Nat) (f : Core → Core) : (m.modCore c f).devlog = m.devlog := rfl
@[simp] theorem Mach.modCore_msi (m : Mach) (c : Nat) (f : Core → Core) : (m.modCore c f).msi = m.msi := rfl
@[simp] theorem Mach.modCore_sent (m : Mach) (c : Nat) (f : Core → Core) : (m.modCore c f).sent = m.sent := rfl
@[simp] theorem Mach.modCore_fdq (m : Mach) (c : Nat) (f : Core → Core) : (m.modCore c f).fdq = m.fdq := rfl

/-! ### modShard -/

@[simp] theorem Mach.modShard_mem (m : Mach) (c : Nat) (f : Shard → Shard) : (m.modShard c f).mem = m.mem := rfl
@[simp] theorem Mach.modShard_poison (m : Mach) (c : Nat) (f : Shard → Shard) : (m.modShard c f).poison = m.poison := rfl
@[simp] theorem Mach.modShard_retired (m : Mach) (c : Nat) (f : Shard → Shard) : (m.modShard c f).retired = m.retired := rfl
@[simp] theorem Mach.modShard_warps (m : Mach) (c : Nat) (f : Shard → Shard) : (m.modShard c f).warps = m.warps := rfl
@[simp] theorem Mach.modShard_slices (m : Mach) (c : Nat) (f : Shard → Shard) : (m.modShard c f).slices = m.slices := rfl
@[simp] theorem Mach.modShard_cores (m : Mach) (c : Nat) (f : Shard → Shard) : (m.modShard c f).cores = m.cores := rfl
@[simp] theorem Mach.modShard_parts (m : Mach) (c : Nat) (f : Shard → Shard) : (m.modShard c f).parts = m.parts := rfl
@[simp] theorem Mach.modShard_tenants (m : Mach) (c : Nat) (f : Shard → Shard) : (m.modShard c f).tenants = m.tenants := rfl
@[simp] theorem Mach.modShard_bundles (m : Mach) (c : Nat) (f : Shard → Shard) : (m.modShard c f).bundles = m.bundles := rfl
@[simp] theorem Mach.modShard_rcbs (m : Mach) (c : Nat) (f : Shard → Shard) : (m.modShard c f).rcbs = m.rcbs := rfl
@[simp] theorem Mach.modShard_usages (m : Mach) (c : Nat) (f : Shard → Shard) : (m.modShard c f).usages = m.usages := rfl
@[simp] theorem Mach.modShard_blocks (m : Mach) (c : Nat) (f : Shard → Shard) : (m.modShard c f).blocks = m.blocks := rfl
@[simp] theorem Mach.modShard_accesses (m : Mach) (c : Nat) (f : Shard → Shard) : (m.modShard c f).accesses = m.accesses := rfl
@[simp] theorem Mach.modShard_fences (m : Mach) (c : Nat) (f : Shard → Shard) : (m.modShard c f).fences = m.fences := rfl
@[simp] theorem Mach.modShard_copies (m : Mach) (c : Nat) (f : Shard → Shard) : (m.modShard c f).copies = m.copies := rfl
@[simp] theorem Mach.modShard_tasks (m : Mach) (c : Nat) (f : Shard → Shard) : (m.modShard c f).tasks = m.tasks := rfl
@[simp] theorem Mach.modShard_mmas (m : Mach) (c : Nat) (f : Shard → Shard) : (m.modShard c f).mmas = m.mmas := rfl
@[simp] theorem Mach.modShard_macros (m : Mach) (c : Nat) (f : Shard → Shard) : (m.modShard c f).macros = m.macros := rfl
@[simp] theorem Mach.modShard_darns (m : Mach) (c : Nat) (f : Shard → Shard) : (m.modShard c f).darns = m.darns := rfl
@[simp] theorem Mach.modShard_nextId (m : Mach) (c : Nat) (f : Shard → Shard) : (m.modShard c f).nextId = m.nextId := rfl
@[simp] theorem Mach.modShard_fresh (m : Mach) (c : Nat) (f : Shard → Shard) : (m.modShard c f).fresh = m.fresh := rfl
@[simp] theorem Mach.modShard_sel (m : Mach) (c : Nat) (f : Shard → Shard) : (m.modShard c f).sel = m.sel := rfl
@[simp] theorem Mach.modShard_devlog (m : Mach) (c : Nat) (f : Shard → Shard) : (m.modShard c f).devlog = m.devlog := rfl
@[simp] theorem Mach.modShard_msi (m : Mach) (c : Nat) (f : Shard → Shard) : (m.modShard c f).msi = m.msi := rfl
@[simp] theorem Mach.modShard_sent (m : Mach) (c : Nat) (f : Shard → Shard) : (m.modShard c f).sent = m.sent := rfl
@[simp] theorem Mach.modShard_fdq (m : Mach) (c : Nat) (f : Shard → Shard) : (m.modShard c f).fdq = m.fdq := rfl

/-! ### modPart -/

@[simp] theorem Mach.modPart_mem (m : Mach) (c : Nat) (f : Part → Part) : (m.modPart c f).mem = m.mem := rfl
@[simp] theorem Mach.modPart_poison (m : Mach) (c : Nat) (f : Part → Part) : (m.modPart c f).poison = m.poison := rfl
@[simp] theorem Mach.modPart_retired (m : Mach) (c : Nat) (f : Part → Part) : (m.modPart c f).retired = m.retired := rfl
@[simp] theorem Mach.modPart_warps (m : Mach) (c : Nat) (f : Part → Part) : (m.modPart c f).warps = m.warps := rfl
@[simp] theorem Mach.modPart_slices (m : Mach) (c : Nat) (f : Part → Part) : (m.modPart c f).slices = m.slices := rfl
@[simp] theorem Mach.modPart_cores (m : Mach) (c : Nat) (f : Part → Part) : (m.modPart c f).cores = m.cores := rfl
@[simp] theorem Mach.modPart_shards (m : Mach) (c : Nat) (f : Part → Part) : (m.modPart c f).shards = m.shards := rfl
@[simp] theorem Mach.modPart_tenants (m : Mach) (c : Nat) (f : Part → Part) : (m.modPart c f).tenants = m.tenants := rfl
@[simp] theorem Mach.modPart_bundles (m : Mach) (c : Nat) (f : Part → Part) : (m.modPart c f).bundles = m.bundles := rfl
@[simp] theorem Mach.modPart_rcbs (m : Mach) (c : Nat) (f : Part → Part) : (m.modPart c f).rcbs = m.rcbs := rfl
@[simp] theorem Mach.modPart_usages (m : Mach) (c : Nat) (f : Part → Part) : (m.modPart c f).usages = m.usages := rfl
@[simp] theorem Mach.modPart_blocks (m : Mach) (c : Nat) (f : Part → Part) : (m.modPart c f).blocks = m.blocks := rfl
@[simp] theorem Mach.modPart_accesses (m : Mach) (c : Nat) (f : Part → Part) : (m.modPart c f).accesses = m.accesses := rfl
@[simp] theorem Mach.modPart_fences (m : Mach) (c : Nat) (f : Part → Part) : (m.modPart c f).fences = m.fences := rfl
@[simp] theorem Mach.modPart_copies (m : Mach) (c : Nat) (f : Part → Part) : (m.modPart c f).copies = m.copies := rfl
@[simp] theorem Mach.modPart_tasks (m : Mach) (c : Nat) (f : Part → Part) : (m.modPart c f).tasks = m.tasks := rfl
@[simp] theorem Mach.modPart_mmas (m : Mach) (c : Nat) (f : Part → Part) : (m.modPart c f).mmas = m.mmas := rfl
@[simp] theorem Mach.modPart_macros (m : Mach) (c : Nat) (f : Part → Part) : (m.modPart c f).macros = m.macros := rfl
@[simp] theorem Mach.modPart_darns (m : Mach) (c : Nat) (f : Part → Part) : (m.modPart c f).darns = m.darns := rfl
@[simp] theorem Mach.modPart_nextId (m : Mach) (c : Nat) (f : Part → Part) : (m.modPart c f).nextId = m.nextId := rfl
@[simp] theorem Mach.modPart_fresh (m : Mach) (c : Nat) (f : Part → Part) : (m.modPart c f).fresh = m.fresh := rfl
@[simp] theorem Mach.modPart_sel (m : Mach) (c : Nat) (f : Part → Part) : (m.modPart c f).sel = m.sel := rfl
@[simp] theorem Mach.modPart_devlog (m : Mach) (c : Nat) (f : Part → Part) : (m.modPart c f).devlog = m.devlog := rfl
@[simp] theorem Mach.modPart_msi (m : Mach) (c : Nat) (f : Part → Part) : (m.modPart c f).msi = m.msi := rfl
@[simp] theorem Mach.modPart_sent (m : Mach) (c : Nat) (f : Part → Part) : (m.modPart c f).sent = m.sent := rfl
@[simp] theorem Mach.modPart_fdq (m : Mach) (c : Nat) (f : Part → Part) : (m.modPart c f).fdq = m.fdq := rfl

/-! ### modTenant -/

@[simp] theorem Mach.modTenant_mem (m : Mach) (c : Nat) (f : Tenant → Tenant) : (m.modTenant c f).mem = m.mem := rfl
@[simp] theorem Mach.modTenant_poison (m : Mach) (c : Nat) (f : Tenant → Tenant) : (m.modTenant c f).poison = m.poison := rfl
@[simp] theorem Mach.modTenant_retired (m : Mach) (c : Nat) (f : Tenant → Tenant) : (m.modTenant c f).retired = m.retired := rfl
@[simp] theorem Mach.modTenant_warps (m : Mach) (c : Nat) (f : Tenant → Tenant) : (m.modTenant c f).warps = m.warps := rfl
@[simp] theorem Mach.modTenant_slices (m : Mach) (c : Nat) (f : Tenant → Tenant) : (m.modTenant c f).slices = m.slices := rfl
@[simp] theorem Mach.modTenant_cores (m : Mach) (c : Nat) (f : Tenant → Tenant) : (m.modTenant c f).cores = m.cores := rfl
@[simp] theorem Mach.modTenant_shards (m : Mach) (c : Nat) (f : Tenant → Tenant) : (m.modTenant c f).shards = m.shards := rfl
@[simp] theorem Mach.modTenant_parts (m : Mach) (c : Nat) (f : Tenant → Tenant) : (m.modTenant c f).parts = m.parts := rfl
@[simp] theorem Mach.modTenant_bundles (m : Mach) (c : Nat) (f : Tenant → Tenant) : (m.modTenant c f).bundles = m.bundles := rfl
@[simp] theorem Mach.modTenant_rcbs (m : Mach) (c : Nat) (f : Tenant → Tenant) : (m.modTenant c f).rcbs = m.rcbs := rfl
@[simp] theorem Mach.modTenant_usages (m : Mach) (c : Nat) (f : Tenant → Tenant) : (m.modTenant c f).usages = m.usages := rfl
@[simp] theorem Mach.modTenant_blocks (m : Mach) (c : Nat) (f : Tenant → Tenant) : (m.modTenant c f).blocks = m.blocks := rfl
@[simp] theorem Mach.modTenant_accesses (m : Mach) (c : Nat) (f : Tenant → Tenant) : (m.modTenant c f).accesses = m.accesses := rfl
@[simp] theorem Mach.modTenant_fences (m : Mach) (c : Nat) (f : Tenant → Tenant) : (m.modTenant c f).fences = m.fences := rfl
@[simp] theorem Mach.modTenant_copies (m : Mach) (c : Nat) (f : Tenant → Tenant) : (m.modTenant c f).copies = m.copies := rfl
@[simp] theorem Mach.modTenant_tasks (m : Mach) (c : Nat) (f : Tenant → Tenant) : (m.modTenant c f).tasks = m.tasks := rfl
@[simp] theorem Mach.modTenant_mmas (m : Mach) (c : Nat) (f : Tenant → Tenant) : (m.modTenant c f).mmas = m.mmas := rfl
@[simp] theorem Mach.modTenant_macros (m : Mach) (c : Nat) (f : Tenant → Tenant) : (m.modTenant c f).macros = m.macros := rfl
@[simp] theorem Mach.modTenant_darns (m : Mach) (c : Nat) (f : Tenant → Tenant) : (m.modTenant c f).darns = m.darns := rfl
@[simp] theorem Mach.modTenant_nextId (m : Mach) (c : Nat) (f : Tenant → Tenant) : (m.modTenant c f).nextId = m.nextId := rfl
@[simp] theorem Mach.modTenant_fresh (m : Mach) (c : Nat) (f : Tenant → Tenant) : (m.modTenant c f).fresh = m.fresh := rfl
@[simp] theorem Mach.modTenant_sel (m : Mach) (c : Nat) (f : Tenant → Tenant) : (m.modTenant c f).sel = m.sel := rfl
@[simp] theorem Mach.modTenant_devlog (m : Mach) (c : Nat) (f : Tenant → Tenant) : (m.modTenant c f).devlog = m.devlog := rfl
@[simp] theorem Mach.modTenant_msi (m : Mach) (c : Nat) (f : Tenant → Tenant) : (m.modTenant c f).msi = m.msi := rfl
@[simp] theorem Mach.modTenant_sent (m : Mach) (c : Nat) (f : Tenant → Tenant) : (m.modTenant c f).sent = m.sent := rfl
@[simp] theorem Mach.modTenant_fdq (m : Mach) (c : Nat) (f : Tenant → Tenant) : (m.modTenant c f).fdq = m.fdq := rfl

/-! ### modBlock -/

@[simp] theorem Mach.modBlock_mem (m : Mach) (c : Nat) (f : Block → Block) : (m.modBlock c f).mem = m.mem := rfl
@[simp] theorem Mach.modBlock_poison (m : Mach) (c : Nat) (f : Block → Block) : (m.modBlock c f).poison = m.poison := rfl
@[simp] theorem Mach.modBlock_retired (m : Mach) (c : Nat) (f : Block → Block) : (m.modBlock c f).retired = m.retired := rfl
@[simp] theorem Mach.modBlock_warps (m : Mach) (c : Nat) (f : Block → Block) : (m.modBlock c f).warps = m.warps := rfl
@[simp] theorem Mach.modBlock_slices (m : Mach) (c : Nat) (f : Block → Block) : (m.modBlock c f).slices = m.slices := rfl
@[simp] theorem Mach.modBlock_cores (m : Mach) (c : Nat) (f : Block → Block) : (m.modBlock c f).cores = m.cores := rfl
@[simp] theorem Mach.modBlock_shards (m : Mach) (c : Nat) (f : Block → Block) : (m.modBlock c f).shards = m.shards := rfl
@[simp] theorem Mach.modBlock_parts (m : Mach) (c : Nat) (f : Block → Block) : (m.modBlock c f).parts = m.parts := rfl
@[simp] theorem Mach.modBlock_tenants (m : Mach) (c : Nat) (f : Block → Block) : (m.modBlock c f).tenants = m.tenants := rfl
@[simp] theorem Mach.modBlock_bundles (m : Mach) (c : Nat) (f : Block → Block) : (m.modBlock c f).bundles = m.bundles := rfl
@[simp] theorem Mach.modBlock_rcbs (m : Mach) (c : Nat) (f : Block → Block) : (m.modBlock c f).rcbs = m.rcbs := rfl
@[simp] theorem Mach.modBlock_usages (m : Mach) (c : Nat) (f : Block → Block) : (m.modBlock c f).usages = m.usages := rfl
@[simp] theorem Mach.modBlock_accesses (m : Mach) (c : Nat) (f : Block → Block) : (m.modBlock c f).accesses = m.accesses := rfl
@[simp] theorem Mach.modBlock_fences (m : Mach) (c : Nat) (f : Block → Block) : (m.modBlock c f).fences = m.fences := rfl
@[simp] theorem Mach.modBlock_copies (m : Mach) (c : Nat) (f : Block → Block) : (m.modBlock c f).copies = m.copies := rfl
@[simp] theorem Mach.modBlock_tasks (m : Mach) (c : Nat) (f : Block → Block) : (m.modBlock c f).tasks = m.tasks := rfl
@[simp] theorem Mach.modBlock_mmas (m : Mach) (c : Nat) (f : Block → Block) : (m.modBlock c f).mmas = m.mmas := rfl
@[simp] theorem Mach.modBlock_macros (m : Mach) (c : Nat) (f : Block → Block) : (m.modBlock c f).macros = m.macros := rfl
@[simp] theorem Mach.modBlock_darns (m : Mach) (c : Nat) (f : Block → Block) : (m.modBlock c f).darns = m.darns := rfl
@[simp] theorem Mach.modBlock_nextId (m : Mach) (c : Nat) (f : Block → Block) : (m.modBlock c f).nextId = m.nextId := rfl
@[simp] theorem Mach.modBlock_fresh (m : Mach) (c : Nat) (f : Block → Block) : (m.modBlock c f).fresh = m.fresh := rfl
@[simp] theorem Mach.modBlock_sel (m : Mach) (c : Nat) (f : Block → Block) : (m.modBlock c f).sel = m.sel := rfl
@[simp] theorem Mach.modBlock_devlog (m : Mach) (c : Nat) (f : Block → Block) : (m.modBlock c f).devlog = m.devlog := rfl
@[simp] theorem Mach.modBlock_msi (m : Mach) (c : Nat) (f : Block → Block) : (m.modBlock c f).msi = m.msi := rfl
@[simp] theorem Mach.modBlock_sent (m : Mach) (c : Nat) (f : Block → Block) : (m.modBlock c f).sent = m.sent := rfl
@[simp] theorem Mach.modBlock_fdq (m : Mach) (c : Nat) (f : Block → Block) : (m.modBlock c f).fdq = m.fdq := rfl

/-! ### modBundle -/

@[simp] theorem Mach.modBundle_mem (m : Mach) (c : Nat) (f : Bundle → Bundle) : (m.modBundle c f).mem = m.mem := rfl
@[simp] theorem Mach.modBundle_poison (m : Mach) (c : Nat) (f : Bundle → Bundle) : (m.modBundle c f).poison = m.poison := rfl
@[simp] theorem Mach.modBundle_retired (m : Mach) (c : Nat) (f : Bundle → Bundle) : (m.modBundle c f).retired = m.retired := rfl
@[simp] theorem Mach.modBundle_warps (m : Mach) (c : Nat) (f : Bundle → Bundle) : (m.modBundle c f).warps = m.warps := rfl
@[simp] theorem Mach.modBundle_slices (m : Mach) (c : Nat) (f : Bundle → Bundle) : (m.modBundle c f).slices = m.slices := rfl
@[simp] theorem Mach.modBundle_cores (m : Mach) (c : Nat) (f : Bundle → Bundle) : (m.modBundle c f).cores = m.cores := rfl
@[simp] theorem Mach.modBundle_shards (m : Mach) (c : Nat) (f : Bundle → Bundle) : (m.modBundle c f).shards = m.shards := rfl
@[simp] theorem Mach.modBundle_parts (m : Mach) (c : Nat) (f : Bundle → Bundle) : (m.modBundle c f).parts = m.parts := rfl
@[simp] theorem Mach.modBundle_tenants (m : Mach) (c : Nat) (f : Bundle → Bundle) : (m.modBundle c f).tenants = m.tenants := rfl
@[simp] theorem Mach.modBundle_rcbs (m : Mach) (c : Nat) (f : Bundle → Bundle) : (m.modBundle c f).rcbs = m.rcbs := rfl
@[simp] theorem Mach.modBundle_usages (m : Mach) (c : Nat) (f : Bundle → Bundle) : (m.modBundle c f).usages = m.usages := rfl
@[simp] theorem Mach.modBundle_blocks (m : Mach) (c : Nat) (f : Bundle → Bundle) : (m.modBundle c f).blocks = m.blocks := rfl
@[simp] theorem Mach.modBundle_accesses (m : Mach) (c : Nat) (f : Bundle → Bundle) : (m.modBundle c f).accesses = m.accesses := rfl
@[simp] theorem Mach.modBundle_fences (m : Mach) (c : Nat) (f : Bundle → Bundle) : (m.modBundle c f).fences = m.fences := rfl
@[simp] theorem Mach.modBundle_copies (m : Mach) (c : Nat) (f : Bundle → Bundle) : (m.modBundle c f).copies = m.copies := rfl
@[simp] theorem Mach.modBundle_tasks (m : Mach) (c : Nat) (f : Bundle → Bundle) : (m.modBundle c f).tasks = m.tasks := rfl
@[simp] theorem Mach.modBundle_mmas (m : Mach) (c : Nat) (f : Bundle → Bundle) : (m.modBundle c f).mmas = m.mmas := rfl
@[simp] theorem Mach.modBundle_macros (m : Mach) (c : Nat) (f : Bundle → Bundle) : (m.modBundle c f).macros = m.macros := rfl
@[simp] theorem Mach.modBundle_darns (m : Mach) (c : Nat) (f : Bundle → Bundle) : (m.modBundle c f).darns = m.darns := rfl
@[simp] theorem Mach.modBundle_nextId (m : Mach) (c : Nat) (f : Bundle → Bundle) : (m.modBundle c f).nextId = m.nextId := rfl
@[simp] theorem Mach.modBundle_fresh (m : Mach) (c : Nat) (f : Bundle → Bundle) : (m.modBundle c f).fresh = m.fresh := rfl
@[simp] theorem Mach.modBundle_sel (m : Mach) (c : Nat) (f : Bundle → Bundle) : (m.modBundle c f).sel = m.sel := rfl
@[simp] theorem Mach.modBundle_devlog (m : Mach) (c : Nat) (f : Bundle → Bundle) : (m.modBundle c f).devlog = m.devlog := rfl
@[simp] theorem Mach.modBundle_msi (m : Mach) (c : Nat) (f : Bundle → Bundle) : (m.modBundle c f).msi = m.msi := rfl
@[simp] theorem Mach.modBundle_sent (m : Mach) (c : Nat) (f : Bundle → Bundle) : (m.modBundle c f).sent = m.sent := rfl
@[simp] theorem Mach.modBundle_fdq (m : Mach) (c : Nat) (f : Bundle → Bundle) : (m.modBundle c f).fdq = m.fdq := rfl

/-! ### modLaunch -/

@[simp] theorem Mach.modLaunch_mem (m : Mach) (c l : Nat) (f : Launch → Launch) : (m.modLaunch c l f).mem = m.mem := rfl
@[simp] theorem Mach.modLaunch_poison (m : Mach) (c l : Nat) (f : Launch → Launch) : (m.modLaunch c l f).poison = m.poison := rfl
@[simp] theorem Mach.modLaunch_retired (m : Mach) (c l : Nat) (f : Launch → Launch) : (m.modLaunch c l f).retired = m.retired := rfl
@[simp] theorem Mach.modLaunch_warps (m : Mach) (c l : Nat) (f : Launch → Launch) : (m.modLaunch c l f).warps = m.warps := rfl
@[simp] theorem Mach.modLaunch_slices (m : Mach) (c l : Nat) (f : Launch → Launch) : (m.modLaunch c l f).slices = m.slices := rfl
@[simp] theorem Mach.modLaunch_cores (m : Mach) (c l : Nat) (f : Launch → Launch) : (m.modLaunch c l f).cores = m.cores := rfl
@[simp] theorem Mach.modLaunch_shards (m : Mach) (c l : Nat) (f : Launch → Launch) : (m.modLaunch c l f).shards = m.shards := rfl
@[simp] theorem Mach.modLaunch_parts (m : Mach) (c l : Nat) (f : Launch → Launch) : (m.modLaunch c l f).parts = m.parts := rfl
@[simp] theorem Mach.modLaunch_tenants (m : Mach) (c l : Nat) (f : Launch → Launch) : (m.modLaunch c l f).tenants = m.tenants := rfl
@[simp] theorem Mach.modLaunch_rcbs (m : Mach) (c l : Nat) (f : Launch → Launch) : (m.modLaunch c l f).rcbs = m.rcbs := rfl
@[simp] theorem Mach.modLaunch_usages (m : Mach) (c l : Nat) (f : Launch → Launch) : (m.modLaunch c l f).usages = m.usages := rfl
@[simp] theorem Mach.modLaunch_blocks (m : Mach) (c l : Nat) (f : Launch → Launch) : (m.modLaunch c l f).blocks = m.blocks := rfl
@[simp] theorem Mach.modLaunch_accesses (m : Mach) (c l : Nat) (f : Launch → Launch) : (m.modLaunch c l f).accesses = m.accesses := rfl
@[simp] theorem Mach.modLaunch_fences (m : Mach) (c l : Nat) (f : Launch → Launch) : (m.modLaunch c l f).fences = m.fences := rfl
@[simp] theorem Mach.modLaunch_copies (m : Mach) (c l : Nat) (f : Launch → Launch) : (m.modLaunch c l f).copies = m.copies := rfl
@[simp] theorem Mach.modLaunch_tasks (m : Mach) (c l : Nat) (f : Launch → Launch) : (m.modLaunch c l f).tasks = m.tasks := rfl
@[simp] theorem Mach.modLaunch_mmas (m : Mach) (c l : Nat) (f : Launch → Launch) : (m.modLaunch c l f).mmas = m.mmas := rfl
@[simp] theorem Mach.modLaunch_macros (m : Mach) (c l : Nat) (f : Launch → Launch) : (m.modLaunch c l f).macros = m.macros := rfl
@[simp] theorem Mach.modLaunch_darns (m : Mach) (c l : Nat) (f : Launch → Launch) : (m.modLaunch c l f).darns = m.darns := rfl
@[simp] theorem Mach.modLaunch_nextId (m : Mach) (c l : Nat) (f : Launch → Launch) : (m.modLaunch c l f).nextId = m.nextId := rfl
@[simp] theorem Mach.modLaunch_fresh (m : Mach) (c l : Nat) (f : Launch → Launch) : (m.modLaunch c l f).fresh = m.fresh := rfl
@[simp] theorem Mach.modLaunch_sel (m : Mach) (c l : Nat) (f : Launch → Launch) : (m.modLaunch c l f).sel = m.sel := rfl
@[simp] theorem Mach.modLaunch_devlog (m : Mach) (c l : Nat) (f : Launch → Launch) : (m.modLaunch c l f).devlog = m.devlog := rfl
@[simp] theorem Mach.modLaunch_msi (m : Mach) (c l : Nat) (f : Launch → Launch) : (m.modLaunch c l f).msi = m.msi := rfl
@[simp] theorem Mach.modLaunch_sent (m : Mach) (c l : Nat) (f : Launch → Launch) : (m.modLaunch c l f).sent = m.sent := rfl
@[simp] theorem Mach.modLaunch_fdq (m : Mach) (c l : Nat) (f : Launch → Launch) : (m.modLaunch c l f).fdq = m.fdq := rfl

/-! ### Lookups -/

theorem wk_ne {c c' l l' : Nat} (hl : l < 128) (hl' : l' < 128) (h : c ≠ c' ∨ l ≠ l') : wk c l ≠ wk c' l' := by unfold wk; omega

/-- A warp after a change of a warp: changed by it if it is that warp and the warp exists. -/
theorem Mach.warp_modWarp (m : Mach) (c l c' l' : Nat) (f : Warp → Warp) :
    (m.modWarp c l f).warp c' l' = if wk c' l' = wk c l ∧ m.warps.has (wk c l) = true then f (m.warp c l) else m.warp c' l' := by
  unfold Mach.warp Mach.modWarp Tab.get Tab.has
  rw [Tab.get?_modify]
  by_cases h : wk c' l' = wk c l
  · rw [h]; cases Tab.get? m.warps (wk c l) <;> simp
  · simp [h]

@[simp] theorem Mach.has_modWarp (m : Mach) (c l k : Nat) (f : Warp → Warp) : (m.modWarp c l f).warps.has k = m.warps.has k := by
  unfold Mach.modWarp Tab.has
  simp only [Tab.get?_modify]
  split
  · rename_i h; subst h; simp
  · rfl

theorem Mach.slc_modSlc (m : Mach) (c l c' l' : Nat) (f : Slice → Slice) : (m.modSlc c l f).slc c' l' = if sk c' l' = sk c l then f (m.slc c l) else m.slc c' l' := by
  unfold Mach.slc Mach.modSlc
  rw [Tab.get_set]; rfl

theorem Mach.core_modCore (m : Mach) (c c' : Nat) (f : Core → Core) : (m.modCore c f).core c' = if c' = c then f (m.core c) else m.core c' := by
  unfold Mach.core Mach.modCore
  rw [Tab.get_set]; rfl

theorem Mach.shard_modShard (m : Mach) (c c' : Nat) (f : Shard → Shard) : (m.modShard c f).shard c' = if c' = c then f (m.shard c) else m.shard c' := by
  unfold Mach.shard Mach.modShard
  rw [Tab.get_set]; rfl

theorem Mach.part_modPart (m : Mach) (c c' : Nat) (f : Part → Part) : (m.modPart c f).part c' = if c' = c then f (m.part c) else m.part c' := by
  unfold Mach.part Mach.modPart
  rw [Tab.get_set]; rfl

theorem Mach.tenant_modTenant (m : Mach) (c c' : Nat) (f : Tenant → Tenant) : (m.modTenant c f).tenant c' = if c' = c then f (m.tenant c) else m.tenant c' := by
  unfold Mach.tenant Mach.modTenant
  rw [Tab.get_set]; rfl

theorem Mach.block_modBlock (m : Mach) (c c' : Nat) (f : Block → Block) : (m.modBlock c f).blocks.get? c' = if c' = c then (m.blocks.get? c).map f else m.blocks.get? c' := by
  unfold Mach.modBlock; exact Tab.get?_modify ..

theorem Mach.bundle_modBundle (m : Mach) (c c' : Nat) (f : Bundle → Bundle) : (m.modBundle c f).bundles.get? c' = if c' = c then (m.bundles.get? c).map f else m.bundles.get? c' := by
  unfold Mach.modBundle; exact Tab.get?_modify ..

@[simp] theorem Mach.warp_modSlc (m : Mach) (c l c' l' : Nat) (f : Slice → Slice) : (m.modSlc c l f).warp c' l' = m.warp c' l' := rfl
@[simp] theorem Mach.warp_modCore (m : Mach) (c c' l' : Nat) (f : Core → Core) : (m.modCore c f).warp c' l' = m.warp c' l' := rfl
@[simp] theorem Mach.warp_modShard (m : Mach) (c c' l' : Nat) (f : Shard → Shard) : (m.modShard c f).warp c' l' = m.warp c' l' := rfl
@[simp] theorem Mach.warp_modBlock (m : Mach) (c c' l' : Nat) (f : Block → Block) : (m.modBlock c f).warp c' l' = m.warp c' l' := rfl
@[simp] theorem Mach.slc_modWarp (m : Mach) (c l c' l' : Nat) (f : Warp → Warp) : (m.modWarp c l f).slc c' l' = m.slc c' l' := rfl
@[simp] theorem Mach.slc_modCore (m : Mach) (c c' l' : Nat) (f : Core → Core) : (m.modCore c f).slc c' l' = m.slc c' l' := rfl
@[simp] theorem Mach.slc_modShard (m : Mach) (c c' l' : Nat) (f : Shard → Shard) : (m.modShard c f).slc c' l' = m.slc c' l' := rfl
@[simp] theorem Mach.core_modWarp (m : Mach) (c l c' : Nat) (f : Warp → Warp) : (m.modWarp c l f).core c' = m.core c' := rfl
@[simp] theorem Mach.core_modSlc (m : Mach) (c l c' : Nat) (f : Slice → Slice) : (m.modSlc c l f).core c' = m.core c' := rfl
@[simp] theorem Mach.core_modShard (m : Mach) (c c' : Nat) (f : Shard → Shard) : (m.modShard c f).core c' = m.core c' := rfl
@[simp] theorem Mach.shard_modWarp (m : Mach) (c l c' : Nat) (f : Warp → Warp) : (m.modWarp c l f).shard c' = m.shard c' := rfl
@[simp] theorem Mach.shard_modSlc (m : Mach) (c l c' : Nat) (f : Slice → Slice) : (m.modSlc c l f).shard c' = m.shard c' := rfl
@[simp] theorem Mach.shard_modCore (m : Mach) (c c' : Nat) (f : Core → Core) : (m.modCore c f).shard c' = m.shard c' := rfl

/-! ### Threads -/

theorem Warp.thread_modThread (w : Warp) (l l' : Nat) (f : Thread → Thread) :
    (w.modThread l f).thread l' = if l' = l ∧ w.threads.has l = true then f (w.thread l) else w.thread l' := by
  unfold Warp.thread Warp.modThread Tab.get Tab.has
  simp only [Tab.get?_modify]
  by_cases h : l' = l
  · subst h; cases Tab.get? w.threads l' <;> simp
  · simp [h]

@[simp] theorem Warp.hasThread_modThread (w : Warp) (l k : Nat) (f : Thread → Thread) : (w.modThread l f).threads.has k = w.threads.has k := by
  unfold Warp.modThread Tab.has
  simp only [Tab.get?_modify]
  split
  · rename_i h; subst h; simp
  · rfl

end Sys2Proof.Machine
end

