-- ==== Sys2Proof/Laws/Clock.lean ====
section
/-! SUPPORT. The clocks: what catching up, beginning a slice's cycle and beginning a shard's cycle can change, and the counts they leave (04 R109; 05 R126; 07 R193; log 86). -/

namespace Sys2Proof.Machine

/-! ### Ratios -/

/-- At ratio 1 every shard cycle is a slice cycle. -/
theorem ticksTo_full (n : Nat) : ticksTo 8 n = n := by unfold ticksTo; omega

/-- Slice cycles only grow with shard cycles. -/
theorem ticksTo_mono (r : Nat) {a b : Nat} (h : a ≤ b) : ticksTo r a ≤ ticksTo r b := Nat.div_le_div_right (Nat.mul_le_mul_right r h)

/-- A shard cycle holds one slice cycle or none. -/
theorem ticksTo_succ (r n : Nat) (h : r ≤ 8) : ticksTo r (n + 1) = ticksTo r n + (if ticksIn r n then 1 else 0) := by
  have e : (n + 1) * r = n * r + r := Nat.succ_mul n r
  unfold ticksIn ticksTo
  rw [e]
  by_cases c : n * r / 8 < (n * r + r) / 8
  · simp only [c, decide_true, if_true]; omega
  · simp only [c, decide_false]; simp only [Bool.false_eq_true, if_false]; omega

/-! ### Catching up -/

/-- Catching up changes slices only. -/
theorem Mach.catchUp_slices (e : Fw) (m : Mach) (c k : Nat) : ∃ t, m.catchUp e c k = { m with slices := t } := ⟨_, rfl⟩

theorem Mach.catchSlices (e : Fw) (c : Nat) (ks : List Nat) (m : Mach) : ∃ t, ks.foldl (fun m k => m.catchUp e c k) m = { m with slices := t } := by
  induction ks generalizing m with
  | nil => exact ⟨m.slices, rfl⟩
  | cons k r ih =>
    obtain ⟨t, ht⟩ := ih (m.catchUp e c k)
    exact ⟨t, ht⟩

theorem Mach.catchCore_slices (e : Fw) (m : Mach) (c : Nat) : ∃ t, m.catchCore e c = { m with slices := t } := Mach.catchSlices e c (List.range 6) m

theorem Mach.catchCores (e : Fw) (s : Nat) (ks : List Nat) (m : Mach) : ∃ t, ks.foldl (fun m k => m.catchCore e (16 * s + k)) m = { m with slices := t } := by
  induction ks generalizing m with
  | nil => exact ⟨m.slices, rfl⟩
  | cons k r ih =>
    obtain ⟨t, ht⟩ := ih (m.catchCore e (16 * s + k))
    obtain ⟨u, hu⟩ := Mach.catchCore_slices e m (16 * s + k)
    exact ⟨t, by rw [List.foldl_cons, ht, hu]⟩

theorem Mach.catchShard_slices (e : Fw) (m : Mach) (s : Nat) : ∃ t, m.catchShard e s = { m with slices := t } := Mach.catchCores e s (List.range 16) m

/-- A slice that has caught up has gone through every shard cycle that is past. -/
theorem Mach.catchUp_upto (e : Fw) (m : Mach) (c k : Nat) : (m.shard (shardOf c)).pastOf c k ≤ ((m.catchUp e c k).slc c k).upto := by
  unfold Mach.catchUp
  rw [Mach.slc_modSlc]
  simp only [if_true]
  split
  · exact Nat.le_refl _
  · rename_i h; exact Nat.le_of_not_lt h

/-! ### Cycles begin -/

@[simp] theorem Mach.rollover_cycle (m : Mach) (s : Nat) : ((m.rollover s).shard s).cycle = (m.shard s).cycle + 1 := by
  unfold Mach.rollover; rw [Mach.shard_modShard]; simp

/-- In a new cycle no slice's place is past. -/
@[simp] theorem Mach.rollover_turn (m : Mach) (s : Nat) : ((m.rollover s).shard s).turn = 0 := by
  unfold Mach.rollover; rw [Mach.shard_modShard]; simp

/-- A shard's new cycle changes nothing of another shard, and nothing but shards. -/
theorem Mach.rollover_shard_ne (m : Mach) {s s' : Nat} (h : s' ≠ s) : (m.rollover s).shard s' = m.shard s' := by
  unfold Mach.rollover; rw [Mach.shard_modShard]; simp [h]

theorem Mach.rollover_shards (m : Mach) (s : Nat) : ∃ t, m.rollover s = { m with shards := t } := ⟨_, rfl⟩

/-- The beginning of a slice's cycle changes slices and shards only. -/
theorem Mach.beginTurn_frame (e : Fw) (m : Mach) (c k : Nat) : ∃ t u, m.beginTurn e c k = { m with slices := t, shards := u } := ⟨_, _, rfl⟩

/-- It passes the slice's place. -/
theorem Mach.beginTurn_turn (e : Fw) (m : Mach) (c k : Nat) : ((m.beginTurn e c k).shard (shardOf c)).turn = placeOf c k + 1 := by
  unfold Mach.beginTurn; rw [Mach.shard_modShard]; simp

end Sys2Proof.Machine
end

