-- ==== Sys2Proof/Laws/Issue.lean ====
section
/-! SUPPORT. Issue: what each shared operation of an issue does, and from these the effects of an instruction with results of fixed latency. -/

namespace Sys2Proof.Machine

/-! ### Write-backs -/

theorem mem_enqueueWb (ws : List Wb) (w x : Wb) : x ∈ enqueueWb ws w ↔ x ∈ ws ∨ x = w := by
  induction ws with
  | nil => simp [enqueueWb]
  | cons y r ih =>
    simp only [enqueueWb]
    split
    · simp only [List.mem_cons]; exact or_comm
    · simp only [List.mem_cons, ih, or_assoc]

/-- A list of write-backs queued one after another. -/
def Mach.addWbs (m : Mach) (core slice : Nat) (ws : List Wb) : Mach := ws.foldl (fun m w => m.addWb core slice w) m

theorem Mach.addWbs_frame (ws : List Wb) (m : Mach) (core slice : Nat) :
    m.addWbs core slice ws = { m with slices := (m.addWbs core slice ws).slices } := by
  induction ws generalizing m with
  | nil => rfl
  | cons w r ih => exact (ih (m.addWb core slice w)).trans rfl

theorem Mach.mem_addWbs (ws : List Wb) (m : Mach) (core slice : Nat) (x : Wb) :
    x ∈ ((m.addWbs core slice ws).slc core slice).wbs ↔ x ∈ (m.slc core slice).wbs ∨ x ∈ ws := by
  induction ws generalizing m with
  | nil => simp [Mach.addWbs]
  | cons w r ih =>
    rw [show m.addWbs core slice (w :: r) = (m.addWb core slice w).addWbs core slice r from rfl, ih]
    simp only [Mach.addWb, Mach.slc_modSlc, if_true, mem_enqueueWb, List.mem_cons, or_assoc]

theorem Mach.addWbs_slc (ws : List Wb) (m : Mach) (core slice c k : Nat) :
    (m.addWbs core slice ws).slc c k = if sk c k = sk core slice then { m.slc core slice with wbs := ((m.addWbs core slice ws).slc core slice).wbs } else m.slc c k := by
  induction ws generalizing m with
  | nil => split
           · rename_i h; unfold Mach.addWbs Mach.slc; rw [h]; rfl
           · rfl
  | cons w r ih =>
    rw [show m.addWbs core slice (w :: r) = (m.addWb core slice w).addWbs core slice r from rfl, ih]
    unfold Mach.addWb
    simp only [Mach.slc_modSlc, if_true]
    split <;> rfl

/-- A fold that queues at most one write-back for each element queues a list of them. -/
theorem foldl_addWb {α : Type} (xs : List α) (core slice : Nat) (f : α → Option Wb) (m : Mach) :
    xs.foldl (fun m x => match f x with
      | some w => m.addWb core slice w
      | none => m) m = m.addWbs core slice (xs.filterMap f) := by
  induction xs generalizing m with
  | nil => rfl
  | cons x r ih =>
    simp only [List.foldl_cons, List.filterMap_cons]
    rw [ih]
    cases f x <;> rfl

/-! ### Changes of warps -/

/-- A fold of changes of warps changes warps only. -/
theorem foldl_modWarp_frame {α : Type} (xs : List α) (core : Nat) (sl : α → Nat) (f : α → Warp → Warp) (m : Mach) :
    xs.foldl (fun m x => m.modWarp core (sl x) (f x)) m = { m with warps := (xs.foldl (fun m x => m.modWarp core (sl x) (f x)) m).warps } := by
  induction xs generalizing m with
  | nil => rfl
  | cons x r ih => exact (ih (m.modWarp core (sl x) (f x))).trans rfl

theorem foldl_modWarp_has {α : Type} (xs : List α) (core : Nat) (sl : α → Nat) (f : α → Warp → Warp) (m : Mach) (k : Nat) :
    (xs.foldl (fun m x => m.modWarp core (sl x) (f x)) m).warps.has k = m.warps.has k := by
  induction xs generalizing m with
  | nil => rfl
  | cons x r ih => exact (ih _).trans (Mach.has_modWarp ..)

/-- What a fold of changes of warps does to one warp: the changes that concern it, in order. -/
theorem foldl_modWarp_warp {α : Type} (xs : List α) (core : Nat) (sl : α → Nat) (f : α → Warp → Warp) (m : Mach) (c l : Nat) :
    (xs.foldl (fun m x => m.modWarp core (sl x) (f x)) m).warp c l =
      if m.warps.has (wk c l) = true then (xs.filter (fun x => wk core (sl x) = wk c l)).foldl (fun w x => f x w) (m.warp c l) else m.warp c l := by
  induction xs generalizing m with
  | nil => simp
  | cons x r ih =>
    simp only [List.foldl_cons]
    rw [ih, Mach.has_modWarp, Mach.warp_modWarp]
    by_cases hk : wk core (sl x) = wk c l
    · rw [List.filter_cons_of_pos (by simp [hk])]
      by_cases hh : m.warps.has (wk c l) = true
      · have : m.warp core (sl x) = m.warp c l := by unfold Mach.warp; rw [hk]
        simp [hh, hk, this]
      · simp [hh, hk]
    · rw [List.filter_cons_of_neg (by simp [hk])]
      simp [Ne.symm hk]

theorem has_of_thread (m : Mach) (c l lane : Nat) (h : (m.warp c l).threads.has lane = true) : m.warps.has (wk c l) = true := by
  unfold Tab.has
  cases e : Tab.get? m.warps (wk c l) with
  | some _ => rfl
  | none => simp [Mach.warp, Tab.get, e, Warp.absent, Tab.has, Tab.get?] at h

/-! ### Slots -/

theorem mem_slotsOfMembers (ms : List Member) (s : Nat) : s ∈ slotsOfMembers ms ↔ s ≤ handlerSlot ∧ ∃ x ∈ ms, x.slot = s := by
  unfold slotsOfMembers handlerSlot
  simp only [List.mem_filter, List.mem_range, List.any_eq_true, decide_eq_true_eq]
  exact ⟨fun h => ⟨by omega, h.2⟩, fun h => ⟨by omega, h.2⟩⟩

theorem nodup_slotsOfMembers (ms : List Member) : (slotsOfMembers ms).Nodup := List.Pairwise.filter _ List.nodup_range

/-- A list without repeats whose elements are told apart by the keys holds one element of a key, or none. -/
theorem filter_key_eq {xs : List Nat} (hx : xs.Nodup) (p : Nat → Bool) (s : Nat) (hp : ∀ x ∈ xs, p x = true ↔ x = s) :
    xs.filter p = if s ∈ xs then [s] else [] := by
  induction xs with
  | nil => simp
  | cons y r ih =>
    have hn := List.nodup_cons.1 hx
    have hr := ih hn.2 (fun x h => hp x (List.mem_cons_of_mem _ h))
    have hy := hp y (List.mem_cons_self ..)
    by_cases e : y = s
    · subst e
      rw [List.filter_cons_of_pos (hy.2 rfl), hr]
      simp [hn.1]
    · rw [List.filter_cons_of_neg (fun h => e (hy.1 h)), hr]
      simp [Ne.symm e]

end Sys2Proof.Machine
end

