-- ==== Sys2Proof/Laws/Commit.lean ====
section
/-! SUPPORT. The common effects of issue (07 R176 to R183, R193), last reads, and results of fixed latency. -/

namespace Sys2Proof.Machine

/-! ### What is kept -/

theorem SameOutside.refl (m : Mach) : SameOutside m m := ⟨rfl, fun _ => rfl, fun _ => rfl⟩

theorem SameOutside.trans {m t u : Mach} (h : SameOutside m t) (k : SameOutside t u) : SameOutside m u := by
  refine ⟨?_, fun c => ?_, fun c => ?_⟩
  · rw [k.rest, h.rest]
  · rw [k.cores c, h.cores c]
  · rw [k.shards c, h.shards c]

theorem SliceKept.refl (g : Grp) (m : Mach) : SliceKept g m m := ⟨fun _ _ _ => rfl, rfl⟩

theorem SliceKept.trans {g : Grp} {m t u : Mach} (h : SliceKept g m t) (k : SliceKept g t u) : SliceKept g m u := by
  refine ⟨fun c l hc => (k.others c l hc).trans (h.others c l hc), ?_⟩
  rw [k.own, h.own]

/-- Only what an issue may change outside the warps differs. -/
abbrev Kept (g : Grp) (m t : Mach) : Prop := SameOutside m t ∧ SliceKept g m t

theorem Kept.refl (g : Grp) (m : Mach) : Kept g m m := ⟨.refl m, .refl g m⟩
theorem Kept.trans {g : Grp} {m t u : Mach} (h : Kept g m t) (k : Kept g t u) : Kept g m u := ⟨h.1.trans k.1, h.2.trans k.2⟩

theorem Kept.of_warps {g : Grp} {m t : Mach} (h : t = { m with warps := t.warps }) : Kept g m t := by
  rw [h]; exact ⟨⟨rfl, fun _ => rfl, fun _ => rfl⟩, ⟨fun _ _ _ => rfl, rfl⟩⟩

theorem Kept.modSlc (g : Grp) (m : Mach) (f : Slice → Slice)
    (hf : ∀ s, f s = { s with wbs := (f s).wbs, latches := (f s).latches, chain := (f s).chain, mark := (f s).mark }) : Kept g m (m.modSlc g.core g.slice f) := by
  refine ⟨⟨rfl, fun _ => rfl, fun _ => rfl⟩, ⟨fun c k h => ?_, ?_⟩⟩
  · rw [Mach.slc_modSlc, if_neg h]
  · rw [Mach.slc_modSlc, if_pos rfl]; exact hf _

theorem Kept.modCore (g : Grp) (m : Mach) (c : Nat) (f : Core → Core) (hf : ∀ k, f k = { k with bank := (f k).bank }) : Kept g m (m.modCore c f) := by
  refine ⟨⟨rfl, fun d => ?_, fun _ => rfl⟩, ⟨fun _ _ _ => rfl, rfl⟩⟩
  rw [Mach.core_modCore]
  split
  · rename_i h; subst h; exact hf _
  · rfl

theorem Kept.modShard (g : Grp) (m : Mach) (c : Nat) (f : Shard → Shard) (hf : ∀ k, f k = { k with nodes := (f k).nodes }) : Kept g m (m.modShard c f) := by
  refine ⟨⟨rfl, fun _ => rfl, fun d => ?_⟩, ⟨fun _ _ _ => rfl, rfl⟩⟩
  rw [Mach.shard_modShard]
  split
  · rename_i h; subst h; exact hf _
  · rfl

theorem Kept.addWbs (g : Grp) (m : Mach) (ws : List Wb) : Kept g m (m.addWbs g.core g.slice ws) := by
  induction ws generalizing m with
  | nil => exact .refl g m
  | cons w r ih => exact (Kept.modSlc g m _ (fun _ => rfl)).trans (ih _)

/-! ### Threads of a warp -/

theorem foldl_modThread_frame {α : Type} (xs : List α) (ln : α → Nat) (f : α → Thread → Thread) (w : Warp) :
    xs.foldl (fun w x => w.modThread (ln x) (f x)) w = { w with threads := (xs.foldl (fun w x => w.modThread (ln x) (f x)) w).threads } := by
  induction xs generalizing w with
  | nil => rfl
  | cons x r ih => exact (ih (w.modThread (ln x) (f x))).trans rfl

theorem foldl_modThread_thread {α : Type} (xs : List α) (ln : α → Nat) (f : α → Thread → Thread) (w : Warp) (l : Nat) :
    (xs.foldl (fun w x => w.modThread (ln x) (f x)) w).thread l =
      if w.threads.has l = true then (xs.filter (fun x => ln x = l)).foldl (fun t x => f x t) (w.thread l) else w.thread l := by
  induction xs generalizing w with
  | nil => simp
  | cons x r ih =>
    simp only [List.foldl_cons]
    rw [ih, Warp.hasThread_modThread, Warp.thread_modThread]
    by_cases hk : ln x = l
    · subst hk
      rw [List.filter_cons_of_pos (by simp)]
      by_cases hh : w.threads.has (ln x) = true <;> simp [hh]
    · rw [List.filter_cons_of_neg (by simp [hk])]
      simp [Ne.symm hk]

/-- A change that does nothing the second time. -/
theorem foldl_idem {α β : Type} (xs : List α) (f : β → β) (hf : ∀ b, f (f b) = f b) (b : β) : xs.foldl (fun b _ => f b) b = if xs = [] then b else f b := by
  induction xs generalizing b with
  | nil => rfl
  | cons x r ih =>
    simp only [List.foldl_cons, ih]
    by_cases h : r = [] <;> simp [h, hf]

/-- A fold whose step does the same for every member of the list. -/
theorem foldl_same {α β : Type} (xs : List α) (f : β → α → β) (h : β → β) (hf : ∀ x ∈ xs, ∀ b, f b x = h b) (b : β) : xs.foldl f b = xs.foldl (fun b _ => h b) b := by
  induction xs generalizing b with
  | nil => rfl
  | cons x r ih =>
    simp only [List.foldl_cons]
    rw [hf x (List.mem_cons_self ..), ih (fun y hy => hf y (List.mem_cons_of_mem _ hy))]

/-! ### Payment -/

theorem Grp.pay_eq (g : Grp) (m : Mach) : ∃ (ends skip : Bool) (back : Nat),
    g.pay m = (let m1 := if ends then m.modSlc g.core g.slice (fun s => { s with mark := none }) else m
      let m2 := if back = 0 then m1 else m1.modCore g.core (fun c => { c with bank := c.bank + back })
      if skip then m2 else
        (m2.modCore g.core (fun c => { c with bank := c.bank - g.price })).modShard (shardOf g.core) (fun s => { s with nodes := g.nodeKeys.foldl (fun t k => t.set k (t.get k 0 - g.price)) s.nodes })) :=
  ⟨_, _, _, rfl⟩

theorem Grp.pay_kept (g : Grp) (m : Mach) : Kept g m (g.pay m) := by
  obtain ⟨ends, skip, back, h⟩ := g.pay_eq m
  rw [h]
  have h1 : Kept g m (if ends then m.modSlc g.core g.slice (fun s => { s with mark := none }) else m) := by
    cases ends <;> simp only [Bool.false_eq_true, if_false, if_true]
    · exact .refl g m
    · exact .modSlc g m _ (fun _ => rfl)
  revert h1
  generalize (if ends then m.modSlc g.core g.slice (fun s => { s with mark := none }) else m) = m1
  intro h1
  by_cases hb : back = 0
  · cases skip <;> simp only [hb, if_true, Bool.false_eq_true, if_false]
    · exact (h1.trans (.modCore g m1 g.core _ (fun _ => rfl))).trans (.modShard g _ _ _ (fun _ => rfl))
    · exact h1
  · have h2 := h1.trans (.modCore g m1 g.core (fun c => { c with bank := c.bank + back }) (fun _ => rfl))
    cases skip <;> simp only [hb, if_true, Bool.false_eq_true, if_false]
    · exact (h2.trans (.modCore g _ g.core _ (fun _ => rfl))).trans (.modShard g _ _ _ (fun _ => rfl))
    · exact h2

theorem Grp.pay_warps (g : Grp) (m : Mach) : (g.pay m).warps = m.warps := by
  obtain ⟨ends, skip, back, h⟩ := g.pay_eq m
  rw [h]; cases ends <;> cases skip <;> by_cases hb : back = 0 <;> simp only [hb, if_true, if_false, Bool.false_eq_true] <;> rfl

theorem Grp.pay_queue (g : Grp) (m : Mach) :
    ((g.pay m).slc g.core g.slice).wbs = (m.slc g.core g.slice).wbs ∧ ((g.pay m).slc g.core g.slice).chain = (m.slc g.core g.slice).chain := by
  obtain ⟨ends, skip, back, h⟩ := g.pay_eq m
  rw [h]
  cases ends <;> cases skip <;> by_cases hb : back = 0 <;> simp [hb, Mach.slc_modSlc]

/-! ### The common effects -/

/-- SETF armed in the warps for which it is to be signalled. -/
def Grp.armed (g : Grp) (m : Mach) : Mach := (g.slots.filter g.arms).foldl (fun m s => m.modWarp g.core s (fun w => w.arm g.o.ctl.setf.toNat)) m

/-- A warp that replays has taken up what it waited with. -/
def Grp.settled (g : Grp) (m : Mach) : Mach := g.replays.foldl (fun m s => m.modWarp g.core s (g.takeUp s)) m

/-- The write-backs that signal SETF of a fixed-latency instruction. -/
def Grp.flagWbs (g : Grp) : List Wb :=
  if g.spec.cls = .V ∨ 12 ≤ g.o.ctl.setf.toNat then [] else g.slots.map (fun s => { due := g.cyc + g.latency, slot := s, what := .flag g.o.ctl.setf.toNat })

/-- The slice's chain after the issue. -/
def Grp.chainStep (g : Grp) (s : Slice) : Slice :=
  match g.chain?, g.o.ctl.chain with
  | some c, true => { s with chain := some { c with next := g.pc + 16, count := c.count + 1 } }
  | some _, false => { s with chain := none }
  | none, true => { s.endChain with chain := some { first := g.pc, next := g.pc + 16, members := g.members, count := 1, clears := [] } }
  | none, false => s.endChain

theorem Grp.chainStep_kept (g : Grp) (s : Slice) :
    g.chainStep s = { s with wbs := (g.chainStep s).wbs, latches := (g.chainStep s).latches, chain := (g.chainStep s).chain, mark := (g.chainStep s).mark } := by
  unfold Grp.chainStep Slice.endChain
  split <;> rfl

theorem Grp.chainStep_wbs (g : Grp) (s : Slice) (w : Wb) :
    w ∈ (g.chainStep s).wbs ↔ w ∈ s.wbs := by
  unfold Grp.chainStep Slice.endChain
  split <;> rfl

theorem foldl_wbAt (g : Grp) (ss : List Nat) (k : WbWhat) (m : Mach) :
    ss.foldl (fun m s => g.wbAt m s k) m = m.addWbs g.core g.slice (ss.map (fun s => { due := g.cyc + g.latency, slot := s, what := k })) := by
  induction ss generalizing m with
  | nil => rfl
  | cons s r ih => exact ih _

theorem Grp.commit_eq (g : Grp) (m : Mach) :
    g.commit m = g.members.foldl (fun m x => m.modWarp g.core x.slot (fun w => w.modThread x.lane g.advance))
      (g.settled (((g.armed (g.pay m)).addWbs g.core g.slice g.flagWbs).modSlc g.core g.slice g.chainStep)) := by
  have e : (if g.spec.cls = .V ∨ 12 ≤ g.o.ctl.setf.toNat then g.armed (g.pay m)
      else g.slots.foldl (fun m s => g.wbAt m s (.flag g.o.ctl.setf.toNat)) (g.armed (g.pay m))) = (g.armed (g.pay m)).addWbs g.core g.slice g.flagWbs := by
    unfold Grp.flagWbs
    split
    · rfl
    · exact foldl_wbAt ..
  rw [← e]
  unfold Grp.commit Grp.chainStep Grp.settled
  simp only
  cases g.chain? <;> cases g.o.ctl.chain <;> rfl

theorem Grp.armed_kept (g : Grp) (m : Mach) : Kept g m (g.armed m) := .of_warps (foldl_modWarp_frame ..)

theorem Grp.settled_kept (g : Grp) (m : Mach) : Kept g m (g.settled m) := .of_warps (foldl_modWarp_frame ..)

theorem Grp.commit_kept (g : Grp) (m : Mach) : Kept g m (g.commit m) := by
  rw [g.commit_eq]
  exact (((((g.pay_kept m).trans (g.armed_kept _)).trans (.addWbs g _ _)).trans (.modSlc g _ _ g.chainStep_kept)).trans (g.settled_kept _)).trans (.of_warps (foldl_modWarp_frame ..))

theorem Grp.placedIn.slot_lt {g : Grp} {m : Mach} (h : g.placedIn m) (x : Member) (hx : x ∈ g.members) : x.slot < 128 := Nat.lt_of_le_of_lt (h.1 x hx).1 (by decide)

theorem Grp.placedIn.has {g : Grp} {m : Mach} (h : g.placedIn m) (x : Member) (hx : x ∈ g.members) : m.warps.has (wk g.core x.slot) = true := has_of_thread m _ _ _ (h.1 x hx).2

/-- Being placed rests on the warps alone. -/
theorem Grp.placedIn.of_warps {g : Grp} {m t : Mach} (h : g.placedIn m) (e : t.warps = m.warps) : g.placedIn t := by
  have hw : ∀ c l, t.warp c l = m.warp c l := fun c l => by unfold Mach.warp; rw [e]
  exact ⟨fun x hx => by rw [hw]; exact h.1 x hx, h.2⟩

/-- A warp with SETF armed where it has a member and is to be signalled. -/
def Grp.armedWarp (g : Grp) (c l : Nat) (w : Warp) : Warp :=
  if c = g.core ∧ (∃ x ∈ g.members, x.slot = l) ∧ g.arms l = true then w.arm g.o.ctl.setf.toNat else w

theorem Grp.armed_warp (g : Grp) (m : Mach) (c l : Nat) (hl : l < 128) (hp : g.placedIn m) : (g.armed m).warp c l = g.armedWarp c l (m.warp c l) := by
  unfold Grp.armed Grp.armedWarp
  rw [foldl_modWarp_warp (sl := fun s => s) (f := fun _ w => w.arm g.o.ctl.setf.toNat)]
  by_cases hc : c = g.core
  · subst hc
    have hn : (g.slots.filter g.arms).Nodup := List.Pairwise.filter _ (nodup_slotsOfMembers g.members)
    have hk : (g.slots.filter g.arms).filter (fun s => decide (wk g.core s = wk g.core l)) = if l ∈ (g.slots.filter g.arms) then [l] else [] :=
      filter_key_eq hn _ l (fun s _ => by rw [decide_eq_true_iff]; unfold wk; omega)
    rw [hk]
    have hf : l ∈ (g.slots.filter g.arms) ↔ l ∈ slotsOfMembers g.members ∧ g.arms l = true := by unfold Grp.slots; simp
    by_cases hm : (∃ x ∈ g.members, x.slot = l) ∧ g.arms l = true
    · obtain ⟨⟨x, hx, rfl⟩, hr⟩ := hm
      have h1 : x.slot ∈ slotsOfMembers g.members := (mem_slotsOfMembers ..).2 ⟨(hp.1 x hx).1, x, hx, rfl⟩
      simp only [hf.2 ⟨h1, hr⟩, hp.has x hx, if_true, List.foldl_cons, List.foldl_nil, true_and]
      rw [if_pos ⟨⟨x, hx, rfl⟩, hr⟩]
    · have : l ∉ (g.slots.filter g.arms) := fun h => hm ⟨((mem_slotsOfMembers ..).1 (hf.1 h).1).2, (hf.1 h).2⟩
      simp only [this, if_false, List.foldl_nil, ite_self, true_and, hm]
  · have : ((g.slots.filter g.arms).filter (fun s => decide (wk g.core s = wk c l))) = [] := by
      refine List.filter_eq_nil_iff.2 (fun s hs e => ?_)
      have h1 := ((mem_slotsOfMembers g.members s).1 (List.mem_filter.1 hs).1).1
      have h2 := of_decide_eq_true e
      unfold handlerSlot at h1
      unfold wk at h2
      omega
    simp only [this, List.foldl_nil, ite_self, hc, false_and, if_false]

/-- A warp that replays, having taken up what it waited with. -/
def Grp.settledWarp (g : Grp) (c l : Nat) (w : Warp) : Warp := if c = g.core ∧ l ∈ g.replays then g.takeUp l w else w

theorem Grp.takeUp_takeUp (g : Grp) (l : Nat) (w : Warp) : g.takeUp l (g.takeUp l w) = g.takeUp l w := by
  unfold Grp.takeUp
  simp only [BitVec.or_assoc, BitVec.or_self]

theorem Grp.settled_warp (g : Grp) (m : Mach) (c l : Nat) (hl : l < 128) (hp : g.placedIn m) : (g.settled m).warp c l = g.settledWarp c l (m.warp c l) := by
  unfold Grp.settled Grp.settledWarp
  have hs : ∀ s ∈ g.replays, s < 128 := fun s h => by
    obtain ⟨x, hx, rfl⟩ := hp.2 s h
    exact hp.slot_lt x hx
  rw [foldl_modWarp_warp (sl := fun s => s) (f := fun s w => g.takeUp s w),
    foldl_same _ (fun w s => g.takeUp s w) (g.takeUp l) (fun s h w => by
      have h1 := hs s (List.mem_filter.1 h).1
      have h2 := of_decide_eq_true (List.mem_filter.1 h).2
      unfold wk at h2
      rw [show s = l by omega]),
    foldl_idem _ (g.takeUp l) (g.takeUp_takeUp l)]
  by_cases h : c = g.core ∧ l ∈ g.replays
  · obtain ⟨rfl, h⟩ := h
    obtain ⟨x, hx, rfl⟩ := hp.2 l h
    have : g.replays.filter (fun s => decide (wk g.core s = wk g.core x.slot)) ≠ [] := fun e => by
      have := List.filter_eq_nil_iff.1 e x.slot h
      simp at this
    rw [if_pos (hp.has x hx), if_neg this, if_pos ⟨rfl, h⟩]
  · have : g.replays.filter (fun s => decide (wk g.core s = wk c l)) = [] := by
      refine List.filter_eq_nil_iff.2 (fun s hm e => h ?_)
      have h2 := of_decide_eq_true e
      have := hs s hm
      unfold wk at h2
      exact ⟨by omega, by rw [show l = s by omega]; exact hm⟩
    rw [this, if_pos rfl, ite_self, if_neg h]

theorem Grp.settledWarp_eq (g : Grp) (c l : Nat) (w : Warp) : g.settledWarp c l w =
    { w with fault := if c = g.core ∧ l ∈ g.replays then g.leftRec l else w.fault,
             faultmask := if c = g.core ∧ l ∈ g.replays then w.faultmask ||| maskOf (lanesIn g.execs l) else w.faultmask } := by
  unfold Grp.settledWarp Grp.takeUp
  split <;> rfl

theorem Grp.armedWarp_frame (g : Grp) (c l : Nat) (w : Warp) : g.armedWarp c l w = { w with flags := (g.armedWarp c l w).flags } := by
  unfold Grp.armedWarp Warp.arm
  split
  · split <;> rfl
  · rfl

/-- A warp after the threads of its members have moved on. -/
def Grp.movedWarp (g : Grp) (f : Member → Thread → Thread) (ms : List Member) (c l : Nat) (w : Warp) : Warp :=
  (ms.filter (fun x => wk g.core x.slot = wk c l)).foldl (fun w x => w.modThread x.lane (f x)) w

theorem foldl_moved_warp (g : Grp) (f : Member → Thread → Thread) (ms : List Member) (m : Mach) (c l : Nat)
    (hp : ∀ x ∈ ms, (m.warp g.core x.slot).threads.has x.lane = true) :
    (ms.foldl (fun m x => m.modWarp g.core x.slot (fun w => w.modThread x.lane (f x))) m).warp c l = g.movedWarp f ms c l (m.warp c l) := by
  rw [foldl_modWarp_warp (sl := fun x : Member => x.slot) (f := fun (x : Member) w => w.modThread x.lane (f x))]
  unfold Grp.movedWarp
  split
  · rfl
  · rename_i h
    have : ms.filter (fun x => decide (wk g.core x.slot = wk c l)) = [] := by
      refine List.filter_eq_nil_iff.2 (fun x hx e => h ?_)
      rw [← of_decide_eq_true e]; exact has_of_thread m g.core x.slot x.lane (hp x hx)
    rw [this]; rfl

theorem Grp.movedWarp_frame (g : Grp) (f : Member → Thread → Thread) (ms : List Member) (c l : Nat) (w : Warp) :
    g.movedWarp f ms c l w = { w with threads := (g.movedWarp f ms c l w).threads } := foldl_modThread_frame ..

/-- A member's thread after the move: changed by its own change, however often the list names it. -/
theorem Grp.movedWarp_member (g : Grp) (f : Member → Thread → Thread) (ms : List Member) (w : Warp) (x : Member) (hx : x ∈ ms) (hf : ∀ x t, f x (f x t) = f x t)
    (hw : w.threads.has x.lane = true) : (g.movedWarp f ms g.core x.slot w).thread x.lane = f x (w.thread x.lane) := by
  unfold Grp.movedWarp
  rw [foldl_modThread_thread (ln := fun x : Member => x.lane) (f := f), if_pos hw, List.filter_filter]
  have he : ∀ y ∈ ms.filter (fun y => decide (y.lane = x.lane) && decide (wk g.core y.slot = wk g.core x.slot)), y = x := fun y hy => by
    have h := List.mem_filter.1 hy
    have h2 := (Bool.and_eq_true _ _ ▸ h.2 : _ ∧ _)
    have ha := of_decide_eq_true h2.1
    have hb := of_decide_eq_true h2.2
    unfold wk at hb
    cases x; cases y; simp only [Member.mk.injEq] at *; omega
  have hm : x ∈ ms.filter (fun y => decide (y.lane = x.lane) && decide (wk g.core y.slot = wk g.core x.slot)) := List.mem_filter.2 ⟨hx, by simp⟩
  revert he hm
  generalize ms.filter (fun y => decide (y.lane = x.lane) && decide (wk g.core y.slot = wk g.core x.slot)) = xs
  intro he hm
  have : xs.foldl (fun t y => f y t) (w.thread x.lane) = xs.foldl (fun t _ => f x t) (w.thread x.lane) := by
    clear hm
    generalize w.thread x.lane = t
    induction xs generalizing t with
    | nil => rfl
    | cons y r ih =>
      simp only [List.foldl_cons]
      rw [he y (List.mem_cons_self ..)]
      exact ih (fun z hz => he z (List.mem_cons_of_mem _ hz)) _
  rw [this, foldl_idem xs (f x) (hf x), if_neg (fun h => by rw [h] at hm; cases hm)]

/-- The threads of other lanes and warps stay. -/
theorem Grp.movedWarp_other (g : Grp) (f : Member → Thread → Thread) (ms : List Member) (w : Warp) (c l lane : Nat) (hl : l < 128) (hs : ∀ y ∈ ms, y.slot < 128)
    (h : c ≠ g.core ∨ (⟨l, lane⟩ : Member) ∉ ms) : (g.movedWarp f ms c l w).thread lane = w.thread lane := by
  unfold Grp.movedWarp
  rw [foldl_modThread_thread (ln := fun x : Member => x.lane) (f := f), List.filter_filter]
  split
  · have : ms.filter (fun y => decide (y.lane = lane) && decide (wk g.core y.slot = wk c l)) = [] := by
      refine List.filter_eq_nil_iff.2 (fun y hy e => ?_)
      have hy2 := hs y hy
      have e' := (Bool.and_eq_true _ _ ▸ e : _ ∧ _)
      have e1 := of_decide_eq_true e'.1
      have e2 := of_decide_eq_true e'.2
      unfold wk at e2
      rcases h with h | h
      · omega
      · refine h ?_
        have : y = ⟨l, lane⟩ := by cases y; simp only [Member.mk.injEq] at *; omega
        exact this ▸ hy
    rw [this]; rfl
  · rfl

/-- A warp before its members move on: SETF is armed, and a replay taken up. -/
def Grp.readyWarp (g : Grp) (c l : Nat) (w : Warp) : Warp := g.settledWarp c l (g.armedWarp c l w)

theorem Grp.readyWarp_frame (g : Grp) (c l : Nat) (w : Warp) :
    g.readyWarp c l w =
      { w with flags := (g.armedWarp c l w).flags, fault := if c = g.core ∧ l ∈ g.replays then g.leftRec l else w.fault,
               faultmask := if c = g.core ∧ l ∈ g.replays then w.faultmask ||| maskOf (lanesIn g.execs l) else w.faultmask } := by
  unfold Grp.readyWarp
  rw [g.settledWarp_eq, g.armedWarp_frame]

theorem Grp.commit_warp (g : Grp) (m : Mach) (c l : Nat) (hl : l < 128) (hp : g.placedIn m) :
    (g.commit m).warp c l = g.movedWarp (fun _ => g.advance) g.members c l (g.readyWarp c l (m.warp c l)) := by
  have hpay : (g.pay m).warps = m.warps := g.pay_warps m
  have hw : ∀ c l, (g.pay m).warp c l = m.warp c l := fun c l => by unfold Mach.warp; rw [hpay]
  have ha : ∀ c l, l < 128 → (((g.armed (g.pay m)).addWbs g.core g.slice g.flagWbs).modSlc g.core g.slice g.chainStep).warp c l = g.armedWarp c l (m.warp c l) := fun c l hl => by
    rw [Mach.warp_modSlc, Mach.addWbs_frame]
    exact (g.armed_warp _ c l hl (hp.of_warps hpay)).trans (by rw [hw])
  have hq : g.placedIn (((g.armed (g.pay m)).addWbs g.core g.slice g.flagWbs).modSlc g.core g.slice g.chainStep) :=
    ⟨fun x hx => ⟨(hp.1 x hx).1, by rw [ha _ _ (hp.slot_lt x hx), g.armedWarp_frame]; exact (hp.1 x hx).2⟩, hp.2⟩
  have hd : ∀ c l, l < 128 → (g.settled (((g.armed (g.pay m)).addWbs g.core g.slice g.flagWbs).modSlc g.core g.slice g.chainStep)).warp c l = g.readyWarp c l (m.warp c l) :=
    fun c l hl => by rw [g.settled_warp _ c l hl hq, ha c l hl]; rfl
  rw [g.commit_eq, foldl_moved_warp, hd c l hl]
  intro x hx
  rw [hd _ _ (hp.slot_lt x hx), g.readyWarp_frame]
  exact (hp.1 x hx).2

theorem Grp.mem_commit_wbs (g : Grp) (m : Mach) (w : Wb) :
    w ∈ ((g.commit m).slc g.core g.slice).wbs ↔ w ∈ (m.slc g.core g.slice).wbs ∨ w ∈ g.flagWbs := by
  have e : (g.commit m).slc g.core g.slice = g.chainStep (((g.armed (g.pay m)).addWbs g.core g.slice g.flagWbs).slc g.core g.slice) := by
    rw [g.commit_eq, foldl_modWarp_frame g.members g.core (fun x => x.slot) (fun x w => w.modThread x.lane g.advance)]
    unfold Grp.settled
    rw [foldl_modWarp_frame g.replays g.core (fun s => s) (fun s w => g.takeUp s w)]
    exact (Mach.slc_modSlc ..).trans (if_pos rfl)
  have ha : ((g.armed (g.pay m)).slc g.core g.slice).wbs = (m.slc g.core g.slice).wbs := by
    rw [← (g.pay_queue m).1]
    unfold Grp.armed
    rw [foldl_modWarp_frame]; rfl
  rw [e, g.chainStep_wbs, Mach.mem_addWbs, ha]

end Sys2Proof.Machine
end

