-- ==== Sys2Proof/Laws/Layout.lean ====
section
/-! SUPPORT. CREATE's layout: where it does not fail (03 R70). -/

namespace Sys2Proof.Laws

open Sys2Proof Sys2Proof.Machine

/-- A page is mapped where there is a spare frame for each level above the last; no more are taken. -/
theorem mapPage_isSome (va entry : Nat) : ∀ (l : List Nat) (table : Nat) (t : Tab Byte) (spare : List Nat), (∀ x ∈ l, x ≠ 0) → l.length ≤ spare.length →
    ∃ u r, mapPage va entry (l ++ [0]) table t spare = some (u, r) ∧ spare.length ≤ r.length + l.length
  | [], table, t, spare, _, _ => ⟨_, spare, rfl, by simp⟩
  | lv :: l, table, t, spare, hz, hl => by
    have hlv : lv ≠ 0 := hz lv (by simp)
    have hr : ∀ x ∈ l, x ≠ 0 := fun x hx => hz x (by simp [hx])
    simp only [List.length_cons] at hl
    simp only [List.cons_append, mapPage, if_neg hlv]
    split
    · obtain ⟨u, r, h, hn⟩ := mapPage_isSome va entry l _ t spare hr (by omega)
      exact ⟨u, r, h, by simp only [List.length_cons]; omega⟩
    · cases spare with
      | nil => simp at hl
      | cons f s =>
        simp only [List.length_cons] at hl
        obtain ⟨u, r, h, hn⟩ := mapPage_isSome va entry l (f * 4096) _ s hr (by omega)
        exact ⟨u, r, h, by simp only [List.length_cons]; omega⟩

/-- A run of pages is mapped where there are four spare frames for each. -/
theorem mapPages_isSome (root : Nat) : ∀ (ps : List (Nat × Nat)) (t : Tab Byte) (spare : List Nat), 4 * ps.length ≤ spare.length → (mapPages root ps t spare).isSome = true
  | [], t, spare, _ => by simp [mapPages]
  | p :: r, t, spare, hl => by
    simp only [List.length_cons] at hl
    obtain ⟨u, s, h, hn⟩ := mapPage_isSome p.1 p.2 [4, 3, 2, 1] root t spare (by simp) (by simp; omega)
    simp only [mapPages, show ([4, 3, 2, 1, 0] : List Nat) = [4, 3, 2, 1] ++ [0] from rfl, h]
    exact mapPages_isSome root r u s (by simp at hn; omega)

/-- A layout is found in enough frames. -/
theorem layOut_isSome (part : Nat) (ps : List (Nat × Bool)) (mem : Tab Byte) (fs : List Nat) (h : 1 + 5 * ps.length ≤ fs.length) : (layOut part ps mem fs).isSome = true := by
  cases fs with
  | nil => simp at h
  | cons root fs =>
    simp only [List.length_cons] at h
    have hd : ¬ (fs.take ps.length).length < ps.length := by simp; omega
    have hm := mapPages_isSome (root * 4096) ((ps.zip (fs.take ps.length)).map (fun p => (p.1.1, pageEntry false (!p.1.2) true p.2))) mem (fs.drop ps.length) (by simp; omega)
    simp only [layOut, if_neg hd]
    split
    · rename_i hn; simp [hn] at hm
    · rfl

/-- Of different frames all but those of a list pass a test that the others pass. -/
theorem filter_long (p : Nat → Bool) : ∀ (l E : List Nat), l.Nodup → (∀ x ∈ l, p x = false → x ∈ E) → l.length ≤ (l.filter p).length + E.length
  | [], _, _, _ => by simp
  | x :: l, E, hn, h => by
    obtain ⟨hx, hl⟩ := List.nodup_cons.mp hn
    by_cases hp : p x = true
    · have := filter_long p l E hl (fun y hy => h y (by simp [hy]))
      simp only [List.filter_cons, hp, if_true, List.length_cons]
      omega
    · have hE : x ∈ E := h x (by simp) (by simpa using hp)
      have := filter_long p l (E.erase x) hl (fun y hy hpy => (List.mem_erase_of_ne (fun he => hx (by rw [← he]; exact hy))).mpr (h y (by simp [hy]) hpy))
      have he : (E.erase x).length = E.length - 1 := List.length_erase_of_mem hE
      have h0 : 0 < E.length := List.length_pos_of_mem hE
      simp only [List.filter_cons, hp, List.length_cons]
      simp only [Bool.false_eq_true, if_false]
      omega

/-- Frames that are owned, or hold something, or wait for a wipe, or are retired. -/
def takenFrames (e : Fw) (m : Mach) : List Nat :=
  e.owners.keys ++ e.wipes.filterMap (fun x => match x.1 with
    | .page f => some f
    | _ => none) ++ m.retired ++ m.mem.map (fun c => c.1 / 4096) ++ m.poison.map (fun g => g / 4096)

theorem taken_of_unclean (e : Fw) (m : Mach) (f : Nat) (hf : frameBacked f = true) (h : e.cleanFrame m f = false) : f ∈ takenFrames e m := by
  have key : ∀ (l : Tab Nat), l.get? f ≠ none → f ∈ l.keys := by
    intro l
    induction l with
    | nil => simp [Tab.get?]
    | cons x r ih =>
      intro hx
      by_cases hk : x.1 = f
      · simp [Tab.keys, hk]
      · have : Tab.get? r f ≠ none := by
          simpa [Tab.get?, List.find?_cons, hk, Ne.symm hk] using hx
        have := ih this
        simp only [Tab.keys, List.map_cons, List.mem_cons] at this ⊢
        exact Or.inr this
  simp only [takenFrames, List.mem_append, List.mem_map, List.mem_filterMap]
  simp only [Fw.cleanFrame, hf, Bool.true_and, Bool.and_eq_false_iff, Bool.not_eq_false', List.all_eq_false, Fw.wiping, List.any_eq_true, List.contains_iff_mem, bne_iff_ne, ne_eq,
    Decidable.not_not] at h
  rcases h with (((h | ⟨w, hw, h⟩) | h) | ⟨c, hc, h⟩) | ⟨g, hg, h⟩
  · exact Or.inl (Or.inl (Or.inl (Or.inl (key _ (by intro hn; simp [hn] at h)))))
  · refine Or.inl (Or.inl (Or.inl (Or.inr ⟨w, hw, ?_⟩)))
    rw [show w.1 = WipeRes.page f by simpa using h]
  · exact Or.inl (Or.inl (Or.inr h))
  · exact Or.inl (Or.inr ⟨c, hc, h⟩)
  · exact Or.inr ⟨g, hg, h⟩

theorem createPages_length (part cores : Nat) : (createPages part cores).length = 20738 + 32768 * cores := by
  simp only [createPages, regionRun, List.length_append, List.length_map, List.length_range]
  omega

/-- A run of frames has enough of them clean where few are taken. -/
theorem clean_frames (s : State) (n lo len : Nat) (hc : ∀ n, n < 32 → bit s.fw.win.chans n = true) (hr : ∀ i, i < len → inTier1 (lo + i) = true)
    (hl : n + (takenFrames s.fw s.m).length ≤ len) :
    n ≤ (((List.range len).map (lo + ·)).filter (fun f => onChannels s.fw.win.chans f && s.fw.cleanFrame s.m f)).length := by
  have hn : ((List.range len).map (lo + ·)).Nodup := by
    rw [List.nodup_iff_pairwise_ne, List.pairwise_map]
    exact List.Pairwise.imp (fun {a b} (hab : a ≠ b) => by omega) (List.nodup_iff_pairwise_ne.mp List.nodup_range)
  have h := filter_long (fun f => onChannels s.fw.win.chans f && s.fw.cleanFrame s.m f) _ (takenFrames s.fw s.m) hn (fun f hf hp => by
    rw [List.mem_map] at hf
    obtain ⟨i, hi, rfl⟩ := hf
    have h1 := hr i (List.mem_range.mp hi)
    have ho : onChannels s.fw.win.chans (lo + i) = true := by simp only [onChannels, h1, Bool.true_and]; exact hc _ (Nat.mod_lt _ (by decide))
    have hb : frameBacked (lo + i) = true := by simp only [inTier1, Bool.and_eq_true, decide_eq_true_eq] at h1; simp only [frameBacked, Bool.or_eq_true, Bool.and_eq_true, decide_eq_true_eq]; omega
    exact taken_of_unclean s.fw s.m _ hb (by simpa [ho] using hp))
  rw [List.length_map, List.length_range] at h
  omega

/-- On all channels, with few frames taken, CREATE finds its layout. -/
theorem layout_isSome (s : State) (hc : ∀ n, n < 32 → bit s.fw.win.chans n = true)
    (hl : 103691 + 163840 * (coresOf s.fw.win.mask).length + (takenFrames s.fw s.m).length ≤ 0x8000000) : s.layout.isSome = true := by
  have hl : 1 + 5 * (createPages s.fw.win.part (coresOf s.fw.win.mask).length).length + (takenFrames s.fw s.m).length ≤ 0x8000000 := by rw [createPages_length]; omega
  have h := clean_frames s _ 0x10000000 0x8000000 hc (fun i hi => by simp only [inTier1, Bool.and_eq_true, decide_eq_true_eq]; omega) hl
  have hf : tier1Frames = (List.range 0x8000000).map (0x10000000 + ·) := by rw [tier1Frames]
  rw [← hf] at h
  unfold State.layout
  exact layOut_isSome s.fw.win.part (createPages s.fw.win.part (coresOf s.fw.win.mask).length) s.m.mem _ h

end Sys2Proof.Laws
end

