-- ==== Sys2Proof/Laws/Memory.lean ====
section
/-! SUPPORT. Memory: what a byte reads as after a byte write, and that every operation on memory keeps its canonical form (03 R66; log 10). -/

namespace Sys2Proof.Machine

theorem memGet_memPut (t : Tab Byte) (a c : Nat) (b : Byte) : memGet (memPut t a b) c = if c = a then b else memGet t c := by
  unfold memGet memPut
  by_cases hb : b = 0
  · subst hb; simp only [if_true, Tab.get_erase]
  · simp only [if_neg hb, Tab.get_set]

theorem wf_filter (t : Tab Byte) (p : Nat × Byte → Bool) (h : Memory.wf t) : Memory.wf (t.filter p) :=
  ⟨Tab.sorted_filter t p h.1, List.all_eq_true.2 (fun c hc => List.all_eq_true.1 h.2 c (List.mem_filter.1 hc).1)⟩

theorem wf_set (t : Tab Byte) (a : Nat) (b : Byte) (hb : b ≠ 0) (h : Memory.wf t) : Memory.wf (t.set a b) := by
  refine ⟨Tab.sorted_set t a b h.1, List.all_eq_true.2 (fun c hc => ?_)⟩
  rcases Tab.mem_set t a b c hc with rfl | hc
  · simpa using hb
  · exact List.all_eq_true.1 h.2 c hc

theorem memPut_wf (t : Tab Byte) (a : Nat) (b : Byte) (h : Memory.wf t) : Memory.wf (memPut t a b) := by
  unfold memPut
  split
  · exact wf_filter t _ h
  · rename_i hb; exact wf_set t a b hb h

theorem memWrite_wf (n a v : Nat) (t : Tab Byte) (h : Memory.wf t) : Memory.wf (memWrite t a n v) := by
  induction n generalizing a v t with
  | zero => exact h
  | succ n ih => exact ih _ _ _ (memPut_wf t a _ h)

theorem memPutWords_wf (ws : List Nat) (a : Nat) (t : Tab Byte) (h : Memory.wf t) : Memory.wf (memPutWords t a ws) := by
  induction ws generalizing a t with
  | nil => exact h
  | cons w r ih => exact ih _ _ (memWrite_wf 8 a w t h)

theorem markEntry_wf (t : Tab Byte) (l : Leaf) (k : AKind) (h : Memory.wf t) : Memory.wf (markEntry t l k) := memPut_wf t _ _ h

theorem wipePages_wf (t : Tab Byte) (fs : List Nat) (h : Memory.wf t) : Memory.wf (wipePages t fs) := wf_filter t _ h

theorem moveBytes_wf (t : Tab Byte) (src dst n : Nat) (h : Memory.wf t) : Memory.wf (moveBytes t src dst n) := by
  unfold moveBytes
  have hs : ∀ c ∈ t.filter (fun c => src ≤ c.1 && c.1 < src + n), c.2 ≠ 0 := fun c hc => by
    simpa using List.all_eq_true.1 h.2 c (List.mem_filter.1 hc).1
  revert hs
  generalize t.filter (fun c => src ≤ c.1 && c.1 < src + n) = xs
  have ht := wf_filter t (fun c => !(dst ≤ c.1 && c.1 < dst + n)) h
  revert ht
  generalize t.filter (fun c => !(dst ≤ c.1 && c.1 < dst + n)) = u
  induction xs generalizing u with
  | nil => intro hu _; exact hu
  | cons c r ih =>
    intro hu hs
    exact ih _ (wf_set u _ _ (hs c (List.mem_cons_self ..)) hu) (fun d hd => hs d (List.mem_cons_of_mem _ hd))

theorem mapPage_wf (va entry : Nat) (lvs : List Nat) (table : Nat) (t : Tab Byte) (spare : List Nat) (h : Memory.wf t) :
    ∀ u r, mapPage va entry lvs table t spare = some (u, r) → Memory.wf u := by
  induction lvs generalizing table t spare with
  | nil => intro u r e; cases e
  | cons lv rest ih =>
    intro u r e
    unfold mapPage at e
    simp only at e
    split at e
    · cases e; exact memWrite_wf 8 _ _ t h
    · split at e
      · exact ih _ _ _ h u r e
      · split at e
        · cases e
        · exact ih _ _ _ (memWrite_wf 8 _ _ t h) u r e

theorem mapPages_wf (root : Nat) (ps : List (Nat × Nat)) (t : Tab Byte) (spare : List Nat) (h : Memory.wf t) : ∀ u r, mapPages root ps t spare = some (u, r) → Memory.wf u := by
  induction ps generalizing t spare with
  | nil => intro u r e; cases e; exact h
  | cons p q ih =>
    intro u r e
    unfold mapPages at e
    split at e
    · rename_i t1 s1 he; exact ih _ _ (mapPage_wf _ _ _ _ _ _ h _ _ he) u r e
    · cases e

theorem layOut_wf (part : Nat) (ps : List (Nat × Bool)) (mem : Tab Byte) (fs : List Nat) (l : Layout) (h : Memory.wf mem) (e : layOut part ps mem fs = some l) : Memory.wf l.mem := by
  cases fs with
  | nil => cases e
  | cons root fs =>
    unfold layOut at e
    simp only at e
    split at e
    · cases e
    · split at e
      · cases e
      · rename_i m1 r1 he; cases e; exact mapPages_wf _ _ _ _ h _ _ he

theorem tierWrite_wf (m : Mach) (pa n v : Nat) (h : Memory.wf m.mem) : Memory.wf (m.tierWrite pa n v).mem := by
  unfold Mach.tierWrite
  split
  · exact memWrite_wf n pa v _ h
  · simp only
    split
    · exact memWrite_wf n pa v _ h
    · exact memWrite_wf n pa v _ h

theorem walkTo_wf (e : Fw) (m : Mach) (part va : Nat) (k : AKind) (core : Option (Nat × Nat)) (h : Memory.wf m.mem) : Memory.wf (walkTo e m part va k core).1.mem := by
  unfold walkTo
  split
  · exact h
  · split
    · exact h
    · cases core <;> simp only <;> split <;> first | exact markEntry_wf _ _ _ h | exact h

theorem translate_wf (e : Fw) (m : Mach) (core part va : Nat) (k : AKind) (slice : Nat) (h : Memory.wf m.mem) : Memory.wf (translate e m core part va k slice).1.mem := by
  unfold translate
  split
  · exact walkTo_wf e m part va k _ h
  · split
    · exact h
    · split
      · exact h
      · split
        · exact h
        · exact walkTo_wf e _ part va k _ h

theorem writeRecord_wf (e : Fw) (part : Nat) (ws : List Nat) (m : Mach) (va : Nat) (h : Memory.wf m.mem) : Memory.wf (writeRecord e m part va ws).1.mem := by
  induction ws generalizing m va with
  | nil => exact h
  | cons w r ih =>
    unfold writeRecord
    have hw := walkTo_wf e m part va .store none h
    split
    · rename_i he; rw [he] at hw; exact ih _ _ hw
    · rename_i he; rw [he] at hw; exact ih _ _ (memWrite_wf 8 _ _ _ hw)

theorem firmwarePut_wf (e : Fw) (part : Nat) (ws : List Nat) (m : Mach) (va : Nat) (h : Memory.wf m.mem) : Memory.wf (firmwarePut e part m va ws).mem := by
  induction ws generalizing m va with
  | nil => exact h
  | cons w r ih =>
    unfold firmwarePut
    split
    · exact ih _ _ (memWrite_wf 8 _ _ _ h)
    · exact ih _ _ h

theorem reset_memory_wf : Memory.wf State.reset.m.mem := ⟨rfl, rfl⟩

end Sys2Proof.Machine
end

