-- ==== Sys2Proof/Laws/PerInstr.lean ====
section
/-! SUPPORT. A lemma per constructor of Instr: an instruction word's mnemonic and record build the instruction again, and its slot of the opcode map names that mnemonic for every record whose MOD value selects it (06 R151, R152). -/

namespace Sys2Proof.Laws.Slot

/-- The instruction's mnemonic builds it, and its opcode with its MOD value selects that mnemonic. A step without an instruction word has no mnemonic and nothing to say. -/
def Statement (i : Instr) : Prop :=
  ∀ k o, i.mnOp? = some (k, o) → k.build o = i ∧ (k.selOk o = true → selectMn k.opc o = some k)

/-- A slot of one row. -/
theorem single (k : Mn) (o : Op) (h : ((opRow (k.opc / 32))[k.opc % 32]?).getD [] = [k]) (hs : k.selOk o = true) : selectMn k.opc o = some k := by
  simp [selectMn, h, hs]

/-- A slot whose rows before the one selected have another value under the same mask. -/
theorem among (k : Mn) (o : Op) (pre post : List Mn) (h : ((opRow (k.opc / 32))[k.opc % 32]?).getD [] = pre ++ k :: post)
    (hp : ∀ j ∈ pre, j.modSel.1 = k.modSel.1 ∧ j.modSel.2 ≠ k.modSel.2) (hs : k.selOk o = true) : selectMn k.opc o = some k := by
  unfold selectMn
  rw [h, List.find?_append]
  have hn : pre.find? (fun m => m.selOk o) = none := by
    rw [List.find?_eq_none]
    intro j hj hjs
    obtain ⟨h1, h2⟩ := hp j hj
    simp only [Mn.selOk, beq_iff_eq] at hs hjs
    exact h2 (by rw [← hjs, h1, hs])
  simp [hn, hs]

/-- The statement of an instruction word. -/
theorem word {i : Instr} {k : Mn} {o : Op} (hi : i.mnOp? = some (k, o)) (hb : k.build o = i) (hs : k.selOk o = true → selectMn k.opc o = some k) : Statement i := by
  intro k' o' h
  rw [hi] at h
  cases h
  exact ⟨hb, hs⟩

/-- The statement of a step without an instruction word. -/
theorem noWord {i : Instr} (hi : i.mnOp? = none) : Statement i := by
  intro k o h
  rw [hi] at h
  cases h

theorem nop (o : Op) : Statement (.nop o) := word rfl rfl (single .nop o rfl)
theorem bra (o : Op) : Statement (.bra o) := word rfl rfl (single .bra o rfl)
theorem brx (o : Op) : Statement (.brx o) := word rfl rfl (single .brx o rfl)
theorem call (o : Op) : Statement (.call o) := word rfl rfl (single .call o rfl)
theorem callx (o : Op) : Statement (.callx o) := word rfl rfl (single .callx o rfl)
theorem ret (o : Op) : Statement (.ret o) := word rfl rfl (single .ret o rfl)
theorem exit (o : Op) : Statement (.exit o) := word rfl rfl (single .exit o rfl)
theorem yield (o : Op) : Statement (.yield o) := word rfl rfl (single .yield o rfl)
theorem beat (o : Op) : Statement (.beat o) := word rfl rfl (single .beat o rfl)
theorem enrol (o : Op) : Statement (.enrol o) := word rfl rfl (single .enrol o rfl)
theorem park (o : Op) : Statement (.park o) := word rfl rfl (single .park o rfl)
theorem strike (o : Op) : Statement (.strike o) := word rfl rfl (single .strike o rfl)
theorem demote (o : Op) : Statement (.demote o) := word rfl rfl (single .demote o rfl)
theorem kill (o : Op) : Statement (.kill o) := word rfl rfl (single .kill o rfl)
theorem iadd (o : Op) : Statement (.iadd o) := word rfl rfl (single .iadd o rfl)
theorem isub (o : Op) : Statement (.isub o) := word rfl rfl (single .isub o rfl)
theorem imul (o : Op) : Statement (.imul o) := word rfl rfl (single .imul o rfl)
theorem imulh (o : Op) : Statement (.imulh o) := word rfl rfl (single .imulh o rfl)
theorem imac (o : Op) : Statement (.imac o) := word rfl rfl (single .imac o rfl)
theorem imacw (o : Op) : Statement (.imacw o) := word rfl rfl (single .imacw o rfl)
theorem idiv (o : Op) : Statement (.idiv o) := word rfl rfl (single .idiv o rfl)
theorem irem (o : Op) : Statement (.irem o) := word rfl rfl (single .irem o rfl)
theorem imin (o : Op) : Statement (.imin o) := word rfl rfl (single .imin o rfl)
theorem imax (o : Op) : Statement (.imax o) := word rfl rfl (single .imax o rfl)
theorem iabs (o : Op) : Statement (.iabs o) := word rfl rfl (single .iabs o rfl)
theorem ineg (o : Op) : Statement (.ineg o) := word rfl rfl (single .ineg o rfl)
theorem iadd64 (o : Op) : Statement (.iadd64 o) := word rfl rfl (single .iadd64 o rfl)
theorem isub64 (o : Op) : Statement (.isub64 o) := word rfl rfl (single .isub64 o rfl)
theorem imul64 (o : Op) : Statement (.imul64 o) := word rfl rfl (single .imul64 o rfl)
theorem imac64 (o : Op) : Statement (.imac64 o) := word rfl rfl (single .imac64 o rfl)
theorem icmp (o : Op) : Statement (.icmp o) := word rfl rfl (single .icmp o rfl)
theorem icmp64 (o : Op) : Statement (.icmp64 o) := word rfl rfl (single .icmp64 o rfl)
theorem sel (o : Op) : Statement (.sel o) := word rfl rfl (single .sel o rfl)
theorem lea (o : Op) : Statement (.lea o) := word rfl rfl (single .lea o rfl)
theorem bcnt (o : Op) : Statement (.bcnt o) := word rfl rfl (single .bcnt o rfl)
theorem lzc (o : Op) : Statement (.lzc o) := word rfl rfl (single .lzc o rfl)
theorem bitrev (o : Op) : Statement (.bitrev o) := word rfl rfl (single .bitrev o rfl)
theorem idot4 (o : Op) : Statement (.idot4 o) := word rfl rfl (single .idot4 o rfl)
theorem and (o : Op) : Statement (.and o) := word rfl rfl (single .and o rfl)
theorem or (o : Op) : Statement (.or o) := word rfl rfl (single .or o rfl)
theorem xor (o : Op) : Statement (.xor o) := word rfl rfl (single .xor o rfl)
theorem not (o : Op) : Statement (.not o) := word rfl rfl (single .not o rfl)
theorem logic3 (o : Op) : Statement (.logic3 o) := word rfl rfl (single .logic3 o rfl)
theorem shl (o : Op) : Statement (.shl o) := word rfl rfl (single .shl o rfl)
theorem shr (o : Op) : Statement (.shr o) := word rfl rfl (single .shr o rfl)
theorem sar (o : Op) : Statement (.sar o) := word rfl rfl (single .sar o rfl)
theorem rot (o : Op) : Statement (.rot o) := word rfl rfl (single .rot o rfl)
theorem shl64 (o : Op) : Statement (.shl64 o) := word rfl rfl (single .shl64 o rfl)
theorem shr64 (o : Op) : Statement (.shr64 o) := word rfl rfl (single .shr64 o rfl)
theorem sar64 (o : Op) : Statement (.sar64 o) := word rfl rfl (single .sar64 o rfl)
theorem bfe (o : Op) : Statement (.bfe o) := word rfl rfl (single .bfe o rfl)
theorem bfi (o : Op) : Statement (.bfi o) := word rfl rfl (single .bfi o rfl)
theorem bmsk (o : Op) : Statement (.bmsk o) := word rfl rfl (single .bmsk o rfl)
theorem bperm (o : Op) : Statement (.bperm o) := word rfl rfl (single .bperm o rfl)
theorem shfn (o : Op) : Statement (.shfn o) := word rfl rfl (single .shfn o rfl)
theorem plop (o : Op) : Statement (.plop o) := word rfl rfl (single .plop o rfl)
theorem pmov (o : Op) : Statement (.pmov o) := word rfl rfl (single .pmov o rfl)
theorem p2v (o : Op) : Statement (.p2v o) := word rfl rfl (single .p2v o rfl)
theorem v2p (o : Op) : Statement (.v2p o) := word rfl rfl (single .v2p o rfl)
theorem smov (o : Op) : Statement (.smov o) := word rfl rfl (single .smov o rfl)
theorem siadd (o : Op) : Statement (.siadd o) := word rfl rfl (single .siadd o rfl)
theorem simul (o : Op) : Statement (.simul o) := word rfl rfl (single .simul o rfl)
theorem sand (o : Op) : Statement (.sand o) := word rfl rfl (single .sand o rfl)
theorem sor (o : Op) : Statement (.sor o) := word rfl rfl (single .sor o rfl)
theorem sxor (o : Op) : Statement (.sxor o) := word rfl rfl (single .sxor o rfl)
theorem sshl (o : Op) : Statement (.sshl o) := word rfl rfl (single .sshl o rfl)
theorem sshr (o : Op) : Statement (.sshr o) := word rfl rfl (single .sshr o rfl)
theorem scmp (o : Op) : Statement (.scmp o) := word rfl rfl (single .scmp o rfl)
theorem v2s (o : Op) : Statement (.v2s o) := word rfl rfl (single .v2s o rfl)
theorem s2v (o : Op) : Statement (.s2v o) := word rfl rfl (single .s2v o rfl)
theorem srd (o : Op) : Statement (.srd o) := word rfl rfl (single .srd o rfl)
theorem swr (o : Op) : Statement (.swr o) := word rfl rfl (single .swr o rfl)
theorem segld (o : Op) : Statement (.segld o) := word rfl rfl (single .segld o rfl)
theorem segrd (o : Op) : Statement (.segrd o) := word rfl rfl (single .segrd o rfl)
theorem flagrd (o : Op) : Statement (.flagrd o) := word rfl rfl (single .flagrd o rfl)
theorem flagclr (o : Op) : Statement (.flagclr o) := word rfl rfl (single .flagclr o rfl)
theorem cctlIinv (o : Op) : Statement (.cctlIinv o) := word rfl rfl (among .cctlIinv o [] [.cctlIinvpg, .cctlTlbpg, .cctlTlball] rfl (by decide))
theorem cctlIinvpg (o : Op) : Statement (.cctlIinvpg o) := word rfl rfl (among .cctlIinvpg o [.cctlIinv] [.cctlTlbpg, .cctlTlball] rfl (by decide))
theorem cctlTlbpg (o : Op) : Statement (.cctlTlbpg o) := word rfl rfl (among .cctlTlbpg o [.cctlIinv, .cctlIinvpg] [.cctlTlball] rfl (by decide))
theorem cctlTlball (o : Op) : Statement (.cctlTlball o) := word rfl rfl (among .cctlTlball o [.cctlIinv, .cctlIinvpg, .cctlTlbpg] [] rfl (by decide))
theorem fadd (o : Op) : Statement (.fadd o) := word rfl rfl (single .fadd o rfl)
theorem fsub (o : Op) : Statement (.fsub o) := word rfl rfl (single .fsub o rfl)
theorem fmul (o : Op) : Statement (.fmul o) := word rfl rfl (single .fmul o rfl)
theorem fmac (o : Op) : Statement (.fmac o) := word rfl rfl (single .fmac o rfl)
theorem fmin (o : Op) : Statement (.fmin o) := word rfl rfl (single .fmin o rfl)
theorem fmax (o : Op) : Statement (.fmax o) := word rfl rfl (single .fmax o rfl)
theorem fabs (o : Op) : Statement (.fabs o) := word rfl rfl (single .fabs o rfl)
theorem fneg (o : Op) : Statement (.fneg o) := word rfl rfl (single .fneg o rfl)
theorem fcmp (o : Op) : Statement (.fcmp o) := word rfl rfl (single .fcmp o rfl)
theorem fclass (o : Op) : Statement (.fclass o) := word rfl rfl (single .fclass o rfl)
theorem frnd (o : Op) : Statement (.frnd o) := word rfl rfl (single .frnd o rfl)
theorem frcp (o : Op) : Statement (.frcp o) := word rfl rfl (single .frcp o rfl)
theorem frsq (o : Op) : Statement (.frsq o) := word rfl rfl (single .frsq o rfl)
theorem fsqrt (o : Op) : Statement (.fsqrt o) := word rfl rfl (single .fsqrt o rfl)
theorem fdiv (o : Op) : Statement (.fdiv o) := word rfl rfl (single .fdiv o rfl)
theorem fex2 (o : Op) : Statement (.fex2 o) := word rfl rfl (single .fex2 o rfl)
theorem flg2 (o : Op) : Statement (.flg2 o) := word rfl rfl (single .flg2 o rfl)
theorem fsin (o : Op) : Statement (.fsin o) := word rfl rfl (single .fsin o rfl)
theorem fcos (o : Op) : Statement (.fcos o) := word rfl rfl (single .fcos o rfl)
theorem ftanh (o : Op) : Statement (.ftanh o) := word rfl rfl (single .ftanh o rfl)
theorem fdot2 (o : Op) : Statement (.fdot2 o) := word rfl rfl (single .fdot2 o rfl)
theorem fdot4 (o : Op) : Statement (.fdot4 o) := word rfl rfl (single .fdot4 o rfl)
theorem dadd (o : Op) : Statement (.dadd o) := word rfl rfl (single .dadd o rfl)
theorem dsub (o : Op) : Statement (.dsub o) := word rfl rfl (single .dsub o rfl)
theorem dmul (o : Op) : Statement (.dmul o) := word rfl rfl (single .dmul o rfl)
theorem dmac (o : Op) : Statement (.dmac o) := word rfl rfl (single .dmac o rfl)
theorem dmin (o : Op) : Statement (.dmin o) := word rfl rfl (single .dmin o rfl)
theorem dmax (o : Op) : Statement (.dmax o) := word rfl rfl (single .dmax o rfl)
theorem dabs (o : Op) : Statement (.dabs o) := word rfl rfl (single .dabs o rfl)
theorem dneg (o : Op) : Statement (.dneg o) := word rfl rfl (single .dneg o rfl)
theorem dcmp (o : Op) : Statement (.dcmp o) := word rfl rfl (single .dcmp o rfl)
theorem dclass (o : Op) : Statement (.dclass o) := word rfl rfl (single .dclass o rfl)
theorem drnd (o : Op) : Statement (.drnd o) := word rfl rfl (single .drnd o rfl)
theorem drcp (o : Op) : Statement (.drcp o) := word rfl rfl (single .drcp o rfl)
theorem drsq (o : Op) : Statement (.drsq o) := word rfl rfl (single .drsq o rfl)
theorem dsqrt (o : Op) : Statement (.dsqrt o) := word rfl rfl (single .dsqrt o rfl)
theorem ddiv (o : Op) : Statement (.ddiv o) := word rfl rfl (single .ddiv o rfl)
theorem hadd2 (o : Op) : Statement (.hadd2 o) := word rfl rfl (single .hadd2 o rfl)
theorem hsub2 (o : Op) : Statement (.hsub2 o) := word rfl rfl (single .hsub2 o rfl)
theorem hmul2 (o : Op) : Statement (.hmul2 o) := word rfl rfl (single .hmul2 o rfl)
theorem hmac2 (o : Op) : Statement (.hmac2 o) := word rfl rfl (single .hmac2 o rfl)
theorem hmin2 (o : Op) : Statement (.hmin2 o) := word rfl rfl (single .hmin2 o rfl)
theorem hmax2 (o : Op) : Statement (.hmax2 o) := word rfl rfl (single .hmax2 o rfl)
theorem habs2 (o : Op) : Statement (.habs2 o) := word rfl rfl (single .habs2 o rfl)
theorem hneg2 (o : Op) : Statement (.hneg2 o) := word rfl rfl (single .hneg2 o rfl)
theorem hcmp2 (o : Op) : Statement (.hcmp2 o) := word rfl rfl (single .hcmp2 o rfl)
theorem hclass2 (o : Op) : Statement (.hclass2 o) := word rfl rfl (single .hclass2 o rfl)
theorem hex2 (o : Op) : Statement (.hex2 o) := word rfl rfl (single .hex2 o rfl)
theorem hrcp2 (o : Op) : Statement (.hrcp2 o) := word rfl rfl (single .hrcp2 o rfl)
theorem cvt (o : Op) : Statement (.cvt o) := word rfl rfl (single .cvt o rfl)
theorem cvtsat (o : Op) : Statement (.cvtsat o) := word rfl rfl (single .cvtsat o rfl)
theorem pack (o : Op) : Statement (.pack o) := word rfl rfl (single .pack o rfl)
theorem unpack (o : Op) : Statement (.unpack o) := word rfl rfl (single .unpack o rfl)
theorem sdenc (o : Op) : Statement (.sdenc o) := word rfl rfl (single .sdenc o rfl)
theorem sddec (o : Op) : Statement (.sddec o) := word rfl rfl (single .sddec o rfl)
theorem sdhdr (o : Op) : Statement (.sdhdr o) := word rfl rfl (single .sdhdr o rfl)
theorem t5pk (o : Op) : Statement (.t5pk o) := word rfl rfl (single .t5pk o rfl)
theorem t5unpk (o : Op) : Statement (.t5unpk o) := word rfl rfl (single .t5unpk o rfl)
theorem lxch (o : Op) : Statement (.lxch o) := word rfl rfl (single .lxch o rfl)
theorem vote (o : Op) : Statement (.vote o) := word rfl rfl (single .vote o rfl)
theorem ballot (o : Op) : Statement (.ballot o) := word rfl rfl (single .ballot o rfl)
theorem matchl (o : Op) : Statement (.matchl o) := word rfl rfl (single .matchl o rfl)
theorem redux (o : Op) : Statement (.redux o) := word rfl rfl (single .redux o rfl)
theorem scan (o : Op) : Statement (.scan o) := word rfl rfl (single .scan o rfl)
theorem ddx (o : Op) : Statement (.ddx o) := word rfl rfl (single .ddx o rfl)
theorem ddy (o : Op) : Statement (.ddy o) := word rfl rfl (single .ddy o rfl)
theorem qswz (o : Op) : Statement (.qswz o) := word rfl rfl (single .qswz o rfl)
theorem ld (o : Op) : Statement (.ld o) := word rfl rfl (single .ld o rfl)
theorem st (o : Op) : Statement (.st o) := word rfl rfl (single .st o rfl)
theorem lds (o : Op) : Statement (.lds o) := word rfl rfl (single .lds o rfl)
theorem sts (o : Op) : Statement (.sts o) := word rfl rfl (single .sts o rfl)
theorem ldc (o : Op) : Statement (.ldc o) := word rfl rfl (single .ldc o rfl)
theorem ldl (o : Op) : Statement (.ldl o) := word rfl rfl (single .ldl o rfl)
theorem stl (o : Op) : Statement (.stl o) := word rfl rfl (single .stl o rfl)
theorem gath (o : Op) : Statement (.gath o) := word rfl rfl (single .gath o rfl)
theorem scat (o : Op) : Statement (.scat o) := word rfl rfl (single .scat o rfl)
theorem pref (o : Op) : Statement (.pref o) := word rfl rfl (single .pref o rfl)
theorem atom (o : Op) : Statement (.atom o) := word rfl rfl (single .atom o rfl)
theorem red (o : Op) : Statement (.red o) := word rfl rfl (single .red o rfl)
theorem cas128 (o : Op) : Statement (.cas128 o) := word rfl rfl (single .cas128 o rfl)
theorem fence (o : Op) : Statement (.fence o) := word rfl rfl (single .fence o rfl)
theorem tlrmake (o : Op) : Statement (.tlrmake o) := word rfl rfl (single .tlrmake o rfl)
theorem cpy (o : Op) : Statement (.cpy o) := word rfl rfl (single .cpy o rfl)
theorem cpym (o : Op) : Statement (.cpym o) := word rfl rfl (single .cpym o rfl)
theorem cpseal (o : Op) : Statement (.cpseal o) := word rfl rfl (single .cpseal o rfl)
theorem cpwait (o : Op) : Statement (.cpwait o) := word rfl rfl (single .cpwait o rfl)
theorem bcinitInit (o : Op) : Statement (.bcinitInit o) := word rfl rfl (among .bcinitInit o [] [.bcinitArm] rfl (by decide))
theorem bcinitArm (o : Op) : Statement (.bcinitArm o) := word rfl rfl (among .bcinitArm o [.bcinitInit] [] rfl (by decide))
theorem bcwait (o : Op) : Statement (.bcwait o) := word rfl rfl (single .bcwait o rfl)
theorem tilecfg (o : Op) : Statement (.tilecfg o) := word rfl rfl (single .tilecfg o rfl)
theorem tilest (o : Op) : Statement (.tilest o) := word rfl rfl (single .tilest o rfl)
theorem tilerd (o : Op) : Statement (.tilerd o) := word rfl rfl (single .tilerd o rfl)
theorem tilewr (o : Op) : Statement (.tilewr o) := word rfl rfl (single .tilewr o rfl)
theorem tilerst (o : Op) : Statement (.tilerst o) := word rfl rfl (single .tilerst o rfl)
theorem mma (o : Op) : Statement (.mma o) := word rfl rfl (single .mma o rfl)
theorem mmas (o : Op) : Statement (.mmas o) := word rfl rfl (single .mmas o rfl)
theorem ttq (o : Op) : Statement (.ttq o) := word rfl rfl (among .ttq o [] [.ttqClaim] rfl (by decide))
theorem ttqClaim (o : Op) : Statement (.ttqClaim o) := word rfl rfl (among .ttqClaim o [.ttq] [] rfl (by decide))
theorem acalloc (o : Op) : Statement (.acalloc o) := word rfl rfl (single .acalloc o rfl)
theorem acfree (o : Op) : Statement (.acfree o) := word rfl rfl (single .acfree o rfl)
theorem acrd (o : Op) : Statement (.acrd o) := word rfl rfl (single .acrd o rfl)
theorem acwr (o : Op) : Statement (.acwr o) := word rfl rfl (single .acwr o rfl)
theorem aczero (o : Op) : Statement (.aczero o) := word rfl rfl (single .aczero o rfl)
theorem acdrain (o : Op) : Statement (.acdrain o) := word rfl rfl (single .acdrain o rfl)
theorem rast (o : Op) : Statement (.rast o) := word rfl rfl (single .rast o rfl)
theorem attr (o : Op) : Statement (.attr o) := word rfl rfl (single .attr o rfl)
theorem trav (o : Op) : Statement (.trav o) := word rfl rfl (single .trav o rfl)
theorem filt (o : Op) : Statement (.filt o) := word rfl rfl (single .filt o rfl)
theorem oblend (o : Op) : Statement (.oblend o) := word rfl rfl (single .oblend o rfl)
theorem dice (o : Op) : Statement (.dice o) := word rfl rfl (single .dice o rfl)
theorem samps (o : Op) : Statement (.samps o) := word rfl rfl (single .samps o rfl)
theorem bmatch (o : Op) : Statement (.bmatch o) := word rfl rfl (single .bmatch o rfl)
theorem barSync (o : Op) : Statement (.barSync o) := word rfl rfl (among .barSync o [] [.barArrive] rfl (by decide))
theorem barArrive (o : Op) : Statement (.barArrive o) := word rfl rfl (among .barArrive o [.barSync] [] rfl (by decide))
theorem evset (o : Op) : Statement (.evset o) := word rfl rfl (among .evset o [] [.evsetClr] rfl (by decide))
theorem evsetClr (o : Op) : Statement (.evsetClr o) := word rfl rfl (among .evsetClr o [.evset] [] rfl (by decide))
theorem evwait (o : Op) : Statement (.evwait o) := word rfl rfl (single .evwait o rfl)
theorem evtest (o : Op) : Statement (.evtest o) := word rfl rfl (single .evtest o rfl)
theorem cont (o : Op) : Statement (.cont o) := word rfl rfl (single .cont o rfl)
theorem resume (o : Op) : Statement (.resume o) := word rfl rfl (single .resume o rfl)
theorem wgres (o : Op) : Statement (.wgres o) := word rfl rfl (single .wgres o rfl)
theorem wgcommit (o : Op) : Statement (.wgcommit o) := word rfl rfl (single .wgcommit o rfl)
theorem wgcancel (o : Op) : Statement (.wgcancel o) := word rfl rfl (single .wgcancel o rfl)
theorem xrd (o : Op) : Statement (.xrd o) := word rfl rfl (single .xrd o rfl)
theorem xwr (o : Op) : Statement (.xwr o) := word rfl rfl (single .xwr o rfl)
theorem eretResume (o : Op) : Statement (.eretResume o) := word rfl rfl (among .eretResume o [] [.eretKill, .eretFdom] rfl (by decide))
theorem eretKill (o : Op) : Statement (.eretKill o) := word rfl rfl (among .eretKill o [.eretResume] [.eretFdom] rfl (by decide))
theorem eretFdom (o : Op) : Statement (.eretFdom o) := word rfl rfl (among .eretFdom o [.eretResume, .eretKill] [] rfl (by decide))
theorem trap (o : Op) : Statement (.trap o) := word rfl rfl (single .trap o rfl)
theorem create (w : DWord) : Statement (.create w) := noWord rfl
theorem resize (w : DWord) : Statement (.resize w) := noWord rfl
theorem resizeResume (w : DWord) : Statement (.resizeResume w) := noWord rfl
theorem destroy (w : DWord) : Statement (.destroy w) := noWord rfl
theorem bindvf (w : DWord) : Statement (.bindvf w) := noWord rfl
theorem unbindvf (w : DWord) : Statement (.unbindvf w) := noWord rfl
theorem dropClear (w : DWord) : Statement (.dropClear w) := noWord rfl
theorem funcmodeWrite (w : DWord) : Statement (.funcmodeWrite w) := noWord rfl
theorem registerWrite (t : RegTarget) (w : DWord) : Statement (.registerWrite t w) := noWord rfl
theorem doorbell (w : DWord) : Statement (.doorbell w) := noWord rfl
theorem rcbFlush (w : DWord) : Statement (.rcbFlush w) := noWord rfl
theorem temporalUnitWrite (len : Nat) : Statement (.temporalUnitWrite len) := noWord rfl
theorem lifecycleTransition (target : LifeState) (key : LifeKey) (released : Bool) : Statement (.lifecycleTransition target key released) := noWord rfl
theorem wipeComplete (r : WipeRes) : Statement (.wipeComplete r) := noWord rfl
theorem microcodeLoad (img : UcodeImage) : Statement (.microcodeLoad img) := noWord rfl
theorem pageMove (va : Nat) (frame : Nat) : Statement (.pageMove va frame) := noWord rfl
theorem controlIntervalBoundary (temps : List Nat) (chans : List Nat) : Statement (.controlIntervalBoundary temps chans) := noWord rfl
theorem votesWrite (vote : BitVec 4) : Statement (.votesWrite vote) := noWord rfl
theorem reservationMark (pc : DWord) : Statement (.reservationMark pc) := noWord rfl
theorem queueRefill (k : QueueKind) : Statement (.queueRefill k) := noWord rfl
theorem engineSelfTest (failed : BitVec 16) : Statement (.engineSelfTest failed) := noWord rfl
theorem extensibleOpcode (n : BitVec 7) (o : Op) : Statement (.extensibleOpcode n o) := noWord rfl
theorem linkTrained (host : Bool) (peer : Nat) (lanes : Nat) : Statement (.linkTrained host peer lanes) := noWord rfl
theorem peerCopyWrite (va : Nat) (data : BitVec 128) : Statement (.peerCopyWrite va data) := noWord rfl
theorem hostAccess (va : Nat) (size : Nat) (data : Option DWord) : Statement (.hostAccess va size data) := noWord rfl
theorem fdcmdEnd  : Statement (.fdcmdEnd) := noWord rfl
theorem fdcmdRelease  : Statement (.fdcmdRelease) := noWord rfl
theorem deferredEntryMove  : Statement (.deferredEntryMove) := noWord rfl
theorem headRefresh  : Statement (.headRefresh) := noWord rfl
theorem faultResolve  : Statement (.faultResolve) := noWord rfl
theorem faultRecordAppend  : Statement (.faultRecordAppend) := noWord rfl
theorem faultRecordCopy  : Statement (.faultRecordCopy) := noWord rfl
theorem faultReplay  : Statement (.faultReplay) := noWord rfl
theorem reset  : Statement (.reset) := noWord rfl
theorem microcodeApplyLive  : Statement (.microcodeApplyLive) := noWord rfl
theorem sequencerCheckFail  : Statement (.sequencerCheckFail) := noWord rfl
theorem pluginFault  : Statement (.pluginFault) := noWord rfl
theorem pluginTimeout  : Statement (.pluginTimeout) := noWord rfl
theorem linkDown  : Statement (.linkDown) := noWord rfl
theorem resizeCoreDepart  : Statement (.resizeCoreDepart) := noWord rfl
theorem timeSliceEnd  : Statement (.timeSliceEnd) := noWord rfl
theorem frequencyFall  : Statement (.frequencyFall) := noWord rfl
theorem regulatorSettled  : Statement (.regulatorSettled) := noWord rfl
theorem droopEvent  : Statement (.droopEvent) := noWord rfl
theorem thermalTrip  : Statement (.thermalTrip) := noWord rfl
theorem revolutionStart  : Statement (.revolutionStart) := noWord rfl
theorem ringPass  : Statement (.ringPass) := noWord rfl
theorem bundleStartEvaluation  : Statement (.bundleStartEvaluation) := noWord rfl
theorem bundleAdmit  : Statement (.bundleAdmit) := noWord rfl
theorem bundleRetire  : Statement (.bundleRetire) := noWord rfl
theorem dispatcherStep  : Statement (.dispatcherStep) := noWord rfl
theorem cooperativeSave  : Statement (.cooperativeSave) := noWord rfl
theorem forcedSave  : Statement (.forcedSave) := noWord rfl
theorem restore  : Statement (.restore) := noWord rfl
theorem accDeadlockBreak  : Statement (.accDeadlockBreak) := noWord rfl
theorem watchdogExpiry  : Statement (.watchdogExpiry) := noWord rfl
theorem handlerServiceStart  : Statement (.handlerServiceStart) := noWord rfl
theorem handlerServiceTimeout  : Statement (.handlerServiceTimeout) := noWord rfl
theorem memoryAccessComplete  : Statement (.memoryAccessComplete) := noWord rfl
theorem copyGranuleDeliver  : Statement (.copyGranuleDeliver) := noWord rfl
theorem copyComplete  : Statement (.copyComplete) := noWord rfl
theorem copyRequestEnter  : Statement (.copyRequestEnter) := noWord rfl
theorem multicastReceipt  : Statement (.multicastReceipt) := noWord rfl
theorem tileFillComplete  : Statement (.tileFillComplete) := noWord rfl
theorem tileReaderDone  : Statement (.tileReaderDone) := noWord rfl
theorem tileTaskDispatch  : Statement (.tileTaskDispatch) := noWord rfl
theorem engineStep  : Statement (.engineStep) := noWord rfl
theorem tileTaskRetire  : Statement (.tileTaskRetire) := noWord rfl
theorem mmaAdmission  : Statement (.mmaAdmission) := noWord rfl
theorem macroStep  : Statement (.macroStep) := noWord rfl
theorem macroRelease  : Statement (.macroRelease) := noWord rfl
theorem darningPass  : Statement (.darningPass) := noWord rfl
theorem crcErrorReplay  : Statement (.crcErrorReplay) := noWord rfl

end Sys2Proof.Laws.Slot
end

