-- ==== Sys2Proof/Laws/Results.lean ====
section
/-! SUPPORT. Last reads, results of fixed latency, and from them all that an instruction of fixed latency does (07 R170 to R180). -/

namespace Sys2Proof.Machine

/-! ### Last reads -/

theorem laneBit_iff_mem (m : Word) (l : Nat) (hl : l < 32) : l ∈ lanesOf m ↔ laneBit m l = true := by
  unfold lanesOf
  simp [List.mem_filter, hl]

theorem lanesOf_lt (m : Word) (l : Nat) (h : l ∈ lanesOf m) : l < 32 := by
  unfold lanesOf at h
  exact List.mem_range.1 (List.mem_filter.1 h).1

theorem foldl_erase_get (ls : List Nat) (n : Nat) (t : Tab Word) (k : Nat) :
    (ls.foldl (fun t l => t.erase (vk n l)) t).get k 0 = if ls.any (fun l => vk n l == k) then 0 else t.get k 0 := by
  induction ls generalizing t with
  | nil => simp
  | cons a r ih =>
    simp only [List.foldl_cons, ih, Tab.get_erase, List.any_cons]
    by_cases h : vk n a = k
    · subst h; simp
    · simp [h, Ne.symm h]

theorem Warp.clearLive_frame (w : Warp) (n : Nat) (ls : List Nat) : w.clearLive n ls = { w with v := (w.clearLive n ls).v } := rfl

theorem Warp.vreg_clearLive (w : Warp) (n : Nat) (ls : Word) (k l : Nat) (hl : l < 32) :
    (w.clearLive n (lanesOf ls)).vreg k l = if n = k ∧ laneBit ls l = true then 0 else w.vreg k l := by
  unfold Warp.vreg Warp.clearLive
  simp only
  rw [foldl_erase_get]
  have : (lanesOf ls).any (fun a => vk n a == vk k l) = decide (n = k ∧ laneBit ls l = true) := by
    by_cases h : n = k ∧ laneBit ls l = true
    · simp only [h, and_self, decide_true, List.any_eq_true, beq_iff_eq]
      exact ⟨l, (laneBit_iff_mem ls l hl).2 h.2, rfl⟩
    · simp only [h, decide_false, List.any_eq_false, beq_iff_eq]
      intro a ha e
      have := lanesOf_lt ls a ha
      refine h ?_
      unfold vk at e
      have h1 : n = k := by omega
      have h2 : a = l := by omega
      exact ⟨h1, h2 ▸ (laneBit_iff_mem ls a this).1 ha⟩
  rw [this]; simp only [decide_eq_true_eq]

theorem foldl_clearLive (xs : List (Nat × Nat × Word)) (w : Warp) (n l : Nat) (hl : l < 32) :
    xs.foldl (fun w x => w.clearLive x.2.1 (lanesOf x.2.2)) w = { w with v := (xs.foldl (fun w x => w.clearLive x.2.1 (lanesOf x.2.2)) w).v } ∧
    (xs.foldl (fun w x => w.clearLive x.2.1 (lanesOf x.2.2)) w).vreg n l = if xs.any (fun x => x.2.1 == n && laneBit x.2.2 l) then 0 else w.vreg n l := by
  induction xs generalizing w with
  | nil => exact ⟨rfl, by simp⟩
  | cons x r ih =>
    have h := ih (w.clearLive x.2.1 (lanesOf x.2.2))
    refine ⟨h.1.trans rfl, h.2.trans ?_⟩
    rw [Warp.vreg_clearLive _ _ _ _ _ hl]
    simp only [List.any_cons]
    by_cases h1 : x.2.1 = n ∧ laneBit x.2.2 l = true
    · simp [h1.1, h1.2]
    · have : (x.2.1 == n && laneBit x.2.2 l) = false := by
        cases hb : laneBit x.2.2 l
        · simp
        · simp only [Bool.and_true, beq_eq_false_iff_ne]; exact fun e => h1 ⟨e, hb⟩
      rw [if_neg h1]; simp only [this, Bool.false_or]

theorem Mach.clearReads_frame (m : Mach) (core : Nat) (xs : List (Nat × Nat × Word)) : m.clearReads core xs = { m with warps := (m.clearReads core xs).warps } :=
  foldl_modWarp_frame xs core (fun x => x.1) (fun x w => w.clearLive x.2.1 (lanesOf x.2.2)) m

theorem Mach.clearReads_kept (g : Grp) (m : Mach) (xs : List (Nat × Nat × Word)) : Kept g m (m.clearReads g.core xs) := .of_warps (m.clearReads_frame g.core xs)

theorem Mach.clearReads_warp (m : Mach) (core : Nat) (xs : List (Nat × Nat × Word)) (c l : Nat) :
    (m.clearReads core xs).warp c l = { m.warp c l with v := ((m.clearReads core xs).warp c l).v } ∧
    ∀ n lane, lane < 32 → ((m.clearReads core xs).warp c l).vreg n lane =
      if xs.any (fun x => wk core x.1 == wk c l && x.2.1 == n && laneBit x.2.2 lane) then 0 else (m.warp c l).vreg n lane := by
  unfold Mach.clearReads
  rw [foldl_modWarp_warp xs core (fun x => x.1) (fun x w => w.clearLive x.2.1 (lanesOf x.2.2)) m c l]
  split
  · refine ⟨(foldl_clearLive _ _ 0 0 (by decide)).1, fun n lane hl => ?_⟩
    rw [(foldl_clearLive _ _ n lane hl).2, List.any_filter]
    have : (fun x : Nat × Nat × Word => decide (wk core x.1 = wk c l) && (x.2.1 == n && laneBit x.2.2 lane)) =
        (fun x => wk core x.1 == wk c l && x.2.1 == n && laneBit x.2.2 lane) := by
      funext x; rw [Bool.and_assoc]; rfl
    rw [this]
  · rename_i h
    refine ⟨rfl, fun n lane _ => ?_⟩
    have : (m.warp c l).vreg n lane = 0 := by
      unfold Mach.warp Tab.get
      unfold Tab.has at h
      cases e : Tab.get? m.warps (wk c l) with
      | none => rfl
      | some _ => rw [e] at h; exact absurd rfl h
    rw [this, ite_self]

theorem Grp.freeReads_kept (g : Grp) (m : Mach) : Kept g m (g.freeReads g.execLanes m) := by
  unfold Grp.freeReads
  split
  · exact Mach.clearReads_kept g m _
  · exact Mach.clearReads_kept g m _
  · exact .modSlc g m _ (fun _ => rfl)

theorem Grp.freeReads_wbs (g : Grp) (m : Mach) : ((g.freeReads g.execLanes m).slc g.core g.slice).wbs = (m.slc g.core g.slice).wbs := by
  unfold Grp.freeReads
  split
  · rw [Mach.clearReads_frame]; rfl
  · rw [Mach.clearReads_frame]; rfl
  · rw [Mach.slc_modSlc, if_pos rfl]

/-- The last reads that take effect clear their lanes; nothing else of a warp changes. -/
theorem Grp.freeReads_warp (g : Grp) (m : Mach) (c l : Nat) :
    (g.freeReads g.execLanes m).warp c l = { m.warp c l with v := ((g.freeReads g.execLanes m).warp c l).v } ∧
    ∀ n lane, lane < 32 → ((g.freeReads g.execLanes m).warp c l).vreg n lane = if g.freed c l n lane then 0 else (m.warp c l).vreg n lane := by
  unfold Grp.freeReads Grp.freed Grp.dueClears
  cases hc : g.chain? <;> cases hk : g.o.ctl.chain
  · exact Mach.clearReads_warp m g.core _ c l
  · exact ⟨rfl, fun _ _ _ => rfl⟩
  · exact Mach.clearReads_warp m g.core _ c l
  · exact ⟨rfl, fun _ _ _ => rfl⟩

/-! ### Results -/

theorem orExc_mem (xs : List (BitVec 7)) (b : BitVec 7) (h : b ∈ xs) : orExc xs &&& b = b := by
  have key : ∀ (xs : List (BitVec 7)) (a : BitVec 7), (xs.foldl (· ||| ·) a &&& a = a) ∧ ∀ b ∈ xs, xs.foldl (· ||| ·) a &&& b = b := by
    intro xs
    induction xs with
    | nil => intro a; exact ⟨by simp, fun b hb => by cases hb⟩
    | cons x r ih =>
      intro a
      obtain ⟨h1, hr⟩ := ih (a ||| x)
      simp only [List.foldl_cons]
      generalize r.foldl (· ||| ·) (a ||| x) = z at h1 hr
      have hz : ∀ i : Nat, (a ||| x).getLsbD i = true → z.getLsbD i = true := fun i hi => by
        have := congrArg (fun v => v.getLsbD i) h1
        simp only [BitVec.getLsbD_and] at this
        rw [hi] at this; simpa using this
      have sub : ∀ y : BitVec 7, (∀ i : Nat, y.getLsbD i = true → z.getLsbD i = true) → z &&& y = y := fun y hy => by
        refine BitVec.eq_of_getLsbD_eq (fun i _ => ?_)
        rw [BitVec.getLsbD_and]
        cases hb : y.getLsbD i
        · simp
        · simp [hy i hb]
      refine ⟨sub a (fun i hi => hz i (by rw [BitVec.getLsbD_or, hi]; rfl)), fun b hb => ?_⟩
      rcases List.mem_cons.1 hb with rfl | hb
      · exact sub b (fun i hi => hz i (by rw [BitVec.getLsbD_or, hi, Bool.or_true]))
      · exact hr b hb
  exact (key xs 0).2 b h

/-- The write-backs of exception bits. -/
def Grp.excWbs (g : Grp) (f : Member → BitVec 7) : List Wb :=
  g.execSlots.filterMap (fun s =>
    if orExc ((g.execs.filter (fun x => x.slot = s)).map f) = 0 then none
    else some { due := g.cyc + g.resultLatency, slot := s, what := .exc (orExc ((g.execs.filter (fun x => x.slot = s)).map f)) })

theorem Grp.wbExc_eq (g : Grp) (m : Mach) (f : Member → BitVec 7) : g.wbExc m f = m.addWbs g.core g.slice (g.excWbs f) := by
  unfold Grp.excWbs
  rw [← foldl_addWb]
  unfold Grp.wbExc
  congr 1
  funext m s
  simp only
  split <;> rfl

/-- The write-backs of values. -/
def Grp.laneWbs (g : Grp) (wide : Bool) (f : Member → DWord) : List Wb :=
  if g.o.ctl.wbs then []
  else match g.o.dst with
  | .v n => g.execSlots.map (fun s => { due := g.cyc + g.latency, slot := s, what := .v ((g.execs.filter (fun x => x.slot = s)).flatMap (fun x => cellsOf n.toNat x.lane wide (f x))) })
  | .p n => g.execSlots.map (fun s => { due := g.cyc + g.latency, slot := s, what := .p n.toNat ((g.execs.filter (fun x => x.slot = s)).map (fun x => (x.lane, f x != 0))) })
  | .latch n => [{ due := g.cyc + g.resultLatency, slot := g.lead.slot, what := .latch n.toNat (g.execs.map (fun x => (x.lane, if wide then f x else ((f x).setWidth 32).setWidth 64))) }]
  | _ => []

theorem foldl_wbAt_map (g : Grp) (ss : List Nat) (k : Nat → WbWhat) (m : Mach) :
    ss.foldl (fun m s => g.wbAt m s (k s)) m = m.addWbs g.core g.slice (ss.map (fun s => { due := g.cyc + g.latency, slot := s, what := k s })) := by
  induction ss generalizing m with
  | nil => rfl
  | cons s r ih => exact ih _

theorem Grp.wbLanes_eq (g : Grp) (m : Mach) (wide : Bool) (f : Member → DWord) : g.wbLanes m wide f = m.addWbs g.core g.slice (g.laneWbs wide f) := by
  unfold Grp.wbLanes Grp.laneWbs
  cases g.o.ctl.wbs
  · simp only [Bool.false_eq_true, if_false]
    cases g.o.dst <;> simp only
    · exact foldl_wbAt_map g g.execSlots _ m
    · rfl
    · exact foldl_wbAt_map g g.execSlots _ m
    · rfl
    · rfl
    · rfl
  · rfl

/-! ### The group of the selection -/

/-- What reading the constants may change: page-table entries' marks, translation buffers and the counter of free values. -/
theorem walkTo_frame (e : Fw) (m : Mach) (part va : Nat) (k : AKind) (core : Option (Nat × Nat)) :
    (walkTo e m part va k core).1 = { m with mem := (walkTo e m part va k core).1.mem, cores := (walkTo e m part va k core).1.cores } := by
  unfold walkTo
  split
  · rfl
  · split
    · rfl
    · cases core <;> simp only <;> split <;> rfl

theorem translate_frame (e : Fw) (m : Mach) (core part va : Nat) (k : AKind) (slice : Nat) :
    (translate e m core part va k slice).1 =
      { m with mem := (translate e m core part va k slice).1.mem, cores := (translate e m core part va k slice).1.cores, fresh := (translate e m core part va k slice).1.fresh } := by
  unfold translate
  split
  · exact (walkTo_frame e m part va k _).trans (by rw [walkTo_frame e m part va k (some (core, slice))])
  · split
    · rfl
    · split
      · rfl
      · split
        · rfl
        · rw [walkTo_frame e { m with fresh := m.fresh + 1 } part va k (some (core, slice))]

theorem readConsts_frame (e : Fw) (core slice part base : Nat) (ns : List Nat) (m : Mach) (t : Tab Word) :
    (readConsts e core slice part base m ns t).1 =
      { m with mem := (readConsts e core slice part base m ns t).1.mem, cores := (readConsts e core slice part base m ns t).1.cores, fresh := (readConsts e core slice part base m ns t).1.fresh } := by
  induction ns generalizing m t with
  | nil => rfl
  | cons n r ih =>
    have ht := translate_frame e m core part (base + 4 * n) .load slice
    unfold readConsts
    split
    · rename_i m1 c he; rw [he] at ht; exact ht
    · rename_i m1 pa k he
      rw [he] at ht
      simp only at ht
      split
      · exact ht
      · rw [ih m1]; rw [ht]

theorem Grp.fetchConsts_frame (g : Grp) (m : Mach) :
    (g.fetchConsts m).1 = { m with mem := (g.fetchConsts m).1.mem, cores := (g.fetchConsts m).1.cores, fresh := (g.fetchConsts m).1.fresh } := by
  unfold Grp.fetchConsts
  split
  · rfl
  · split
    · rfl
    · exact readConsts_frame ..

/-- What the operands of a selection are. -/
theorem operandsOf_eq {s : State} {k : Mn} {o : Op} {g : Grp} {m : Mach} (h : operandsOf s k o = some (g, m)) :
    ∃ t, (groupOf s k o).fetchConsts (groupOf s k o).m = (m, .ok t) ∧ g = { groupOf s k o with consts := t } := by
  unfold operandsOf at h
  split at h
  · rename_i m1 t he; cases h; exact ⟨t, he, rfl⟩
  · cases h

theorem operandsOf_frame {s : State} {k : Mn} {o : Op} {g : Grp} {m : Mach} (h : operandsOf s k o = some (g, m)) :
    m = { g.m with mem := m.mem, cores := m.cores, fresh := m.fresh } ∧ (∀ x ∈ g.execs, x ∈ g.members) ∧ g.o = o ∧ g.mn = k := by
  obtain ⟨t, he, rfl⟩ := operandsOf_eq h
  have hf := (groupOf s k o).fetchConsts_frame (groupOf s k o).m
  rw [he] at hf
  exact ⟨hf, fun x hx => (List.mem_filter.1 hx).1, rfl, rfl⟩

theorem issueWith_eq {s : State} {k : Mn} {o : Op} {own : Grp → List Nat} {g : Grp} {m : Mach} (eff : Grp → Mach → Mach) (h : Issues s k o own g m) :
    issueWith k o own eff s = { s with m := eff g (g.commit m) } := by
  obtain ⟨t, he, rfl⟩ := operandsOf_eq h.operands
  have hc := h.noCause
  unfold issueWith
  simp only [he, Grp.withConsts, hc, ne_eq, not_true_eq_false, if_false]

theorem issueWith_trap {s : State} {k : Mn} {o : Op} {own : Grp → List Nat} {g : Grp} {m : Mach} (eff : Grp → Mach → Mach) (h : Traps s k o own g m) :
    issueWith k o own eff s = { s with m := g.trap g.m (g.cause own) } := by
  obtain ⟨t, he, rfl⟩ := operandsOf_eq h.operands
  have hc := h.cause
  unfold issueWith
  simp only [he, Grp.withConsts, hc, ne_eq, not_false_eq_true, if_true]

/-! ### Warps and threads after an issue -/

theorem Issues.placedIn {s : State} {k : Mn} {o : Op} {own : Grp → List Nat} {g : Grp} {m : Mach} (h : Issues s k o own g m) : g.placedIn m :=
  h.placed.of_warps (by rw [(operandsOf_frame h.operands).1])

theorem Grp.armedWarp_flagCount (g : Grp) (c l k : Nat) (w : Warp) :
    (g.armedWarp c l w).flagCount k = w.flagCount k + if c = g.core ∧ (∃ x ∈ g.members, x.slot = l) ∧ k = g.o.ctl.setf.toNat ∧ k < 12 ∧ g.arms l = true then 1 else 0 := by
  unfold Grp.armedWarp
  by_cases h : c = g.core ∧ (∃ x ∈ g.members, x.slot = l) ∧ g.arms l = true
  · rw [if_pos h]
    unfold Warp.arm
    by_cases hs : g.o.ctl.setf.toNat < 12
    · rw [if_pos hs]
      unfold Warp.flagCount
      simp only [Tab.get_set]
      by_cases hk : k = g.o.ctl.setf.toNat
      · subst hk; simp [h.1, h.2.1, h.2.2, hs]
      · simp [hk]
    · rw [if_neg hs]
      have : ¬(c = g.core ∧ (∃ x ∈ g.members, x.slot = l) ∧ k = g.o.ctl.setf.toNat ∧ k < 12 ∧ g.arms l = true) := fun e => hs (e.2.2.1 ▸ e.2.2.2.1)
      rw [if_neg this]; rfl
  · rw [if_neg h, if_neg (fun e => h ⟨e.1, e.2.1, e.2.2.2.2⟩)]; rfl

theorem Grp.commit_moved (g : Grp) (m : Mach) (hp : g.placedIn m) : WarpsMoved g m (g.commit m) (fun _ => g.advance) := by
  have hs : ∀ y ∈ g.members, y.slot < 128 := fun y hy => hp.slot_lt y hy
  have hw : ∀ c l, l < 128 → (g.commit m).warp c l = g.movedWarp (fun _ => g.advance) g.members c l (g.readyWarp c l (m.warp c l)) := fun c l hl => g.commit_warp m c l hl hp
  have ht : ∀ c l lane, (g.readyWarp c l (m.warp c l)).thread lane = (m.warp c l).thread lane := fun c l lane => by rw [g.readyWarp_frame]; rfl
  have hh : ∀ x ∈ g.members, (g.readyWarp g.core x.slot (m.warp g.core x.slot)).threads.has x.lane = true := fun x hx => by rw [g.readyWarp_frame]; exact (hp.1 x hx).2
  refine ⟨fun c l hl => ?_, fun c l hl => ?_, fun c l hl => ?_, fun x hx => ?_, fun c l lane hl h => ?_, fun x hx => ?_, fun c l k hl => ?_⟩
  · rw [hw c l hl, g.movedWarp_frame, g.readyWarp_frame]
  · rw [hw c l hl, g.movedWarp_frame, g.readyWarp_frame]
  · rw [hw c l hl, g.movedWarp_frame, g.readyWarp_frame]
  · rw [hw _ _ (hs x hx), g.movedWarp_member (fun _ => g.advance) _ _ x hx (fun _ _ => rfl) (hh x hx), ht]
  · rw [hw c l hl, g.movedWarp_other _ _ _ _ _ _ hl hs h, ht]
  · rw [hw _ _ (hs x hx)]
    unfold Grp.movedWarp
    generalize g.members.filter (fun y => decide (wk g.core y.slot = wk g.core x.slot)) = ys
    have := hh x hx
    revert this
    generalize g.readyWarp g.core x.slot (m.warp g.core x.slot) = w
    induction ys generalizing w with
    | nil => exact fun h => h
    | cons y r ih => exact fun h => ih _ (by rw [Warp.hasThread_modThread]; exact h)
  · rw [hw c l hl, g.movedWarp_frame, g.readyWarp_frame]
    exact g.armedWarp_flagCount c l k (m.warp c l)

/-- THE COMMON ISSUE takes place. -/
theorem Grp.commit_issued (g : Grp) (m : Mach) (hp : g.placedIn m) : Issued g m (g.commit m) := by
  refine ⟨(g.commit_kept m).1, (g.commit_kept m).2, g.commit_moved m hp, fun w h => ?_⟩
  rcases (g.mem_commit_wbs m w).1 h with h | h
  · exact .inl h
  · right
    unfold Grp.flagWbs at h
    split at h
    · cases h
    · obtain ⟨s, hs, rfl⟩ := List.mem_map.1 h; exact ⟨s, hs, rfl⟩

/-- An instruction whose effect follows the common issue. -/
theorem issueWith_effect {s : State} {k : Mn} {o : Op} {own : Grp → List Nat} {g : Grp} {m : Mach} (eff : Grp → Mach → Mach) (h : Issues s k o own g m) :
    ∃ u, issueWith k o own eff s = { s with m := eff g u } ∧ Issued g m u := ⟨_, issueWith_eq eff h, g.commit_issued m h.placedIn⟩

theorem WarpsMoved.of_warps {g : Grp} {m t u : Mach} {next : Member → Thread → Thread} (h : WarpsMoved g m t next) (e : u.warps = t.warps) : WarpsMoved g m u next := by
  have hw : ∀ c l, u.warp c l = t.warp c l := fun c l => by unfold Mach.warp; rw [e]
  exact ⟨fun c l hl => by rw [hw]; exact h.frame c l hl, fun c l hl => by rw [hw]; exact h.faults c l hl, fun c l hl => by rw [hw]; exact h.masks c l hl, fun x hx => by rw [hw]; exact h.members x hx, fun c l lane hl hc => by rw [hw]; exact h.threads c l lane hl hc,
    fun x hx => by rw [hw]; exact h.has x hx, fun c l k hl => by rw [hw]; exact h.flags c l k hl⟩

theorem WarpsMoved.addWbs {g : Grp} {m t : Mach} {next : Member → Thread → Thread} (h : WarpsMoved g m t next) (ws : List Wb) : WarpsMoved g m (t.addWbs g.core g.slice ws) next :=
  h.of_warps (by rw [Mach.addWbs_frame])

/-- A further change of threads of members listed. -/
theorem WarpsMoved.then {g : Grp} {m t : Mach} {next : Member → Thread → Thread} (h : WarpsMoved g m t next) (hp : g.placedIn m) (ms : List Member) (hm : ∀ x ∈ ms, x ∈ g.members)
    (f : Member → Thread → Thread) (hf : ∀ x t, f x (f x t) = f x t) :
    WarpsMoved g m (ms.foldl (fun m x => m.modWarp g.core x.slot (fun w => w.modThread x.lane (f x))) t) (fun x th => if x ∈ ms then f x (next x th) else next x th) := by
  have hs : ∀ y ∈ ms, y.slot < 128 := fun y hy => hp.slot_lt y (hm y hy)
  have hw := fun c l => foldl_moved_warp g f ms t c l (fun x hx => h.has x (hm x hx))
  refine ⟨fun c l hl => ?_, fun c l hl => ?_, fun c l hl => ?_, fun x hx => ?_, fun c l lane hl hc => ?_, fun x hx => ?_, fun c l k hl => ?_⟩
  · rw [hw, g.movedWarp_frame, h.frame c l hl]
  · rw [hw, g.movedWarp_frame]; exact h.faults c l hl
  · rw [hw, g.movedWarp_frame]; exact h.masks c l hl
  · rw [hw]
    by_cases hx2 : x ∈ ms
    · rw [if_pos hx2, g.movedWarp_member f ms _ x hx2 hf (h.has x hx), h.members x hx]
    · rw [if_neg hx2, g.movedWarp_other f ms _ _ _ _ (hp.slot_lt x hx) hs (.inr hx2), h.members x hx]
  · rw [hw, g.movedWarp_other f ms _ _ _ _ hl hs (hc.imp id (fun hn hy => hn (hm _ hy))), h.threads c l lane hl hc]
  · rw [hw]
    unfold Grp.movedWarp
    generalize ms.filter (fun y => decide (wk g.core y.slot = wk g.core x.slot)) = ys
    have := h.has x hx
    revert this
    generalize t.warp g.core x.slot = w
    induction ys generalizing w with
    | nil => exact fun h => h
    | cons y r ih => exact fun h => ih _ (by rw [Warp.hasThread_modThread]; exact h)
  · rw [hw, g.movedWarp_frame]; exact h.flags c l k hl

/-- Last reads end an issue. -/
theorem WarpsMoved.freed {g : Grp} {m t : Mach} {next : Member → Thread → Thread} (h : WarpsMoved g m t next) : WarpsKept g m (g.freeReads g.execLanes t) next := by
  have hw := fun c l => g.freeReads_warp t c l
  refine ⟨fun c l hl => ?_, fun c l hl => ?_, fun c l hl => ?_, fun x hx => ?_, fun c l lane hl hc => ?_, fun c l k hl => ?_, fun c l n lane hl hn => ?_⟩
  · rw [(hw c l).1, h.frame c l hl]
  · rw [(hw c l).1]; exact h.faults c l hl
  · rw [(hw c l).1]; exact h.masks c l hl
  · rw [(hw _ _).1]; exact h.members x hx
  · rw [(hw c l).1]; exact h.threads c l lane hl hc
  · rw [(hw c l).1]; exact h.flags c l k hl
  · rw [(hw c l).2 n lane hn, h.frame c l hl]; rfl

/-- An issue with nothing to free ends likewise. -/
theorem WarpsMoved.kept_of_none {g : Grp} {m t : Mach} {next : Member → Thread → Thread} (h : WarpsMoved g m t next) (hn : g.dueClears = []) : WarpsKept g m t next := by
  refine ⟨fun c l hl => ?_, h.faults, h.masks, h.members, h.threads, h.flags, fun c l n lane hl _ => ?_⟩
  · rw [h.frame c l hl]
  · have : g.freed c l n lane = false := by unfold Grp.freed; rw [hn]; simp
    rw [this, h.frame c l hl]; rfl

/-! ### An instruction of fixed latency -/

/-- The write-backs of a machine bring the results. -/
theorem results_of {g : Grp} {m t : Mach} (hp : g.placedIn m) (hx : ∀ x ∈ g.execs, x ∈ g.members) (wide : Bool) (f : Member → DWord × BitVec 7)
    (hw : ∀ w, w ∈ (t.slc g.core g.slice).wbs ↔ w ∈ ((g.commit m).slc g.core g.slice).wbs ∨ w ∈ g.excWbs (fun x => (f x).2) ∨ w ∈ g.laneWbs wide (fun x => (f x).1)) :
    Results g m t wide f := by
  have hslot : ∀ x ∈ g.execs, x.slot ∈ g.execSlots := fun x h => (mem_slotsOfMembers ..).2 ⟨(hp.1 x (hx x h)).1, x, h, rfl⟩
  have hin : ∀ x ∈ g.execs, x ∈ g.execs.filter (fun y => decide (y.slot = x.slot)) := fun x h => List.mem_filter.2 ⟨h, by simp⟩
  refine ⟨fun hb x h => ?_, fun x h he => ?_, fun hv hf x h => ?_, fun w hm => ?_, fun w h => ?_⟩
  · unfold Grp.delivers
    split
    · rename_i n hd
      refine ⟨(g.execs.filter (fun y => decide (y.slot = x.slot))).flatMap (fun x => cellsOf n.toNat x.lane wide (f x).1), (hw _).2 (.inr (.inr ?_)),
        fun c hc => List.mem_flatMap.2 ⟨x, hin x h, hc⟩⟩
      unfold Grp.laneWbs
      rw [hb, hd]
      exact List.mem_map.2 ⟨x.slot, hslot x h, rfl⟩
    · rename_i n hd
      refine ⟨(g.execs.filter (fun y => decide (y.slot = x.slot))).map (fun x => (x.lane, (f x).1 != 0)), (hw _).2 (.inr (.inr ?_)), List.mem_map.2 ⟨x, hin x h, rfl⟩⟩
      unfold Grp.laneWbs
      rw [hb, hd]
      exact List.mem_map.2 ⟨x.slot, hslot x h, rfl⟩
    · rename_i n hd
      refine ⟨g.execs.map (fun x => (x.lane, if wide then (f x).1 else ((f x).1.setWidth 32).setWidth 64)), g.lead.slot, (hw _).2 (.inr (.inr ?_)), List.mem_map.2 ⟨x, h, rfl⟩⟩
      unfold Grp.laneWbs
      rw [hb, hd]
      exact List.mem_singleton.2 rfl
    · trivial
  · have hb := orExc_mem ((g.execs.filter (fun y => decide (y.slot = x.slot))).map (fun x => (f x).2)) _ (List.mem_map.2 ⟨x, hin x h, rfl⟩)
    refine ⟨_, (hw _).2 (.inr (.inl (List.mem_filterMap.2 ⟨x.slot, hslot x h, ?_⟩))), hb⟩
    rw [if_neg]
    intro e
    rw [e] at hb
    exact he (by simpa using hb.symm)
  · refine (hw _).2 (.inl ((g.mem_commit_wbs m _).2 (.inr ?_)))
    unfold Grp.flagWbs
    rw [if_neg (by rintro (e | e); exact hv e; omega)]
    exact List.mem_map.2 ⟨x.slot, (mem_slotsOfMembers ..).2 ⟨(hp.1 x h).1, x, h, rfl⟩, rfl⟩
  · exact (hw w).2 (.inl ((g.mem_commit_wbs m w).2 (.inl hm)))
  · rcases (hw w).1 h with h | h | h
    · rcases (g.mem_commit_wbs m w).1 h with h | h
      · exact .inl h
      · right
        unfold Grp.flagWbs at h
        split at h
        · cases h
        · obtain ⟨s, -, rfl⟩ := List.mem_map.1 h; rfl
    · right
      obtain ⟨s, -, h⟩ := List.mem_filterMap.1 h
      split at h
      · cases h
      · cases h; rfl
    · right
      unfold Grp.laneWbs at h
      split at h
      · cases h
      · rename_i hb
        have hb : g.o.ctl.wbs = false := by simpa using hb
        split at h
        · rename_i n hd
          obtain ⟨s, -, rfl⟩ := List.mem_map.1 h
          unfold Grp.brings; rw [hd]
          refine ⟨hb, fun c hc => ?_⟩
          obtain ⟨x, hx, hc⟩ := List.mem_flatMap.1 hc
          exact ⟨x, (List.mem_filter.1 hx).1, of_decide_eq_true (List.mem_filter.1 hx).2, hc⟩
        · rename_i n hd
          obtain ⟨s, -, rfl⟩ := List.mem_map.1 h
          unfold Grp.brings; rw [hd]
          refine ⟨hb, rfl, fun c hc => ?_⟩
          obtain ⟨x, hx, rfl⟩ := List.mem_map.1 hc
          exact ⟨x, (List.mem_filter.1 hx).1, of_decide_eq_true (List.mem_filter.1 hx).2, rfl⟩
        · rename_i n hd
          rw [List.mem_singleton] at h; subst h
          unfold Grp.brings; rw [hd]
          refine ⟨hb, rfl, fun c hc => ?_⟩
          obtain ⟨x, hx, rfl⟩ := List.mem_map.1 hc
          exact ⟨x, hx, rfl⟩
        · cases h

/-- ALL THAT AN INSTRUCTION OF FIXED LATENCY DOES: it advances its members and queues its results. -/
theorem laneOp_spec {s : State} {k : Mn} {o : Op} {own : Grp → List Nat} {g : Grp} {m : Mach} (wide : Bool) (f : Grp → Member → DWord × BitVec 7) (h : Issues s k o own g m) :
    ∃ t, laneOp k o own wide f s = { s with m := t } ∧ Advances g m t (fun _ => g.advance) ∧ Results g m t wide (f g) := by
  refine ⟨_, issueWith_eq _ h, ?_⟩
  have hp := h.placedIn
  have hx := (operandsOf_frame h.operands).2.1
  simp only [Grp.wbExc_eq, Grp.wbLanes_eq]
  have hk : Kept g m (g.freeReads g.execLanes (((g.commit m).addWbs g.core g.slice (g.excWbs (fun x => (f g x).2))).addWbs g.core g.slice (g.laneWbs wide (fun x => (f g x).1)))) :=
    (((g.commit_kept m).trans (.addWbs g _ _)).trans (.addWbs g _ _)).trans (g.freeReads_kept _)
  refine ⟨⟨hk.1, hk.2, (((g.commit_moved m hp).addWbs _).addWbs _).freed⟩, results_of hp hx wide (f g) (fun w => ?_)⟩
  rw [g.freeReads_wbs, Mach.mem_addWbs, Mach.mem_addWbs, or_assoc]

end Sys2Proof.Machine
end

