-- ==== Sys2Proof/Tests/Slice0.lean ====
section
/-! SUPPORT. The model's own tests: ill-formed terms the encoding checks refuse, words written out from the spec's encodings, results the spec works out in its examples, and for every statement with hypotheses a state that meets them. -/

namespace Sys2Proof.Tests

open Sys2Proof Sys2Proof.Machine

set_option maxRecDepth 100000
set_option Elab.async false

/-! ## A small state -/

/-- A warp of four threads, a quad, at one program counter. -/
def quad : List Member := (List.range 4).map (fun l => ⟨0, l⟩)

/-- The layout records of the launch, one of integers, one of texels, one of samples (01 R37). -/
def layouts : List (List Nat) :=
  [[2 ^ 61 + 0x23 * 2 ^ 52 + 2 ^ 48, 0, 4 * 2 ^ 32, 0, 3 * 2 ^ 24, 0, 0, 2 ^ 40], [3 * 2 ^ 61 + 0x47 * 2 ^ 52 + 2 ^ 48, 0, 4 * 2 ^ 32 + 1, 2 ^ 32, 3 * 2 ^ 24, 0, 0, 0],
   [2 * 2 ^ 61 + 0x11 * 2 ^ 52 + 2 ^ 48, 0, 16 * 2 ^ 32 + 1, 0, 15 * 2 ^ 24, 0, 0, 0]]

/-- A launch of one block of 32 threads: 64 KiB of scratchpad, 8 units of accumulators, layout records at 1024, constants at 0. -/
def launch : Launch := { probeLaunch with rcd := [3 * 2 ^ 27, 0, 2 ^ 40 + 2 ^ 24 + 2 ^ 8, 32 * 2 ^ 53 + 2 ^ 42 + 2 ^ 31 + 256 * 256, 12 * 2 ^ 50 + 2 * 2 ^ 43 + 4 * 2 ^ 36 + 256 * 2 ^ 16 + 8 * 2 ^ 8, 0, 0, 1024, 0, 0, 0, 0, 0, 0, 0, 0] }

/-- The registers that tests read: each name with a value for each of the four lanes. -/
def regs (vs : List (Nat × List Word)) : Tab Word := vs.foldl (fun t r => (List.range 4).foldl (fun t l => Tab.set t (32 * r.1 + l) (r.2.getD l 0)) t) []

def tile (fmt rows cols : Nat) (sd : Bool) (st : BitVec 2) : Tile := { Tile.reset with fmt := BitVec.ofNat 8 fmt, rows := BitVec.ofNat 8 (rows - 1), cols := BitVec.ofNat 12 (cols - 1), sd, st }

def acc (fmt : Nat) : Acc := { sat := false, m := 16, n := 16, fmt, data := [], grant := 0, inflight := [] }

/-- A resident block: two filled FP16 tiles, an empty one, one to drain into, and the tiles of a ternary product; two accumulators. -/
def block : Block :=
  { probeBlock with
    tiles := [(0, tile 0x45 16 16 false 2), (1, tile 0x45 16 16 false 2), (2, tile 0x45 16 16 false 0), (3, tile 0x47 16 16 false 0), (4, tile 0x60 16 300 true 2), (5, tile 0x21 16 300 false 2)],
    accs := [(0, acc 0x47), (1, acc 0x23)] }

/-- Words at a virtual address of the page at 0; those that are 0 need no write. -/
def words (t : Tab Byte) (a : Nat) (ws : List Nat) : Tab Byte :=
  ((ws.mapIdx (fun i w => (i, w))).filter (fun w => w.2 ≠ 0)).foldl (fun t w => memWrite t (probeFrame 5 * 4096 + a + 8 * w.1) 8 w.2) t

/-- The page at virtual address 0: the pointer to the node table of a work graph, a node of 16 records of two registers, the layout records. -/
def page (t : Tab Byte) : Tab Byte := words (words (words t 1008 [2048]) 2048 [2 ^ 63 + 4 * 2 ^ 56 + 2 * 2 ^ 48]) 1024 layouts.flatten

/-- A core with one such warp, chosen for issue, with the registers given. -/
def small (tag : Nat) (l : Launch) (v sr : Tab Word) : State :=
  let s := State.reset.withWord 0
  { s with agenda := [], m := { s.m with
      mem := page s.m.mem, bundles := [(1, { probeBundle with tag, launches := [(0, l)] })], blocks := [(1, block)],
      warps := [(0, { probeWarp with v, s := sr, seg := placeSegs l 0 0, res := [(0, 4)], threads := (List.range 4).map (fun l => (l, probeThread)) })],
      sel := { core := 0, slice := 0, pc := 0, members := quad, replays := [] } } }

/-- The same with the launch in quad order. -/
def quadLaunch : Launch := { launch with rcd := launch.rcd.set 0 (3 * 2 ^ 27 + 2 ^ 60) }

/-- The handler warp chosen, in service of a trap of that warp. -/
def handling : State :=
  let s := small 0 launch [] []
  { s with m := { s.m with
      warps := [(0, { probeWarp with stopped := true, threads := (List.range 4).map (fun l => (l, probeThread)) }), (96, { probeWarp with blk := 0, num := 96, threads := (List.range 4).map (fun l => (l, probeThread)) })],
      cores := [(0, { Core.reset with bank := 64, service := some { trap := { at_ := 0, cause := 0x0A, swnum := 0, tpc := 0, members := 15, slots := [0], bundle := some 1 }, slots := [0], began := 0, xwr := [] } })],
      sel := { s.m.sel with members := (List.range 4).map (fun l => ⟨96, l⟩) } } }


/-! ## Every instruction issues somewhere -/

/-- The word decodes to an instruction of the mnemonic, and in the state it has executing members and meets no cause. -/
structure Found (own? : Instr → Option (Grp → List Nat)) (s : State) (k : Mn) (w : Nat) : Prop where
  found : ∃ i o own g m, decodeTableWord 128 w = some i ∧ i.mnOp? = some (k, o) ∧ own? i = some own ∧ Issues s k o own g m ∧ g.execs ≠ []

def placedHere (g : Grp) : Bool :=
  g.members.all (fun x => decide (x.slot ≤ handlerSlot) && (g.m.warp g.core x.slot).threads.has x.lane) && g.replays.all (fun s => g.members.any (fun x => x.slot == s))

theorem placed_of_here (g : Grp) (h : placedHere g = true) : g.placed := by
  simp only [placedHere, Bool.and_eq_true, List.all_eq_true, List.any_eq_true, decide_eq_true_eq, beq_iff_eq] at h
  exact h

def finds (own? : Instr → Option (Grp → List Nat)) (s : State) (k : Mn) (w : Nat) : Bool :=
  match decodeTableWord 128 w with
  | none => false
  | some i =>
    match i.mnOp?, own? i with
    | some (j, o), some own =>
      match operandsOf s j o with
      | some (g, _) => j == k && placedHere g && g.cause own == 0 && !g.execs.isEmpty
      | none => false
    | _, _ => false

theorem found_of_finds (own? : Instr → Option (Grp → List Nat)) (s : State) (k : Mn) (w : Nat) (h : finds own? s k w = true) : Found own? s k w := by
  unfold finds at h
  split at h
  · exact absurd h (by simp)
  · rename_i i hi
    split at h
    · rename_i j o own hm ho
      split at h
      · rename_i g m hg
        simp only [Bool.and_eq_true, beq_iff_eq, Bool.not_eq_true', List.isEmpty_eq_false_iff] at h
        obtain ⟨⟨⟨hk, hp⟩, hc⟩, he⟩ := h
        subst hk
        exact ⟨i, o, own, g, m, hi, hm, ho, ⟨hg, placed_of_here g hp, hc⟩, he⟩
      · exact absurd h (by simp)
    · exact absurd h (by simp)

/-- A whole list of words. -/
def findsAll (own? : Instr → Option (Grp → List Nat)) (s : State) (l : List (Mn × Nat)) : Bool := l.all (fun p => finds own? s p.1 p.2)

theorem found_all (own? : Instr → Option (Grp → List Nat)) (s : State) (l : List (Mn × Nat)) (h : findsAll own? s l = true) : ∀ p ∈ l, Found own? s p.1 p.2 :=
  fun p hp => found_of_finds own? s p.1 p.2 (List.all_eq_true.mp h p hp)

/-- The word decodes to an instruction of the mnemonic that reads its records and meets no cause. -/
structure Reads (form : Instr → Option ReadForm) (s : State) (k : Mn) (w : Nat) : Prop where
  found : ∃ i o F g m rs, decodeTableWord 128 w = some i ∧ i.mnOp? = some (k, o) ∧ form i = some F ∧ IssuesReading s k o F.pre F.read F.own g m rs ∧ g.execs ≠ []

def findsRead (form : Instr → Option ReadForm) (s : State) (k : Mn) (w : Nat) : Bool :=
  match decodeTableWord 128 w with
  | none => false
  | some i =>
    match i.mnOp?, form i with
    | some (j, o), some F =>
      match operandsOf s j o with
      | some (g, m) =>
        match F.read g m with
        | (_, .ok rs) => j == k && placedHere g && !g.execs.isEmpty &&
            minCause (g.commonCauses ++ (F.pre g ++ F.own g rs)) == 0
        | _ => false
      | none => false
    | _, _ => false

theorem reads_of_finds (form : Instr → Option ReadForm) (s : State) (k : Mn) (w : Nat) (h : findsRead form s k w = true) : Reads form s k w := by
  unfold findsRead at h
  split at h
  · exact absurd h (by simp)
  · rename_i i hi
    split at h
    · rename_i j o F hm ho
      split at h
      · rename_i g m hg
        split at h
        · rename_i m' rs hr
          simp only [Bool.and_eq_true, beq_iff_eq, Bool.not_eq_true'] at h
          obtain ⟨⟨⟨hk, hp⟩, he⟩, hc⟩ := h
          subst hk
          refine ⟨i, o, F, g, m', rs, hi, hm, ho, ⟨⟨m, hg, ?_⟩, placed_of_here g hp, ?_⟩, ?_⟩
          · simpa [he] using hr
          · simpa [he] using hc
          · intro hn; simp [hn] at he
        · exact absurd h (by simp)
      · exact absurd h (by simp)
    · exact absurd h (by simp)

def readsAll (form : Instr → Option ReadForm) (s : State) (l : List (Mn × Nat)) : Bool := l.all (fun p => findsRead form s p.1 p.2)

theorem reads_all (form : Instr → Option ReadForm) (s : State) (l : List (Mn × Nat)) (h : readsAll form s l = true) : ∀ p ∈ l, Reads form s p.1 p.2 :=
  fun p hp => reads_of_finds form s p.1 p.2 (List.all_eq_true.mp h p hp)


/-- Meets the hypotheses of IntegerResults. -/
def wordsInteger : List (Mn × Nat) :=
  [(.iadd, 0x0000F000081C10010080000000000000), (.isub, 0x0000F000085C10010080000000000000), (.imul, 0x0000F000089C10010080000000000000), (.imulh, 0x0000F00008DC10010080000000000000),
   (.idiv, 0x0000F000099C10010080000000000000), (.irem, 0x0000F00009DC10010080000000000000), (.imin, 0x0000F0000A1C10010080000000000000), (.imax, 0x0000F0000A5C10010080000000000000),
   (.imac, 0x0000F000091C10010080300000000000), (.idot4, 0x0000F0000DDC10010080300000000000), (.imacw, 0x0000F000095C10010080300000000000), (.iabs, 0x0000F0000A9C10010000000000000000),
   (.ineg, 0x0000F0000ADC10010000000000000000), (.iadd64, 0x0000F0000B1C10010080000000000000), (.isub64, 0x0000F0000B5C10010080000000000000), (.imul64, 0x0000F0000B9C10010080000000000000),
   (.imac64, 0x0000F0000BDC10010080300000000000)]
theorem test_issues_integer : ∀ p ∈ wordsInteger, Found (fun i => (integerForm i).map (·.own)) (small 0 launch [] []) p.1 p.2 := found_all _ _ _ (by decide +kernel)

/-- Meets the hypotheses of SelectResults. -/
def wordsSelect : List (Mn × Nat) :=
  [(.icmp, 0x0000F0000C1E42010080000000000000), (.icmp64, 0x0000F0000C5E42010080000000000000), (.sel, 0x0000F0000C9C10010080000000000000), (.lea, 0x0000F0000CDC10010080000000000010),
   (.plop, 0x0000F000181E42000000000000800021), (.pmov, 0x0000F000185E42000000000000000002), (.p2v, 0x0000F000189C10000000000000000000), (.tilest, 0x0000F000521C10000000000000000000)]
theorem test_issues_select : ∀ p ∈ wordsSelect, Found (fun i => (selectForm i).map (·.own)) (small 0 launch [] []) p.1 p.2 := found_all _ _ _ (by decide +kernel)

/-- Meets the hypotheses of LogicResults. -/
def wordsLogic : List (Mn × Nat) :=
  [(.and, 0x0000F000101C10010080000000000000), (.or, 0x0000F000105C10010080000000000000), (.xor, 0x0000F000109C10010080000000000000), (.shl, 0x0000F000115C10010080000000000000),
   (.shr, 0x0000F000119C10010080000000000000), (.sar, 0x0000F00011DC10010080000000000000), (.rot, 0x0000F000121C10010080000000000000), (.shl64, 0x0000F000125C10010080000000000000),
   (.shr64, 0x0000F000129C10010080000000000000), (.sar64, 0x0000F00012DC10010080000000000000), (.not, 0x0000F00010DC10010000000000000000), (.logic3, 0x0000F000111C1001008030E800000000),
   (.shfn, 0x0000F000141C10010080300000000000), (.bcnt, 0x0000F0000D1C10010000000000000000), (.lzc, 0x0000F0000D5C10010000000000000000), (.bitrev, 0x0000F0000D9C10010000000000000000)]
theorem test_issues_logic : ∀ p ∈ wordsLogic, Found (fun i => (logicForm i).map (·.own)) (small 0 launch [] []) p.1 p.2 := found_all _ _ _ (by decide +kernel)

/-- Meets the hypotheses of LogicResults. -/
def wordsField : List (Mn × Nat) :=
  [(.bfe, 0x0000F000131C10017FE0000000000404), (.bfi, 0x0000F000135C10010080300000000000), (.bmsk, 0x0000F000139C10010000000000000000), (.bperm, 0x0000F00013DC10010080300000000000)]
theorem test_issues_field : ∀ p ∈ wordsField, Found (fun i => (fieldForm i).map (·.own)) (small 0 launch [] []) p.1 p.2 := found_all _ _ _ (by decide +kernel)

/-- Meets the hypotheses of FloatSingleResults. -/
def wordsFloat32 : List (Mn × Nat) :=
  [(.fadd, 0x0000F000201C10010080000000000000), (.fsub, 0x0000F000205C10010080000000000000), (.fmul, 0x0000F000209C10010080000000000000), (.fmin, 0x0000F000211C10010080000000000000),
   (.fmax, 0x0000F000215C10010080000000000000), (.fdiv, 0x0000F000239C10010080000000000000), (.fmac, 0x0000F00020DC10010080300000000000), (.fabs, 0x0000F000219C10010000000000000000),
   (.fneg, 0x0000F00021DC10010000000000000000), (.frnd, 0x0000F000229C10010000000000000000), (.frcp, 0x0000F00022DC10010000000000000000), (.frsq, 0x0000F000231C10010000000000000000),
   (.fsqrt, 0x0000F000235C10010000000000000000), (.fex2, 0x0000F00023DC10010000000000000000), (.flg2, 0x0000F000241C10010000000000000000), (.fsin, 0x0000F000245C10010000000000000000),
   (.fcos, 0x0000F000249C10010000000000000000), (.ftanh, 0x0000F00024DC10010000000000000000), (.fcmp, 0x0000F000221E42010080000000000000), (.fclass, 0x0000F000225C10010000000000000000),
   (.fdot2, 0x0000F000251C10010080300000000000), (.fdot4, 0x0000F000255C10010080300000000000)]
theorem test_issues_float32 : ∀ p ∈ wordsFloat32, Found (fun i => (float32Form i).map (·.own)) (small 0 launch [] []) p.1 p.2 := found_all _ _ _ (by decide +kernel)

/-- Meets the hypotheses of FloatDoubleResults. -/
def wordsFloat64 : List (Mn × Nat) :=
  [(.dadd, 0x0000F000281C10010080000000000000), (.dsub, 0x0000F000285C10010080000000000000), (.dmul, 0x0000F000289C10010080000000000000), (.dmin, 0x0000F000291C10010080000000000000),
   (.dmax, 0x0000F000295C10010080000000000000), (.ddiv, 0x0000F0002B9C10010080000000000000), (.dmac, 0x0000F00028DC10010080300000000000), (.dabs, 0x0000F000299C10010000000000000000),
   (.dneg, 0x0000F00029DC10010000000000000000), (.drnd, 0x0000F0002A9C10010000000000000000), (.drcp, 0x0000F0002ADC10010000000000000000), (.drsq, 0x0000F0002B1C10010000000000000000),
   (.dsqrt, 0x0000F0002B5C10010000000000000000), (.dcmp, 0x0000F0002A1E42010080000000000000), (.dclass, 0x0000F0002A5C10010000000000000000)]
theorem test_issues_float64 : ∀ p ∈ wordsFloat64, Found (fun i => (float64Form i).map (·.own)) (small 0 launch [] []) p.1 p.2 := found_all _ _ _ (by decide +kernel)

/-- Meets the hypotheses of PackedHalfResults. -/
def wordsHalf : List (Mn × Nat) :=
  [(.hadd2, 0x0000F000301C10010080000000000000), (.hsub2, 0x0000F000305C10010080000000000000), (.hmul2, 0x0000F000309C10010080000000000000), (.hmin2, 0x0000F000311C10010080000000000000),
   (.hmax2, 0x0000F000315C10010080000000000000), (.hcmp2, 0x0000F000321C10010080000000000000), (.hmac2, 0x0000F00030DC10010080300000000000), (.habs2, 0x0000F000319C10010000000000000000),
   (.hneg2, 0x0000F00031DC10010000000000000000), (.hclass2, 0x0000F000325C10010000000000000000), (.hex2, 0x0000F000329C10010000000000000000), (.hrcp2, 0x0000F00032DC10010000000000000000)]
theorem test_issues_half : ∀ p ∈ wordsHalf, Found (fun i => (halfForm i).map (·.own)) (small 0 launch [] []) p.1 p.2 := found_all _ _ _ (by decide +kernel)

/-- Meets the hypotheses of ConversionResults. -/
def wordsConvert : List (Mn × Nat) :=
  [(.cvt, 0x0000F000381C10010000000000004723), (.cvtsat, 0x0000F000385C10010000000000004721), (.pack, 0x0000F000389C10060000000000000045), (.sdenc, 0x0000F000391C10060000000000000045),
   (.sdhdr, 0x0000F000399C10010000000000000045), (.t5pk, 0x0000F00039DC10010080000000000000), (.t5unpk, 0x0000F0003A1C10010000000000000000)]
theorem test_issues_convert : ∀ p ∈ wordsConvert, Found (fun i => (convertForm i).map (·.own)) (small 0 launch [] []) p.1 p.2 := found_all _ _ _ (by decide +kernel)

/-- Meets the hypotheses of ExchangeResults. -/
def wordsExchange : List (Mn × Nat) :=
  [(.lxch, 0x0000F000401C10010080005000000000), (.vote, 0x0000F000405E42000000000000000007), (.ballot, 0x0000F000409C10000000000000000007), (.matchl, 0x0000F00040DC10010000000000000000),
   (.redux, 0x0000F000411C10010000000000000000), (.scan, 0x0000F000415C10010000000000000000), (.qswz, 0x0000F000421C100100000000000000B1)]
theorem test_issues_exchange : ∀ p ∈ wordsExchange, Found (fun i => (exchangeForm i).map (·.own)) (small 0 launch [] []) p.1 p.2 := found_all _ _ _ (by decide +kernel)

/-- Meets the hypotheses of ExchangeResults, in a launch in quad order. -/
def wordsQuad : List (Mn × Nat) :=
  [(.ddx, 0x0000F000419C10010000000000000000), (.ddy, 0x0000F00041DC10010000000000000000)]
theorem test_issues_quad : ∀ p ∈ wordsQuad, Found (fun i => (exchangeForm i).map (·.own)) (small 0 quadLaunch [] []) p.1 p.2 := found_all _ _ _ (by decide +kernel)

/-- Meets the hypotheses of RegisterRunResults. -/
def wordsRun : List (Mn × Nat) :=
  [(.unpack, 0x0000F00038DC10010000000000000045), (.sddec, 0x0000F000395C40010000000000000002)]
theorem test_issues_run : ∀ p ∈ wordsRun, Found (fun i => (runForm i).map (·.own)) (small 0 launch [] []) p.1 p.2 := found_all _ _ _ (by decide +kernel)

/-- Meets the hypotheses of ScalarPipeResults. -/
def wordsScalar : List (Mn × Nat) :=
  [(.smov, 0x0000F000191E08830000000000000000), (.siadd, 0x0000F000195E08832100000000000000), (.simul, 0x0000F000199E08832100000000000000), (.sand, 0x0000F00019DE08832100000000000000),
   (.sor, 0x0000F0001A1E08832100000000000000), (.sxor, 0x0000F0001A5E08832100000000000000), (.sshl, 0x0000F0001A9E08832100000000000000), (.sshr, 0x0000F0001ADE08832100000000000000),
   (.v2s, 0x0000F0001B5E080120C0000000000000), (.segrd, 0x0000F0001C9E08000000000000000000), (.flagrd, 0x0000F0001CDE08000000000000000000)]
theorem test_issues_scalar : ∀ p ∈ wordsScalar, Found (fun i => (scalarForm i).map (fun _ => noCauses)) (small 0 launch [] []) p.1 p.2 := found_all _ _ _ (by decide +kernel)

/-- Meets the hypotheses of LaneSelection. -/
def wordsLanes : List (Mn × Nat) :=
  [(.scmp, 0x0000F0001B1E42832100000000000000), (.v2p, 0x0000F00018DFFE010000000000000005), (.s2v, 0x0000F0001B9C10837FE000000000000F), (.srd, 0x0000F0001BDC10000000000000000007)]
theorem test_issues_lanes : ∀ p ∈ wordsLanes, Found (fun _ => some noCauses) (small 0 launch [] []) p.1 p.2 := found_all _ _ _ (by decide +kernel)

/-- Meets the hypotheses of ControlTransfers. -/
def wordsTransfer : List (Mn × Nat) :=
  [(.nop, 0x0000F000005FFE000000000000000000), (.bra, 0x0000F000009FFE000000000000000003), (.brx, 0x0000F00000DFFE010000000000000000), (.call, 0x0000F000011C10000000000000000003),
   (.callx, 0x0000F000015C10010000000000000000), (.ret, 0x0000F000019FFE010000000000000000)]
theorem test_issues_transfer : ∀ p ∈ wordsTransfer, Found (fun i => (transferForm i).map (fun _ => noCauses)) (small 0 launch [] []) p.1 p.2 := found_all _ _ _ (by decide +kernel)

/-- Meets the hypotheses of RejoinMasks. -/
def wordsMask : List (Mn × Nat) :=
  [(.enrol, 0x0000F000029FFE000000000100000000), (.park, 0x0000300002DFFE000000000100000000), (.strike, 0x0000F000031FFE000000000100000000)]
theorem test_issues_mask : ∀ p ∈ wordsMask, Found (fun i => (maskForm i).map (·.own)) (small 0 launch [] []) p.1 p.2 := found_all _ _ _ (by decide +kernel)

/-- Meets the hypotheses of ThreadsEnd. -/
def wordsEnd : List (Mn × Nat) :=
  [(.exit, 0x0000F00001DFFE000000000000000000), (.demote, 0x0000F000035FFE000000000000000000), (.kill, 0x0000F000039FFE000000000000000000), (.beat, 0x0000F000025FFE000000000000000000)]
theorem test_issues_end : ∀ p ∈ wordsEnd, Found (fun i => (endForm i).map (·.own)) (small 0 launch [] []) p.1 p.2 := found_all _ _ _ (by decide +kernel)

/-- Meets the hypotheses of ThreadsEnd, YIELD. -/
def wordsYield : List (Mn × Nat) :=
  [(.yield, 0x0000F000021FFE000000000000000000)]
theorem test_issues_yield : ∀ p ∈ wordsYield, Found (fun _ => some noCauses) (small 0 launch [] []) p.1 p.2 := found_all _ _ _ (by decide +kernel)

/-- Meets the hypotheses of SystemState. -/
def wordsSystem : List (Mn × Nat) :=
  [(.flagclr, 0x0000F0001D1FFE000000000000000001), (.cctlIinv, 0x000030001D5FFE000000000000000000), (.cctlIinvpg, 0x000030001D5FFE830000000100000000)]
theorem test_issues_system : ∀ p ∈ wordsSystem, Found (fun i => (systemForm i).map (·.own)) (small 0 launch [] []) p.1 p.2 := found_all _ _ _ (by decide +kernel)

/-- Meets the hypotheses of SystemState, the privileged forms in firmware's own context. -/
def wordsPrivileged : List (Mn × Nat) :=
  [(.swr, 0x0000F0001C1FFE830000000800000000), (.segld, 0x0000F0001C5FFE832100000300000000), (.cctlTlbpg, 0x000030001D5FFE830000000200000000),
   (.cctlTlball, 0x000030001D5FFE000000000300000000)]
theorem test_issues_privileged : ∀ p ∈ wordsPrivileged, Found (fun i => (systemForm i).map (·.own)) (small 64 launch [] []) p.1 p.2 := found_all _ _ _ (by decide +kernel)

/-- Meets the hypotheses of MemoryIssue. -/
def wordsMemory : List (Mn × Nat) :=
  [(.ld, 0x00000000481C10010000000400000010), (.st, 0x00000000485FFE010080000400000000), (.lds, 0x00000000489C10010000000400000000), (.sts, 0x0000000048DFFE010080000400000000),
   (.ldc, 0x00000000491C10010000000400000000), (.ldl, 0x00000000495C10010000000400000000), (.stl, 0x00000000499FFE010080000400000000), (.gath, 0x0000000049DC10010080000C00000000),
   (.scat, 0x000000004A1FFE010080300C00000000), (.atom, 0x000000004A9C10010080000100000000), (.red, 0x000000004ADFFE010080000100000000), (.cas128, 0x000000004B1C10010080600100000000),
   (.tlrmake, 0x00000000501C10010000000000000000), (.ttq, 0x00000000589FFE010000000000000000)]
theorem test_issues_memory : ∀ p ∈ wordsMemory, Found (fun i => (memoryForm i).map (·.own)) (small 0 launch [] []) p.1 p.2 := found_all _ _ _ (by decide +kernel)

/-- Meets the hypotheses of BarrierIssue. -/
def wordsBarrier : List (Mn × Nat) :=
  [(.pref, 0x000000004A5FFE010000000000000000), (.fence, 0x000000004B5FFE000000000000000000), (.cpseal, 0x0000F00050DFFE000000000000000000), (.cpwait, 0x00000000511C10000000000000000000),
   (.bcinitInit, 0x00000000515FFE010000000000000000), (.bcinitArm, 0x00000000515FFE010080000100000000), (.bcwait, 0x00000000519FFE010080000000000000)]
theorem test_issues_barrier : ∀ p ∈ wordsBarrier, Found (fun i => (barrierForm i).map (·.own)) (small 0 launch [] []) p.1 p.2 := found_all _ _ _ (by decide +kernel)

/-- Meets the hypotheses of SynchronisationIssue. -/
def wordsSync : List (Mn × Nat) :=
  [(.barSync, 0x00000000801FFE830000000000000000), (.barArrive, 0x00000000801FFE830000000100000000), (.evset, 0x00000000805FFE010000000000000000),
   (.evsetClr, 0x00000000805FFE010000000100000000), (.evwait, 0x00000000809FFE010000000000000000), (.evtest, 0x0000000080DC10010000000000000000)]
theorem test_issues_sync : ∀ p ∈ wordsSync, Found (fun i => (syncForm i).map (·.own)) (small 0 launch [] []) p.1 p.2 := found_all _ _ _ (by decide +kernel)

/-- Meets the hypotheses of TileIssue. -/
def wordsTile : List (Mn × Nat) :=
  [(.tilecfg, 0x0000F00051DEC0832100000000000000), (.tilerst, 0x0000F00052DFFE000000000000000000), (.tilerd, 0x00000000525C10010000000000000000),
   (.tilewr, 0x00000000529FFE010080000200000000)]
theorem test_issues_tile : ∀ p ∈ wordsTile, Found (fun i => (tileForm i).map (·.own)) (small 0 launch [] [(6, 0x00F0F045)]) p.1 p.2 := found_all _ _ _ (by decide +kernel)

/-- Meets the hypotheses of AccumulatorIssue. -/
def wordsAcc : List (Mn × Nat) :=
  [(.acalloc, 0x0000000058DE08830000000000000000), (.acfree, 0x0000F000591FFE840000000000000000), (.acrd, 0x00000000595C10840040000000000000), (.acwr, 0x00000000599FFE840040200000000000),
   (.aczero, 0x0000000059DFFE840000000000000000), (.acdrain, 0x000000005A1EC6840000000000000000), (.mma, 0x00000000581E14840000001000000000), (.mmas, 0x00000000585E14860000005400000000)]
theorem test_issues_acc : ∀ p ∈ wordsAcc, Found (fun i => (accForm i).map (·.own)) (small 0 launch [] [(6, 0x000F0F47), (12, 1)]) p.1 p.2 := found_all _ _ _ (by decide +kernel)

/-- Meets the hypotheses of RecordIssue. -/
def wordsRecord : List (Mn × Nat) :=
  [(.cpy, 0x00000000505FFE010080000000000000), (.cpym, 0x00000000509FFE010080000000000000), (.ttqClaim, 0x00000000589E08000000002000000000), (.wgres, 0x00000000889E08832100000000000000),
   (.wgcancel, 0x00000000891E08832100000000000000), (.wgcommit, 0x0000000088DFFE830040000000000000), (.resume, 0x00000000885C20000000000000000000)]
theorem test_issues_record : ∀ p ∈ wordsRecord, Reads recordForm (small 0 launch [] []) p.1 p.2 := reads_all _ _ _ (by decide +kernel)

/-- Meets the hypotheses of MacroIssue. -/
def wordsMacro : List (Mn × Nat) :=
  [(.rast, 0x00000000601C40000000000000000000), (.trav, 0x00000000609C40000000000000000000), (.attr, 0x00000000605C40000000000000000000), (.filt, 0x0000000060DC40000000000100000000),
   (.oblend, 0x00000000611C40000000000000000000), (.dice, 0x00000000615C40000000000000000000), (.samps, 0x00000000619C40000000000000000000), (.bmatch, 0x0000000061DC40000000000200000000)]
theorem test_issues_macro : ∀ p ∈ wordsMacro, Reads macroForm (small 0 launch [] []) p.1 p.2 := reads_all _ _ _ (by decide +kernel)

/-- Meets the hypotheses of HandlerInstructions. -/
def wordsCont : List (Mn × Nat) :=
  [(.cont, 0x00000000881FFE000000000000000000), (.trap, 0x0000F00090DFFE000000000000000005)]
theorem test_issues_cont : ∀ p ∈ wordsCont, Found (fun i => (handlerForm i).map (·.own)) (small 0 launch [] []) p.1 p.2 := found_all _ _ _ (by decide +kernel)

/-- Meets the hypotheses of HandlerInstructions, in the handler warp. -/
def wordsHandler : List (Mn × Nat) :=
  [(.xrd, 0x00000000901C10830000000000000000), (.xwr, 0x00000000905FFE830040000000000000), (.eretResume, 0x0000F000909FFE000000000000000000), (.eretKill, 0x0000F000909FFE000000000100000000),
   (.eretFdom, 0x0000F000909FFE000000000200000000)]
theorem test_issues_handler : ∀ p ∈ wordsHandler, Found (fun i => (handlerForm i).map (·.own)) (handling) p.1 p.2 := found_all _ _ _ (by decide +kernel)


/-! ## Every event is due somewhere -/

/-- An event of a table is due. -/
structure Due (form : Instr → Option EventForm) (i : Instr) (s : State) : Prop where
  due : ∃ F, form i = some F ∧ F.due s

theorem due_of {form : Instr → Option EventForm} {i : Instr} {s : State} (F : EventForm) (hf : form i = some F) (h : F.due s) : Due form i s := ⟨F, hf, h⟩

/-- A value is there and has a property. -/
theorem there {α : Type} {o : Option α} (P : α → Prop) [DecidablePred P] (h : o.any (fun x => decide (P x)) = true) : ∃ x, o = some x ∧ P x := by
  cases o with
  | none => simp at h
  | some x => exact ⟨x, rfl, by simpa using h⟩

/-- Partition 0 in use, tenant 0 bound to it, the window idle, vector 0 enabled. -/
def bound : Binding := { part := 0, queues := [0], vqslots := 4, vdepctr := 64, share := 1, noPlugin := false, first := none }
def device : State := let s := small 0 launch [] []; { s with fw := { s.fw with binds := [(0, bound)], win := { s.fw.win with busy := false, funcmode := 1 } } }

/-- The device with its machine, its shard 0, its tenant 0, its bundle or its block changed. -/
def machine (f : Mach → Mach) : State := { device with m := f device.m }
def onShard (h : Shard) : State := machine (fun m => { m with shards := [(0, h)] })
def onTenant (words : List (Nat × DWord)) : Mach → Mach := fun m => { m with tenants := [(0, { Tenant.reset with vcp := words })] }
def onBundle (f : Bundle → Bundle) : Mach → Mach := fun m => m.modBundle 1 f
def onLaunch (f : Launch → Launch) : Mach → Mach := fun m => m.modLaunch 1 0 f
def onBlock (f : Block → Block) : Mach → Mach := fun m => m.modBlock 1 f

def copy : Copy :=
  { blk := some 1, part := 0, bundle := 1, launch := 0, core := 0, dir := 0, warp := 0, lane := 0, rcd := layouts.headD [], org := [0], b := 0, x := 0, bar := none, drec := layouts.headD [], batch := 0,
    spill := none, started := false, pos := 0, sub := 0, status := 0, rcvs := [], shard := 0, reading := false, waitSeq := none, draft := none, linked := none, req := none, ended := false }
def aCopy (f : Copy → Copy) : Mach → Mach := fun m => { m with copies := [(1, f copy)] }

/-- A task that clears handle 0. -/
def task : Task :=
  { rcd := [0x01000000, 0, 0, 0], blk := 1, bundle := 1, launch := 0, core := 0, order := 0, spill := none, step := 0, st := .queued, reserve := 0, interval := 0, weight := 1, since := none, engine := 0,
    filling := false, owner := none, claim := none }
def aTask (f : Task → Task) : Mach → Mach := fun m => onBlock (fun b => { b with accs := [(0, { acc 0x47 with inflight := [1] })] }) { m with tasks := [(1, f task)] }

def draft : RecDraft := { page := 0, cause := 0x10, kind := 0, core := 0, wslot := 0, lanes := 1, tag := 0 }
def faulted (f : FaultRec → FaultRec) (st : TState) : Mach → Mach := fun m => m.modWarp 0 0 (fun w => { w with
  fault := some (f { pc := 0, members := 1, execs := 1, flag := 12, whole := false, handler := false, uncorrectable := false, seqs := [], drafts := [], stash := [] }),
  threads := (List.range 4).map (fun l => (l, { probeThread with st })) })
def queued (q : List FRec) : Mach → Mach := fun m => { m with parts := [(0, { Part.reset with faultQ := q, faultSeq := 1 })] }

def anAccess : Access :=
  { core := 0, op := .load 4, dst := .v 8, wbs := false, flag := 0, members := [⟨0, 0⟩], vals := [(0, 0, 5)], excs := [], doneSlots := [0] }

/-- An ATTR at its first step. -/
def attr (f : MacroOp → MacroOp) : Mach → Mach := fun m => { m with macros := [(1, f
  { core := 0, seq := 0, mn := .attr, o := { ctl := restCtl, gneg := false, gpred := 7, dst := .v 32, a := .v 0, b := .v 0, c := .v 0, md := 0, imm := 0 }, pc := 0, flag := 0, replays := [], members := [⟨0, 0⟩],
    lanes := [{ slot := 0, lane := 0, words := List.replicate 16 0, steps := 0, exc := 0, ending := none, emits := none }], recs := [], since := none, mark := none })] }

def mmaOp : MmaOp :=
  { core := 0, slot := 0, blk := 1, pc := 0, flag := 0, wbs := false, sp := 0, ta := 0, tb := 1, h := 0, mmas := false, step := 0, admitted := false, reserve := 0, interval := 0, since := some 0, weight := 1, engine := 0 }
def aMma (f : MmaOp → MmaOp) (st : TState) : Mach → Mach := fun m =>
  { onBlock (fun b => { b with accs := [(0, { acc 0x47 with inflight := [1] })] }) m with mmas := [(1, f mmaOp)] }.modWarp 0 0 (fun w => { w with threads := (List.range 4).map (fun l => (l, { probeThread with st })) })

/-- Meets the hypotheses of LinkEvents. -/
theorem test_due_links : Due linkForm (.linkTrained true 3 4) device ∧ Due linkForm .linkDown { device with subj := { Subj.zero with unit := 17 } } ∧ Due linkForm .crcErrorReplay device ∧
    Due linkForm (.peerCopyWrite 64 5) device ∧ Due linkForm (.hostAccess 64 8 (some 7)) device ∧ Due linkForm (.hostAccess 2 1 none) device :=
  ⟨due_of _ rfl (by decide), due_of _ rfl (by decide), due_of _ rfl (by decide), due_of _ rfl (by decide +kernel), due_of _ rfl (by decide +kernel), due_of _ rfl (by decide +kernel)⟩

/-- The arrivals of the test before translate, so that a byte is stored. -/
theorem test_store_translates : (match (walkTo device.fw device.m 0 64 .store none).2 with
    | .ok pa _ => pa == probeFrame 5 * 4096 + 64
    | .err _ => false) = true := by decide +kernel

/-- Meets the hypotheses of PowerEvents. -/
theorem test_due_power : Due powerForm (.votesWrite 13) { device with subj := { Subj.zero with part := 15 } } ∧ Due powerForm .regulatorSettled (onShard { Shard.reset with rising := true }) ∧
    Due powerForm .frequencyFall (onShard { Shard.reset with opnow := 3, fcop := 3, optarget := 1 }) ∧ Due powerForm .droopEvent device ∧ Due powerForm (.controlIntervalBoundary [] []) (onShard Shard.reset) :=
  ⟨due_of _ rfl (by decide), due_of _ rfl (by decide +kernel), due_of _ rfl (by decide +kernel), due_of _ rfl (by decide +kernel), due_of _ rfl (by decide +kernel)⟩

/-- Meets the hypotheses of ResetEvents. -/
theorem test_due_reset : Due resetForm .reset device ∧ Due resetForm .thermalTrip (onShard { Shard.reset with stopped := true }) ∧ Due resetForm (.lifecycleTransition .provisioned .factory false) device :=
  ⟨due_of _ rfl trivial, due_of _ rfl (by decide +kernel), due_of _ rfl (Or.inl ⟨rfl, rfl, rfl⟩)⟩

def ringing : Shard := { Shard.reset with interval := 1, rev := 1, pass := 16, cycle := 30 }

/-- Meets the hypotheses of RingEvents. -/
theorem test_due_ring : Due ringForm .revolutionStart (onShard { Shard.reset with interval := 1 }) ∧ Due ringForm .revolutionStart (onShard { Shard.reset with interval := 1, rev := 1, pass := 17, cycle := 32 }) ∧ Due ringForm .ringPass (onShard ringing) ∧
    Due ringForm (.queueRefill (.copyReq 0)) { machine (aCopy (fun c => { c with spill := some 0 })) with subj := { Subj.zero with bundle := 1 } } ∧
    Due ringForm (.queueRefill (.tileTask 0)) { machine (aTask (fun t => { t with spill := some 0 })) with subj := { Subj.zero with bundle := 1 } } :=
  ⟨due_of _ rfl (by decide +kernel), due_of _ rfl (by decide +kernel), due_of _ rfl (by decide +kernel), due_of _ rfl ⟨⟨1, by decide +kernel⟩, by decide +kernel⟩, due_of _ rfl ⟨⟨1, by decide +kernel⟩, by decide +kernel⟩⟩

def slip : Slip := { seq := 0, n := 0, ev := false, evbit := 0, seen := false, pc := 0, words := [], cpleft := 0, core := 0, spill := some 0 }
def wgRec : WgRec := { seq := 0, node := 0, words := [], core := 0, spill := some 0 }
def geo : Geo := { grid := false, words := [], shard := 0, spill := some 0 }

/-- Meets the hypotheses of RingEvents. -/
theorem test_due_refill :
    Due ringForm (.queueRefill .slip) { machine (onLaunch (fun l => { l with slips := [slip] })) with subj := { Subj.zero with bundle := 1 } } ∧
    Due ringForm (.queueRefill (.workGraph 0)) { machine (onLaunch (fun l => { l with wgRecs := [wgRec] })) with subj := { Subj.zero with bundle := 1 } } ∧
    Due ringForm (.queueRefill (.geometry 2)) { machine (onBundle (fun b => { b with bins := [(2, [geo])] })) with subj := { Subj.zero with bundle := 1 } } :=
  ⟨due_of _ rfl ⟨_, _, slip, rfl, rfl, by decide +kernel, by decide +kernel⟩, due_of _ rfl ⟨_, _, wgRec, rfl, rfl, by decide +kernel, by decide +kernel⟩, due_of _ rfl ⟨_, geo, rfl, by decide +kernel, by decide +kernel⟩⟩

/-- Meets the hypotheses of RingEvents. -/
theorem test_due_mark :
    Due ringForm (.reservationMark 0) { machine (fun m => attr (fun x => { x with since := some 0 }) { m with shards := [(0, { Shard.reset with cycle := 32 })] }) with subj := { Subj.zero with id := 1 } } ∧
    Due ringForm (.reservationMark 0) (machine (fun m => { m with slices := [(0, { Slice.reset with starve := [(0, 0)] })], shards := [(0, { Shard.reset with cycle := 32 })] })) :=
  ⟨due_of _ rfl (Or.inl (there _ (by decide +kernel))), due_of _ rfl (Or.inr ⟨rfl, there _ (by decide +kernel)⟩)⟩


theorem there2 {α β : Type} {o : Option α} {p : α → Option β} (P : α → β → Prop) [∀ a b, Decidable (P a b)] (h : o.any (fun x => (p x).any (fun y => decide (P x y))) = true) :
    ∃ x y, o = some x ∧ p x = some y ∧ P x y := by
  obtain ⟨x, hx, hy⟩ := there (fun x => (p x).any (fun y => decide (P x y)) = true) (o := o) (by simpa using h)
  obtain ⟨y, hy, hp⟩ := there (P x) (by simpa using hy)
  exact ⟨x, y, hx, hy, hp⟩

/-- A fault record of tenant 0 that waits in the partition's queue. -/
def record : FRec := { draft, seq := 0, copied := false }

/-- A tenant's fault ring of 2^12 bytes at virtual address 0, with nothing in it. -/
def faultRing : Mach → Mach := onTenant [(0x40, 12)]

/-- Meets the hypotheses of FaultEvents. -/
theorem test_due_faults :
    Due faultForm .faultRecordAppend (machine (faulted (fun f => { f with drafts := [draft] }) .faultWait)) ∧ Due faultForm .faultResolve (machine (queued [record])) ∧
    Due faultForm .faultReplay (machine (faulted id .faultWait)) ∧
    Due faultForm .memoryAccessComplete { machine (fun m => { m with accesses := [(1, anAccess)] }) with subj := { Subj.zero with id := 1 } } := by
  refine ⟨due_of _ rfl ⟨?_, by decide +kernel⟩, due_of _ rfl (there _ (by decide +kernel)), due_of _ rfl ?_, due_of _ rfl ?_⟩
  · obtain ⟨x, hx, -⟩ := there (fun _ => True) (o := (machine (faulted (fun f => { f with drafts := [draft] }) .faultWait)).m.waitingDraft 0) (by decide +kernel)
    exact ⟨x.1, x.2, hx⟩
  · obtain ⟨f, hf, -⟩ := there (fun _ => True) (o := ((machine (faulted id .faultWait)).m.warp 0 0).replayDue) (by decide +kernel)
    exact ⟨f, hf⟩
  · exact ⟨anAccess, rfl⟩

/-- Meets the hypotheses of FaultEvents. -/
theorem test_due_fault_copy : Due faultForm .faultRecordCopy (machine (fun m => faultRing (queued [record] m))) := by
  refine due_of _ rfl ⟨by unfold ringTakes; decide +kernel, record, _, by decide +kernel, Prod.ext rfl ?_⟩
  decide +kernel

def image (v : Word) : UcodeImage := { magic := 0, version := v, statever := 1, length := 0, slots := 0, sig := [], rsv := [1], body := [] }

/-- A second frame that firmware holds ready for partition 0, to which its page can move. -/
def spare : State := { device with fw := { device.fw with
  parts := [(0, { probePart with t0 := 1, pool := [5] })], owners := Tab.set device.fw.owners 5 0 } }

/-- Partition 0's firmware core runs the plug-in of tenant 0, called at cycle 0; an access of it. -/
def plugged (timer unit addr : Nat) : State := { device with
  fw := { device.fw with fwCores := [(1, { FwCore.reset with mode := .user, pmp := [(0, (0, 4096))], plugin := some 0, timer })] }, subj := { Subj.zero with unit, id := addr } }

/-- Meets the hypotheses of FirmwareEvents. -/
theorem test_due_firmware :
    Due firmwareForm (.microcodeLoad (image 0)) device ∧ ¬ imageGood (image 0) device.fw ∧
    Due firmwareForm .microcodeApplyLive { device with fw := { device.fw with imageNext := some Image.reset } } ∧ Due firmwareForm .sequencerCheckFail device ∧
    Due firmwareForm (.engineSelfTest 5) { device with subj := { Subj.zero with core := 255, unit := 3 } } ∧ Due firmwareForm (.wipeComplete .device) device ∧
    Due firmwareForm .pluginFault (plugged 0 1 4096) ∧ Due firmwareForm .pluginTimeout (plugged 51 0 0) ∧ ¬ Due firmwareForm .pluginTimeout (plugged 50 0 0) := by
  refine ⟨due_of _ rfl (by decide +kernel), ?_, due_of _ rfl ⟨by decide, _, rfl, rfl⟩, due_of _ rfl (by decide +kernel), due_of _ rfl (by decide), due_of _ rfl ⟨16, by decide +kernel⟩,
    due_of _ rfl ⟨bound, rfl, rfl, Or.inl (by decide)⟩, due_of _ rfl ⟨bound, rfl, rfl, by decide⟩, ?_⟩
  · intro h
    exact absurd h.1 (by decide)
  · rintro ⟨F, hf, hd⟩
    cases hf
    obtain ⟨b, hb, -, h⟩ := hd
    cases hb
    exact absurd h (by decide)

/-- Meets the hypotheses of FirmwareEvents. -/
theorem test_due_page_move : Due firmwareForm (.pageMove 0 5) spare := by
  refine due_of _ rfl ⟨by decide +kernel, Or.inr ⟨rfl, ?_⟩⟩
  obtain ⟨x, hx, hf⟩ := there (fun (x : MoveSrc) => x.frames = 1 ∧ spare.fw.standsFor 0 x.frame = true ∧ x.frame ≠ 5) (o := spare.moveSrc 0 0 0) (by decide +kernel)
  refine ⟨x, ⟨hx, ?_, ?_, ?_⟩⟩
  · rw [hf.1]
    exact ⟨Nat.mod_one _, by decide +kernel⟩
  · intro i hi
    rw [hf.1] at hi
    have hi0 : i = 0 := by omega
    subst hi0
    exact ⟨by decide +kernel, hf.2.1⟩
  · rw [hf.1]
    have h := hf.2.2
    omega

/-! ### The window's commands: discarded while BUSY, a cause, and no cause -/

/-- The window's registers: partition and tenant chosen, the partition's cores, channels, shares, the tenant's configuration. -/
def window (psel vfsel : DWord) (mask : Nat) (chan share vfcfg : DWord) : State :=
  { device with fw := { device.fw with win := { device.fw.win with psel, vfsel, corem := [((psel.toNat % 16), BitVec.ofNat 256 mask)], chan := [(psel.toNat % 16, chan)], share := [(psel.toNat % 16, share)], vfcfg := [(vfsel.toNat % 64, vfcfg)] } } }

/-- Meets the hypotheses of WindowCommands. -/
theorem test_due_window (w : DWord) : (w.toNat % 16 = 1 → Due windowForm (.create w) device) ∧ (w.toNat % 16 = 2 → Due windowForm (.resize w) device) ∧
    (w.toNat % 16 = 3 → Due windowForm (.destroy w) device) ∧ (w.toNat % 16 = 4 → Due windowForm (.bindvf w) device) ∧ (w.toNat % 16 = 5 → Due windowForm (.unbindvf w) device) ∧
    Due windowForm (.dropClear w) device ∧ Due windowForm (.funcmodeWrite w) device :=
  ⟨fun h => due_of _ rfl h, fun h => due_of _ rfl ⟨h, by decide +kernel⟩, fun h => due_of _ rfl h, fun h => due_of _ rfl h, fun h => due_of _ rfl h, due_of _ rfl trivial, due_of _ rfl trivial⟩

theorem create_free (share : DWord) (h0 : share = 0 ∨ share = 256 * 2 ^ 48) (hs : ∀ r, ¬ takeCause 1 r (window 1 0 2 0xFFFFFFFF share 0)) (r : Nat) : ¬ createCause 1 r (window 1 0 2 0xFFFFFFFF share 0) := by
  have early : ∀ q, ¬ ((q = 1 ∧ ((window 1 0 2 0xFFFFFFFF share 0).fw.part (window 1 0 2 0xFFFFFFFF share 0).fw.win.part).inUse = true) ∨
      (q = 4 ∧ ringOver (window 1 0 2 0xFFFFFFFF share 0).fw.win.mask (window 1 0 2 0xFFFFFFFF share 0).fw.win.chans = true) ∨ takeCause 1 q (window 1 0 2 0xFFFFFFFF share 0)) := by
    rintro q (h | h | h)
    · rcases h0 with rfl | rfl <;> exact absurd h.2 (by decide +kernel)
    · rcases h0 with rfl | rfl <;> exact absurd h.2 (by decide +kernel)
    · exact hs q h
  rintro (h | ⟨-, -, h⟩)
  · exact early r h
  · have := Laws.layout_isSome (window 1 0 2 0xFFFFFFFF share 0) (by rcases h0 with rfl | rfl <;> decide +kernel) (by rcases h0 with rfl | rfl <;> decide +kernel)
    rw [h] at this
    exact absurd this (by decide)

theorem take_free (share : DWord) (hs : share = 0 ∨ share = 256 * 2 ^ 48) (r : Nat) : ¬ takeCause 1 r (window 1 0 2 0xFFFFFFFF share 0) := by
  rcases hs with rfl | rfl
  · rintro (h | h | h | h | h)
    · exact absurd h.2 (by unfold coreHeld; decide +kernel)
    · exact absurd h.2 (by unfold chanHeld; decide +kernel)
    · exact absurd h.2 (by unfold sharesOver; decide +kernel)
    · exact absurd h.2 (by decide +kernel)
    · exact absurd h.2 (by decide +kernel)
  · rintro (h | h | h | h | h)
    · exact absurd h.2 (by unfold coreHeld; decide +kernel)
    · exact absurd h.2 (by unfold chanHeld; decide +kernel)
    · exact absurd h.2 (by unfold sharesOver; decide +kernel)
    · exact absurd h.2 (by decide +kernel)
    · exact absurd h.2 (by decide +kernel)

/-- CREATE of partition 1 with core 1 and every channel meets no cause; with core 0, which partition 0 has, CORE_TAKEN; of partition 0, BAD_PART; with tier-0 shares of 257 units, SHARE_OVER. -/
theorem test_create_clauses : (device.fw.win.busy = false) ∧ (∀ r, ¬ createCause 1 r (window 1 0 2 0xFFFFFFFF 0 0)) ∧ createCause 1 2 (window 1 0 1 (2 ^ 31) 0 0) ∧ createCause 1 1 (window 0 0 2 (2 ^ 31) 0 0) ∧
    createCause 1 4 (window 1 0 2 (2 ^ 31) (257 * 2 ^ 48) 0) ∧ (∀ r, ¬ createCause 1 r (window 1 0 2 0xFFFFFFFF (256 * 2 ^ 48) 0)) := by
  refine ⟨rfl, create_free 0 (Or.inl rfl) (take_free 0 (Or.inl rfl)), Or.inl (Or.inr (Or.inr (Or.inl ⟨rfl, ?_⟩))), Or.inl (Or.inl ⟨rfl, by decide +kernel⟩), Or.inl (Or.inr (Or.inr (Or.inr (Or.inr (Or.inl ⟨rfl, ?_⟩))))),
    create_free _ (Or.inr rfl) (take_free _ (Or.inr rfl))⟩
  · unfold coreHeld; decide +kernel
  · unfold sharesOver; decide +kernel

/-- RESIZE of partition 0 to cores 0 and 1 meets no cause, and with no channel EMPTY; DESTROY of it meets none, and of partition 1 BAD_PART; UNBINDVF of tenant 0 meets none, and of tenant 1 BAD_PART. -/
theorem test_window_clauses : (∀ r, ¬ resizeCause 2 r (window 0 0 3 (2 ^ 31) 0 0)) ∧ resizeCause 2 9 (window 0 0 3 0 0 0) ∧ (∀ r, ¬ destroyCause 3 r (window 0 0 0 0 0 0)) ∧ destroyCause 3 1 (window 1 0 0 0 0 0) ∧
    (∀ r, ¬ unbindCause 5 r (window 0 0 0 0 0 0)) ∧ unbindCause 5 1 (window 0 1 0 0 0 0) := by
  refine ⟨?_, Or.inr ⟨by decide +kernel, Or.inr (Or.inr (Or.inr (Or.inr (Or.inr ⟨rfl, by decide +kernel⟩))))⟩, ?_, Or.inl ⟨rfl, by decide +kernel⟩, ?_, Or.inl ⟨rfl, ?_⟩⟩
  · rintro r (h | ⟨-, h | h | h | h | h | h⟩)
    · exact absurd h.2 (by decide +kernel)
    · exact absurd h.2.2 (by decide +kernel)
    · exact absurd h.2 (by unfold coreHeld; decide +kernel)
    · exact absurd h.2 (by unfold chanHeld; decide +kernel)
    · exact absurd h.2 (by unfold sharesOver; decide +kernel)
    · exact absurd h.2 (by decide +kernel)
    · exact absurd h.2 (by decide +kernel)
  · rintro r (h | ⟨-, h | h⟩)
    · exact absurd h.2 (by decide +kernel)
    · exact absurd h.2.2 (by decide +kernel)
    · exact absurd h.2 (by decide +kernel)
  · rintro r (h | ⟨-, -, h⟩)
    · exact h.2 ⟨bound, rfl, by decide +kernel⟩
    · exact absurd h (by decide +kernel)
  · rintro ⟨b, h, -⟩
    rw [show (window 0 1 0 0 0 0).fw.binds.get? (window 0 1 0 0 0 0).fw.win.tag = none by decide +kernel] at h
    exact absurd h (by simp)

/-- BINDVF of tenant 1 to partition 0 with 63 queues and a share meets no cause (partition 0's slice is set); as an exclusive tenant SHARE_MODE; with 65 queues QUOTA_OVER. -/
def binding (cfg : DWord) : State := let s := window 0 1 0 0 0 cfg; { s with fw := { s.fw with parts := [(0, { probePart with slice := 1, qslots := 4, depctr := 64 })] } }
theorem test_bind_clauses : (∀ r, ¬ bindCause 4 r (binding (63 * 2 ^ 50 + 2 ^ 8))) ∧ bindCause 4 7 (binding (63 * 2 ^ 50)) ∧ bindCause 4 5 (binding (65 * 2 ^ 50 + 2 ^ 8)) := by
  refine ⟨?_, Or.inr ⟨by decide +kernel, Or.inr (Or.inl ⟨rfl, by decide +kernel⟩)⟩, Or.inr ⟨by decide +kernel, Or.inl ⟨rfl, by decide +kernel⟩⟩⟩
  rintro r (h | ⟨-, h | h | h⟩)
  · exact absurd h.2 (by decide +kernel)
  · exact absurd h.2 (by decide +kernel)
  · exact absurd h.2 (by decide +kernel)
  · exact absurd h.2 (by decide +kernel)

/-- A paused resize is resumed. (Hypotheses of WindowCommands.) -/
theorem test_due_resume : Due windowForm (.resizeResume 2) (let s := window 0 0 2 0 0 0; { s with fw := { s.fw with parts := [(0, { probePart with resize := some { mask := 2, departing := 1, chans := 0, t0 := 0, t2 := 0, host := true, paused := true } })] } }) :=
  due_of _ rfl ⟨by decide, _, rfl, rfl⟩


/-! ### Registers, doorbells, display heads -/

/-- A partition with core 0 departing, unattended or host-assisted, and nothing on the core but the warp of an exited block. -/
def departing (host : Bool) : State :=
  let s := machine (onBlock (fun b => { b with st := .exited }))
  { s with fw := { s.fw with parts := [(0, { probePart with resize := some { mask := 2, departing := 1, chans := 0, t0 := 0, t2 := 0, host, paused := false } })] } }

/-- Meets the hypotheses of FrontEvents. -/
theorem test_due_front : (∀ r w, Due frontForm (.registerWrite r w) device) ∧ Due frontForm (.doorbell 0x3F) device ∧ Due frontForm (.rcbFlush 0x1000) device ∧
    Due frontForm .deferredEntryMove (machine (fun m => { m with tenants := [(0, { Tenant.reset with vcp := [(0x800, 12)], seen := [(0, 1)], defer := [(0, 0)] })] })) ∧ Due frontForm .timeSliceEnd device ∧
    Due frontForm .fdcmdEnd (machine (fun m => { m with fdq := [(0, 0, 1)] })) ∧ Due frontForm .fdcmdRelease (machine (fun m => { m with fdq := [(0, 3, 1)] })) :=
  ⟨fun _ _ => due_of _ rfl trivial, due_of _ rfl (by decide +kernel), due_of _ rfl (by decide +kernel), due_of _ rfl ⟨⟨1, by decide +kernel⟩, bound, rfl, fun _ h => nomatch h⟩, due_of _ rfl (by decide +kernel), due_of _ rfl ⟨0, 0, 1, [], rfl⟩, due_of _ rfl ⟨0, 3, 1, [], rfl⟩⟩

/-- Meets the hypotheses of FrontEvents. -/
theorem test_due_depart (host : Bool) : Due frontForm .resizeCoreDepart (departing host) ∧ leftEmpty (departing host) 0 := by
  cases host <;> exact ⟨due_of _ rfl ⟨by decide, 0, _, by unfold departsFrom; exact ⟨by decide +kernel, rfl⟩⟩, by unfold leftEmpty; decide +kernel⟩

/-- Head 0 of partition 0: enabled, 60 frames a second, 16 by 2 samples at virtual address 0; a ring of 2^12 bytes there; with more words in the pages. -/
def head (more : List (Nat × DWord)) (f : Head → Head) : State :=
  let w : DWord := BitVec.ofNat 64 (2 ^ 63 + 60 * 2 ^ 54 + 15 * 2 ^ 40 + 2 ^ 26)
  machine (fun m => m.modPart 0 (fun p => { p with headW := [(0x100, w), (0x110, 64), (0x118, 12)] ++ more, heads := [(0, f { Head.reset with on := true, words := [w, 0, 64, 12, 0] })] }))

def headFrame : HeadFrame := { present := 1, tag := 0, qidx := none }

/-- Firmware's reading of that head finds it in effect, and a new PRESENT waits; with a refresh rate of 0 it is not, and ERR is 1. (The hypotheses of DisplayEvents.) -/
theorem test_head_read : (let t := (head [(0x120, 7)] id)
     let r := t.m.readHeads t.fw 0
     (headOf r 0 0).on = true ∧ ((headOf r 0 0).waiting).map (·.present) = some 7) ∧
    (let t := machine (fun m => m.modPart 0 (fun p => { p with headW := [(0x100, BitVec.ofNat 64 (2 ^ 63))] }))
     let r := t.m.readHeads t.fw 0
     (headOf r 0 0).on = false ∧ headWord r 0 0 0x30 / 2 ^ 24 % 2 ^ 8 = 1) ∧ device.fw.binds.get? 0 = some bound := by decide +kernel

/-- Meets the hypotheses of DisplayEvents. -/
theorem test_due_display : Due displayForm .headRefresh (head [] (fun h => { h with waiting := some headFrame })) ∧
    Due displayForm .headRefresh (head [] (fun h => { h with encoding := some headFrame })) ∧
    Due displayForm (.temporalUnitWrite 100) (head [] (fun h => { h with encoding := some { headFrame with read := true } })) :=
  ⟨due_of _ rfl (Or.inl ⟨rfl, rfl, headFrame, rfl⟩), due_of _ rfl (Or.inr ⟨headFrame, rfl, rfl, rfl, fun _ h => nomatch h⟩), due_of _ rfl ⟨{ headFrame with read := true }, rfl, rfl⟩⟩

/-- The frame of the first is readable, and the ring of the last has room: it is of 4096 bytes, and empty. -/
theorem test_display_clauses : (firstFault device.fw 0 .load (head [] id).m (Head.pages ((head [] id).m.part 0) 0)).2 = none ∧
    headSeen (head [] id).m 0 0 0x18 % 2 ^ 6 = 12 ∧ unitSize 100 = 112 ∧ unitSize 4088 = 4096 ∧ unitSize 4089 = 4112 := by decide +kernel

/-! ### Bundles, saves, services -/

/-- A bundle at HEAD whose header stands at virtual address 2560, its launch record after it, its control block at 3072, of level 1 and inheriting everything, and the root at 3136. -/
def submitted (f : List Nat → List Nat) : State :=
  let s := machine (fun m => onBundle (fun b => { b with st := .head, addr := 2560, launches := [] }) { m with
    blocks := [], warps := [],
    mem := words (words (words (words (probeMem [] 0) 2560 (f [2 ^ 60 + 7, 3072, 3200])) 2624 launch.rcd) 3072 [2 ^ 63 + 2 ^ 60, 3136, 0, 0, 26])
      3136 [0x8F004000000007FF, 0, 2 ^ 55 + 64 * 2 ^ 40 + 1440000, 100 * 2 ^ 48 + 100 * 2 ^ 32 + 1000, 26] })
  { s with fw := { s.fw with parts := [(0, { probePart with root := 3136 })] }, subj := { Subj.zero with bundle := 1 } }

/-- Meets the hypotheses of BundleEvents. -/
theorem test_due_bundle : Due launchForm .bundleStartEvaluation (submitted id) ∧ Due launchForm .bundleAdmit { machine (onBundle (fun b => { b with st := .admitting })) with subj := { Subj.zero with bundle := 1 } } ∧
    Due launchForm .bundleRetire { machine (onBlock (fun b => { b with st := .exited })) with subj := { Subj.zero with bundle := 1 } } := by
  refine ⟨due_of _ rfl (there _ (by decide +kernel)), due_of _ rfl (there _ (by decide +kernel)), due_of _ rfl ⟨_, rfl, ?_⟩⟩
  unfold finished
  decide +kernel

/-- The bundle that the event takes up passes each check; with a header that names no record, or none that can be read, it does not. -/
theorem test_start_clauses :
    (match (submitted id).m.bundles.get? 1 with
     | some x => (match readBundle (submitted id).fw (submitted id).m 0 x.addr with
       | some (h, rs) => Hdr.ok h && rs.all (fun r => match r with
         | some w => Launch.valid (Launch.ofRecord w)
         | none => false) && (match walkChain (submitted id).fw 0 8 (submitted id).m (Hdr.rcb h) none with
           | (_, some ch) => (effsAll (ch.map Prod.snd)).all effOk && ch.length == 2
           | _ => false)
       | none => false)
     | none => false) = true ∧
    ((readBundle (submitted (fun _ => [7, 3072, 3200])).fw (submitted (fun _ => [7, 3072, 3200])).m 0 2560).map (fun x => Hdr.ok x.1)) = some false ∧
    (readBundle device.fw device.m 0 4096) = none := by decide +kernel

/-- A launch with a block still to be placed on the empty core, and one save frame: the area's page stands at virtual address 0x1000. -/
def placing : State :=
  let s := machine (fun m => onBundle (fun b => { b with launches := [(0, { launch with next := 0 })] }) { m with
    blocks := [], warps := [], mem := memWrite (memWrite (probeMem [] 0) (probeFrame 4 * 4096 + 8) 8 (2 ^ 61 + 2 ^ 60 + 2 ^ 59 + probeFrame 6 * 4096 + 1)) (probeFrame 5 * 4096) 8 1 })
  { s with fw := { s.fw with owners := Tab.set s.fw.owners (probeFrame 6) 0 } }

/-- Meets the hypotheses of BundleEvents. -/
theorem test_due_dispatch : Due launchForm .dispatcherStep placing := due_of _ rfl (there _ (by decide +kernel))


/-- A resident block with $PREEMPT set, its threads at an MMA or ended. -/
def leaving (f : Block → Block) (st : TState) : State :=
  { machine (fun m => onBlock (fun b => f { b with preempt := true }) (m.modWarp 0 0 (fun w => { w with threads := (List.range 4).map (fun l => (l, { probeThread with st })) }))) with subj := { Subj.zero with blk := 1 } }

/-- No handler serves its warps. -/
theorem unserved (st : TState) : ¬ serves (leaving id st).m 1 := by
  rintro ⟨w, hw, -, -, v, hv, -⟩
  have h : ((leaving id st).m.core (w.1 / 128)).service = none := by
    have : w.1 = 0 := by
      simp [leaving, machine, device, small, onBlock, Mach.modBlock, Mach.modWarp, Tab.modify, Tab.get?, Tab.set, wk] at hw
      simp [hw]
    rw [this]
    rfl
  rw [h] at hv
  cases hv

/-- A share with a waiting ACALLOC of 4 units and an array in another, younger block. -/
def starved : State :=
  machine (fun m => { m with
    shards := [(0, { Shard.reset with cycle := 256 })],
    cores := [(0, { Core.reset with shares := [{ bundle := 1, launch := 0, regg := 12, accg := 0, scrg := 4, stall := some 0 }] })],
    blocks := [(1, { probeBlock with accWait := [{ id := 1, slot := 0, h := 0, units := 4, cfg := 0, dst := none }] }), (2, { probeBlock with age := 1, accs := [(0, acc 0x47)] })],
    warps := [] })

/-- Meets the hypotheses of SaveEvents. -/
theorem test_due_saves : Due saveForm .cooperativeSave (leaving id .exited) ∧ Due saveForm .forcedSave (leaving id .atPc) ∧
    Due saveForm .restore { device with subj := { Subj.zero with blk := 1 } } ∧
    Due saveForm .accDeadlockBreak starved ∧
    Due saveForm .watchdogExpiry { machine (fun m => { m with shards := [(0, { Shard.reset with cycle := 2 ^ 28 })] }) with subj := { Subj.zero with blk := 1 } } := by
  refine ⟨due_of _ rfl ?_, due_of _ rfl ?_, due_of _ rfl ⟨_, rfl, Or.inl rfl⟩, due_of _ rfl ?_, due_of _ rfl ⟨_, _, rfl, rfl, rfl, by decide +kernel⟩⟩
  · refine ⟨_, rfl, rfl, rfl, unserved _, ?_, by decide +kernel⟩
    rintro c hc ⟨h, hh, -⟩
    have hn : ∀ c, c < 6 → ((leaving id .exited).m.slc 0 c).chain = none := by decide +kernel
    exact absurd ((hn c hc).symm.trans hh) (by simp)
  · exact ⟨_, rfl, rfl, rfl, by decide +kernel, unserved _⟩
  · obtain ⟨h, hh, hb⟩ := there (fun h => starved.m.victim 0 h = some 2) (o := starved.m.stalledShare 0) (by decide +kernel)
    exact ⟨h, 2, hh, hb⟩

/-- A core with a trap queued, and one with a service under way. -/
def trapped : Mach → Mach := fun m => { m with cores := [(0, { Core.reset with trapq := [{ at_ := 0, cause := 0x0A, swnum := 0, tpc := 0, members := 15, slots := [0], bundle := some 1 }] })], shards := [(0, { Shard.reset with cycle := 1 })] }
def serving (cyc : Nat) : Mach → Mach := fun m => { m with
  cores := [(0, { Core.reset with service := some { trap := { at_ := 0, cause := 0x0A, swnum := 0, tpc := 0, members := 15, slots := [0], bundle := some 1 }, slots := [0], began := 0, xwr := [] } })], shards := [(0, { Shard.reset with cycle := cyc })] }

/-- Meets the hypotheses of ServiceEvents. -/
theorem test_due_services : Due serviceForm .handlerServiceStart (machine trapped) ∧ Due serviceForm .handlerServiceTimeout (machine (serving (2 ^ 20))) ∧ ¬ Due serviceForm .handlerServiceTimeout (machine (serving (2 ^ 20 - 1))) := by
  refine ⟨due_of _ rfl ⟨by decide +kernel, by decide +kernel, by decide +kernel, by decide +kernel, ⟨0, by decide +kernel⟩, _, _, rfl, by decide +kernel, ?_⟩, due_of _ rfl ⟨_, rfl, by decide +kernel⟩, ?_⟩
  · decide +kernel
  rintro ⟨F, hf, hd⟩
  cases hf
  obtain ⟨v, hv, h⟩ := hd
  cases hv
  exact absurd h (by decide +kernel)

/-! ### Copies, matrix work, macro-instructions -/

def subjId (s : State) : State := { s with subj := { Subj.zero with id := 1, bundle := 1, blk := 1 } }

/-- A copy to a tile of core 0, offered to its block. -/
def toTile (f : Copy → Copy) : Mach → Mach := aCopy (fun c => f { c with dir := 7, started := true, rcvs := [{ core := 0, offered := false, blk := none, done := false }] })

/-- Meets the hypotheses of CopyEvents. -/
theorem test_due_copies : Due copyForm .copyGranuleDeliver (subjId (machine (aCopy id))) ∧ Due copyForm .copyComplete (subjId (machine (aCopy (fun c => { c with started := true, ended := true })))) ∧
    Due copyForm .copyRequestEnter (subjId (machine (onLaunch (fun l => { l with rcd := l.rcd.set 0 (2 * 2 ^ 62) })))) ∧ Due copyForm .multicastReceipt (subjId (machine (toTile id))) ∧
    Due copyForm .tileFillComplete (subjId (machine (onBlock (fun b => { b with tiles := [(0, { tile 0x45 16 16 false 1 with fill := .written })] })))) ∧
    Due copyForm .tileReaderDone (subjId (machine (aCopy (fun c => { c with started := true, ended := true, reading := true })))) := by
  refine ⟨due_of _ rfl (there _ (by decide +kernel)), due_of _ rfl (there _ (by decide +kernel)), due_of _ rfl ?_, due_of _ rfl ⟨_, { core := 0, offered := false, blk := none, done := false }, rfl, by decide +kernel⟩,
    due_of _ rfl (by decide +kernel), due_of _ rfl ⟨_, 1, rfl, by decide +kernel⟩⟩
  exact ⟨_, _, rfl, rfl, by decide +kernel⟩

/-- The shard's interval account and its node's, each with room for one product. -/
def powered : Mach → Mach := fun m => { m with shards := [(0, { Shard.reset with supply := 10, acct := 6250, nodes := [(0, 6250)] })] }

/-- Meets the hypotheses of MatrixEvents. -/
theorem test_due_work : Due workForm .mmaAdmission (subjId (machine (fun m => powered (aMma id (.blocked (.mma 1)) m)))) ∧ Due workForm .tileTaskDispatch (machine (fun m => powered (aTask id m))) ∧
    Due workForm .engineStep (subjId (machine (fun m => aMma (fun x => { x with admitted := true }) (.blocked (.mma 1)) m))) ∧
    Due workForm .engineStep (subjId (machine (aTask (fun t => { t with st := .running })))) ∧
    Due workForm .tileTaskRetire (subjId (machine (aTask (fun t => { t with st := .running, step := 2 ^ 20 })))) :=
  ⟨due_of _ rfl (there _ (by decide +kernel)), due_of _ rfl (by decide +kernel), due_of _ rfl (Or.inl (there _ (by decide +kernel))), due_of _ rfl (Or.inr ⟨rfl, there _ (by decide +kernel)⟩),
   due_of _ rfl (there _ (by decide +kernel))⟩

/-- The first product is dispatched at once, the task likewise; without room in the account the task only begins to wait. -/
theorem test_schedule_clauses : ((match (machine (fun m => powered (aTask id m))).m.schedAct 0 with
    | some (.dispatch 1 _) => true
    | _ => false) = true) ∧ (match (machine (aTask (fun t => { t with rcd := [0x100000000 + 0x01000000, 0, 0, 0] }))).m.schedAct 0 with
    | some (.await 1) => true
    | _ => false) = true := by decide +kernel

def darn : Darn := { bundle := 1, launch := 0, lin := 0, core := 0, f := 0, pos := 0, waitSeq := none, draft := none }

/-- Meets the hypotheses of EngineEvents. -/
theorem test_due_engines : Due engineForm .macroStep (subjId (machine (fun m => attr id { m with cores := [(0, { Core.reset with bank := 64 })] }))) ∧
    Due engineForm .macroRelease (subjId (machine (attr (fun x => { x with lanes := x.lanes.map (fun l => { l with ending := some .complete }) })))) ∧
    Due engineForm .darningPass (subjId (machine (fun m => { m with darns := [(1, darn)] }))) := by
  refine ⟨due_of _ rfl ?_, due_of _ rfl (there _ (by decide +kernel)), due_of _ rfl (there _ (by decide +kernel))⟩
  exact ⟨_, _, rfl, by decide +kernel, rfl⟩


/-! ## States that meet the hypotheses of the other statements -/

/-- The word placed where the next step fetches, after reset; and the same with nothing proposed, where the slices take their turns. -/
def placed (w : Nat) : State := State.reset.withFetchWord 128 w
def turning (w : Nat) : State :=
  let s := placed w
  { s with agenda := [], cursor := 1, m := { s.m with shards := (List.range 16).map (fun k => (k, s.m.shard 0)) } }

/-- The slice whose turn it is has chosen a group with a property. -/
def chose (s : State) (p : Cand → Bool) : Bool := match (s.m.tick s.fw 0 0).pick s.fw 0 0 with
  | (_, some x) => p x
  | (_, none) => false

theorem chosen {s : State} {p : Cand → Bool} (h : chose s p = true) : ∃ m x, (s.m.tick s.fw 0 0).pick s.fw 0 0 = (m, some x) ∧ p x = true := by
  unfold chose at h
  split at h
  · rename_i m x hm
    exact ⟨m, x, hm, h⟩
  · exact absurd h (by simp)

/-- The hypotheses of StepRunsDecoded: a slice's turn by the agenda and by the cursor; a group whose word decodes, one whose word does not, and no group. -/
theorem test_turns : SliceTurn (placed 0) 0 0 [] 0 ∧ SliceTurn (turning 0) 0 0 [] 2 := by
  exact ⟨⟨Or.inl ⟨rfl, rfl⟩, by decide, by decide +kernel, by decide +kernel⟩, ⟨Or.inr ⟨rfl, rfl, by decide +kernel, rfl, by decide +kernel⟩, by decide, by decide +kernel, by decide +kernel⟩⟩
/-- The other hypotheses of StepRunsDecoded: a slice offered out of its turn, no turn left in the shard cycle, and a group whose fetch met a cause. -/
def lost : State := let s := placed 0; { s with m := s.m.modWarp 0 0 (fun w => { w with threads := w.threads.mapVal (fun t => { t with pc := 4096 }) }) }
theorem test_turn_clauses : ((placed 0).m.turnOf (placed 0).fw 0 = some (0, 0)) ∧
    (let m := { (placed 0).m with warps := [] }; (m.shard 0).ringDue = false ∧ m.turnOf (placed 0).fw 0 = none) ∧
    chose lost (fun x => match x.got with
      | .fault c => c == 0x10
      | _ => false) = true := by decide +kernel

/-- The hypotheses of StepRunsDecoded and ChosenGroupIsPlaced: a group whose word decodes. -/
theorem test_chosen_decodes : ∃ m x w i, ((placed 0x0000F000081C0A0300E0000000000000).m.tick (placed 0).fw 0 0).pick (placed 0).fw 0 0 = (m, some x) ∧ x.got = .word w ∧ decodeWord w = .ok i := by
  obtain ⟨m, x, hm, hx⟩ := chosen (s := placed 0x0000F000081C0A0300E0000000000000) (p := fun x => x.got == .word 0x0000F000081C0A0300E0000000000000#128) (by decide +kernel)
  exact ⟨m, x, _, _, hm, by simpa using hx, by rfl⟩
/-- The hypotheses of PermanentlyIllegalWords: opcode 0x000 and row 31, in a group of a block's warp. -/
theorem test_chosen_illegal (w : IWord) (hw : w = 0 ∨ w = -1) : ∃ m x e, ((placed w.toNat).m.tick (placed w.toNat).fw 0 0).pick (placed w.toNat).fw 0 0 = (m, some x) ∧ x.got = .word w ∧ decodeWord w = .error e ∧
    (∀ y ∈ x.members, y.slot < handlerSlot) ∧ ((w.extractLsb' 86 10).toNat = 0 ∨ 31 * 32 ≤ (w.extractLsb' 86 10).toNat) := by
  rcases hw with rfl | rfl
  · obtain ⟨m, x, hm, hx⟩ := chosen (s := placed 0) (p := fun x => x.got == .word 0 && x.members.all (fun y => decide (y.slot < handlerSlot))) (by decide +kernel)
    simp only [Bool.and_eq_true, beq_iff_eq, List.all_eq_true, decide_eq_true_eq] at hx
    exact ⟨m, x, _, hm, hx.1, rfl, hx.2, by decide⟩
  · obtain ⟨m, x, hm, hx⟩ := chosen (s := placed (-1 : IWord).toNat) (p := fun x => x.got == .word (-1) && x.members.all (fun y => decide (y.slot < handlerSlot))) (by decide +kernel)
    simp only [Bool.and_eq_true, beq_iff_eq, List.all_eq_true, decide_eq_true_eq] at hx
    exact ⟨m, x, _, hm, hx.1, rfl, hx.2, by decide⟩
theorem test_chosen_none : ∃ m, ((turning 0).m.tick (turning 0).fw 0 1).pick (turning 0).fw 0 1 = (m, none) :=
  ⟨_, Prod.ext rfl (by decide +kernel)⟩

/-- The handler warp in service, at a word of zeros. -/
def handlerAt : State :=
  let s := handling
  { s with m := { s.m with cores := [(0, { s.m.core 0 with service := some { trap := { at_ := 0, cause := 0x0A, swnum := 0, tpc := 0, members := 15, slots := [0], bundle := some 1 }, slots := [0], began := 0, xwr := [] } })] }, agenda := [.slice 0 0] }
/-- The hypotheses of PermanentlyIllegalWords in the handler warp. -/
theorem test_chosen_handler : ∃ m x, (handlerAt.m.tick handlerAt.fw 0 0).pick handlerAt.fw 0 0 = (m, some x) ∧ x.got = .word 0 ∧ ∃ y ∈ x.members, y.slot = handlerSlot := by
  obtain ⟨m, x, hm, hx⟩ := chosen (s := handlerAt) (p := fun x => x.got == .word 0 && x.members.any (fun y => decide (y.slot = handlerSlot))) (by decide +kernel)
  simp only [Bool.and_eq_true, beq_iff_eq, List.any_eq_true, decide_eq_true_eq] at hx
  exact ⟨m, x, hm, hx.1, hx.2⟩

/-- The hypotheses of StepRunsEvents: an event at the head of the agenda; an event that the device has due by itself. -/
theorem test_event_turns : isEvent .linkDown = true ∧ ({ device with agenda := [.event .linkDown Subj.zero] } : State).agenda = .event .linkDown Subj.zero :: [] ∧
    ∃ i x, nextInternal (machine trapped) = some (i, x) ∧ (machine trapped).agenda = [] ∧ (machine trapped).cursor % 2 = 0 := by
  refine ⟨rfl, rfl, ?_⟩
  obtain ⟨y, hy, -⟩ := there (fun _ => True) (o := nextInternal (machine trapped)) (by decide +kernel)
  exact ⟨y.1, y.2, hy, rfl, rfl⟩

/-- The hypotheses of FetchedWordStands: no line in the core's cache, with and without a translation; a line. -/
theorem test_fetch_clauses : device.fw.ownerOf 0 = some 0 ∧ (device.m.core 0).icache.get? (pcKey 0) = none ∧
    (match translate device.fw device.m 0 0 (0 : DWord).toNat .fetch with
     | (_, .ok pa _) => pa == probeFrame 5 * 4096
     | _ => false) = true ∧ (match translate device.fw device.m 0 0 (0x1000 : DWord).toNat .fetch with
     | (_, .err c) => c == 0x10
     | _ => false) = true ∧
    ((machine (fun m => { m with cores := [(0, { Core.reset with icache := [(0, 5)] })] })).m.core 0).icache.get? (pcKey 0) = some 5 := by decide +kernel

/-- CoresDisjointKept holds of something: reset, and its first step. -/
theorem test_disjoint : State.reset.fw.coresDisjoint ∧ ∃ t, step State.reset = .next t := by
  refine ⟨fun p q _ h => ?_, ?_⟩
  · simp [State.reset, Fw.reset, Fw.part, Tab.get, Tab.get?, PartCfg.unused] at h
  · have h : (match step State.reset with
        | .next _ => true
        | _ => false) = true := by decide +kernel
    split at h
    · rename_i t ht
      exact ⟨t, ht⟩
    · exact absurd h (by simp)

/-- The hypotheses of MemoryReadAfterWrite: two canonical memories. -/
theorem test_memory_wf : Memory.wf [(5, 1), (9, 255)] ∧ Memory.wf [] ∧ ¬ Memory.wf [(9, 255), (5, 1)] ∧ ¬ Memory.wf [(5, 0)] := by decide

/-- The hypotheses of LowestCauseIsTaken, an instruction that meets a cause: SEGLD from a launch that may not issue it. -/
theorem test_traps : ∃ i k o own g m, i.mnOp? = some (k, o) ∧ ownOf i = some own ∧ Traps (small 0 launch [] []) k o own g m ∧ (∀ x ∈ g.members, x.slot ≠ handlerSlot) ∧ g.cause own ≠ 0x14 ∧ g.privileged = false := by
  refine ⟨.segld { ctl := restCtl, gneg := false, gpred := 7, dst := .none, a := .s 6, b := .s 8, c := .v 0, md := 3, imm := 0 }, _, _, _, _, _, rfl, rfl, ⟨rfl, ?_, ?_⟩, ?_, ?_, ?_⟩
  · exact placed_of_here _ (by decide +kernel)
  · decide +kernel
  · decide +kernel
  · decide +kernel
  · decide +kernel

/-- The hypotheses of WriteBackTakesPlace: a warp that is there, a write-back within PEAK, of a warp with PEAK 1, and one past it. -/
theorem test_writeback_clauses :
    let x : Warp := { probeWarp with peak := 1, v := [(0, 7)] }
    namesNow x + namesNew x (liveCells x [(0, 1, 5)]) ≤ x.peak ∧ x.peak < namesNow x + namesNew x (liveCells x [(255, 31, 5)]) ∧ device.m.warps.has (wk 0 0) = true := by decide +kernel

/-- The hypotheses of TokensDrawn: a group with no set-aside, with its own not yet taken, and with its own taken. -/
def marked (set : Bool) : State := machine (fun m => { m with slices := [(0, { Slice.reset with mark := some { pc := 0, oldest := ⟨0, 3⟩, cycle := 0, price := 1, set } })] })
theorem test_token_clauses (set : Bool) : let g := groupOf (marked set) .iadd { ctl := restCtl, gneg := false, gpred := 7, dst := .v 5, a := .v 6, b := .v 7, c := .v 0, md := 0, imm := 0 }
    g.nodeKeys.Nodup ∧ ∃ k, ((marked set).m.slc g.core g.slice).mark = some k ∧ k.pc = g.pc ∧ k.oldest ∈ g.members ∧ k.set = set := by
  cases set <;> exact ⟨by decide +kernel, _, rfl, rfl, by decide +kernel, rfl⟩

/-- The hypotheses of LaneAccess, accesses of one lane: at an aligned address, at a misaligned one, and where nothing is mapped. -/
theorem test_access_clauses : (60 : Nat) % 4 = 0 ∧ (62 : Nat) % 4 ≠ 0 ∧
    (match translate device.fw device.m 0 0 60 (AccOp.load 4).kind with
     | (v, .ok pa _) => pa == probeFrame 5 * 4096 + 60 && !poisoned v pa 4
     | _ => false) = true ∧ (match translate device.fw device.m 0 0 4096 AccOp.store.kind with
     | (_, .err c) => c == 0x10
     | _ => false) = true ∧ (match translate device.fw device.m 0 0 60 (AccOp.atom 0 false).kind with
     | (v, .ok pa _) => !poisoned v pa 4
     | _ => false) = true := by decide +kernel


/-- The probe's tables with one more word at a physical address, and the frames of partition 0. -/
def tables (pa w : Nat) (frames : List Nat) : Fw × Mach :=
  ({ device.fw with owners := frames.foldl (fun t k => Tab.set t (probeFrame k) 0) [] }, { device.m with mem := memWrite (probeMem [] 0) pa 8 w })

def root : Nat := probeFrame 0 * 4096

/-- The clauses of TranslationRights: the root outside the partition's frames; the last table outside them; an entry not present at the first and at the last level; a reserved bit set; a leaf frame outside; a leaf without the right, and with it; a 2 MiB leaf, aligned and not. -/
theorem test_translation_tables :
    frameOk (tables 0 0 []).1 0 (walkTable (tables 0 0 []).2.mem root 0 0 / 4096) = false ∧
    (leadsOn (tables 0 0 [0, 1, 2, 3]).1 (tables 0 0 [0, 1, 2, 3]).2 0 0 4 ∧ frameOk (tables 0 0 [0, 1, 2, 3]).1 0 (walkTable (tables 0 0 [0, 1, 2, 3]).2.mem root 0 4 / 4096) = false) ∧
    (let d := tables root 0 [0, 1, 2, 3, 4]; frameOk d.1 0 (walkTable d.2.mem root 0 0 / 4096) = true ∧ walkEntry d.2.mem root 0 0 % 2 = 0) ∧
    (let d := tables 0 0 [0, 1, 2, 3, 4, 5]; leadsOn d.1 d.2 0 4096 4 ∧ frameOk d.1 0 (walkTable d.2.mem root 4096 4 / 4096) = true ∧ walkEntry d.2.mem root 4096 4 % 2 = 0) := by
  unfold leadsOn entryWhole; decide +kernel

def leaf (w : Nat) : Fw × Mach := tables (probeFrame 4 * 4096) w [0, 1, 2, 3, 4, 5]
theorem test_translation_leaves :
    (let d := leaf (2 ^ 59 + 2 + probeFrame 5 * 4096 + 1); leadsOn d.1 d.2 0 0 4 ∧ walkEntry d.2.mem root 0 4 % 2 = 1 ∧ ¬ entryWhole (walkEntry d.2.mem root 0 4)) ∧
    (let d := leaf (2 ^ 59 + probeFrame 6 * 4096 + 1); leadsOn d.1 d.2 0 0 4 ∧ entryWhole (walkEntry d.2.mem root 0 4) ∧ walkEntry d.2.mem root 0 4 / 2 ^ 62 % 4 ≠ 3 ∧ walkEntry d.2.mem root 0 4 / 2 ^ 8 % 2 = 0 ∧
      frameOk d.1 0 (walkEntry d.2.mem root 0 4 / 2 ^ 12 % 2 ^ 40) = false) ∧
    (let d := leaf (2 ^ 59 + probeFrame 5 * 4096 + 1); leadsOn d.1 d.2 0 4095 4 ∧ entryWhole (walkEntry d.2.mem root 4095 4) ∧ frameOk d.1 0 (walkEntry d.2.mem root 4095 4 / 2 ^ 12 % 2 ^ 40) = true ∧
      entryGrants .load (walkEntry d.2.mem root 4095 4) ∧ ¬ entryGrants .store (walkEntry d.2.mem root 4095 4) ∧ ¬ entryGrants .fetch (walkEntry d.2.mem root 4095 4)) := by
  unfold leadsOn entryWhole entryGrants; decide +kernel

/-- The entry of the 2 MiB at virtual address 2^21, in the level-1 table. -/
def large (f : Nat) : Fw × Mach := tables (probeFrame 3 * 4096 + 8) (2 ^ 59 + 2 ^ 7 + probeFrame f * 4096 + 1) [0, 1, 2, 3, 4, 5, 512, 1023]
theorem test_translation_large :
    (let d := large 512; leadsOn d.1 d.2 0 (2 ^ 22 - 1) 3 ∧ frameOk d.1 0 (walkTable d.2.mem root (2 ^ 22 - 1) 3 / 4096) = true ∧ walkEntry d.2.mem root (2 ^ 22 - 1) 3 % 2 = 1 ∧ entryWhole (walkEntry d.2.mem root (2 ^ 22 - 1) 3) ∧
      walkEntry d.2.mem root (2 ^ 22 - 1) 3 / 2 ^ 7 % 2 = 1 ∧ walkEntry d.2.mem root (2 ^ 22 - 1) 3 / 2 ^ 62 % 4 ≠ 3 ∧ walkEntry d.2.mem root (2 ^ 22 - 1) 3 / 2 ^ 12 % 2 ^ 40 % 512 = 0 ∧
      frameOk d.1 0 (walkEntry d.2.mem root (2 ^ 22 - 1) 3 / 2 ^ 12 % 2 ^ 40 + (2 ^ 22 - 1) % 2 ^ 21 / 4096) = true ∧ entryGrants .load (walkEntry d.2.mem root (2 ^ 22 - 1) 3)) ∧
    (let d := large 513; leadsOn d.1 d.2 0 (2 ^ 21) 3 ∧ entryWhole (walkEntry d.2.mem root (2 ^ 21) 3) ∧ walkEntry d.2.mem root (2 ^ 21) 3 / 2 ^ 7 % 2 = 1 ∧ walkEntry d.2.mem root (2 ^ 21) 3 / 2 ^ 12 % 2 ^ 40 % 512 ≠ 0) := by
  unfold leadsOn entryWhole entryGrants; decide +kernel

/-- The hypotheses of AtomicResults: ATOM and RED at the last operation each may name, and operands at the ends of their ranges. -/
theorem test_atomic_hypotheses : wellFormed (.atom { ctl := { restCtl with setf := 0 }, gneg := false, gpred := 7, dst := .v 8, a := .v 2, b := .v 4, c := .v 0, md := BitVec.ofNat 11 (14 * 128 + 1), imm := 0 }) = true ∧
    wellFormed (.red { ctl := { restCtl with setf := 0 }, gneg := false, gpred := 7, dst := .none, a := .v 2, b := .v 4, c := .v 0, md := BitVec.ofNat 11 (14 * 128 + 1), imm := 0 }) = true ∧
    wellFormed (.atom { ctl := { restCtl with setf := 0 }, gneg := false, gpred := 7, dst := .v 8, a := .v 2, b := .v 4, c := .v 0, md := BitVec.ofNat 11 (15 * 128 + 1), imm := 0 }) = false := by decide +kernel

/-- The hypotheses of ServiceEnds: a service of a trap of one warp, which is stopped; without an access under way, with one that is complete in every lane, and with one to be replayed. -/
def returning (fault : Option FaultRec) (mask : Word) : State :=
  machine (fun m => serving 0 { m with warps := [(0, { probeWarp with stopped := true, faultmask := mask, fault, threads := (List.range 4).map (fun l => (l, probeThread)) })] })
theorem test_service_clauses : (∀ f mask, let s := returning f mask
    (∃ sv, (s.m.core 0).service = some sv ∧ sv.trap.cause ≠ 0x14 ∧ sv.trap.slots = [0] ∧ sv.xwr = []) ∧ (∀ t ∈ (s.m.core 0).trapq, 0 ∉ t.slots) ∧ s.m.warps.has (wk 0 0) = true ∧ (s.m.warp 0 0).stopped = true ∧
    (s.m.warp 0 0).threads.has 3 = true ∧ ((s.m.warp 0 0).thread 3).st ≠ .exited ∧ (s.m.warp 0 0).fault = f ∧ (s.m.warp 0 0).faultmask = mask) ∧ laneBit 15 3 = true := by
  refine ⟨fun f mask => ⟨⟨_, rfl, by decide, rfl, rfl⟩, by simp [returning, machine, serving, Mach.core, Tab.get, Tab.get?, Core.reset], rfl, rfl, rfl, (by decide : TState.atPc ≠ TState.exited), rfl, rfl⟩, by decide⟩

/-- An operand record with every field at rest. -/
def plainOp : Op := { ctl := restCtl, gneg := false, gpred := 7, dst := .none, a := .v 0, b := .v 0, c := .v 0, md := 0, imm := 0 }

/-- The hypotheses of ExtensibleSlots: a slot that the running image does not define; one it defines at a price that DRAWCAP covers; one at a price, or a step price, above it. -/
def slotted (prices : List (Nat × Nat)) : State := { device with fw := { device.fw with image := { Image.reset with slots := 3, prices, steps := [(0, 64)] } } }
def stepping : State := { device with fw := { device.fw with image := { Image.reset with slots := 3, steps := [(0, 65)] } } }
theorem test_slot_clauses :
    (let g := slotGroup (slotted []) 95 plainOp; ((slotted []).fw.imageOn (slotted []).m 0).slots.getLsbD 95 = false ∧ ∀ x ∈ g.members, x.slot ≠ handlerSlot) ∧
    (let g := slotGroup (slotted [(0, 64)]) 0 plainOp; ((slotted []).fw.imageOn (slotted []).m 0).slots.getLsbD 0 = true ∧ g.chain? = none ∧ g.price ≤ g.drawcap ∧ ((slotted []).fw.imageOn (slotted []).m 0).step 0 ≤ g.drawcap ∧ placedHere g = true) ∧
    (let g := slotGroup stepping 0 plainOp; g.chain? = none ∧ g.drawcap < (stepping.fw.imageOn stepping.m 0).step 0 ∧ ∀ x ∈ g.members, x.slot ≠ handlerSlot) ∧
    (let g := slotGroup (slotted [(1, 65)]) 1 plainOp; g.chain? = none ∧ g.drawcap < g.price ∧ ∀ x ∈ g.members, x.slot ≠ handlerSlot) := by decide +kernel

/-- The hypotheses of the clauses Drains, Arrives, ResultsArrive, TakesArrive and LanesEnd: an accumulator and a tile of its shape, plain and of scaled blocks; a member of a group of a block; accesses whose members' warps are there. -/
theorem test_effect_clauses : (device.m.blocks.get? 1).isSome = true ∧ (device.m.acc? 1 0).map (fun a => (a.m, a.n)) = some (16, 16) ∧ ((device.m.tile 1 3).rows.toNat + 1, (device.m.tile 1 3).cols.toNat + 1) = (16, 16) ∧
    tileFmt (device.m.tile 1 3).fmtN = true ∧ 16 ≤ Fmt.payload (device.m.tile 1 4).fmtN ∧ device.m.warps.has (wk 0 0) = true ∧ (device.m.warp 0 0).threads.has 3 = true ∧
    (∀ v ∈ anAccess.vals, (⟨v.1, v.2.1⟩ : Member) ∈ anAccess.members ∧ v.2.1 < 32) ∧ (∀ x ∈ anAccess.members, x.slot < 97 ∧ device.m.warps.has (wk anAccess.core x.slot) = true) ∧ device.m.warps.sorted = true := by decide +kernel

/-- The hypotheses of EretKills, EretContains, ServiceGivenUp, DomainThaws and Contained: a service with no XWR and its owner, a trap whose bundle is there; a stopped warp of a block on the core; a domain with a bundle, with and without FUNCMODE bit 5. -/
theorem test_service_ends : ((handling.m.core 0).service).any (fun v => decide (v.xwr = [] ∧ 0 ∈ v.slots ∧ v.trap.bundle = some 1)) = true ∧ handling.fw.ownerOf 0 = some 0 ∧ (handling.m.warp 0 0).stopped = true ∧
    (handling.m.blocks.get? (handling.m.warp 0 0).blk).any (fun k => decide (k.core = 0)) = true ∧ handling.m.warps.sorted = true ∧ (handling.m.bundles.get? 1).isSome = true ∧
    handling.m.domainBundles 0 0 = [1] ∧ handling.fw.win.funcmode.getLsbD 5 = false ∧ (2 ^ 5 : BitVec 8).getLsbD 5 = true := by decide +kernel

/-- The hypotheses of BundleRetires and Dispatches: tables in order, and a bundle without coverage records. -/
theorem test_bundle_clauses : device.m.bundles.sorted = true ∧ (∀ b ∈ device.m.bundles, b.2.launches.sorted = true ∧ ∀ l ∈ b.2.launches, l.2.cov = none) ∧ placing.m.bundles.sorted = true ∧ placing.m.blocks.sorted = true ∧
    ∀ b ∈ placing.m.bundles, b.2.launches.sorted = true := by decide +kernel

/-- The hypotheses of TaskRetires, TaskBegins and MacroEnds: a chain of distinct accounts, a task with a step left and a free engine, and a macro-instruction's distinct lanes, in the block's slots. -/
theorem test_work_clauses : (chainKeys device.m 1).Nodup ∧ (machine (aTask id)).m.freeEngine 0 = some 0 ∧ task.step < ((machine (aTask id)).m.taskInfo 1 task.rcd).steps ∧
    (∀ x ∈ (machine (attr id)).m.macros, (x.2.lanes.map (fun l => (l.slot, l.lane))).Nodup ∧ ∀ l ∈ x.2.lanes, (⟨l.slot, l.lane⟩ : Member) ∈ x.2.members ∧ l.slot < 97 ∧ l.lane < 32 ∧ (l.slot = handlerSlot → l.waits = false)) := by
  decide +kernel

/-- The hypotheses of WaitersReleased: a thread that waits in each of the three ways, in a block that is there; an update that ends a phase. -/
theorem test_waiters : (device.m.blocks.get? 1).isSome = true ∧ (device.m.warp 0 0).blk = 1 ∧ device.m.warps.has (wk 0 0) = true ∧ (device.m.blocks.get? 1).map device.m.tagOf = some 0 ∧
    (released (fun st => match st with
      | .blocked (.bar j _) => j == 3
      | _ => false) 9 { probeThread with st := .blocked (.bar 3 false) }).st = .atPc ∧
    (released (fun st => match st with
      | .blocked (.bar j _) => j == 3
      | _ => false) 9 { probeThread with st := .blocked (.bar 2 false) }).st = .blocked (.bar 2 false) ∧
    (let m := (device.m.modBlock 1 (fun b => { b with scratch := scrWrite [] 0 8 (2 ^ 64 - 2 ^ 32 + 5) }))
     m.bcObj 1 0 = (2 ^ 32 - 1, 5) ∧ (m.bcAdd 1 0 (-5)).bcObj 1 0 = (0, 0) ∧ (m.bcAdd 1 0 (-4)).bcObj 1 0 = (2 ^ 32 - 1, 1)) := by decide +kernel

/-- The clauses of CoreChoice: no core fits a block whose granules are taken, one fits on the empty core; the cursor goes on within the cores of a partition, and from the last to the first. -/
theorem test_core_clauses : let l := { launch with next := 0 }
    let e := { placing.fw with parts := [(0, { probePart with cores := 2 ^ 255 + 2 ^ 16 + 2 })] }
    let full := { placing.m with cores := [1, 16, 255].map (fun c => (c, { Core.reset with shares := [{ bundle := 2, launch := 0, regg := 64, accg := 0, scrg := 0, stall := none }] })) }
    (coreRing e full 0).filter (fun c => (full.fits e 1 probeBundle 0 l [0] 0 false c).isSome) = [] ∧ (coreRing e placing.m 0).filter (fun c => (placing.m.fits e 1 probeBundle 0 l [0] 0 false c).isSome) = [1, 16, 255] ∧
    coresOf (e.part 0).cores = [1, 16, 255] ∧ ((placing.m.moveCursor e 0 16).part 0).cursor = 255 ∧ ((placing.m.moveCursor e 0 255).part 0).cursor = 1 := by decide +kernel


/-! ## Ill-formed terms are refused -/

/-- Operands of `IADD V8, V2, V4`, to be spoilt in one place at a time. -/
def plain : Op := { ctl := restCtl, gneg := false, gpred := 7, dst := .v 8, a := .v 2, b := .v 4, c := .v 0, md := 0, imm := 0 }
def bare : Op := { plain with dst := .none, a := .v 0, b := .v 0 }
def one : Op := { plain with b := .v 0 }
def loadOp : Op := { one with ctl := { restCtl with setf := 0 }, md := 4 }

/-- The terms that the lists below spoil are well formed. -/
theorem test_wf_good : ([.iadd plain, .nop bare, .ineg one, .ld loadOp, .iadd64 plain, .icmp { plain with dst := .p 6 }, .smov { one with dst := .s 23, a := .s 23 }, .iadd { plain with dst := .latch 3, a := .latch 3 },
    .iadd { plain with a := .const 254 }, .iadd64 { plain with a := .const 252 }, .iadd { plain with a := .imm, imm := 1 }, .resume { bare with ctl := { restCtl with setf := 11 }, dst := .v 240 },
    .iadd { plain with ctl := { restCtl with chain := true, lastA := true, lastB := true } }, .ld { loadOp with ctl := { restCtl with wbs := true } }, .cpwait { bare with dst := .none }, .tilecfg { bare with dst := .tile 15, a := .s 0, b := .s 0 },
    .attr { bare with ctl := { restCtl with setf := 0 }, dst := .v 240 }, .extensibleOpcode 95 bare] : List Instr).all wellFormed = true := by decide +kernel

/-- R141 to R143, R147, R150: the guard ¬P7; CHAIN with YIELD, and on an opcode that is not chainable; WBS without a register; a variable result without a flag; LAST bits on sources that are unused or no vector registers. -/
theorem test_wf_control : ([.iadd { plain with gneg := true }, .iadd { plain with ctl := { restCtl with chain := true, yield := true } }, .ret { one with dst := .none, ctl := { restCtl with chain := true } },
    .iadd { plain with dst := .latch 0, ctl := { restCtl with wbs := true } }, .ld { loadOp with ctl := restCtl }, .ld { loadOp with ctl := { restCtl with setf := 12 } }, .ineg { one with ctl := { restCtl with lastB := true } },
    .iadd { plain with a := .s 0, ctl := { restCtl with lastA := true } }, .iadd { plain with ctl := { restCtl with lastC := true } }] : List Instr).all (fun i => !wellFormed i) = true := by decide +kernel

/-- R146, R149: destinations that are odd pairs, misaligned runs, past V255 or S23, P7, or of a kind the entry does not allow. -/
theorem test_wf_destination : ([.iadd64 { plain with dst := .v 9 }, .cas128 { plain with ctl := { restCtl with setf := 0 }, dst := .v 6, b := .v 4, c := .v 8 }, .resume { bare with ctl := { restCtl with setf := 0 }, dst := .v 241 },
    .attr { bare with ctl := { restCtl with setf := 0 }, dst := .v 36 }, .smov { one with dst := .s 24, a := .s 0 }, .smov { one with dst := .s 3, a := .s 0, md := 4 }, .icmp { plain with dst := .p 7 }, .iadd { plain with dst := .none },
    .iadd { plain with dst := .p 0 }, .iadd { plain with dst := .s 0 }, .iadd { plain with dst := .tile 0 }, .ld { loadOp with dst := .latch 0 }, .nop { bare with dst := .v 0 }] : List Instr).all (fun i => !wellFormed i) = true := by decide +kernel

/-- R144, R145, R149: an unused source that is not V0; a kind the entry does not allow; scalars above S23, constant 255, latches above L3; odd pairs of each kind; a misaligned run and one past V255; an odd base, an absolute base where none may stand. -/
theorem test_wf_source : ([.ineg { one with b := .v 1 }, .ineg { one with c := .imm }, .smov { one with dst := .s 0, a := .v 2 }, .v2p { bare with a := .imm }, .iadd { plain with a := .s 24 }, .iadd { plain with b := .const 255 }, .iadd { plain with a := .latch 4 },
    .iadd64 { plain with a := .v 3 }, .iadd64 { plain with b := .s 5 }, .iadd64 { plain with a := .const 3 }, .iadd64 { plain with a := .const 254 }, .cas128 { plain with ctl := { restCtl with setf := 0 }, b := .v 5, c := .v 12 },
    .cont { bare with ctl := { restCtl with setf := 0 }, a := .v 241, md := 16 }, .ld { loadOp with a := .v 3 }, .bcwait { bare with ctl := { restCtl with setf := 0 }, a := .imm, b := .v 2 }, .ld { loadOp with a := .latch 0 }] : List Instr).all
    (fun i => !wellFormed i) = true := by decide +kernel

/-- R148, R149, R276, R360: MOD bits the form does not use, a condition code, rounding code, size and scope out of range; IMM with no use, and out of the form's bits; a row of an opcode that its MOD does not name; a macro-instruction with WBS or no flag. -/
theorem test_wf_fields : ([.iadd { plain with md := 4 }, .icmp { plain with dst := .p 0, md := 24 }, .fadd { plain with md := 0x500 }, .ld { loadOp with md := 7 }, .ld { loadOp with md := 4 + 6 * 64 }, .iadd { plain with imm := 1 },
    .plop { bare with dst := .p 0, imm := 8 }, .bra { bare with a := .imm }, .barSync { bare with ctl := { restCtl with setf := 0 }, a := .s 0, md := 1 }, .ttq { one with ctl := { restCtl with setf := 0 }, dst := .none, md := 0x20 },
    .attr { bare with ctl := { restCtl with wbs := true, setf := 0 }, dst := .v 32 }, .attr { bare with dst := .v 32 }] : List Instr).all (fun i => !wellFormed i) = true := by decide +kernel

/-- R154: a slot past 95, CHAIN, the guard ¬P7, WBS without a register, a result without a flag, LAST on no vector register, scalars, latches and predicates out of range. -/
theorem test_wf_slots : ([.extensibleOpcode 96 bare, .extensibleOpcode 0 { bare with ctl := { restCtl with chain := true } }, .extensibleOpcode 0 { bare with gneg := true }, .extensibleOpcode 0 { bare with ctl := { restCtl with wbs := true } },
    .extensibleOpcode 0 plain, .extensibleOpcode 0 { bare with a := .s 0, ctl := { restCtl with lastA := true } }, .extensibleOpcode 0 { bare with b := .s 24 }, .extensibleOpcode 0 { bare with c := .latch 4 },
    .extensibleOpcode 0 { bare with a := .const 255 }, .extensibleOpcode 0 { bare with dst := .p 7, ctl := { restCtl with setf := 0 } }] : List Instr).all (fun i => !wellFormed i) = true := by decide +kernel

/-! ## Words written out from the spec's encodings -/

/-- Row 0: `@!P2 CALL V10, 5`, `RET V2` with last=a. -/
theorem test_decode_row0 : decodeTableWord 128 0x0000F000012814000000000000000005 = some (.call { ctl := restCtl, gneg := true, gpred := 2, dst := .v 10, a := .v 0, b := .v 0, c := .v 0, md := 0, imm := 5 }) ∧
    decodeTableWord 128 0x0000F080019FFE010000000000000000 = some (.ret { ctl := { restCtl with lastA := true }, gneg := false, gpred := 7, dst := .none, a := .v 2, b := .v 0, c := .v 0, md := 0, imm := 0 }) := by decide +kernel

/-- Row 1: `IMAC.u V8, S3, C7, −1`, `ICMP.ge P6, V1, L2`. -/
theorem test_decode_row1 : decodeTableWord 128 0x0000F000091C1081E0FFF801FFFFFFFF = some (.imac { ctl := restCtl, gneg := false, gpred := 7, dst := .v 8, a := .s 3, b := .const 7, c := .imm, md := 1, imm := 0xFFFFFFFF }) ∧
    decodeTableWord 128 0x0000F0000C1E4C00C040001400000000 = some (.icmp { ctl := restCtl, gneg := false, gpred := 7, dst := .p 6, a := .v 1, b := .latch 2, c := .v 0, md := 20, imm := 0 }) := by decide +kernel

/-- Row 2: `LOGIC3 L1, V1, V2, V3` with table 0xE8, chained; `BFE.s V255, V0, S23`. -/
theorem test_decode_row2 : decodeTableWord 128 0x0000F800111E8200804018E800000000 = some (.logic3 { ctl := { restCtl with chain := true }, gneg := false, gpred := 7, dst := .latch 1, a := .v 1, b := .v 2, c := .v 3, md := 0xE8, imm := 0 }) ∧
    decodeTableWord 128 0x0000F000131DFE0022E0000100000000 = some (.bfe { ctl := restCtl, gneg := false, gpred := 7, dst := .v 255, a := .v 0, b := .s 23, c := .v 0, md := 1, imm := 0 }) := by decide +kernel

/-- Row 3: `SIADD.sub.w S2, S4, 9`, `SRD V4, $CYCLE`, `CCTL.iinvpg S6` with flag F11. -/
theorem test_decode_row3 : decodeTableWord 128 0x0000F000195E04827FE0000C00000009 = some (.siadd { ctl := restCtl, gneg := false, gpred := 7, dst := .s 2, a := .s 4, b := .imm, c := .v 0, md := 12, imm := 9 }) ∧
    decodeTableWord 128 0x0000F0001BDC08000000000000000007 = some (.srd { ctl := restCtl, gneg := false, gpred := 7, dst := .v 4, a := .v 0, b := .v 0, c := .v 0, md := 0, imm := 7 }) ∧
    decodeTableWord 128 0x0000B0001D5FFE830000000100000000 = some (.cctlIinvpg { ctl := { restCtl with setf := 11 }, gneg := false, gpred := 7, dst := .none, a := .s 6, b := .v 0, c := .v 0, md := 1, imm := 0 }) := by decide +kernel

/-- Row 4: `FADD.rp V1, V2, V3` (code 3), `FCLASS P0, V9` with a mask of ten bits. -/
theorem test_decode_row4 : decodeTableWord 128 0x0000F000201C02010060030000000000 = some (.fadd { ctl := restCtl, gneg := false, gpred := 7, dst := .v 1, a := .v 2, b := .v 3, c := .v 0, md := 0x300, imm := 0 }) ∧
    decodeTableWord 128 0x0000F000225E400480000000000003FF = some (.fclass { ctl := restCtl, gneg := false, gpred := 7, dst := .p 0, a := .v 9, b := .v 0, c := .v 0, md := 0, imm := 0x3FF }) := by decide +kernel

/-- Row 5: `DMAC V2, V4, C252, V254`, `DCMP.w V8, V2, V4` with code 7. -/
theorem test_decode_row5 : decodeTableWord 128 0x0000F00028DC04027F87F00000000000 = some (.dmac { ctl := restCtl, gneg := false, gpred := 7, dst := .v 2, a := .v 4, b := .const 252, c := .v 254, md := 0, imm := 0 }) ∧
    decodeTableWord 128 0x0000F0002A1C10010080001700000000 = some (.dcmp { ctl := restCtl, gneg := false, gpred := 7, dst := .v 8, a := .v 2, b := .v 4, c := .v 0, md := 0x17, imm := 0 }) := by decide +kernel

/-- Row 6: `HMAC2.bf.rz V7, V1, V2, V3`. -/
theorem test_decode_row6 : decodeTableWord 128 0x0000F00030DC0E008040190100000000 = some (.hmac2 { ctl := restCtl, gneg := false, gpred := 7, dst := .v 7, a := .v 1, b := .v 2, c := .v 3, md := 0x101, imm := 0 }) := by decide +kernel

/-- Row 7: `CVT.FP4.FP32.m V1, V2, V3` into position 7, `SDDEC V32, V2` of two elements. -/
theorem test_decode_row7 : decodeTableWord 128 0x0000F000381C02010000180100704740 = some (.cvt { ctl := restCtl, gneg := false, gpred := 7, dst := .v 1, a := .v 2, b := .v 0, c := .v 3, md := 1, imm := 0x00704740 }) ∧
    decodeTableWord 128 0x0000F000395C40010000000000000002 = some (.sddec { ctl := restCtl, gneg := false, gpred := 7, dst := .v 32, a := .v 2, b := .v 0, c := .v 0, md := 0, imm := 2 }) := by decide +kernel

/-- Row 8: `LXCH.bfly V1, V2, 3` with width 32, `QSWZ V1, V2, 0xB1`. -/
theorem test_decode_row8 : decodeTableWord 128 0x0000F000401C02017FE0005300000003 = some (.lxch { ctl := restCtl, gneg := false, gpred := 7, dst := .v 1, a := .v 2, b := .imm, c := .v 0, md := 0x53, imm := 3 }) ∧
    decodeTableWord 128 0x0000F000421C020100000000000000B1 = some (.qswz { ctl := restCtl, gneg := false, gpred := 7, dst := .v 1, a := .v 2, b := .v 0, c := .v 0, md := 0, imm := 0xB1 }) := by decide +kernel

/-- Row 9: `ST.b64 [S4 − 8], V6` with flag F3, `ATOM.inc V1, [V2], V3` at device scope (3) on glb. -/
theorem test_decode_row9 : decodeTableWord 128 0x00003000485FFE8200C00005FFFFFFF8 = some (.st { ctl := { restCtl with setf := 3 }, gneg := false, gpred := 7, dst := .none, a := .s 4, b := .v 6, c := .v 0, md := 5, imm := 0xFFFFFFF8 }) ∧
    decodeTableWord 128 0x000000004A9C02010060053100000000 = some (.atom { ctl := { restCtl with setf := 0 }, gneg := false, gpred := 7, dst := .v 1, a := .v 2, b := .v 3, c := .v 0, md := 0x531, imm := 0 }) := by decide +kernel

/-- Row 10: `CPY` of direction 2 from slot 5 into tile 9 with a barrier in V3, `TILECFG T15, S6, S8` as a receiver. -/
theorem test_decode_row10 : decodeTableWord 128 0x00000000505FFE0100001A5900000001 = some (.cpy { ctl := { restCtl with setf := 0 }, gneg := false, gpred := 7, dst := .none, a := .v 2, b := .v 0, c := .v 3, md := 0x259, imm := 1 }) ∧
    decodeTableWord 128 0x0000F00051DEDE832100000200000000 = some (.tilecfg { ctl := restCtl, gneg := false, gpred := 7, dst := .tile 15, a := .s 6, b := .s 8, c := .v 0, md := 2, imm := 0 }) := by decide +kernel

/-- Row 11: `MMA S10, S8` of tiles 3 and 12, `TTQ.claim S4`. -/
theorem test_decode_row11 : decodeTableWord 128 0x00001000581E1484000000C300000000 = some (.mma { ctl := { restCtl with setf := 1 }, gneg := false, gpred := 7, dst := .s 10, a := .s 8, b := .v 0, c := .v 0, md := 0xC3, imm := 0 }) ∧
    decodeTableWord 128 0x00002000589E08000000002000000000 = some (.ttqClaim { ctl := { restCtl with setf := 2 }, gneg := false, gpred := 7, dst := .s 4, a := .v 0, b := .v 0, c := .v 0, md := 0x20, imm := 0 }) := by decide +kernel

/-- Row 12: `FILT V48` from slot 5 with three levels. -/
theorem test_decode_row12 : decodeTableWord 128 0x0000400060DC60000000002500000000 = some (.filt { ctl := { restCtl with setf := 4 }, gneg := false, gpred := 7, dst := .v 48, a := .v 0, b := .v 0, c := .v 0, md := 0x25, imm := 0 }) := by decide +kernel

/-- Rows 16 to 18: `BAR.arrive` of barrier 15, `CONT` of 3 registers with an event, `ERET.fdom`, `TRAP 255`. -/
theorem test_decode_row16 : decodeTableWord 128 0x00005000801FFE808000003D00000000 = some (.barArrive { ctl := { restCtl with setf := 5 }, gneg := false, gpred := 7, dst := .none, a := .s 1, b := .v 0, c := .v 0, md := 0x3D, imm := 0 }) ∧
    decodeTableWord 128 0x00006000881FFE0500800023FFFFFFF0 = some (.cont { ctl := { restCtl with setf := 6 }, gneg := false, gpred := 7, dst := .none, a := .v 10, b := .v 4, c := .v 0, md := 0x23, imm := 0xFFFFFFF0 }) ∧
    decodeTableWord 128 0x0000F000909FFE000000000200000000 = some (.eretFdom { ctl := restCtl, gneg := false, gpred := 7, dst := .none, a := .v 0, b := .v 0, c := .v 0, md := 2, imm := 0 }) ∧
    decodeTableWord 128 0x0000F00090DFFE0000000000000000FF = some (.trap { ctl := restCtl, gneg := false, gpred := 7, dst := .none, a := .v 0, b := .v 0, c := .v 0, md := 0, imm := 255 }) := by decide +kernel

/-- The last extensible slot, and the opcode after it, which is no slot; a reserved column. -/
theorem test_decode_slots : decodeTableWord 128 0x0000F4007FDFFE010000000000000000 = some (.extensibleOpcode 95 { bare with ctl := { restCtl with yield := true }, a := .v 2 }) ∧ decodeTableWord 128 0x0000F000801FFE000000000000000000 = none ∧ decodeTableWord 128 0x0000F00003DFFE000000000000000000 = none := by decide +kernel


/-! ## Results the spec works out -/

/-- The cells an instruction's pending write-backs give a register, in the order of the lanes, and the exception bits it leaves pending. -/
def resultIn (s : State) (d : Nat) (w : Nat) : Option (List Word × List (BitVec 7)) :=
  match decodeTableWord 128 w with
  | none => none
  | some i =>
    match exec i s with
    | .next t =>
      let cs := t.m.slices.flatMap (fun x => x.2.wbs)
      some ((cs.flatMap (fun b => match b.what with | .v c => c | _ => [])).filterMap (fun c => if c.1 = d then some c.2.2 else none),
        cs.filterMap (fun b => match b.what with | .exc e => some e | _ => none))
    | _ => none
def result (l : Launch) (vs : List (Nat × List Word)) (d : Nat) (w : Nat) : Option (List Word × List (BitVec 7)) := resultIn (small 0 l (regs vs) []) d w

/-- The same value in each of the four lanes. -/
def all (x : Word) : List Word := [x, x, x, x]

/-- 08 Example 8.3, row 1. -/
theorem test_idiv : result launch [(2, all 0x7), (4, all 0xFFFFFFFE), (6, all 0x0)] 8 0x0000F000099C10010080000000000000 = some (all 0xFFFFFFFD, []) := by decide +kernel
/-- 08 Example 8.3, row 2. -/
theorem test_irem : result launch [(2, all 0x7), (4, all 0xFFFFFFFE), (6, all 0x0)] 8 0x0000F00009DC10010080000000000000 = some (all 0x1, []) := by decide +kernel
/-- 08 Example 8.3, row 3. -/
theorem test_idiv_overflow : result launch [(2, all 0x80000000), (4, all 0xFFFFFFFF), (6, all 0x0)] 8 0x0000F000099C10010080000000000000 = some (all 0x80000000, [0x4]) := by decide +kernel
/-- 08 Example 8.3, row 4. -/
theorem test_idiv_unsigned_by_zero : result launch [(2, all 0x5), (4, all 0x0), (6, all 0x0)] 8 0x0000F000099C10010080000100000000 = some (all 0xFFFFFFFF, [0x2]) := by decide +kernel
/-- 08 Example 8.3, row 5. -/
theorem test_iadd_saturating : result launch [(2, all 0x7FFFFFF0), (4, all 0x20), (6, all 0x0)] 8 0x0000F000081C10010080000200000000 = some (all 0x7FFFFFFF, [0x20]) := by decide +kernel
/-- 08 Example 8.3, row 6. -/
theorem test_bfe_signed : result launch [(2, all 0xF00), (4, all 0x408), (6, all 0x0)] 8 0x0000F000131C10010080000100000000 = some (all 0xFFFFFFFF, []) := by decide +kernel
/-- 08 Example 8.3, row 7. -/
theorem test_bperm : result launch [(2, all 0x44332211), (4, all 0x88776655), (6, all 0x8090F)] 8 0x0000F00013DC10010080300000000000 = some (all 0x552288, []) := by decide +kernel
/-- 08 Example 8.3, row 8. -/
theorem test_shfn : result launch [(2, all 0x12345678), (4, all 0x9ABCDEF0), (6, all 0x8)] 8 0x0000F000141C10010080300000000000 = some (all 0xF0123456, []) := by decide +kernel
/-- 08 Example 8.3, row 9. -/
theorem test_logic3_majority : result launch [(2, all 0xC), (4, all 0xA), (6, all 0x9)] 8 0x0000F000111C1001008030E800000000 = some (all 0x8, []) := by decide +kernel
/-- 09 Example 9.1, row 1. -/
theorem test_fadd_nearest : result launch [(2, all 0x0), (4, all 0x80000000), (6, all 0x0)] 8 0x0000F000201C10010080000000000000 = some (all 0x0, []) := by decide +kernel
/-- 09 Example 9.1, row 2. -/
theorem test_fadd_down : result launch [(2, all 0x0), (4, all 0x80000000), (6, all 0x0)] 8 0x0000F000201C10010080030000000000 = some (all 0x80000000, []) := by decide +kernel
/-- 09 Example 9.1, row 3. -/
theorem test_fmac_invalid : result launch [(2, all 0x0), (4, all 0x7F800000), (6, all 0x7FC00000)] 8 0x0000F00020DC10010080300000000000 = some (all 0x7FC00000, [0x1]) := by decide +kernel
/-- 09 Example 9.1, row 4. -/
theorem test_fmin_signalling : result launch [(2, all 0x7F800001), (4, all 0x3F800000), (6, all 0x0)] 8 0x0000F000211C10010080000000000000 = some (all 0x3F800000, [0x1]) := by decide +kernel
/-- 09 Example 9.1, row 5. -/
theorem test_fmin_quiet : result launch [(2, all 0x7FC00000), (4, all 0x3F800000), (6, all 0x0)] 8 0x0000F000211C10010080000000000000 = some (all 0x3F800000, []) := by decide +kernel
/-- 09 Example 9.1, row 6. -/
theorem test_fdiv_by_zero : result launch [(2, all 0x3F800000), (4, all 0x80000000), (6, all 0x0)] 8 0x0000F000239C10010080000000000000 = some (all 0xFF800000, [0x2]) := by decide +kernel
/-- 09 Example 9.1, row 7. -/
theorem test_fex2_overflow : result launch [(2, all 0x43000000), (4, all 0x0), (6, all 0x0)] 8 0x0000F00023DC10010000000000000000 = some (all 0x7F800000, [0x14]) := by decide +kernel
/-- 09 Example 9.1, row 8. -/
theorem test_fneg_nan : result launch [(2, all 0x7F800001), (4, all 0x0), (6, all 0x0)] 8 0x0000F00021DC10010000000000000000 = some (all 0x7FC00000, []) := by decide +kernel
/-- 09 Example 9.4, the reduction. -/
theorem test_redux_fadd : result launch [(2, [0x4B800000, 0x3F800000, 0x3F800000, 0xCB800000])] 8 0x0000F000411C10010000000900000000 = some (all 0x40000000, []) := by decide +kernel
/-- 09 Example 9.4, the scan. -/
theorem test_scan_fadd : result launch [(2, [0x4B800000, 0x3F800000, 0x3F800000, 0xCB800000])] 8 0x0000F000415C10010000000900000000 = some ([0x4B800000, 0x4B800000, 0x4B800001, 0x40000000], [16]) := by decide +kernel
/-- 09 Example 9.2: the whole word, and lane 0's result. -/
theorem test_cvtsat_example : (result launch [(4, all 0x43EB0000), (12, all 0x11223344)] 12 0x1000F000385C18020000600100104743) = some (all 0x11227E44, [0x50]) := by decide +kernel

/-- The least address cause of a load whose base is the register pair at V2, in a launch with 0x2000 bytes of scratchpad. -/
def addressCause (w : Nat) (lo hi : Word) : Option Nat :=
  match decodeTableWord 128 w with
  | none => none
  | some i =>
    match i.mnOp?, memoryForm i with
    | some (k, o), some F => (operandsOf (small 0 { launch with rcd := launch.rcd.set 4 (12 * 2 ^ 50 + 32 * 2 ^ 16) } (regs [(2, all lo), (3, all hi)]) []) k o).map (fun g => g.1.cause F.own)
    | _, _ => none

/-- 10 Example 10.1: the window and limit decisions, row by row (codes 8 SEG_LIMIT, 9 SEG_STRADDLE of 00 R17). -/
theorem test_window_decisions : addressCause 0x00000000481C10010000000400000000 0x0 0x2000000 = some 0 ∧
    addressCause 0x00000000481C10010000000500000000 0x1FF8 0x2000000 = some 0 ∧
    addressCause 0x00000000481C10010000000500000000 0x1FFC 0x2000000 = some 9 ∧
    addressCause 0x00000000481C10010000000400000000 0x2000 0x2000000 = some 8 ∧
    addressCause 0x00000000481C10010000000500000000 0xFFFFFFFC 0x1FFFFFF = some 9 ∧
    addressCause 0x00000000489C10010000000400000000 0x2000 0x0 = some 8 := by decide +kernel

/-- 09 Example 9.5: a quad whose lane 1 has exited, lanes in the order 0, 2, 3. -/
def threeOfQuad : State :=
  let s := small 0 quadLaunch (regs [(2, [0x3F800000, 0x40800000, 0x40000000, 0x41200000])]) []
  { s with m := { s.m with
      warps := [(0, { s.m.warp 0 0 with threads := [(0, probeThread), (1, { probeThread with st := .exited }), (2, probeThread), (3, probeThread)] })],
      sel := { s.m.sel with members := [⟨0, 0⟩, ⟨0, 2⟩, ⟨0, 3⟩] } } }
theorem test_derivatives : resultIn threeOfQuad 8 0x0000F000419C10010000000000000000 = some ([0x41000000, 0x41000000, 0x41000000], []) ∧
    resultIn threeOfQuad 8 0x0000F00041DC10010000000000000000 = some ([0x3F800000, 0x3F800000, 0x3F800000], []) := by decide +kernel

/-! ## Whole words of the spec -/

/-- 06 Example 6.1: `P3? FMAC.rn V10, V4, S2, 1.5` with stall 4, wait F1, last a. -/
theorem test_word_fmac : decodeTableWord 128 0x4002F08020CC1402205FF8003FC00000 = some (.fmac { ctl := { restCtl with stall := 4, wait := 2, lastA := true }, gneg := false, gpred := 3, dst := .v 10, a := .v 4, b := .s 2, c := .imm, md := 0, imm := 0x3FC00000 }) := by decide +kernel

/-- 08 Example 8.1: `!P2? BRA top`, 9 words back. -/
theorem test_word_bra : decodeTableWord 128 0x1000F00000ABFE0000000000FFFFFFF7 = some (.bra { ctl := { restCtl with stall := 1 }, gneg := true, gpred := 2, dst := .none, a := .v 0, b := .v 0, c := .v 0, md := 0, imm := 0xFFFFFFF7 }) := by decide +kernel

/-- 10 Example 10.2: `GATH.32.i16.x4.glb V20, [S4+0x100], V8`. -/
theorem test_word_gath : decodeTableWord 128 0x1000200049DC28820100022C00000100 = some (.gath { ctl := { restCtl with stall := 1, setf := 2 }, gneg := false, gpred := 7, dst := .v 20, a := .s 4, b := .v 8, c := .v 0, md := 0x22C, imm := 0x100 }) := by decide +kernel

/-- 14 Example 14.1: `ATOM.add.glb.ar.blk V10, [V4+0x20], V6`. -/
theorem test_word_atom : decodeTableWord 128 0x100020004A9C140200C0002900000020 = some (.atom { ctl := { restCtl with stall := 1, setf := 2 }, gneg := false, gpred := 7, dst := .v 10, a := .v 4, b := .v 6, c := .v 0, md := 0x29, imm := 0x20 }) := by decide +kernel

/-- 06 Example 6.3: the zero word, a reserved control bit, CHAIN on a load, an extensible slot, rounding to nearest away on HSUB2. -/
theorem test_words_borderline : decodeTableWord 128 0 = none ∧ decodeTableWord 128 (0x1000F001 * 2 ^ 96 + 0x083 * 2 ^ 86 + 7 * 2 ^ 82 + 8 * 2 ^ 73) = none ∧
    decodeTableWord 128 (0x100F0800 * 2 ^ 96 + 0x120 * 2 ^ 86 + 7 * 2 ^ 82 + 8 * 2 ^ 73) = none ∧ decodeTableWord 128 (0x1000F000 * 2 ^ 96 + 0x1A5 * 2 ^ 86 + 7 * 2 ^ 82 + 511 * 2 ^ 73) =
      some (.extensibleOpcode 5 { bare with ctl := { restCtl with stall := 1 } }) ∧
    decodeTableWord 128 (0x1000F000 * 2 ^ 96 + 0x0C1 * 2 ^ 86 + 7 * 2 ^ 82 + 8 * 2 ^ 73 + 4 * 2 ^ 8) = none := by decide +kernel

/-- The words above are those the encoder writes for what they decode to. -/
theorem test_words_encode : ([0x4002F08020CC1402205FF8003FC00000, 0x1000F00000ABFE0000000000FFFFFFF7, 0x1000200049DC28820100022C00000100, 0x100020004A9C140200C0002900000020, 0x1000F000385C18020000600100104743] : List Nat).all
    (fun w => (decodeTableWord 128 w).bind encode = some (BitVec.ofNat 128 w)) = true := by decide +kernel

/-- Meets the hypotheses of DecodeOfEncode, of InstructionsKeepFirmware and, with test_words_encode, of WordLayout. -/
theorem test_encode_good : wellFormed (.iadd plain) = true ∧ (encode (.iadd plain)).isSome = true ∧ (Instr.iadd plain).mnOp? = some (.iadd, plain) := by decide +kernel

end Sys2Proof.Tests
end

section
/-! PROOFS. Memory reads back what was written, and its canonical form is known by what it reads (00 R8; 03 R66). -/

namespace Sys2Proof.Machine

/-! ### Memory as bytes (00 R8; 03 R66) -/

/-- A key below every key of a table is not in it. -/
theorem Tab.get?_of_below {α : Type} (t : Tab α) (q : Nat) (h : ∀ c ∈ t, q < c.1) : Tab.get? t q = none := by
  cases e : Tab.get? t q with
  | none => rfl
  | some v => exact absurd (h _ (Tab.get?_mem t q v e)) (Nat.lt_irrefl q)

/-- A table that rises is known by its lookups. -/
theorem Tab.ext_of_sorted {α : Type} {t u : Tab α} (ht : t.sorted = true) (hu : u.sorted = true) (h : ∀ q, Tab.get? t q = Tab.get? u q) : t = u := by
  induction t generalizing u with
  | nil =>
    cases u with
    | nil => rfl
    | cons d r => simpa [Tab.get?] using h d.1
  | cons c r ih =>
    obtain ⟨a, x⟩ := c
    have hr := Tab.sorted_cons a x r ht
    cases u with
    | nil => simpa [Tab.get?] using h a
    | cons d w =>
      obtain ⟨b, y⟩ := d
      have hw := Tab.sorted_cons b y w hu
      have hab : a = b := by
        rcases Nat.lt_trichotomy a b with hl | he | hl
        · have hn := Tab.get?_of_below ((b, y) :: w) a (List.forall_mem_cons.2 ⟨hl, fun c hc => Nat.lt_trans hl (hw.2 c hc)⟩)
          simpa [Tab.get?, hn] using (h a).trans hn
        · exact he
        · have hn := Tab.get?_of_below ((a, x) :: r) b (List.forall_mem_cons.2 ⟨hl, fun c hc => Nat.lt_trans hl (hr.2 c hc)⟩)
          simpa [Tab.get?] using hn.symm.trans (h b)
      subst hab
      have hxy : x = y := by simpa [Tab.get?] using h a
      subst hxy
      have hrest : r = w := ih hr.1 hw.1 (fun q => by
        by_cases hq : q = a
        · rw [hq, Tab.get?_of_below r a hr.2, Tab.get?_of_below w a hw.2]
        · simpa [Tab.get?, hq] using h q)
      rw [hrest]

/-- Memory in canonical form lists a byte exactly where it reads as nonzero. -/
theorem get?_of_memory_wf {t : Tab Byte} (h : Memory.wf t) (b : Nat) : Tab.get? t b = if memGet t b = 0 then none else some (memGet t b) := by
  unfold memGet Tab.get
  cases e : Tab.get? t b with
  | none => rfl
  | some v =>
    have hv : v ≠ 0#8 := by simpa using List.all_eq_true.1 h.2 _ (Tab.get?_mem t b v e)
    simp [hv]

/-- Two memories in canonical form that read alike are the same data. -/
theorem memory_ext {t u : Tab Byte} (ht : Memory.wf t) (hu : Memory.wf u) (h : ∀ b, memGet u b = memGet t b) : u = t :=
  Tab.ext_of_sorted hu.1 ht.1 (fun q => by rw [get?_of_memory_wf hu, get?_of_memory_wf ht, h])

/-- Byte `b` after a write of `n` bytes from `a`. -/
theorem memGet_memWrite (t : Tab Byte) (a n v b : Nat) :
    memGet (memWrite t a n v) b = if a ≤ b ∧ b < a + n then BitVec.ofNat 8 (v / 256 ^ (b - a)) else memGet t b := by
  induction n generalizing t a v with
  | zero => rw [if_neg (by omega)]; rfl
  | succ n ih =>
    rw [memWrite, ih, memGet_memPut]
    by_cases hb : b = a
    · subst hb
      rw [if_neg (by omega), if_pos rfl, if_pos (by omega), Nat.sub_self, Nat.pow_zero, Nat.div_one]
    · by_cases hin : a + 1 ≤ b ∧ b < a + 1 + n
      · rw [if_pos hin, if_pos (by omega), show b - a = b - (a + 1) + 1 by omega, Nat.pow_succ, Nat.mul_comm, Nat.div_div_eq_div_mul]
      · rw [if_neg hin, if_neg hb, if_neg (by omega)]

/-- A read is of its own bytes only: byte `i` of the number read is the byte at `a + i`. -/
theorem memRead_byte (t : Tab Byte) (a n i : Nat) (hi : i < n) : (memGet t (a + i)).toNat = memRead t a n / 256 ^ i % 256 := by
  induction n generalizing a i with
  | zero => omega
  | succ n ih =>
    rw [memRead]
    have hb : (memGet t a).toNat < 256 := (memGet t a).isLt
    cases i with
    | zero => simp only [Nat.add_zero, Nat.pow_zero, Nat.div_one]; omega
    | succ i =>
      rw [show a + (i + 1) = a + 1 + i by omega, ih (a + 1) i (by omega), Nat.pow_succ, Nat.mul_comm (256 ^ i), ← Nat.div_div_eq_div_mul]
      congr 2
      omega

/-- A read of bytes that are those of a number gives the number, as far as it goes. -/
theorem memRead_of_bytes (t : Tab Byte) (a n v : Nat) (h : ∀ i, i < n → (memGet t (a + i)).toNat = v / 256 ^ i % 256) : memRead t a n = v % 256 ^ n := by
  induction n generalizing a v with
  | zero => simp [memRead, Nat.mod_one]
  | succ n ih =>
    have h0 : (memGet t a).toNat = v % 256 := by simpa using h 0 (by omega)
    have hr : memRead t (a + 1) n = v / 256 % 256 ^ n := ih (a + 1) (v / 256) (fun i hi => by
      rw [Nat.div_div_eq_div_mul, Nat.mul_comm 256, ← Nat.pow_succ, show a + 1 + i = a + (i + 1) by omega]
      exact h (i + 1) (by omega))
    rw [memRead, h0, hr, Nat.pow_succ, Nat.mul_comm (256 ^ n), Nat.mod_mul]

/-- Bytes written are read back, little-endian. -/
theorem memRead_memWrite (t : Tab Byte) (a n v : Nat) : memRead (memWrite t a n v) a n = v % 256 ^ n :=
  memRead_of_bytes _ a n v (fun i hi => by
    rw [memGet_memWrite, if_pos (by omega), Nat.add_sub_cancel_left]
    simp)

/-- Settles O12: a write changes its own bytes and no other, so the rest follows byte by byte; a canonical table is known by its lookups. -/
theorem memoryReadAfterWrite : Obligations.MemoryReadAfterWrite := by
  intro t a n v ht
  refine ⟨memWrite_wf n a v t ht, memRead_memWrite t a n v, fun b hb => ?_, fun i hi => memRead_byte t a n i hi, fun u hu h => memory_ext ht hu h⟩
  rw [memGet_memWrite, if_neg (by omega)]

end Sys2Proof.Machine
end

section
/-! PROOFS. What a step does before its event (01 R24). -/

namespace Sys2Proof.Machine

/-! ### A step and its events (01 R24; log 2) -/

/-- The device after reset, but that the USAGE word last written for node 0 of partition 0 counts a queue slot which no bundle holds any more; a CRC error of link 0 is proposed. -/
def staleUsage : State := { State.reset with m := { Mach.reset with usages := [(0, 2 ^ 16)] }, agenda := [.event .crcErrorReplay Subj.zero] }

/-- The step first brings USAGE up to date, which the event alone does not. -/
theorem usages_step_staleUsage : ∃ t, step staleUsage = .next t ∧ t.m.usages = [(0, 0)] := ⟨_, rfl, rfl⟩

/-- Refutes O6: before its event a step writes the USAGE words that have changed since the last (01 R24), so its outcome is not that of the event on the state itself. -/
theorem not_stepRunsEvents : ¬ Obligations.StepRunsEvents := by
  intro h
  obtain ⟨hrun, -⟩ := h staleUsage .crcErrorReplay Subj.zero
  obtain ⟨t, ht, hu⟩ := usages_step_staleUsage
  have he : step staleUsage = exec .crcErrorReplay { staleUsage with agenda := [], subj := Subj.zero } := hrun [] rfl rfl
  rw [ht, exec, execCrcErrorReplay] at he
  injection he with he
  rw [he] at hu
  exact absurd hu (by decide)

end Sys2Proof.Machine
end

section
/-! PROOFS. How each instruction word changes the state: one shared operation of issue for each, and causes as the tables of statements give them. -/

namespace Sys2Proof.Machine

/-! ### Causes as the tables of statements give them, and as the meanings do -/

theorem Grp.valued_of_read {g : Grp} (h : g.unread = false) (ss : List Src) (cs : List Nat) : g.valued ss cs = cs := by simp [Grp.valued, Grp.known, h]

theorem bytesOf_eq_szBytes : ∀ c : Nat, bytesOf c = szBytes c
  | 0 | 1 | 2 | 3 | 4 | 5 | 6 => rfl
  | c + 7 => by simp [bytesOf, szBytes]

theorem formOf_eq_spaceForm : ∀ c : Nat, formOf c = spaceForm c
  | 0 | 1 => rfl
  | c + 2 => by simp [formOf, spaceForm]

theorem spaceForm_eq_scr_iff : ∀ c : Nat, spaceForm c = .scr ↔ 2 ≤ c
  | 0 | 1 => by decide
  | c + 2 => by simp [spaceForm]

theorem baseAddr_eq_memAddr (wide : Bool) (g : Grp) (x : Member) : baseAddr wide g x = g.memAddr wide x := by
  unfold baseAddr Grp.memAddr
  cases h : g.o.a <;> simp [Grp.a64, Grp.a32, Op.immN, BitVec.signExtend, h]

/-- A field's sign bit tells whether it is read as negative. -/
theorem sextN_eq_of_signBit {w : Nat} (hw : 0 < w) (n : Nat) :
    sextN w n = if (n % 2 ^ w).testBit (w - 1) = true then ((n % 2 ^ w : Nat) : Int) - 2 ^ w else ((n % 2 ^ w : Nat) : Int) := by
  unfold sextN
  by_cases h : n % 2 ^ w < 2 ^ (w - 1)
  · simp [h, Nat.testBit_lt_two_pow h]
  · have hlt : n % 2 ^ w < 2 ^ (w - 1 + 1) := by
      rw [Nat.sub_add_cancel hw]
      exact Nat.mod_lt _ (Nat.two_pow_pos w)
    simp [h, Nat.testBit_of_two_pow_le_and_two_pow_add_one_gt (Nat.not_lt.1 h) hlt]

theorem indexed_eq_gatherAddr (g : Grp) (x : Member) : indexed g x = g.gatherAddr x := by
  unfold indexed Grp.gatherAddr Grp.gatherIdx
  simp only [BitVec.toNat_ofInt, truncN, sextN_eq_of_signBit (Nat.mul_pos (by decide : 0 < 8) (Nat.two_pow_pos _))]
  by_cases h : g.o.mdBit 7 = true <;> simp [h]

/-- The two accounts of an address past every scratchpad agree. -/
theorem pastScratch_eq_gatherHigh {g : Grp} (h : g.unread = false) : pastScratch g = g.gatherHigh := by
  unfold pastScratch Grp.gatherHigh
  simp [Grp.valued_of_read h, spaceForm_eq_scr_iff, indexed_eq_gatherAddr]

theorem objectCauses_eq_bcCauses {g : Grp} (h : g.unread = false) : objectCauses g = bcCauses g := by
  unfold objectCauses bcCauses
  simp only [Grp.valued_of_read h, baseAddr_eq_memAddr]
  rfl

/-! ### The meanings of the instruction words -/

/-- A request as its checks see it: the member, the space, the address. -/
def LaneReq.target (r : LaneReq) : Member × Form × Nat := (r.x, r.form, r.addr)

/-- The checks of requests depend on their targets alone. -/
theorem placeCauses_congr (g : Grp) (n : Nat) {rs qs : List LaneReq} (h : rs.map LaneReq.target = qs.map LaneReq.target) :
    rs.flatMap (fun r => (g.place r.x r.form r.addr n).1) = qs.flatMap (fun r => (g.place r.x r.form r.addr n).1) := by
  have hmap : ∀ xs : List LaneReq, xs.flatMap (fun r => (g.place r.x r.form r.addr n).1) = (xs.map LaneReq.target).flatMap (fun p => (g.place p.1 p.2.1 p.2.2 n).1) :=
    fun xs => by rw [List.flatMap_map]; rfl
  rw [hmap, hmap, h]

theorem Grp.targets_reqs (g : Grp) (f : Form) (addr data cmp : Member → Nat) : (g.reqs f addr data cmp).map LaneReq.target = g.execs.map (fun x => (x, f, addr x)) := by
  simp [Grp.reqs, LaneReq.target, Function.comp_def]

/-- Requests at the address that a base register and the offset give. -/
theorem targets_based (g : Grp) {f f' : Form} (hf : f' = f) {wide : Bool} {data cmp data' cmp' : Member → Nat} :
    (g.execs.map (fun x => (⟨x, f', baseAddr wide g x, data' x, cmp' x⟩ : LaneReq))).map LaneReq.target = (g.reqs f (g.memAddr wide) data cmp).map LaneReq.target := by
  simp [LaneReq.target, Grp.targets_reqs, baseAddr_eq_memAddr, hf, Function.comp_def]

/-- Requests at the addresses of gathers and scatters. -/
theorem targets_indexed (g : Grp) {f f' : Form} (hf : f' = f) {data cmp data' cmp' : Member → Nat} :
    (g.execs.map (fun x => (⟨x, f', indexed g x, data' x, cmp' x⟩ : LaneReq))).map LaneReq.target = (g.reqs f g.gatherAddr data cmp).map LaneReq.target := by
  simp [LaneReq.target, Grp.targets_reqs, indexed_eq_gatherAddr, hf, Function.comp_def]

/-- For the groups of an instruction whose constants have been read, the causes that a table of statements gives, where it gives some, are those of the meaning. -/
def Agrees (o : Op) (declared : Option (Grp → List Nat)) (own : Grp → List Nat) : Prop :=
  ∀ d, declared = some d → ∀ g : Grp, g.o = o → g.unread = false → d g = own g

/-- HOW AN INSTRUCTION WORD CHANGES THE STATE: its group issues, with causes that agree with the table's, or issues after reading records, and no table gives its causes. -/
inductive WordMeaning (k : Mn) (o : Op) (declared : Option (Grp → List Nat)) (f : State → State) : Prop
  | issue (own : Grp → List Nat) (eff : Grp → Mach → Mach) (h : ∀ s, f s = issueWith k o own eff s) (ha : Agrees o declared own)
  | read (pre : Grp → List Nat) (read : Grp → Mach → Mach × RecRes) (own : Grp → List (List Nat) → List Nat) (eff : Grp → List (List Nat) → Mach → Mach)
      (h : ∀ s, f s = issueRead k o pre read own eff s) (hd : declared = none)

section
variable {k : Mn} {o : Op} {declared : Option (Grp → List Nat)} {own : Grp → List Nat} {i : Instr}

theorem Agrees.same : Agrees o (some own) own := fun d h _ _ _ => by cases h; rfl

theorem Agrees.objects : Agrees o (some objectCauses) bcCauses := fun d h _ _ hr => by cases h; exact objectCauses_eq_bcCauses hr

theorem WordMeaning.of_issueWith (eff : Grp → Mach → Mach) (ha : Agrees o declared own) : WordMeaning k o declared (issueWith k o own eff) := .issue own eff (fun _ => rfl) ha
theorem WordMeaning.of_laneOp (wide : Bool) (f : Grp → Member → DWord × BitVec 7) (ha : Agrees o declared own) : WordMeaning k o declared (laneOp k o own wide f) := .issue own _ (fun _ => rfl) ha
theorem WordMeaning.of_plain (wide : Bool) (f : Grp → Member → DWord) (ha : Agrees o declared noCauses) : WordMeaning k o declared (plain k o wide f) := .of_laneOp _ _ ha
theorem WordMeaning.of_logic2 (f : Word → Word → Word) (ha : Agrees o declared noCauses) : WordMeaning k o declared (logic2 k o f) := .of_plain _ _ ha
theorem WordMeaning.of_runOp (f : Grp → Member → List Word × BitVec 7) (ha : Agrees o declared own) : WordMeaning k o declared (runOp k o own f) := .issue own _ (fun _ => rfl) ha
theorem WordMeaning.of_scalarOp (wide : Bool) (f : Grp → DWord) (ha : Agrees o declared own) : WordMeaning k o declared (scalarOp k o own wide f) := .issue own _ (fun _ => rfl) ha
theorem WordMeaning.of_cctl (f : Grp → Core → Core) (ha : Agrees o declared own) : WordMeaning k o declared (cctl k o own f) := .issue own _ (fun _ => rfl) ha
theorem WordMeaning.of_eret (f : Fw → Mach → Nat → Mach) (ha : Agrees o declared eretCauses) : WordMeaning k o declared (eret k o f) := .issue _ _ (fun _ => rfl) ha
theorem WordMeaning.of_bcinit (f : Grp → Mach → Member → Mach) (ha : Agrees o declared bcCauses) : WordMeaning k o declared (bcinit k o f) := .issue _ _ (fun _ => rfl) ha
theorem WordMeaning.of_mmaIssue (tern : Bool) (ha : Agrees o declared (mmaCauses tern)) : WordMeaning k o declared (mmaIssue k tern o) := .issue _ _ (fun _ => rfl) ha

theorem WordMeaning.of_issueRead (pre : Grp → List Nat) (read : Grp → Mach → Mach × RecRes) (own : Grp → List (List Nat) → List Nat) (eff : Grp → List (List Nat) → Mach → Mach) (hd : declared = none) :
    WordMeaning k o declared (issueRead k o pre read own eff) := .read pre read own eff (fun _ => rfl) hd
theorem WordMeaning.of_issueRec (n : Nat) (pre : Grp → List Nat) (vas : Grp → List Nat) (own : Grp → List (List Nat) → List Nat) (eff : Grp → List (List Nat) → Mach → Mach) (hd : declared = none) :
    WordMeaning k o declared (issueRec k o n pre vas own eff) := .read pre _ own eff (fun _ => rfl) hd
theorem WordMeaning.of_macroIssue (hd : declared = none) : WordMeaning k o declared (macroIssue k o) := .of_issueRec _ _ _ _ _ hd

/-- The causes of an access form: those of its requests, and its own. -/
def AccessForm.causes (F : AccessForm) (g : Grp) : List Nat := (F.reqs g).flatMap (fun r => (g.place r.x r.form r.addr F.size).1) ++ F.more g

theorem ownOf_of_accessForm {F : AccessForm} (h : accessForm i = some F) : ownOf i = some F.causes := by
  cases i <;> cases h <;> rfl

/-- An access form agrees with a meaning that makes accesses of the same size at the same places. -/
theorem Agrees.access {F : AccessForm} {n : Nat} {reqs : Grp → List LaneReq} (hF : accessForm i = some F) (hn : F.size = n)
    (hr : ∀ g : Grp, g.o = o → (F.reqs g).map LaneReq.target = (reqs g).map LaneReq.target) (hm : ∀ g : Grp, g.unread = false → F.more g = own g) :
    Agrees o (ownOf i) (fun g => g.reqCauses n (reqs g) ++ own g) := by
  rw [ownOf_of_accessForm hF]
  intro d h g ho hu
  cases h
  subst hn
  simp only [Grp.reqCauses, Grp.valued_of_read hu, AccessForm.causes, placeCauses_congr g F.size (hr g ho), hm g hu]

theorem WordMeaning.of_accessWith {op : AccOp} {n : Nat} {writes : Bool} {reqs : Grp → List LaneReq} {F : AccessForm} (hF : accessForm i = some F) (hn : F.size = n)
    (hr : ∀ g : Grp, g.o = o → (F.reqs g).map LaneReq.target = (reqs g).map LaneReq.target) (hm : ∀ g : Grp, g.unread = false → F.more g = own g) :
    WordMeaning k o (ownOf i) (accessWith k o op n writes own reqs) := .issue _ _ (fun _ => rfl) (.access hF hn hr hm)

theorem WordMeaning.of_accessOp {op : AccOp} {n : Nat} {writes : Bool} {reqs : Grp → List LaneReq} {F : AccessForm} (hF : accessForm i = some F) (hn : F.size = n)
    (hr : ∀ g : Grp, g.o = o → (F.reqs g).map LaneReq.target = (reqs g).map LaneReq.target) (hm : ∀ g : Grp, g.unread = false → F.more g = noCauses g) :
    WordMeaning k o (ownOf i) (accessOp k o op n writes reqs) := .of_accessWith hF hn hr hm

theorem WordMeaning.of_loadOp {wide : Bool} {f f' : Form} (hf : f' = f) (hF : accessForm i = some (.load o f' (baseAddr wide))) : WordMeaning k o (ownOf i) (loadOp k o wide f) :=
  .of_accessOp hF (bytesOf_eq_szBytes _) (fun g _ => targets_based g hf) (fun _ _ => rfl)

theorem WordMeaning.of_storeOp {wide : Bool} {f f' : Form} (hf : f' = f) (hF : accessForm i = some (.store o f' o.b (baseAddr wide))) : WordMeaning k o (ownOf i) (storeOp k o wide f) :=
  .of_accessOp hF (bytesOf_eq_szBytes _) (fun g _ => targets_based g hf) (fun _ _ => rfl)

theorem Agrees.ttq : Agrees o (ownOf (.ttq o)) (fun g => g.reqCauses 32 (g.reqs (spaceForm (o.mdBits 4 3)) (g.memAddr true) noData noData)) := by
  intro d h g _ hu
  cases h
  simp only [Grp.reqCauses, Grp.valued_of_read hu]
  exact placeCauses_congr g 32 (targets_based g (formOf_eq_spaceForm _))

theorem targets_const (g : Grp) (h : g.o = o) : ∀ F, accessForm (.ldc o) = some F → (F.reqs g).map LaneReq.target = (g.onceForWarp (g.reqs .const (g.memAddr false) noData noData)).map LaneReq.target := by
  intro F hF
  cases hF
  subst h
  cases e : g.o.dst <;> simp [LaneReq.target, Grp.onceForWarp, Grp.reqs, baseAddr_eq_memAddr, e, Function.comp_def]

end

/-- EVERY INSTRUCTION WORD ISSUES: its arm answers a next state, the one that its issue leaves. -/
theorem exec_word_issues {i : Instr} {k : Mn} {o : Op} (h : i.mnOp? = some (k, o)) : ∃ f : State → State, (∀ s, exec i s = .next (f s)) ∧ WordMeaning k o (ownOf i) f := by
  cases i <;> cases h
  case nop | bra | brx | call | callx | ret | exit | yield | beat | enrol | park | strike | demote | kill | v2p | scmp | s2v | srd | swr | segld | flagclr |
      sdenc | pref | fence | cpseal | cpwait | tilecfg | tilerd | tilewr | tilerst | acalloc | acfree | acrd | acwr | aczero | acdrain | barSync | barArrive
      | evset | evsetClr | evwait | evtest | cont | xrd | xwr | trap =>
    exact ⟨_, fun _ => rfl, .of_issueWith _ .same⟩
  case iadd | isub | imul | imulh | imac | imacw | idiv | irem | imin | imax | iabs | ineg | iadd64 | isub64 | imul64 | imac64 | icmp | icmp64 | sel | lea |
      bcnt | lzc | bitrev | idot4 =>
    exact ⟨_, fun _ => rfl, .of_laneOp _ _ .same⟩
  case not | logic3 | shl64 | shr64 | sar64 | bfi | bmsk | bperm | shfn | plop | pmov | p2v | tilest => exact ⟨_, fun _ => rfl, .of_laneOp _ _ .same⟩
  case and | or | xor | shl | shr | sar | rot | bfe => exact ⟨_, fun _ => rfl, .of_logic2 _ .same⟩
  case fadd | fsub | fmul | fmac | fmin | fmax | fabs | fneg | fcmp | fclass | frnd | frcp | frsq | fsqrt | fdiv | fex2 | flg2 | fsin | fcos | ftanh | fdot2
      | fdot4 =>
    exact ⟨_, fun _ => rfl, .of_laneOp _ _ .same⟩
  case dadd | dsub | dmul | dmac | dmin | dmax | dabs | dneg | dcmp | dclass | drnd | drcp | drsq | dsqrt | ddiv =>
    exact ⟨_, fun _ => rfl, .of_laneOp _ _ .same⟩
  case hadd2 | hsub2 | hmul2 | hmac2 | hmin2 | hmax2 | habs2 | hneg2 | hcmp2 | hclass2 | hex2 | hrcp2 => exact ⟨_, fun _ => rfl, .of_laneOp _ _ .same⟩
  case cvt | cvtsat | pack | sdhdr | t5pk | t5unpk | lxch | vote | ballot | matchl | redux | scan | ddx | ddy | qswz =>
    exact ⟨_, fun _ => rfl, .of_laneOp _ _ .same⟩
  case unpack | sddec => exact ⟨_, fun _ => rfl, .of_runOp _ .same⟩
  case smov | siadd | simul | sand | sor | sxor | sshl | sshr | v2s | segrd | flagrd => exact ⟨_, fun _ => rfl, .of_scalarOp _ _ .same⟩
  case cctlIinv | cctlIinvpg | cctlTlbpg | cctlTlball => exact ⟨_, fun _ => rfl, .of_cctl _ .same⟩
  case eretResume | eretKill | eretFdom => exact ⟨_, fun _ => rfl, .of_eret _ .same⟩
  case bcinitInit | bcinitArm => exact ⟨_, fun _ => rfl, .of_bcinit _ .objects⟩
  case bcwait => exact ⟨_, fun _ => rfl, .of_issueWith _ .objects⟩
  case mma | mmas => exact ⟨_, fun _ => rfl, .of_mmaIssue _ .same⟩
  case ld => exact ⟨_, fun _ => rfl, .of_loadOp (formOf_eq_spaceForm _) rfl⟩
  case st => exact ⟨_, fun _ => rfl, .of_storeOp (formOf_eq_spaceForm _) rfl⟩
  case lds | ldl => exact ⟨_, fun _ => rfl, .of_loadOp rfl rfl⟩
  case sts | stl => exact ⟨_, fun _ => rfl, .of_storeOp rfl rfl⟩
  case ldc => exact ⟨_, fun _ => rfl, .of_accessOp rfl (bytesOf_eq_szBytes _) (fun g h => targets_const g h _ rfl) (fun _ _ => rfl)⟩
  case gath | scat =>
    exact ⟨_, fun _ => rfl, .of_accessWith rfl (bytesOf_eq_szBytes _) (fun g _ => targets_indexed g (formOf_eq_spaceForm _)) (fun _ => pastScratch_eq_gatherHigh)⟩
  case atom | red => exact ⟨_, fun _ => rfl, .of_accessOp rfl rfl (fun g h => h ▸ targets_based g (formOf_eq_spaceForm _)) (fun _ _ => rfl)⟩
  case cas128 | tlrmake => exact ⟨_, fun _ => rfl, .of_accessOp rfl rfl (fun g _ => targets_based g (formOf_eq_spaceForm _)) (fun _ _ => rfl)⟩
  case ttq => exact ⟨_, fun _ => rfl, .of_issueWith _ .ttq⟩
  case cpy | cpym | ttqClaim => exact ⟨_, fun _ => rfl, .of_issueRec _ _ _ _ _ rfl⟩
  case resume | wgres | wgcommit | wgcancel => exact ⟨_, fun _ => rfl, .of_issueRead _ _ _ _ rfl⟩
  case rast | attr | trav | filt | oblend | dice | samps | bmatch => exact ⟨_, fun _ => rfl, .of_macroIssue rfl⟩

end Sys2Proof.Machine
end

section
/-! PROOFS. No step stops, and an instruction word changes the machine only (00 R16; 08 R200). -/

namespace Sys2Proof.Machine

/-! ### No step stops (00 R16) -/

theorem mach_ite {p : Prop} [Decidable p] {s a b : State} (ha : ∃ m, a = { s with m }) (hb : ∃ m, b = { s with m }) : ∃ m, (if p then a else b) = { s with m } := by
  split
  · exact ha
  · exact hb

theorem issueWith_mach (k : Mn) (o : Op) (own : Grp → List Nat) (eff : Grp → Mach → Mach) (s : State) : ∃ m, issueWith k o own eff s = { s with m } := by
  unfold issueWith
  refine mach_ite ⟨_, rfl⟩ ?_
  split <;> exact ⟨_, rfl⟩

theorem issueRead_mach (k : Mn) (o : Op) (pre : Grp → List Nat) (read : Grp → Mach → Mach × RecRes) (own : Grp → List (List Nat) → List Nat)
    (eff : Grp → List (List Nat) → Mach → Mach) (s : State) : ∃ m, issueRead k o pre read own eff s = { s with m } := by
  unfold issueRead
  refine mach_ite ⟨_, rfl⟩ ?_
  split
  · exact ⟨_, rfl⟩
  · exact ⟨_, rfl⟩
  · split <;> exact ⟨_, rfl⟩

/-- An instruction word changes the machine only. -/
theorem exec_word_mach {i : Instr} {k : Mn} {o : Op} (h : i.mnOp? = some (k, o)) (s : State) : ∃ m, exec i s = .next { s with m } := by
  obtain ⟨f, hf, hm⟩ := exec_word_issues h
  rw [hf]
  cases hm with
  | issue own eff h _ =>
    obtain ⟨m, hm⟩ := issueWith_mach k o own eff s
    exact ⟨m, by rw [h, hm]⟩
  | read pre read own eff h _ =>
    obtain ⟨m, hm⟩ := issueRead_mach k o pre read own eff s
    exact ⟨m, by rw [h, hm]⟩

/-- An extensible slot changes the machine only. -/
theorem exec_slot_mach (n : BitVec 7) (o : Op) (s : State) : ∃ m, exec (.extensibleOpcode n o) s = .next { s with m } := by
  simp only [exec, execExtensibleOpcode]
  split
  · exact ⟨_, rfl⟩
  · split <;> exact ⟨_, rfl⟩

/-- What is no event is an instruction word or an extensible slot. -/
theorem word_of_not_event {i : Instr} (h : isEvent i = false) : (∃ k o, i.mnOp? = some (k, o)) ∨ ∃ n o, i = .extensibleOpcode n o := by
  cases hm : i.mnOp? with
  | some p => exact .inl ⟨p.1, p.2, rfl⟩
  | none =>
    unfold isEvent at h
    simp only [hm, Option.isNone_none, Bool.true_and] at h
    split at h
    · rename_i n o; exact .inr ⟨n, o, rfl⟩
    · cases h

theorem exec_mach_of_not_event {i : Instr} (h : isEvent i = false) (s : State) : ∃ m, exec i s = .next { s with m } := by
  rcases word_of_not_event h with ⟨k, o, hm⟩ | ⟨n, o, rfl⟩
  · exact exec_word_mach hm s
  · exact exec_slot_mach n o s

/-- What is no word answers a next state, due or not. -/
theorem exec_next_of_no_word {i : Instr} (h : i.mnOp? = none) (s : State) : ∃ t, exec i s = .next t := by
  cases i <;> cases h
  case controlIntervalBoundary =>
    simp only [exec, execControlIntervalBoundary]
    split
    · exact ⟨_, rfl⟩
    · split <;> exact ⟨_, rfl⟩
  case tileFillComplete =>
    simp only [exec, execTileFillComplete]
    split <;> exact ⟨_, rfl⟩
  case reservationMark | hostAccess | faultResolve | bundleStartEvaluation | bundleAdmit | bundleRetire | dispatcherStep | memoryAccessComplete =>
    simp only [exec, execReservationMark, execHostAccess, execFaultResolve, execBundleStartEvaluation, execBundleAdmit, execBundleRetire, execDispatcherStep, execMemoryAccessComplete]
    split <;> exact ⟨_, rfl⟩
  case microcodeApplyLive | watchdogExpiry | copyGranuleDeliver | copyComplete | multicastReceipt | tileReaderDone | tileTaskRetire | mmaAdmission | macroStep | macroRelease | darningPass =>
    simp only [exec, execMicrocodeApplyLive, execWatchdogExpiry, execCopyGranuleDeliver, execCopyComplete, execMulticastReceipt, execTileReaderDone, execTileTaskRetire, execMmaAdmission,
      execMacroStep, execMacroRelease, execDarningPass]
    split
    · split <;> exact ⟨_, rfl⟩
    · exact ⟨_, rfl⟩
  case copyRequestEnter =>
    simp only [exec, execCopyRequestEnter]
    split
    · split
      · split <;> exact ⟨_, rfl⟩
      · exact ⟨_, rfl⟩
    · exact ⟨_, rfl⟩
  all_goals exact ⟨_, rfl⟩

theorem exec_next (i : Instr) (s : State) : ∃ t, exec i s = .next t := by
  cases h : i.mnOp? with
  | some p => exact (exec_word_mach (k := p.1) (o := p.2) h s).imp' (fun m => { s with m }) (fun _ => id)
  | none => exact exec_next_of_no_word h s

theorem runEvent_next (i : Instr) (x : Subj) (s : State) : ∃ t, runEvent i x s = .next t := by
  unfold runEvent
  split
  · exact exec_next ..
  · exact ⟨_, rfl⟩

theorem runSlice_next (core slice : Nat) (s : State) : ∃ t, runSlice core slice s = .next t := by
  unfold runSlice
  split
  · exact ⟨_, rfl⟩
  · exact exec_next ..

theorem step_next (s : State) : ∃ t, step s = .next t := by
  unfold step
  split
  · exact runEvent_next ..
  · exact runSlice_next ..
  · split
    · exact runEvent_next ..
    · exact runSlice_next ..

/-- Settles O9: every word goes through an issue, which answers a next state that differs in the machine alone, and every event answers one, due or not. -/
theorem instructionsKeepFirmware : Obligations.InstructionsKeepFirmware :=
  ⟨exec_next, step_next, fun _ s h => exec_mach_of_not_event h s⟩

end Sys2Proof.Machine
end

section
/-! PROOFS. The lowest cause met at issue is trapped, and nothing else happens (00 R17; 16 R405). -/

namespace Sys2Proof.Machine

/-! ### The lowest cause (00 R17) -/

/-- The lower of two cause codes, where 0 is none. -/
def lowerCause (m x : Nat) : Nat := if x = 0 then m else if m = 0 then x else min m x

theorem minCause_eq_foldl (xs : List Nat) : minCause xs = xs.foldl lowerCause 0 := rfl

theorem lowerCause_of_zero (m : Nat) : lowerCause m 0 = m := if_pos rfl
theorem lowerCause_zero {x : Nat} (h : x ≠ 0) : lowerCause 0 x = x := (if_neg h).trans (if_pos rfl)
theorem lowerCause_eq_min {m x : Nat} (hm : m ≠ 0) (hx : x ≠ 0) : lowerCause m x = min m x := (if_neg hx).trans (if_neg hm)

theorem lowerCause_le_left {m x : Nat} (h : m ≠ 0) : lowerCause m x ≠ 0 ∧ lowerCause m x ≤ m := by
  by_cases hx : x = 0
  · rw [hx, lowerCause_of_zero]
    exact ⟨h, Nat.le_refl m⟩
  · rw [lowerCause_eq_min h hx]
    omega

theorem lowerCause_le_right {m x : Nat} (h : x ≠ 0) : lowerCause m x ≠ 0 ∧ lowerCause m x ≤ x := by
  by_cases hm : m = 0
  · rw [hm, lowerCause_zero h]
    exact ⟨h, Nat.le_refl x⟩
  · rw [lowerCause_eq_min hm h]
    omega

theorem lowerCause_cases (m x : Nat) : lowerCause m x = m ∨ lowerCause m x = x := by
  by_cases hx : x = 0
  · exact .inl (by rw [hx, lowerCause_of_zero])
  · by_cases hm : m = 0
    · exact .inr (by rw [hm, lowerCause_zero hx])
    · rw [lowerCause_eq_min hm hx]
      omega

theorem foldl_lowerCause_le_init (xs : List Nat) {m : Nat} (h : m ≠ 0) : xs.foldl lowerCause m ≠ 0 ∧ xs.foldl lowerCause m ≤ m := by
  induction xs generalizing m with
  | nil => exact ⟨h, Nat.le_refl m⟩
  | cons x r ih =>
    have hl := lowerCause_le_left (x := x) h
    exact (ih hl.1).imp id (Nat.le_trans · hl.2)

theorem foldl_lowerCause_mem (xs : List Nat) (m : Nat) : xs.foldl lowerCause m = m ∨ xs.foldl lowerCause m ∈ xs := by
  induction xs generalizing m with
  | nil => exact .inl rfl
  | cons x r ih =>
    rw [List.foldl_cons]
    rcases ih (lowerCause m x) with h | h
    · rcases lowerCause_cases m x with e | e
      · exact .inl (h.trans e)
      · exact .inr (by rw [h, e]; exact List.mem_cons_self ..)
    · exact .inr (List.mem_cons_of_mem x h)

/-- A cause that is taken is one of those met. -/
theorem minCause_mem {xs : List Nat} (h : minCause xs ≠ 0) : minCause xs ∈ xs := (foldl_lowerCause_mem xs 0).resolve_left h

/-- Where some cause is met one is taken, and none that is met is lower. -/
theorem minCause_le {xs : List Nat} {c : Nat} (hc : c ∈ xs) (h : c ≠ 0) : minCause xs ≠ 0 ∧ minCause xs ≤ c := by
  obtain ⟨pre, post, rfl⟩ := List.append_of_mem hc
  rw [minCause_eq_foldl, List.foldl_append, List.foldl_cons]
  have hl := lowerCause_le_right (m := pre.foldl lowerCause 0) h
  exact (foldl_lowerCause_le_init post hl.1).imp id (Nat.le_trans · hl.2)

/-- A group without privilege meets PRIVILEGED in a privileged form, or a lower cause (08 R200). -/
theorem Grp.cause_of_unprivileged (g : Grp) (h : g.privileged = false) : g.cause privCause ≠ 0 ∧ g.cause privCause ≤ causePrivileged :=
  minCause_le (by simp [privCause, h]) (by decide)

/-! ### Taking a trap (16 R405) -/

/-- The warp stopped, as every warp that a trap names is. -/
def Warp.stop (w : Warp) : Warp := { w with stopped := true }

/-- The machine once the warps named have stopped. -/
def Mach.stopWarps (m : Mach) (core : Nat) (slots : List Nat) : Mach := slots.foldl (fun m s => m.modWarp core s Warp.stop) m

theorem Mach.stopWarps_frame (m : Mach) (core : Nat) (slots : List Nat) : m.stopWarps core slots = { m with warps := (m.stopWarps core slots).warps } :=
  foldl_modWarp_frame slots core (fun s => s) (fun _ => Warp.stop) m

/-- Warps named that exist are stopped, and no other is changed. -/
theorem Mach.warp_stopWarps (m : Mach) (core : Nat) {slots : List Nat} (hs : ∀ s ∈ slots, s < 128) (c : Nat) {l : Nat} (hl : l < 128) :
    (m.stopWarps core slots).warp c l = if m.warps.has (wk c l) = true ∧ c = core ∧ l ∈ slots then (m.warp c l).stop else m.warp c l := by
  have hkey : ∀ s ∈ slots, wk core s = wk c l ↔ c = core ∧ s = l := fun s h => by
    have := hs s h
    unfold wk
    omega
  have hnil : slots.filter (fun s => wk core s = wk c l) = [] ↔ ¬ (c = core ∧ l ∈ slots) := by
    rw [List.filter_eq_nil_iff]
    constructor
    · rintro h ⟨rfl, hm⟩
      exact h l hm (decide_eq_true rfl)
    · intro h s hm e
      obtain ⟨hc, rfl⟩ := (hkey s hm).1 (of_decide_eq_true e)
      exact h ⟨hc, hm⟩
  refine (foldl_modWarp_warp slots core (fun s => s) (fun _ => Warp.stop) m c l).trans ?_
  rw [foldl_idem _ Warp.stop (fun _ => rfl)]
  simp only [hnil]
  by_cases hh : m.warps.has (wk c l) = true <;> by_cases hm : c = core ∧ l ∈ slots <;> simp [hh, hm]

/-- A warp's slice and block do not change when warps stop. -/
theorem Mach.warp_stopWarps_place (m : Mach) (core : Nat) {slots : List Nat} (hs : ∀ s ∈ slots, s < 128) (c : Nat) {l : Nat} (hl : l < 128) :
    ((m.stopWarps core slots).warp c l).slice = (m.warp c l).slice ∧ ((m.stopWarps core slots).warp c l).blk = (m.warp c l).blk := by
  rw [m.warp_stopWarps core hs c hl]
  split <;> exact ⟨rfl, rfl⟩

theorem Mach.trapAt_stopWarps (m : Mach) (core : Nat) {slots : List Nat} (hs : ∀ s ∈ slots, s < 128) : (m.stopWarps core slots).trapAt core slots = m.trapAt core slots := by
  have hhead : slots.headD 0 < 128 := by
    cases slots with
    | nil => decide
    | cons s r => exact hs s (List.mem_cons_self ..)
  have hshard : (m.stopWarps core slots).shard (shardOf core) = m.shard (shardOf core) := by rw [m.stopWarps_frame core slots]; rfl
  unfold Mach.trapAt
  rw [hshard, (m.warp_stopWarps_place core hs core hhead).1]

theorem Mach.bundleAt_stopWarps (m : Mach) (core : Nat) {slots : List Nat} (hs : ∀ s ∈ slots, s < 128) : bundleAt (m.stopWarps core slots) core slots = bundleAt m core slots := by
  cases slots with
  | nil => rfl
  | cons s r =>
    have hblk := (m.warp_stopWarps_place core hs core (hs s (List.mem_cons_self ..))).2
    have hblocks : (m.stopWarps core (s :: r)).blocks = m.blocks := by rw [m.stopWarps_frame core (s :: r)]
    simp only [bundleAt, List.head?_cons, Option.bind_some, Mach.blockOf, hblk, hblocks]

/-- A trap of warps outside the handler, of a cause that retires no page, stops the warps and joins its core's queue. -/
theorem Mach.takeTrap_taken (e : Fw) (u : Mach) (core swnum : Nat) {cause : Nat} (pc : DWord) (execs : List Nat) {slots : List Nat}
    (hs : ∀ s ∈ slots, s < 128) (hh : handlerSlot ∉ slots) (hc : cause ≠ 0x14) :
    TrapTaken core cause swnum pc (maskOf execs) slots u (Mach.takeTrap e u core cause swnum pc execs slots) := by
  have hat := u.trapAt_stopWarps core hs
  have hbundle := u.bundleAt_stopWarps core hs
  have hframe := u.stopWarps_frame core slots
  have htake : Mach.takeTrap e u core cause swnum pc execs slots = (u.stopWarps core slots).modCore core
      (fun c => { c with trapq := queueTrap c.trapq ⟨u.trapAt core slots, cause, swnum, pc, maskOf execs, slots, bundleAt u core slots⟩ }) := by
    rw [← hat, ← hbundle]
    unfold Mach.takeTrap
    rw [if_neg (by simpa using hh), if_neg hc]
    rfl
  have hcore : ∀ c, (u.stopWarps core slots).core c = u.core c := fun c => by rw [hframe]; rfl
  rw [htake]
  refine ⟨?_, fun c l hl hhas => ?_, fun c => ?_, ?_⟩
  · rw [hframe]; rfl
  · rw [Mach.warp_modCore, u.warp_stopWarps core hs c hl]
    simp only [hhas, true_and]
    rfl
  · rw [Mach.core_modCore, hcore]
    split
    · rename_i h; subst h; rfl
    · exact hcore c
  · rw [Mach.core_modCore, if_pos rfl, hcore]
    rfl

/-- A cause met at issue by a group outside the handler. -/
theorem Grp.trap_taken (g : Grp) {cause : Nat} (hh : ∀ x ∈ g.members, x.slot ≠ handlerSlot) (hc : cause ≠ 0x14) :
    TrapTaken g.core cause 0 g.pc (maskOf (g.execs.map (·.lane))) g.slots g.broken (g.trap g.m cause) := by
  refine Mach.takeTrap_taken g.e g.broken g.core 0 g.pc (g.execs.map (·.lane)) (fun s hs => ?_) (fun hs => ?_) hc
  · exact Nat.lt_of_le_of_lt ((mem_slotsOfMembers ..).1 hs).1 (by decide)
  · obtain ⟨-, x, hx, e⟩ := (mem_slotsOfMembers ..).1 hs
    exact hh x hx e

/-! ### The lowest cause is taken (00 R17; 16 R405) -/

/-- A group whose operands are there has read its constants. -/
theorem unread_of_operandsOf {s : State} {k : Mn} {o : Op} {g : Grp} {m : Mach} (h : operandsOf s k o = some (g, m)) : g.unread = false := by
  obtain ⟨t, -, rfl⟩ := operandsOf_eq h
  rfl

/-- A word that meets a cause of its table's is trapped with the lowest, whatever its effect. -/
theorem exec_traps {i : Instr} {k : Mn} {o : Op} {own : Grp → List Nat} {s : State} {g : Grp} {m : Mach} (hi : i.mnOp? = some (k, o)) (hown : ownOf i = some own)
    (h : Traps s k o own g m) : exec i s = .next { s with m := g.trap g.m (g.cause own) } := by
  obtain ⟨f, hf, hm⟩ := exec_word_issues hi
  cases hm with
  | issue own' eff heq ha =>
    obtain ⟨-, -, ho, -⟩ := operandsOf_frame h.operands
    have hsame : g.cause own = g.cause own' := by rw [Grp.cause, ha own hown g ho (unread_of_operandsOf h.operands), Grp.cause]
    have htraps : Traps s k o own' g m := ⟨h.operands, h.placed, hsame ▸ h.cause⟩
    rw [hf, heq, issueWith_trap eff htraps, hsame]
  | read pre read own' eff heq hnone => rw [hnone] at hown; cases hown

/-- Settles O13: the word's issue traps with the least of the causes met, which stops the members' warps and joins the core's queue. -/
theorem lowestCauseIsTaken : Obligations.LowestCauseIsTaken := by
  refine ⟨fun i k o own s g m hi hown htraps hhandler hcause => ?_, fun g h => g.cause_of_unprivileged h⟩
  exact ⟨⟨_, exec_traps hi hown htraps, g.trap_taken hhandler hcause⟩, minCause_mem htraps.cause, fun c hc h0 => (minCause_le hc h0).2⟩

end Sys2Proof.Machine
end

section
/-! PROOFS. The start instant of a bundle, in a command store that names a bundle twice (04 R90, R94). -/

namespace Sys2Proof.Machine

/-! ### The start instant (04 R94) -/

/-- The end of an UNBINDVF takes no bundle away and changes none. -/
@[simp] theorem State.settleUnbind_bundles (s : State) : s.settleUnbind.m.bundles = s.m.bundles := by
  unfold State.settleUnbind
  split
  · split <;> rfl
  · rfl

/-- A bundle in ADMIT takes the admission's step, and a command that waits for it may end. -/
theorem exec_bundleAdmit {s : State} {x : Bundle} (hx : s.m.bundles.get? s.subj.bundle = some x) (hst : x.st = .admitting) :
    exec .bundleAdmit s = .next ({ s with m := s.m.admitStep s.fw s.subj.bundle x } : State).settleUnbind := by
  simp only [exec, execBundleAdmit, hx, if_pos hst]

/-- A bundle in ADMIT that has nothing to launch. -/
def idleAdmitting : Bundle := { probeBundle with st := .admitting, launches := [] }

/-- The device after reset, but that its command store names bundle 1 twice: in ADMIT, and QUEUED after that in the same queue. -/
def namedTwice : State :=
  { State.reset with m := { Mach.reset with bundles := [(1, idleAdmitting), (1, { idleAdmitting with st := .queued, order := 1 })] }, subj := { Subj.zero with bundle := 1 } }

/-- The bundle in ADMIT is admitted next: no persistent launch refuses it and no quota holds it back. -/
theorem namedTwice_admits : namedTwice.m.persistRefused namedTwice.fw 1 idleAdmitting = false ∧ namedTwice.m.quotaAdmits namedTwice.fw idleAdmitting = true ∧
    namedTwice.m.admitNext namedTwice.fw 0 = some (1, idleAdmitting) := by decide +kernel

/-- Its admission moves the queue's next entry to HEAD, and that entry bears the same number: the bundle that has just begun to run is at HEAD again. -/
theorem namedTwice_at_head : ((namedTwice.m.admitStep namedTwice.fw 1 idleAdmitting).bundles.get? 1).map (·.st) = some .head := by decide +kernel

/-- Refutes O52: its clause of admission does not suppose that the numbers of the bundles rise, as its clauses of retirement and dispatch do. Where a number stands twice, the bundle admitted need not be running after its start instant, for the entry that its queue moves to HEAD may be the second of that number. -/
theorem not_bundleEvents : ¬ Obligations.BundleEvents := by
  rintro ⟨hevents, -⟩
  obtain ⟨t, ht, hpost⟩ := hevents .bundleAdmit _ namedTwice rfl ⟨idleAdmitting, rfl, rfl⟩
  obtain ⟨v, hadmitted, htv⟩ := hpost idleAdmitting rfl
  have hbundles : v.bundles = (namedTwice.m.admitStep namedTwice.fw 1 idleAdmitting).bundles := by
    injection (exec_bundleAdmit rfl rfl).symm.trans ht with hstate
    have hsettled := congrArg (fun s : State => s.m.bundles) (hstate.trans htv)
    simp only [State.settleUnbind_bundles] at hsettled
    exact hsettled.symm
  obtain ⟨hrefused, hquota, hnext⟩ := namedTwice_admits
  obtain ⟨⟨y, hy, hrunning, -⟩, -⟩ := hadmitted.runs hrefused (.inl hquota) ⟨_, hnext⟩
  have hhead : some y.st = some BSt.head := by
    rw [← namedTwice_at_head, ← hbundles, show Tab.get? v.bundles 1 = some y from hy, Option.map_some]
  rw [hrunning] at hhead
  cases hhead

end Sys2Proof.Machine
end

section
/-! PROOFS. Results of fixed latency: how a table of lane forms follows from the meanings of its instruction words (07 R180; 09 R232). -/

namespace Sys2Proof.Machine

/-! ### Lane forms and meanings -/

/-- The results of a group depend on the values of its executing members alone. -/
theorem Results.congr {g : Grp} {m t : Mach} {wide : Bool} {f f' : Member → DWord × BitVec 7} (h : Results g m t wide f) (he : ∀ x ∈ g.execs, f x = f' x) : Results g m t wide f' := by
  have hexc : ∀ s : Nat, (g.execs.filter (fun x => x.slot = s)).map (fun x => (f x).2) = (g.execs.filter (fun x => x.slot = s)).map (fun x => (f' x).2) :=
    fun s => List.map_congr_left (fun x hx => by rw [he x (List.mem_filter.1 hx).1])
  have cells : ∀ {α : Type} {cs : List α} {P : Member → DWord × BitVec 7 → α → Prop}, (∀ c ∈ cs, ∃ x ∈ g.execs, P x (f x) c) → ∀ c ∈ cs, ∃ x ∈ g.execs, P x (f' x) c := by
    intro α cs P hc c hm
    obtain ⟨x, hx, hP⟩ := hc c hm
    exact ⟨x, hx, he x hx ▸ hP⟩
  have brings : ∀ w, g.brings wide f w → g.brings wide f' w := by
    intro w hw
    unfold Grp.brings at hw ⊢
    split at hw
    case h_1 => exact hw
    case h_2 => exact hw.trans (congrArg orExc (hexc _))
    case h_3 n _ _ => exact hw.imp_right (cells (P := fun x r c => x.slot = w.slot ∧ c ∈ cellsOf n.toNat x.lane wide r.1))
    case h_4 => exact hw.imp_right (And.imp_right (cells (P := fun x r c => x.slot = w.slot ∧ c = (x.lane, r.1 != 0))))
    case h_5 => exact hw.imp_right (And.imp_right (cells (P := fun x r c => c = (x.lane, if wide then r.1 else (r.1.setWidth 32).setWidth 64))))
    case h_6 => exact hw
  exact ⟨fun hb x hx => he x hx ▸ h.value hb x hx, fun x hx => he x hx ▸ h.exc x hx, h.flag, h.kept, fun w hw => (h.only w hw).imp_right (brings w)⟩

/-- A WORD MEANS WHAT ITS LANE FORM SAYS: it issues with the form's causes, and gives each executing lane the form's value and exception bits. -/
def LaneMeaning (i : Instr) (k : Mn) (o : Op) (F : LaneForm) : Prop :=
  ∃ f, (∀ s, exec i s = .next (laneOp k o F.own F.wide f s)) ∧ ∀ g : Grp, g.o = o → ∀ x ∈ g.execs, f g x = F.res g x

/-- A table of lane forms holds where each of its words means what its form says. -/
theorem laneStatement_of_meaning {form : Instr → Option LaneForm} (h : ∀ {i k o F}, i.mnOp? = some (k, o) → form i = some F → LaneMeaning i k o F) : LaneStatement form := by
  intro i k o F s g m hi hF his
  obtain ⟨f, hexec, hf⟩ := h hi hF
  obtain ⟨-, -, ho, -⟩ := operandsOf_frame his.operands
  obtain ⟨t, ht, hadv, hres⟩ := laneOp_spec F.wide f his
  exact ⟨t, (hexec s).trans (congrArg _ ht), hadv, hres.congr (hf g ho)⟩

section
variable {i : Instr} {k : Mn} {o : Op}

/-- An FP32 meaning, from the two operations on patterns agreeing. -/
theorem LaneMeaning.of_fp32 {f f' : Nat → Nat → Nat → Nat → FRes} (hx : ∀ s, exec i s = .next (fp32 k o f s)) (h : ∀ rm a b c, f rm a b c = f' rm a b c) : LaneMeaning i k o (form32 f') :=
  ⟨_, hx, fun _ _ _ _ => congrArg ofRes (h _ _ _ _)⟩

/-- An FP64 meaning, likewise. -/
theorem LaneMeaning.of_fp64 {f f' : Nat → Nat → Nat → Nat → FRes} (hx : ∀ s, exec i s = .next (fp64 k o f s)) (h : ∀ rm a b c, f rm a b c = f' rm a b c) : LaneMeaning i k o (form64 f') :=
  ⟨_, hx, fun g ho x _ => by subst ho; exact congrArg ofRes (h _ _ _ _)⟩

/-- The elements of a packed word are its two halves (02 R44). -/
theorem elem_low_half (w : Word) : elem 16 w.toNat 0 = w.toNat % 65536 := congrArg (· % 65536) (Nat.div_one _)
theorem elem_high_half (w : Word) : elem 16 w.toNat 1 = w.toNat / 65536 := Nat.mod_eq_of_lt (by have := w.isLt; omega)

/-- A packed 16-bit meaning, from the two operations on an element agreeing. -/
theorem LaneMeaning.of_half2 {own : Grp → List Nat} {f f' : FFmt → Nat → Nat → Nat → Nat → FRes} (hx : ∀ s, exec i s = .next (half2 k o own f s)) (h : ∀ t rm a b c, f t rm a b c = f' t rm a b c) :
    LaneMeaning i k o (formHalf own f') := by
  refine ⟨_, hx, fun g ho x _ => ?_⟩
  subst ho
  simp only [packed2, elem_low_half, elem_high_half, h, formHalf, ofRes, Nat.mul_comm 65536]
  rfl

end

/-! ### Operations on patterns (09 R234 to R236) -/

/-- R234: the choice between two operands. -/
theorem fMinMax_eq_fpPick (f : FFmt) (max : Bool) (a b : Nat) : fMinMax f max a b = fpPick f max a b := by
  have hless : (decide (cmpVal (f.widen a) (f.widen b) < 0) || (decide (cmpVal (f.widen a) (f.widen b) = 0) && (f.widen a).neg? && !(f.widen b).neg?)) = fpLess f a b := rfl
  unfold fMinMax fpPick
  simp only [hless]
  cases (f.widen a).isNan <;> cases (f.widen b).isNan
  case false.false => cases fpLess f a b <;> cases max <;> rfl
  all_goals rfl

theorem xor_one_eq (n : Nat) : n ^^^ 1 = if n % 2 = 1 then n - 1 else n + 1 := by
  have hdiv : (n ^^^ 1) / 2 = n / 2 := Nat.xor_div_two.trans (Nat.xor_zero _)
  have hmod : (n ^^^ 1) % 2 = n % 2 ^^^ 1 := Nat.xor_mod_two_pow (n := 1)
  rcases Nat.mod_two_eq_zero_or_one n with h | h
  · have hone : (n ^^^ 1) % 2 = 1 := hmod.trans (congrArg (· ^^^ 1) h)
    rw [if_neg (by omega)]
    omega
  · have hzero : (n ^^^ 1) % 2 = 0 := hmod.trans (congrArg (· ^^^ 1) h)
    rw [if_pos h]
    omega

/-- A bit inverted is taken away where it is set and added where it is clear. -/
theorem xor_two_pow_eq (a k : Nat) : a ^^^ 2 ^ k = if bit a k then a - 2 ^ k else a + 2 ^ k := by
  have hmod : (a ^^^ 2 ^ k) % 2 ^ k = a % 2 ^ k := by rw [Nat.xor_mod_two_pow, Nat.mod_self, Nat.xor_zero]
  have hdiv : (a ^^^ 2 ^ k) / 2 ^ k = a / 2 ^ k ^^^ 1 := by rw [Nat.xor_div_two_pow, Nat.div_self (Nat.two_pow_pos k)]
  have hbit : bit a k = decide (a / 2 ^ k % 2 = 1) := Nat.testBit_eq_decide_div_mod_eq
  rw [← Nat.div_add_mod (a ^^^ 2 ^ k) (2 ^ k), hmod, hdiv, hbit, xor_one_eq]
  have ha := Nat.div_add_mod a (2 ^ k)
  generalize a / 2 ^ k = n at ha ⊢
  by_cases h : n % 2 = 1
  · have hle : 2 ^ k ≤ 2 ^ k * n := Nat.le_mul_of_pos_right _ (by omega)
    rw [if_pos h, if_pos (decide_eq_true h), Nat.mul_sub, Nat.mul_one]
    omega
  · rw [if_neg h, if_neg (fun e => h (of_decide_eq_true e)), Nat.mul_add, Nat.mul_one]
    omega

/-- R235: the sign operations. -/
theorem fNeg_eq_fpSign (f : FFmt) (a : Nat) : fNeg f a = fpSign f true a := by
  simp only [fNeg, fpSign, xor_two_pow_eq, if_true]

/-- R236: a compare's result as the statements give it. -/
theorem maskOut_eq_truthFor (o : Op) (wide t : Bool) : maskOut o wide t = (truthFor o wide t).1 := by
  unfold maskOut truthFor
  cases o.dst <;> cases t <;> cases wide <;> rfl

/-- R236: a class word, or whether it meets the mask in the immediate; no flag. -/
theorem classOut_eq (o : Op) (w : Nat) : (classOut o w, (0 : BitVec 7)) = match o.dst with
    | .p _ => (if w &&& o.imm.toNat % 1024 = 0 then 0 else 1, 0)
    | _ => (BitVec.ofNat 64 w, 0) := by
  unfold classOut
  cases o.dst <;> rfl

end Sys2Proof.Machine
end

section
/-! PROOFS. Floating-point arithmetic gives the results of its tables (09 R232 to R241). -/

namespace Sys2Proof.Machine

/-! ### FP32 (09 R233 to R239) -/

theorem float32_meaning {i : Instr} {k : Mn} {o : Op} {F : LaneForm} (hi : i.mnOp? = some (k, o)) (hF : float32Form i = some F) : LaneMeaning i k o F := by
  cases i <;> cases hF <;> cases hi
  case fadd | fsub | fmul | fmac | fabs | frnd | frcp | frsq | fsqrt | fdiv | fex2 | flg2 | fsin | fcos | ftanh | fdot2 | fdot4 =>
    exact .of_fp32 (fun _ => rfl) (fun _ _ _ _ => rfl)
  case fmin | fmax => exact .of_fp32 (fun _ => rfl) (fun _ _ _ _ => fMinMax_eq_fpPick ..)
  case fneg => exact .of_fp32 (fun _ => rfl) (fun _ _ _ _ => fNeg_eq_fpSign ..)
  case fcmp => exact ⟨_, fun _ => rfl, fun _ _ _ _ => congrArg (·, _) (maskOut_eq_truthFor ..)⟩
  case fclass => exact ⟨_, fun _ => rfl, fun _ _ _ _ => classOut_eq ..⟩

/-- Settles O22: each word computes its form's pattern and flags; the choice of R234, the sign of R235 and the compare and class results of R236 are the only ones written differently. -/
theorem floatSingleResults : Obligations.FloatSingleResults := laneStatement_of_meaning float32_meaning

/-! ### FP64 (09 R240) -/

theorem float64_meaning {i : Instr} {k : Mn} {o : Op} {F : LaneForm} (hi : i.mnOp? = some (k, o)) (hF : float64Form i = some F) : LaneMeaning i k o F := by
  cases i <;> cases hF <;> cases hi
  case dadd | dsub | dmul | dmac | dabs | drnd | drcp | drsq | dsqrt | ddiv => exact .of_fp64 (fun _ => rfl) (fun _ _ _ _ => rfl)
  case dmin | dmax => exact .of_fp64 (fun _ => rfl) (fun _ _ _ _ => fMinMax_eq_fpPick ..)
  case dneg => exact .of_fp64 (fun _ => rfl) (fun _ _ _ _ => fNeg_eq_fpSign ..)
  case dcmp => exact ⟨_, fun _ => rfl, fun _ _ _ _ => congrArg (·, _) (maskOut_eq_truthFor ..)⟩
  case dclass => exact ⟨_, fun _ => rfl, fun _ _ _ _ => classOut_eq ..⟩

/-- Settles O23: as for FP32, over the patterns of FP64. -/
theorem floatDoubleResults : Obligations.FloatDoubleResults := laneStatement_of_meaning float64_meaning

/-! ### Packed 16-bit elements (09 R241) -/

theorem half_meaning {i : Instr} {k : Mn} {o : Op} {F : LaneForm} (hi : i.mnOp? = some (k, o)) (hF : halfForm i = some F) : LaneMeaning i k o F := by
  cases i <;> cases hF <;> cases hi
  case hadd2 | hsub2 | hmul2 | hmac2 | habs2 | hcmp2 | hclass2 | hex2 | hrcp2 => exact .of_half2 (fun _ => rfl) (fun _ _ _ _ _ => rfl)
  case hmin2 | hmax2 => exact .of_half2 (fun _ => rfl) (fun _ _ _ _ _ => fMinMax_eq_fpPick ..)
  case hneg2 => exact .of_half2 (fun _ => rfl) (fun _ _ _ _ _ => fNeg_eq_fpSign ..)

/-- Settles O24: both halves of a packed word go through the operations of FP32, in the format that MOD names. -/
theorem packedHalfResults : Obligations.PackedHalfResults := laneStatement_of_meaning half_meaning

end Sys2Proof.Machine
end

section
/-! PROOFS. Conversions, packings and self-described blocks give the results of their tables (09 R243 to R250). -/

namespace Sys2Proof.Machine

/-! ### Elements of words (02 R44; 09 R243, R245) -/

/-- R243: an element put in its place leaves the elements below and above it. -/
theorem putElem_eq_withElement (w x i v : Nat) : putElem w x i v = withElement w x i v := by
  have hlow := Nat.div_add_mod' x (2 ^ (w * i))
  have hhigh := congrArg (· * 2 ^ (w * i)) (Nat.div_add_mod' (x / 2 ^ (w * i)) (2 ^ w))
  simp only [Nat.div_div_eq_div_mul, Nat.add_mul, Nat.mul_assoc, ← Nat.pow_add, ← Nat.mul_add_one, Nat.add_comm w] at hhigh
  unfold putElem withElement elem
  omega

theorem wideOf_eq_wholeFormat (c : Nat) : wideOf c = wholeFormat c := by
  unfold wideOf intSigned wholeFormat
  by_cases hu : 0x11 ≤ c ∧ c ≤ 0x14
  · have hs : ¬(0x20 ≤ c ∧ c ≤ 0x24) := by omega
    rw [if_pos hu, if_neg hs, if_pos hu]
  · rw [if_neg hu, if_neg hu]
    by_cases hs : 0x20 ≤ c ∧ c ≤ 0x24
    · rw [if_pos hs, if_pos hs]
    · rw [if_neg hs, if_neg hs]

/-- Elements stacked from a place upwards, each shifted by those below it, as the sum of the elements in their places. -/
theorem foldr_stack_eq_sum (w : Nat) (rs : List FRes) (k : Nat) :
    rs.foldr (fun r acc => r.1 + acc * 2 ^ w) 0 * 2 ^ (w * k) = (rs.mapIdx (fun i e => e.1 * 2 ^ (w * (i + k)))).sum := by
  induction rs generalizing k with
  | nil => exact Nat.zero_mul _
  | cons r rs ih =>
    have hnext : (fun i (e : FRes) => e.1 * 2 ^ (w * (i + 1 + k))) = fun i e => e.1 * 2 ^ (w * (i + (k + 1))) := by simp only [Nat.add_assoc, Nat.add_comm 1]
    rw [List.foldr_cons, List.mapIdx_cons, List.sum_cons, hnext, ← ih (k + 1), Nat.zero_add, Nat.add_mul, Nat.mul_assoc, ← Nat.pow_add, Nat.mul_add_one, Nat.add_comm w]

/-! ### Self-described blocks (02 R55 to R60) -/

theorem sdHeader_eq_headerWord (se sm c : Nat) : sdHeader se sm c = headerWord se sm c := by
  unfold sdHeader headerWord; omega

theorem maxG_eq_largestOf (c : Nat) : maxG c = largestOf c := rfl

/-- R60: the scale for a largest magnitude. A significand rounded up to 2^13 is 2^12 at the next exponent. -/
theorem sdScale_eq_scaleFields (amax : Val) (c : Nat) : sdScale amax c = scaleFields (divVal amax (largestOf c)).1 := by
  unfold sdScale scaleFields
  rw [maxG_eq_largestOf]
  cases (divVal amax (largestOf c)).1 with
  | nan | inf | zero => rfl
  | num s n d e k =>
    dsimp only
    generalize roundAt rmUp false n d e k (ilog n d e - 12) = r
    generalize ilog n d e = l
    have hhi : ∀ t : Int, (254 < t + 127) = (127 < t) := fun t => propext (by omega)
    have hlo : ∀ t : Int, (t + 127 < 1) = (t < -126) := fun t => propext (by omega)
    by_cases h : r.1 = 8192
    · have hse : l - 12 + 1 + 12 + 127 = l + 1 + 127 := by omega
      simp only [h, if_true, hse, hhi, hlo, Nat.sub_self]
    · have hse : l - 12 + 12 + 127 = l + 0 + 127 := by omega
      simp only [if_neg h, hse, hhi, hlo]

theorem sdRound_eq_payloadElement (c rm : Nat) (v : Val) : sdRound c rm v = payloadElement c rm v := by
  unfold sdRound payloadElement
  by_cases h : c = 0x60
  · subst h; rfl
  · refine Eq.trans ?_ (if_neg h).symm
    cases FFmt.ofCode c with
    | some => rfl
    | none => exact if_neg h

/-- The elements of a block in their places. -/
theorem foldl_sdPlace_eq_sum (c : Nat) (es : List (Nat × BitVec 7)) :
    (es.mapIdx (fun i e => sdPlace c i e.1)).foldl (· + ·) 0 = (es.mapIdx (fun i e => if c = 0x60 then e.1 * 3 ^ (i % 5) * 256 ^ (i / 5) else e.1 * 2 ^ (Fmt.width c * i))).sum := by
  rewrite [← List.sum_eq_foldl_nat]
  refine congrArg (fun f => (es.mapIdx f).sum) (funext fun i => funext fun e => ?_)
  unfold sdPlace
  rewrite [Nat.pow_mul 2 8]
  rfl

/-- R60: the block of a list of values. -/
theorem sdEncode_eq_blockOfValues (c rm : Nat) (xs : List Val) : sdEncode c rm xs = blockOfValues c rm xs := by
  unfold sdEncode blockOfValues
  simp only [sdHeader_eq_headerWord, sdScale_eq_scaleFields, sdRound_eq_payloadElement, foldl_sdPlace_eq_sum, maxMag]
  rcases hs : scaleFields (divVal (xs.foldl (fun a x => if cmpVal a x.abs < 0 then x.abs else a) (.zero false)) (largestOf c)).1 with ⟨_ | ⟨se, sm⟩, x⟩
  all_goals rewrite [hs]; rfl

/-- R247: the header for a largest magnitude. -/
theorem sdHdrOf_eq_headerOfMost (c a : Nat) : sdHdrOf c a = headerOfMost c a := by
  unfold sdHdrOf headerOfMost
  cases fmtFP32.widen a with
  | nan | inf | zero => exact sdHeader_eq_headerWord ..
  | num s n d e k =>
    dsimp only
    rewrite [sdScale_eq_scaleFields]
    obtain ⟨_ | ⟨se, sm⟩, _⟩ := scaleFields (divVal (Val.num s n d e k).abs (largestOf c)).1 <;> exact sdHeader_eq_headerWord ..

/-- R246: a lane that does not execute supplies +0. -/
theorem widen_laneWord (g : Grp) (h i : Nat) : fmtFP32.widen (g.laneWord (16 * h + i % 16) (Src.first g.o.a + i / 16)).toNat = halfValue g.o g h i := by
  unfold Grp.laneWord halfValue
  cases g.execs.find? (fun y => decide (y.lane = 16 * h + i % 16)) with
  | some => rfl
  | none => exact (by decide : fmtFP32.widen (0 : Word).toNat = .zero false)

theorem encodeHalf_eq (g : Grp) (h : Nat) : g.encodeHalf h = blockOfValues g.df g.rm ((List.range (Fmt.payload g.df)).map (halfValue g.o g h)) := by
  unfold Grp.encodeHalf
  simp only [widen_laneWord, sdEncode_eq_blockOfValues]

/-- Looking up a key in a list of keys with their values. -/
theorem find_keyed {β : Type} (f : Nat → β) (ks : List Nat) (k : Nat) :
    ((ks.map (fun h => (h, f h))).find? (fun b => decide (b.1 = k))).map Prod.snd = if k ∈ ks then some (f k) else none := by
  induction ks with
  | nil => rfl
  | cons a r ih =>
    rw [List.map_cons, List.find?_cons]
    by_cases h : a = k
    · subst h
      simp only [decide_true, Option.map_some, List.mem_cons_self, if_true]
    · simpa only [h, decide_false, List.mem_cons, Ne.symm h, false_or] using ih

/-- R246: an executing lane's half is one of the halves encoded. -/
theorem mem_halves {g : Grp} {x : Member} (hx : x ∈ g.execs) : x.lane / 16 ∈ g.halves ↔ x.lane < 32 := by
  have hany : g.execs.any (fun y => decide (y.lane / 16 = x.lane / 16)) = true := List.any_eq_true.2 ⟨x, hx, decide_eq_true rfl⟩
  rw [Grp.halves, List.mem_filter, List.mem_range, and_iff_left hany]
  omega

/-! ### T5 words (02 R58; 09 R250) -/

theorem mapIdx_map_range {α β : Type} (f : Nat → α) (g : Nat → α → β) (n : Nat) : ((List.range n).map f).mapIdx g = (List.range n).map (fun i => g i (f i)) :=
  List.ext_getElem (by simp) (by simp)

theorem sum_five_digits (a b c d e p : Nat) : a * 1 * p + (b * 3 * p + (c * 9 * p + (d * 27 * p + e * 81 * p))) = (a + 3 * b + 9 * c + 27 * d + 81 * e) * p := by
  rw [← Nat.add_mul, ← Nat.add_mul, ← Nat.add_mul, ← Nat.add_mul]
  exact congrArg (· * p) (by omega)

/-- Five digits to a byte. -/
theorem sum_digits_eq_sum_bytes (d : Nat → Nat) (n : Nat) : ((List.range (5 * n)).map (fun i => d i * 3 ^ (i % 5) * 2 ^ (8 * (i / 5)))).sum =
    ((List.range n).map (fun j => (d (5 * j) + 3 * d (5 * j + 1) + 9 * d (5 * j + 2) + 27 * d (5 * j + 3) + 81 * d (5 * j + 4)) * 256 ^ j)).sum := by
  induction n with
  | zero => rfl
  | succ n ih =>
    have hdigit : ∀ k, k < 5 → d (5 * n + k) * 3 ^ ((5 * n + k) % 5) * 2 ^ (8 * ((5 * n + k) / 5)) = d (5 * n + k) * 3 ^ k * 256 ^ n := fun k hk => by
      rewrite [show (5 * n + k) % 5 = k by omega, show (5 * n + k) / 5 = n by omega, Nat.pow_mul]
      rfl
    have hbyte : ((List.range 5).map ((fun i => d i * 3 ^ (i % 5) * 2 ^ (8 * (i / 5))) ∘ fun k => 5 * n + k)).sum =
        (d (5 * n) + 3 * d (5 * n + 1) + 9 * d (5 * n + 2) + 27 * d (5 * n + 3) + 81 * d (5 * n + 4)) * 256 ^ n :=
      (congrArg List.sum (List.map_congr_left fun k hk => hdigit k (List.mem_range.1 hk))).trans (sum_five_digits ..)
    rw [Nat.mul_succ, List.range_add, List.map_append, List.sum_append_nat, ih, List.map_map, hbyte,
      List.range_succ, List.map_append, List.sum_append_nat, List.map_singleton, List.sum_singleton]

/-- Trit i of b and a: the first sixteen stand in a, the rest in b (R250). -/
def tritOf (a b : Word) (i : Nat) : Nat := (b.toNat % 256 * 2 ^ 32 + a.toNat) / 4 ^ i % 4

theorem elem_eq_tritOf (a b : Word) {i : Nat} (hi : i < 20) : (if i < 16 then elem 2 a.toNat i else elem 2 b.toNat (i - 16)) = tritOf a b i := by
  have ha := a.isLt
  simp only [elem, tritOf, Nat.pow_mul]
  split
  next h =>
    have hpow : 2 ^ 32 = 4 ^ i * (4 * 4 ^ (15 - i)) := by rewrite [← Nat.pow_succ', ← Nat.pow_add, show i + (15 - i).succ = 16 by omega]; rfl
    rewrite [hpow, Nat.mul_left_comm, Nat.add_comm, Nat.add_mul_div_left _ _ (Nat.pow_pos (by decide)), Nat.mul_left_comm, Nat.add_mul_mod_self_left]
    rfl
  next h =>
    obtain ⟨j, rfl⟩ : ∃ j, i = 16 + j := ⟨i - 16, by omega⟩
    have hpow : 256 = 4 ^ j * (4 * 4 ^ (3 - j)) := by rewrite [← Nat.pow_succ', ← Nat.pow_add, show j + (3 - j).succ = 4 by omega]; rfl
    have hhigh : (b.toNat % 256 * 2 ^ 32 + a.toNat) / 4 ^ 16 = b.toNat % 256 := by omega
    rewrite [Nat.pow_add, ← Nat.div_div_eq_div_mul, hhigh, hpow, Nat.mod_mul_right_div_self, Nat.mod_mul_right_mod, Nat.add_sub_cancel_left]
    rfl

/-- The digit of a 2-bit trit; 2 is ill-formed and counts as 0. -/
def digitOf (t : Nat) : Nat := if t = 1 then 1 else if t = 3 then 2 else 0

theorem tritDigit_of_lt : ∀ t < 4, tritDigit t = (digitOf t, decide (t = 2)) := by decide

/-- R250: T5PK packs five digits to a byte. -/
theorem t5pkOf_eq (a b : Word) : t5pkOf a.toNat b.toNat =
    (BitVec.ofNat 64 ((List.range 4).map (fun j => (digitOf (tritOf a b (5 * j)) + 3 * digitOf (tritOf a b (5 * j + 1)) + 9 * digitOf (tritOf a b (5 * j + 2)) +
        27 * digitOf (tritOf a b (5 * j + 3)) + 81 * digitOf (tritOf a b (5 * j + 4))) * 256 ^ j)).sum,
      if (List.range 20).any (fun i => tritOf a b i = 2) then excInvalid else 0) := by
  have hds : (List.range 20).map (fun i => tritDigit (if i < 16 then elem 2 a.toNat i else elem 2 b.toNat (i - 16))) =
      (List.range 20).map (fun i => (digitOf (tritOf a b i), decide (tritOf a b i = 2))) :=
    List.map_congr_left (fun i hi => by rw [elem_eq_tritOf a b (List.mem_range.1 hi), tritDigit_of_lt (tritOf a b i) (Nat.mod_lt _ (by decide))])
  unfold t5pkOf
  simp only [hds, mapIdx_map_range, ← List.sum_eq_foldl_nat, List.any_map, Function.comp_def]
  rw [sum_digits_eq_sum_bytes (fun i => digitOf (tritOf a b i)) 4]

/-- The 2-bit form of a digit. -/
theorem trit_of_digit : ∀ d < 3, (match d with
    | 0 => 0
    | 1 => 1
    | _ => 3) = tritCode d := by decide

/-- R250: T5UNPK gives each digit in 2-bit form, and 0 for the digits of an ill-formed byte. -/
theorem t5unpkOf_eq (a : Nat) : t5unpkOf a =
    (BitVec.ofNat 64 ((List.range 20).map (fun i => (if 243 ≤ a / 256 ^ (i / 5) % 256 then 0 else tritCode (a / 256 ^ (i / 5) % 256 / 3 ^ (i % 5) % 3)) * 4 ^ i)).sum,
      if (List.range 4).any (fun j => 243 ≤ a / 256 ^ j % 256) then excInvalid else 0) := by
  have hbyte : ∀ j, elem 8 a j = a / 256 ^ j % 256 := fun j => by rewrite [elem, Nat.pow_mul]; rfl
  unfold t5unpkOf
  simp only [mapIdx_map_range, ← List.sum_eq_foldl_nat, hbyte, Nat.pow_mul 2 2]
  refine Prod.ext (congrArg (BitVec.ofNat 64) (congrArg List.sum (List.map_congr_left fun i _ => ?_))) rfl
  rewrite [← trit_of_digit _ (Nat.mod_lt _ (by decide))]
  rfl

/-! ### Each word's lanes -/

/-- R243: CVT and CVTSAT in a lane. -/
theorem Grp.cvtLane_eq_converted (g : Grp) (sat : Bool) (x : Member) : g.cvtLane sat x = converted g.o sat g x := by
  unfold Grp.cvtLane converted
  simp only [putElem_eq_withElement]
  rfl

/-- R245: PACK in a lane. -/
theorem Grp.packLane_eq_packedWord (g : Grp) (x : Member) : g.packLane x = packedWord g.o g x := by
  unfold Grp.packLane packedWord
  simp only [wideOf_eq_wholeFormat]
  have hsum := fun rs => foldr_stack_eq_sum (Fmt.width g.df) rs 0
  simp only [Nat.mul_zero, Nat.pow_zero, Nat.mul_one, Nat.add_zero] at hsum
  rewrite [hsum]
  rfl

/-- SDENC's word and flags in a lane: those of the block of its half. -/
def Grp.encodeLane (g : Grp) (x : Member) : DWord × BitVec 7 :=
  let r := (((g.halves.map (fun h => (h, g.encodeHalf h))).find? (fun b => b.1 = x.lane / 16)).map Prod.snd).getD (0, 0)
  (BitVec.ofNat 64 (elem 32 r.1 (x.lane % 16)), r.2)

/-- R248: SDENC in an executing lane. -/
theorem Grp.encodeLane_eq_encodedWord (g : Grp) {x : Member} (hx : x ∈ g.execs) : g.encodeLane x = encodedWord g.o g x := by
  unfold Grp.encodeLane encodedWord
  simp only [find_keyed, mem_halves hx]
  by_cases h : x.lane < 32
  · simp only [if_pos h, encodeHalf_eq]
    rfl
  · simp only [if_neg h]
    rfl

theorem convert_meaning {i : Instr} {k : Mn} {o : Op} {F : LaneForm} (hi : i.mnOp? = some (k, o)) (hF : convertForm i = some F) : LaneMeaning i k o F := by
  cases i <;> cases hF <;> cases hi
  case cvt | cvtsat => exact ⟨_, fun _ => rfl, fun g ho x _ => ho ▸ g.cvtLane_eq_converted _ x⟩
  case pack => exact ⟨_, fun _ => rfl, fun g ho x _ => ho ▸ g.packLane_eq_packedWord x⟩
  case sdenc => exact ⟨fun g x => g.encodeLane x, fun _ => rfl, fun g ho x hx => ho ▸ g.encodeLane_eq_encodedWord hx⟩
  case sdhdr => exact ⟨_, fun _ => rfl, fun g ho x _ => by subst ho; exact congrArg (fun n => (BitVec.ofNat 64 n, 0)) (sdHdrOf_eq_headerOfMost ..)⟩
  case t5pk => exact ⟨_, fun _ => rfl, fun _ _ _ _ => t5pkOf_eq ..⟩
  case t5unpk => exact ⟨_, fun _ => rfl, fun _ _ _ _ => t5unpkOf_eq ..⟩

/-- Settles O25: each word converts with the one `convert` of the model, and its elements, trits and block words stand in their places. -/
theorem conversionResults : Obligations.ConversionResults := laneStatement_of_meaning convert_meaning

end Sys2Proof.Machine
end

section
/-! PROOFS. The Tension Ring: reservations in their order, passes and refills of banks, spilled records brought on chip, and marks (04 R104; 07 R190 to R195). -/

namespace Sys2Proof.Machine

/-! ### Reservations in their order (07 R192, R194, R195) -/

/-- A reservation takes its place after those of its key and below. -/
def insertReserve (q : List Reserve) (x : Reserve) : List Reserve := q.filter (fun y => y.key ≤ x.key) ++ x :: q.filter (fun y => x.key < y.key)

theorem mem_insertReserve {q : List Reserve} {x r : Reserve} : r ∈ insertReserve q x ↔ r = x ∨ r ∈ q := by
  simp only [insertReserve, List.mem_append, List.mem_cons, List.mem_filter, decide_eq_true_eq]
  constructor
  · rintro (⟨hr, -⟩ | rfl | ⟨hr, -⟩)
    · exact .inr hr
    · exact .inl rfl
    · exact .inr hr
  · rintro (rfl | hr)
    · exact .inr (.inl rfl)
    · exact (Nat.lt_or_ge x.key r.key).elim (fun hlt => .inr (.inr ⟨hr, hlt⟩)) (fun hle => .inl ⟨hr, hle⟩)

theorem pairwise_insertReserve {q : List Reserve} (h : q.Pairwise (·.key ≤ ·.key)) (x : Reserve) : (insertReserve q x).Pairwise (·.key ≤ ·.key) := by
  refine List.pairwise_append.2 ⟨h.filter _, List.pairwise_cons.2 ⟨fun y hy => ?_, h.filter _⟩, fun y hy z hz => ?_⟩
  · exact Nat.le_of_lt (of_decide_eq_true (List.mem_filter.1 hy).2)
  · have hyx : y.key ≤ x.key := of_decide_eq_true (List.mem_filter.1 hy).2
    rcases List.mem_cons.1 hz with rfl | hz
    · exact hyx
    · exact Nat.le_trans hyx (Nat.le_of_lt (of_decide_eq_true (List.mem_filter.1 hz).2))

theorem mem_foldl_insertReserve {xs q : List Reserve} {r : Reserve} : r ∈ xs.foldl insertReserve q ↔ r ∈ xs ∨ r ∈ q := by
  induction xs generalizing q with
  | nil => simp
  | cons x xs ih => rw [List.foldl_cons, ih, mem_insertReserve, List.mem_cons, or_left_comm, or_assoc]

theorem pairwise_foldl_insertReserve (xs : List Reserve) {q : List Reserve} (h : q.Pairwise (·.key ≤ ·.key)) : (xs.foldl insertReserve q).Pairwise (·.key ≤ ·.key) := by
  induction xs generalizing q with
  | nil => exact h
  | cons x xs ih => exact ih (pairwise_insertReserve h x)

/-- The reservation that an unserved mark of a core stands for, with its place within the cycle and its holder. -/
def Mach.reserveOf (m : Mach) (core rank : Nat) (who : Nat ⊕ Nat) (x : Mark) : Reserve := ⟨x.cycle, rank, who, x.price, (m.blockOf core x.oldest.slot).map (·.bundle)⟩

/-- The reservation of a slice or a sequencer, if its mark has not been served. -/
def Mach.standing? (m : Mach) (core rank : Nat) (who : Nat ⊕ Nat) (mark : Option Mark) : Option Reserve := (mark.filter (fun x => !x.set)).map (m.reserveOf core rank who)

theorem Mach.standing?_eq_some {m : Mach} {core rank : Nat} {who : Nat ⊕ Nat} {mark : Option Mark} {r : Reserve} :
    m.standing? core rank who mark = some r ↔ ∃ x, mark = some x ∧ x.set = false ∧ r = m.reserveOf core rank who x := by
  simp only [standing?, Option.map_eq_some_iff, Option.filter_eq_some_iff, Bool.not_eq_true', and_assoc, eq_comm (a := r)]

/-- The reservations of a core are those of its six slices and of its sequencers, in the order of their keys. -/
theorem Mach.reserves_eq (m : Mach) (core : Nat) : m.reserves core =
    ((List.range 6).filterMap (fun k => m.standing? core k (.inl k) (m.slc core k).mark) ++
      (m.macros.filter (fun x => x.2.core = core)).filterMap (fun x => m.standing? core (6 + x.2.seq) (.inr x.1) x.2.mark)).foldl insertReserve [] := by
  unfold Mach.reserves
  refine congrArg (List.foldl insertReserve []) (congr (congrArg (fun f => (List.filterMap f _ ++ ·)) (funext fun k => ?_)) (congrArg (List.filterMap · _) (funext fun x => ?_)))
  · cases (m.slc core k).mark with
    | none => rfl
    | some x => cases h : x.set <;> simp [standing?, reserveOf, Option.filter, h]
  · cases x.2.mark with
    | none => rfl
    | some y => cases h : y.set <;> simp [standing?, reserveOf, Option.filter, h]

theorem reservesStand (m : Mach) (core : Nat) : ReservesStand m core := by
  refine ⟨m.reserves_eq core ▸ pairwise_foldl_insertReserve _ .nil, fun r => ?_⟩
  simp only [m.reserves_eq core, mem_foldl_insertReserve, List.mem_append, List.mem_filterMap, List.mem_range, List.mem_filter, decide_eq_true_eq, Mach.standing?_eq_some,
    List.not_mem_nil, or_false, Mach.reserveOf]
  simp only [and_assoc, exists_and_left]

/-! ### A reservation's turn (07 R191, R192; 05 R131) -/

theorem Mach.reserveKeys_eq (e : Fw) (m : Mach) (p : Nat) (r : Reserve) : m.reserveKeys e p r = reserveAccounts e m p r := by
  unfold Mach.reserveKeys reserveAccounts
  cases r.bundle with
  | none => rfl
  | some b =>
    simp only [Option.bind_some]
    cases m.bundles.get? b <;> rfl

/-- Accounts charged one after another: each that is named once pays once. -/
theorem get_foldl_charge (n : Nat) (keys : List Nat) (t : Tab Nat) (h : keys.Nodup) (a : Nat) :
    (keys.foldl (fun t k => t.set k (t.get k 0 - n)) t).get a 0 = if a ∈ keys then t.get a 0 - n else t.get a 0 := by
  induction keys generalizing t with
  | nil => rfl
  | cons k ks ih =>
    obtain ⟨hk, hks⟩ := List.nodup_cons.1 h
    rw [List.foldl_cons, ih _ hks, Tab.get_set]
    by_cases hak : a = k
    · subst hak; simp [hk]
    · simp [hak]

/-- Tokens leave a shard's packet and accounts, and the delivery counts them. -/
@[simp] theorem Mach.shard_takeTokens (m : Mach) (k p n : Nat) (keys : List Nat) (j : Nat) : (m.takeTokens k p n keys).shard j = if j = k
    then { m.shard k with packet := (m.shard k).packet - n, acct := (m.shard k).acct - n, nodes := keys.foldl (fun t k => t.set k (t.get k 0 - n)) (m.shard k).nodes, deliv := (m.shard k).deliv.set p ((m.shard k).deliv.get p 0 + n) }
    else m.shard j := Mach.shard_modShard ..


theorem sk_eq_iff {c l c' j : Nat} (hl : l < 8) (hj : j < 8) : sk c l = sk c' j ↔ c = c' ∧ l = j := by unfold sk; omega

/-- A mark whose tokens are set aside. -/
def Mach.setAside (m : Mach) (core : Nat) : Nat ⊕ Nat → Mach
  | .inl j => m.modSlc core j (fun s => { s with mark := s.mark.map (fun x => { x with set := true }) })
  | .inr id => m.modMacro id (fun x => { x with mark := x.mark.map (fun y => { y with set := true }) })

theorem Mach.setAside_frame (m : Mach) (core : Nat) (who : Nat ⊕ Nat) : m.setAside core who = { m with slices := (m.setAside core who).slices, macros := (m.setAside core who).macros } := by
  cases who <;> rfl

@[simp] theorem Mach.shard_setAside (m : Mach) (core : Nat) (who : Nat ⊕ Nat) (j : Nat) : (m.setAside core who).shard j = m.shard j := by cases who <;> rfl

/-- The test of a reservation's turn. -/
def Mach.canTake (e : Fw) (k i p : Nat) (u : Mach) (r : Reserve) : Bool :=
  r.price + u.owedLater k i ≤ (u.shard k).packet && r.price ≤ (u.shard k).acct && (reserveAccounts e u p r).all (fun a => r.price ≤ (u.shard k).nodes.get a 0) && r.price ≤ u.slewRoom e p k

theorem Mach.canTake_iff (e : Fw) (k i p : Nat) (u : Mach) (r : Reserve) : u.canTake e k i p r = true ↔ mayTake e k i p u r := by
  simp only [Mach.canTake, mayTake, Bool.and_eq_true, decide_eq_true_eq, List.all_eq_true, and_assoc]

/-- A reservation that can be taken whole has its tokens set aside out of its accounts; any other changes nothing. -/
theorem Mach.serve_eq (e : Fw) (k i p : Nat) (u : Mach) (r : Reserve) : Mach.serve e k i p u r =
    if u.canTake e k i p r then (u.takeTokens k p r.price (reserveAccounts e u p r)).setAside (16 * k + i) r.who else u := by
  unfold Mach.serve
  rw [u.reserveKeys_eq]
  by_cases h : u.canTake e k i p r = true
  · rw [if_pos h]
    refine (if_pos h).trans ?_
    cases r.who <;> rfl
  · rw [if_neg h]
    exact if_neg h

theorem reserveTaken (e : Fw) (k i p : Nat) (u : Mach) (r : Reserve) :
    ReserveTaken e k i p r u ((u.takeTokens k p r.price (reserveAccounts e u p r)).setAside (16 * k + i) r.who) where
  only := by
    refine ⟨?_, fun j hj => ?_, ?_⟩
    · rw [Mach.setAside_frame]; rfl
    · simp [hj]
    · simp
  nodes hn a := by simpa using get_foldl_charge r.price _ _ hn a
  deliv q := by
    simp only [Mach.shard_setAside, Mach.shard_takeTokens, if_true]
    exact Tab.get_set ..
  slice j hr hj := by
    rw [hr]
    refine ⟨rfl, fun c l hl => (Mach.slc_modSlc ..).trans ?_⟩
    simp only [sk_eq_iff hl hj]
    split
    next h => obtain ⟨rfl, rfl⟩ := h; rfl
    next => rfl
  macro_ n hr := by
    rw [hr]
    refine ⟨rfl, fun id => (Tab.get?_modify ..).trans ?_⟩
    by_cases h : id = n
    · subst h
      simp only [↓reduceIte]
      rfl
    · simp only [if_neg h, Option.map_id']
      rfl

theorem reservesServed (e : Fw) (k i p : Nat) (rs : List Reserve) (u : Mach) : ReservesServed e k i p rs u (rs.foldl (Mach.serve e k i p) u) := by
  induction rs generalizing u with
  | nil => exact .done u
  | cons r rs ih =>
    have hrest := ih (Mach.serve e k i p u r)
    rw [List.foldl_cons]
    rw [Mach.serve_eq] at hrest ⊢
    by_cases h : u.canTake e k i p r = true
    · rw [if_pos h] at hrest ⊢
      exact .serves r rs u _ _ ((u.canTake_iff ..).1 h) (reserveTaken e k i p u r) hrest
    · rw [if_neg h] at hrest ⊢
      exact .waits r rs u _ (fun hm => h ((u.canTake_iff ..).2 hm)) hrest

/-- Serving reservations changes one shard, slices and sequencers, and leaves the shard's place in the revolution. -/
theorem ReservesServed.frame {e : Fw} {k i p : Nat} {rs : List Reserve} {u t : Mach} (h : ReservesServed e k i p rs u t) :
    t = { u with shards := t.shards, slices := t.slices, macros := t.macros } ∧ (∀ j, j ≠ k → t.shard j = u.shard j) ∧ (t.shard k).pass = (u.shard k).pass := by
  induction h with
  | done u => exact ⟨rfl, fun _ _ => rfl, rfl⟩
  | serves r rs u v t _ htaken _ ih =>
    obtain ⟨hv, hothers, hshard⟩ := htaken.only
    obtain ⟨ht, ho, hpass⟩ := ih
    exact ⟨by rw [ht, hv], fun j hj => (ho j hj).trans (hothers j hj), by rw [hpass, hshard]⟩
  | waits r rs u t _ _ ih => exact ih

/-! ### A pass (07 R190 to R192) -/

theorem Mach.stationActive_iff (m : Mach) (c p : Nat) : m.stationActive c p = true ↔ stationed m c p := by
  simp only [Mach.stationActive, Mach.handlerActive, stationed, Bool.or_eq_true, Bool.and_eq_true, Bool.not_eq_true', List.any_eq_true, decide_eq_true_eq, and_assoc]

/-- The tokens that a bank takes on at its station: up to DRAWCAP, within every limit. -/
def Mach.refillTokens (e : Fw) (m : Mach) (k i p : Nat) : Nat :=
  min (min ((m.shard k).drawcap.toNat - m.asides (16 * k + i) - (m.core (16 * k + i)).bank) ((m.shard k).packet - m.owedLater k i))
    (min (min (m.shard k).acct ((m.shard k).nodes.get (e.rootKey p) 0)) (m.slewRoom e p k))

/-- A core's bank has taken on `n` tokens of its partition, out of the packet, the interval's account and the root's (07 R191, R192). -/
structure BankFilled (k c p root n : Nat) (u v : Mach) : Prop where
  only : v = { u with shards := v.shards, cores := v.cores } ∧ ∀ j, j ≠ k → v.shard j = u.shard j
  core : ∀ d, v.core d = if d = c then { u.core c with bank := (u.core c).bank + n } else u.core d
  pass : (v.shard k).pass = (u.shard k).pass
  packet : (v.shard k).packet = (u.shard k).packet - n
  acct : (v.shard k).acct = (u.shard k).acct - n
  node : (v.shard k).nodes.get root 0 = (u.shard k).nodes.get root 0 - n
  deliv : (v.shard k).deliv.get p 0 = (u.shard k).deliv.get p 0 + n

theorem bankFilled_zero (k c p root : Nat) (u : Mach) : BankFilled k c p root 0 u u where
  only := ⟨rfl, fun _ _ => rfl⟩
  core d := by
    split
    next h => subst h; rfl
    next => rfl
  pass := rfl
  packet := rfl
  acct := rfl
  node := rfl
  deliv := rfl

theorem bankFilled_takeTokens (k c p root n : Nat) (u : Mach) : BankFilled k c p root n u ((u.takeTokens k p n [root]).modCore c (fun x => { x with bank := x.bank + n })) where
  only := ⟨rfl, fun j hj => by simp [hj]⟩
  core d := Mach.core_modCore ..
  pass := by simp
  packet := by simp
  acct := by simp
  node := by simp
  deliv := by simp

theorem bankFilled_refillBank (e : Fw) (u : Mach) (k i p : Nat) : BankFilled k (16 * k + i) p (e.rootKey p) (u.refillTokens e k i p) u (u.refillBank e k i p) := by
  by_cases h : u.refillTokens e k i p = 0
  · have hsame : u.refillBank e k i p = u := if_pos h
    rw [hsame, h]
    exact bankFilled_zero ..
  · have hfill : u.refillBank e k i p = (u.takeTokens k p (u.refillTokens e k i p) [e.rootKey p]).modCore (16 * k + i) (fun x => { x with bank := x.bank + u.refillTokens e k i p }) := if_neg h
    rw [hfill]
    exact bankFilled_takeTokens ..

theorem shardSet_modShard (s : State) (k : Nat) (f : Shard → Shard) : ShardSet k f s { s with m := s.m.modShard k f } := by
  refine ⟨rfl, fun j => (Mach.shard_modShard ..).trans ?_⟩
  split
  next h => rw [h]
  next => rfl

section
variable {k i : Nat}

/-- A station with no partition to serve lets the packet pass. -/
theorem Mach.ringPass_of_idle {e : Fw} {m : Mach} (hi : (m.shard k).pass - 1 = i) (hidle : ∀ p, e.ownerOf (16 * k + i) = some p → ¬ stationed m (16 * k + i) p) :
    m.ringPass e k = m.modShard k (fun h => { h with pass := h.pass + 1 }) := by
  have hnone : (e.ownerOf (16 * k + i)).filter (m.stationActive (16 * k + i)) = none :=
    Option.filter_eq_none_iff.2 fun p hp hactive => hidle p hp ((m.stationActive_iff ..).1 hactive)
  unfold Mach.ringPass
  simp only [hi, hnone]

/-- A station that serves a partition has its reservations served, then its bank refilled. -/
theorem Mach.ringPass_of_stationed {e : Fw} {m : Mach} {p : Nat} (hi : (m.shard k).pass - 1 = i) (hp : e.ownerOf (16 * k + i) = some p) (hst : stationed m (16 * k + i) p) :
    m.ringPass e k = (Mach.refillBank e ((m.reserves (16 * k + i)).foldl (Mach.serve e k i p) m) k i p).modShard k (fun h => { h with pass := h.pass + 1 }) := by
  have hsome : (e.ownerOf (16 * k + i)).filter (m.stationActive (16 * k + i)) = some p := Option.filter_eq_some_iff.2 ⟨hp, (m.stationActive_iff ..).2 hst⟩
  unfold Mach.ringPass
  simp only [hi, hsome]

/-- The pass of a station that serves nobody. -/
theorem refilled_of_idle {s : State} (hi : (s.m.shard k).pass - 1 = i) (hidle : ∀ p, s.fw.ownerOf (16 * k + i) = some p → ¬ stationed s.m (16 * k + i) p) :
    Refilled k s { s with m := s.m.modShard k (fun h => { h with pass := h.pass + 1 }) } := by
  subst hi
  exact {
    order := fun _ _ => reservesStand ..
    frame := ⟨rfl, fun j hj => by simp [Mach.shard_modShard, hj], fun _ _ => rfl⟩
    pass := by simp [Mach.shard_modShard]
    free := fun _ => shardSet_modShard ..
    bank := fun p hp hst => absurd hst (hidle p hp) }

/-- The pass of a station that serves a partition, from its reservations served and its bank filled. -/
theorem refilled_of_filled {p : Nat} {s : State} {v w : Mach} (hi : (s.m.shard k).pass - 1 = i) (hp : s.fw.ownerOf (16 * k + i) = some p) (hst : stationed s.m (16 * k + i) p)
    (hserved : ReservesServed s.fw k i p (s.m.reserves (16 * k + i)) s.m v) (hfilled : BankFilled k (16 * k + i) p (s.fw.rootKey p) (v.refillTokens s.fw k i p) v w) :
    Refilled k s { s with m := w.modShard k (fun h => { h with pass := h.pass + 1 }) } := by
  subst hi
  obtain ⟨hv, hvothers, hvpass⟩ := hserved.frame
  obtain ⟨hw, hwothers⟩ := hfilled.only
  refine ⟨fun _ _ => reservesStand .., ⟨?_, fun j hj => ?_, fun c hc => ?_⟩, ?_, fun hfree => absurd hst (hfree p hp), fun q hq _ => ?_⟩
  · rw [hw, hv]; rfl
  · simp [Mach.shard_modShard, hj, hwothers j hj, hvothers j hj]
  · have hcores : v.cores = s.m.cores := by rw [hv]
    rw [Mach.core_modShard, hfilled.core, if_neg hc]
    simp only [Mach.core, hcores]
  · simp [Mach.shard_modShard, hfilled.pass, hvpass]
  · obtain rfl : p = q := Option.some.inj (hp.symm.trans hq)
    refine ⟨v, hserved, ?_⟩
    simp only [Mach.shard_modShard, if_true, Mach.core_modShard, hvpass]
    refine ⟨by rw [hw]; rfl, by rw [hw]; rfl, ?_, hfilled.packet, hfilled.acct, hfilled.node, hfilled.deliv⟩
    rw [hfilled.core, if_pos rfl]; rfl

end

theorem refilled_ringPass (s : State) (k : Nat) : Refilled k s { s with m := s.m.ringPass s.fw k } := by
  obtain ⟨i, hi⟩ : ∃ i, (s.m.shard k).pass - 1 = i := ⟨_, rfl⟩
  by_cases h : ∃ p, s.fw.ownerOf (16 * k + i) = some p ∧ stationed s.m (16 * k + i) p
  · obtain ⟨p, hp, hst⟩ := h
    rw [Mach.ringPass_of_stationed hi hp hst]
    exact refilled_of_filled hi hp hst (reservesServed ..) (bankFilled_refillBank ..)
  · have hidle : ∀ p, s.fw.ownerOf (16 * k + i) = some p → ¬ stationed s.m (16 * k + i) p := fun p hp hst => h ⟨p, hp, hst⟩
    rw [Mach.ringPass_of_idle hi hidle]
    exact refilled_of_idle hi hidle

/-! ### Queue refills (04 R104) -/

theorem refillFirst_eq_chipped {α : Type} (get : α → Option Int) (put : α → α) (q : List α) : refillFirst get put q = chipped get put q := by
  induction q with
  | nil => rfl
  | cons x r ih => rw [refillFirst, chipped, ih]

/-- What a bundle becomes counts only for the bundle that is there. -/
theorem Mach.modBundle_congr {m : Mach} {b : Nat} {f g : Bundle → Bundle} (h : ∀ x, m.bundles.get? b = some x → f x = g x) : m.modBundle b f = m.modBundle b g := by
  unfold Mach.modBundle Tab.modify
  cases hx : m.bundles.get? b with
  | none => rfl
  | some x => simp only [h x hx]

/-- What a launch becomes counts only for the launch that is there. -/
theorem Mach.modLaunch_congr {m : Mach} {b l : Nat} {f g : Launch → Launch} (h : ∀ x y, m.bundles.get? b = some x → x.launches.get? l = some y → f y = g y) :
    m.modLaunch b l f = m.modLaunch b l g := by
  refine Mach.modBundle_congr fun x hx => ?_
  unfold Tab.modify
  cases hy : x.launches.get? l with
  | none => rfl
  | some y => simp only [h x y hx hy]

theorem Mach.refill_copyReq {m : Mach} {b l c id : Nat} (hid : firstSpilled (fun (c : Copy) => c.spill) (m.copyQ b l c) = some id) (hroom : m.copyUsed c < copyStore.cap) :
    m.refill (.copyReq c) b l = { m with copies := m.copies.modify id (fun c => { c with spill := none }) } := by
  simp only [Mach.refill, hid, if_pos hroom]

theorem Mach.refill_tileTask {m : Mach} {b l c id : Nat} (hid : firstSpilled (fun (t : Task) => t.spill) (m.liveQ b l c) = some id) (hroom : m.taskUsed c < taskStore.cap) :
    m.refill (.tileTask c) b l = { m with tasks := m.tasks.modify id (fun t => { t with spill := none }) } := by
  simp only [Mach.refill, hid, if_pos hroom]

theorem Mach.refill_slip {m : Mach} {b l : Nat} {x : Bundle} {y : Launch} {r : Slip} (hx : m.bundles.get? b = some x) (hy : x.launches.get? l = some y)
    (hr : y.slips.find? (fun r => r.spill.isSome) = some r) (hroom : m.slipUsed r.core < slipStore.cap) :
    m.refill .slip b l = m.modLaunch b l (fun l => { l with slips := chipped (fun r => r.spill) (fun r => { r with spill := none }) l.slips }) := by
  refine Mach.modLaunch_congr fun x' y' hx' hy' => ?_
  obtain rfl := Option.some.inj (hx.symm.trans hx')
  obtain rfl := Option.some.inj (hy.symm.trans hy')
  simp only [hr, if_pos hroom, refillFirst_eq_chipped]

theorem Mach.refill_workGraph {m : Mach} {b l n : Nat} {x : Bundle} {y : Launch} {r : WgRec} (hx : m.bundles.get? b = some x) (hy : x.launches.get? l = some y)
    (hr : y.wgRecs.find? (fun r => r.node = n && r.spill.isSome) = some r) (hroom : m.wgUsed r.core < wgStore.cap) :
    m.refill (.workGraph n) b l = m.modLaunch b l (fun l => { l with wgRecs := chipped (fun r => if r.node = n then r.spill else none) (fun r => { r with spill := none }) l.wgRecs }) := by
  refine Mach.modLaunch_congr fun x' y' hx' hy' => ?_
  obtain rfl := Option.some.inj (hx.symm.trans hx')
  obtain rfl := Option.some.inj (hy.symm.trans hy')
  simp only [hr, if_pos hroom, refillFirst_eq_chipped]

theorem Mach.refill_geometry {m : Mach} {b l n : Nat} {x : Bundle} {r : Geo} (hx : m.bundles.get? b = some x) (hr : (x.bins.get n []).find? (fun r => r.spill.isSome) = some r)
    (hroom : m.geoRoom r.shard = true) :
    m.refill (.geometry n) b l = m.modBundle b (fun b => { b with bins := b.bins.set n (chipped (fun r => r.spill) (fun r => { r with spill := none }) (b.bins.get n [])) }) := by
  refine Mach.modBundle_congr fun x' hx' => ?_
  obtain rfl := Option.some.inj (hx.symm.trans hx')
  simp only [hr, if_pos hroom, refillFirst_eq_chipped]

/-- A table with one entry changed, the entry named by an option that holds its key. -/
theorem get?_modify_of_eq_some {α : Type} {t : Tab α} {o : Option Nat} {id : Nat} (ho : o = some id) (f : α → α) (q : Nat) :
    Tab.get? (t.modify id f) q = if o = some q then (Tab.get? t q).map f else Tab.get? t q := by
  rw [Tab.get?_modify, ho]
  by_cases h : q = id
  · simp [h]
  · simp [h, Ne.symm h]

/-! ### Marks (07 R194, R195) -/

theorem Mach.markMacro_of_due {m : Mach} {id : Nat} {x : MacroOp} (hx : m.macros.get? id = some x) (hmark : x.mark = none) {c : Nat} (hc : x.since = some c)
    (hdue : c + 32 ≤ (m.shard (x.core / 16)).cycle) :
    m.markMacro id x = { m with macros := m.macros.set id { x with mark := some ⟨x.pc, x.members.headD { slot := 0, lane := 0 }, (m.shard (x.core / 16)).cycle, stepPrice x.mn, false⟩ } } := by
  have hd : m.macroMarkDue x = true := by simp [Mach.macroMarkDue, hmark, hc, Mach.shardCycle, shardOf, revolution, hdue]
  simp only [Mach.markMacro, if_pos hd, Mach.modMacro, Tab.modify, hx]
  rfl

theorem Mach.markSlice_of_pick {e : Fw} {m : Mach} {core slice : Nat} {pc : DWord} {k : Nat} (hk : m.markPick core slice = some k)
    (hpc : pcKey ((m.warp core (k / 32 % 128)).thread (k % 32)).pc = pcKey pc) :
    m.markSlice e core slice pc = m.modSlc core slice (fun s => { s with mark := some ⟨((m.warp core (k / 32 % 128)).thread (k % 32)).pc, { slot := k / 32 % 128, lane := k % 32 },
      (m.shard (core / 16)).cycle, m.priceAt e core slice { slot := k / 32 % 128, lane := k % 32 }, false⟩ }) := by
  simp only [Mach.markSlice, hk, if_pos hpc]
  rfl

/-! ### The ring's events -/

/-- Between the boundaries of its control interval a shard has none due. -/
theorem Shard.boundaryDue_of_lt {h : Shard} (hc : h.cycle < 20000 * h.interval) : h.boundaryDue = false := decide_eq_false (Nat.not_le.2 hc)

theorem Shard.revDue_iff (h : Shard) : h.revDue = true ↔ (h.pass = 0 ∨ h.pass = 17) ∧ 32 * h.rev ≤ h.cycle := by
  simp only [Shard.revDue, Bool.and_eq_true, Bool.or_eq_true, decide_eq_true_eq]; rfl

theorem Shard.passDue_iff (h : Shard) : h.passDue = true ↔ 1 ≤ h.pass ∧ h.pass ≤ 16 ∧ 32 * (h.rev - 1) + 2 * (h.pass - 1) ≤ h.cycle := by
  simp only [Shard.passDue, Bool.and_eq_true, decide_eq_true_eq, and_assoc]; rfl

theorem exec_revolutionStart {s : State} (hk : s.subj.shard < 16) (hdue : (s.m.shard s.subj.shard).revDue = true) (hb : (s.m.shard s.subj.shard).boundaryDue = false) :
    exec .revolutionStart s = .next { s with m := s.m.modShard s.subj.shard (fun h => { h with rev := h.rev + 1, pass := 1, packet := min h.supply.toNat h.acct }) } := by
  simp [exec, execRevolutionStart, hk, hdue, hb]

theorem exec_ringPass {s : State} (hk : s.subj.shard < 16) (hdue : (s.m.shard s.subj.shard).passDue = true) (hb : (s.m.shard s.subj.shard).boundaryDue = false) :
    exec .ringPass s = .next { s with m := s.m.ringPass s.fw s.subj.shard } := by
  simp [exec, execRingPass, hk, hdue, hb]

/-- An event takes place wherever its form has it due. -/
def TakesPlace (i : Instr) (F : EventForm) : Prop := ∀ s, F.due s → ∃ t, exec i s = .next t ∧ F.post s t

theorem revolutionStart_takesPlace {F : EventForm} (hF : ringForm .revolutionStart = some F) : TakesPlace .revolutionStart F := by
  cases hF
  rintro s ⟨hk, hpass, hrev, hc⟩
  exact ⟨_, exec_revolutionStart hk ((Shard.revDue_iff _).2 ⟨hpass, hrev⟩) (Shard.boundaryDue_of_lt hc), shardSet_modShard ..⟩

theorem ringPass_takesPlace {F : EventForm} (hF : ringForm .ringPass = some F) : TakesPlace .ringPass F := by
  cases hF
  rintro s ⟨hk, hfirst, hlast, hcyc, hc⟩
  exact ⟨_, exec_ringPass hk ((Shard.passDue_iff _).2 ⟨hfirst, hlast, hcyc⟩) (Shard.boundaryDue_of_lt hc), refilled_ringPass ..⟩

theorem queueRefill_takesPlace (q : QueueKind) {F : EventForm} (hF : ringForm (.queueRefill q) = some F) : TakesPlace (.queueRefill q) F := by
  cases q <;> cases hF <;> intro s hdue <;> refine ⟨_, rfl, ?_⟩
  case copyReq c =>
    obtain ⟨⟨id, hid⟩, hroom⟩ := hdue
    dsimp only
    rw [Mach.refill_copyReq hid hroom]
    exact ⟨rfl, fun q => get?_modify_of_eq_some hid _ q⟩
  case tileTask c =>
    obtain ⟨⟨id, hid⟩, hroom⟩ := hdue
    dsimp only
    rw [Mach.refill_tileTask hid hroom]
    exact ⟨rfl, fun q => get?_modify_of_eq_some hid _ q⟩
  case slip =>
    obtain ⟨x, y, r, hx, hy, hr, hroom⟩ := hdue
    exact congrArg (fun m => { s with m }) (Mach.refill_slip hx hy hr hroom)
  case workGraph n =>
    obtain ⟨x, y, r, hx, hy, hr, hroom⟩ := hdue
    exact congrArg (fun m => { s with m }) (Mach.refill_workGraph hx hy hr hroom)
  case geometry n =>
    obtain ⟨x, r, hx, hr, hroom⟩ := hdue
    exact congrArg (fun m => { s with m }) (Mach.refill_geometry hx hr hroom)

theorem reservationMark_takesPlace (pc : DWord) {F : EventForm} (hF : ringForm (.reservationMark pc) = some F) : TakesPlace (.reservationMark pc) F := by
  cases hF
  rintro s (⟨x, hx, hmark, c, hc, hdue⟩ | ⟨hnone, k, hk, hpc⟩)
  · have hexec : exec (.reservationMark pc) s = .next { s with m := s.m.markMacro s.subj.id x } := by simp only [exec, execReservationMark, hx]
    refine ⟨_, hexec, fun y hy => ?_, fun hnone => ?_⟩
    · obtain rfl := Option.some.inj (hx.symm.trans hy)
      rw [Mach.markMacro_of_due hx hmark hc hdue]
    · exact absurd (hx.symm.trans hnone) (Option.some_ne_none x)
  · have hexec : exec (.reservationMark pc) s = .next { s with m := s.m.markSlice s.fw s.subj.core s.subj.unit pc } := by simp only [exec, execReservationMark, hnone]
    rw [Mach.markSlice_of_pick hk hpc] at hexec
    refine ⟨_, hexec, fun y hy => absurd (hy.symm.trans hnone) (Option.some_ne_none y), fun _ => ⟨rfl, fun j hj => ?_⟩⟩
    obtain rfl := Option.some.inj (hk.symm.trans hj)
    rw [Mach.slc_modSlc, if_pos rfl]

theorem ringForm_takesPlace (i : Instr) {F : EventForm} (hF : ringForm i = some F) : TakesPlace i F := by
  cases i
  case revolutionStart => exact revolutionStart_takesPlace hF
  case ringPass => exact ringPass_takesPlace hF
  case queueRefill q => exact queueRefill_takesPlace q hF
  case reservationMark pc => exact reservationMark_takesPlace pc hF
  all_goals cases hF

/-- Settles O46: by the four events of the table. A station's pass is its reservations served in their order, by induction over them, and then one refill of its bank. -/
theorem ringEvents : Obligations.RingEvents := by
  have happens : ∀ i F, ringForm i = some F → Happens ringForm i := fun i F hF => ⟨F, hF, ringForm_takesPlace i hF⟩
  refine ⟨fun i F s hF => ringForm_takesPlace i hF s, happens _ _ rfl, happens _ _ rfl, fun q => ?_, fun pc => happens _ _ rfl⟩
  cases q <;> exact happens _ _ rfl

end Sys2Proof.Machine
end

section
/-! PROOFS. The dispatcher's window, its choice of a core and its cursor (05 R117). -/

namespace Sys2Proof.Machine

/-! ### The window, the choice and the cursor (05 R117) -/

/-- What `argmin` finds is below all that stands before it, and no more than all that stands after it. -/
theorem argmin_split {α : Type} (f : α → Nat) {xs : List α} (h : xs ≠ []) :
    ∃ x before after, argmin f xs = some x ∧ xs = before ++ x :: after ∧ (∀ y ∈ before, f x < f y) ∧ ∀ y ∈ after, f x ≤ f y := by
  induction xs with
  | nil => exact absurd rfl h
  | cons x r ih =>
    by_cases hr : r = []
    · subst hr
      exact ⟨x, [], [], rfl, rfl, by simp, by simp⟩
    obtain ⟨y, before, after, hy, rfl, hbefore, hafter⟩ := ih hr
    by_cases hlt : f y < f x
    · exact ⟨y, x :: before, after, by simp only [argmin, hy, if_pos hlt], rfl, List.forall_mem_cons.2 ⟨hlt, hbefore⟩, hafter⟩
    · have hx : f x ≤ f y := Nat.le_of_not_lt hlt
      refine ⟨x, [], before ++ y :: after, by simp only [argmin, hy, if_neg hlt], rfl, by simp, fun z hz => ?_⟩
      rcases List.mem_append.1 hz with hz | hz
      · exact Nat.le_trans hx (Nat.le_of_lt (hbefore z hz))
      · rcases List.mem_cons.1 hz with rfl | hz
        · exact hx
        · exact Nat.le_trans hx (hafter z hz)

theorem Mach.score_eq (m : Mach) (c : Nat) : m.score c = scoreOf m c := by
  unfold Mach.score scoreOf
  omega

/-- The cores of a list that a block fits, each with the slices of its warps. -/
def seatings (seat : Nat → Option (List (Nat × Nat))) (cs : List Nat) : List (Nat × List (Nat × Nat)) := cs.filterMap (fun c => (seat c).map (fun s => (c, s)))

theorem map_fst_seatings (seat : Nat → Option (List (Nat × Nat))) (cs : List Nat) : (seatings seat cs).map Prod.fst = cs.filter (fun c => (seat c).isSome) := by
  unfold seatings
  induction cs with
  | nil => rfl
  | cons c cs ih => cases h : seat c <;> simp [h, ih]

theorem seat_of_mem_seatings {seat : Nat → Option (List (Nat × Nat))} {cs : List Nat} {x : Nat × List (Nat × Nat)} (h : x ∈ seatings seat cs) : seat x.1 = some x.2 := by
  simp only [seatings, List.mem_filterMap, Option.map_eq_some_iff] at h
  obtain ⟨c, -, s, hs, rfl⟩ := h
  exact hs

/-- The choice is made in a window on the cores that the block fits. -/
theorem Mach.chooseCore_eq (e : Fw) (m : Mach) (bid : Nat) (x : Bundle) (lid : Nat) (l : Launch) (nums : List Nat) (units : Nat) (trial : Bool) :
    m.chooseCore e bid x lid l nums units trial =
      (let win := (seatings (m.fits e bid x lid l nums units trial) (coreRing e m x.part)).take (x.eff 2 + 1)
       match argmin (fun c => m.score c.1) win, win.head? with
       | some c, some r => some (c.1, c.2, r.1)
       | _, _ => none) := rfl

/-- The block goes to the core of the lowest score in the window, the first of equals. -/
theorem Mach.chooseCore_of_fit (e : Fw) (m : Mach) (bid : Nat) (x : Bundle) (lid : Nat) (l : Launch) (nums : List Nat) (units : Nat) (trial : Bool)
    {fit : List Nat} (hfit : (coreRing e m x.part).filter (fun c => (m.fits e bid x lid l nums units trial c).isSome) = fit) (hne : fit ≠ []) :
    ∃ c seats first, m.chooseCore e bid x lid l nums units trial = some (c, seats, first) ∧ m.fits e bid x lid l nums units trial c = some seats ∧
      (fit.take (x.eff 2 + 1)).head? = some first ∧
      ∃ before after, fit.take (x.eff 2 + 1) = before ++ c :: after ∧ (∀ d ∈ before, scoreOf m c < scoreOf m d) ∧ ∀ d ∈ after, scoreOf m c ≤ scoreOf m d := by
  rw [Mach.chooseCore_eq]
  obtain ⟨win, hwin⟩ : ∃ win, (seatings (m.fits e bid x lid l nums units trial) (coreRing e m x.part)).take (x.eff 2 + 1) = win := ⟨_, rfl⟩
  have hcores : win.map Prod.fst = fit.take (x.eff 2 + 1) := by rw [← hwin, List.map_take, map_fst_seatings, hfit]
  have hwne : win ≠ [] := by
    rintro rfl
    exact hne (by simpa using hcores.symm)
  obtain ⟨c, before, after, hc, hsplit, hbefore, hafter⟩ := argmin_split (fun c => m.score c.1) hwne
  obtain ⟨r, rest, hr⟩ := List.exists_cons_of_ne_nil hwne
  have hseat : c ∈ seatings (m.fits e bid x lid l nums units trial) (coreRing e m x.part) := List.mem_of_mem_take (hwin ▸ hsplit ▸ List.mem_append_right before (List.mem_cons_self ..))
  have hhead : win.head? = some r := by rw [hr, List.head?_cons]
  refine ⟨c.1, c.2, r.1, by simp only [hwin, hc, hhead], seat_of_mem_seatings hseat, by rw [← hcores, List.head?_map, hhead]; rfl, before.map Prod.fst, after.map Prod.fst, ?_, ?_, ?_⟩
  · rw [← hcores, hsplit, List.map_append, List.map_cons]
  · simpa [Mach.score_eq] using hbefore
  · simpa [Mach.score_eq] using hafter

theorem Mach.chooseCore_of_no_fit (e : Fw) (m : Mach) (bid : Nat) (x : Bundle) (lid : Nat) (l : Launch) (nums : List Nat) (units : Nat) (trial : Bool)
    (hfit : (coreRing e m x.part).filter (fun c => (m.fits e bid x lid l nums units trial c).isSome) = []) : m.chooseCore e bid x lid l nums units trial = none := by
  have hnone : seatings (m.fits e bid x lid l nums units trial) (coreRing e m x.part) = [] := List.map_eq_nil_iff.1 ((map_fst_seatings ..).trans hfit)
  rw [Mach.chooseCore_eq, hnone]
  rfl

theorem pairwise_coresOf (mask : Nat) : (coresOf mask).Pairwise (· < ·) := List.pairwise_lt_range.filter _

/-- In rising cores the one after another is the lowest above it. -/
theorem afterCore_of_above {cs : List Nat} (hcs : cs.Pairwise (· < ·)) {c : Nat} (h : ∃ d ∈ cs, c < d) :
    afterCore cs c ∈ cs ∧ c < afterCore cs c ∧ ∀ d ∈ cs, c < d → afterCore cs c ≤ d := by
  obtain ⟨n, hn⟩ : ∃ n, cs.find? (fun d => c < d) = some n := Option.isSome_iff_exists.1 (by simpa using h)
  have hafter : afterCore cs c = n := by simp only [afterCore, hn, Option.getD_some]
  rw [hafter]
  obtain ⟨hcn, before, after, rfl, hbefore⟩ := List.find?_eq_some_iff_append.1 hn
  refine ⟨List.mem_of_find?_eq_some hn, of_decide_eq_true hcn, fun d hd hcd => ?_⟩
  obtain ⟨-, hrest, -⟩ := List.pairwise_append.1 hcs
  rcases List.mem_append.1 hd with hd | hd
  · exact absurd hcd (by simpa using hbefore d hd)
  · rcases List.mem_cons.1 hd with rfl | hd
    · exact Nat.le_refl d
    · exact Nat.le_of_lt (List.rel_of_pairwise_cons hrest hd)

theorem afterCore_of_last {cs : List Nat} {c : Nat} (h : ∀ d ∈ cs, d ≤ c) : afterCore cs c = cs.headD 0 := by
  have hnone : cs.find? (fun d => c < d) = none := List.find?_eq_none.2 (fun d hd => by simpa using h d hd)
  simp only [afterCore, hnone, Option.getD_none]

theorem Mach.cursor_moveCursor (e : Fw) (m : Mach) (part rr : Nat) : ((m.moveCursor e part rr).part part).cursor = afterCore (coresOf (e.part part).cores) rr := by
  rw [Mach.moveCursor, Mach.part_modPart, if_pos rfl]

/-- Settles O59: the window's cores are those that take the block, of which `argmin` gives the lowest score and the first of equals; the cores of a mask rise, so the first above another is the next. -/
theorem coreChoice : Obligations.CoreChoice := by
  refine ⟨fun e m bid x lid l nums units trial => ⟨m.chooseCore_of_no_fit e bid x lid l nums units trial, m.chooseCore_of_fit e bid x lid l nums units trial rfl⟩, fun e m part first => ?_⟩
  dsimp only
  rw [m.cursor_moveCursor]
  refine ⟨afterCore_of_above (pairwise_coresOf _), afterCore_of_last, fun p hp => ?_⟩
  rw [Mach.moveCursor, Mach.part_modPart, if_neg hp]

end Sys2Proof.Machine
end

section
/-! PROOFS. The control-interval boundary of a shard whose throttle step is none of the table's (05 R138, R139). -/

namespace Sys2Proof.Machine

/-! ### The throttle step (05 R138, R139) -/

/-- The device after reset, but that THSTEP of shard 0 stands at 5, past the last step of R138; shard 0's first control-interval boundary is due. -/
def pastLastStep : State := { State.reset with m := { Mach.reset with shards := [(0, { Shard.reset with thstep := 5 })] } }

/-- A reading of 110 °C on core 0 brings the trip, which leaves THSTEP 4. -/
theorem thstep_pastLastStep : ∃ t, exec (.controlIntervalBoundary [110] []) pastLastStep = .next t ∧ (t.m.shard 0).thstep = 4 ∧ hottestOf t.m 0 = 110 := ⟨_, rfl, by decide +kernel, by decide +kernel⟩

/-- Refutes O44: its clause of THSTEP (05 R138) does not suppose that the step is one of the table's 0 to 4. Where it stands above 4, the boundary's trip sets it to 4, while the clause has it stay. -/
theorem not_powerEvents : ¬ Obligations.PowerEvents := by
  rintro ⟨hevents, -⟩
  obtain ⟨t, ht, hpost⟩ := hevents (.controlIntervalBoundary [110] []) _ pastLastStep rfl (by decide +kernel)
  obtain ⟨t', ht', hstep, hhot⟩ := thstep_pastLastStep
  obtain rfl : t' = t := by injection ht'.symm.trans ht
  have hheat : ((t'.m.shard 0).thstep, (t'.m.shard 0).cool) = throttled 5 0 (hottestOf t'.m 0) := hpost.heat
  rw [hhot, hstep] at hheat
  have h4 : 4 = (throttled 5 0 110).1 := congrArg Prod.fst hheat
  exact absurd h4 (by decide)

end Sys2Proof.Machine
end

section
/-! PROOFS. The restore of a saved context, in tasks that name a number twice (16 R422; 04 R107). -/

namespace Sys2Proof.Machine

/-! ### A context that comes back (16 R422; 04 R107; log 97) -/

/-- A queued tile task of a block, on a core. -/
def queuedTask (blk core : Nat) : Task :=
  { rcd := [0, 0, 0, 0], blk, bundle := 1, launch := 0, core, order := 0, spill := none, step := 0, st := .queued, reserve := 0, interval := 0, weight := 1, since := none, engine := 0,
    filling := false, owner := none, claim := none }

/-- A running bundle whose ring has two chunks (04 R105). -/
def ringBundle : Bundle := { probeBundle with chain := [], effs := [[(9, 13)]] }

/-- Block 1 as a save has left it, with nothing in its frame. -/
def savedBlock : Block := { probeBlock with st := .saved }

/-- Partition 0 with core 0 has the saved block 1; the tasks name number 1 twice: for a task of block 2 on core 0, and after that for one of block 1 that its save left in the ring of core 1. -/
def taskNamedTwice : State :=
  { State.reset with
    fw := { Fw.reset with parts := [(0, probePart)], fenced := [] },
    m := { Mach.reset with bundles := [(1, ringBundle)], blocks := [(1, savedBlock)], tasks := [(1, queuedTask 2 0), (1, { queuedTask 1 1 with spill := some 0 })] }, subj := { Subj.zero with blk := 1 } }

/-- The dispatcher restores the block, which finds its core and the chunk that its task needs. -/
theorem taskNamedTwice_restores : taskNamedTwice.m.dispatch taskNamedTwice.fw (taskNamedTwice.m.partOf savedBlock) = some (.restore 1) ∧
    restoreAll taskNamedTwice.fw ringBundle probeLaunch false taskNamedTwice.m [(1, savedBlock)] ≠ none := by decide +kernel

/-- The spilled task of the block joins the queue of core 0 under its number, in the place of the other block's task. -/
theorem blk_restore_taskNamedTwice : (Tab.get? (taskNamedTwice.m.restore taskNamedTwice.fw 1).tasks 1).map (·.blk) = some 1 := by decide +kernel

/-- A context that comes back alone comes back once, on a core. -/
theorem ContextsBack.single {e : Fw} {x : Bundle} {l : Launch} {id : Nat} {k : Block} {u t : Mach} (h : ContextsBack e x l [(id, k)] u t) :
    ∃ core seats rr, ContextBack e id core seats rr k x u t := by
  cases h with
  | next _ _ _ core seats rr _ _ _ _ hback hrest =>
    cases hrest
    exact ⟨core, seats, rr, hback⟩

/-- With no copy to issue again, a context that is back keeps every task of another block that the table of tasks finds. -/
theorem ContextBack.others_keep_tasks {e : Fw} {id core rr : Nat} {seats : List (Nat × Nat)} {k : Block} {x : Bundle} {u t : Mach} (h : ContextBack e id core seats rr k x u t)
    (hreissue : k.reissue = []) (hsorted : k.tasks.sorted = true) {n : Nat} {o : Task} (hk : k.tasks.has n = false) (ho : u.tasks.get? n = some o) (hblk : o.blk ≠ id) :
    t.tasks.get? n = some o := by
  obtain ⟨v, hagain, -, -, htasks, -⟩ := h.copies
  rw [hreissue] at hagain
  cases hagain
  obtain ⟨-, -, hkeep⟩ := htasks hsorted
  exact hkeep n o hk ho hblk

/-- Refutes O53: its clause of restored contexts does not suppose that the numbers of the tasks rise, as its clause of ended saves does. Where a number stands twice, a spilled task that follows its block to another core may take the place of another block's task, which the clause has stay. -/
theorem not_saveEvents : ¬ Obligations.SaveEvents := by
  rintro ⟨hevents, -⟩
  obtain ⟨hdispatch, hroom⟩ := taskNamedTwice_restores
  obtain ⟨t, ht, -, hpost⟩ := hevents .restore _ taskNamedTwice rfl ⟨savedBlock, rfl, .inr (.inl hdispatch)⟩
  obtain ⟨-, hsaved⟩ := hpost savedBlock rfl
  obtain ⟨L, ⟨halone, -⟩, hrestored, -⟩ := hsaved (by decide) ringBundle probeLaunch rfl rfl
  obtain rfl : L = [(1, savedBlock)] := halone (by decide)
  obtain ⟨-, hback⟩ := hrestored hdispatch
  obtain ⟨core, seats, rr, hone⟩ := (hback hroom).single
  have hother : t.m.tasks.get? 1 = some (queuedTask 2 0) := hone.others_keep_tasks rfl rfl rfl rfl (by decide)
  have hstate : t.m = taskNamedTwice.m.restore taskNamedTwice.fw 1 := by
    injection ht with ht
    rw [← ht]
    rfl
  have hmoved := blk_restore_taskNamedTwice
  rw [← hstate, hother] at hmoved
  exact absurd hmoved (by decide)

end Sys2Proof.Machine
end
